-- ==== Sys2Proof/Word.lean ====
section
/-! DEFINITION. The words of the SG-880, the fields that only the extended form carries, and the small closed
sets of names that instruction operands range over (02_instruction_words.md). -/

namespace Sys2Proof

abbrev Byte := BitVec 8
abbrev Word := BitVec 32
abbrev DWord := BitVec 64

/-- Named fields of words 1 and 2 of an extended instruction (R45). Word 2 [31:24] is reserved and not held. -/
structure ExtFields where
  lt : Bool
  ib : Bool
  fdx : BitVec 6
  e5 : BitVec 6
  ru : BitVec 3
  yld : Bool
  pri : BitVec 2
  alc : BitVec 2
  cls : BitVec 2
  g2p : Bool
  g2 : BitVec 3
  g1p : Bool
  g1 : BitVec 3
  imm : BitVec 24
  deriving DecidableEq, Repr

/-- The four forms of an instruction (R40): L = 0b00, 0b01, 0b10, 0b11. -/
inductive Form where
  | base
  | baseLit (lit : DWord)
  | ext (e : ExtFields)
  | extLit (e : ExtFields) (lit : DWord)
  deriving DecidableEq, Repr

/-- The seven scopes (R29), in the order of their codes (R122). -/
inductive Scope where
  | hart | core | cluster | die | dev | fab | sys
  deriving DecidableEq, Repr

/-- Conditions of `vcmp` (R164). -/
inductive CmpOp where
  | eq | ne | lt | le | gt | ge | un
  deriving DecidableEq, Repr

/-- Conditions of `vwait` (R198). -/
inductive WaitOp where
  | eq | ne | lt | ge | ltn | gen
  deriving DecidableEq, Repr

/-- Functions of `vred`, `vgred` and `vscan` (R165 to R167). -/
inductive RedOp where
  | add | addo | addx | min | max | and | or | xor
  deriving DecidableEq, Repr

/-- Functions of `fisect` (R247). -/
inductive IsectOp where
  | mul | add | min | max | first
  deriving DecidableEq, Repr

/-- Functions of `funion` (R247). -/
inductive UnionOp where
  | add | sub | min | max | first
  deriving DecidableEq, Repr

/-- Functions of `fsort` (R250). -/
inductive SortOp where
  | add | min | max | first
  deriving DecidableEq, Repr

/-- Operations of `amo` (R194); `cas` is a row of its own. -/
inductive AmoOp where
  | add | and | or | xor | min | max | swap
  deriving DecidableEq, Repr

/-- Operations of `vamo` (R195). -/
inductive VamoOp where
  | int (op : AmoOp)
  | fadd
  deriving DecidableEq, Repr

/-- The spaces a `diag.st` may write (R371). -/
inductive DiagSpace where
  | global | tcm | sp
  deriving DecidableEq, Repr

/-- Where a hart runs: core, partition of the core, slot of the partition (R12, R17). -/
structure HartId where
  core : Nat
  part : Nat
  slot : Nat
  deriving DecidableEq, Repr

end Sys2Proof
end

