-- ==== Sys2Proof/Syntax.lean ====
section
/-! DEFINITION. The instruction set: one constructor for each row of the opcode table. Rows with a word carry the
form they are written in (R40, R45) and the fields of word 0 (R41), least significant field first and the chain bit
`k` last. Rows without a word are the steps that engines, environment and host take of their own. -/

namespace Sys2Proof

inductive Instr where
  /-- R90. Writes the 64-bit wrapped sum of two scalar registers to xd. -/
  | add (fm : Form) (d : BitVec 6) (a : BitVec 6) (b : BitVec 6)
  /-- R90. Writes the 64-bit wrapped difference of two scalar registers to xd. -/
  | sub (fm : Form) (d : BitVec 6) (a : BitVec 6) (b : BitVec 6)
  /-- R90. Writes the low 64 bits of the product of two scalar registers. -/
  | mul (fm : Form) (d : BitVec 6) (a : BitVec 6) (b : BitVec 6)
  /-- R90. Writes the high 64 bits of the signed 128-bit product. -/
  | mulh (fm : Form) (d : BitVec 6) (a : BitVec 6) (b : BitVec 6)
  /-- R90. Writes the high 64 bits of the unsigned 128-bit product. -/
  | mulhN (fm : Form) (d : BitVec 6) (a : BitVec 6) (b : BitVec 6)
  /-- R91. Writes the signed quotient truncated toward zero, never trapping. -/
  | div (fm : Form) (d : BitVec 6) (a : BitVec 6) (b : BitVec 6)
  /-- R91. Writes the unsigned quotient, all ones on division by zero. -/
  | divN (fm : Form) (d : BitVec 6) (a : BitVec 6) (b : BitVec 6)
  /-- R91. Writes the signed remainder with the sign of the dividend. -/
  | rem (fm : Form) (d : BitVec 6) (a : BitVec 6) (b : BitVec 6)
  /-- R91. Writes the unsigned remainder, the dividend on division by zero. -/
  | remN (fm : Form) (d : BitVec 6) (a : BitVec 6) (b : BitVec 6)
  /-- R90. Writes the bitwise AND of two scalar registers. -/
  | and (fm : Form) (d : BitVec 6) (a : BitVec 6) (b : BitVec 6)
  /-- R90. Writes the bitwise OR of two scalar registers. -/
  | or (fm : Form) (d : BitVec 6) (a : BitVec 6) (b : BitVec 6)
  /-- R90. Writes the bitwise XOR of two scalar registers. -/
  | xor (fm : Form) (d : BitVec 6) (a : BitVec 6) (b : BitVec 6)
  /-- R90. Writes xa AND NOT xb. -/
  | andn (fm : Form) (d : BitVec 6) (a : BitVec 6) (b : BitVec 6)
  /-- R90. Shifts xa left by the low six bits of xb. -/
  | shl (fm : Form) (d : BitVec 6) (a : BitVec 6) (b : BitVec 6)
  /-- R90. Shifts xa right, zero-filled, by the low six bits of xb. -/
  | shr (fm : Form) (d : BitVec 6) (a : BitVec 6) (b : BitVec 6)
  /-- R90. Shifts xa right, sign-filled, by the low six bits of xb. -/
  | sar (fm : Form) (d : BitVec 6) (a : BitVec 6) (b : BitVec 6)
  /-- R90. Rotates xa left by the low six bits of xb. -/
  | rol (fm : Form) (d : BitVec 6) (a : BitVec 6) (b : BitVec 6)
  /-- R92. Adds an extended immediate to a source register and writes xd. -/
  | addImm (fm : Form) (d : BitVec 6) (i : BitVec 12)
  /-- R92. Writes the extended immediate to xd. -/
  | li (fm : Form) (d : BitVec 6) (i : BitVec 12)
  /-- R92. Copies a source scalar register to xd. -/
  | mov (fm : Form) (d : BitVec 6) (s : BitVec 6)
  /-- R92. ANDs an immediate into a scalar register. -/
  | andImm (fm : Form) (d : BitVec 6) (i : BitVec 12)
  /-- R92. ORs an immediate into a scalar register. -/
  | orImm (fm : Form) (d : BitVec 6) (i : BitVec 12)
  /-- R92. XORs an immediate into a scalar register. -/
  | xorImm (fm : Form) (d : BitVec 6) (i : BitVec 12)
  /-- R92. Shifts left by an immediate amount. -/
  | shlImm (fm : Form) (d : BitVec 6) (i : BitVec 12)
  /-- R92. Shifts right, zero-filled, by an immediate amount. -/
  | shrImm (fm : Form) (d : BitVec 6) (i : BitVec 12)
  /-- R92. Shifts right, sign-filled, by an immediate amount. -/
  | sarImm (fm : Form) (d : BitVec 6) (i : BitVec 12)
  /-- R92. Rotates left by an immediate amount. -/
  | rolImm (fm : Form) (d : BitVec 6) (i : BitVec 12)
  /-- R92. Multiplies by an immediate, keeping the low 64 bits. -/
  | mulImm (fm : Form) (d : BitVec 6) (i : BitVec 12)
  /-- R93. Writes the number of leading zero bits of xa. -/
  | clz (fm : Form) (d : BitVec 6) (a : BitVec 6)
  /-- R93. Writes the number of trailing zero bits of xa. -/
  | ctz (fm : Form) (d : BitVec 6) (a : BitVec 6)
  /-- R93. Writes the number of one bits of xa. -/
  | popc (fm : Form) (d : BitVec 6) (a : BitVec 6)
  /-- R93. Extracts a bit field of xa, zero-extended. -/
  | bext (fm : Form) (d : BitVec 6) (a : BitVec 6) (b : BitVec 6)
  /-- R93. Inserts the low bits of xa into a field of xd. -/
  | bins (fm : Form) (d : BitVec 6) (a : BitVec 6) (b : BitVec 6)
  /-- R93. Writes xa when xd is nonzero, else xb. -/
  | sel (fm : Form) (d : BitVec 6) (a : BitVec 6) (b : BitVec 6)
  /-- R93. Writes the smaller of two registers as i64. -/
  | min (fm : Form) (d : BitVec 6) (a : BitVec 6) (b : BitVec 6)
  /-- R93. Writes the larger of two registers as i64. -/
  | max (fm : Form) (d : BitVec 6) (a : BitVec 6) (b : BitVec 6)
  /-- R93. Writes the smaller of two registers as n64. -/
  | minN (fm : Form) (d : BitVec 6) (a : BitVec 6) (b : BitVec 6)
  /-- R93. Writes the larger of two registers as n64. -/
  | maxN (fm : Form) (d : BitVec 6) (a : BitVec 6) (b : BitVec 6)
  /-- R94. Branches when xa equals xb. -/
  | bEq (fm : Form) (a : BitVec 6) (b : BitVec 6) (p : BitVec 8)
  /-- R94. Branches when xa differs from xb. -/
  | bNe (fm : Form) (a : BitVec 6) (b : BitVec 6) (p : BitVec 8)
  /-- R94. Branches when xa is less than xb as i64. -/
  | bLt (fm : Form) (a : BitVec 6) (b : BitVec 6) (p : BitVec 8)
  /-- R94. Branches when xa is at least xb as i64. -/
  | bGe (fm : Form) (a : BitVec 6) (b : BitVec 6) (p : BitVec 8)
  /-- R94. Branches when xa is less than xb as n64. -/
  | bLtn (fm : Form) (a : BitVec 6) (b : BitVec 6) (p : BitVec 8)
  /-- R94. Branches when xa is at least xb as n64. -/
  | bGen (fm : Form) (a : BitVec 6) (b : BitVec 6) (p : BitVec 8)
  /-- R95. Jumps to a word displacement, discarding the link. -/
  | jmp (fm : Form) (p : BitVec 17)
  /-- R95. Jumps to a displacement and writes the link to xd. -/
  | call (fm : Form) (d : BitVec 6) (p : BitVec 17)
  /-- R96. Jumps to the address in xq with bits [1:0] cleared. -/
  | jmpReg (fm : Form) (q : BitVec 6)
  /-- R96. Jumps through xq and writes the link to xs. -/
  | callReg (fm : Form) (q : BitVec 6) (s : BitVec 6)
  /-- R96. Returns through xq, a jump with a return-prediction hint. -/
  | ret (fm : Form) (q : BitVec 6)
  /-- R97. Sets vl to the minimum of the request and the grant for the named width and returns it. -/
  | setvl (fm : Form) (d : BitVec 6) (a : BitVec 6) (w : BitVec 2)
  /-- R99. Parks until all hart slots agree, then merges harts into merge-group leaders with more lanes. -/
  | vjoin (fm : Form) (two : Bool)
  /-- R99. Divides the issuing hart's lanes among merge groups and resumes merged-away leaders. -/
  | vsplit (fm : Form) (four : Bool)
  /-- R100. Reads a system register into xd. -/
  | mfs (fm : Form) (d : BitVec 6) (sys : BitVec 12)
  /-- R100. Writes a system register from xa, with its map's access rules and checks. -/
  | mts (fm : Form) (a : BitVec 6) (sys : BitVec 12)
  /-- R101. Retires and raises cause 0xC0 with tval n. -/
  | trap (fm : Form) (n : BitVec 12)
  /-- R102. Returns from a trap to epc, restoring privilege and interrupt enable. -/
  | eret (fm : Form)
  /-- R103. Has no architectural effect; may move the hart behind other ready harts. -/
  | yield (fm : Form)
  /-- R104. Parks the hart while no enabled event bit is set. -/
  | wfe (fm : Form)
  /-- R121. Loads 1, 2 or 4 bytes, sign-extended, from global memory or TCM. -/
  | lds (fm : Form) (d : BitVec 6) (b : BitVec 6) (i : BitVec 6) (w : BitVec 2) (t : Bool)
  /-- R121. Loads 8 bytes from global memory or TCM. -/
  | ldD (fm : Form) (d : BitVec 6) (b : BitVec 6) (i : BitVec 6) (t : Bool)
  /-- R121. Loads 1, 2 or 4 bytes, zero-extended. -/
  | ldz (fm : Form) (d : BitVec 6) (b : BitVec 6) (i : BitVec 6) (w : BitVec 2) (t : Bool)
  /-- R122. Stores the low bytes of xv after retirement through the scalar store buffer. -/
  | st (fm : Form) (v : BitVec 6) (b : BitVec 6) (i : BitVec 6) (w : BitVec 2) (t : Bool)
  /-- R146. Acquire load at a named scope. -/
  | ldacq (fm : Form) (d : BitVec 6) (b : BitVec 6) (i : BitVec 6) (w : Bool) (c : Scope)
  /-- R146. Release store at a named scope. -/
  | strel (fm : Form) (v : BitVec 6) (b : BitVec 6) (i : BitVec 6) (w : Bool) (c : Scope)
  /-- R144. Orders older scalar-class accesses before younger vector-class accesses at core scope. -/
  | fenceSv (fm : Form)
  /-- R144. Orders older vector-class accesses before younger scalar-class accesses at core scope. -/
  | fenceVs (fm : Form)
  /-- R145. Makes older accesses perform at the scope before younger ones and discards fetched instructions. -/
  | fence (fm : Form) (c : Scope)
  /-- R129. Prefetch hint into a cache level; no architectural effect. -/
  | pref (fm : Form) (b : BitVec 6) (i : BitVec 6) (l : BitVec 2)
  /-- R131. Removes every translation covering an address in an address space from all translation caches. -/
  | tlbinvVa (fm : Form) (a : BitVec 6) (s : BitVec 6)
  /-- R131. Removes every translation of an address space. -/
  | tlbinvAsn (fm : Form) (s : BitVec 6)
  /-- R131. Removes every translation of the device. -/
  | tlbinvAll (fm : Form)
  /-- R125. Unit-stride vector load of active elements below vl, restartable on fault. -/
  | vld (fm : Form) (v : BitVec 5) (b : BitVec 6) (w : BitVec 2) (t : Bool) (k : Bool)
  /-- R125. Strided vector load. -/
  | vlds (fm : Form) (v : BitVec 5) (b : BitVec 6) (c : BitVec 6) (w : BitVec 2) (t : Bool) (k : Bool)
  /-- R125. Gather load through an index vector. -/
  | vldx (fm : Form) (v : BitVec 5) (b : BitVec 6) (c : BitVec 5) (w : BitVec 2) (s : Bool) (t : Bool) (i : Bool) (k : Bool)
  /-- R125. Unit-stride vector store, held until retirement. -/
  | vst (fm : Form) (v : BitVec 5) (b : BitVec 6) (w : BitVec 2) (t : Bool) (k : Bool)
  /-- R125. Strided vector store. -/
  | vsts (fm : Form) (v : BitVec 5) (b : BitVec 6) (c : BitVec 6) (w : BitVec 2) (t : Bool) (k : Bool)
  /-- R128. Stores the first n bytes of v under byte-mask guards with no alignment requirement. -/
  | vstu (fm : Form) (v : BitVec 5) (b : BitVec 6) (c : BitVec 6) (t : Bool) (k : Bool)
  /-- R126. Scatter store through an index vector, optionally ordered. -/
  | vstx (fm : Form) (v : BitVec 5) (b : BitVec 6) (c : BitVec 5) (w : BitVec 2) (s : Bool) (t : Bool) (i : Bool) (o : Bool) (k : Bool)
  /-- R160. Element-wise floating addition rounded once. -/
  | vadd (fm : Form) (d : BitVec 5) (a : BitVec 5) (b : BitVec 5) (f : BitVec 3) (k : Bool)
  /-- R160. Element-wise floating subtraction. -/
  | vsub (fm : Form) (d : BitVec 5) (a : BitVec 5) (b : BitVec 5) (f : BitVec 3) (k : Bool)
  /-- R160. Element-wise floating multiplication. -/
  | vmul (fm : Form) (d : BitVec 5) (a : BitVec 5) (b : BitVec 5) (f : BitVec 3) (k : Bool)
  /-- R160. Element-wise floating division, never trapping. -/
  | vdiv (fm : Form) (d : BitVec 5) (a : BitVec 5) (b : BitVec 5) (f : BitVec 3) (k : Bool)
  /-- R160. Element-wise floating minimum under R74. -/
  | vmin (fm : Form) (d : BitVec 5) (a : BitVec 5) (b : BitVec 5) (f : BitVec 3) (k : Bool)
  /-- R160. Element-wise floating maximum under R74. -/
  | vmax (fm : Form) (d : BitVec 5) (a : BitVec 5) (b : BitVec 5) (f : BitVec 3) (k : Bool)
  /-- R161. Fused a times b plus d, rounded once. -/
  | vfma (fm : Form) (d : BitVec 5) (a : BitVec 5) (b : BitVec 5) (f : BitVec 3) (k : Bool)
  /-- R161. Fused d minus a times b, rounded once. -/
  | vfms (fm : Form) (d : BitVec 5) (a : BitVec 5) (b : BitVec 5) (f : BitVec 3) (k : Bool)
  /-- R161. Element-wise square root. -/
  | vsqrt (fm : Form) (d : BitVec 5) (a : BitVec 5) (f : BitVec 3) (k : Bool)
  /-- R161. Element-wise reciprocal square root, correctly rounded. -/
  | vrsqrt (fm : Form) (d : BitVec 5) (a : BitVec 5) (f : BitVec 3) (k : Bool)
  /-- R161. Element-wise absolute value. -/
  | vabs (fm : Form) (d : BitVec 5) (a : BitVec 5) (f : BitVec 3) (k : Bool)
  /-- R161. Element-wise negation. -/
  | vneg (fm : Form) (d : BitVec 5) (a : BitVec 5) (f : BitVec 3) (k : Bool)
  /-- R162. Element-wise integer addition stored under R157. -/
  | viadd (fm : Form) (d : BitVec 5) (a : BitVec 5) (b : BitVec 5) (f : BitVec 3) (k : Bool)
  /-- R162. Element-wise integer subtraction. -/
  | visub (fm : Form) (d : BitVec 5) (a : BitVec 5) (b : BitVec 5) (f : BitVec 3) (k : Bool)
  /-- R162. Element-wise integer multiplication. -/
  | vimul (fm : Form) (d : BitVec 5) (a : BitVec 5) (b : BitVec 5) (f : BitVec 3) (k : Bool)
  /-- R162. Element-wise high half of the integer product. -/
  | vimulh (fm : Form) (d : BitVec 5) (a : BitVec 5) (b : BitVec 5) (f : BitVec 3) (k : Bool)
  /-- R162. Element-wise integer minimum. -/
  | vimin (fm : Form) (d : BitVec 5) (a : BitVec 5) (b : BitVec 5) (f : BitVec 3) (k : Bool)
  /-- R162. Element-wise integer maximum. -/
  | vimax (fm : Form) (d : BitVec 5) (a : BitVec 5) (b : BitVec 5) (f : BitVec 3) (k : Bool)
  /-- R162. Element-wise count of leading zero bits. -/
  | vclz (fm : Form) (d : BitVec 5) (a : BitVec 5) (f : BitVec 3) (k : Bool)
  /-- R162. Element-wise count of one bits. -/
  | vpopc (fm : Form) (d : BitVec 5) (a : BitVec 5) (f : BitVec 3) (k : Bool)
  /-- R163. Element-wise bitwise AND. -/
  | vand (fm : Form) (d : BitVec 5) (a : BitVec 5) (b : BitVec 5) (f : BitVec 3) (k : Bool)
  /-- R163. Element-wise bitwise OR. -/
  | vor (fm : Form) (d : BitVec 5) (a : BitVec 5) (b : BitVec 5) (f : BitVec 3) (k : Bool)
  /-- R163. Element-wise bitwise XOR. -/
  | vxor (fm : Form) (d : BitVec 5) (a : BitVec 5) (b : BitVec 5) (f : BitVec 3) (k : Bool)
  /-- R163. Element-wise shift left, optionally saturating. -/
  | vshl (fm : Form) (d : BitVec 5) (a : BitVec 5) (b : BitVec 5) (f : BitVec 3) (k : Bool)
  /-- R163. Element-wise logical shift right. -/
  | vshr (fm : Form) (d : BitVec 5) (a : BitVec 5) (b : BitVec 5) (f : BitVec 3) (k : Bool)
  /-- R163. Element-wise arithmetic shift right. -/
  | vsar (fm : Form) (d : BitVec 5) (a : BitVec 5) (b : BitVec 5) (f : BitVec 3) (k : Bool)
  /-- R163. Element-wise funnel shift left of d:a. -/
  | vfshL (fm : Form) (d : BitVec 5) (a : BitVec 5) (b : BitVec 5) (f : BitVec 3) (k : Bool)
  /-- R163. Element-wise funnel shift right of a:d. -/
  | vfshR (fm : Form) (d : BitVec 5) (a : BitVec 5) (b : BitVec 5) (f : BitVec 3) (k : Bool)
  /-- R164. Compares elements under a condition and writes mask bits. -/
  | vcmp (fm : Form) (m : BitVec 3) (a : BitVec 5) (b : BitVec 5) (f : BitVec 3) (c : CmpOp) (k : Bool)
  /-- R165. Reduces active elements into element 0 with the selected operation. -/
  | vred (fm : Form) (d : BitVec 5) (a : BitVec 5) (f : BitVec 3) (o : RedOp) (k : Bool)
  /-- R85. Sums exact products of two sources in a wide accumulator and rounds once. -/
  | vredAddxProduct (fm : Form) (d : BitVec 5) (a : BitVec 5) (b : BitVec 5) (f : BitVec 3) (k : Bool)
  /-- R166. Reduces each group of 2^k elements into successive result elements. -/
  | vgred (fm : Form) (d : BitVec 5) (a : BitVec 5) (n : BitVec 5) (f : BitVec 3) (o : RedOp) (k : Bool)
  /-- R167. Writes running combinations of active elements. -/
  | vscan (fm : Form) (d : BitVec 5) (a : BitVec 5) (f : BitVec 3) (o : RedOp) (k : Bool)
  /-- R168. Converts elements between formats, including block-scaled sources and tb8 destinations. -/
  | vcvt (fm : Form) (d : BitVec 5) (a : BitVec 5) (b : BitVec 5) (f : BitVec 3) (k : Bool)
  /-- R172. Mask AND below vl. -/
  | mand (fm : Form) (d : BitVec 3) (a : BitVec 3) (b : BitVec 3) (k : Bool)
  /-- R172. Mask OR below vl. -/
  | mor (fm : Form) (d : BitVec 3) (a : BitVec 3) (b : BitVec 3) (k : Bool)
  /-- R172. Mask XOR below vl. -/
  | mxor (fm : Form) (d : BitVec 3) (a : BitVec 3) (b : BitVec 3) (k : Bool)
  /-- R172. Mask AND NOT below vl. -/
  | mandn (fm : Form) (d : BitVec 3) (a : BitVec 3) (b : BitVec 3) (k : Bool)
  /-- R172. Mask NOT below vl. -/
  | mnot (fm : Form) (d : BitVec 3) (a : BitVec 3) (k : Bool)
  /-- R173. Writes the count of set mask bits below vl to a scalar register. -/
  | mpopc (fm : Form) (d : BitVec 6) (a : BitVec 3) (k : Bool)
  /-- R173. Writes the index of the lowest set mask bit below vl. -/
  | mfirst (fm : Form) (d : BitVec 6) (a : BitVec 3) (k : Bool)
  /-- R174. Moves elements up by n positions. -/
  | vslideUp (fm : Form) (d : BitVec 5) (a : BitVec 5) (n : BitVec 6) (k : Bool)
  /-- R174. Moves elements down by n positions, filling zeros. -/
  | vslideDown (fm : Form) (d : BitVec 5) (a : BitVec 5) (n : BitVec 6) (k : Bool)
  /-- R174. Broadcasts a scalar to every active element. -/
  | vbcast (fm : Form) (d : BitVec 5) (s : BitVec 6) (k : Bool)
  /-- R174. Writes xs plus e times xt to each active element. -/
  | vbcastI (fm : Form) (d : BitVec 5) (s : BitVec 6) (t : BitVec 6) (k : Bool)
  /-- R175. Permutes elements by an index vector. -/
  | vperm (fm : Form) (d : BitVec 5) (a : BitVec 5) (i : BitVec 5) (k : Bool)
  /-- R175. Packs selected elements to the low end. -/
  | vcompress (fm : Form) (d : BitVec 5) (a : BitVec 5) (m : BitVec 3) (k : Bool)
  /-- R175. Spreads low elements to selected positions. -/
  | vexpand (fm : Form) (d : BitVec 5) (a : BitVec 5) (m : BitVec 3) (k : Bool)
  /-- R185. Scalar sign-extending scratchpad load. -/
  | ldsSp (fm : Form) (d : BitVec 6) (b : BitVec 6) (i : BitVec 6) (w : BitVec 2)
  /-- R185. Scalar 8-byte scratchpad load. -/
  | ldDSp (fm : Form) (d : BitVec 6) (b : BitVec 6) (i : BitVec 6)
  /-- R185. Scalar zero-extending scratchpad load. -/
  | ldzSp (fm : Form) (d : BitVec 6) (b : BitVec 6) (i : BitVec 6) (w : BitVec 2)
  /-- R185. Scalar scratchpad store, local or remote. -/
  | stSp (fm : Form) (v : BitVec 6) (b : BitVec 6) (i : BitVec 6) (w : BitVec 2)
  /-- R186. Reads one of the hart's bank statistics after older scratchpad accesses complete. -/
  | bstat (fm : Form) (d : BitVec 6) (sel : BitVec 6)
  /-- R187. Unit-stride vector scratchpad load. -/
  | vldSp (fm : Form) (v : BitVec 5) (b : BitVec 6) (w : BitVec 2)
  /-- R187. Strided vector scratchpad load. -/
  | vldsSp (fm : Form) (v : BitVec 5) (b : BitVec 6) (c : BitVec 6) (w : BitVec 2)
  /-- R187. Indexed vector scratchpad load. -/
  | vldxSp (fm : Form) (v : BitVec 5) (b : BitVec 6) (c : BitVec 5) (w : BitVec 2)
  /-- R187. Pair-strided vector scratchpad load of 64-bit elements. -/
  | vldpSp (fm : Form) (v : BitVec 5) (b : BitVec 6) (c : BitVec 6)
  /-- R187. Unit-stride vector scratchpad store. -/
  | vstSp (fm : Form) (v : BitVec 5) (b : BitVec 6) (w : BitVec 2)
  /-- R187. Strided vector scratchpad store. -/
  | vstsSp (fm : Form) (v : BitVec 5) (b : BitVec 6) (c : BitVec 6) (w : BitVec 2)
  /-- R187. Indexed vector scratchpad store. -/
  | vstxSp (fm : Form) (v : BitVec 5) (b : BitVec 6) (c : BitVec 5) (w : BitVec 2)
  /-- R187. Pair-strided vector scratchpad store. -/
  | vstpSp (fm : Form) (v : BitVec 5) (b : BitVec 6) (c : BitVec 6)
  /-- R194. Scalar atomic read-modify-write returning the old value. -/
  | amo (fm : Form) (xd : BitVec 6) (b : BitVec 6) (s : BitVec 6) (o : AmoOp) (dw : Bool) (sp : Bool)
  /-- R194. Scalar compare-and-swap returning the old value. -/
  | cas (fm : Form) (xd : BitVec 6) (b : BitVec 6) (s : BitVec 6) (dw : Bool) (sp : Bool)
  /-- R195. One atomic operation per active element, optionally fetching old values. -/
  | vamo (fm : Form) (v : BitVec 5) (b : BitVec 6) (c : BitVec 5) (dw : Bool) (sp : Bool) (o : VamoOp)
  /-- R198. Parks until every active element's location satisfies its condition. -/
  | vwait (fm : Form) (v : BitVec 5) (b : BitVec 6) (i : BitVec 5) (dw : Bool) (sp : Bool) (c : WaitOp)
  /-- R198. An unsatisfied vwait element is read again at least every 4,096 clk. -/
  | vwaitReevaluation (h : HartId)
  /-- R202. Arrives at a named barrier and returns the phase without waiting. -/
  | barArrive (fm : Form) (d : BitVec 6) (b : BitVec 6) (c : BitVec 6)
  /-- R202. Parks until a barrier's phase differs from a token. -/
  | barWait (fm : Form) (b : BitVec 6) (t : BitVec 6)
  /-- R202. Arrives at a barrier and parks until the phase completes. -/
  | barSync (fm : Form) (d : BitVec 6) (b : BitVec 6) (c : BitVec 6)
  /-- R202. Arrives at the gang barrier and parks until the phase completes. -/
  | gbar (fm : Form)
  /-- R205. Reads a barrier's state or its phase records. -/
  | barRd (fm : Form) (d : BitVec 6) (b : BitVec 6) (sel : BitVec 6)
  /-- R215. Binds a stream register to a pattern record with a vector slot. -/
  | sbind (fm : Form) (q : BitVec 3) (b : BitVec 6) (v : BitVec 5) (t : Bool)
  /-- R215. Binds a stream register with no slot. -/
  | sbindF (fm : Form) (q : BitVec 3) (b : BitVec 6) (t : Bool)
  /-- R216. Ends a stream binding and releases its ARIT entry. -/
  | sstop (fm : Form) (q : BitVec 3)
  /-- R217. Writes a 256-byte stream image. -/
  | ssave (fm : Form) (q : BitVec 3) (b : BitVec 6) (t : Bool)
  /-- R217. Restores a stream register from an image. -/
  | srest (fm : Form) (q : BitVec 3) (b : BitVec 6) (t : Bool)
  /-- R213. A stream engine fetches and transforms an element ahead of the position, keeping any fault with it. -/
  | streamFetch (h : HartId) (q : BitVec 3)
  /-- R218. Takes one vector of vl stream elements into vd. -/
  | sopPop (fm : Form) (d : BitVec 5) (q : BitVec 3)
  /-- R218. Advances a stream's position by n. -/
  | sopSkip (fm : Form) (q : BitVec 3) (n : BitVec 6)
  /-- R218. Writes a stream's position to xd. -/
  | sopPos (fm : Form) (d : BitVec 6) (q : BitVec 3)
  /-- R218. Writes a stream's remaining count to xd. -/
  | sopRem (fm : Form) (d : BitVec 6) (q : BitVec 3)
  /-- R243. Continuably loads a fibre image into a fibre register. -/
  | fld (fm : Form) (f : BitVec 4) (b : BitVec 6) (s : BitVec 6) (t : Bool) (k : Bool)
  /-- R244. Continuably loads one fibre from a fibre stream. -/
  | fldQ (fm : Form) (f : BitVec 4) (q : BitVec 3) (s : BitVec 6) (k : Bool)
  /-- R245. Stores a fibre register as an image. -/
  | fst (fm : Form) (f : BitVec 4) (b : BitVec 6) (t : Bool) (k : Bool)
  /-- R246. Writes a fibre's sorted flag and occupancy to xd. -/
  | fcount (fm : Form) (d : BitVec 6) (f : BitVec 4) (k : Bool)
  /-- R246. Sets a fibre register's occupancy to zero. -/
  | fclear (fm : Form) (f : BitVec 4) (k : Bool)
  /-- R248. Continuably intersects two sorted fibres. -/
  | fisect (fm : Form) (d : BitVec 4) (a : BitVec 4) (b : BitVec 4) (f : BitVec 3) (o : IsectOp) (k : Bool)
  /-- R248. Continuably unites two sorted fibres. -/
  | funion (fm : Form) (d : BitVec 4) (a : BitVec 4) (b : BitVec 4) (f : BitVec 3) (o : UnionOp) (k : Bool)
  /-- R248. Continuably merges two fibres with raw values. -/
  | fmerge (fm : Form) (d : BitVec 4) (a : BitVec 4) (b : BitVec 4) (k : Bool)
  /-- R250. Sorts a fibre by coordinate and combines equal coordinates. -/
  | fsort (fm : Form) (d : BitVec 4) (a : BitVec 4) (f : BitVec 3) (o : SortOp) (k : Bool)
  /-- R250. Keeps the pairs whose value is not exactly zero. -/
  | fcompact (fm : Form) (d : BitVec 4) (a : BitVec 4) (f : BitVec 3) (k : Bool)
  /-- R251. Writes a fibre's values into consecutive vector elements. -/
  | fexpandV (fm : Form) (d : BitVec 5) (a : BitVec 4) (f : BitVec 3) (k : Bool)
  /-- R251. Scatters a fibre's values to vector positions given by coordinates. -/
  | fexpandD (fm : Form) (d : BitVec 5) (a : BitVec 4) (f : BitVec 3) (k : Bool)
  /-- R251. Writes a fibre's coordinates into vector elements. -/
  | fexpandC (fm : Form) (d : BitVec 5) (f : BitVec 4) (k : Bool)
  /-- R252. Builds a fibre from coordinate and value vectors. -/
  | fpack (fm : Form) (d : BitVec 4) (c : BitVec 5) (b : BitVec 5) (f : BitVec 3) (k : Bool)
  /-- R252. Builds a fibre from the nonzero elements of a dense vector. -/
  | fpackD (fm : Form) (d : BitVec 4) (a : BitVec 5) (f : BitVec 3) (k : Bool)
  /-- R254. Continuably walks a compressed level, emitting child positions or values. -/
  | fwalk (fm : Form) (d : BitVec 4) (s : BitVec 4) (b : BitVec 6) (v : Bool) (k : Bool)
  /-- R265. Loads the stationary B tile and its tag from eight vector registers. -/
  | mldb (fm : Form) (g : BitVec 2) (s : BitVec 5) (f : BitVec 3)
  /-- R267. Multiplies one A row by the tile and adds exactly into a row of slot H. -/
  | mma (fm : Form) (r : BitVec 5) (a : BitVec 5) (f : BitVec 3)
  /-- R267. 2:4 structured-sparse row multiply-accumulate. -/
  | mmaS24 (fm : Form) (r : BitVec 5) (a : BitVec 5) (m : BitVec 3) (f : BitVec 3)
  /-- R267. Indexed row multiply-accumulate. -/
  | mmaX (fm : Form) (r : BitVec 5) (a : BitVec 5) (i : BitVec 5) (f : BitVec 3)
  /-- R269. Seals slot H and advances the head. -/
  | mseal (fm : Form) (d : BitVec 6)
  /-- R270. Reads one row of a slot, rounded, into a vector register. -/
  | mpeek (fm : Form) (d : BitVec 5) (a : BitVec 3) (r : BitVec 6)
  /-- R271. Writes the status word of a slot and row. -/
  | mstat (fm : Form) (d : BitVec 6) (a : BitVec 3) (r : BitVec 6)
  /-- R273. Sets a free slot's kind and anchor. -/
  | epiCfg (fm : Form) (a : BitVec 3) (f : BitVec 6) (s : BitVec 6)
  /-- R275. Queues a drain of slot T under an epilogue record. -/
  | epiGo (fm : Form) (b : BitVec 6)
  /-- R277. Loads an incoming accumulator from memory into slot H. -/
  | epiGoLd (fm : Form) (b : BitVec 6)
  /-- R275. Once its slot is sealed, the epilogue rounds, biases, activates and writes the rows. -/
  | epilogueDrain (core : Nat)
  /-- R260. When a drain's writes complete, the slot is zeroed, made FREE and the tail advances. -/
  | slotFree (core : Nat)
  /-- R291. Reads and checks a shape record, takes ARIT entries and queues a copy with a handle. -/
  | cpyGo (fm : Form) (d : BitVec 6) (b : BitVec 6) (t : Bool)
  /-- R292. Parks until covered copies finish, reporting or restarting faulted ones. -/
  | cpyWait (fm : Form) (t : BitVec 6)
  /-- R292. Waits for covered copies and abandons faulted ones, returning the count. -/
  | cpyWaitDrop (fm : Form) (d : BitVec 6) (t : BitVec 6)
  /-- R293. Writes the status of a copy command without waiting. -/
  | cpyPoll (fm : Form) (d : BitVec 6) (t : BitVec 6)
  /-- R286. A copy engine runs a queued command, moving and converting elements. -/
  | copyTransfer (h : HartId) (n : Nat)
  /-- R293. A command's writes perform at device scope; entries released and evt.CPY set. -/
  | copyComplete (h : HartId) (n : Nat)
  /-- R294. A failed access makes a command FAULTED and records its cause and address. -/
  | copyFault (h : HartId) (n : Nat)
  /-- R314. Creates a task or copy node from a launch record, parking for a pool entry. -/
  | launch (fm : Form) (d : BitVec 6) (b : BitVec 6)
  /-- R314. Creates a node, or returns reject code 0x03 when no pool entry is free. -/
  | launchTry (fm : Form) (d : BitVec 6) (b : BitVec 6)
  /-- R316. Adds a predecessor edge to, or releases, a held node. -/
  | tdep (fm : Form) (d : BitVec 6) (s : BitVec 6) (p : BitVec 6)
  /-- R317. Parks until a node finishes and returns its completion word. -/
  | twait (fm : Form) (d : BitVec 6) (t : BitVec 6)
  /-- R318. Ends the hart after its copies, stops streams and counts as arrived at the gang barrier. -/
  | texit (fm : Form) (a : BitVec 6)
  /-- R325. Drains save-window slots to the hart area, finally saving the hart or abandoning the save. -/
  | texitSv (fm : Form) (d : BitVec 6) (a : BitVec 6) (s : BitVec 6)
  /-- R14. A gang starts when harts, allocations and matrix engine can be granted together. -/
  | gangStart (node : Nat) (core : Nat) (parts : Nat)
  /-- R309. A ready copy node runs its transfer on a copy engine and finishes or fails. -/
  | copyNodeRun (node : Nat)
  /-- R37. A ready task waiting 2 ms is promoted one priority level. -/
  | taskAging (node : Nat)
  /-- R321. An unplaceable task's request makes the Dealer pick victims and choose drain, discard or save. -/
  | dealerRequest (node : Nat)
  /-- R115. Interrupt 0x01 reaches a hart of a team being saved and is taken at the next allowed point. -/
  | preemptionRequest (h : HartId)
  /-- R326. A saved team is placed again and its gang and hart state restored. -/
  | teamRestore (node : Nat) (gang : Nat) (core : Nat) (parts : Nat)
  /-- R337. Captures a fibre as a message and accepts it into the send queue. -/
  | dsend (fm : Form) (f : BitVec 4) (v : BitVec 6) (m : BitVec 6)
  /-- R338. Takes the oldest message from a receive buffer, parking when empty. -/
  | drecv (fm : Form) (f : BitVec 4) (m : BitVec 6) (d : BitVec 6)
  /-- R338. Takes the oldest message, or returns at once when the buffer is empty. -/
  | drecvTry (fm : Form) (f : BitVec 4) (m : BitVec 6) (d : BitVec 6)
  /-- R335. A whole message at its destination is delivered, refused, held for room, or held for its epoch. -/
  | messageDelivery (ch : Nat)
  /-- R330. A whole message at an intermediate device is routed to its next port and channel. -/
  | messageForward (ch : Nat)
  /-- R345. A Telemark marker arrives on a channel, taking the instant or ending a channel's recording. -/
  | markerReceipt (ch : Nat)
  /-- R328. A Dakel link goes down, losing in-flight flits and markers and rerouting traffic. -/
  | linkDown (port : Nat)
  /-- R339. A Dakel link comes up and its channels join the routes. -/
  | linkUp (port : Nat)
  /-- R385. A time-sync beat on VC2 disciplines device time. -/
  | timeSyncBeat (ns : DWord) (bound : Word)
  /-- R344. Starts a snapshot of a job at this device's instant. -/
  | snap (fm : Form) (d : BitVec 6) (j : BitVec 6)
  /-- R343. Registers a snapshot record's pool and area for a job. -/
  | snapArm (fm : Form) (d : BitVec 6) (b : BitVec 6)
  /-- R352. Ends the job's snapshot in progress and releases its frames. -/
  | snapDrop (fm : Form) (d : BitVec 6) (j : BitVec 6)
  /-- R351. Writes the status of a job's snapshot. -/
  | snapPoll (fm : Form) (d : BitVec 6) (j : BitVec 6)
  /-- R354. Returns a job on the device to its latest complete snapshot and advances its epoch. -/
  | rollback (fm : Form) (d : BitVec 6) (j : BitVec 6) (n : BitVec 6)
  /-- R347. The copy of a shared block into a pool frame ends, the block leaves pending and the stalled write performs. -/
  | blockCopyComplete (asn : Nat) (block : Nat)
  /-- R384. Writes a mark record to the trace buffer. -/
  | tmark (fm : Form) (a : BitVec 6)
  /-- R383. Reads a counter accumulator. -/
  | pcntRd (fm : Form) (d : BitVec 6) (n : BitVec 6)
  /-- R385. Reads device time, the clk count or the sync status. -/
  | tstamp (fm : Form) (d : BitVec 6) (sel : BitVec 12)
  /-- R380. Every 2^SPER clk a partition samples a hart's next convoy and stall reason. -/
  | sample (core : Nat) (part : Nat)
  /-- R381. Every 65,536 clk a multiplexed counter switches between its two events. -/
  | counterMultiplex (core : Nat) (part : Nat) (n : Nat)
  /-- R389. A waiting trace record is numbered and written, or dropped with a gap record later. -/
  | traceRecordWrite (asn : Nat)
  /-- R108. evt.TIME becomes 1 when tstamp reaches tcmp, waking wfe. -/
  | timeEvent (h : HartId)
  /-- R371. Stores 8 bytes and corrupts their check bits or tag for fault injection. -/
  | diagSt (fm : Form) (v : BitVec 6) (b : BitVec 6) (c : BitVec 6) (space : DiagSpace)
  /-- R372. Copies one error-log record to memory and returns its SEQ. -/
  | sealLog (fm : Form) (d : BitVec 6) (b : BitVec 6) (a : BitVec 6)
  /-- R115. Interrupt 0x02 with a posted cause is taken by the hart whose access caused it. -/
  | asynchronousError (h : HartId)
  /-- R368. An uncorrectable error in state without poison raises or posts cause 0xF0. -/
  | hardwareError (h : HartId) (atHart : Bool) (loc : DWord) (synd : DWord)
  /-- R359. Background scrub of regions of destroyed key indices; the index returns to the free set when it ends. -/
  | keyIndexScrub (key : Nat)
  /-- R393. A host read over UCIe returns plaintext, ciphertext or zeros by target. -/
  | hostRead (pa : Nat) (len : Nat)
  /-- R393. A host write over UCIe reaches the window or raw memory, or is discarded and logged. -/
  | hostWrite (pa : Nat) (bytes : List Byte)
  /-- R396. A doorbell write sets a queue's producer count when valid, else is logged. -/
  | doorbell (q : Nat) (p : DWord)
  /-- R396. With a pool entry held, the device copies the next queue entry, creates or rejects its node and advances CONS. -/
  | hostQueueEntry (q : Nat)
  /-- R394. A host write of ones to ALARM clears those alarm bits. -/
  | alarmClear (bits : DWord)
  /-- R394. A host write to a control-page register with no row of its own, such as MBOX data words. -/
  | mboxWrite (off : Nat) (val : DWord)
  /-- R375. Writes a signed attestation report for a host nonce into MBOX. -/
  | attest (nonce : DWord)
  /-- R397. Completes ML-KEM-1024 decapsulation and installs the session key. -/
  | session (ct : List Byte)
  /-- R397. Registers an address space, assigning and generating its key indices. -/
  | regas (tag : BitVec 256) (asn : Nat) (root : DWord) (trap : DWord) (tcb : DWord) (nkey : Nat)
  /-- R397. Ends every node of an address space and destroys its keys. -/
  | deregas (tag : BitVec 256) (asn : Nat)
  /-- R395. Binds or unbinds a host queue. -/
  | bindq (tag : BitVec 256) (q : Nat) (bind : Bool) (qb : DWord) (qlog : Nat) (prio : Nat) (weight : Nat) (asn : Nat)
  /-- R397. Sends Dealer requests for an address space's teams with a deadline. -/
  | preempt (tag : BitVec 256) (asn : Nat) (deadline : DWord)
  /-- R387. Stops a job: no new gangs or copy nodes start; a stop record follows when none runs. -/
  | stop (tag : BitVec 256) (asn : Nat)
  /-- R397. Resumes a stopped job. -/
  | resume (tag : BitVec 256) (asn : Nat)
  /-- R365. Lifts quarantine of a frame after re-attestation. -/
  | unquar (tag : BitVec 256) (frame : Nat)
  /-- R399. Requests a power state, saving or draining teams for states 2 and 3. -/
  | pstate (n : Nat)
  /-- R398. Bring-up from ROM through firmware and training to ready, entering PST 0 or 1. -/
  | powerOnReset
  /-- R400. Every 1 ms the telemetry values are refreshed. -/
  | telemetryRefresh (vals : List DWord)
  /-- R400. A die reaching 105 °C drops the device to PST 1 and sets ALARM bit 1. -/
  | thermalThrottle
  /-- R400. After 100 ms below 95 °C the device returns to PST 0. -/
  | thermalRecovery
  /-- R400. At 115 °C the device halts in STATE 4 keeping HBM4 contents. -/
  | thermalHalt
  /-- R349. A sealing snapshot finishes its sealing copies, record writes and signed manifest and becomes COMPLETE, replacing the latest complete snapshot, or fails on area overflow. -/
  | snapshotComplete (asn : Nat)
  /-- R325. The copy engine finishes draining a hart's save-window slots, and the parked texit.sv resumes with xd := 1, saves the hart at FINAL, or abandons the save on failure. -/
  | saveWindowDrainComplete (h : HartId)
  /-- R385. A PTP exchange from the host's client over UCIe disciplines device time and its sync status. -/
  | precisionTimeProtocol (ns : DWord) (bound : Word) (lock : Bool)
  deriving DecidableEq, Repr

end Sys2Proof
end

