-- ==== Sys2Proof/Machine/Forms.lean ====
section
/-! DEFINITION. What the entry of each instruction admits of the extended form: an immediate, a literal, a descriptor
register, a fifth operand, guards and hints (R45, R46, R49 and the entries). -/

namespace Sys2Proof

/-- Use of IMM in the form L = 0b10. -/
inductive ImmUse where
  /-- reserved -/
  | none
  /-- an immediate, an offset or a displacement -/
  | always
  /-- an immediate or offset when IB = 1, else reserved -/
  | withIb
  /-- the field of `bext` and `bins` when IB = 1 (R93) -/
  | bitField
  /-- the attributes of R193 -/
  | attr
  deriving DecidableEq, Repr

/-- What an entry admits. `ra`, `rb`: sources a and b of R46 exist; `e5`: width of the fifth operand (0: none);
`flt`: a literal may be tap32 (R50); `allz`: words 1 and 2 are all reserved (R382, R370). -/
structure Caps where
  lit : Bool := false
  ib : Bool := false
  flt : Bool := false
  fd : Bool := false
  ra : Bool := false
  rb : Bool := false
  mem : Bool := false
  guards : Bool := false
  allz : Bool := false
  imm : ImmUse := .none
  e5 : Nat := 0
  deriving DecidableEq, Repr

/-- The form an instruction is written in; a row without a word has none. -/
def formOf : Instr → Option Form
  | .add fm _ _ _ => some fm
  | .sub fm _ _ _ => some fm
  | .mul fm _ _ _ => some fm
  | .mulh fm _ _ _ => some fm
  | .mulhN fm _ _ _ => some fm
  | .div fm _ _ _ => some fm
  | .divN fm _ _ _ => some fm
  | .rem fm _ _ _ => some fm
  | .remN fm _ _ _ => some fm
  | .and fm _ _ _ => some fm
  | .or fm _ _ _ => some fm
  | .xor fm _ _ _ => some fm
  | .andn fm _ _ _ => some fm
  | .shl fm _ _ _ => some fm
  | .shr fm _ _ _ => some fm
  | .sar fm _ _ _ => some fm
  | .rol fm _ _ _ => some fm
  | .addImm fm _ _ => some fm
  | .li fm _ _ => some fm
  | .mov fm _ _ => some fm
  | .andImm fm _ _ => some fm
  | .orImm fm _ _ => some fm
  | .xorImm fm _ _ => some fm
  | .shlImm fm _ _ => some fm
  | .shrImm fm _ _ => some fm
  | .sarImm fm _ _ => some fm
  | .rolImm fm _ _ => some fm
  | .mulImm fm _ _ => some fm
  | .clz fm _ _ => some fm
  | .ctz fm _ _ => some fm
  | .popc fm _ _ => some fm
  | .bext fm _ _ _ => some fm
  | .bins fm _ _ _ => some fm
  | .sel fm _ _ _ => some fm
  | .min fm _ _ _ => some fm
  | .max fm _ _ _ => some fm
  | .minN fm _ _ _ => some fm
  | .maxN fm _ _ _ => some fm
  | .bEq fm _ _ _ => some fm
  | .bNe fm _ _ _ => some fm
  | .bLt fm _ _ _ => some fm
  | .bGe fm _ _ _ => some fm
  | .bLtn fm _ _ _ => some fm
  | .bGen fm _ _ _ => some fm
  | .jmp fm _ => some fm
  | .call fm _ _ => some fm
  | .jmpReg fm _ => some fm
  | .callReg fm _ _ => some fm
  | .ret fm _ => some fm
  | .setvl fm _ _ _ => some fm
  | .vjoin fm _ => some fm
  | .vsplit fm _ => some fm
  | .mfs fm _ _ => some fm
  | .mts fm _ _ => some fm
  | .trap fm _ => some fm
  | .eret fm => some fm
  | .yield fm => some fm
  | .wfe fm => some fm
  | .lds fm _ _ _ _ _ => some fm
  | .ldD fm _ _ _ _ => some fm
  | .ldz fm _ _ _ _ _ => some fm
  | .st fm _ _ _ _ _ => some fm
  | .ldacq fm _ _ _ _ _ => some fm
  | .strel fm _ _ _ _ _ => some fm
  | .fenceSv fm => some fm
  | .fenceVs fm => some fm
  | .fence fm _ => some fm
  | .pref fm _ _ _ => some fm
  | .tlbinvVa fm _ _ => some fm
  | .tlbinvAsn fm _ => some fm
  | .tlbinvAll fm => some fm
  | .vld fm _ _ _ _ _ => some fm
  | .vlds fm _ _ _ _ _ _ => some fm
  | .vldx fm _ _ _ _ _ _ _ _ => some fm
  | .vst fm _ _ _ _ _ => some fm
  | .vsts fm _ _ _ _ _ _ => some fm
  | .vstu fm _ _ _ _ _ => some fm
  | .vstx fm _ _ _ _ _ _ _ _ _ => some fm
  | .vadd fm _ _ _ _ _ => some fm
  | .vsub fm _ _ _ _ _ => some fm
  | .vmul fm _ _ _ _ _ => some fm
  | .vdiv fm _ _ _ _ _ => some fm
  | .vmin fm _ _ _ _ _ => some fm
  | .vmax fm _ _ _ _ _ => some fm
  | .vfma fm _ _ _ _ _ => some fm
  | .vfms fm _ _ _ _ _ => some fm
  | .vsqrt fm _ _ _ _ => some fm
  | .vrsqrt fm _ _ _ _ => some fm
  | .vabs fm _ _ _ _ => some fm
  | .vneg fm _ _ _ _ => some fm
  | .viadd fm _ _ _ _ _ => some fm
  | .visub fm _ _ _ _ _ => some fm
  | .vimul fm _ _ _ _ _ => some fm
  | .vimulh fm _ _ _ _ _ => some fm
  | .vimin fm _ _ _ _ _ => some fm
  | .vimax fm _ _ _ _ _ => some fm
  | .vclz fm _ _ _ _ => some fm
  | .vpopc fm _ _ _ _ => some fm
  | .vand fm _ _ _ _ _ => some fm
  | .vor fm _ _ _ _ _ => some fm
  | .vxor fm _ _ _ _ _ => some fm
  | .vshl fm _ _ _ _ _ => some fm
  | .vshr fm _ _ _ _ _ => some fm
  | .vsar fm _ _ _ _ _ => some fm
  | .vfshL fm _ _ _ _ _ => some fm
  | .vfshR fm _ _ _ _ _ => some fm
  | .vcmp fm _ _ _ _ _ _ => some fm
  | .vred fm _ _ _ _ _ => some fm
  | .vredAddxProduct fm _ _ _ _ _ => some fm
  | .vgred fm _ _ _ _ _ _ => some fm
  | .vscan fm _ _ _ _ _ => some fm
  | .vcvt fm _ _ _ _ _ => some fm
  | .mand fm _ _ _ _ => some fm
  | .mor fm _ _ _ _ => some fm
  | .mxor fm _ _ _ _ => some fm
  | .mandn fm _ _ _ _ => some fm
  | .mnot fm _ _ _ => some fm
  | .mpopc fm _ _ _ => some fm
  | .mfirst fm _ _ _ => some fm
  | .vslideUp fm _ _ _ _ => some fm
  | .vslideDown fm _ _ _ _ => some fm
  | .vbcast fm _ _ _ => some fm
  | .vbcastI fm _ _ _ _ => some fm
  | .vperm fm _ _ _ _ => some fm
  | .vcompress fm _ _ _ _ => some fm
  | .vexpand fm _ _ _ _ => some fm
  | .ldsSp fm _ _ _ _ => some fm
  | .ldDSp fm _ _ _ => some fm
  | .ldzSp fm _ _ _ _ => some fm
  | .stSp fm _ _ _ _ => some fm
  | .bstat fm _ _ => some fm
  | .vldSp fm _ _ _ => some fm
  | .vldsSp fm _ _ _ _ => some fm
  | .vldxSp fm _ _ _ _ => some fm
  | .vldpSp fm _ _ _ => some fm
  | .vstSp fm _ _ _ => some fm
  | .vstsSp fm _ _ _ _ => some fm
  | .vstxSp fm _ _ _ _ => some fm
  | .vstpSp fm _ _ _ => some fm
  | .amo fm _ _ _ _ _ _ => some fm
  | .cas fm _ _ _ _ _ => some fm
  | .vamo fm _ _ _ _ _ _ => some fm
  | .vwait fm _ _ _ _ _ _ => some fm
  | .barArrive fm _ _ _ => some fm
  | .barWait fm _ _ => some fm
  | .barSync fm _ _ _ => some fm
  | .gbar fm => some fm
  | .barRd fm _ _ _ => some fm
  | .sbind fm _ _ _ _ => some fm
  | .sbindF fm _ _ _ => some fm
  | .sstop fm _ => some fm
  | .ssave fm _ _ _ => some fm
  | .srest fm _ _ _ => some fm
  | .sopPop fm _ _ => some fm
  | .sopSkip fm _ _ => some fm
  | .sopPos fm _ _ => some fm
  | .sopRem fm _ _ => some fm
  | .fld fm _ _ _ _ _ => some fm
  | .fldQ fm _ _ _ _ => some fm
  | .fst fm _ _ _ _ => some fm
  | .fcount fm _ _ _ => some fm
  | .fclear fm _ _ => some fm
  | .fisect fm _ _ _ _ _ _ => some fm
  | .funion fm _ _ _ _ _ _ => some fm
  | .fmerge fm _ _ _ _ => some fm
  | .fsort fm _ _ _ _ _ => some fm
  | .fcompact fm _ _ _ _ => some fm
  | .fexpandV fm _ _ _ _ => some fm
  | .fexpandD fm _ _ _ _ => some fm
  | .fexpandC fm _ _ _ => some fm
  | .fpack fm _ _ _ _ _ => some fm
  | .fpackD fm _ _ _ _ => some fm
  | .fwalk fm _ _ _ _ _ => some fm
  | .mldb fm _ _ _ => some fm
  | .mma fm _ _ _ => some fm
  | .mmaS24 fm _ _ _ _ => some fm
  | .mmaX fm _ _ _ _ => some fm
  | .mseal fm _ => some fm
  | .mpeek fm _ _ _ => some fm
  | .mstat fm _ _ _ => some fm
  | .epiCfg fm _ _ _ => some fm
  | .epiGo fm _ => some fm
  | .epiGoLd fm _ => some fm
  | .cpyGo fm _ _ _ => some fm
  | .cpyWait fm _ => some fm
  | .cpyWaitDrop fm _ _ => some fm
  | .cpyPoll fm _ _ => some fm
  | .launch fm _ _ => some fm
  | .launchTry fm _ _ => some fm
  | .tdep fm _ _ _ => some fm
  | .twait fm _ _ => some fm
  | .texit fm _ => some fm
  | .texitSv fm _ _ _ => some fm
  | .dsend fm _ _ _ => some fm
  | .drecv fm _ _ _ => some fm
  | .drecvTry fm _ _ _ => some fm
  | .snap fm _ _ => some fm
  | .snapArm fm _ _ => some fm
  | .snapDrop fm _ _ => some fm
  | .snapPoll fm _ _ => some fm
  | .rollback fm _ _ _ => some fm
  | .tmark fm _ => some fm
  | .pcntRd fm _ _ => some fm
  | .tstamp fm _ _ => some fm
  | .diagSt fm _ _ _ _ => some fm
  | .sealLog fm _ _ _ => some fm
  | .vwaitReevaluation _ | .streamFetch _ _ | .epilogueDrain _ | .slotFree _ | .copyTransfer _ _ | .copyComplete _ _ | .copyFault _ _ | .gangStart _ _ _ | .copyNodeRun _ | .taskAging _ | .dealerRequest _ | .preemptionRequest _ | .teamRestore _ _ _ _ | .messageDelivery _ | .messageForward _ | .markerReceipt _ | .linkDown _ | .linkUp _ | .timeSyncBeat _ _ | .blockCopyComplete _ _ | .sample _ _ | .counterMultiplex _ _ _ | .traceRecordWrite _ | .timeEvent _ | .asynchronousError _ | .hardwareError _ _ _ _ | .keyIndexScrub _ | .hostRead _ _ | .hostWrite _ _ | .doorbell _ _ | .hostQueueEntry _ | .alarmClear _ | .mboxWrite _ _ | .attest _ | .session _ | .regas _ _ _ _ _ _ | .deregas _ _ | .bindq _ _ _ _ _ _ _ _ | .preempt _ _ _ | .stop _ _ | .resume _ _ | .unquar _ _ | .pstate _ | .powerOnReset | .telemetryRefresh _ | .thermalThrottle | .thermalRecovery | .thermalHalt | .snapshotComplete _ | .saveWindowDrainComplete _ | .precisionTimeProtocol _ _ _ => none

/-- The entries, for the extended form (R46, R49; log entry 13 for an IMM without use). RU of an operand that a descriptor may leave without a
meaning is admitted whatever the descriptor says (log entry 92). -/
def capsOf : Instr → Caps
  | .add _ _ _ _ | .sub _ _ _ _ | .mul _ _ _ _ | .mulh _ _ _ _ | .mulhN _ _ _ _ | .div _ _ _ _ | .divN _ _ _ _ | .rem _ _ _ _ | .remN _ _ _ _ | .and _ _ _ _ | .or _ _ _ _ | .xor _ _ _ _ | .andn _ _ _ _ | .shl _ _ _ _ | .shr _ _ _ _ | .sar _ _ _ _ | .rol _ _ _ _ | .sel _ _ _ _ | .min _ _ _ _ | .max _ _ _ _ | .minN _ _ _ _ | .maxN _ _ _ _ | .tlbinvVa _ _ _ | .mand _ _ _ _ _ | .mor _ _ _ _ _ | .mxor _ _ _ _ _ | .mandn _ _ _ _ _ | .vcompress _ _ _ _ _ | .vexpand _ _ _ _ _ | .barArrive _ _ _ _ | .barWait _ _ _ | .barSync _ _ _ _ | .fldQ _ _ _ _ _ | .mstat _ _ _ _ | .epiCfg _ _ _ _ => { ra := true, rb := true }
  | .addImm _ _ _ | .andImm _ _ _ | .orImm _ _ _ | .xorImm _ _ _ | .shlImm _ _ _ | .shrImm _ _ _ | .sarImm _ _ _ | .rolImm _ _ _ | .mulImm _ _ _ => { lit := true, ra := true, imm := .always }
  | .li _ _ _ => { lit := true, imm := .always }
  | .mov _ _ _ | .clz _ _ _ | .ctz _ _ _ | .popc _ _ _ | .jmpReg _ _ | .callReg _ _ _ | .ret _ _ | .setvl _ _ _ _ | .mts _ _ _ | .mnot _ _ _ _ | .mpopc _ _ _ _ | .mfirst _ _ _ _ | .barRd _ _ _ _ | .fcount _ _ _ _ | .fexpandC _ _ _ _ | .epiGo _ _ | .epiGoLd _ _ => { ra := true }
  | .bext _ _ _ _ | .bins _ _ _ _ => { ib := true, ra := true, rb := true, imm := .bitField }
  | .bEq _ _ _ _ | .bNe _ _ _ _ | .bLt _ _ _ _ | .bGe _ _ _ _ | .bLtn _ _ _ _ | .bGen _ _ _ _ => { ra := true, rb := true, imm := .always }
  | .jmp _ _ | .call _ _ _ => { imm := .always }
  | .vjoin _ _ | .vsplit _ _ | .mfs _ _ _ | .trap _ _ | .eret _ | .yield _ | .wfe _ | .fenceSv _ | .fenceVs _ | .fence _ _ | .tlbinvAll _ | .bstat _ _ _ | .gbar _ | .sstop _ _ | .sopPop _ _ _ | .sopSkip _ _ _ | .sopPos _ _ _ | .sopRem _ _ _ | .fclear _ _ _ | .mseal _ _ | .cpyWait _ _ | .cpyWaitDrop _ _ _ | .cpyPoll _ _ _ | .tdep _ _ _ _ | .twait _ _ _ | .texit _ _ | .texitSv _ _ _ _ | .dsend _ _ _ _ | .drecv _ _ _ _ | .drecvTry _ _ _ _ | .snap _ _ _ | .snapArm _ _ _ | .snapDrop _ _ _ | .snapPoll _ _ _ | .rollback _ _ _ _ => {  }
  | .lds _ _ _ _ _ _ | .ldD _ _ _ _ _ | .ldz _ _ _ _ _ _ | .st _ _ _ _ _ _ | .ldacq _ _ _ _ _ _ | .strel _ _ _ _ _ _ | .pref _ _ _ _ | .ldsSp _ _ _ _ _ | .ldDSp _ _ _ _ | .ldzSp _ _ _ _ _ | .stSp _ _ _ _ _ => { lit := true, ib := true, ra := true, rb := true, mem := true, imm := .withIb }
  | .tlbinvAsn _ _ => { rb := true }
  | .vld _ _ _ _ _ _ | .vst _ _ _ _ _ _ | .vldSp _ _ _ _ | .vstSp _ _ _ _ => { lit := true, ra := true, mem := true, guards := true, imm := .always }
  | .vlds _ _ _ _ _ _ _ | .vldx _ _ _ _ _ _ _ _ _ | .vsts _ _ _ _ _ _ _ | .vstu _ _ _ _ _ _ | .vstx _ _ _ _ _ _ _ _ _ _ | .vldsSp _ _ _ _ _ | .vldxSp _ _ _ _ _ | .vldpSp _ _ _ _ | .vstsSp _ _ _ _ _ | .vstxSp _ _ _ _ _ | .vstpSp _ _ _ _ => { lit := true, ra := true, rb := true, mem := true, guards := true, imm := .always }
  | .vadd _ _ _ _ _ _ | .vsub _ _ _ _ _ _ | .vmul _ _ _ _ _ _ | .vdiv _ _ _ _ _ _ | .vmin _ _ _ _ _ _ | .vmax _ _ _ _ _ _ | .vfma _ _ _ _ _ _ | .vfms _ _ _ _ _ _ | .vcmp _ _ _ _ _ _ _ => { lit := true, ib := true, flt := true, fd := true, ra := true, rb := true, guards := true, imm := .withIb }
  | .vsqrt _ _ _ _ _ | .vrsqrt _ _ _ _ _ | .vabs _ _ _ _ _ | .vneg _ _ _ _ _ | .vclz _ _ _ _ _ | .vpopc _ _ _ _ _ | .vred _ _ _ _ _ _ | .vgred _ _ _ _ _ _ _ | .vscan _ _ _ _ _ _ => { fd := true, ra := true, guards := true }
  | .viadd _ _ _ _ _ _ | .visub _ _ _ _ _ _ | .vimul _ _ _ _ _ _ | .vimulh _ _ _ _ _ _ | .vimin _ _ _ _ _ _ | .vimax _ _ _ _ _ _ | .vand _ _ _ _ _ _ | .vor _ _ _ _ _ _ | .vxor _ _ _ _ _ _ | .vshl _ _ _ _ _ _ | .vshr _ _ _ _ _ _ | .vsar _ _ _ _ _ _ | .vfshL _ _ _ _ _ _ | .vfshR _ _ _ _ _ _ => { lit := true, ib := true, fd := true, ra := true, rb := true, guards := true, imm := .withIb }
  | .vredAddxProduct _ _ _ _ _ _ => { fd := true, ra := true, rb := true, guards := true }
  | .vcvt _ _ _ _ _ _ => { fd := true, ra := true, rb := true, guards := true, e5 := 5 }
  | .vslideUp _ _ _ _ _ | .vslideDown _ _ _ _ _ => { lit := true, ib := true, ra := true, rb := true, guards := true, imm := .withIb }
  | .vbcast _ _ _ _ => { ra := true, guards := true }
  | .vbcastI _ _ _ _ _ | .vperm _ _ _ _ _ => { ra := true, rb := true, guards := true }
  | .amo _ _ _ _ _ _ _ | .cas _ _ _ _ _ _ => { ra := true, rb := true, mem := true, imm := .attr }
  | .vamo _ _ _ _ _ _ op => { ra := true, rb := true, mem := true, guards := true, fd := decide (op = .fadd), imm := .attr }
  | .vwait _ _ _ _ _ _ _ => { ra := true, rb := true, mem := true, guards := true, imm := .attr }
  | .sbind _ _ _ _ _ | .sbindF _ _ _ _ | .ssave _ _ _ _ | .srest _ _ _ _ | .cpyGo _ _ _ _ | .launch _ _ _ | .launchTry _ _ _ => { mem := true }
  | .fld _ _ _ _ _ _ => { ra := true, rb := true, mem := true, imm := .always }
  | .fst _ _ _ _ _ => { ra := true, mem := true, imm := .always }
  | .fisect _ _ _ _ _ _ _ | .funion _ _ _ _ _ _ _ => { fd := true, ra := true, rb := true, e5 := 6 }
  | .fmerge _ _ _ _ _ => { ra := true, rb := true, e5 := 6 }
  | .fsort _ _ _ _ _ _ | .fcompact _ _ _ _ _ | .fexpandV _ _ _ _ _ => { fd := true, ra := true }
  | .fexpandD _ _ _ _ _ | .fpackD _ _ _ _ _ => { fd := true, ra := true, e5 := 6 }
  | .fpack _ _ _ _ _ _ | .mldb _ _ _ _ | .mmaX _ _ _ _ _ | .mpeek _ _ _ _ => { fd := true, ra := true, rb := true }
  | .fwalk _ _ _ _ _ _ => { ra := true, rb := true, mem := true, imm := .always, e5 := 6 }
  | .mma _ _ _ _ => { fd := true, ra := true, e5 := 5 }
  | .mmaS24 _ _ _ _ _ => { fd := true, ra := true, rb := true, e5 := 5 }
  | .tmark _ _ | .pcntRd _ _ _ | .tstamp _ _ _ | .diagSt _ _ _ _ _ | .sealLog _ _ _ _ => { allz := true }
  | .vwaitReevaluation _ | .streamFetch _ _ | .epilogueDrain _ | .slotFree _ | .copyTransfer _ _ | .copyComplete _ _ | .copyFault _ _ | .gangStart _ _ _ | .copyNodeRun _ | .taskAging _ | .dealerRequest _ | .preemptionRequest _ | .teamRestore _ _ _ _ | .messageDelivery _ | .messageForward _ | .markerReceipt _ | .linkDown _ | .linkUp _ | .timeSyncBeat _ _ | .blockCopyComplete _ _ | .sample _ _ | .counterMultiplex _ _ _ | .traceRecordWrite _ | .timeEvent _ | .asynchronousError _ | .hardwareError _ _ _ _ | .keyIndexScrub _ | .hostRead _ _ | .hostWrite _ _ | .doorbell _ _ | .hostQueueEntry _ | .alarmClear _ | .mboxWrite _ _ | .attest _ | .session _ | .regas _ _ _ _ _ _ | .deregas _ _ | .bindq _ _ _ _ _ _ _ _ | .preempt _ _ _ | .stop _ _ | .resume _ _ | .unquar _ _ | .pstate _ | .powerOnReset | .telemetryRefresh _ | .thermalThrottle | .thermalRecovery | .thermalHalt | .snapshotComplete _ | .saveWindowDrainComplete _ | .precisionTimeProtocol _ _ _ => { }

/-- The field of word 0 that an immediate replaces (field b of format A, s of format B): zero when it does (R46). -/
def replacedField : Instr → Nat
  | .bext _ _ _ b => b.toNat
  | .bins _ _ _ b => b.toNat
  | .lds _ _ _ b _ _ => b.toNat
  | .ldD _ _ _ b _ => b.toNat
  | .ldz _ _ _ b _ _ => b.toNat
  | .st _ _ _ b _ _ => b.toNat
  | .ldacq _ _ _ b _ _ => b.toNat
  | .strel _ _ _ b _ _ => b.toNat
  | .pref _ _ b _ => b.toNat
  | .vadd _ _ _ b _ _ => b.toNat
  | .vsub _ _ _ b _ _ => b.toNat
  | .vmul _ _ _ b _ _ => b.toNat
  | .vdiv _ _ _ b _ _ => b.toNat
  | .vmin _ _ _ b _ _ => b.toNat
  | .vmax _ _ _ b _ _ => b.toNat
  | .vfma _ _ _ b _ _ => b.toNat
  | .vfms _ _ _ b _ _ => b.toNat
  | .viadd _ _ _ b _ _ => b.toNat
  | .visub _ _ _ b _ _ => b.toNat
  | .vimul _ _ _ b _ _ => b.toNat
  | .vimulh _ _ _ b _ _ => b.toNat
  | .vimin _ _ _ b _ _ => b.toNat
  | .vimax _ _ _ b _ _ => b.toNat
  | .vand _ _ _ b _ _ => b.toNat
  | .vor _ _ _ b _ _ => b.toNat
  | .vxor _ _ _ b _ _ => b.toNat
  | .vshl _ _ _ b _ _ => b.toNat
  | .vshr _ _ _ b _ _ => b.toNat
  | .vsar _ _ _ b _ _ => b.toNat
  | .vfshL _ _ _ b _ _ => b.toNat
  | .vfshR _ _ _ b _ _ => b.toNat
  | .vcmp _ _ _ b _ _ _ => b.toNat
  | .vslideUp _ _ _ b _ => b.toNat
  | .vslideDown _ _ _ b _ => b.toNat
  | .ldsSp _ _ _ b _ => b.toNat
  | .ldDSp _ _ _ b => b.toNat
  | .ldzSp _ _ _ b _ => b.toNat
  | .stSp _ _ _ b _ => b.toNat
  | _ => 0

/-- imm12 of format I. -/
def imm12Of : Instr → BitVec 12
  | .addImm _ _ i => i
  | .li _ _ i => i
  | .andImm _ _ i => i
  | .orImm _ _ i => i
  | .xorImm _ _ i => i
  | .shlImm _ _ i => i
  | .shrImm _ _ i => i
  | .sarImm _ _ i => i
  | .rolImm _ _ i => i
  | .mulImm _ _ i => i
  | _ => 0

/-- Fields of word 0 that the extended form reserves in itself: fd of format A, disp8 and disp17, and bits [31:26] of
format I, with [25:20] too for `li` (R46, R92). -/
def extReserved : Instr → Nat
  | .addImm _ _ i => (i.extractLsb' 6 6).toNat
  | .li _ _ i => i.toNat
  | .andImm _ _ i => (i.extractLsb' 6 6).toNat
  | .orImm _ _ i => (i.extractLsb' 6 6).toNat
  | .xorImm _ _ i => (i.extractLsb' 6 6).toNat
  | .shlImm _ _ i => (i.extractLsb' 6 6).toNat
  | .shrImm _ _ i => (i.extractLsb' 6 6).toNat
  | .sarImm _ _ i => (i.extractLsb' 6 6).toNat
  | .rolImm _ _ i => (i.extractLsb' 6 6).toNat
  | .mulImm _ _ i => (i.extractLsb' 6 6).toNat
  | .bEq _ _ _ p => p.toNat
  | .bNe _ _ _ p => p.toNat
  | .bLt _ _ _ p => p.toNat
  | .bGe _ _ _ p => p.toNat
  | .bLtn _ _ _ p => p.toNat
  | .bGen _ _ _ p => p.toNat
  | .jmp _ p => p.toNat
  | .call _ _ p => p.toNat
  | .vadd _ _ _ _ f _ => f.toNat
  | .vsub _ _ _ _ f _ => f.toNat
  | .vmul _ _ _ _ f _ => f.toNat
  | .vdiv _ _ _ _ f _ => f.toNat
  | .vmin _ _ _ _ f _ => f.toNat
  | .vmax _ _ _ _ f _ => f.toNat
  | .vfma _ _ _ _ f _ => f.toNat
  | .vfms _ _ _ _ f _ => f.toNat
  | .vsqrt _ _ _ f _ => f.toNat
  | .vrsqrt _ _ _ f _ => f.toNat
  | .vabs _ _ _ f _ => f.toNat
  | .vneg _ _ _ f _ => f.toNat
  | .viadd _ _ _ _ f _ => f.toNat
  | .visub _ _ _ _ f _ => f.toNat
  | .vimul _ _ _ _ f _ => f.toNat
  | .vimulh _ _ _ _ f _ => f.toNat
  | .vimin _ _ _ _ f _ => f.toNat
  | .vimax _ _ _ _ f _ => f.toNat
  | .vclz _ _ _ f _ => f.toNat
  | .vpopc _ _ _ f _ => f.toNat
  | .vand _ _ _ _ f _ => f.toNat
  | .vor _ _ _ _ f _ => f.toNat
  | .vxor _ _ _ _ f _ => f.toNat
  | .vshl _ _ _ _ f _ => f.toNat
  | .vshr _ _ _ _ f _ => f.toNat
  | .vsar _ _ _ _ f _ => f.toNat
  | .vfshL _ _ _ _ f _ => f.toNat
  | .vfshR _ _ _ _ f _ => f.toNat
  | .vcmp _ _ _ _ f _ _ => f.toNat
  | .vred _ _ _ f _ _ => f.toNat
  | .vredAddxProduct _ _ _ _ f _ => f.toNat
  | .vgred _ _ _ _ f _ _ => f.toNat
  | .vscan _ _ _ f _ _ => f.toNat
  | .vcvt _ _ _ _ f _ => f.toNat
  | .fisect _ _ _ _ f _ _ => f.toNat
  | .funion _ _ _ _ f _ _ => f.toNat
  | .fsort _ _ _ f _ _ => f.toNat
  | .fcompact _ _ _ f _ => f.toNat
  | .fexpandV _ _ _ f _ => f.toNat
  | .fexpandD _ _ _ f _ => f.toNat
  | .fpack _ _ _ _ f _ => f.toNat
  | .fpackD _ _ _ f _ => f.toNat
  | .mldb _ _ _ f => f.toNat
  | .mma _ _ _ f => f.toNat
  | .mmaS24 _ _ _ _ f => f.toNat
  | .mmaX _ _ _ _ f => f.toNat
  | _ => 0

end Sys2Proof
end

