-- ==== Sys2Proof/WellFormed.lean ====
section
/-! DEFINITION. Well-formed instructions: those that some words of the manual encode. `listed` and `literalOk` are what
raises cause 0x01 when it fails, `fieldsOk` what raises cause 0x02 (R55). -/

namespace Sys2Proof

/-- The system registers listed (R105). -/
def sysListed (n : Nat) : Bool :=
  n ≤ 2 || n == 4 || n == 5 || n == 8 || (0x10 ≤ n && n ≤ 0x12) || (0x20 ≤ n && n ≤ 0x3F) || (0x100 ≤ n && n ≤ 0x108) ||
    (0x180 ≤ n && n ≤ 0x182) || n == 0x190

/-- The function, condition and register-number values that the entries list (R54, R100). -/
def listed : Instr → Bool
  | .lds _ _ _ _ w _ | .ldz _ _ _ _ w _ | .ldsSp _ _ _ _ w | .ldzSp _ _ _ _ w => w != 3
  | .pref _ _ _ l => l != 3
  | .vscan _ _ _ _ op _ => op != .addo && op != .addx
  | .vgred _ _ _ n _ _ _ => 1 ≤ n.toNat && n.toNat ≤ 11
  | .call _ d _ => d != 0 && d != 63
  | .mfs _ _ n | .mts _ _ n => sysListed n.toNat
  | _ => true

/-- Only an entry with an immediate operand admits a literal (R49). -/
def literalOk (i : Instr) : Bool :=
  match formOf i with
  | some (.baseLit _) | some (.extLit _ _) => (capsOf i).lit
  | _ => true

/-- The attribute bits of an atomic (R193): RA for `vamo.fadd` only, NF for `vamo` only, U for min, max and the 32-bit
results of `amo` and `cas`, REL not on `vwait`, SCOPE 0 to 6. -/
def attrOk (i : Instr) (imm : BitVec 24) : Bool :=
  let n := imm.toNat
  let ra := n / 256 % 2 == 1
  let nf := n / 128 % 2 == 1
  let u := n / 64 % 2 == 1
  let rel := n / 32 % 2 == 1
  let common := n / 512 == 0 && n / 8 % 2 == 0 && n % 8 != 7
  match i with
  | .amo _ _ _ _ op d _ => common && !ra && !nf && (!u || op == .min || op == .max || !d)
  | .cas _ _ _ _ d _ => common && !ra && !nf && (!u || !d)
  | .vamo _ _ _ _ _ _ op => common && (!ra || op == .fadd) && (!u || op == .int .min || op == .int .max)
  | .vwait _ _ _ _ _ _ _ => common && !ra && !nf && !u && !rel
  | _ => true

/-- IMM in the form L = 0b10 (R46, R51, R93, R193). -/
def immOk (i : Instr) (e : ExtFields) : Bool :=
  match (capsOf i).imm with
  | .none => e.imm == 0
  | .always => true
  | .withIb => e.ib || e.imm == 0
  | .bitField => if e.ib then e.imm.toNat / 64 % 4 == 0 && e.imm.toNat / 2 ^ 15 == 0 else e.imm == 0
  | .attr => attrOk i e.imm

/-- The reserved fields of word 1 for what the entry admits (R45, R46, R47). Of an E5 that names a register, bit 5 is checked here also where a
descriptor may leave the field without a meaning (R401; log entry 92). -/
def extOk (c : Caps) (e : ExtFields) : Bool :=
  (c.ib || !e.ib) && (c.fd || e.fdx == 0) && e.e5.toNat < 2 ^ c.e5 && (c.ra || !e.ru.getLsbD 0) &&
    ((c.rb && !e.ib) || !e.ru.getLsbD 1) && (decide (0 < c.e5) || !e.ru.getLsbD 2) && e.pri != 3 && e.alc != 3 && e.cls != 3 &&
    (c.mem || (e.alc == 0 && e.cls == 0)) && (c.guards || (!e.g1p && !e.g2p && e.g1 == 0 && e.g2 == 0)) &&
    (!e.g1p || e.g1 != 0) && (!e.g2p || e.g2 != 0) && (!c.allz || (!e.yld && e.pri == 0))

/-- What the form asks of the fields (R46, R50, R92, R120, R159). -/
def formFieldsOk (i : Instr) : Bool :=
  let c := capsOf i
  match formOf i with
  | none => false
  | some .base => true
  | some (.baseLit _) => imm12Of i == 0 && replacedField i == 0
  | some (.ext e) => extOk c e && !e.lt && immOk i e && extReserved i == 0 && (!e.ib || replacedField i == 0)
  | some (.extLit e l) =>
    extOk c e && (!e.lt || (c.flt && l.toNat / 2 ^ 32 == 0)) && e.imm == 0 && extReserved i == 0 && (!c.ib || e.ib) &&
      replacedField i == 0

/-- The selectors that an entry admits (R186, R205, R382). -/
def selectorOk : Instr → Bool
  | .bstat _ _ s => s.toNat ≤ 3
  | .barRd _ _ _ s => s.toNat ≤ 5
  | .pcntRd _ _ n => n.toNat ≤ 31
  | .tstamp _ _ s => s.toNat ≤ 2
  | _ => true

def fieldsOk (i : Instr) : Bool := formFieldsOk i && selectorOk i

/-- Some words encode the instruction. -/
def wellFormed (i : Instr) : Bool := listed i && literalOk i && fieldsOk i

end Sys2Proof
end

