-- ==== Sys2Proof/Decode.lean ====
section
/-! DEFINITION. The decoder, total on any bytes, which rejects by name, and the encoder, both written from the field formats
of 02_instruction_words.md and the templates of the entries. Fields are read from and placed into the number that a word
is, so that `bits n lo len` is bits [lo + len - 1 : lo] of it. -/

namespace Sys2Proof

/-- Bits [lo + len - 1 : lo] of a number. -/
def bits (n lo len : Nat) : Nat := n / 2 ^ lo % 2 ^ len

/-- The same as a bit vector. -/
def fld (n lo len : Nat) : BitVec len := BitVec.ofNat len (n / 2 ^ lo)

/-- One bit. -/
def flag (n lo : Nat) : Bool := n / 2 ^ lo % 2 == 1

def CmpOp.code : CmpOp → Nat
  | .eq => 0 | .ne => 1 | .lt => 2 | .le => 3 | .gt => 4 | .ge => 5 | .un => 6

def CmpOp.ofCode : Nat → CmpOp
  | 0 => .eq | 1 => .ne | 2 => .lt | 3 => .le | 4 => .gt | 5 => .ge | _ => .un

def WaitOp.code : WaitOp → Nat
  | .eq => 0 | .ne => 1 | .lt => 2 | .ge => 3 | .ltn => 4 | .gen => 5

def WaitOp.ofCode : Nat → WaitOp
  | 0 => .eq | 1 => .ne | 2 => .lt | 3 => .ge | 4 => .ltn | _ => .gen

def RedOp.code : RedOp → Nat
  | .add => 0 | .addo => 1 | .addx => 2 | .min => 3 | .max => 4 | .and => 5 | .or => 6 | .xor => 7

def RedOp.ofCode : Nat → RedOp
  | 0 => .add | 1 => .addo | 2 => .addx | 3 => .min | 4 => .max | 5 => .and | 6 => .or | _ => .xor

def IsectOp.code : IsectOp → Nat
  | .mul => 0 | .add => 1 | .min => 2 | .max => 3 | .first => 4

def IsectOp.ofCode : Nat → IsectOp
  | 0 => .mul | 1 => .add | 2 => .min | 3 => .max | _ => .first

def UnionOp.code : UnionOp → Nat
  | .add => 0 | .sub => 1 | .min => 2 | .max => 3 | .first => 4

def UnionOp.ofCode : Nat → UnionOp
  | 0 => .add | 1 => .sub | 2 => .min | 3 => .max | _ => .first

def SortOp.code : SortOp → Nat
  | .add => 0 | .min => 1 | .max => 2 | .first => 3

def SortOp.ofCode : Nat → SortOp
  | 0 => .add | 1 => .min | 2 => .max | _ => .first

def AmoOp.code : AmoOp → Nat
  | .add => 0 | .and => 1 | .or => 2 | .xor => 3 | .min => 4 | .max => 5 | .swap => 6

def AmoOp.ofCode : Nat → AmoOp
  | 0 => .add | 1 => .and | 2 => .or | 3 => .xor | 4 => .min | 5 => .max | _ => .swap

def DiagSpace.code : DiagSpace → Nat
  | .global => 0 | .tcm => 1 | .sp => 2

def DiagSpace.ofCode : Nat → DiagSpace
  | 0 => .global | 1 => .tcm | _ => .sp

/-- Codes of the scopes (R122). -/
def Scope.code : Scope → Nat
  | .hart => 0 | .core => 1 | .cluster => 2 | .die => 3 | .dev => 4 | .fab => 5 | .sys => 6

def Scope.ofCode : Nat → Scope
  | 0 => .hart | 1 => .core | 2 => .cluster | 3 => .die | 4 => .dev | 5 => .fab | _ => .sys

def VamoOp.code : VamoOp → Nat
  | .int op => op.code | .fadd => 7

def VamoOp.ofCode (n : Nat) : VamoOp := if n = 7 then .fadd else .int (AmoOp.ofCode n)

/-- The length field L (R40). -/
def Form.code : Form → Nat
  | .base => 0 | .baseLit _ => 1 | .ext _ => 2 | .extLit _ _ => 3

/-- Length in bytes by the length field (R40). -/
def lenOfL (l : Nat) : Nat := match l with | 0 => 4 | 1 => 12 | 2 => 12 | _ => 20

def Form.len (fm : Form) : Nat := lenOfL fm.code

/-! ## Decoding -/

/-- Why a word is not an instruction: cause 0x01 or cause 0x02 (R55). -/
inductive DecodeErr where
  /-- no such major, function, condition, form or register number: cause 0x01 -/
  | illegal
  /-- a reserved field is not zero: cause 0x02 -/
  | reserved
  deriving DecidableEq, Repr

/-- The fields of words 1 and 2 (R45). -/
def extOf (w1 w2 : Nat) : ExtFields :=
  { lt := flag w1 31, ib := flag w1 30, fdx := fld w1 24 6, e5 := fld w1 18 6, ru := fld w1 15 3, yld := flag w1 14,
    pri := fld w1 12 2, alc := fld w1 10 2, cls := fld w1 8 2, g2p := flag w1 7, g2 := fld w1 4 3, g1p := flag w1 3,
    g1 := fld w1 0 3, imm := fld w2 0 24 }

/-- The form that the length field gives, from the words that follow word 0 (R40). -/
def readForm (l w1 w2 w3 w4 : Nat) : Form :=
  match l with
  | 0 => .base
  | 1 => .baseLit (BitVec.ofNat 64 (w1 + w2 * 2 ^ 32))
  | 2 => .ext (extOf w1 w2)
  | _ => .extLit (extOf w1 w2) (BitVec.ofNat 64 (w3 + w4 * 2 ^ 32))

/-! One function for each major: the instruction, and whether the bits of word 0 that it leaves reserved are zero. -/

/-- Major 0x01. -/
def decodeMajor01 (fm : Form) (n : Nat) : Option (Instr × Bool) :=
  match bits n 27 5 with
  | 0 => some (.add fm (fld n 9 6) (fld n 15 6) (fld n 21 6), bits n 8 1 == 0)
  | 1 => some (.sub fm (fld n 9 6) (fld n 15 6) (fld n 21 6), bits n 8 1 == 0)
  | 2 => some (.mul fm (fld n 9 6) (fld n 15 6) (fld n 21 6), bits n 8 1 == 0)
  | 3 => some (.mulh fm (fld n 9 6) (fld n 15 6) (fld n 21 6), bits n 8 1 == 0)
  | 4 => some (.mulhN fm (fld n 9 6) (fld n 15 6) (fld n 21 6), bits n 8 1 == 0)
  | 5 => some (.div fm (fld n 9 6) (fld n 15 6) (fld n 21 6), bits n 8 1 == 0)
  | 6 => some (.divN fm (fld n 9 6) (fld n 15 6) (fld n 21 6), bits n 8 1 == 0)
  | 7 => some (.rem fm (fld n 9 6) (fld n 15 6) (fld n 21 6), bits n 8 1 == 0)
  | 8 => some (.remN fm (fld n 9 6) (fld n 15 6) (fld n 21 6), bits n 8 1 == 0)
  | 9 => some (.and fm (fld n 9 6) (fld n 15 6) (fld n 21 6), bits n 8 1 == 0)
  | 10 => some (.or fm (fld n 9 6) (fld n 15 6) (fld n 21 6), bits n 8 1 == 0)
  | 11 => some (.xor fm (fld n 9 6) (fld n 15 6) (fld n 21 6), bits n 8 1 == 0)
  | 12 => some (.andn fm (fld n 9 6) (fld n 15 6) (fld n 21 6), bits n 8 1 == 0)
  | 13 => some (.shl fm (fld n 9 6) (fld n 15 6) (fld n 21 6), bits n 8 1 == 0)
  | 14 => some (.shr fm (fld n 9 6) (fld n 15 6) (fld n 21 6), bits n 8 1 == 0)
  | 15 => some (.sar fm (fld n 9 6) (fld n 15 6) (fld n 21 6), bits n 8 1 == 0)
  | 16 => some (.rol fm (fld n 9 6) (fld n 15 6) (fld n 21 6), bits n 8 1 == 0)
  | _ => none

/-- Major 0x02. -/
def decodeMajor02 (fm : Form) (n : Nat) : Option (Instr × Bool) :=
  match bits n 15 5 with
  | 0 => some (.addImm fm (fld n 9 6) (fld n 20 12), bits n 8 1 == 0)
  | 1 => some (.li fm (fld n 9 6) (fld n 20 12), bits n 8 1 == 0)
  | 2 => some (.mov fm (fld n 9 6) (fld n 20 6), bits n 8 1 == 0 && bits n 26 6 == 0)
  | 3 => some (.andImm fm (fld n 9 6) (fld n 20 12), bits n 8 1 == 0)
  | 4 => some (.orImm fm (fld n 9 6) (fld n 20 12), bits n 8 1 == 0)
  | 5 => some (.xorImm fm (fld n 9 6) (fld n 20 12), bits n 8 1 == 0)
  | 6 => some (.shlImm fm (fld n 9 6) (fld n 20 12), bits n 8 1 == 0)
  | 7 => some (.shrImm fm (fld n 9 6) (fld n 20 12), bits n 8 1 == 0)
  | 8 => some (.sarImm fm (fld n 9 6) (fld n 20 12), bits n 8 1 == 0)
  | 9 => some (.rolImm fm (fld n 9 6) (fld n 20 12), bits n 8 1 == 0)
  | 10 => some (.mulImm fm (fld n 9 6) (fld n 20 12), bits n 8 1 == 0)
  | _ => none

/-- Major 0x03. -/
def decodeMajor03 (fm : Form) (n : Nat) : Option (Instr × Bool) :=
  match bits n 21 3 with
  | 0 => some (.bEq fm (fld n 9 6) (fld n 15 6) (fld n 24 8), bits n 8 1 == 0)
  | 1 => some (.bNe fm (fld n 9 6) (fld n 15 6) (fld n 24 8), bits n 8 1 == 0)
  | 2 => some (.bLt fm (fld n 9 6) (fld n 15 6) (fld n 24 8), bits n 8 1 == 0)
  | 3 => some (.bGe fm (fld n 9 6) (fld n 15 6) (fld n 24 8), bits n 8 1 == 0)
  | 4 => some (.bLtn fm (fld n 9 6) (fld n 15 6) (fld n 24 8), bits n 8 1 == 0)
  | 5 => some (.bGen fm (fld n 9 6) (fld n 15 6) (fld n 24 8), bits n 8 1 == 0)
  | _ => none

/-- Major 0x04. -/
def decodeMajor04 (fm : Form) (n : Nat) : Option (Instr × Bool) :=
  if bits n 9 6 = 0 then some (.jmp fm (fld n 15 17), bits n 8 1 == 0)
  else if bits n 9 6 = 63 then
    match bits n 27 5 with
    | 0 => some (.jmpReg fm (fld n 15 6), bits n 8 1 == 0 && bits n 21 6 == 0)
    | 1 => some (.callReg fm (fld n 15 6) (fld n 21 6), bits n 8 1 == 0)
    | 2 => some (.ret fm (fld n 15 6), bits n 8 1 == 0 && bits n 21 6 == 0)
    | _ => none
  else some (.call fm (fld n 9 6) (fld n 15 17), bits n 8 1 == 0)

/-- Major 0x05. -/
def decodeMajor05 (fm : Form) (n : Nat) : Option (Instr × Bool) :=
  match bits n 27 5 with
  | 0 | 1 | 2 | 3 => some (.setvl fm (fld n 9 6) (fld n 15 6) (fld n 27 2), bits n 8 1 == 0 && bits n 21 6 == 0)
  | 4 | 5 => some (.vjoin fm (flag n 27), bits n 8 19 == 0)
  | 6 | 7 => some (.vsplit fm (flag n 27), bits n 8 19 == 0)
  | _ => none

/-- Major 0x06. -/
def decodeMajor06 (fm : Form) (n : Nat) : Option (Instr × Bool) :=
  match bits n 27 5 with
  | 0 => some (.mfs fm (fld n 9 6) (fld n 15 12), bits n 8 1 == 0)
  | 1 => some (.mts fm (fld n 9 6) (fld n 15 12), bits n 8 1 == 0)
  | 2 => some (.trap fm (fld n 15 12), bits n 8 7 == 0)
  | 3 => some (.eret fm, bits n 8 19 == 0)
  | 4 => some (.yield fm, bits n 8 19 == 0)
  | 5 => some (.wfe fm, bits n 8 19 == 0)
  | _ => none

/-- Major 0x07. -/
def decodeMajor07 (fm : Form) (n : Nat) : Option (Instr × Bool) :=
  match bits n 27 5 with
  | 0 => some (.clz fm (fld n 9 6) (fld n 15 6), bits n 8 1 == 0 && bits n 21 6 == 0)
  | 1 => some (.ctz fm (fld n 9 6) (fld n 15 6), bits n 8 1 == 0 && bits n 21 6 == 0)
  | 2 => some (.popc fm (fld n 9 6) (fld n 15 6), bits n 8 1 == 0 && bits n 21 6 == 0)
  | 3 => some (.bext fm (fld n 9 6) (fld n 15 6) (fld n 21 6), bits n 8 1 == 0)
  | 4 => some (.bins fm (fld n 9 6) (fld n 15 6) (fld n 21 6), bits n 8 1 == 0)
  | 5 => some (.sel fm (fld n 9 6) (fld n 15 6) (fld n 21 6), bits n 8 1 == 0)
  | 6 => some (.min fm (fld n 9 6) (fld n 15 6) (fld n 21 6), bits n 8 1 == 0)
  | 7 => some (.max fm (fld n 9 6) (fld n 15 6) (fld n 21 6), bits n 8 1 == 0)
  | 8 => some (.minN fm (fld n 9 6) (fld n 15 6) (fld n 21 6), bits n 8 1 == 0)
  | 9 => some (.maxN fm (fld n 9 6) (fld n 15 6) (fld n 21 6), bits n 8 1 == 0)
  | _ => none

/-- Major 0x08. -/
def decodeMajor08 (fm : Form) (n : Nat) : Option (Instr × Bool) :=
  match bits n 27 5 with
  | 0 | 1 | 2 | 8 | 9 | 10 => some (.lds fm (fld n 9 6) (fld n 15 6) (fld n 21 6) (fld n 27 2) (flag n 30), bits n 8 1 == 0)
  | 3 | 11 => some (.ldD fm (fld n 9 6) (fld n 15 6) (fld n 21 6) (flag n 30), bits n 8 1 == 0)
  | 4 | 5 | 6 | 12 | 13 | 14 => some (.ldz fm (fld n 9 6) (fld n 15 6) (fld n 21 6) (fld n 27 2) (flag n 30), bits n 8 1 == 0)
  | _ => none

/-- Major 0x09. -/
def decodeMajor09 (fm : Form) (n : Nat) : Option (Instr × Bool) :=
  match bits n 27 5 with
  | 0 | 1 | 2 | 3 | 8 | 9 | 10 | 11 => some (.st fm (fld n 9 6) (fld n 15 6) (fld n 21 6) (fld n 27 2) (flag n 30), bits n 8 1 == 0)
  | _ => none

/-- Major 0x0A. -/
def decodeMajor0A (fm : Form) (n : Nat) : Option (Instr × Bool) :=
  match bits n 27 5 with
  | 0 | 1 | 4 | 5 | 8 | 9 | 12 | 13 | 16 | 17 | 20 | 21 | 24 | 25 => some (.ldacq fm (fld n 9 6) (fld n 15 6) (fld n 21 6) (flag n 27) (Scope.ofCode (bits n 29 3)), bits n 8 1 == 0)
  | 2 | 3 | 6 | 7 | 10 | 11 | 14 | 15 | 18 | 19 | 22 | 23 | 26 | 27 => some (.strel fm (fld n 9 6) (fld n 15 6) (fld n 21 6) (flag n 27) (Scope.ofCode (bits n 29 3)), bits n 8 1 == 0)
  | _ => none

/-- Major 0x0B. -/
def decodeMajor0B (fm : Form) (n : Nat) : Option (Instr × Bool) :=
  match bits n 27 5 with
  | 0 => some (.fenceSv fm, bits n 8 19 == 0)
  | 1 => some (.fenceVs fm, bits n 8 19 == 0)
  | 8 | 9 | 10 | 11 | 12 | 13 | 14 => some (.fence fm (Scope.ofCode (bits n 27 3)), bits n 8 19 == 0)
  | 16 | 17 | 18 => some (.pref fm (fld n 15 6) (fld n 21 6) (fld n 27 2), bits n 8 7 == 0)
  | 24 => some (.tlbinvVa fm (fld n 15 6) (fld n 21 6), bits n 8 7 == 0)
  | 25 => some (.tlbinvAsn fm (fld n 21 6), bits n 8 13 == 0)
  | 26 => some (.tlbinvAll fm, bits n 8 19 == 0)
  | _ => none

/-- Major 0x0C. -/
def decodeMajor0C (fm : Form) (n : Nat) : Option (Instr × Bool) :=
  match bits n 26 6 with
  | 0 | 1 | 2 | 3 | 8 | 9 | 10 | 11 => some (.vld fm (fld n 9 5) (fld n 14 6) (fld n 26 2) (flag n 29) (flag n 8), bits n 20 6 == 0)
  | 4 | 5 | 6 | 7 | 12 | 13 | 14 | 15 => some (.vlds fm (fld n 9 5) (fld n 14 6) (fld n 20 6) (fld n 26 2) (flag n 29) (flag n 8), true)
  | _ => none

/-- Major 0x0D. -/
def decodeMajor0D (fm : Form) (n : Nat) : Option (Instr × Bool) :=
  match bits n 26 6 with
  | 0 | 1 | 2 | 3 | 4 | 5 | 6 | 7 | 8 | 9 | 10 | 11 | 12 | 13 | 14 | 15 | 16 | 17 | 18 | 19 | 20 | 21 | 22 | 23 | 24 | 25 | 26 | 27 | 28 | 29 | 30 | 31 => some (.vldx fm (fld n 9 5) (fld n 14 6) (fld n 20 5) (fld n 26 2) (flag n 28) (flag n 29) (flag n 30) (flag n 8), bits n 25 1 == 0)
  | _ => none

/-- Major 0x0E. -/
def decodeMajor0E (fm : Form) (n : Nat) : Option (Instr × Bool) :=
  match bits n 26 6 with
  | 0 | 1 | 2 | 3 | 8 | 9 | 10 | 11 => some (.vst fm (fld n 9 5) (fld n 14 6) (fld n 26 2) (flag n 29) (flag n 8), bits n 20 6 == 0)
  | 4 | 5 | 6 | 7 | 12 | 13 | 14 | 15 => some (.vsts fm (fld n 9 5) (fld n 14 6) (fld n 20 6) (fld n 26 2) (flag n 29) (flag n 8), true)
  | 16 | 24 => some (.vstu fm (fld n 9 5) (fld n 14 6) (fld n 20 6) (flag n 29) (flag n 8), true)
  | _ => none

/-- Major 0x0F. -/
def decodeMajor0F (fm : Form) (n : Nat) : Option (Instr × Bool) :=
  some (.vstx fm (fld n 9 5) (fld n 14 6) (fld n 20 5) (fld n 26 2) (flag n 28) (flag n 29) (flag n 30) (flag n 31) (flag n 8), bits n 25 1 == 0)

/-- Major 0x10. -/
def decodeMajor10 (fm : Form) (n : Nat) : Option (Instr × Bool) :=
  match bits n 27 5 with
  | 0 => some (.vadd fm (fld n 9 5) (fld n 14 5) (fld n 19 5) (fld n 24 3) (flag n 8), true)
  | 1 => some (.vsub fm (fld n 9 5) (fld n 14 5) (fld n 19 5) (fld n 24 3) (flag n 8), true)
  | 2 => some (.vmul fm (fld n 9 5) (fld n 14 5) (fld n 19 5) (fld n 24 3) (flag n 8), true)
  | 3 => some (.vdiv fm (fld n 9 5) (fld n 14 5) (fld n 19 5) (fld n 24 3) (flag n 8), true)
  | 4 => some (.vmin fm (fld n 9 5) (fld n 14 5) (fld n 19 5) (fld n 24 3) (flag n 8), true)
  | 5 => some (.vmax fm (fld n 9 5) (fld n 14 5) (fld n 19 5) (fld n 24 3) (flag n 8), true)
  | _ => none

/-- Major 0x11. -/
def decodeMajor11 (fm : Form) (n : Nat) : Option (Instr × Bool) :=
  match bits n 27 5 with
  | 0 => some (.vfma fm (fld n 9 5) (fld n 14 5) (fld n 19 5) (fld n 24 3) (flag n 8), true)
  | 1 => some (.vfms fm (fld n 9 5) (fld n 14 5) (fld n 19 5) (fld n 24 3) (flag n 8), true)
  | 8 => some (.vsqrt fm (fld n 9 5) (fld n 14 5) (fld n 24 3) (flag n 8), bits n 19 5 == 0)
  | 9 => some (.vrsqrt fm (fld n 9 5) (fld n 14 5) (fld n 24 3) (flag n 8), bits n 19 5 == 0)
  | 10 => some (.vabs fm (fld n 9 5) (fld n 14 5) (fld n 24 3) (flag n 8), bits n 19 5 == 0)
  | 11 => some (.vneg fm (fld n 9 5) (fld n 14 5) (fld n 24 3) (flag n 8), bits n 19 5 == 0)
  | _ => none

/-- Major 0x12. -/
def decodeMajor12 (fm : Form) (n : Nat) : Option (Instr × Bool) :=
  match bits n 27 5 with
  | 0 => some (.viadd fm (fld n 9 5) (fld n 14 5) (fld n 19 5) (fld n 24 3) (flag n 8), true)
  | 1 => some (.visub fm (fld n 9 5) (fld n 14 5) (fld n 19 5) (fld n 24 3) (flag n 8), true)
  | 2 => some (.vimul fm (fld n 9 5) (fld n 14 5) (fld n 19 5) (fld n 24 3) (flag n 8), true)
  | 3 => some (.vimulh fm (fld n 9 5) (fld n 14 5) (fld n 19 5) (fld n 24 3) (flag n 8), true)
  | 4 => some (.vimin fm (fld n 9 5) (fld n 14 5) (fld n 19 5) (fld n 24 3) (flag n 8), true)
  | 5 => some (.vimax fm (fld n 9 5) (fld n 14 5) (fld n 19 5) (fld n 24 3) (flag n 8), true)
  | 8 => some (.vclz fm (fld n 9 5) (fld n 14 5) (fld n 24 3) (flag n 8), bits n 19 5 == 0)
  | 9 => some (.vpopc fm (fld n 9 5) (fld n 14 5) (fld n 24 3) (flag n 8), bits n 19 5 == 0)
  | _ => none

/-- Major 0x13. -/
def decodeMajor13 (fm : Form) (n : Nat) : Option (Instr × Bool) :=
  match bits n 27 5 with
  | 0 => some (.vand fm (fld n 9 5) (fld n 14 5) (fld n 19 5) (fld n 24 3) (flag n 8), true)
  | 1 => some (.vor fm (fld n 9 5) (fld n 14 5) (fld n 19 5) (fld n 24 3) (flag n 8), true)
  | 2 => some (.vxor fm (fld n 9 5) (fld n 14 5) (fld n 19 5) (fld n 24 3) (flag n 8), true)
  | 4 => some (.vshl fm (fld n 9 5) (fld n 14 5) (fld n 19 5) (fld n 24 3) (flag n 8), true)
  | 5 => some (.vshr fm (fld n 9 5) (fld n 14 5) (fld n 19 5) (fld n 24 3) (flag n 8), true)
  | 6 => some (.vsar fm (fld n 9 5) (fld n 14 5) (fld n 19 5) (fld n 24 3) (flag n 8), true)
  | 8 => some (.vfshL fm (fld n 9 5) (fld n 14 5) (fld n 19 5) (fld n 24 3) (flag n 8), true)
  | 9 => some (.vfshR fm (fld n 9 5) (fld n 14 5) (fld n 19 5) (fld n 24 3) (flag n 8), true)
  | _ => none

/-- Major 0x14. -/
def decodeMajor14 (fm : Form) (n : Nat) : Option (Instr × Bool) :=
  match bits n 27 5 with
  | 0 | 1 | 2 | 3 | 4 | 5 | 6 => some (.vcmp fm (fld n 9 3) (fld n 14 5) (fld n 19 5) (fld n 24 3) (CmpOp.ofCode (bits n 27 3)) (flag n 8), bits n 12 2 == 0)
  | _ => none

/-- Major 0x15. -/
def decodeMajor15 (fm : Form) (n : Nat) : Option (Instr × Bool) :=
  match bits n 27 5 with
  | 0 | 1 | 2 | 3 | 4 | 5 | 6 | 7 => some (.vred fm (fld n 9 5) (fld n 14 5) (fld n 24 3) (RedOp.ofCode (bits n 27 3)) (flag n 8), bits n 19 5 == 0)
  | 8 => some (.vredAddxProduct fm (fld n 9 5) (fld n 14 5) (fld n 19 5) (fld n 24 3) (flag n 8), true)
  | _ => none

/-- Major 0x16. -/
def decodeMajor16 (fm : Form) (n : Nat) : Option (Instr × Bool) :=
  match bits n 27 5 with
  | 0 | 1 | 2 | 3 | 4 | 5 | 6 | 7 => some (.vgred fm (fld n 9 5) (fld n 14 5) (fld n 19 5) (fld n 24 3) (RedOp.ofCode (bits n 27 3)) (flag n 8), true)
  | _ => none

/-- Major 0x17. -/
def decodeMajor17 (fm : Form) (n : Nat) : Option (Instr × Bool) :=
  match bits n 27 5 with
  | 0 | 3 | 4 | 5 | 6 | 7 => some (.vscan fm (fld n 9 5) (fld n 14 5) (fld n 24 3) (RedOp.ofCode (bits n 27 3)) (flag n 8), bits n 19 5 == 0)
  | _ => none

/-- Major 0x18. -/
def decodeMajor18 (fm : Form) (n : Nat) : Option (Instr × Bool) :=
  match bits n 27 5 with
  | 0 => some (.vcvt fm (fld n 9 5) (fld n 14 5) (fld n 19 5) (fld n 24 3) (flag n 8), true)
  | _ => none

/-- Major 0x1C. -/
def decodeMajor1C (fm : Form) (n : Nat) : Option (Instr × Bool) :=
  match bits n 27 5 with
  | 0 => some (.mand fm (fld n 9 3) (fld n 15 3) (fld n 21 3) (flag n 8), bits n 12 3 == 0 && bits n 18 3 == 0 && bits n 24 3 == 0)
  | 1 => some (.mor fm (fld n 9 3) (fld n 15 3) (fld n 21 3) (flag n 8), bits n 12 3 == 0 && bits n 18 3 == 0 && bits n 24 3 == 0)
  | 2 => some (.mxor fm (fld n 9 3) (fld n 15 3) (fld n 21 3) (flag n 8), bits n 12 3 == 0 && bits n 18 3 == 0 && bits n 24 3 == 0)
  | 3 => some (.mandn fm (fld n 9 3) (fld n 15 3) (fld n 21 3) (flag n 8), bits n 12 3 == 0 && bits n 18 3 == 0 && bits n 24 3 == 0)
  | 4 => some (.mnot fm (fld n 9 3) (fld n 15 3) (flag n 8), bits n 12 3 == 0 && bits n 18 9 == 0)
  | _ => none

/-- Major 0x1D. -/
def decodeMajor1D (fm : Form) (n : Nat) : Option (Instr × Bool) :=
  match bits n 27 5 with
  | 0 => some (.mpopc fm (fld n 9 6) (fld n 15 3) (flag n 8), bits n 18 9 == 0)
  | 1 => some (.mfirst fm (fld n 9 6) (fld n 15 3) (flag n 8), bits n 18 9 == 0)
  | _ => none

/-- Major 0x1E. -/
def decodeMajor1E (fm : Form) (n : Nat) : Option (Instr × Bool) :=
  match bits n 27 5 with
  | 0 => some (.vslideUp fm (fld n 9 5) (fld n 15 5) (fld n 21 6) (flag n 8), bits n 14 1 == 0 && bits n 20 1 == 0)
  | 1 => some (.vslideDown fm (fld n 9 5) (fld n 15 5) (fld n 21 6) (flag n 8), bits n 14 1 == 0 && bits n 20 1 == 0)
  | 2 => some (.vbcast fm (fld n 9 5) (fld n 15 6) (flag n 8), bits n 14 1 == 0 && bits n 21 6 == 0)
  | 3 => some (.vbcastI fm (fld n 9 5) (fld n 15 6) (fld n 21 6) (flag n 8), bits n 14 1 == 0)
  | _ => none

/-- Major 0x1F. -/
def decodeMajor1F (fm : Form) (n : Nat) : Option (Instr × Bool) :=
  match bits n 27 5 with
  | 0 => some (.vperm fm (fld n 9 5) (fld n 14 5) (fld n 19 5) (flag n 8), bits n 24 3 == 0)
  | 1 => some (.vcompress fm (fld n 9 5) (fld n 14 5) (fld n 19 3) (flag n 8), bits n 22 5 == 0)
  | 2 => some (.vexpand fm (fld n 9 5) (fld n 14 5) (fld n 19 3) (flag n 8), bits n 22 5 == 0)
  | _ => none

/-- Major 0x20. -/
def decodeMajor20 (fm : Form) (n : Nat) : Option (Instr × Bool) :=
  match bits n 26 6 with
  | 0 | 1 | 2 | 3 | 4 | 5 => some (.ldsSp fm (fld n 9 6) (fld n 15 6) (fld n 21 6) (fld n 27 2), bits n 8 1 == 0)
  | 6 | 7 => some (.ldDSp fm (fld n 9 6) (fld n 15 6) (fld n 21 6), bits n 8 1 == 0)
  | 8 | 9 | 10 | 11 | 12 | 13 => some (.ldzSp fm (fld n 9 6) (fld n 15 6) (fld n 21 6) (fld n 27 2), bits n 8 1 == 0)
  | 16 | 17 | 18 | 19 | 20 | 21 | 22 | 23 => some (.stSp fm (fld n 9 6) (fld n 15 6) (fld n 21 6) (fld n 27 2), bits n 8 1 == 0)
  | 30 | 31 => some (.bstat fm (fld n 9 6) (fld n 21 6), bits n 8 1 == 0 && bits n 15 6 == 0)
  | 32 | 33 | 34 | 35 => some (.vldSp fm (fld n 9 5) (fld n 14 6) (fld n 26 2), bits n 8 1 == 0 && bits n 20 6 == 0)
  | 36 | 37 | 38 | 39 => some (.vldsSp fm (fld n 9 5) (fld n 14 6) (fld n 20 6) (fld n 26 2), bits n 8 1 == 0)
  | 40 | 41 | 42 | 43 => some (.vldxSp fm (fld n 9 5) (fld n 14 6) (fld n 20 5) (fld n 26 2), bits n 8 1 == 0 && bits n 25 1 == 0)
  | 47 => some (.vldpSp fm (fld n 9 5) (fld n 14 6) (fld n 20 6), bits n 8 1 == 0)
  | 48 | 49 | 50 | 51 => some (.vstSp fm (fld n 9 5) (fld n 14 6) (fld n 26 2), bits n 8 1 == 0 && bits n 20 6 == 0)
  | 52 | 53 | 54 | 55 => some (.vstsSp fm (fld n 9 5) (fld n 14 6) (fld n 20 6) (fld n 26 2), bits n 8 1 == 0)
  | 56 | 57 | 58 | 59 => some (.vstxSp fm (fld n 9 5) (fld n 14 6) (fld n 20 5) (fld n 26 2), bits n 8 1 == 0 && bits n 25 1 == 0)
  | 63 => some (.vstpSp fm (fld n 9 5) (fld n 14 6) (fld n 20 6), bits n 8 1 == 0)
  | _ => none

/-- Major 0x21. -/
def decodeMajor21 (fm : Form) (n : Nat) : Option (Instr × Bool) :=
  match bits n 27 5 with
  | 0 | 1 | 2 | 3 | 4 | 5 | 6 | 8 | 9 | 10 | 11 | 12 | 13 | 14 | 16 | 17 | 18 | 19 | 20 | 21 | 22 | 24 | 25 | 26 | 27 | 28 | 29 | 30 => some (.amo fm (fld n 9 6) (fld n 15 6) (fld n 21 6) (AmoOp.ofCode (bits n 27 3)) (flag n 30) (flag n 31), bits n 8 1 == 0)
  | 7 | 15 | 23 | 31 => some (.cas fm (fld n 9 6) (fld n 15 6) (fld n 21 6) (flag n 30) (flag n 31), bits n 8 1 == 0)
  | _ => none

/-- Major 0x22. -/
def decodeMajor22 (fm : Form) (n : Nat) : Option (Instr × Bool) :=
  match bits n 26 6 with
  | 0 | 1 | 2 | 3 | 4 | 5 | 6 | 7 | 8 | 9 | 10 | 11 | 12 | 13 | 14 | 15 | 16 | 17 | 18 | 19 | 20 | 21 | 22 | 23 | 24 | 25 | 26 | 27 | 28 | 29 | 30 | 31 => some (.vamo fm (fld n 9 5) (fld n 14 6) (fld n 20 5) (flag n 26) (flag n 27) (VamoOp.ofCode (bits n 28 3)), bits n 8 1 == 0 && bits n 25 1 == 0)
  | 32 | 33 | 34 | 35 | 36 | 37 | 38 | 39 | 40 | 41 | 42 | 43 | 44 | 45 | 46 | 47 | 48 | 49 | 50 | 51 | 52 | 53 | 54 | 55 => some (.vwait fm (fld n 9 5) (fld n 14 6) (fld n 20 5) (flag n 26) (flag n 27) (WaitOp.ofCode (bits n 28 3)), bits n 8 1 == 0 && bits n 25 1 == 0)
  | _ => none

/-- Major 0x23. -/
def decodeMajor23 (fm : Form) (n : Nat) : Option (Instr × Bool) :=
  match bits n 27 5 with
  | 0 => some (.barArrive fm (fld n 9 6) (fld n 15 6) (fld n 21 6), bits n 8 1 == 0)
  | 1 => some (.barWait fm (fld n 15 6) (fld n 21 6), bits n 8 7 == 0)
  | 2 => some (.barSync fm (fld n 9 6) (fld n 15 6) (fld n 21 6), bits n 8 1 == 0)
  | 3 => some (.gbar fm, bits n 8 19 == 0)
  | 4 => some (.barRd fm (fld n 9 6) (fld n 15 6) (fld n 21 6), bits n 8 1 == 0)
  | _ => none

/-- Major 0x24. -/
def decodeMajor24 (fm : Form) (n : Nat) : Option (Instr × Bool) :=
  match bits n 27 5 with
  | 0 | 8 => some (.sbind fm (fld n 9 3) (fld n 15 6) (fld n 21 5) (flag n 30), bits n 8 1 == 0 && bits n 12 3 == 0 && bits n 26 1 == 0)
  | 1 | 9 => some (.sbindF fm (fld n 9 3) (fld n 15 6) (flag n 30), bits n 8 1 == 0 && bits n 12 3 == 0 && bits n 21 6 == 0)
  | 2 => some (.sstop fm (fld n 9 3), bits n 8 1 == 0 && bits n 12 15 == 0)
  | 3 | 11 => some (.ssave fm (fld n 9 3) (fld n 15 6) (flag n 30), bits n 8 1 == 0 && bits n 12 3 == 0 && bits n 21 6 == 0)
  | 4 | 12 => some (.srest fm (fld n 9 3) (fld n 15 6) (flag n 30), bits n 8 1 == 0 && bits n 12 3 == 0 && bits n 21 6 == 0)
  | _ => none

/-- Major 0x25. -/
def decodeMajor25 (fm : Form) (n : Nat) : Option (Instr × Bool) :=
  match bits n 27 5 with
  | 0 => some (.sopPop fm (fld n 9 5) (fld n 15 3), bits n 8 1 == 0 && bits n 14 1 == 0 && bits n 18 9 == 0)
  | 1 => some (.sopSkip fm (fld n 15 3) (fld n 21 6), bits n 8 7 == 0 && bits n 18 3 == 0)
  | 2 => some (.sopPos fm (fld n 9 6) (fld n 15 3), bits n 8 1 == 0 && bits n 18 9 == 0)
  | 3 => some (.sopRem fm (fld n 9 6) (fld n 15 3), bits n 8 1 == 0 && bits n 18 9 == 0)
  | _ => none

/-- Major 0x26. -/
def decodeMajor26 (fm : Form) (n : Nat) : Option (Instr × Bool) :=
  match bits n 27 5 with
  | 0 | 1 => some (.fld fm (fld n 9 4) (fld n 15 6) (fld n 21 6) (flag n 27) (flag n 8), bits n 13 2 == 0)
  | 2 => some (.fldQ fm (fld n 9 4) (fld n 15 3) (fld n 21 6) (flag n 8), bits n 13 2 == 0 && bits n 18 3 == 0)
  | 4 | 5 => some (.fst fm (fld n 9 4) (fld n 15 6) (flag n 27) (flag n 8), bits n 13 2 == 0 && bits n 21 6 == 0)
  | 8 => some (.fcount fm (fld n 9 6) (fld n 15 4) (flag n 8), bits n 19 8 == 0)
  | 9 => some (.fclear fm (fld n 9 4) (flag n 8), bits n 13 14 == 0)
  | _ => none

/-- Major 0x27. -/
def decodeMajor27 (fm : Form) (n : Nat) : Option (Instr × Bool) :=
  match bits n 27 5 with
  | 0 | 1 | 2 | 3 | 4 => some (.fisect fm (fld n 9 4) (fld n 14 4) (fld n 19 4) (fld n 24 3) (IsectOp.ofCode (bits n 27 3)) (flag n 8), bits n 13 1 == 0 && bits n 18 1 == 0 && bits n 23 1 == 0)
  | 8 | 9 | 10 | 11 | 12 => some (.funion fm (fld n 9 4) (fld n 14 4) (fld n 19 4) (fld n 24 3) (UnionOp.ofCode (bits n 27 3)) (flag n 8), bits n 13 1 == 0 && bits n 18 1 == 0 && bits n 23 1 == 0)
  | 16 => some (.fmerge fm (fld n 9 4) (fld n 15 4) (fld n 21 4) (flag n 8), bits n 13 2 == 0 && bits n 19 2 == 0 && bits n 25 2 == 0)
  | _ => none

/-- Major 0x28. -/
def decodeMajor28 (fm : Form) (n : Nat) : Option (Instr × Bool) :=
  match bits n 27 5 with
  | 0 | 1 | 2 | 3 => some (.fsort fm (fld n 9 4) (fld n 14 4) (fld n 24 3) (SortOp.ofCode (bits n 27 2)) (flag n 8), bits n 13 1 == 0 && bits n 18 6 == 0)
  | 4 => some (.fcompact fm (fld n 9 4) (fld n 14 4) (fld n 24 3) (flag n 8), bits n 13 1 == 0 && bits n 18 6 == 0)
  | 8 => some (.fexpandV fm (fld n 9 5) (fld n 14 4) (fld n 24 3) (flag n 8), bits n 18 6 == 0)
  | 9 => some (.fexpandD fm (fld n 9 5) (fld n 14 4) (fld n 24 3) (flag n 8), bits n 18 6 == 0)
  | 10 => some (.fexpandC fm (fld n 9 5) (fld n 15 4) (flag n 8), bits n 14 1 == 0 && bits n 19 8 == 0)
  | 12 => some (.fpack fm (fld n 9 4) (fld n 14 5) (fld n 19 5) (fld n 24 3) (flag n 8), bits n 13 1 == 0)
  | 13 => some (.fpackD fm (fld n 9 4) (fld n 14 5) (fld n 24 3) (flag n 8), bits n 13 1 == 0 && bits n 19 5 == 0)
  | _ => none

/-- Major 0x29. -/
def decodeMajor29 (fm : Form) (n : Nat) : Option (Instr × Bool) :=
  match bits n 27 5 with
  | 0 | 1 => some (.fwalk fm (fld n 9 4) (fld n 15 4) (fld n 21 6) (flag n 27) (flag n 8), bits n 13 2 == 0 && bits n 19 2 == 0)
  | _ => none

/-- Major 0x2A. -/
def decodeMajor2A (fm : Form) (n : Nat) : Option (Instr × Bool) :=
  match bits n 27 5 with
  | 0 => some (.mldb fm (fld n 17 2) (fld n 19 5) (fld n 24 3), bits n 8 9 == 0)
  | 1 => some (.mma fm (fld n 9 5) (fld n 14 5) (fld n 24 3), bits n 8 1 == 0 && bits n 19 5 == 0)
  | 2 => some (.mmaS24 fm (fld n 9 5) (fld n 14 5) (fld n 19 3) (fld n 24 3), bits n 8 1 == 0 && bits n 22 2 == 0)
  | 3 => some (.mmaX fm (fld n 9 5) (fld n 14 5) (fld n 19 5) (fld n 24 3), bits n 8 1 == 0)
  | _ => none

/-- Major 0x2B. -/
def decodeMajor2B (fm : Form) (n : Nat) : Option (Instr × Bool) :=
  match bits n 27 5 with
  | 0 => some (.mseal fm (fld n 9 6), bits n 8 1 == 0 && bits n 15 12 == 0)
  | 1 => some (.mpeek fm (fld n 9 5) (fld n 15 3) (fld n 21 6), bits n 8 1 == 0 && bits n 14 1 == 0 && bits n 18 3 == 0)
  | 2 => some (.mstat fm (fld n 9 6) (fld n 15 3) (fld n 21 6), bits n 8 1 == 0 && bits n 18 3 == 0)
  | _ => none

/-- Major 0x2C. -/
def decodeMajor2C (fm : Form) (n : Nat) : Option (Instr × Bool) :=
  match bits n 27 5 with
  | 0 => some (.epiCfg fm (fld n 9 3) (fld n 15 6) (fld n 21 6), bits n 8 1 == 0 && bits n 12 3 == 0)
  | 1 => some (.epiGo fm (fld n 15 6), bits n 8 7 == 0 && bits n 21 6 == 0)
  | 2 => some (.epiGoLd fm (fld n 15 6), bits n 8 7 == 0 && bits n 21 6 == 0)
  | _ => none

/-- Major 0x2D. -/
def decodeMajor2D (fm : Form) (n : Nat) : Option (Instr × Bool) :=
  match bits n 27 5 with
  | 0 | 1 => some (.cpyGo fm (fld n 9 6) (fld n 15 6) (flag n 27), bits n 8 1 == 0 && bits n 21 6 == 0)
  | 2 => some (.cpyWait fm (fld n 15 6), bits n 8 7 == 0 && bits n 21 6 == 0)
  | 3 => some (.cpyWaitDrop fm (fld n 9 6) (fld n 15 6), bits n 8 1 == 0 && bits n 21 6 == 0)
  | 4 => some (.cpyPoll fm (fld n 9 6) (fld n 15 6), bits n 8 1 == 0 && bits n 21 6 == 0)
  | _ => none

/-- Major 0x2E. -/
def decodeMajor2E (fm : Form) (n : Nat) : Option (Instr × Bool) :=
  match bits n 27 5 with
  | 0 => some (.launch fm (fld n 9 6) (fld n 15 6), bits n 8 1 == 0 && bits n 21 6 == 0)
  | 1 => some (.launchTry fm (fld n 9 6) (fld n 15 6), bits n 8 1 == 0 && bits n 21 6 == 0)
  | _ => none

/-- Major 0x2F. -/
def decodeMajor2F (fm : Form) (n : Nat) : Option (Instr × Bool) :=
  match bits n 27 5 with
  | 0 => some (.tdep fm (fld n 9 6) (fld n 15 6) (fld n 21 6), bits n 8 1 == 0)
  | 1 => some (.twait fm (fld n 9 6) (fld n 15 6), bits n 8 1 == 0 && bits n 21 6 == 0)
  | 2 => some (.texit fm (fld n 15 6), bits n 8 7 == 0 && bits n 21 6 == 0)
  | 3 => some (.texitSv fm (fld n 9 6) (fld n 15 6) (fld n 21 6), bits n 8 1 == 0)
  | _ => none

/-- Major 0x30. -/
def decodeMajor30 (fm : Form) (n : Nat) : Option (Instr × Bool) :=
  match bits n 27 5 with
  | 0 => some (.dsend fm (fld n 9 4) (fld n 15 6) (fld n 21 6), bits n 8 1 == 0 && bits n 13 2 == 0)
  | 1 => some (.drecv fm (fld n 9 4) (fld n 15 6) (fld n 21 6), bits n 8 1 == 0 && bits n 13 2 == 0)
  | 2 => some (.drecvTry fm (fld n 9 4) (fld n 15 6) (fld n 21 6), bits n 8 1 == 0 && bits n 13 2 == 0)
  | _ => none

/-- Major 0x31. -/
def decodeMajor31 (fm : Form) (n : Nat) : Option (Instr × Bool) :=
  match bits n 27 5 with
  | 0 => some (.snap fm (fld n 9 6) (fld n 15 6), bits n 8 1 == 0 && bits n 21 6 == 0)
  | 1 => some (.snapArm fm (fld n 9 6) (fld n 15 6), bits n 8 1 == 0 && bits n 21 6 == 0)
  | 2 => some (.snapDrop fm (fld n 9 6) (fld n 15 6), bits n 8 1 == 0 && bits n 21 6 == 0)
  | 3 => some (.snapPoll fm (fld n 9 6) (fld n 15 6), bits n 8 1 == 0 && bits n 21 6 == 0)
  | 4 => some (.rollback fm (fld n 9 6) (fld n 15 6) (fld n 21 6), bits n 8 1 == 0)
  | _ => none

/-- Major 0x32. -/
def decodeMajor32 (fm : Form) (n : Nat) : Option (Instr × Bool) :=
  match bits n 27 5 with
  | 0 => some (.tmark fm (fld n 15 6), bits n 8 7 == 0 && bits n 21 6 == 0)
  | 1 => some (.pcntRd fm (fld n 9 6) (fld n 21 6), bits n 8 1 == 0 && bits n 15 6 == 0)
  | 2 => some (.tstamp fm (fld n 9 6) (fld n 15 12), bits n 8 1 == 0)
  | _ => none

/-- Major 0x33. -/
def decodeMajor33 (fm : Form) (n : Nat) : Option (Instr × Bool) :=
  match bits n 27 5 with
  | 0 | 1 | 2 => some (.diagSt fm (fld n 9 6) (fld n 15 6) (fld n 21 6) (DiagSpace.ofCode (bits n 27 2)), bits n 8 1 == 0)
  | 8 => some (.sealLog fm (fld n 9 6) (fld n 15 6) (fld n 21 6), bits n 8 1 == 0)
  | _ => none

/-- Word 0 under the opcode map (R54): `none` for what raises cause 0x01. -/
def decodeWord0 (fm : Form) (n : Nat) : Option (Instr × Bool) :=
  match bits n 2 6 with
  | 1 => decodeMajor01 fm n
  | 2 => decodeMajor02 fm n
  | 3 => decodeMajor03 fm n
  | 4 => decodeMajor04 fm n
  | 5 => decodeMajor05 fm n
  | 6 => decodeMajor06 fm n
  | 7 => decodeMajor07 fm n
  | 8 => decodeMajor08 fm n
  | 9 => decodeMajor09 fm n
  | 10 => decodeMajor0A fm n
  | 11 => decodeMajor0B fm n
  | 12 => decodeMajor0C fm n
  | 13 => decodeMajor0D fm n
  | 14 => decodeMajor0E fm n
  | 15 => decodeMajor0F fm n
  | 16 => decodeMajor10 fm n
  | 17 => decodeMajor11 fm n
  | 18 => decodeMajor12 fm n
  | 19 => decodeMajor13 fm n
  | 20 => decodeMajor14 fm n
  | 21 => decodeMajor15 fm n
  | 22 => decodeMajor16 fm n
  | 23 => decodeMajor17 fm n
  | 24 => decodeMajor18 fm n
  | 28 => decodeMajor1C fm n
  | 29 => decodeMajor1D fm n
  | 30 => decodeMajor1E fm n
  | 31 => decodeMajor1F fm n
  | 32 => decodeMajor20 fm n
  | 33 => decodeMajor21 fm n
  | 34 => decodeMajor22 fm n
  | 35 => decodeMajor23 fm n
  | 36 => decodeMajor24 fm n
  | 37 => decodeMajor25 fm n
  | 38 => decodeMajor26 fm n
  | 39 => decodeMajor27 fm n
  | 40 => decodeMajor28 fm n
  | 41 => decodeMajor29 fm n
  | 42 => decodeMajor2A fm n
  | 43 => decodeMajor2B fm n
  | 44 => decodeMajor2C fm n
  | 45 => decodeMajor2D fm n
  | 46 => decodeMajor2E fm n
  | 47 => decodeMajor2F fm n
  | 48 => decodeMajor30 fm n
  | 49 => decodeMajor31 fm n
  | 50 => decodeMajor32 fm n
  | 51 => decodeMajor33 fm n
  | _ => none

/-- Decoding of one instruction from its words (R55 item 2): cause 0x01 before cause 0x02. -/
def decodeWords (w0 w1 w2 w3 w4 : Nat) : Except DecodeErr Instr :=
  let fm := readForm (bits w0 0 2) w1 w2 w3 w4
  match decodeWord0 fm w0 with
  | none => .error .illegal
  | some (i, spare) =>
    if !(listed i && literalOk i) then .error .illegal
    else if !(spare && (decide (bits w0 0 2 < 2) || bits w2 24 8 == 0) && fieldsOk i) then .error .reserved
    else .ok i

/-- The number that little-endian bytes stand for. -/
def leNat : List Byte → Nat
  | [] => 0
  | b :: bs => b.toNat + 256 * leNat bs

/-- Decoding from bytes, word 0 at the lowest address and each word little-endian (R39): the instruction and its length.
Missing bytes read as zero. -/
def decodeBytes (bs : List Byte) : Except DecodeErr Instr :=
  let w := fun k => leNat ((bs.drop (4 * k)).take 4)
  decodeWords (w 0) (w 1) (w 2) (w 3) (w 4)

/-! ## Encoding -/

/-- Word 0. -/
def encodeWord0 : Instr → Nat
  | .add fm d a b => fm.code + 0x4 + d.toNat * 0x200 + a.toNat * 0x8000 + b.toNat * 0x200000
  | .sub fm d a b => fm.code + 0x8000004 + d.toNat * 0x200 + a.toNat * 0x8000 + b.toNat * 0x200000
  | .mul fm d a b => fm.code + 0x10000004 + d.toNat * 0x200 + a.toNat * 0x8000 + b.toNat * 0x200000
  | .mulh fm d a b => fm.code + 0x18000004 + d.toNat * 0x200 + a.toNat * 0x8000 + b.toNat * 0x200000
  | .mulhN fm d a b => fm.code + 0x20000004 + d.toNat * 0x200 + a.toNat * 0x8000 + b.toNat * 0x200000
  | .div fm d a b => fm.code + 0x28000004 + d.toNat * 0x200 + a.toNat * 0x8000 + b.toNat * 0x200000
  | .divN fm d a b => fm.code + 0x30000004 + d.toNat * 0x200 + a.toNat * 0x8000 + b.toNat * 0x200000
  | .rem fm d a b => fm.code + 0x38000004 + d.toNat * 0x200 + a.toNat * 0x8000 + b.toNat * 0x200000
  | .remN fm d a b => fm.code + 0x40000004 + d.toNat * 0x200 + a.toNat * 0x8000 + b.toNat * 0x200000
  | .and fm d a b => fm.code + 0x48000004 + d.toNat * 0x200 + a.toNat * 0x8000 + b.toNat * 0x200000
  | .or fm d a b => fm.code + 0x50000004 + d.toNat * 0x200 + a.toNat * 0x8000 + b.toNat * 0x200000
  | .xor fm d a b => fm.code + 0x58000004 + d.toNat * 0x200 + a.toNat * 0x8000 + b.toNat * 0x200000
  | .andn fm d a b => fm.code + 0x60000004 + d.toNat * 0x200 + a.toNat * 0x8000 + b.toNat * 0x200000
  | .shl fm d a b => fm.code + 0x68000004 + d.toNat * 0x200 + a.toNat * 0x8000 + b.toNat * 0x200000
  | .shr fm d a b => fm.code + 0x70000004 + d.toNat * 0x200 + a.toNat * 0x8000 + b.toNat * 0x200000
  | .sar fm d a b => fm.code + 0x78000004 + d.toNat * 0x200 + a.toNat * 0x8000 + b.toNat * 0x200000
  | .rol fm d a b => fm.code + 0x80000004 + d.toNat * 0x200 + a.toNat * 0x8000 + b.toNat * 0x200000
  | .addImm fm d i => fm.code + 0x8 + d.toNat * 0x200 + i.toNat * 0x100000
  | .li fm d i => fm.code + 0x8008 + d.toNat * 0x200 + i.toNat * 0x100000
  | .mov fm d s => fm.code + 0x10008 + d.toNat * 0x200 + s.toNat * 0x100000
  | .andImm fm d i => fm.code + 0x18008 + d.toNat * 0x200 + i.toNat * 0x100000
  | .orImm fm d i => fm.code + 0x20008 + d.toNat * 0x200 + i.toNat * 0x100000
  | .xorImm fm d i => fm.code + 0x28008 + d.toNat * 0x200 + i.toNat * 0x100000
  | .shlImm fm d i => fm.code + 0x30008 + d.toNat * 0x200 + i.toNat * 0x100000
  | .shrImm fm d i => fm.code + 0x38008 + d.toNat * 0x200 + i.toNat * 0x100000
  | .sarImm fm d i => fm.code + 0x40008 + d.toNat * 0x200 + i.toNat * 0x100000
  | .rolImm fm d i => fm.code + 0x48008 + d.toNat * 0x200 + i.toNat * 0x100000
  | .mulImm fm d i => fm.code + 0x50008 + d.toNat * 0x200 + i.toNat * 0x100000
  | .clz fm d a => fm.code + 0x1C + d.toNat * 0x200 + a.toNat * 0x8000
  | .ctz fm d a => fm.code + 0x800001C + d.toNat * 0x200 + a.toNat * 0x8000
  | .popc fm d a => fm.code + 0x1000001C + d.toNat * 0x200 + a.toNat * 0x8000
  | .bext fm d a b => fm.code + 0x1800001C + d.toNat * 0x200 + a.toNat * 0x8000 + b.toNat * 0x200000
  | .bins fm d a b => fm.code + 0x2000001C + d.toNat * 0x200 + a.toNat * 0x8000 + b.toNat * 0x200000
  | .sel fm d a b => fm.code + 0x2800001C + d.toNat * 0x200 + a.toNat * 0x8000 + b.toNat * 0x200000
  | .min fm d a b => fm.code + 0x3000001C + d.toNat * 0x200 + a.toNat * 0x8000 + b.toNat * 0x200000
  | .max fm d a b => fm.code + 0x3800001C + d.toNat * 0x200 + a.toNat * 0x8000 + b.toNat * 0x200000
  | .minN fm d a b => fm.code + 0x4000001C + d.toNat * 0x200 + a.toNat * 0x8000 + b.toNat * 0x200000
  | .maxN fm d a b => fm.code + 0x4800001C + d.toNat * 0x200 + a.toNat * 0x8000 + b.toNat * 0x200000
  | .bEq fm a b p => fm.code + 0xC + a.toNat * 0x200 + b.toNat * 0x8000 + p.toNat * 0x1000000
  | .bNe fm a b p => fm.code + 0x20000C + a.toNat * 0x200 + b.toNat * 0x8000 + p.toNat * 0x1000000
  | .bLt fm a b p => fm.code + 0x40000C + a.toNat * 0x200 + b.toNat * 0x8000 + p.toNat * 0x1000000
  | .bGe fm a b p => fm.code + 0x60000C + a.toNat * 0x200 + b.toNat * 0x8000 + p.toNat * 0x1000000
  | .bLtn fm a b p => fm.code + 0x80000C + a.toNat * 0x200 + b.toNat * 0x8000 + p.toNat * 0x1000000
  | .bGen fm a b p => fm.code + 0xA0000C + a.toNat * 0x200 + b.toNat * 0x8000 + p.toNat * 0x1000000
  | .jmp fm p => fm.code + 0x10 + p.toNat * 0x8000
  | .call fm d p => fm.code + 0x10 + d.toNat * 0x200 + p.toNat * 0x8000
  | .jmpReg fm q => fm.code + 0x7E10 + q.toNat * 0x8000
  | .callReg fm q s => fm.code + 0x8007E10 + q.toNat * 0x8000 + s.toNat * 0x200000
  | .ret fm q => fm.code + 0x10007E10 + q.toNat * 0x8000
  | .setvl fm d a w => fm.code + 0x14 + d.toNat * 0x200 + a.toNat * 0x8000 + w.toNat * 0x8000000
  | .vjoin fm two => fm.code + 0x20000014 + two.toNat * 0x8000000
  | .vsplit fm four => fm.code + 0x30000014 + four.toNat * 0x8000000
  | .mfs fm d sys => fm.code + 0x18 + d.toNat * 0x200 + sys.toNat * 0x8000
  | .mts fm a sys => fm.code + 0x8000018 + a.toNat * 0x200 + sys.toNat * 0x8000
  | .trap fm n => fm.code + 0x10000018 + n.toNat * 0x8000
  | .eret fm => fm.code + 0x18000018
  | .yield fm => fm.code + 0x20000018
  | .wfe fm => fm.code + 0x28000018
  | .lds fm d b i w t => fm.code + 0x20 + d.toNat * 0x200 + b.toNat * 0x8000 + i.toNat * 0x200000 + w.toNat * 0x8000000 + t.toNat * 0x40000000
  | .ldD fm d b i t => fm.code + 0x18000020 + d.toNat * 0x200 + b.toNat * 0x8000 + i.toNat * 0x200000 + t.toNat * 0x40000000
  | .ldz fm d b i w t => fm.code + 0x20000020 + d.toNat * 0x200 + b.toNat * 0x8000 + i.toNat * 0x200000 + w.toNat * 0x8000000 + t.toNat * 0x40000000
  | .st fm v b i w t => fm.code + 0x24 + v.toNat * 0x200 + b.toNat * 0x8000 + i.toNat * 0x200000 + w.toNat * 0x8000000 + t.toNat * 0x40000000
  | .ldacq fm d b i w c => fm.code + 0x28 + d.toNat * 0x200 + b.toNat * 0x8000 + i.toNat * 0x200000 + w.toNat * 0x8000000 + c.code * 0x20000000
  | .strel fm v b i w c => fm.code + 0x10000028 + v.toNat * 0x200 + b.toNat * 0x8000 + i.toNat * 0x200000 + w.toNat * 0x8000000 + c.code * 0x20000000
  | .fenceSv fm => fm.code + 0x2C
  | .fenceVs fm => fm.code + 0x800002C
  | .fence fm c => fm.code + 0x4000002C + c.code * 0x8000000
  | .pref fm b i l => fm.code + 0x8000002C + b.toNat * 0x8000 + i.toNat * 0x200000 + l.toNat * 0x8000000
  | .tlbinvVa fm a s => fm.code + 0xC000002C + a.toNat * 0x8000 + s.toNat * 0x200000
  | .tlbinvAsn fm s => fm.code + 0xC800002C + s.toNat * 0x200000
  | .tlbinvAll fm => fm.code + 0xD000002C
  | .vld fm v b w t k => fm.code + 0x30 + v.toNat * 0x200 + b.toNat * 0x4000 + w.toNat * 0x4000000 + t.toNat * 0x20000000 + k.toNat * 0x100
  | .vlds fm v b c w t k => fm.code + 0x10000030 + v.toNat * 0x200 + b.toNat * 0x4000 + c.toNat * 0x100000 + w.toNat * 0x4000000 + t.toNat * 0x20000000 + k.toNat * 0x100
  | .vldx fm v b c w s t i k => fm.code + 0x34 + v.toNat * 0x200 + b.toNat * 0x4000 + c.toNat * 0x100000 + w.toNat * 0x4000000 + s.toNat * 0x10000000 + t.toNat * 0x20000000 + i.toNat * 0x40000000 + k.toNat * 0x100
  | .vst fm v b w t k => fm.code + 0x38 + v.toNat * 0x200 + b.toNat * 0x4000 + w.toNat * 0x4000000 + t.toNat * 0x20000000 + k.toNat * 0x100
  | .vsts fm v b c w t k => fm.code + 0x10000038 + v.toNat * 0x200 + b.toNat * 0x4000 + c.toNat * 0x100000 + w.toNat * 0x4000000 + t.toNat * 0x20000000 + k.toNat * 0x100
  | .vstu fm v b c t k => fm.code + 0x40000038 + v.toNat * 0x200 + b.toNat * 0x4000 + c.toNat * 0x100000 + t.toNat * 0x20000000 + k.toNat * 0x100
  | .vstx fm v b c w s t i o k => fm.code + 0x3C + v.toNat * 0x200 + b.toNat * 0x4000 + c.toNat * 0x100000 + w.toNat * 0x4000000 + s.toNat * 0x10000000 + t.toNat * 0x20000000 + i.toNat * 0x40000000 + o.toNat * 0x80000000 + k.toNat * 0x100
  | .vadd fm d a b f k => fm.code + 0x40 + d.toNat * 0x200 + a.toNat * 0x4000 + b.toNat * 0x80000 + f.toNat * 0x1000000 + k.toNat * 0x100
  | .vsub fm d a b f k => fm.code + 0x8000040 + d.toNat * 0x200 + a.toNat * 0x4000 + b.toNat * 0x80000 + f.toNat * 0x1000000 + k.toNat * 0x100
  | .vmul fm d a b f k => fm.code + 0x10000040 + d.toNat * 0x200 + a.toNat * 0x4000 + b.toNat * 0x80000 + f.toNat * 0x1000000 + k.toNat * 0x100
  | .vdiv fm d a b f k => fm.code + 0x18000040 + d.toNat * 0x200 + a.toNat * 0x4000 + b.toNat * 0x80000 + f.toNat * 0x1000000 + k.toNat * 0x100
  | .vmin fm d a b f k => fm.code + 0x20000040 + d.toNat * 0x200 + a.toNat * 0x4000 + b.toNat * 0x80000 + f.toNat * 0x1000000 + k.toNat * 0x100
  | .vmax fm d a b f k => fm.code + 0x28000040 + d.toNat * 0x200 + a.toNat * 0x4000 + b.toNat * 0x80000 + f.toNat * 0x1000000 + k.toNat * 0x100
  | .vfma fm d a b f k => fm.code + 0x44 + d.toNat * 0x200 + a.toNat * 0x4000 + b.toNat * 0x80000 + f.toNat * 0x1000000 + k.toNat * 0x100
  | .vfms fm d a b f k => fm.code + 0x8000044 + d.toNat * 0x200 + a.toNat * 0x4000 + b.toNat * 0x80000 + f.toNat * 0x1000000 + k.toNat * 0x100
  | .vsqrt fm d a f k => fm.code + 0x40000044 + d.toNat * 0x200 + a.toNat * 0x4000 + f.toNat * 0x1000000 + k.toNat * 0x100
  | .vrsqrt fm d a f k => fm.code + 0x48000044 + d.toNat * 0x200 + a.toNat * 0x4000 + f.toNat * 0x1000000 + k.toNat * 0x100
  | .vabs fm d a f k => fm.code + 0x50000044 + d.toNat * 0x200 + a.toNat * 0x4000 + f.toNat * 0x1000000 + k.toNat * 0x100
  | .vneg fm d a f k => fm.code + 0x58000044 + d.toNat * 0x200 + a.toNat * 0x4000 + f.toNat * 0x1000000 + k.toNat * 0x100
  | .viadd fm d a b f k => fm.code + 0x48 + d.toNat * 0x200 + a.toNat * 0x4000 + b.toNat * 0x80000 + f.toNat * 0x1000000 + k.toNat * 0x100
  | .visub fm d a b f k => fm.code + 0x8000048 + d.toNat * 0x200 + a.toNat * 0x4000 + b.toNat * 0x80000 + f.toNat * 0x1000000 + k.toNat * 0x100
  | .vimul fm d a b f k => fm.code + 0x10000048 + d.toNat * 0x200 + a.toNat * 0x4000 + b.toNat * 0x80000 + f.toNat * 0x1000000 + k.toNat * 0x100
  | .vimulh fm d a b f k => fm.code + 0x18000048 + d.toNat * 0x200 + a.toNat * 0x4000 + b.toNat * 0x80000 + f.toNat * 0x1000000 + k.toNat * 0x100
  | .vimin fm d a b f k => fm.code + 0x20000048 + d.toNat * 0x200 + a.toNat * 0x4000 + b.toNat * 0x80000 + f.toNat * 0x1000000 + k.toNat * 0x100
  | .vimax fm d a b f k => fm.code + 0x28000048 + d.toNat * 0x200 + a.toNat * 0x4000 + b.toNat * 0x80000 + f.toNat * 0x1000000 + k.toNat * 0x100
  | .vclz fm d a f k => fm.code + 0x40000048 + d.toNat * 0x200 + a.toNat * 0x4000 + f.toNat * 0x1000000 + k.toNat * 0x100
  | .vpopc fm d a f k => fm.code + 0x48000048 + d.toNat * 0x200 + a.toNat * 0x4000 + f.toNat * 0x1000000 + k.toNat * 0x100
  | .vand fm d a b f k => fm.code + 0x4C + d.toNat * 0x200 + a.toNat * 0x4000 + b.toNat * 0x80000 + f.toNat * 0x1000000 + k.toNat * 0x100
  | .vor fm d a b f k => fm.code + 0x800004C + d.toNat * 0x200 + a.toNat * 0x4000 + b.toNat * 0x80000 + f.toNat * 0x1000000 + k.toNat * 0x100
  | .vxor fm d a b f k => fm.code + 0x1000004C + d.toNat * 0x200 + a.toNat * 0x4000 + b.toNat * 0x80000 + f.toNat * 0x1000000 + k.toNat * 0x100
  | .vshl fm d a b f k => fm.code + 0x2000004C + d.toNat * 0x200 + a.toNat * 0x4000 + b.toNat * 0x80000 + f.toNat * 0x1000000 + k.toNat * 0x100
  | .vshr fm d a b f k => fm.code + 0x2800004C + d.toNat * 0x200 + a.toNat * 0x4000 + b.toNat * 0x80000 + f.toNat * 0x1000000 + k.toNat * 0x100
  | .vsar fm d a b f k => fm.code + 0x3000004C + d.toNat * 0x200 + a.toNat * 0x4000 + b.toNat * 0x80000 + f.toNat * 0x1000000 + k.toNat * 0x100
  | .vfshL fm d a b f k => fm.code + 0x4000004C + d.toNat * 0x200 + a.toNat * 0x4000 + b.toNat * 0x80000 + f.toNat * 0x1000000 + k.toNat * 0x100
  | .vfshR fm d a b f k => fm.code + 0x4800004C + d.toNat * 0x200 + a.toNat * 0x4000 + b.toNat * 0x80000 + f.toNat * 0x1000000 + k.toNat * 0x100
  | .vcmp fm m a b f c k => fm.code + 0x50 + m.toNat * 0x200 + a.toNat * 0x4000 + b.toNat * 0x80000 + f.toNat * 0x1000000 + c.code * 0x8000000 + k.toNat * 0x100
  | .vred fm d a f o k => fm.code + 0x54 + d.toNat * 0x200 + a.toNat * 0x4000 + f.toNat * 0x1000000 + o.code * 0x8000000 + k.toNat * 0x100
  | .vredAddxProduct fm d a b f k => fm.code + 0x40000054 + d.toNat * 0x200 + a.toNat * 0x4000 + b.toNat * 0x80000 + f.toNat * 0x1000000 + k.toNat * 0x100
  | .vgred fm d a n f o k => fm.code + 0x58 + d.toNat * 0x200 + a.toNat * 0x4000 + n.toNat * 0x80000 + f.toNat * 0x1000000 + o.code * 0x8000000 + k.toNat * 0x100
  | .vscan fm d a f o k => fm.code + 0x5C + d.toNat * 0x200 + a.toNat * 0x4000 + f.toNat * 0x1000000 + o.code * 0x8000000 + k.toNat * 0x100
  | .vcvt fm d a b f k => fm.code + 0x60 + d.toNat * 0x200 + a.toNat * 0x4000 + b.toNat * 0x80000 + f.toNat * 0x1000000 + k.toNat * 0x100
  | .mand fm d a b k => fm.code + 0x70 + d.toNat * 0x200 + a.toNat * 0x8000 + b.toNat * 0x200000 + k.toNat * 0x100
  | .mor fm d a b k => fm.code + 0x8000070 + d.toNat * 0x200 + a.toNat * 0x8000 + b.toNat * 0x200000 + k.toNat * 0x100
  | .mxor fm d a b k => fm.code + 0x10000070 + d.toNat * 0x200 + a.toNat * 0x8000 + b.toNat * 0x200000 + k.toNat * 0x100
  | .mandn fm d a b k => fm.code + 0x18000070 + d.toNat * 0x200 + a.toNat * 0x8000 + b.toNat * 0x200000 + k.toNat * 0x100
  | .mnot fm d a k => fm.code + 0x20000070 + d.toNat * 0x200 + a.toNat * 0x8000 + k.toNat * 0x100
  | .mpopc fm d a k => fm.code + 0x74 + d.toNat * 0x200 + a.toNat * 0x8000 + k.toNat * 0x100
  | .mfirst fm d a k => fm.code + 0x8000074 + d.toNat * 0x200 + a.toNat * 0x8000 + k.toNat * 0x100
  | .vslideUp fm d a n k => fm.code + 0x78 + d.toNat * 0x200 + a.toNat * 0x8000 + n.toNat * 0x200000 + k.toNat * 0x100
  | .vslideDown fm d a n k => fm.code + 0x8000078 + d.toNat * 0x200 + a.toNat * 0x8000 + n.toNat * 0x200000 + k.toNat * 0x100
  | .vbcast fm d s k => fm.code + 0x10000078 + d.toNat * 0x200 + s.toNat * 0x8000 + k.toNat * 0x100
  | .vbcastI fm d s t k => fm.code + 0x18000078 + d.toNat * 0x200 + s.toNat * 0x8000 + t.toNat * 0x200000 + k.toNat * 0x100
  | .vperm fm d a i k => fm.code + 0x7C + d.toNat * 0x200 + a.toNat * 0x4000 + i.toNat * 0x80000 + k.toNat * 0x100
  | .vcompress fm d a m k => fm.code + 0x800007C + d.toNat * 0x200 + a.toNat * 0x4000 + m.toNat * 0x80000 + k.toNat * 0x100
  | .vexpand fm d a m k => fm.code + 0x1000007C + d.toNat * 0x200 + a.toNat * 0x4000 + m.toNat * 0x80000 + k.toNat * 0x100
  | .ldsSp fm d b i w => fm.code + 0x80 + d.toNat * 0x200 + b.toNat * 0x8000 + i.toNat * 0x200000 + w.toNat * 0x8000000
  | .ldDSp fm d b i => fm.code + 0x18000080 + d.toNat * 0x200 + b.toNat * 0x8000 + i.toNat * 0x200000
  | .ldzSp fm d b i w => fm.code + 0x20000080 + d.toNat * 0x200 + b.toNat * 0x8000 + i.toNat * 0x200000 + w.toNat * 0x8000000
  | .stSp fm v b i w => fm.code + 0x40000080 + v.toNat * 0x200 + b.toNat * 0x8000 + i.toNat * 0x200000 + w.toNat * 0x8000000
  | .bstat fm d sel => fm.code + 0x78000080 + d.toNat * 0x200 + sel.toNat * 0x200000
  | .vldSp fm v b w => fm.code + 0x80000080 + v.toNat * 0x200 + b.toNat * 0x4000 + w.toNat * 0x4000000
  | .vldsSp fm v b c w => fm.code + 0x90000080 + v.toNat * 0x200 + b.toNat * 0x4000 + c.toNat * 0x100000 + w.toNat * 0x4000000
  | .vldxSp fm v b c w => fm.code + 0xA0000080 + v.toNat * 0x200 + b.toNat * 0x4000 + c.toNat * 0x100000 + w.toNat * 0x4000000
  | .vldpSp fm v b c => fm.code + 0xBC000080 + v.toNat * 0x200 + b.toNat * 0x4000 + c.toNat * 0x100000
  | .vstSp fm v b w => fm.code + 0xC0000080 + v.toNat * 0x200 + b.toNat * 0x4000 + w.toNat * 0x4000000
  | .vstsSp fm v b c w => fm.code + 0xD0000080 + v.toNat * 0x200 + b.toNat * 0x4000 + c.toNat * 0x100000 + w.toNat * 0x4000000
  | .vstxSp fm v b c w => fm.code + 0xE0000080 + v.toNat * 0x200 + b.toNat * 0x4000 + c.toNat * 0x100000 + w.toNat * 0x4000000
  | .vstpSp fm v b c => fm.code + 0xFC000080 + v.toNat * 0x200 + b.toNat * 0x4000 + c.toNat * 0x100000
  | .amo fm xd b s o dw sp => fm.code + 0x84 + xd.toNat * 0x200 + b.toNat * 0x8000 + s.toNat * 0x200000 + o.code * 0x8000000 + dw.toNat * 0x40000000 + sp.toNat * 0x80000000
  | .cas fm xd b s dw sp => fm.code + 0x38000084 + xd.toNat * 0x200 + b.toNat * 0x8000 + s.toNat * 0x200000 + dw.toNat * 0x40000000 + sp.toNat * 0x80000000
  | .vamo fm v b c dw sp o => fm.code + 0x88 + v.toNat * 0x200 + b.toNat * 0x4000 + c.toNat * 0x100000 + dw.toNat * 0x4000000 + sp.toNat * 0x8000000 + o.code * 0x10000000
  | .vwait fm v b i dw sp c => fm.code + 0x80000088 + v.toNat * 0x200 + b.toNat * 0x4000 + i.toNat * 0x100000 + dw.toNat * 0x4000000 + sp.toNat * 0x8000000 + c.code * 0x10000000
  | .barArrive fm d b c => fm.code + 0x8C + d.toNat * 0x200 + b.toNat * 0x8000 + c.toNat * 0x200000
  | .barWait fm b t => fm.code + 0x800008C + b.toNat * 0x8000 + t.toNat * 0x200000
  | .barSync fm d b c => fm.code + 0x1000008C + d.toNat * 0x200 + b.toNat * 0x8000 + c.toNat * 0x200000
  | .gbar fm => fm.code + 0x1800008C
  | .barRd fm d b sel => fm.code + 0x2000008C + d.toNat * 0x200 + b.toNat * 0x8000 + sel.toNat * 0x200000
  | .sbind fm q b v t => fm.code + 0x90 + q.toNat * 0x200 + b.toNat * 0x8000 + v.toNat * 0x200000 + t.toNat * 0x40000000
  | .sbindF fm q b t => fm.code + 0x8000090 + q.toNat * 0x200 + b.toNat * 0x8000 + t.toNat * 0x40000000
  | .sstop fm q => fm.code + 0x10000090 + q.toNat * 0x200
  | .ssave fm q b t => fm.code + 0x18000090 + q.toNat * 0x200 + b.toNat * 0x8000 + t.toNat * 0x40000000
  | .srest fm q b t => fm.code + 0x20000090 + q.toNat * 0x200 + b.toNat * 0x8000 + t.toNat * 0x40000000
  | .sopPop fm d q => fm.code + 0x94 + d.toNat * 0x200 + q.toNat * 0x8000
  | .sopSkip fm q n => fm.code + 0x8000094 + q.toNat * 0x8000 + n.toNat * 0x200000
  | .sopPos fm d q => fm.code + 0x10000094 + d.toNat * 0x200 + q.toNat * 0x8000
  | .sopRem fm d q => fm.code + 0x18000094 + d.toNat * 0x200 + q.toNat * 0x8000
  | .fld fm f b s t k => fm.code + 0x98 + f.toNat * 0x200 + b.toNat * 0x8000 + s.toNat * 0x200000 + t.toNat * 0x8000000 + k.toNat * 0x100
  | .fldQ fm f q s k => fm.code + 0x10000098 + f.toNat * 0x200 + q.toNat * 0x8000 + s.toNat * 0x200000 + k.toNat * 0x100
  | .fst fm f b t k => fm.code + 0x20000098 + f.toNat * 0x200 + b.toNat * 0x8000 + t.toNat * 0x8000000 + k.toNat * 0x100
  | .fcount fm d f k => fm.code + 0x40000098 + d.toNat * 0x200 + f.toNat * 0x8000 + k.toNat * 0x100
  | .fclear fm f k => fm.code + 0x48000098 + f.toNat * 0x200 + k.toNat * 0x100
  | .fisect fm d a b f o k => fm.code + 0x9C + d.toNat * 0x200 + a.toNat * 0x4000 + b.toNat * 0x80000 + f.toNat * 0x1000000 + o.code * 0x8000000 + k.toNat * 0x100
  | .funion fm d a b f o k => fm.code + 0x4000009C + d.toNat * 0x200 + a.toNat * 0x4000 + b.toNat * 0x80000 + f.toNat * 0x1000000 + o.code * 0x8000000 + k.toNat * 0x100
  | .fmerge fm d a b k => fm.code + 0x8000009C + d.toNat * 0x200 + a.toNat * 0x8000 + b.toNat * 0x200000 + k.toNat * 0x100
  | .fsort fm d a f o k => fm.code + 0xA0 + d.toNat * 0x200 + a.toNat * 0x4000 + f.toNat * 0x1000000 + o.code * 0x8000000 + k.toNat * 0x100
  | .fcompact fm d a f k => fm.code + 0x200000A0 + d.toNat * 0x200 + a.toNat * 0x4000 + f.toNat * 0x1000000 + k.toNat * 0x100
  | .fexpandV fm d a f k => fm.code + 0x400000A0 + d.toNat * 0x200 + a.toNat * 0x4000 + f.toNat * 0x1000000 + k.toNat * 0x100
  | .fexpandD fm d a f k => fm.code + 0x480000A0 + d.toNat * 0x200 + a.toNat * 0x4000 + f.toNat * 0x1000000 + k.toNat * 0x100
  | .fexpandC fm d f k => fm.code + 0x500000A0 + d.toNat * 0x200 + f.toNat * 0x8000 + k.toNat * 0x100
  | .fpack fm d c b f k => fm.code + 0x600000A0 + d.toNat * 0x200 + c.toNat * 0x4000 + b.toNat * 0x80000 + f.toNat * 0x1000000 + k.toNat * 0x100
  | .fpackD fm d a f k => fm.code + 0x680000A0 + d.toNat * 0x200 + a.toNat * 0x4000 + f.toNat * 0x1000000 + k.toNat * 0x100
  | .fwalk fm d s b v k => fm.code + 0xA4 + d.toNat * 0x200 + s.toNat * 0x8000 + b.toNat * 0x200000 + v.toNat * 0x8000000 + k.toNat * 0x100
  | .mldb fm g s f => fm.code + 0xA8 + g.toNat * 0x20000 + s.toNat * 0x80000 + f.toNat * 0x1000000
  | .mma fm r a f => fm.code + 0x80000A8 + r.toNat * 0x200 + a.toNat * 0x4000 + f.toNat * 0x1000000
  | .mmaS24 fm r a m f => fm.code + 0x100000A8 + r.toNat * 0x200 + a.toNat * 0x4000 + m.toNat * 0x80000 + f.toNat * 0x1000000
  | .mmaX fm r a i f => fm.code + 0x180000A8 + r.toNat * 0x200 + a.toNat * 0x4000 + i.toNat * 0x80000 + f.toNat * 0x1000000
  | .mseal fm d => fm.code + 0xAC + d.toNat * 0x200
  | .mpeek fm d a r => fm.code + 0x80000AC + d.toNat * 0x200 + a.toNat * 0x8000 + r.toNat * 0x200000
  | .mstat fm d a r => fm.code + 0x100000AC + d.toNat * 0x200 + a.toNat * 0x8000 + r.toNat * 0x200000
  | .epiCfg fm a f s => fm.code + 0xB0 + a.toNat * 0x200 + f.toNat * 0x8000 + s.toNat * 0x200000
  | .epiGo fm b => fm.code + 0x80000B0 + b.toNat * 0x8000
  | .epiGoLd fm b => fm.code + 0x100000B0 + b.toNat * 0x8000
  | .cpyGo fm d b t => fm.code + 0xB4 + d.toNat * 0x200 + b.toNat * 0x8000 + t.toNat * 0x8000000
  | .cpyWait fm t => fm.code + 0x100000B4 + t.toNat * 0x8000
  | .cpyWaitDrop fm d t => fm.code + 0x180000B4 + d.toNat * 0x200 + t.toNat * 0x8000
  | .cpyPoll fm d t => fm.code + 0x200000B4 + d.toNat * 0x200 + t.toNat * 0x8000
  | .launch fm d b => fm.code + 0xB8 + d.toNat * 0x200 + b.toNat * 0x8000
  | .launchTry fm d b => fm.code + 0x80000B8 + d.toNat * 0x200 + b.toNat * 0x8000
  | .tdep fm d s p => fm.code + 0xBC + d.toNat * 0x200 + s.toNat * 0x8000 + p.toNat * 0x200000
  | .twait fm d t => fm.code + 0x80000BC + d.toNat * 0x200 + t.toNat * 0x8000
  | .texit fm a => fm.code + 0x100000BC + a.toNat * 0x8000
  | .texitSv fm d a s => fm.code + 0x180000BC + d.toNat * 0x200 + a.toNat * 0x8000 + s.toNat * 0x200000
  | .dsend fm f v m => fm.code + 0xC0 + f.toNat * 0x200 + v.toNat * 0x8000 + m.toNat * 0x200000
  | .drecv fm f m d => fm.code + 0x80000C0 + f.toNat * 0x200 + m.toNat * 0x8000 + d.toNat * 0x200000
  | .drecvTry fm f m d => fm.code + 0x100000C0 + f.toNat * 0x200 + m.toNat * 0x8000 + d.toNat * 0x200000
  | .snap fm d j => fm.code + 0xC4 + d.toNat * 0x200 + j.toNat * 0x8000
  | .snapArm fm d b => fm.code + 0x80000C4 + d.toNat * 0x200 + b.toNat * 0x8000
  | .snapDrop fm d j => fm.code + 0x100000C4 + d.toNat * 0x200 + j.toNat * 0x8000
  | .snapPoll fm d j => fm.code + 0x180000C4 + d.toNat * 0x200 + j.toNat * 0x8000
  | .rollback fm d j n => fm.code + 0x200000C4 + d.toNat * 0x200 + j.toNat * 0x8000 + n.toNat * 0x200000
  | .tmark fm a => fm.code + 0xC8 + a.toNat * 0x8000
  | .pcntRd fm d n => fm.code + 0x80000C8 + d.toNat * 0x200 + n.toNat * 0x200000
  | .tstamp fm d sel => fm.code + 0x100000C8 + d.toNat * 0x200 + sel.toNat * 0x8000
  | .diagSt fm v b c space => fm.code + 0xCC + v.toNat * 0x200 + b.toNat * 0x8000 + c.toNat * 0x200000 + space.code * 0x8000000
  | .sealLog fm d b a => fm.code + 0x400000CC + d.toNat * 0x200 + b.toNat * 0x8000 + a.toNat * 0x200000
  | _ => 0

/-- Word 1 (R45). -/
def encodeWord1 (e : ExtFields) : Nat :=
  e.lt.toNat * 2 ^ 31 + e.ib.toNat * 2 ^ 30 + e.fdx.toNat * 2 ^ 24 + e.e5.toNat * 2 ^ 18 + e.ru.toNat * 2 ^ 15 +
    e.yld.toNat * 2 ^ 14 + e.pri.toNat * 2 ^ 12 + e.alc.toNat * 2 ^ 10 + e.cls.toNat * 2 ^ 8 + e.g2p.toNat * 2 ^ 7 +
    e.g2.toNat * 2 ^ 4 + e.g1p.toNat * 2 ^ 3 + e.g1.toNat

/-- The words of an instruction, in address order (R40); a row without a word has none. -/
def encode (i : Instr) : List Nat :=
  match formOf i with
  | none => []
  | some .base => [encodeWord0 i]
  | some (.baseLit l) => [encodeWord0 i, l.toNat % 2 ^ 32, l.toNat / 2 ^ 32]
  | some (.ext e) => [encodeWord0 i, encodeWord1 e, e.imm.toNat]
  | some (.extLit e l) => [encodeWord0 i, encodeWord1 e, e.imm.toNat, l.toNat % 2 ^ 32, l.toNat / 2 ^ 32]

/-- `n` little-endian bytes of a number. -/
def leBytes : Nat → Nat → List Byte
  | 0, _ => []
  | n + 1, x => BitVec.ofNat 8 x :: leBytes n (x / 256)

/-- The bytes of an instruction in memory. -/
def encodeBytes (i : Instr) : List Byte := (encode i).flatMap (leBytes 4)

/-- What the decoder reads from an instruction whose words, bit 0 of word 0 least significant, make up `w`: the words
laid out as the hardware stores them, and zeros above. -/
def decodeTableWord (nbits w : Nat) : Option Instr :=
  match decodeBytes (leBytes 20 (w % 2 ^ nbits)) with
  | .ok i => some i
  | .error _ => none

end Sys2Proof
end

