-- ==== Sys2Proof/Machine/Named.lean ====
section
/-! DEFINITION. The vector, fibre, mask and stream registers that an instruction names, as bits of `vlive` (R107, R117). Fields
that only the descriptor makes operands are not among them (R401). -/

namespace Sys2Proof.Machine

/-- Bits of `vdirty` and `vlive` for v, f, m and q registers (R107). -/
def vBit (r : BitVec 5) : Nat := r.toNat
def fBit (r : BitVec 4) : Nat := 32 + r.toNat
def mBit (r : BitVec 3) : Nat := 48 + r.toNat
def qBit (r : BitVec 3) : Nat := 56 + r.toNat

/-- An immediate stands in place of source b (R159). -/
def immForm (fm : Form) : Bool :=
  match fm with
  | .base => false
  | .baseLit _ | .extLit _ _ => true
  | .ext e => e.ib

/-- Source b, unless an immediate takes its place. -/
def bNamed (fm : Form) (b : BitVec 5) : List Nat := if immForm fm then [] else [vBit b]

/-- Mask registers named as guards; m0 is not checked (R117). -/
def guardNames (fm : Form) : List Nat :=
  match fm with
  | .base | .baseLit _ => []
  | .ext e | .extLit e _ => (if e.g1 = 0 then [] else [mBit e.g1]) ++ (if e.g2 = 0 then [] else [mBit e.g2])

/-- The registers of the operands, guards apart. -/
def operandBits : Instr → List Nat
  | .vld _ v _ _ _ _ | .vlds _ v _ _ _ _ _ | .vst _ v _ _ _ _ | .vsts _ v _ _ _ _ _ | .vstu _ v _ _ _ _ => [vBit v]
  | .vldx _ v _ c _ _ _ _ _ | .vstx _ v _ c _ _ _ _ _ _ => [vBit v, vBit c]
  | .vadd fm d a b _ _ | .vsub fm d a b _ _ | .vmul fm d a b _ _ | .vdiv fm d a b _ _ | .vmin fm d a b _ _
  | .vmax fm d a b _ _ | .vfma fm d a b _ _ | .vfms fm d a b _ _ | .viadd fm d a b _ _ | .visub fm d a b _ _
  | .vimul fm d a b _ _ | .vimulh fm d a b _ _ | .vimin fm d a b _ _ | .vimax fm d a b _ _ | .vand fm d a b _ _
  | .vor fm d a b _ _ | .vxor fm d a b _ _ | .vshl fm d a b _ _ | .vshr fm d a b _ _ | .vsar fm d a b _ _
  | .vfshL fm d a b _ _ | .vfshR fm d a b _ _ => [vBit d, vBit a] ++ bNamed fm b
  | .vcmp fm m a b _ _ _ => [mBit m, vBit a] ++ bNamed fm b
  | .vsqrt _ d a _ _ | .vrsqrt _ d a _ _ | .vabs _ d a _ _ | .vneg _ d a _ _ | .vclz _ d a _ _ | .vpopc _ d a _ _
  | .vred _ d a _ _ _ | .vgred _ d a _ _ _ _ | .vscan _ d a _ _ _ | .vcvt _ d a _ _ _ => [vBit d, vBit a]
  | .vredAddxProduct _ d a b _ _ => [vBit d, vBit a, vBit b]
  | .mand _ d a b _ | .mor _ d a b _ | .mxor _ d a b _ | .mandn _ d a b _ => [mBit d, mBit a, mBit b]
  | .mnot _ d a _ => [mBit d, mBit a]
  | .mpopc _ _ a _ | .mfirst _ _ a _ => [mBit a]
  | .vslideUp _ d a _ _ | .vslideDown _ d a _ _ => [vBit d, vBit a]
  | .vbcast _ d _ _ | .vbcastI _ d _ _ _ => [vBit d]
  | .vperm _ d a i _ => [vBit d, vBit a, vBit i]
  | .vcompress _ d a m _ | .vexpand _ d a m _ => [vBit d, vBit a, mBit m]
  | .vldSp _ v _ _ | .vldsSp _ v _ _ _ | .vldpSp _ v _ _ | .vstSp _ v _ _ | .vstsSp _ v _ _ _ | .vstpSp _ v _ _ => [vBit v]
  | .vldxSp _ v _ c _ | .vstxSp _ v _ c _ => [vBit v, vBit c]
  | .vamo _ v _ c _ _ _ => [vBit v, vBit c]
  | .vwait _ v _ i _ _ _ => [vBit v, vBit i]
  | .sbind _ q _ v _ => [vBit v, qBit q]
  | .sbindF _ q _ _ | .sstop _ q | .ssave _ q _ _ | .srest _ q _ _ | .sopSkip _ q _ | .sopPos _ _ q | .sopRem _ _ q => [qBit q]
  | .sopPop _ d q => [vBit d, qBit q]
  | .fld _ f _ _ _ _ | .fst _ f _ _ _ | .fcount _ _ f _ | .fclear _ f _ => [fBit f]
  | .fldQ _ f q _ _ => [fBit f, qBit q]
  | .fisect _ d a b _ _ _ | .funion _ d a b _ _ _ | .fmerge _ d a b _ => [fBit d, fBit a, fBit b]
  | .fsort _ d a _ _ _ | .fcompact _ d a _ _ => [fBit d, fBit a]
  | .fexpandV _ d a _ _ | .fexpandD _ d a _ _ => [vBit d, fBit a]
  | .fexpandC _ d f _ => [vBit d, fBit f]
  | .fpack _ d c b _ _ => [fBit d, vBit c, vBit b]
  | .fpackD _ d a _ _ => [fBit d, vBit a]
  | .fwalk _ d s _ _ _ => [fBit d, fBit s]
  | .mma _ _ a _ => [vBit a]
  | .mmaS24 _ _ a m _ => [vBit a, mBit m]
  | .mmaX _ _ a i _ => [vBit a, vBit i]
  | .mpeek _ d _ _ => [vBit d]
  | .dsend _ f _ _ | .drecv _ f _ _ | .drecvTry _ f _ _ => [fBit f]
  | _ => []

/-- Every register that the instruction names, guards among them. -/
def namedBits (i : Instr) : List Nat :=
  operandBits i ++ (match formOf i with | some fm => guardNames fm | none => [])

end Sys2Proof.Machine
end

