-- ==== Sys2Proof/Config.lean ====
section
/-! DEFINITION. What an implementation fixes and what the manual leaves open (R4): opaque constants with no body,
so that nothing proved about the machine can rest on their values; a queue has at least one place. -/

namespace Sys2Proof.Config

/-- The n-th open value of a run (log entry 5): undefined storage, latitudes of hardware, secrets of the device. -/
opaque freeNat : Nat → Nat

/-- The tag of a management command under a session key (R397): KMAC256 is a device secret's function. -/
opaque kmac : BitVec 256 → Nat → List Nat → BitVec 256

/-- The session key that an ML-KEM-1024 ciphertext decapsulates to under the device's key (R375, R397). -/
opaque sessionKey : List Byte → Option (BitVec 256)

/-- The device secret, which its SRAM function gives and no reset changes (R373). -/
opaque deviceSecret : BitVec 256

/-- The AES-256 key and the KMAC256 key that the device secret and a count of keys generated seed (R359, R373). -/
opaque sealKey : BitVec 256 → Nat → BitVec 512

/-- The seal engine's own key, for the tree over the counter lines (R361), as the device secret seeds it. -/
opaque treeKey : BitVec 256 → BitVec 256

/-- The SHAKE256 hash of the vendor's firmware root key, which the boot ROM holds (R373). -/
opaque rootKeyHash : BitVec 256

/-- ML-DSA-65 verification of a signature over a message under a public key (R373). -/
opaque verifies : List Byte → List Byte → List Byte → Bool

/-- ECC check bits of a ciphertext word or of a tag (R360): the code matrix is not architectural (R371). -/
opaque checkBits : Nat → Byte

/-- The ML-KEM-1024 public key of a device secret: 1,568 bytes (R375). -/
opaque kemByte : BitVec 256 → Nat → Byte

/-- Bytes of the ML-DSA-65 signature that the device attestation key, seeded by a device secret, makes over a message (R350, R373,
R375). -/
opaque signatureByte : BitVec 256 → List Byte → Nat → Byte

/-- The place of the bytes of an attestation report in MBOX (R375): the manual gives the report no layout. -/
opaque reportPlace : Nat → Nat

/-- What a poisoned byte of local storage reads as (R155, R366): data without a meaning, at a point of a run and an offset. -/
opaque poisonByte : Nat → Nat → Byte

/-- Places of the trace engine's queue of waiting records beyond the first (R389). -/
opaque traceQueueMore : Nat

/-- Places of the device's send queue for messages beyond the first (R337). -/
opaque sendQueueMore : Nat

/-- Depth of the trace engine's queue: it holds at least one record. -/
def traceQueueDepth : Nat := traceQueueMore + 1

/-- Depth of the send queue: it holds at least one message. -/
def sendQueueDepth : Nat := sendQueueMore + 1

end Sys2Proof.Config
end

