-- ==== Sys2Proof/Machine/State.lean ====
section
/-! DEFINITION. The state of the machine as plain data: every piece of state that the manual gives it, the queue of moves
to come (log entry 6) and the counter of open values (log entry 5). INVENTORY.md lists each with its rule. -/

namespace Sys2Proof.Machine

/-- Why the machine stops with no next state. -/
inductive Fault where
  /-- Raised by `step` when the head of the queue of moves names an instruction that has a word as an event of its own:
  no agent does that. Safe: no run of the hardware has such a move. -/
  | badTurn
  deriving DecidableEq, Repr

/-- Why an instruction has no meaning. -/
inductive Refusal where
  /-- Raised by an arm of `exec` that has no meaning yet. Safe: nothing is claimed of the instruction. -/
  | notModelled (mnemonic : String)
  deriving DecidableEq, Repr

/-! ## Storage -/

/-- An error in the stored check bits of one word, its syndrome, whether it is uncorrectable, and where it arose when that is not the
storage itself (LOC of R369; R364, R371). Global words go by byte address, local ones by word index, counter lines by region, tags by
sector. -/
structure EccErr where
  word : Nat
  synd : BitVec 8
  lost : Bool := false
  loc : Option Nat := none
  deriving DecidableEq, Repr

/-- Storage of one local space (a TCM or scratchpad allocation): size in bytes, contents with unlisted bytes zero, the poisoned
4-byte words, and words whose check bits were corrupted (R33, R184, R371). -/
structure Local where
  size : Nat := 0
  cells : List Host.Cell := []
  psn : List Nat := []
  ecc : List EccErr := []
  deriving DecidableEq, Repr

/-- The counter line of a 4 KiB region of HBM4, or the key tag of a region of the device-shared SRAM (R361, R363). -/
structure Region where
  idx : Nat
  kidx : Nat := 0
  maj : Nat := 0
  mins : List Nat := []
  deriving DecidableEq, Repr

/-- One record of the error log (R369). -/
structure LogRec where
  seq : Nat
  kind : Nat
  cause : Nat := 0
  loc : Nat := 0
  pa : Nat := 0
  va : Nat := 0
  asn : Nat := 0
  key : Nat := 0
  task : Nat := 0
  hart : DWord := BitVec.allOnes 64
  synd : Nat := 0
  ts : DWord := 0
  deriving DecidableEq, Repr

/-- A space of storage. -/
inductive Space where
  /-- device memory and the host-shared window, by physical address -/
  | glob
  /-- the TCM allocation of a gang -/
  | tcm (gang : Nat)
  /-- the save windows: core c at 131,072 c -/
  | win
  /-- the scratchpad allocation of a gang -/
  | sp (gang : Nat)
  /-- no allocation: reads zero, writes are discarded (R33, R183) -/
  | void
  deriving DecidableEq, Repr

/-- The two classes of access (R141). -/
inductive Cls where
  | scalar | vector
  deriving DecidableEq, Repr

/-- A write made and not yet performed (R122, R141, R150): bytes within 64 aligned bytes of a space. -/
structure PWrite where
  cls : Cls
  strip : Nat
  space : Space
  addr : Nat
  key : Nat
  va : DWord
  bytes : List Byte
  psn : Bool
  /-- the poison of its second word of local storage, where that has a tag of its own (R184, R234) -/
  hi : Option Bool := none
  /-- places of `bytes` that it leaves as they are: requests of a batch merged to one write of a word (R190) -/
  skip : List Nat := []
  deriving DecidableEq, Repr

/-- The poison of the word of local storage at `a` that a write leaves. -/
def PWrite.psnAt (w : PWrite) (a : Nat) : Bool :=
  match w.hi with
  | some q => if w.addr + 4 ≤ a then q else w.psn
  | none => w.psn

/-- A translation held by the translation caches (R131): the page of `asn` that covers `[va, va + size)` and its leaf. -/
structure TlbEntry where
  core : Nat
  asn : Nat
  va : Nat
  size : Nat
  leaf : DWord
  pte : Nat
  deriving DecidableEq, Repr

/-! ## Registers of a hart -/

/-- A vector register: bits and a poison tag for each byte (R17, R155). -/
structure VReg where
  bits : BitVec 16384 := 0
  psn : BitVec 2048 := 0
  deriving DecidableEq, Repr

/-- A pair of a fibre: coordinate, value container and a poison tag for each (R227, R230). -/
structure Pair where
  crd : Word
  val : Word
  cp : Bool := false
  vp : Bool := false
  deriving DecidableEq, Repr

/-- `status` (R108), without the fields that repeat the gang's split and mode. -/
structure Status where
  nest : Bool := false
  pie : Bool := false
  ie : Bool := false
  pprv : Bool := false
  prv : Bool := false
  deriving DecidableEq, Repr

/-- `ves` (R106). -/
structure Ves where
  rst : Bool := false
  cm : BitVec 2 := 0
  idx : BitVec 12 := 0
  deriving DecidableEq, Repr

/-- `cause` (R108). -/
structure Cause where
  int : Bool := false
  acode : BitVec 8 := 0
  code : BitVec 8 := 0
  deriving DecidableEq, Repr

/-- What a stream engine fetched for a position: an element with its poison, a fibre (position of its first pair in the value
array, its pairs, whether it is malformed, and the fault that ended it), or a fault and its address; `again` stands for a position
whose fault was raised and that is fetched again when a pop next needs it (R213, R222). -/
inductive Fetched where
  | elem (v : Nat) (p : Bool)
  | fibre (lo : Nat) (ps : List Pair) (bad : Bool) (stop : Option (Nat × DWord))
  | fault (code : Nat) (addr : DWord)
  | again
  deriving DecidableEq, Repr

/-- A bound stream register: its record, position, captured seed and base, slot, and the positions fetched ahead (R208). -/
structure Binding where
  record : List Byte := []
  pos : Nat := 0
  seed : DWord := 0
  base : DWord := 0
  slot : Option (BitVec 5) := none
  prv : Bool := false
  held : List (Nat × Fetched) := []
  deriving DecidableEq, Repr

/-- What a parked hart waits in (R35), with what the parked instruction has already done. -/
inductive Park where
  /-- `wfe`: retired, wakes on an enabled event bit (R104) -/
  | wfe
  /-- `vjoin`: waits for agreement on split k; the length of the `vjoin` (R99) -/
  | join (k : BitVec 2) (len : Nat)
  /-- merged away by `vjoin` (R99) -/
  | away
  /-- an instruction that has not retired and is tried again: `arrived` for the barrier at which an
  arrival has been made (the gang barrier: `none` within),
  `seen` for the elements of a `vwait` already observed (R198, R203) -/
  | wait (i : Instr) (reason : Nat) (arrived : Option (Option Nat)) (seen : BitVec 2048)
  /-- a `launch` that has read its launch record and the descriptor or shape record, and waits for a pool entry (R314) -/
  | entry (i : Instr) (lrec desc : List Byte)
  /-- a `vamo` of which some elements have performed: those left, with space, address and key of their locations, and the old values
  read (R196) -/
  | vamo (i : Instr) (left : List (Nat × DWord × Space × Nat × Nat)) (olds : List (Nat × Nat))
  deriving DecidableEq, Repr

/-- Values of a trace control block, as a gang takes them (R376). `ev` holds EVP 0, EVA 0, EVP 1, … -/
structure Tcb where
  buf : DWord := 0
  blog : Nat := 0
  sper : Nat := 0
  lock : Bool := false
  brec : Bool := false
  chk : Bool := false
  trec : Bool := false
  ev : List Nat := []
  bp : List DWord := []
  deriving DecidableEq, Repr

/-- A trace record that waits to be numbered and written (R378, R389). -/
structure TraceRec where
  asn : Nat
  tcb : Tcb
  type : Nat
  eng : Nat
  queue : Nat
  task : Nat
  cseq : Nat
  hart : Option HartId
  hartid : Nat
  ts : DWord
  data : DWord
  deriving DecidableEq, Repr

/-- Drops of a trace buffer: since the last successful write, not yet added to DROP in memory, and DROP as last known (R388). -/
structure TraceDrop where
  asn : Nat
  buf : DWord
  since : Nat := 0
  owed : Nat := 0
  drop : DWord := 0
  deriving DecidableEq, Repr

/-- The counters of a partition: accumulators EVP 0 to 15 and EVA 0 to 15, which counters count EVA now, clk of the start,
samples taken, and clk of its own windows in which open events of an accumulator have been counted (R380, R381). -/
structure PartCtr where
  core : Nat
  part : Nat
  start : Nat := 0
  sampled : Nat := 0
  acc : Vector DWord 32 := .replicate 32 0
  alt : BitVec 16 := 0
  looked : Vector Nat 32 := .replicate 32 0
  deriving DecidableEq, Repr

/-- States of a copy command that has not finished (R283). -/
inductive CopySt where
  | queued | running | faulted | reported
  deriving DecidableEq, Repr

/-- A copy command of a hart: what it captured, and its fault (R283, R291, R294). -/
structure CopyCmd where
  handle : Nat
  st : CopySt := .queued
  code : Nat := 0
  addr : DWord := 0
  record : List Byte := []
  sseed : DWord := 0
  sbase : DWord := 0
  prv : Bool := false
  /-- the source bytes of each element as first read, and whether one has changed since (R289) -/
  src : List (Option (List (Byte × Bool))) := []
  bad : Bool := false
  deriving DecidableEq, Repr

/-- How a trap ends a convoy (R110). -/
inductive Kind where
  | before | restartable | squash | after
  deriving DecidableEq, Repr

/-- How the last convoy ended, within a step: not at all, it retired, in a trap, waiting (R380 numbers what for), parked, or stopped
by a request (R23). -/
inductive Ended where
  | open | retired | trapped (k : Kind) | waits (reason : Nat) | parked | stopped
  deriving DecidableEq, Repr

/-- The three issue slots of a partition (R24). -/
inductive IssueSlot where
  | scalar | convoy | engine
  deriving DecidableEq, Repr

/-- A load that performed before it issued (R122, R143): bytes of one piece of a space and their poison. -/
structure EarlyRead where
  cls : Cls
  space : Space
  addr : Nat
  bytes : List (Byte × Bool)
  deriving DecidableEq, Repr

/-- What holds an entry of the address-range interlock table (R139). -/
inductive LockOwner where
  | copy (handle : Nat)
  | stream (q : BitVec 3)
  | epilogue (n : Nat)
  deriving DecidableEq, Repr

/-- An entry of the address-range interlock table: bytes [lo, hi) of a space, global ones by virtual address, and the strip interval of
the command that holds it (R139, R143); `part` marks what an entry over several allocations covers beyond the first. -/
structure Lock where
  own : LockOwner
  space : Space
  lo : Nat
  hi : Nat
  write : Bool
  strip : Nat := 0
  part : Bool := false
  deriving DecidableEq, Repr

/-- A convoy fetched ahead: the words of its members, and word 0 of the member whose chain bit breaks R21 (R57, R59). -/
structure Ahead where
  members : List (List Nat)
  bad : Option Nat
  deriving DecidableEq, Repr

/-- A hart's part in the save of its team: none, its interrupt is pending, the save window is lent to it, its registers are
written (R324, R325). -/
inductive SaveSt where
  | none | asked | lent | saved
  deriving DecidableEq, Repr

/-- A vector hart (R12, R28). -/
structure Hart where
  /-- a hart of a gang runs in the slot -/
  live : Bool := false
  id : HartId := ⟨0, 0, 0⟩
  /-- index in the gang, and the gang's entry in `State.gangs` -/
  gh : Nat := 0
  gang : Nat := 0
  asn : Nat := 0
  pc : DWord := 0
  x : Vector DWord 64 := .replicate 64 0
  v : Vector VReg 32 := .replicate 32 { }
  m : Vector (BitVec 2048) 8 := .replicate 8 0
  f : Vector (List Pair) 16 := .replicate 16 []
  q : Vector (Option Binding) 8 := .replicate 8 none
  /-- vl.EW and vl.LEN -/
  ew : BitVec 2 := 2
  vl : BitVec 12 := 0
  ves : Ves := { }
  vcm : BitVec 2048 := 0
  sseed : DWord := 0
  sbase : DWord := 0
  fprog : DWord := 0
  vdirty : DWord := 0
  vlive : DWord := BitVec.allOnes 64
  mism : BitVec 16 := 0
  status : Status := { }
  cause : Cause := { }
  epc : DWord := 0
  tval : DWord := 0
  tvec : DWord := 0
  sscr : DWord := 0
  /-- evt.BAR, evt.CHLD, evt.MSG, evt.CPY; TIME and INTP are levels -/
  evtBar : Bool := false
  evtChld : Bool := false
  evtMsg : Bool := false
  evtCpy : Bool := false
  emask : BitVec 6 := BitVec.allOnes 6
  tcmp : DWord := BitVec.allOnes 64
  /-- declared split D and current split c, as log2 (R99) -/
  split : BitVec 2 := 0
  cur : BitVec 2 := 0
  /-- the gang runs in protected mode (R18) -/
  prot : Bool := false
  park : Option Park := none
  /-- pending interrupts: pre-emption with its deadline, asynchronous errors with code and tval, trace notifications -/
  preempt : Option DWord := none
  async : List (BitVec 8 × DWord) := []
  note : Option DWord := none
  /-- the next convoy is the target of an `eret` (R111), and one breakpoint match is passed over (R386) -/
  fromEret : Bool := false
  brkSkip : Bool := false
  /-- writes not yet performed, and the number of the strip interval (R143) -/
  stbuf : List PWrite := []
  strip : Nat := 0
  /-- convoys fetched ahead, by address (R59) -/
  ahead : List (DWord × Ahead) := []
  /-- when the hart last issued in each slot (R35), and the queue in which its next instruction waits, with its place (R24) -/
  lastIssue : Vector Nat 3 := .replicate 3 0
  queued : Option (IssueSlot × Nat) := none
  /-- the slot in which its next convoy is in hand: sent on before a request became takeable (R23) -/
  hand : Option IssueSlot := none
  /-- the instruction in which it is parked was resumed by an `eret` (R111) -/
  resumed : Bool := false
  /-- loads that performed before they issued -/
  early : List EarlyRead := []
  /-- why the hart could not issue when it last tried (R380) -/
  stall : Nat := 0
  /-- interlock table, copy commands and their counter, bank statistics (R139, R186, R283) -/
  arit : List Lock := []
  copies : List CopyCmd := []
  copyCount : Nat := 0
  bstat : Vector DWord 4 := .replicate 4 0
  /-- messages sent and accepted that have not been delivered (R145, R340) -/
  undelivered : Nat := 0
  /-- the convoy at this address mismatched once (R179) -/
  mismAt : Option DWord := none
  /-- its part in a save, and the receive buffer it watches: physical address of the record (R324, R338) -/
  sv : SaveSt := .none
  watch : Option Nat := none
  deriving DecidableEq, Repr

/-- States of a node of the launch graph (R305). -/
inductive NodeSt where
  | held | waiting | ready | running | finished
  deriving DecidableEq, Repr

/-- Outcome of a node that has finished (R307). -/
inductive NodeEnd where
  | complete | failed | cancelled | lost
  deriving DecidableEq, Repr

/-- The fields of a task descriptor (R301). -/
structure TaskDesc where
  entry : DWord := 0
  gangs : Nat := 1
  harts : Nat := 1
  split : BitVec 2 := 0
  mat : Bool := false
  prot : Bool := false
  idem : Bool := false
  tcmb : Nat := 0
  spb : Nat := 0
  deriving DecidableEq, Repr

/-- A team: its task and its core (R13). -/
structure Team where
  node : Nat
  core : Nat
  deriving DecidableEq, Repr

/-- A request to the Dealer: its deadline, the victims taken, and those whose save was abandoned (R321, R322). -/
structure Request where
  deadline : DWord
  taken : List Team := []
  barred : List Team := []
  deriving DecidableEq, Repr

/-- A node of the launch graph (R300 to R310). -/
structure Node where
  /-- task identifier: pool entry and generation (R300) -/
  id : Nat
  st : NodeSt := .waiting
  task : Bool := true
  depth : Nat := 0
  prio : Nat := 0
  asn : Nat := 0
  /-- the host queue it belongs to (R312) -/
  queue : Option Nat := none
  /-- the hart that launched it, as its gang and index there, and that hart's task -/
  launcher : Option (Nat × Nat) := none
  parent : Nat := 0
  desc : TaskDesc := { }
  crec : DWord := 0
  save : DWord := 0
  args : List DWord := []
  count : Nat := 0
  succs : List Nat := []
  cancelled : Bool := false
  /-- exit code, abandoned copies: count, first cause, first handle (R304) -/
  exit : Nat := 0
  nabn : Nat := 0
  abnCause : Nat := 0
  ahnd : DWord := 0
  /-- gangs to start, in order; gangs that have not ended -/
  toStart : List Nat := []
  unended : Nat := 0
  /-- resident time of the gangs that ended by `texit`, and their number (R322) -/
  ended : Nat := 0
  endedNs : Nat := 0
  /-- order in which it became READY, and since when it waits at its priority (R37, R312) -/
  readyNo : Nat := 0
  since : DWord := 0
  cseq : DWord := 0
  /-- a copy node: its shape record, seed, base, privilege, and the gang and core of its launcher (R309) -/
  shape : List Byte := []
  sseed : DWord := 0
  sbase : DWord := 0
  prv : Bool := false
  gang : Nat := 0
  core : Nat := 0
  /-- checksum of the bytes written so far, and the trace values of its last gang (R379, R390) -/
  chk : DWord := 0
  tcb : Tcb := { }
  /-- word +0 of the completion record once it has finished, and the number of `twait` parked on it (R317) -/
  word : DWord := 0
  /-- the snapshot number when a rollback re-created the node (R355) -/
  rolled : Option DWord := none
  /-- its request to the Dealer (R321) -/
  req : Option Request := none
  /-- engine transfers of the launching hart that are older than the launch: its copies and its accepted epilogues (R308) -/
  older : List LockOwner := []
  deriving DecidableEq, Repr

/-- A pool entry that has held a node: its last generation and outcome (R307). -/
structure Entry where
  idx : Nat
  gen : Nat
  outcome : Option NodeEnd
  deriving DecidableEq, Repr

/-- Free entries of one part of the pool in the order in which they are taken: those never used from `fresh` on, then those
freed (R307, R319). -/
structure FreeList where
  fresh : Nat
  last : Nat
  freed : List Nat := []
  deriving DecidableEq, Repr

/-- A barrier: phase, expected count, arrivals, mask, records of the last phase, and the first arriver of the open phase with the
clk of its arrival (R201, R205). -/
structure Bar where
  phase : Word := 0
  exp : Nat := 0
  arr : Nat := 0
  mask : BitVec 32 := 0
  lph : Word := 0
  lgh : Nat := 0
  lts : DWord := 0
  wgh : Nat := 0
  wclk : DWord := 0
  firstGh : Nat := 0
  firstClk : Nat := 0
  deriving DecidableEq, Repr

/-- An accumulator element: its value in units of its least significant bit, its not-a-real flag, and its overflow flag with
the sign of the sum (R83, R84; `true` is negative). -/
structure Accum where
  v : Int := 0
  nar : Bool := false
  ovf : Option Bool := none
  deriving DecidableEq, Repr

/-- A row of a slot (R260). -/
structure MRow where
  elts : List Accum
  inx : Bool := false
  psn : Bool := false
  mmas : Nat := 0
  deriving DecidableEq, Repr

/-- States of a slot (R260). -/
inductive SlotSt where
  | free | opened | sealed | draining
  deriving DecidableEq, Repr

/-- A slot of the result ring; `kind` is a format code, and rows that are not listed are zero (R260). -/
structure MSlot where
  kind : Nat := 8
  anchor : Int := 0
  st : SlotSt := .free
  rows : List (Nat × MRow) := []
  deriving DecidableEq, Repr

/-- An accepted `epi.go`: the hart's gang index and its table entry, who writes, and what was captured (R275). -/
structure EpiCmd where
  n : Nat
  gh : Nat
  asn : Nat
  prv : Bool
  seed : DWord
  base : DWord
  record : List Byte
  bias : List Nat
  deriving DecidableEq, Repr

/-- What a gang that holds the matrix engine has in it (R259 to R261). -/
structure Mat where
  tile : BitVec 131072 := 0
  tilePsn : BitVec 16384 := 0
  scale : BitVec 4096 := 0
  scalePsn : BitVec 512 := 0
  /-- the tag: format and depth -/
  fmt : Nat := 8
  k : Nat := 128
  slots : Vector MSlot 8 := .replicate 8 { }
  head : BitVec 3 := 0
  tail : BitVec 3 := 0
  /-- accepted epilogue commands that have not completed, and how many were ever accepted -/
  queue : List EpiCmd := []
  accepted : Nat := 0
  deriving DecidableEq, Repr

/-- What happens to a gang once its harts have ended and its accepted epilogue commands have completed (R261, R318, R323): it runs
still, it ended by `texit`, it is queued again, or it is gone. -/
inductive Fate where
  | runs | ended | again | gone
  deriving DecidableEq, Repr

/-- A hart gang (R12, R13). -/
structure Gang where
  key : Nat
  asn : Nat := 0
  core : Nat := 0
  parts : List Nat := []
  /-- identifier of its task, and its index in the task -/
  node : Nat := 0
  gidx : Nat := 0
  desc : TaskDesc := { }
  tcb : Tcb := { }
  /-- harts that have executed `texit`, as a mask of gang indexes (R201) -/
  exited : BitVec 32 := 0
  /-- start of the current residency, time of earlier ones, and order of starting (R321, R322) -/
  start : DWord := 0
  ran : Nat := 0
  order : Nat := 0
  tcm : Local := { }
  sp : Local := { }
  /-- named barriers and the gang barrier (R200) -/
  bars : List Bar := []
  gbar : Bar := { }
  /-- the matrix engine, read only when the task declares it (R16, R261) -/
  mat : Mat := { }
  fate : Fate := .runs
  deriving DecidableEq, Repr

/-- A block of bytes of a save region and the open value that stands in it (R324, R325): layout is not architectural. -/
structure SaveBlock where
  va : DWord
  len : Nat
  v : Nat
  deriving DecidableEq, Repr

/-- A gang of a saved team: the gang, its harts, and where its data lies (R324 to R326). -/
structure SavedGang where
  gang : Gang
  harts : List Hart
  blocks : List SaveBlock
  deriving DecidableEq, Repr

/-- A save in progress: the team, its deadline, the node whose request it serves, the harts not yet asked, and the register blocks
written (R324). -/
structure SaveOp where
  team : Team
  deadline : DWord
  waiter : Nat
  order : List HartId
  blocks : List SaveBlock := []
  deriving DecidableEq, Repr

/-- A registered address space (R397): its tables, trap entry, trace control block and key indices; a stop of its job, and whether
the stop record of it is written (R387). -/
structure AddrSpace where
  asn : Nat
  root : Nat := 0
  trap : DWord := 0
  tcb : DWord := 0
  keys : List Nat := []
  stopped : Bool := false
  told : Bool := false
  deriving DecidableEq, Repr

/-- One populated range of physical addresses (R134). -/
structure PhysRange where
  base : Nat
  size : Nat
  /-- device-shared SRAM rather than HBM4 -/
  sram : Bool
  deriving DecidableEq, Repr

/-- A firmware image: its bytes, its version, its signature, and the keys from the root key to the one that signs it, each with the
signature that the one before it makes over it (R373, R374). -/
structure FwImage where
  bytes : List Byte
  version : Nat := 0
  sig : List Byte := []
  keys : List (List Byte × List Byte) := []
  deriving DecidableEq, Repr

/-- What the configuration manifest and the part fix (R330, R374, R393; log entry 3): populated ranges, partitions disabled at
manufacture, coordinates and extents of the fabric, base of the control page, a clock limited to 1.2 GHz, sequence number, whether
the signature verifies; serial number and identity, HBM4 rows and SRAM lines disabled at manufacture, the power limit in watts, the
minimum firmware version; and the firmware images that stand beside it in flash. -/
structure Manifest where
  ranges : List PhysRange := [{ base := 0, size := 384 * 2 ^ 30, sram := false }, { base := 2 ^ 40, size := 2 ^ 27, sram := true }]
  off : List (Nat × Nat) := []
  x : Nat := 0
  y : Nat := 0
  z : Nat := 0
  ex : Nat := 1
  ey : Nat := 1
  ez : Nat := 1
  ctrl : Nat := 2 ^ 44
  slow : Bool := false
  seqNo : Nat := 0
  signed : Bool := true
  serial : Nat := 0
  ident : Nat := 0
  rowsOff : List (Nat × Nat) := []
  linesOff : List Nat := []
  watts : Nat := 2000
  minFw : Nat := 0
  images : List FwImage := []
  deriving DecidableEq, Repr

/-- The bytes of a manifest as it stands in flash: a layout the manual does not give (R374, R375). -/
opaque Config.manifestBytes : Manifest → List Byte

/-- What a convoy in execution carries from member to member (R22, R109 to R111); idle between steps of `step`. -/
structure Convoy where
  active : Bool := false
  /-- address of the first member -/
  base : DWord := 0
  idx : Nat := 0
  /-- the member that resumes, and its finished elements -/
  resumed : Bool := false
  cm : Nat := 0
  cmIdx : Nat := 0
  /-- finished elements of the current member -/
  done : BitVec 2048 := 0
  /-- a request stops the convoy at this element of this member (R23) -/
  cut : Option (Nat × Nat) := none
  /-- lowest bit of `vlive` that is clear among the registers the convoy names (R117) -/
  low : Option Nat := none
  /-- translations that the convoy's accesses used, before a write or not, whose ACC and DRT are still to be set (R135); and the
  counters of events before it, for a convoy that leaves no effect (R110) -/
  marks : List (TlbEntry × Bool) := []
  ctrs : List PartCtr := []
  /-- a member trapped in execution; the later ones are only checked at dispatch (R113) -/
  pend : Bool := false
  /-- the convoy has held a continuable member (R239) -/
  cont : Bool := false
  /-- a parent of the current `fwalk` by its position, and the children it has: read once an issue (R254) -/
  kids : Option (Nat × Nat × Nat) := none
  /-- stream elements that the current member has popped (R381) -/
  popped : Nat := 0
  /-- members that had something to write when they ran; kept when the convoy has ended (R178) -/
  wrote : List Nat := []
  deriving DecidableEq, Repr

/-! ## The fabric and Telemark -/

/-- A message (R332), with its sender when that is a hart of this device: gang and index there. -/
structure Msg where
  pairs : List Pair
  tag : Word
  dev : Nat
  va : DWord
  asn : Nat
  epoch : Nat
  sender : Option (Nat × Nat) := none
  deriving DecidableEq, Repr

/-- What travels on a channel: a message or a Telemark marker (R329, R345). -/
inductive Item where
  | msg (m : Msg)
  | marker (asn num epoch : Nat)
  deriving DecidableEq, Repr

/-- A Dakel port: its link, the four byte counters and the refusal counter (R328, R331, R335). -/
structure Port where
  up : Bool := false
  sentPay : DWord := 0
  sentWire : DWord := 0
  recvPay : DWord := 0
  recvWire : DWord := 0
  refused : DWord := 0
  deriving DecidableEq, Repr

/-- A message in a slot of a receive buffer: physical address of the slot, the open bytes that stand there, the sectors that were
written as poison, the pairs that fit, whether it is truncated, and the sector of the buffer's record (R333 to R335). -/
structure SlotMsg where
  pa : Nat
  len : Nat
  v : Nat
  psn : List Nat := []
  pairs : List Pair
  tag : Word
  trunc : Bool
  rx : Nat := 0
  deriving DecidableEq, Repr

/-- A receive buffer that a delivery or a `drecv` has named: sector of its record, address space, virtual addresses of its slots, and
whether an ordinary store has reached the record or a slot since (R334). -/
structure RxBuf where
  sec : Nat
  asn : Nat
  lo : Nat := 0
  hi : Nat := 0
  bad : Bool := false
  deriving DecidableEq, Repr

/-- A leaf of a job at an instant: where its entry lies, its virtual and physical address, its size and key (R347). -/
structure JobLeaf where
  pte : Nat
  va : Nat
  pa : Nat
  size : Nat
  key : Nat
  deriving DecidableEq, Repr

/-- States of a snapshot (R351). -/
inductive SnapSt where
  | recording | sealing | complete | failed | dropped | absent
  deriving DecidableEq, Repr

/-- A snapshot of a job on the device (R346 to R351). Blocks are 64 KiB frames by number. -/
structure Snap where
  num : Nat
  st : SnapSt := .recording
  fcode : Nat := 0
  nir : Bool := false
  epoch : Nat := 0
  prev : Nat := 0
  tinst : DWord := 0
  leaves : List JobLeaf := []
  /-- blocks not written since the instant; copies of blocks, with their frames; blocks that the manifest lists, by virtual
  address -/
  shared : List Nat := []
  copies : List (Nat × Nat) := []
  listed : List (Nat × Nat) := []
  /-- incoming channels whose marker has not come -/
  wait : List Nat := []
  /-- held messages with the channel they came on, and channel state -/
  held : List (Option Nat × Msg) := []
  chan : List (Nat × Msg) := []
  nodes : List Node := []
  /-- receive buffers in use at the instant (R334, R354) -/
  rx : List RxBuf := []
  deriving DecidableEq, Repr

/-- The record that a job is armed with (R342). -/
structure ArmRec where
  key : Nat
  pool : Nat
  npool : Nat
  area : Nat
  narea : Nat
  deriving DecidableEq, Repr

/-- A copy of a block in flight: the frame it goes to, and the leaf that is in the pending state for it (R347). -/
structure PendCopy where
  block : Nat
  frame : Nat
  pte : Nat
  key : Nat
  deriving DecidableEq, Repr

/-- A job of Telemark on the device: L, epoch, record, latest complete snapshot, snapshot in progress, status of the most recent
one, copies in flight (R341 to R356). -/
structure Job where
  asn : Nat
  top : Nat := 0
  epoch : Nat := 0
  arm : Option ArmRec := none
  done : Option Snap := none
  prog : Option Snap := none
  last : Option Snap := none
  pending : List PendCopy := []
  deriving DecidableEq, Repr

/-- The fabric engine: ports, channels 2 × port + VC in and out, the send queue, receive buffers and their messages, jobs, and the
sync status with its bound and the offset still to be removed (R328 to R356, R385). -/
structure Fabric where
  ports : List Port := List.replicate 12 { }
  inq : List (List Item) := List.replicate 24 []
  outq : List (List Item) := List.replicate 24 []
  sendq : List Msg := []
  rx : List RxBuf := []
  slots : List SlotMsg := []
  jobs : List Job := []
  lock : Bool := false
  bound : Word := 0xFFFFFFFF
  offset : Int := 0
  deriving DecidableEq, Repr

/-! ## The host's side -/

/-- A bound host queue: ring, priority, weight, address space, producer count and entries consumed (R395, R396). -/
structure HostQ where
  q : Nat
  qb : Nat
  qlog : Nat
  prio : Nat
  weight : Nat
  asn : Nat
  prod : DWord := 0
  cons : DWord := 0
  deriving DecidableEq, Repr

/-- The keys of an index: an AES-256 key and a KMAC256 key (R359). -/
structure SealKey where
  idx : Nat
  aes : BitVec 256
  mac : BitVec 256
  deriving DecidableEq, Repr

/-- An attestation report (R375). -/
structure Report where
  nonce : DWord
  manHash : List Byte
  seqNo : Nat
  measure : BitVec 256
  kemKey : List Byte
  sig : List Byte
  deriving DecidableEq, Repr

/-- The control page and the firmware behind it (R359, R365, R373, R375, R394 to R400). -/
structure Firm where
  /-- STATE, PST, and the power state asked for -/
  st : Nat := 0
  pst : Nat := 3
  ask : Option Nat := none
  alarm : DWord := 0
  telem : List DWord := List.replicate 30 0
  mbox : List DWord := List.replicate 256 0
  queues : List HostQ := []
  session : Option (BitVec 256) := none
  measure : BitVec 256 := 0
  /-- the keys of the indices that address spaces own or owned until their scrub; how many keys were ever generated -/
  keys : List SealKey := []
  keyCount : Nat := 0
  /-- the report that the last ATTEST made; the queue that an unbinding waits for (R397) -/
  report : Option Report := none
  unbind : Option Nat := none
  /-- quarantined frames at the last attestation; key indices whose scrub has not ended -/
  attested : List Nat := []
  scrub : List Nat := []
  throttles : Nat := 0
  hot : Bool := false
  /-- what the host's last read returned -/
  lastRead : List Byte := []
  deriving DecidableEq, Repr

/-- The launch engine's deficit round-robin: deficit of each queue at each priority (64 × priority + queue), and for each priority the queue being visited (R312). -/
structure Rota where
  deficit : List (Nat × Nat) := []
  cur : List (Nat × Nat) := []
  deriving DecidableEq, Repr

/-- One move of some agent of the device or of its surroundings (log entry 6). -/
inductive Turn where
  /-- an issue slot of the partition issues for the hart that R35 chooses among the ready ones: those of `busy`, a mask of hart
  slots, are not ready (an interlock of R26 or a full queue, which are timing) -/
  | issue (core part : Nat) (slot : IssueSlot) (busy : Nat)
  /-- the slot sends the next convoy of the hart chosen on to where it executes: it is in hand from there on (R23, R24) -/
  | hand (core part : Nat) (slot : IssueSlot) (busy : Nat)
  /-- an issue slot issues, and a `vamo` performs its first `n` elements only for now; a parked one performs `n` more (R196) -/
  | part (core part : Nat) (slot : IssueSlot) (busy n : Nat)
  | more (h : HartId) (n : Nat)
  /-- the same as `issue`, and a pending request stops a convoy in hand before element `idx` of member `cm` (R23) -/
  | cut (core part : Nat) (slot : IssueSlot) (busy cm idx : Nat)
  /-- a later load of a hart performs (R122, R143) -/
  | early (h : HartId) (c : Cls) (va : DWord) (n : Nat) (loc : Option Bool)
  /-- a row of the opcode table without a word -/
  | event (i : Instr)
  /-- a pending write of a hart performs -/
  | perform (h : HartId) (n : Nat)
  /-- a parked instruction is tried again -/
  | retry (h : HartId)
  /-- a translation cache drops an entry -/
  | evict (n : Nat)
  /-- a hart fetches ahead at an address (R59) -/
  | ahead (h : HartId) (pc : DWord)
  /-- a `wfe` returns although no enabled event bit is set (R104) -/
  | wake (h : HartId)
  /-- a whole message or a marker arrives on an incoming channel; the first item of an outgoing channel leaves over the link; a
  message of a hart that left the device is delivered or lost elsewhere -/
  | arrive (ch : Nat) (x : Item)
  | depart (ch : Nat)
  | acked (gang gh : Nat)
  /-- a result of a hart in protected mode differs: that of a member of the convoy that issues next, which a request may stop (R179) -/
  | mismatch (core part : Nat) (slot : IssueSlot) (busy cm : Nat) (cut : Option (Nat × Nat))
  /-- time passes: clk and device time -/
  | tick (clks : Nat) (ns : DWord)
  deriving DecidableEq, Repr, Inhabited

/-- The move that some agent makes next when none is queued: an order that the manual does not fix (log entry 6). -/
opaque Config.schedule : Nat → Turn

/-- The whole machine. -/
structure State where
  /-- the hart in focus, and the others (log entry 7) -/
  h : Hart := { }
  harts : List Hart := []
  /-- the convoy in execution and the hart as it was before it -/
  cv : Convoy := { }
  h0 : Hart := { }
  /-- the hart after the trap of a member, while later members are checked (R113) -/
  hT : Hart := { }
  /-- how the convoy ended (read by `step`, which counts one that retired, R381) -/
  ended : Ended := .open
  gangs : List Gang := []
  /-- device memory: contents, sectors stored as poison, counter lines and key tags, tags that fail and bits of tags that were flipped, bytes of
  sealed sectors that the host wrote raw, check bits in error, of words and of tags, uncorrectable counter lines and ones with a corrected
  error, regions whose tree fails, quarantined frames (R360 to R367) -/
  mem : List Host.Cell := []
  psn : List Nat := []
  regions : List Region := []
  badTag : List Nat := []
  tagXor : List (Nat × BitVec 16) := []
  raw : List Host.Cell := []
  ecc : List EccErr := []
  eccTag : List EccErr := []
  badMeta : List Nat := []
  eccMeta : List EccErr := []
  badTree : List Nat := []
  quar : List Nat := []
  /-- bytes that a write of this move gave another value or poison (R289) -/
  changed : List (Space × Nat) := []
  /-- error log (R369) -/
  log : List LogRec := []
  logSeq : Nat := 0
  /-- save windows of the cores, core c at 131,072 c (R32) -/
  win : Local := { size := 16777216 }
  tlb : List TlbEntry := []
  spaces : List AddrSpace := []
  /-- pending-launch pool (R300, R319) -/
  nodes : List Node := []
  entries : List Entry := []
  shared : FreeList := { fresh := 0, last := 7168 }
  reserve : List FreeList := (List.range 8).map fun d => { fresh := 7168 + 128 * d, last := 7168 + 128 * (d + 1) }
  /-- trace records waiting, drops, counters (R381, R388, R389) -/
  trace : List TraceRec := []
  drops : List TraceDrop := []
  ctrs : List PartCtr := []
  /-- saves in progress, saved gangs, gangs that drain for a request, quarantined partitions (R180, R321 to R326) -/
  saves : List SaveOp := []
  saved : List SavedGang := []
  drains : List Nat := []
  partQuar : List (Nat × Nat) := []
  rota : Rota := { }
  /-- the partition of a core whose matrix command was accepted last, core by core (R36) -/
  matLast : List (Nat × Nat) := []
  fab : Fabric := { }
  firm : Firm := { }
  readyCount : Nat := 0
  startCount : Nat := 0
  man : Manifest := { }
  clk : Nat := 0
  tstamp : DWord := 0
  /-- how often a partition issued, for R35 -/
  issued : Nat := 0
  turns : List Turn := []
  free : Nat := 0
  deriving DecidableEq, Repr

/-- The machine after device reset (R398; log entries 1 to 4). -/
def State.reset : State := { }

end Sys2Proof.Machine
end

