-- ==== Sys2Proof/Machine/Ops.lean ====
section
/-! DEFINITION. The named operations over storage and registers that every meaning uses, the taking of a trap (R112) and the
return from one (R102). -/

namespace Sys2Proof.Machine

/-! ## Bytes by address -/

/-- The byte at an address: zero when it is not listed (log entry 4, R33, R398). -/
def cellsGet : List Host.Cell → Nat → Byte
  | [], _ => 0
  | (a, b) :: l, x => if a = x then b else cellsGet l x

/-- Writes one byte; the list stays strictly rising and without zero bytes. -/
def cellsSet : List Host.Cell → Nat → Byte → List Host.Cell
  | [], x, y => if y = 0 then [] else [(x, y)]
  | (a, b) :: l, x, y =>
    if x < a then (if y = 0 then (a, b) :: l else (x, y) :: (a, b) :: l)
    else if x = a then (if y = 0 then l else (x, y) :: l)
    else (a, b) :: cellsSet l x y

def cellsRead (l : List Host.Cell) (a n : Nat) : List Byte := (List.range n).map fun i => cellsGet l (a + i)

def cellsWrite : List Host.Cell → Nat → List Byte → List Host.Cell
  | l, _, [] => l
  | l, a, b :: bs => cellsWrite (cellsSet l a b) (a + 1) bs

/-- Zeroes `[a, a + n)`. -/
def cellsClear (l : List Host.Cell) (a n : Nat) : List Host.Cell := l.filter fun c => c.1 < a || a + n ≤ c.1

/-- The canonical form: addresses strictly rising, no zero byte listed. -/
def cellsWf : List Host.Cell → Bool
  | [] => true
  | [(_, b)] => b != 0
  | (a, b) :: (a', b') :: l => b != 0 && decide (a < a') && cellsWf ((a', b') :: l)

/-- A set of numbers as a strictly rising list. -/
def natInsert : List Nat → Nat → List Nat
  | [], x => [x]
  | a :: l, x => if x < a then x :: a :: l else if x = a then a :: l else a :: natInsert l x

def natErase (l : List Nat) (x : Nat) : List Nat := l.filter (· != x)

def natsWf : List Nat → Bool
  | [] => true
  | [_] => true
  | a :: b :: l => decide (a < b) && natsWf (b :: l)

/-- `n` in bytes `[a, a + n)` touch these units of `2 ^ k` bytes. -/
def unitsOf (k a n : Nat) : List Nat :=
  if n = 0 then [] else (List.range ((a + n - 1) / 2 ^ k - a / 2 ^ k + 1)).map (· + a / 2 ^ k)

/-! ## Local storage (R33, R184) -/

/-- The least power of two at or above `n`. -/
def ceilPow2 (n : Nat) : Nat := if n ≤ 1 then n else 2 ^ (Nat.log2 (n - 1) + 1)

/-- An offset wraps modulo the size rounded up to a power of two; `none` at or beyond the allocation (R33). -/
def localOff (size off : Nat) : Option Nat :=
  let o := off % ceilPow2 size
  if size = 0 then none else if o < size then some o else none

def localRead (m : Local) (off n : Nat) : List (Byte × Bool) :=
  (List.range n).map fun i =>
    match localOff m.size (off + i) with
    | none => (0, false)
    | some o => (cellsGet m.cells o, m.psn.contains (o / 4))

def localSetByte (m : Local) (off : Nat) (b : Byte) : Local :=
  match localOff m.size off with
  | none => m
  | some o => { m with cells := cellsSet m.cells o b }

/-- Writes bytes; poison poisons every word touched, and a clean write of all four bytes of a word clears it (R184, R366). Check bits in
error stay so until their word is written whole (R371). -/
def localWrite (m : Local) (off : Nat) (bs : List Byte) (p : Bool) : Local :=
  let m1 := (List.range bs.length).foldl (fun m i => localSetByte m (off + i) (bs.getD i 0)) m
  let offs := (List.range bs.length).filterMap fun i => localOff m.size (off + i)
  let words := (offs.map (· / 4)).dedup
  let whole := fun w => (List.range 4).all fun i => offs.contains (4 * w + i)
  let psn := words.foldl (fun ps w => if p then natInsert ps w else if whole w then natErase ps w else ps) m.psn
  { m1 with psn := psn, ecc := m.ecc.filter fun e => !whole e.word }

/-! ## Gangs and harts -/

def State.gangOf (s : State) (key : Nat) : Option Gang := s.gangs.find? (·.key == key)

def State.mapGang (s : State) (key : Nat) (f : Gang → Gang) : State :=
  { s with gangs := s.gangs.map fun g => if g.key = key then f g else g }

def State.mapH (s : State) (f : Hart → Hart) : State := { s with h := f s.h }

/-- Applies `f` to every hart that satisfies `p`. -/
def State.mapHarts (s : State) (p : Hart → Bool) (f : Hart → Hart) : State :=
  { s with h := if p s.h then f s.h else s.h, harts := s.harts.map fun h => if p h then f h else h }

/-- Every hart that runs. -/
def State.allHarts (s : State) : List Hart := (s.h :: s.harts).filter (·.live)

def State.hartAt (s : State) (id : HartId) : Option Hart := s.allHarts.find? (·.id == id)

/-- Brings a hart into focus; the other is put back. -/
def State.focus (s : State) (id : HartId) : State :=
  if s.h.live && s.h.id == id then s
  else match s.harts.find? (·.id == id) with
    | none => s
    | some h => { s with h := h, harts := (if s.h.live then [s.h] else []) ++ s.harts.filter (·.id != id) }

/-- The next open value (log entry 5). -/
def State.takeFree (s : State) : Nat × State := (Config.freeNat s.free, { s with free := s.free + 1 })

/-! ## Scalar registers (R88) -/

def Hart.getX (h : Hart) (r : BitVec 6) : DWord := if r = 0 then 0 else h.x.get r.toFin

def Hart.setX (h : Hart) (r : BitVec 6) (d : DWord) : Hart :=
  if r = 0 then h else { h with x := h.x.set r.toNat d r.isLt }

def Hart.setPc (h : Hart) (pc : DWord) : Hart := { h with pc := pc }

/-! ## Vector, mask, fibre registers -/

/-- Width of an element by EW code (R106). -/
def ewBits (ew : BitVec 2) : Nat := 8 * 2 ^ ew.toNat

/-- Size of a vector register in bits (R17). -/
def Hart.vbits (h : Hart) : Nat := 16384 / 2 ^ h.split.toNat

/-- The grant G(w) (R18). -/
def Hart.grant (h : Hart) (w : Nat) : Nat := h.vbits / w / (if h.prot then 2 else 1)

/-- Element e at width w (R6). -/
def VReg.elt (r : VReg) (w e : Nat) : Nat := r.bits.toNat / 2 ^ (e * w) % 2 ^ w

/-- The bytes that element e at width w lies in. -/
def eltBytes (w e : Nat) : List Nat := if w < 8 then [e * w / 8] else (List.range (w / 8)).map (· + e * (w / 8))

/-- An element is poisoned when any of its bytes is (R155). -/
def VReg.eltPsn (r : VReg) (w e : Nat) : Bool := (eltBytes w e).any fun i => r.psn.getLsbD i

/-- Replaces bits [lo + w - 1 : lo]. -/
def setBits {n : Nat} (b : BitVec n) (lo w v : Nat) : BitVec n :=
  (b &&& ~~~(BitVec.ofNat n (2 ^ w - 1) <<< lo)) ||| (BitVec.ofNat n (v % 2 ^ w) <<< lo)

def setBit {n : Nat} (b : BitVec n) (i : Nat) (v : Bool) : BitVec n := setBits b i 1 v.toNat

/-- Writes the bytes of element e, each with its tag (R155). -/
def VReg.setBytes (r : VReg) (w e : Nat) (bs : List (Byte × Bool)) : VReg :=
  { bits := setBits r.bits (e * w) w (leNat (bs.map (·.1)))
    psn := ((eltBytes w e).zip bs).foldl (fun t x => setBit t x.1 x.2.2) r.psn }

/-- The bytes of element e, each with its tag. -/
def VReg.bytesAt (r : VReg) (w e : Nat) : List (Byte × Bool) :=
  (leBytes (w / 8) (r.elt w e)).zip ((eltBytes w e).map fun i => r.psn.getLsbD i)

/-- Writes element e; its tags become `p` (R155). -/
def VReg.setElt (r : VReg) (w e v : Nat) (p : Bool) : VReg :=
  { bits := setBits r.bits (e * w) w v
    psn := (eltBytes w e).foldl (fun t i => setBit t i p) r.psn }

def Hart.getV (h : Hart) (r : BitVec 5) : VReg := h.v.get r.toFin
def Hart.getM (h : Hart) (r : BitVec 3) : BitVec 2048 := h.m.get r.toFin
def Hart.getF (h : Hart) (r : BitVec 4) : List Pair := h.f.get r.toFin
def Hart.getQ (h : Hart) (r : BitVec 3) : Option Binding := h.q.get r.toFin

/-- A write of a register sets its dirty bit, and in supervisor mode its live bit (R117). -/
def Hart.dirty (h : Hart) (bit : Nat) : Hart :=
  { h with vdirty := setBit h.vdirty bit true
           vlive := if h.status.prv then setBit h.vlive bit true else h.vlive }

def Hart.setV (h : Hart) (r : BitVec 5) (x : VReg) : Hart := { h with v := h.v.set r.toNat x r.isLt }
def Hart.setM (h : Hart) (r : BitVec 3) (x : BitVec 2048) : Hart := { h with m := h.m.set r.toNat x r.isLt }
def Hart.setF (h : Hart) (r : BitVec 4) (x : List Pair) : Hart := { h with f := h.f.set r.toNat x r.isLt }
def Hart.setQ (h : Hart) (r : BitVec 3) (x : Option Binding) : Hart := { h with q := h.q.set r.toNat x r.isLt }

/-! ## Time and events -/

/-- evt.TIME (R108). -/
def State.timeUp (s : State) (h : Hart) : Bool := h.tcmp.toNat ≤ s.tstamp.toNat

/-- An interrupt is pending: one whose entry has been taken is so no longer (R108, R115; log entry 88). -/
def Hart.intPending (h : Hart) : Bool := h.preempt.isSome || !h.async.isEmpty || h.note.isSome

/-- `evt` (R108). -/
def State.evtOf (s : State) (h : Hart) : BitVec 6 :=
  BitVec.ofNat 6 (h.intPending.toNat + 2 * h.evtCpy.toNat + 4 * h.evtMsg.toNat + 8 * h.evtChld.toNat + 16 * h.evtBar.toNat +
    32 * (s.timeUp h).toNat)

/-! ## Error log (R369) -/

/-- `hartid` (R108). -/
def Hart.hartid (h : Hart) : Nat := h.id.core * 2 ^ 17 + h.id.part * 2 ^ 14 + h.id.slot * 2 ^ 12 + h.gh

/-- Adds a record under the next sequence number; the newest 1,024 stay. -/
def State.logErr (s : State) (r : LogRec) : State :=
  let n := s.logSeq + 1
  { s with logSeq := n, log := ({ r with seq := n, ts := s.tstamp } :: s.log).take 1024 }

/-- Sets an ALARM bit (R394). -/
def State.raiseAlarm (s : State) (b : Nat) : State := { s with firm := { s.firm with alarm := setBit s.firm.alarm b true } }

/-! ## Tasks, counters and trace records -/

/-- Identifier of the hart's own task (R300). -/
def State.taskOf (s : State) (h : Hart) : Nat := match s.gangOf h.gang with | some g => g.node | none => 0

def State.node (s : State) (id : Nat) : Option Node := s.nodes.find? (·.id == id)

def State.mapNode (s : State) (id : Nat) (f : Node → Node) : State :=
  { s with nodes := s.nodes.map fun n => if n.id = id then f n else n }

/-- The gang that a partition holds (R15). -/
def State.gangAt (s : State) (core part : Nat) : Option Gang := s.gangs.find? fun g => g.core == core && g.parts.contains part

/-- Adds `n` to every accumulator that counts event `ev` now (R381). -/
def PartCtr.add (c : PartCtr) (evs : List Nat) (ev n : Nat) : PartCtr :=
  (List.range 16).foldl (fun c k =>
    let alt := c.alt.getLsbD k
    let e := evs.getD (2 * k + alt.toNat) 0
    let i := k + 16 * alt.toNat
    if e = ev ∧ e ≠ 0 then { c with acc := c.acc.setIfInBounds i ((c.acc.toArray.getD i 0) + BitVec.ofNat 64 n) } else c) c

/-- A multiplexed counter counts the event of the window it is in (R381). -/
def PartCtr.switch (c : PartCtr) (evs : List Nat) (n clk : Nat) : PartCtr :=
  if evs.getD (2 * n + 1) 0 = 0 ∨ 16 ≤ n then c else { c with alt := setBit c.alt n ((clk - c.start) / 65536 % 2 == 1) }

/-- Clk among the first `x` that lie in EVP windows. -/
def evpClks (x : Nat) : Nat := x / 131072 * 65536 + min (x % 131072) 65536

/-- `n` clk pass from clk `t` on: event 0x01 counts each in its window, and the counters end in the window of clk `t + n` (R381). -/
def PartCtr.clks (c : PartCtr) (evs : List Nat) (t n : Nat) : PartCtr :=
  let evp := evpClks (t + n - c.start) - evpClks (t - c.start)
  (List.range 16).foldl (fun c k =>
    let up := fun (c : PartCtr) i x => { c with acc := c.acc.setIfInBounds i ((c.acc.toArray.getD i 0) + BitVec.ofNat 64 x) }
    let mux := evs.getD (2 * k + 1) 0 ≠ 0
    let c := if evs.getD (2 * k) 0 = 1 then up c k (if mux then evp else n) else c
    let c := if evs.getD (2 * k + 1) 0 = 1 then up c (k + 16) (n - evp) else c
    c.switch evs k (t + n)) c

/-- `n` events of kind `ev` occur on a partition (R381). -/
def State.count (s : State) (core part ev n : Nat) : State :=
  match s.gangAt core part with
  | none => s
  | some g => { s with ctrs := s.ctrs.map fun c => if c.core = core ∧ c.part = part then c.add g.tcb.ev ev n else c }

/-- The same on every partition: device-wide events. -/
def State.countAll (s : State) (ev n : Nat) : State :=
  { s with ctrs := s.ctrs.map fun c => match s.gangAt c.core c.part with | some g => c.add g.tcb.ev ev n | none => c }

/-- `n` clk pass for the counters of every partition. -/
def State.countClks (s : State) (n : Nat) : State :=
  let one := fun (c : PartCtr) => match s.gangAt c.core c.part with | some g => c.clks g.tcb.ev s.clk n | none => c
  { s with ctrs := s.ctrs.map one }

/-- What is known of the drops of a record's buffer. -/
def State.dropsOf (s : State) (r : TraceRec) : TraceDrop :=
  match s.drops.find? fun d => d.asn == r.asn && d.buf == r.tcb.buf with | some d => d | none => { asn := r.asn, buf := r.tcb.buf }

def State.setDrops (s : State) (d : TraceDrop) : State :=
  { s with drops := d :: s.drops.filter fun e => e.asn != d.asn || e.buf != d.buf }

/-- One drop of a record (R388); interrupt 0x03 goes to the hart that the record names, which a saved one takes when its team is back. -/
def State.dropRec (s : State) (r : TraceRec) : State :=
  let d := s.dropsOf r
  let d := { d with since := d.since + 1, owed := d.owed + 1, drop := d.drop + 1 }
  let s := (s.setDrops d).countAll 0x0E 1
  match r.hart with
  | none => s
  | some id =>
    let s := s.mapHarts (fun h => h.live && h.id == id && h.asn == r.asn && s.taskOf h == r.task) fun h => { h with note := some d.drop }
    let told := fun (g : SavedGang) => if g.gang.node == r.task && g.gang.asn == r.asn then
        { g with harts := g.harts.map fun h => if h.id == id then { h with note := some d.drop } else h } else g
    { s with saved := s.saved.map told }

/-- A record waits for the trace engine, or is dropped when the queue is full (R389). -/
def State.queueRec (s : State) (r : TraceRec) : State :=
  if r.tcb.buf = 0 then s
  else if Config.traceQueueDepth ≤ s.trace.length then s.dropRec r else { s with trace := s.trace ++ [r] }

/-- A record of a task (R378). -/
def State.recOf (s : State) (tcb : Tcb) (node : Nat) (hart : Option Hart) (type eng : Nat) (data : DWord) : TraceRec :=
  let n := match s.node node with | some n => n | none => { id := node }
  { asn := n.asn, tcb := tcb, type := type, eng := eng, queue := n.queue.getD 0, task := node,
    cseq := n.cseq.toNat % 2 ^ 32, hart := hart.map (·.id),
    hartid := match hart with | some h => h.hartid | none => 0xFFFFFF, ts := s.tstamp, data := data }

/-- It comes about. -/
def State.emit (s : State) (tcb : Tcb) (node : Nat) (hart : Option Hart) (type eng : Nat) (data : DWord) : State :=
  s.queueRec (s.recOf tcb node hart type eng data)

/-- The mixing steps of R82 on 64 bits; the checksum of R390 sums their whole output. -/
def mix64 (z : DWord) : DWord :=
  let z := (z ^^^ (z >>> 30)) * 0xBF58476D1CE4E5B9#64
  let z := (z ^^^ (z >>> 27)) * 0x94D049BB133111EB#64
  z ^^^ (z >>> 31)

/-- Bytes written by a task to global memory enter its checksum (R390). -/
def State.checksum (s : State) (task : Nat) (va : DWord) (bs : List Byte) : State :=
  s.mapNode task fun n => { n with
    chk := ((List.range bs.length).map fun i =>
      mix64 (va + BitVec.ofNat 64 i + (bs.getD i 0).setWidth 64 <<< 57)).foldl (· + ·) n.chk }

/-! ## Traps -/

/-- A trap on its way: cause code, `tval`, the element it stopped at when it is restartable, and whether a trap before effect leaves
`ves` and `vcm` (R197). -/
structure Trap where
  kind : Kind
  code : Nat
  tval : DWord
  idx : Nat := 0
  keep : Bool := false
  deriving DecidableEq, Repr

/-- What was fetched is not the whole element. -/
def Fetched.faulty : Fetched → Bool
  | .fault _ _ | .fibre _ _ _ (some _) | .again => true
  | _ => false

/-- A fault of the stream is raised: its faulted elements are fetched again when a pop next needs them (R222). -/
def Binding.deferFaults (b : Binding) : Binding :=
  { b with held := b.held.map fun x => if x.2.faulty then (x.1, .again) else x }

/-- A pop needs positions lo to hi − 1. -/
def Binding.wants (b : Binding) (lo hi : Nat) : Binding :=
  { b with held := b.held.filter fun x => !(lo ≤ x.1 && x.1 < hi && x.2 == .again) }

/-- The marks of raised faults in `c` stand in `b` too. -/
def Binding.marks (b c : Binding) : Binding :=
  { b with held := b.held.map fun x => if c.held.contains (x.1, .again) then (x.1, .again) else x }

/-- Taking a trap or an interrupt (R112). What was fetched ahead with another privilege is fetched again (R58). -/
def Hart.enter (h : Hart) (int : Bool) (acode code : Nat) (tval epc : DWord) : Hart :=
  { h with
    epc := epc &&& 0x01FFFFFFFFFFFFFC#64
    cause := { int := int, acode := BitVec.ofNat 8 acode, code := BitVec.ofNat 8 code }
    tval := tval
    status := { nest := h.status.nest || h.status.prv, pprv := h.status.prv, pie := h.status.ie, prv := true, ie := false }
    park := none
    fromEret := false
    brkSkip := false
    resumed := false
    hand := none
    queued := none
    stall := 0
    early := []
    ahead := if h.status.prv then h.ahead else []
    pc := h.tvec }

/-- The return from a trap (R102). What was loaded early or fetched ahead with another privilege is no longer good (R58, R135). -/
def Hart.leave (h : Hart) : Hart :=
  { h with
    pc := h.epc
    status := { h.status with prv := h.status.pprv, ie := h.status.pie, pprv := false, pie := false }
    early := []
    ahead := if h.status.prv = h.status.pprv then h.ahead else []
    fromEret := true
    brkSkip := true }

/-- An interrupt pending for the hart can be taken (R115). -/
def Hart.takeable (h : Hart) : Bool := h.intPending && (!h.status.prv || h.status.ie)

/-- A request taken at a parked barrier instruction whose arrival stands sets `ves` so that only the wait is left (R203). -/
def Hart.parkVes (h : Hart) : Hart :=
  match h.park with
  | some (.wait _ _ (some _) _) => { h with ves := { rst := true, cm := 0, idx := 1 }, vcm := setBit h.vcm 0 true }
  | _ => h

/-- Takes the pending interrupt of lowest number with `epc` as given (R115); the save window is lent with interrupt 0x01
(R324). -/
def Hart.interrupt (h : Hart) (epc : DWord) : Hart :=
  let h := h.parkVes
  match h.preempt, h.async, h.note with
  | some d, _, _ => { h with preempt := none, sv := if h.sv = SaveSt.asked then SaveSt.lent else h.sv }.enter true 0 1 d epc
  | none, (c, v) :: l, _ => { h with async := l }.enter true c.toNat 2 v epc
  | none, [], some v => { h with note := none }.enter true 0 3 v epc
  | none, [], none => h

end Sys2Proof.Machine
end

