-- ==== Sys2Proof/Machine/Mem.lean ====
section
/-! DEFINITION. Translation (R132 to R135), the sealed memory behind it (R358 to R367), writes on their way to memory and loads that
perform early (R141 to R150). -/

namespace Sys2Proof.Machine

/-! ## Physical memory -/

def hbmSize : Nat := 384 * 2 ^ 30
def sramSize : Nat := 128 * 2 ^ 20

/-- The populated range that holds all of `[pa, pa + n)` (R134). -/
def State.rangeOf (s : State) (pa n : Nat) : Option PhysRange :=
  s.man.ranges.find? fun r => r.base ≤ pa && pa + n ≤ r.base + r.size

def State.populated (s : State) (pa n : Nat) : Bool := (s.rangeOf pa n).isSome

/-- The device-shared SRAM (R363). -/
def State.isSram (s : State) (pa : Nat) : Bool := match s.rangeOf pa 1 with | some r => r.sram | none => false

/-- The stored bytes as the device reads them, without checks: table walks (R134). -/
def State.rawRead (s : State) (pa n : Nat) : Nat := leNat (cellsRead s.mem pa n)

def State.region (s : State) (r : Nat) : Region :=
  match s.regions.find? (·.idx == r) with | some x => x | none => { idx := r }

/-- Replaces a region's entry; a region at its reset values is not listed (R398). -/
def State.setRegion (s : State) (x : Region) : State :=
  let l := s.regions.filter (·.idx != x.idx)
  { s with regions := if x = { idx := x.idx } then l else (l.filter fun y => y.idx < x.idx) ++ x :: l.filter fun y => x.idx < y.idx }

def Region.minOf (r : Region) (k : Nat) : Nat := r.mins.getD k 0

/-- A write of sector `k` of the region counts in MIN, and a MIN that would wrap moves MAJ on (R361). -/
def Region.count (r : Region) (k : Nat) : Region :=
  if r.minOf k = 127 then { r with maj := r.maj + 1, mins := [] }
  else { r with mins := (List.range 64).map fun i => if i = k then r.minOf k + 1 else r.minOf i }

/-- Who makes an access: the hart or team that an error is reported to, its address space, core and privilege, the causes that a
poisoned sector and a failing one raise there (CAUSE of R369; zero where nothing is raised), and whether the checksum of the task takes in
what it writes (R390). -/
structure Who where
  hart : Option HartId := none
  core : Nat := 0
  asn : Nat := 0
  prv : Bool := false
  task : Nat := 0
  psnCause : Nat := 0
  intCause : Nat := 0
  sum : Bool := true
  deriving DecidableEq, Repr

def State.hartidOf (s : State) (w : Who) : DWord :=
  match w.hart with
  | none => BitVec.allOnes 64
  | some id => match s.hartAt id with | some h => BitVec.ofNat 64 h.hartid | none => BitVec.allOnes 64

/-- A record of an error met at a physical address. -/
def State.logAt (s : State) (w : Who) (kind cause loc pa va key synd : Nat) : State :=
  s.logErr { seq := 0, kind := kind, cause := cause, loc := loc, pa := pa, va := va, asn := w.asn, key := key, task := w.task,
             hart := s.hartidOf w, synd := synd }

/-- The same where the manual gives the event no location: LOC is one of its codes (log entry 5). -/
def State.logOpen (s : State) (w : Who) (kind cause pa va key synd : Nat) : State :=
  let (v, s) := s.takeFree
  s.logAt w kind cause (v % 12) pa va key synd

/-- Quarantines the 64 KiB frame and logs it; an integrity violation alarms the host (R364, R365). -/
def State.quarantine (s : State) (w : Who) (kind pa va key : Nat) : State :=
  let s := { s with quar := natInsert s.quar (pa / 65536) }.logAt w kind w.intCause 0 pa va key 0
  if kind = 3 then s.raiseAlarm 0 else s

/-- Every sector of a region becomes poison, under a fresh MAJ (R367). -/
def State.poisonRegion (s : State) (w : Who) (r key va cause : Nat) : State :=
  let x := s.region r
  let e : EccErr := (s.eccMeta.find? (·.word == r)).getD { word := r, synd := 0 }
  let s := s.setRegion { idx := r, kidx := key, maj := x.maj + 1 }
  let s := { s with psn := (List.range 64).foldl (fun l i => natInsert l (64 * r + i)) s.psn, badMeta := natErase s.badMeta r,
                    badTag := s.badTag.filter (· / 64 != r), tagXor := s.tagXor.filter (·.1 / 64 != r),
                    raw := s.raw.filter fun c => c.1 / 4096 != r, eccMeta := s.eccMeta.filter fun e => e.word != r,
                    ecc := s.ecc.filter fun e => e.word / 4096 != r, eccTag := s.eccTag.filter fun e => e.word / 64 != r }
  s.logAt w 4 cause (e.loc.getD 0) (4096 * r) va key e.synd.toNat

/-- The first write through a leaf with another key re-keys the region: every byte zero (R362, R363). -/
def State.rekey (s : State) (r key : Nat) : State :=
  let x := s.region r
  let s := s.setRegion { idx := r, kidx := key, maj := x.maj + 1 }
  { s with mem := cellsClear s.mem (4096 * r) 4096, psn := s.psn.filter (· / 64 != r), badTag := s.badTag.filter (· / 64 != r),
           tagXor := s.tagXor.filter (·.1 / 64 != r), raw := s.raw.filter fun c => c.1 / 4096 != r,
           ecc := s.ecc.filter fun e => e.word / 4096 != r, eccTag := s.eccTag.filter fun e => e.word / 64 != r }

/-- The tag of a sealed sector fails: it was corrupted, or the host wrote the sector raw (R364, R371). -/
def State.tagFails (s : State) (sec : Nat) : Bool :=
  s.badTag.contains sec || (s.tagXor.any fun x => x.1 == sec && x.2 != 0) || s.raw.any fun c => c.1 / 64 == sec

/-- An access that needs a counter line corrects an error in it, and logs it (R364, R371). -/
def State.fetchCtr (s : State) (w : Who) (r key va : Nat) : State :=
  match s.eccMeta.find? fun e => e.word == r && !e.lost with
  | some e => { s with eccMeta := s.eccMeta.filter (·.word != r) }.logAt w 1 0 (e.loc.getD 0) (4096 * r) va key e.synd.toNat
  | none => s

/-- What the read of a sector gives (R364). -/
inductive SecRes where
  | data | zeros | poison | integrity
  deriving DecidableEq, Repr

/-- Errors in the check bits of the words of a sector, and of its tag. -/
def State.eccOf (s : State) (sec : Nat) : List EccErr := s.ecc.filter fun e => e.word / 64 == sec
def State.tagErr (s : State) (sec : Nat) : Option EccErr := s.eccTag.find? (·.word == sec)

/-- A sector reads as uncorrectable: stored as poison, or with a word or a tag that ECC cannot correct (R364, R366). -/
def State.isLost (s : State) (sec : Nat) : Bool :=
  s.psn.contains sec || (s.eccOf sec).any (·.lost) || match s.tagErr sec with | some e => e.lost | none => false

/-- The syndrome of a word of a sector: in a sector stored as poison the check bits of every word are complemented (R366). -/
def State.wordSynd (s : State) (sec i : Nat) : Nat :=
  (if s.psn.contains sec then 0xFF else 0) ^^^ match (s.eccOf sec).find? (·.word == 64 * sec + 8 * i) with | some e => e.synd.toNat | none => 0

/-- SYND of a sector with errors: that of the first word that fails, and of the tag (R369). -/
def State.secSynd (s : State) (sec : Nat) : Nat :=
  (((List.range 8).map (s.wordSynd sec)).find? (· != 0)).getD 0 + 256 * match s.tagErr sec with | some e => e.synd.toNat | none => 0

/-- LOC of a sector with errors: where the first of them arose, else the storage (R369). -/
def State.secLoc (s : State) (sec loc : Nat) : Nat :=
  match (((List.range 8).filterMap fun i => (s.eccOf sec).find? (·.word == 64 * sec + 8 * i)) ++ (s.tagErr sec).toList).head? with
  | some e => e.loc.getD loc
  | none => loc

/-- A sector has no errors of its own any more. -/
def State.eccClean (s : State) (sec : Nat) : State :=
  { s with ecc := s.ecc.filter fun e => e.word / 64 != sec, eccTag := s.eccTag.filter fun e => e.word != sec }

/-- Errors that ECC corrects in a sector are logged, and the sector is clean again (R364). -/
def State.correct (s : State) (w : Who) (sec loc key va : Nat) : State :=
  if (s.eccOf sec).isEmpty && (s.tagErr sec).isNone then s
  else (s.eccClean sec).logAt w 1 0 (s.secLoc sec loc) (64 * sec) va key (s.secSynd sec)

/-- The record of an uncorrectable sector (R364, R369). -/
def State.logLost (s : State) (w : Who) (cause sec loc key va : Nat) : State :=
  s.logAt w 2 cause (s.secLoc sec loc) (64 * sec) va key (s.secSynd sec)

/-- The read of one sector through a leaf with key index `key` (R362, R363, R364, R365, R367). -/
def State.readSector (s : State) (w : Who) (sec key va : Nat) : SecRes × State :=
  let pa := 64 * sec
  let r := sec / 64
  if s.isSram pa then
    if (s.region r).kidx != key then (.zeros, s)
    else if s.isLost sec then (.poison, s.logLost w w.psnCause sec 1 key va)
    else (.data, s.correct w sec 1 key va)
  else if s.quar.contains (sec / 1024) then (.integrity, s)
  else if s.isLost sec then (.poison, s.logLost w w.psnCause sec 0 key va)
  else
    let s := (s.correct w sec 0 key va).fetchCtr w r key va
    if s.badMeta.contains r then (.poison, s.poisonRegion w r key va w.psnCause)
    else if s.badTree.contains r then (.integrity, s.quarantine w 5 pa va key)
    else if (s.region r).kidx != key then (.zeros, s)
    else if key != 0 && s.tagFails sec then (.integrity, s.quarantine w 3 pa va key)
    else (.data, s)

/-- Who an asynchronous error goes to (R115, R367): the hart whose access or command caused it, saved or not; when that hart has ended,
another of its team (log entry 70). -/
def State.ownHart (s : State) (w : Who) (h : Hart) : Bool := h.live && w.hart == some h.id && s.taskOf h == w.task
def State.teamHart (s : State) (w : Who) (h : Hart) : Bool :=
  h.live && h.id.core == w.core && s.taskOf h == w.task && w.task != 0
def SavedGang.ofTeam (g : SavedGang) (w : Who) : Bool := g.gang.node == w.task && g.gang.core == w.core

/-- The cause that is posted for an error, or 0 where nobody is left to post it to (CAUSE of R369). -/
def State.postCause (s : State) (w : Who) (code : Nat) : Nat :=
  if s.allHarts.any (s.ownHart w) || s.saved.any (·.ofTeam w) || s.allHarts.any (s.teamHart w) then code else 0

/-- Posts an asynchronous error to them. -/
def State.post (s : State) (w : Who) (code : Nat) (tval : DWord) : State :=
  let own := s.ownHart w
  let team := s.teamHart w
  let add := fun (h : Hart) => { h with async := h.async ++ [(BitVec.ofNat 8 code, tval)] }
  if s.allHarts.any own then s.mapHarts own add
  else if s.saved.any (·.ofTeam w) then
    { s with saved := s.saved.map fun g =>
        if g.ofTeam w then { g with harts := g.harts.map fun h => if w.hart == some h.id || w.hart.isNone then add h else h } else g }
  else match s.allHarts.find? team with
    | some h => s.mapHarts (fun g => team g && g.id == h.id) add
    | none => s

/-- Stores bytes of one sector and settles its poison and check bits (R366). -/
def State.storeSector (s : State) (pa : Nat) (bs : List Byte) (p : Bool) : State :=
  let sec := pa / 64
  let whole := bs.length = 64
  let was := s.isLost sec
  let other := (List.range bs.length).filter fun i => (p && !was) || cellsGet s.mem (pa + i) != bs.getD i 0
  { s with
    mem := cellsWrite s.mem pa bs
    changed := s.changed ++ other.map fun i => (.glob, pa + i)
    psn := if p then natInsert s.psn sec else if whole then natErase s.psn sec else if was then natInsert s.psn sec else s.psn
    badTag := natErase s.badTag sec
    tagXor := s.tagXor.filter (·.1 != sec)
    raw := s.raw.filter fun c => c.1 / 64 != sec
    ecc := s.ecc.filter fun e => e.word / 64 != sec
    eccTag := s.eccTag.filter fun e => e.word != sec }

/-- The write of bytes of one sector through a leaf with key index `key` (R361 to R367). -/
def State.writeSector (s : State) (w : Who) (pa key : Nat) (va : DWord) (bs : List Byte) (p : Bool) : State :=
  let sec := pa / 64
  let r := pa / 4096
  if s.isSram pa then
    let s := if (s.region r).kidx != key then s.rekey r key else s
    let s := if bs.length = 64 then s
      else if s.isLost sec then s.logLost w 0 sec 1 key va.toNat
      else s.correct w sec 1 key va.toNat
    s.storeSector pa bs p
  else if s.quar.contains (pa / 65536) then s.logAt w 0xA 0 0 pa va.toNat key 0
  else if s.badMeta.contains r then (s.poisonRegion w r key va.toNat (s.postCause w 0x45)).post w 0x45 (BitVec.ofNat 64 (4096 * r))
  else if s.badTree.contains r then (s.quarantine { w with intCause := s.postCause w 0x44 } 5 pa va.toNat key).post w 0x44 va
  else
    let s := s.fetchCtr w r key va.toNat
    let s := if (s.region r).kidx != key then s.rekey r key else s
    -- the old contents that a partial write merges with are read as R364 has it
    let part := bs.length != 64
    if part && key != 0 && !s.isLost sec && s.tagFails sec then
      (s.quarantine { w with intCause := s.postCause w 0x44 } 3 pa va.toNat key).post w 0x44 va
    else
      let s := if !part then s
        else if s.isLost sec then s.logLost w 0 sec 0 key va.toNat
        else s.correct w sec 0 key va.toNat
      let s := s.storeSector pa bs p
      if key != 0 then s.setRegion ((s.region r).count (sec % 64)) else s

/-! ## Translation -/

/-- Index of a virtual address at a level (table of R131). -/
def vaIndex (va lvl : Nat) : Nat := if lvl = 0 then va / 2 ^ 16 % 32 else va / 2 ^ (12 + 9 * lvl) % 512

/-- Size of a leaf page by level. -/
def leafSize (lvl : Nat) : Nat := if lvl = 0 then 2 ^ 16 else 2 ^ (12 + 9 * lvl)

def pteV (p : Nat) : Bool := flag p 0
def pteLeaf (p : Nat) : Bool := flag p 1
def pteNext (p : Nat) : Nat := bits p 8 40 * 2 ^ 8
def leafKey (p : Nat) : Nat := bits p 48 8
def leafFrame (p : Nat) : Nat := bits p 16 32 * 2 ^ 16
def leafSnp (p : Nat) : Nat := bits p 9 2

/-- A malformed entry counts as not valid (R134). -/
def State.malformed (s : State) (p lvl : Nat) : Bool :=
  if pteLeaf p then
    bits p 56 8 != 0 || bits p 14 2 != 0 || 3 ≤ lvl || leafFrame p % leafSize lvl != 0 || 2 < bits p 11 3 || leafSnp p == 3 ||
      !s.populated (leafFrame p) (leafSize lvl)
  else bits p 48 16 != 0 || bits p 2 6 != 0 || lvl == 0 || (lvl != 1 && bits p 8 4 != 0)

/-- Why an access cannot be made. -/
inductive Denied where
  /-- a cause of R135 -/
  | cause (c : Nat)
  /-- the block is being copied (R135 item 4, R347) -/
  | wait
  deriving DecidableEq, Repr

/-- Who reads and writes table entries: hardware, for an access (R133, R134). -/
def Who.walker (w : Who) : Who := { w with hart := none, task := 0, psnCause := 0x40, intCause := 0x44 }

/-- A table entry as the walker reads it: a sector under the key index of its region, with the checks of every read (R134, R364, R365;
log entry 71). -/
def State.readEntry (s : State) (w : Who) (pte va : Nat) : Except Denied Nat × State :=
  match s.readSector w.walker (pte / 64) (s.region (pte / 4096)).kidx va with
  | (.data, s) | (.zeros, s) => (.ok (s.rawRead pte 8), s)
  | (.poison, s) => (.error (.cause 0x40), s)
  | (.integrity, s) => (.error (.cause 0x44), s)

/-- Hardware writes a table entry: a write of its sector as any other (R133, R361, R365). -/
def State.writeEntry (s : State) (w : Who) (pte va v : Nat) : State :=
  s.writeSector w.walker pte (s.region (pte / 4096)).kidx (BitVec.ofNat 64 va) (leBytes 8 v) false

/-- The walk through the levels given, from the table at `t`: the entry, its address and the page size. -/
def State.walk (s : State) (w : Who) (va : Nat) : List Nat → Nat → Except Denied (Nat × Nat × Nat) × State
  | [], _ => (.error (.cause 0x20), s)
  | lvl :: ls, t =>
    let at_ := t + 8 * vaIndex va lvl
    match s.readEntry w at_ va with
    | (.error d, s) => (.error d, s)
    | (.ok p, s) =>
      if !pteV p || s.malformed p lvl then (.error (.cause 0x20), s)
      else if pteLeaf p then (.ok (p, at_, leafSize lvl), s)
      else s.walk w va ls (pteNext p)

def State.spaceOf (s : State) (asn : Nat) : Option AddrSpace := s.spaces.find? (·.asn == asn)

/-- The translation of an address: from a translation cache, else from a walk that fills it (R131, R134). -/
def State.lookup (s : State) (w : Who) (va : Nat) : Except Denied TlbEntry × State :=
  match s.tlb.find? fun e => e.core == w.core && e.asn == w.asn && e.va ≤ va && va < e.va + e.size with
  | some e => (.ok e, s)
  | none =>
    match s.spaceOf w.asn with
    | none => (.error (.cause 0x20), s)
    | some sp =>
      match s.walk w va [4, 3, 2, 1, 0] sp.root with
      | (.error d, s) => (.error d, s)
      | (.ok (p, at_, size), s) =>
        let e := { core := w.core, asn := w.asn, va := va / size * size, size := size, leaf := BitVec.ofNat 64 p, pte := at_ : TlbEntry }
        (.ok e, { s with tlb := s.tlb ++ [e] })

/-- Kinds of access for the checks of R135. -/
inductive Acc where
  | read | write | rmw | fetch
  deriving DecidableEq, Repr

def Acc.writes : Acc → Bool
  | .write | .rmw => true | .read | .fetch => false

/-- The permission check of R135 items 2 and 3, and the ownership of the key (R359): 0 when it passes. -/
def permCause (p : Nat) (prv owns : Bool) (k : Acc) : Nat :=
  if flag p 6 && !prv then 0x25
  else if leafKey p != 0 && !owns then 0x25
  else match k with
    | .read => if flag p 2 then 0 else 0x21
    | .write => if flag p 3 then 0 else 0x22
    | .rmw => if !flag p 2 then 0x21 else if !flag p 3 then 0x22 else if flag p 5 then 0 else 0x24
    | .fetch => if flag p 4 then 0 else 0x23

/-! ## Jobs and their shared blocks (R341, R347, R348) -/

def State.job (s : State) (asn : Nat) : Job := match s.fab.jobs.find? (·.asn == asn) with | some j => j | none => { asn := asn }

def State.setJob (s : State) (j : Job) : State :=
  { s with fab := { s.fab with jobs := s.fab.jobs.filter (·.asn != j.asn) ++ [j] } }

/-- The snapshots that the device holds: the latest complete one and the one in progress. -/
def Job.snaps (j : Job) : List Snap := j.done.toList ++ j.prog.toList

def Job.mapSnaps (j : Job) (f : Snap → Snap) : Job := { j with done := j.done.map f, prog := j.prog.map f }

/-- Every frame that a snapshot of the job holds. -/
def Job.frames (j : Job) : List Nat := (j.snaps.flatMap fun x => x.copies.map (·.2)).dedup

/-- Frames of the armed pool that neither a snapshot nor a copy in flight uses. -/
def Job.freeFrames (j : Job) : List Nat :=
  match j.arm with
  | none => []
  | some a => ((List.range a.npool).map (· + a.pool / 65536)).filter fun f =>
      !j.frames.contains f && j.pending.all (·.frame != f)

/-- The snapshot still needs the contents of a block: it is shared and no copy of it exists. -/
def Snap.needs (x : Snap) (b : Nat) : Bool := x.shared.contains b && x.copies.all (·.1 != b)

def JobLeaf.has (l : JobLeaf) (b : Nat) : Bool := decide (l.pa / 65536 ≤ b) && decide (b < (l.pa + l.size) / 65536)

/-- SNP of an entry, in memory and in the translation caches. -/
def withSnp (p v : Nat) : Nat := p - leafSnp p * 2 ^ 9 + v * 2 ^ 9

def State.setSnp (s : State) (pte v : Nat) : State :=
  match s.readEntry { } pte 0 with
  | (.error _, s) => s
  | (.ok p, s) =>
    if !pteV p || !pteLeaf p then s
    else
      let tlb := s.tlb.map fun e => if e.pte = pte then { e with leaf := BitVec.ofNat 64 (withSnp e.leaf.toNat v) } else e
      let s := { s with tlb := tlb }
      if leafSnp p = v then s else s.writeEntry { } pte 0 (withSnp p v)

/-- Hardware keeps SNP of leaves of a job (R347). -/
def State.refreshSnp (s : State) (asn : Nat) (ls : List JobLeaf) : State :=
  let j := s.job asn
  ls.foldl (fun s l => s.setSnp l.pte
    (if j.pending.any fun c => l.has c.block then 2 else if j.snaps.any fun x => x.shared.any l.has then 1 else 0)) s

def Job.leaves (j : Job) : List JobLeaf := (j.snaps.flatMap (·.leaves)).dedup

/-- A block counts as changed from here on (R347). -/
def State.unshare (s : State) (asn b : Nat) : State :=
  let j := s.job asn
  (s.setJob (j.mapSnaps fun x => { x with shared := natErase x.shared b })).refreshSnp asn (j.leaves.filter (·.has b))

/-- A copy of a block into a frame of the pool begins: the block is pending (R347). -/
def State.startCopy (s : State) (asn b : Nat) (l : JobLeaf) : Option Denied × State :=
  let j := s.job asn
  match j.freeFrames with
  | [] => (some (.cause 0x26), s)
  | f :: _ =>
    (some .wait, (s.setJob { j with pending := j.pending ++ [{ block := b, frame := f, pte := l.pte, key := l.key }] }).setSnp l.pte 2)

/-- The write to a block that a snapshot shares (R135 item 4, R347): `none` when it proceeds. The first such write starts the
block's copy; a block that was copied while the snapshot sealed needs none. -/
def State.cowCheck (s : State) (asn leaf pte pa : Nat) : Option Denied × State :=
  let b := pa / 65536
  match s.fab.jobs.find? fun j => j.pending.any (·.block == b) || j.snaps.any fun x => x.shared.contains b with
  | some j =>
    if j.pending.any (·.block == b) then (some .wait, s)
    else if j.snaps.any (·.needs b) then
      match j.leaves.find? (·.has b) with
      | some l => s.startCopy j.asn b l
      | none => (none, s.unshare j.asn b)
    else (none, s.unshare j.asn b)
  | none =>
    if (s.job asn).leaves.any (·.has b) then (none, s)
    else if leafSnp leaf = 1 then s.startCopy asn b { pte := pte, va := 0, pa := leafFrame leaf, size := 65536, key := leafKey leaf }
    else if leafSnp leaf = 2 then (some .wait, s)
    else (none, s)

/-- The most recent snapshot of a job, whatever its state (R351). -/
def Job.recent (j : Job) : Option Snap := match j.prog with | some x => some x | none => j.last

/-- Every snapshot of the job is discarded: a write that may not fail found no frame (R348). What is reported of the most recent one
changes when it is among them. -/
def State.discardSnapshots (s : State) (asn : Nat) : State :=
  let j := s.job asn
  if j.snaps.isEmpty then s
  else
    let last := j.recent.map fun x =>
      if j.snaps.any (·.num == x.num) then { num := x.num, st := .failed, fcode := 2, nir := x.nir } else x
    (s.setJob { j with done := none, prog := none, pending := [], last := last }).refreshSnp asn j.leaves

/-- Copies a 64 KiB block, poison of its sectors and messages of its slots with it (R347). -/
def State.copyBlock (s : State) (src skey dst dkey : Nat) : State :=
  let s := (List.range 1024).foldl (fun s i =>
    let (r, s) := s.readSector { } (1024 * src + i) skey 0
    let bs := match r with | .data => cellsRead s.mem (64 * (1024 * src + i)) 64 | _ => List.replicate 64 0
    let p := match r with | .poison | .integrity => true | _ => false
    s.writeSector { } (64 * (1024 * dst + i)) dkey 0 bs p) s
  let own := s.fab.slots.filter fun x => x.pa / 65536 == src
  let rest := s.fab.slots.filter fun x => x.pa / 65536 != dst
  let moved := own.map fun x => { x with pa := x.pa - 65536 * src + 65536 * dst }
  { s with fab := { s.fab with slots := rest ++ moved } }

/-- A copy in flight ends: every snapshot that needs the block holds the frame, and the block is changed (R347). -/
def State.copyDone (s : State) (asn b : Nat) : State :=
  let j := s.job asn
  match j.pending.find? (·.block == b) with
  | none => s
  | some c =>
    let s := s.copyBlock b c.key c.frame (match j.arm with | some a => a.key | none => 0)
    let kept := j.mapSnaps fun x =>
      { x with shared := natErase x.shared b, copies := if x.needs b then x.copies ++ [(b, c.frame)] else x.copies }
    let j' := { kept with pending := j.pending.filter (·.block != b) }
    ((s.setJob j').setSnp c.pte 0).refreshSnp asn (j.leaves.filter (·.has b))

/-- Every copy in flight ends. -/
def State.allCopiesDone (s : State) : State :=
  s.fab.jobs.foldl (fun s j => j.pending.foldl (fun s c => s.copyDone j.asn c.block) s) s

/-- Sets ACC, and DRT before a write, in the entry in memory (R135), read as the walker reads it. An entry that was changed since, or
cannot be read, is left alone. -/
def State.setAccDrt (s : State) (e : TlbEntry) (wr : Bool) : State :=
  match s.readEntry { asn := e.asn } e.pte e.va with
  | (.error _, s) => s
  | (.ok p, s) =>
    let strip := fun x : Nat => x - bits x 7 4 * 2 ^ 7
    if strip p = strip e.leaf.toNat then
      let p' := p ||| (if wr then 0x180 else 0x80)
      if p' = p then s else s.writeEntry { asn := e.asn } e.pte e.va p'
    else s

/-- Translation and checks of one access that lies within a page (R118, R119, R134, R135): the leaf, physical address and key. -/
def State.find (s : State) (w : Who) (va : Nat) (k : Acc) : Except Denied (TlbEntry × Nat × Nat) × State :=
  if 2 ^ 57 ≤ va then (.error (.cause 0x20), s)
  else
    match s.lookup w va with
    | (.error d, s) => (.error d, s)
    | (.ok e, s) =>
      let p := e.leaf.toNat
      let owns := match s.spaceOf w.asn with | some sp => sp.keys.contains (leafKey p) | none => false
      match permCause p w.prv owns k with
      | 0 =>
        let pa := leafFrame p + va % e.size
        match (if k.writes then s.cowCheck w.asn p e.pte pa else (none, s)) with
        | (some d, s) => (.error d, s)
        | (none, s) => (.ok (e, pa, leafKey p), s)
      | c => (.error (.cause c), s)

/-- The same for an access of hardware, which sets ACC and DRT at once (R135). -/
def State.translate (s : State) (w : Who) (va : Nat) (k : Acc) : Except Denied (Nat × Nat) × State :=
  match s.find w va k with
  | (.error d, s) => (.error d, s)
  | (.ok (e, pa, key), s) => (.ok (pa, key), s.setAccDrt e k.writes)

/-- The same for a write of the epilogue, a delivery, a trace record or a completion record: with no frame free, the snapshots
are discarded and it proceeds (R348). -/
def State.translateHw (s : State) (w : Who) (va : Nat) : Except Denied (Nat × Nat) × State :=
  match s.translate w va .write with
  | (.error (.cause c), s) =>
    if c = 0x26 then (s.discardSnapshots w.asn).translate w va .write else (.error (.cause c), s)
  | r => r

/-- The same for a write that must come about in its step: copies in flight end first. -/
def State.translateNow (s : State) (w : Who) (va : Nat) : Except Denied (Nat × Nat) × State :=
  match s.translateHw w va with
  | (.error .wait, s) => s.allCopiesDone.translateHw w va
  | r => r

/-- A write of bytes of one sector through a key index would be dropped (R365, R367). -/
def State.dropsWrite (s : State) (pa key n : Nat) : Bool :=
  !s.isSram pa && (s.quar.contains (pa / 65536) || s.badMeta.contains (pa / 4096) || s.badTree.contains (pa / 4096) ||
    (n != 64 && key != 0 && (s.region (pa / 4096)).kidx == key && !s.isLost (pa / 64) && s.tagFails (pa / 64)))

/-! ## Reading and writing the spaces -/

/-- Cuts `[a, a + n)` at multiples of 64. -/
def pieces (a : Nat) : Nat → Nat → List (Nat × Nat)
  | 0, _ => []
  | fuel + 1, n => if n = 0 then [] else
    let k := min n (64 - a % 64)
    (a, k) :: pieces (a + k) fuel (n - k)

def piecesOf (a n : Nat) : List (Nat × Nat) := pieces a n n

def State.localOf (s : State) : Space → Local
  | .tcm g => match s.gangOf g with | some x => x.tcm | none => { }
  | .sp g => match s.gangOf g with | some x => x.sp | none => { }
  | .win => s.win
  | .glob | .void => { }

/-- A place of memory belongs to a receive buffer: to its record, to its slots, or to a slot that holds a message of it (R334). -/
def RxBuf.holds (r : RxBuf) (ms : List SlotMsg) (asn pa va : Nat) : Bool :=
  r.sec == pa / 64 || (r.asn == asn && decide (r.lo ≤ va) && decide (va < r.hi)) ||
    ms.any fun m => m.rx == r.sec && decide (m.pa ≤ pa) && decide (pa < m.pa + m.len)

def State.inRx (s : State) (asn pa va : Nat) : Bool := s.fab.rx.any (·.holds s.fab.slots asn pa va)

/-- An ordinary store reaches a receive buffer: its messages and its later behaviour are undefined (R334). -/
def State.spoil (s : State) (asn pa va : Nat) : State :=
  if s.inRx asn pa va then
    { s with fab := { s.fab with rx := s.fab.rx.map fun r => if r.holds s.fab.slots asn pa va then { r with bad := true } else r } }
  else s

/-- A pending write reaches local storage, in one move. -/
def PWrite.toLocal (p : PWrite) (m : Local) : Local :=
  if !p.skip.isEmpty then
    (List.range p.bytes.length).foldl (fun m i => if p.skip.contains i then m else localWrite m (p.addr + i) [p.bytes.getD i 0] p.psn) m
  else match p.hi with
  | none => localWrite m p.addr p.bytes p.psn
  | some q => localWrite (localWrite m p.addr (p.bytes.take 4) p.psn) (p.addr + 4) (p.bytes.drop 4) q

/-- The bytes of local storage that a write gives another value or poison. -/
def PWrite.changes (p : PWrite) (m : Local) : List (Space × Nat) :=
  ((List.range p.bytes.length).filter fun i =>
    !p.skip.contains i && (cellsGet m.cells (p.addr + i) != p.bytes.getD i 0 ||
      (p.psnAt ((p.addr + i) / 4 * 4) && !m.psn.contains ((p.addr + i) / 4)))).map fun i => (p.space, p.addr + i)

/-- A pending write performs (R141). -/
def State.apply (s : State) (w : Who) (p : PWrite) : State :=
  let note := fun (t : State) => { t with changed := t.changed ++ p.changes (s.localOf p.space) }
  match p.space with
  | .glob => ((s.spoil w.asn p.addr p.va.toNat).writeSector w p.addr p.key p.va p.bytes p.psn).checksum (if w.sum then w.task else 0) p.va p.bytes
  | .tcm g => note (s.mapGang g fun x => { x with tcm := p.toLocal x.tcm })
  | .sp g => note (s.mapGang g fun x => { x with sp := p.toLocal x.sp })
  | .win => note { s with win := p.toLocal s.win }
  | .void => s

def State.who (s : State) (h : Hart) : Who :=
  { hart := some h.id, core := h.id.core, asn := h.asn, prv := h.status.prv, task := s.taskOf h, psnCause := 0x40, intCause := 0x44 }

/-- A unit of poison (64 bytes of global memory, 4 bytes of local storage) as the older writes of the same class leave it
(R142). -/
def overlay (ws : List PWrite) (sp : Space) (base u : Nat) (img : List Byte × Bool) : List Byte × Bool :=
  ws.foldl (fun (bs, p) w =>
    if w.space != sp || w.addr + w.bytes.length ≤ base || base + u ≤ w.addr then (bs, p)
    else
      let bs' := (List.range u).map fun i =>
        if w.addr ≤ base + i && base + i < w.addr + w.bytes.length && !w.skip.contains (base + i - w.addr) then w.bytes.getD (base + i - w.addr) 0 else bs.getD i 0
      let whole := w.addr ≤ base && base + u ≤ w.addr + w.bytes.length && w.skip.isEmpty
      (bs', if w.psnAt base then true else if whole then false else p)) img

/-- Bytes of one sector of global memory as class `ws` of the hart sees it: data and poison, or the integrity outcome. -/
def State.loadPlain (s : State) (w : Who) (ws : List PWrite) (pa n key va : Nat) : Option (List (Byte × Bool)) × State :=
  let sec := pa / 64
  let cut := fun (img : List Byte × Bool) =>
    let (bs, p) := overlay ws .glob (64 * sec) 64 img
    (List.range n).map fun i => (bs.getD (pa % 64 + i) 0, p)
  match s.readSector w sec key va with
  | (.data, s) => (some (cut (cellsRead s.mem (64 * sec) 64, false)), s)
  | (.zeros, s) => (some (cut (List.replicate 64 0, false)), s)
  | (.poison, s) => (some (cut (leBytes 64 s.takeFree.1, true)), s.takeFree.2)
  | (.integrity, s) => (none, s)

/-- The same for an ordinary load, to which a receive buffer reads as open values (R334). -/
def State.loadSector (s : State) (w : Who) (ws : List PWrite) (pa n key va : Nat) : Option (List (Byte × Bool)) × State :=
  let (r, s) := s.loadPlain w ws pa n key va
  if s.inRx w.asn pa va then
    let (v, s) := s.takeFree
    (r.map fun l => (l.zip (leBytes n v)).map fun x => (x.2, x.1.2), s)
  else (r, s)

/-- Bytes of local storage at an offset, each with the poison of its word, under the pending writes `ws`. -/
def State.loadLocal (s : State) (ws : List PWrite) (sp : Space) (off n : Nat) : List (Byte × Bool) :=
  let m := s.localOf sp
  (List.range n).map fun i =>
    match localOff m.size (off + i) with
    | none => (0, false)
    | some o =>
      let b := o / 4 * 4
      let (bs, p) := overlay ws sp b 4 (cellsRead m.cells b 4, m.psn.contains (o / 4))
      (if p then Config.poisonByte s.free o else bs.getD (o % 4) 0, p)

/-- Writes of the hart on their way, of one class. -/
def Hart.pendingOf (h : Hart) (c : Cls) : List PWrite := h.stbuf.filter (·.cls == c)

/-- The TCM storage an address reaches (R118). -/
def Hart.tcmSpace (h : Hart) (va : DWord) : Space × Nat :=
  if h.status.prv && va.getLsbD 63 then (.win, h.id.core * 131072 + va.toNat % 131072) else (.tcm h.gang, va.toNat)

/-- The scratchpad storage an address reaches, and the offset in it (R182, R183). -/
def State.spSpace (s : State) (h : Hart) (va : DWord) : Space × Nat :=
  if va.getLsbD 63 then
    let g := bits va.toNat 32 16
    match s.gangOf h.gang with
    | none => (.void, 0)
    | some me =>
      match s.gangs.find? fun x => x.node == me.node && x.gidx == g with
      | some x => (.sp x.key, bits va.toNat 0 32)
      | none => (.void, 0)
  else (.sp h.gang, va.toNat)

/-- Offset of byte `i` of an access, which wraps in the save window as in an allocation. -/
def spaceOff (sp : Space) (off i : Nat) : Nat :=
  match sp with
  | .win => off / 131072 * 131072 + (off + i) % 131072
  | _ => off + i

/-- LOC of a space (R369). -/
def Space.loc : Space → Nat
  | .sp _ => 6
  | _ => 5

/-- A read of local words whose check bits were corrupted is logged, with the syndromes of the first two; a corrected word is clean
again (R184, R369, R371). -/
def State.readEcc (s : State) (w : Who) (sp : Space) (off n : Nat) : State :=
  let m := s.localOf sp
  let words := ((List.range n).filterMap fun i => (localOff m.size (spaceOff sp off i)).map (· / 4)).reverse.dedup.reverse
  let hit := fun (e : EccErr) => words.contains e.word
  match words.filterMap fun w => m.ecc.find? (·.word == w) with
  | [] => s
  | e :: es =>
    let p := (e :: es).any fun e => m.psn.contains e.word
    let synd := e.synd.toNat + 256 * (match es with | f :: _ => f.synd.toNat | [] => 0)
    let s := s.logAt w (if p then 2 else 1) (if p then w.psnCause else 0) (e.loc.getD sp.loc) 0 (4 * e.word) 0 synd
    let clean := fun (m : Local) => { m with ecc := m.ecc.filter fun e => !hit e || m.psn.contains e.word }
    match sp with
    | .tcm g => s.mapGang g fun x => { x with tcm := clean x.tcm }
    | .sp g => s.mapGang g fun x => { x with sp := clean x.sp }
    | .win => { s with win := clean s.win }
    | .glob | .void => s

/-! ## The interlock table (R139, R140) -/

/-- Two ranges of one space overlap. -/
def Lock.hits (l : Lock) (sp : Space) (lo hi : Nat) (write : Bool) : Bool :=
  l.space == sp && decide (l.lo < hi) && decide (lo < l.hi) && (l.write || write)

/-- The range that a TCM or scratchpad access with these offsets can touch: offsets wrap, so one that passes the end of the
allocation may touch all of it (R33, R139). -/
def wrapRange (size lo hi : Nat) : Nat × Nat :=
  let p := ceilPow2 size
  if p = 0 then (0, 0) else if lo / p = (hi - 1) / p && lo < hi then (lo % p, (hi - 1) % p + 1) else (0, p)

/-- Bytes `[lo, hi)` of a space as the interlock table numbers them. -/
def State.lockRange (s : State) (sp : Space) (lo hi : Nat) : Nat × Nat :=
  match sp with
  | .glob => (lo, hi)
  | .win => let c := lo / 131072 * 131072; let r := wrapRange 131072 (lo - c) (hi - c); (c + r.1, c + r.2)
  | sp => wrapRange (s.localOf sp).size lo hi

/-! ## Loads that perform before they issue (R122, R143, R207) -/

def EarlyRead.meets (e : EarlyRead) (c : Cls) (sp : Space) (locs : List Nat) : Bool :=
  e.cls == c && e.space == sp && locs.any fun a => decide (e.addr ≤ a) && decide (a < e.addr + e.bytes.length)

/-- The bytes of a local space that an access reaches. -/
def State.localLocs (s : State) (sp : Space) (off n : Nat) : List Nat :=
  (List.range n).filterMap fun i => localOff (s.localOf sp).size (spaceOff sp off i)

/-- A load of a hart that has not issued performs now: `n` bytes within one sector of global memory, or of the TCM (`loc` false) or
scratchpad (`loc` true). None does over a write of its class to one of its bytes that is on its way (R142), nor in the vector class over
bytes that an engine transfer will write (R140), nor one that meets an error. -/
def State.loadEarly (s : State) (id : HartId) (c : Cls) (va : DWord) (n : Nat) (loc : Option Bool) : State :=
  match s.hartAt id with
  | none => s
  | some h =>
    let keep := fun (s : State) sp a (l : List (Byte × Bool)) =>
      if l.any (·.2) || (h.pendingOf c).any fun w => w.space == sp && decide (w.addr < a + n) && decide (a < w.addr + w.bytes.length) then s
      else s.mapHarts (fun g => g.live && g.id == id) fun g =>
        { g with early := g.early.filter (fun e => !e.meets c sp ((List.range n).map (· + a))) ++
                            [{ cls := c, space := sp, addr := a, bytes := l }] }
    let locked := fun sp lo =>
      let r := s.lockRange sp lo (lo + n)
      c == .vector && h.arit.any fun l => l.hits sp r.1 r.2 false
    match loc with
    | none =>
      if 64 < va.toNat % 64 + n || locked .glob va.toNat then s
      else
        match s.translate (s.who h) va.toNat .read with
        | (.ok (pa, key), s) =>
          match s.loadSector (s.who h) [] pa n key va.toNat with
          | (some l, s) => keep s .glob pa l
          | (none, s) => s
        | (.error _, s) => s
    | some sp =>
      let (sp, off) := if sp then s.spSpace h va else h.tcmSpace va
      match s.localLocs sp off n with
      | [] => s
      | a :: l =>
        let whole := a :: l == (List.range n).map (· + a)
        if whole && !locked sp off && (s.localOf sp).ecc.all fun e => !(a :: l).any (· / 4 == e.word) then keep s sp a (s.loadLocal [] sp a n)
        else s

/-! ## Performing -/

def overlaps (a b : PWrite) : Bool :=
  a.space == b.space && decide (a.addr < b.addr + b.bytes.length) && decide (b.addr < a.addr + a.bytes.length)

/-- An engine transfer of an earlier strip interval has still to write: a vector-class write waits for it (R143). -/
def Hart.heldWrite (h : Hart) (w : PWrite) : Bool := w.cls == .vector && h.arit.any fun l => l.write && decide (l.strip < w.strip)

/-- A transfer may write: no vector-class write of an earlier strip interval is left, of the hart or of another transfer (R143). -/
def Hart.engineMay (h : Hart) (o : LockOwner) : Bool :=
  match h.arit.find? fun l => l.own == o && l.write with
  | none => true
  | some l => h.stbuf.all (fun w => w.cls != .vector || decide (l.strip ≤ w.strip)) &&
      h.arit.all fun k => k.own == o || !k.write || decide (l.strip ≤ k.strip)

/-- The n-th pending write may perform: no older write of its class to the same bytes is pending (R142), and no vector write of
an earlier strip interval (R143). -/
def Hart.mayPerform (h : Hart) (n : Nat) : Bool :=
  match h.stbuf[n]? with
  | none => false
  | some w => !h.heldWrite w && (h.stbuf.take n).all fun o =>
      o.cls != w.cls || (!overlaps o w && (w.cls == .scalar || o.strip == w.strip))

/-- All pending writes of the classes given perform, oldest first, but for those that a transfer holds back (R143): what needs every
older access waits for transfers before. -/
def State.flush (s : State) (p : Cls → Bool) : State :=
  let goes := fun (w : PWrite) => p w.cls && !s.h.heldWrite w
  let ws := s.h.stbuf.filter goes
  let rest := s.h.stbuf.filter fun w => !goes w
  let who := s.who s.h
  let s := ws.foldl (fun s w => s.apply who w) s
  { s with h := { s.h with stbuf := rest }, h0 := { s.h0 with stbuf := rest } }

/-- Of writes on their way, oldest first, those that `hit` picks and those that must perform before one of them (R142, R143), and
the others. -/
def splitWrites (hit : PWrite → Bool) (l : List PWrite) : List PWrite × List PWrite :=
  l.foldr (fun w (x : List PWrite × List PWrite) =>
    if hit w || x.1.any fun o => o.cls == w.cls && (overlaps w o || (w.cls == .vector && decide (w.strip < o.strip))) then (w :: x.1, x.2)
    else (x.1, w :: x.2)) ([], [])

/-- The writes of the hart in focus that `hit` picks perform, and what must precede them. -/
def State.flushFor (s : State) (hit : PWrite → Bool) : State :=
  let x := splitWrites hit s.h.stbuf
  let who := s.who s.h
  let s := x.1.foldl (fun s w => s.apply who w) s
  { s with h := { s.h with stbuf := x.2 }, h0 := { s.h0 with stbuf := x.2 } }

/-- The n-th pending write of a hart performs. -/
def State.perform (s : State) (id : HartId) (n : Nat) : State :=
  match s.hartAt id with
  | none => s
  | some h =>
    if h.mayPerform n then
      match h.stbuf[n]? with
      | some w =>
        (s.mapHarts (fun g => g.live && g.id == id) fun g => { g with stbuf := g.stbuf.eraseIdx n }).apply (s.who h) w
      | none => s
    else s

end Sys2Proof.Machine
end

