-- ==== Sys2Proof/Machine/Frame.lean ====
section
/-! DEFINITION. The frame in which a convoy member executes, and how it ends (R22, R23, R109 to R111, R113, R117). -/

namespace Sys2Proof.Machine

/-! ## The frame of a convoy member -/

/-- Why an instruction did not retire. -/
inductive Exc where
  | trap (t : Trap)
  /-- it waits, with no effect; the number names what for (R23, R380) -/
  | stall (reason : Nat)
  /-- the hart parks in it, with the effects so far -/
  | park (p : Park)
  /-- it took effect and set the pc, or ended the hart, by itself -/
  | done
  /-- a request stops the convoy before element `idx` of this member (R23) -/
  | cut (idx : Nat)
  /-- its checks at dispatch are over, and no more is asked of it (R113) -/
  | checked
  deriving DecidableEq, Repr

/-- Execution of a member: the state is kept when it ends in an `Exc`. -/
abbrev M := ExceptT Exc (StateM State)

def getH : M Hart := do return (← get).h
def modH (f : Hart → Hart) : M Unit := modify fun s => { s with h := f s.h }
def throwTrap {α : Type} (kind : Kind) (code : Nat) (tval : DWord) (idx : Nat := 0) : M α :=
  throw (.trap { kind := kind, code := code, tval := tval, idx := idx })
def before {α : Type} (code : Nat) (tval : DWord) : M α := throwTrap .before code tval
def squash {α : Type} (code : Nat) (tval : DWord) : M α := throwTrap .squash code tval
def takeFreeM : M Nat := do
  let s ← get
  set { s with free := s.free + 1 }
  return Config.freeNat s.free

/-- Length of an instruction in bytes. -/
def instrLen (i : Instr) : Nat := match formOf i with | some fm => fm.len | none => 0

/-- Word 0, which several causes report (R56). -/
def word0 (i : Instr) : DWord := BitVec.ofNat 64 (encodeWord0 i)

def isChained (i : Instr) : Bool := flag (encodeWord0 i) 8

/-- The convoy ends: nothing of it is carried further, but which members wrote results, which protected mode compares (R178). -/
def State.idle (s : State) : State := { s with cv := { wrote := s.cv.wrote }, h0 := { }, hT := { } }

/-- Stream registers of the hart (R17, R208). -/
def Hart.streams (h : Hart) : Nat := 8 / 2 ^ h.split.toNat

/-- A register of the hart, by its bit, that is not live and may not be named (R107, R117). -/
def Hart.deadBit (h : Hart) (b : Nat) : Bool := !h.status.prv && !h.vlive.getLsbD b && (b < 56 || b - 56 < h.streams)

/-- The lowest such bit among registers given by their bits (R117). -/
def Hart.lowDead (h : Hart) (bs : List Nat) : Option Nat := (bs.filter h.deadBit).min?

/-- A convoy begins with this member unless one is in execution (R57). An instruction in which the hart is parked goes on as it
was (R111). -/
def State.begin (i : Instr) (s : State) : State :=
  if s.cv.active then s
  else { s with cv := { active := true, base := s.h.pc, low := s.h.lowDead (namedBits i), resumed := s.h.park.isSome && s.h.resumed,
                        ctrs := s.ctrs }, h0 := s.h }

/-- The convoy ends with effects: ACC and DRT stand in the entries that its accesses used (R135), and nothing of it is carried
further. -/
def State.close (s : State) : State := (s.cv.marks.foldl (fun s m => s.setAccDrt m.1 m.2) s).idle

/-- It ends with none (R110): its events are not counted. What its accesses showed of an error in memory stays, and so does a block
copy that one of its writes began (R347, R364; log entry 69); of a cause or a wait found at dispatch nothing stays (`State.checkedOnly`). -/
def State.void (s : State) : State := { s with ctrs := s.cv.ctrs }.idle

/-- The convoy has retired: one that an `eret` resumed leaves `ves` and `vcm` zero (R111). -/
def State.retireConvoy (s : State) : State :=
  let s := { s with ended := .retired }
  if s.cv.active && s.cv.resumed then s.mapH fun h => { h with ves := { }, vcm := 0 } else s

/-- The convoy in execution retires with its effects. -/
def State.finish (s : State) : State := if s.cv.active then s.retireConvoy.close else s.retireConvoy

/-- The pc moves past an instruction. -/
def State.pass (i : Instr) (s : State) : State := s.mapH fun h => { h with pc := h.pc + BitVec.ofNat 64 (instrLen i) }

/-- The next member of the convoy follows. -/
def State.nextMember (s : State) : State := { s with cv := { s.cv with idx := s.cv.idx + 1, done := 0 } }

/-- A member that was only checked: the convoy goes on, or ends as it was found to (R113). -/
def State.checkedMember (i : Instr) (s : State) : State :=
  if isChained i then (s.pass i).nextMember
  else
    let s := { s with h := s.hT }
    if s.ended = .trapped .restartable then s.close else s.void

/-- The stream elements that a member popped count once it has retired (R381, event 0x09): those of one that stops part-way are undone. -/
def State.countPops (s : State) : State :=
  if s.cv.popped = 0 then s
  else { s.count s.h.id.core s.h.id.part 9 s.cv.popped with cv := { s.cv with popped := 0 } }

/-- A member retires: the pc moves past it, and the convoy goes on or retires (R109, R111). -/
def State.retireMember (i : Instr) (s : State) : State :=
  if s.cv.pend then s.checkedMember i
  else
    let s := (s.pass i).countPops.mapH fun h => { h with park := none }
    if isChained i then s.nextMember else s.finish

/-- The convoy ends in a trap (R110). -/
def State.trapConvoy (s : State) (t : Trap) : State :=
  let base := s.cv.base
  let s := { s with ended := .trapped t.kind }
  match t.kind with
  | .before | .squash =>
    let h := if t.keep then s.h0 else { s.h0 with ves := { }, vcm := 0 }
    { s with h := { h with async := s.h.async }.enter false 0 t.code t.tval base }.void
  | .restartable =>
    { s with h := { s.h with ves := { rst := true, cm := BitVec.ofNat 2 s.cv.idx, idx := BitVec.ofNat 12 t.idx },
                             vcm := s.cv.done }.enter false 0 t.code t.tval base }.close
  | .after => { s with h := s.h.enter false 0 t.code t.tval s.h.pc }.close

/-- A convoy that raises a cause before any member takes effect (R110). -/
def State.trapAt (s : State) (kind : Kind) (code : Nat) (tval : DWord) : State :=
  { s with cv := { active := true, base := s.h.pc, ctrs := s.ctrs }, h0 := s.h }.trapConvoy { kind := kind, code := code, tval := tval }

/-- A convoy waits, with no effect (R23). -/
def State.waitConvoy (s : State) (reason : Nat) : State :=
  { s with ended := .waits reason, h := { s.h0 with async := s.h.async, stall := reason } }.void

/-- The member ends the convoy as `f` says: when later members follow, their checks at dispatch still come first (R113). -/
def State.endMember (i : Instr) (f : State → State) (s : State) : State :=
  if isChained i then
    { (s.pass i).nextMember with hT := (f s).h, ended := (f s).ended, cv := { (s.pass i).nextMember.cv with pend := true } }
  else f s

/-- Waiting for stream elements, which every member of a convoy does at dispatch (R223, R380). -/
def streamWait : Nat := 0xB

/-- What happens to an instruction that did not retire; `undo` takes back the pops of one that stops part-way, for the hart alone that
the trap leaves: later members are checked at the positions that follow (R221, R223). A trap before effect, and the wait for stream
elements, come first wherever in the convoy they are met (R113, R223). -/
def State.endExc (i : Instr) (s : State) (e : Exc) (undo : Hart → Hart := id) : State :=
  match e with
  | .trap t => if t.kind = .before then s.trapConvoy t
      else if s.cv.pend then s.checkedMember i
      else if t.kind = .after then s.trapConvoy t
      else s.endMember i fun s => (s.mapH undo).trapConvoy t
  | .stall r => if r = streamWait then s.waitConvoy r
      else if s.cv.pend then s.checkedMember i
      else s.endMember i (·.waitConvoy r)
  | e =>
    if s.cv.pend then s.checkedMember i
    else match e with
      | .park p => { s with ended := .parked, h := { s.h with park := some p, resumed := s.cv.resumed } }.close
      | .done => s.close
      | .cut idx =>
        { s with ended := .stopped,
                 h := ({ undo s.h with ves := { rst := true, cm := BitVec.ofNat 2 s.cv.idx, idx := BitVec.ofNat 12 idx },
                                       vcm := s.cv.done }).interrupt s.cv.base }.close
      | _ => s.checkedMember i

/-- The member is stopped part-way: its pops are undone (R221). -/
def Hart.undoPops (h h1 : Hart) : Hart :=
  let old := fun (i : Fin 8) => match h1.q.get i, h.q.get i with
    | some b, some c => some (b.marks c)
    | o, _ => o
  let sel := fun (a b : DWord) => (a &&& 0xFF00000000000000#64) ||| (b &&& 0x00FFFFFFFFFFFFFF#64)
  { h with q := Vector.ofFn old, vdirty := sel h1.vdirty h.vdirty, vlive := sel h1.vlive h.vlive }

/-- The member ends part-way. -/
def Exc.partWay : Exc → Bool
  | .trap t => t.kind == .restartable
  | .cut _ => true
  | _ => false

/-- Executes one member. -/
def run (i : Instr) (body : M Unit) (s : State) : State :=
  match body (s.begin i) with
  | (.ok _, t) => t.retireMember i
  | (.error e, t) => t.endExc i e (if e.partWay then (·.undoPops (s.begin i).h) else id)

/-- An instruction that is a convoy of one, makes no access, cannot trap and sets the pc by itself. -/
def jump (f : Hart → Hart) (s : State) : State := (s.mapH f).retireConvoy.idle

/-- The same for one that goes on to the next instruction (R89). -/
def plain (fm : Form) (f : Hart → Hart) (s : State) : State :=
  jump (fun h => let h' := f h; { h' with pc := h'.pc + BitVec.ofNat 64 fm.len }) s

/-! ## Checks at dispatch (R113) -/

/-- The checks of a member at dispatch are over. -/
def atDispatch : M Unit := do if (← get).cv.pend then throw .checked

/-- The registers given are live; else `tval` is the lowest one of the convoy that is not (R117). -/
def checkLives (bs : List Nat) : M Unit := do
  let s ← get
  match s.h.lowDead bs with
  | none => pure ()
  | some b => before 0x10 (BitVec.ofNat 64 (min b (s.cv.low.getD b)))

/-- Registers that are not live, of the instruction's own: a convoy of its own that its descriptor makes name more of them tells the
lowest of all (R117). -/
def noteNames (bs : List Nat) : M Unit := modify fun s =>
  match s.h.lowDead bs with
  | none => s
  | some b => { s with cv := { s.cv with low := some (min b (s.cv.low.getD b)) } }

/-- A stream register outside the hart's range raises 0x60, and then a register that is not live 0x10 (R113, R117, R208): of those that the
word names and, for the report alone, those that its descriptor makes operands (`more`). -/
def checkNamed (i : Instr) (more : List Nat := []) : M Unit := do
  let h ← getH
  if (namedBits i).any fun b => 56 ≤ b && h.streams ≤ b - 56 then before 0x60 (word0 i)
  noteNames more
  checkLives (namedBits i)

/-- The `vl` register (R106). -/
def Hart.vlReg (h : Hart) : DWord := BitVec.ofNat 64 (h.ew.toNat * 4096 + h.vl.toNat)

/-- A member of width w needs the grant (R98). -/
def checkGrant (w : Nat) : M Unit := do
  let h ← getH
  if h.grant w < h.vl.toNat then before 0x11 h.vlReg

end Sys2Proof.Machine
end

