-- ==== Sys2Proof/Machine/Access.lean ====
section
/-! DEFINITION. The accesses of harts to every space (R118 to R125, R135, R142, R150). -/

namespace Sys2Proof.Machine

/-- How a denied access ends an instruction: a walk that met poison or failed its check squashes (log entry 71). -/
def denied {α : Type} (kind : Kind) (idx : Nat) (va : DWord) : Denied → M α
  | .cause c => throwTrap (if c = 0x40 ∨ c = 0x44 then .squash else kind) c va idx
  | .wait => throw (.stall 0x13)

/-- Who makes the accesses of the hart in focus. -/
def whoM : M Who := do let s ← get; return s.who s.h

/-- Translation for the hart (R135): ACC and DRT are set when the convoy ends with the access made. -/
def findM (w : Who) (va : Nat) (k : Acc) : M (Except Denied (Nat × Nat)) := do
  let (r, s) := (← get).find w va k
  match r with
  | .ok (e, pa, key) =>
    set { s with cv := { s.cv with marks := s.cv.marks ++ [(e, k.writes)] } }
    return .ok (pa, key)
  | .error d =>
    set s
    return .error d

/-- Translates pieces in order, up to the first that is denied. -/
def findAll (w : Who) (k : Acc) : List (Nat × Nat) → M (Except Denied (List (Nat × Nat × Nat)))
  | [] => return .ok []
  | (a, len) :: l => do
    match ← findM w (a % 2 ^ 64) k with
    | .error d => return .error d
    | .ok (pa, key) => return (← findAll w k l).map fun ps => (pa, key, len) :: ps

/-- Translates every piece of a global access before any of them is made. -/
def translateM (va : DWord) (n : Nat) (k : Acc) (kind : Kind) (idx : Nat := 0) (w : Option Who := none) :
    M (List (Nat × Nat × Nat)) := do
  let w := w.getD (← whoM)
  let old := (← get).cv.marks
  match ← findAll w k (piecesOf va.toNat n) with
  | .ok ps => return ps
  | .error d =>
    modify fun s => { s with cv := { s.cv with marks := old } }
    denied kind idx va d

/-- Loads of a class that performed early and share one of these bytes are no longer good (R142). -/
def dropEarly (c : Cls) (sp : Space) (locs : List Nat) : M Unit :=
  modH fun h => { h with early := h.early.filter fun e => !e.meets c sp locs }

/-- The bytes of a load that performed early, when it is exactly this one; others that share a byte are dropped. -/
def takeEarly (c : Cls) (sp : Space) (locs : List Nat) : M (Option (List (Byte × Bool))) := do
  let h ← getH
  if h.early.isEmpty then return none
  dropEarly c sp locs
  return (h.early.find? fun e => e.cls == c && e.space == sp &&
    (List.range e.bytes.length).map (· + e.addr) == locs).map (·.bytes)

/-- Reads one translated piece of global memory: `(pa, key, len)`; the integrity outcome squashes with 0x44 (R121, R125, R364). -/
def readPiece (c : Cls) (w : Who) (va : DWord) (x : Nat × Nat × Nat) : M (List (Byte × Bool)) := do
  match ← takeEarly c .glob ((List.range x.2.2).map (· + x.1)) with
  | some l => return l
  | none =>
    let ws := (← getH).pendingOf c
    let (r, s) := (← get).loadSector w ws x.1 x.2.2 x.2.1 va.toNat
    set s
    match r with
    | some l => return l
    | none => squash 0x44 va

/-- Reads bytes of global memory for the hart. -/
def loadGlob (c : Cls) (va : DWord) (n : Nat) (kind : Kind) (idx : Nat := 0) (w : Option Who := none) : M (List (Byte × Bool)) := do
  let w := w.getD (← whoM)
  let ps ← translateM va n .read kind idx w
  return (← ps.mapM (readPiece c w va)).flatten

/-- Adds pending writes to the hart; an early load of their class that shares a byte is no longer good (R142). -/
def pushWrites (ws : List PWrite) : M Unit := modH fun h =>
  { h with stbuf := h.stbuf ++ ws
           early := h.early.filter fun e => ws.all fun w => !e.meets w.cls w.space ((List.range w.bytes.length).map (· + w.addr)) }

/-- The writes of bytes to translated pieces of global memory. -/
def globWrites (h : Hart) (c : Cls) (va : DWord) (bs : List Byte) (p : Bool) (ps : List (Nat × Nat × Nat)) : List PWrite :=
  (ps.foldl (fun (acc : List PWrite × Nat) x =>
    (acc.1 ++ [{ cls := c, strip := h.strip, space := .glob, addr := x.1, key := x.2.1, va := va + BitVec.ofNat 64 acc.2,
                 bytes := (bs.drop acc.2).take x.2.2, psn := p }], acc.2 + x.2.2)) ([], 0)).1

/-- A write as writes of its bytes. -/
def PWrite.single (w : PWrite) : List PWrite :=
  ((List.range w.bytes.length).filter (!w.skip.contains ·)).map fun i =>
    { w with skip := []
             addr := w.addr + i, va := w.va + BitVec.ofNat 64 i, bytes := (w.bytes.drop i).take 1 }

/-- Makes a write of bytes to global memory: translated and checked now, performed later (R122, R150). -/
def storeGlob (c : Cls) (va : DWord) (bs : List Byte) (p : Bool) (kind : Kind) (idx : Nat := 0) : M Unit := do
  let ps ← translateM va bs.length .write kind idx
  pushWrites (globWrites (← getH) c va bs p ps)

/-- Reads bytes of local storage now; `cause` is what poison raises there. -/
def readSpace (c : Cls) (sp : Space) (off n : Nat) (cause : Nat := 0x40) : M (List (Byte × Bool)) := do
  let w := { (← whoM) with psnCause := cause }
  modify fun s => s.readEcc w sp off n
  let s ← get
  return ((List.range n).map fun i => s.loadLocal (s.h.pendingOf c) sp (spaceOff sp off i) 1).flatten

/-- The same for a load, which may have performed before. -/
def loadSpace (c : Cls) (sp : Space) (off n : Nat) (cause : Nat := 0x40) : M (List (Byte × Bool)) := do
  match ← takeEarly c sp ((← get).localLocs sp off n) with
  | some l => return l
  | none => readSpace c sp off n cause

/-- The writes of bytes to local storage; bytes beyond the allocation are discarded (R33), and bytes that follow one another within 64
stay one write. -/
def State.localWrites (s : State) (c : Cls) (sp : Space) (off : Nat) (va : DWord) (bs : List Byte) (p : Bool) : List PWrite :=
  let at_ := fun i => localOff (s.localOf sp).size (spaceOff sp off i)
  (List.range bs.length).foldl (fun (acc : List PWrite) i =>
    match at_ i with
    | none => acc
    | some o =>
      let new : PWrite := { cls := c, strip := s.h.strip, space := sp, addr := o, key := 0, va := va, bytes := [bs.getD i 0], psn := p }
      match acc.getLast? with
      | some l =>
        if l.addr + l.bytes.length = o && o % 64 != 0 then acc.dropLast ++ [{ l with bytes := l.bytes ++ [bs.getD i 0] }]
        else acc ++ [new]
      | none => [new]) []

/-- Makes a write of bytes to local storage. -/
def storeSpace (c : Cls) (sp : Space) (off : Nat) (va : DWord) (bs : List Byte) (p : Bool) : M Unit := do
  pushWrites ((← get).localWrites c sp off va bs p)

/-- The writes of the classes given perform. -/
def flushM (p : Cls → Bool := fun _ => true) : M Unit := modify fun s => s.flush p

end Sys2Proof.Machine
end

