-- ==== Sys2Proof/Machine/Operands.lean ====
section
/-! DEFINITION. The operand forms: immediates and displacements (R44, R50, R51), addresses (R120, R124), guards (R47), and the
register that names a format descriptor (R43, R45). -/

namespace Sys2Proof.Machine

/-- The immediate of format I as i64 (R51, R92). -/
def immI (fm : Form) (imm12 : BitVec 12) : DWord :=
  match fm with
  | .base => imm12.signExtend 64
  | .baseLit l => l
  | .ext e => e.imm.signExtend 64
  | .extLit _ l => l

/-- The source register of format I (R92): xd itself, or word 0 [25:20] in the extended form. -/
def srcI (fm : Form) (d : BitVec 6) (imm12 : BitVec 12) : BitVec 6 :=
  match fm with
  | .base | .baseLit _ => d
  | .ext _ | .extLit _ _ => imm12.setWidth 6

/-- The displacement in bytes (R44). -/
def dispBytes {n : Nat} (fm : Form) (disp : BitVec n) : DWord :=
  match fm with
  | .ext e | .extLit e _ => e.imm.signExtend 64 * 4
  | _ => disp.signExtend 64 * 4

/-- The address of a format-B access (R120): base plus index, or base plus offset. -/
def addrB (fm : Form) (b i : BitVec 6) (h : Hart) : DWord :=
  h.getX b + (match fm with
    | .base => h.getX i
    | .baseLit l => l
    | .ext e => if e.ib then e.imm.signExtend 64 else h.getX i
    | .extLit _ l => l)

/-- The offset of format V and of the fibre loads and stores (R124, R242). -/
def offsetOf (fm : Form) : DWord :=
  match fm with
  | .base => 0
  | .baseLit l => l
  | .ext e => e.imm.signExtend 64
  | .extLit _ l => l

/-- The extended fields of a form; all zero in the base forms. -/
def extOfForm : Form → ExtFields
  | .ext e | .extLit e _ => e
  | _ => extOf 0 0

/-- One guard passes for element e: bit e of the mask equals 1 − P, and m0 reads as all ones (R47). -/
def guardPass (h : Hart) (m : BitVec 3) (pol : Bool) (e : Nat) : Bool :=
  (if m = 0 then true else (h.getM m).getLsbD e) != pol

/-- Element e is active: both guards pass; the base forms are unguarded (R47). -/
def activeAt (fm : Form) (h : Hart) (e : Nat) : Bool :=
  match fm with
  | .base | .baseLit _ => true
  | .ext x | .extLit x _ => guardPass h x.g1 x.g1p e && guardPass h x.g2 x.g2p e

/-- The value of the format descriptor: x8 to x15 by fd in the base forms, any register by FDX in the extended (R43). -/
def fdValue (fm : Form) (fd : BitVec 3) (h : Hart) : DWord :=
  match fm with
  | .base | .baseLit _ => h.getX (BitVec.ofNat 6 (8 + fd.toNat))
  | .ext x | .extLit x _ => h.getX x.fdx

/-- The register that holds it. -/
def fdReg (fm : Form) (fd : BitVec 3) : BitVec 6 :=
  match fm with
  | .base | .baseLit _ => BitVec.ofNat 6 (8 + fd.toNat)
  | .ext x | .extLit x _ => x.fdx

/-- The descriptor of an instruction that names it with FDX only: the value 0 in the base form (R195, R270). -/
def fdxValue (fm : Form) (h : Hart) : DWord :=
  match fm with
  | .ext x | .extLit x _ => h.getX x.fdx
  | _ => 0

/-- The fifth operand (R45); the base form names none. -/
def e5Of (fm : Form) : BitVec 6 := (extOfForm fm).e5

/-- The attributes of an atomic (R193): the base form acts as 0x000004. -/
def attrOf (fm : Form) : Nat :=
  match fm with
  | .ext e | .extLit e _ => e.imm.toNat
  | _ => 4

end Sys2Proof.Machine
end

