-- ==== Sys2Proof/Machine/ScalarAlu.lean ====
section
/-! DEFINITION. Scalar integer instructions: majors 0x01, 0x02 and 0x07 (R90 to R93). None of them traps (R89). -/

namespace Sys2Proof.Machine

abbrev Out := Host.Outcome State Fault Refusal

/-! ## Results -/

/-- mulh: bits [127:64] of the signed product (R90). -/
def mulHigh (a b : DWord) : DWord := ((a.signExtend 128 * b.signExtend 128).extractLsb' 64 64)

/-- mulh.n: bits [127:64] of the unsigned product. -/
def mulHighN (a b : DWord) : DWord := ((a.setWidth 128 * b.setWidth 128).extractLsb' 64 64)

/-- div: truncated toward zero; all ones by zero; −2^63 by −1 wraps to itself (R91). -/
def divS (a b : DWord) : DWord := if b = 0 then BitVec.allOnes 64 else a.sdiv b

/-- rem: the sign of a; a by zero; 0 for −2^63 by −1 (R91). -/
def remS (a b : DWord) : DWord := if b = 0 then a else a.srem b

def divN (a b : DWord) : DWord := if b = 0 then BitVec.allOnes 64 else a.udiv b

def remN (a b : DWord) : DWord := if b = 0 then a else a.umod b

/-- A shift or rotate amount: b[5:0]. -/
def shamt (b : DWord) : Nat := b.toNat % 64

def leadingZeros (a : DWord) : Nat := if a = 0 then 64 else 63 - Nat.log2 a.toNat

/-- Number of zero bits below the lowest one bit, by search from bit `i`. -/
def trailingFrom (a : DWord) : Nat → Nat → Nat
  | 0, i => i
  | n + 1, i => if a.getLsbD i then i else trailingFrom a n (i + 1)

def trailingZeros (a : DWord) : Nat := trailingFrom a 64 0

def popCount {n : Nat} (a : BitVec n) : Nat := ((List.range n).filter fun i => a.getLsbD i).length

/-- pos and len′ of `bext` and `bins` (R93). -/
def fieldPos (b : DWord) : Nat := b.toNat % 64
def fieldLen (b : DWord) : Nat := min (b.toNat / 256 % 128) 64

def bitExtract (a b : DWord) : DWord := BitVec.ofNat 64 (a.toNat / 2 ^ fieldPos b % 2 ^ fieldLen b)

def bitInsert (d a b : DWord) : DWord := setBits d (fieldPos b) (min (fieldLen b) (64 - fieldPos b)) a.toNat

/-- The field operand of `bext` and `bins`: xb, or the immediate when IB = 1 (R93). -/
def fieldOperand (fm : Form) (b : BitVec 6) (h : Hart) : DWord :=
  match fm with
  | .ext e | .extLit e _ => if e.ib then e.imm.setWidth 64 else h.getX b
  | _ => h.getX b

/-- An operation of two source registers. -/
def alu2 (fm : Form) (d a b : BitVec 6) (op : DWord → DWord → DWord) (s : State) : Out :=
  .next (plain fm (fun h => h.setX d (op (h.getX a) (h.getX b))) s)

/-- An operation of one source register. -/
def alu1 (fm : Form) (d a : BitVec 6) (op : DWord → DWord) (s : State) : Out :=
  .next (plain fm (fun h => h.setX d (op (h.getX a))) s)

/-- An operation of a source register and an immediate (R92). -/
def aluI (fm : Form) (d : BitVec 6) (i : BitVec 12) (op : DWord → DWord → DWord) (s : State) : Out :=
  .next (plain fm (fun h => h.setX d (op (h.getX (srcI fm d i)) (immI fm i))) s)

/-! ## Major 0x01 -/

def execAdd (fm : Form) (d a b : BitVec 6) (s : State) : Out := alu2 fm d a b (· + ·) s
def execSub (fm : Form) (d a b : BitVec 6) (s : State) : Out := alu2 fm d a b (· - ·) s
def execMul (fm : Form) (d a b : BitVec 6) (s : State) : Out := alu2 fm d a b (· * ·) s
def execMulh (fm : Form) (d a b : BitVec 6) (s : State) : Out := alu2 fm d a b mulHigh s
def execMulhN (fm : Form) (d a b : BitVec 6) (s : State) : Out := alu2 fm d a b mulHighN s
def execDiv (fm : Form) (d a b : BitVec 6) (s : State) : Out := alu2 fm d a b divS s
def execDivN (fm : Form) (d a b : BitVec 6) (s : State) : Out := alu2 fm d a b divN s
def execRem (fm : Form) (d a b : BitVec 6) (s : State) : Out := alu2 fm d a b remS s
def execRemN (fm : Form) (d a b : BitVec 6) (s : State) : Out := alu2 fm d a b remN s
def execAnd (fm : Form) (d a b : BitVec 6) (s : State) : Out := alu2 fm d a b (· &&& ·) s
def execOr (fm : Form) (d a b : BitVec 6) (s : State) : Out := alu2 fm d a b (· ||| ·) s
def execXor (fm : Form) (d a b : BitVec 6) (s : State) : Out := alu2 fm d a b (· ^^^ ·) s
def execAndn (fm : Form) (d a b : BitVec 6) (s : State) : Out := alu2 fm d a b (fun a b => a &&& ~~~b) s
def execShl (fm : Form) (d a b : BitVec 6) (s : State) : Out := alu2 fm d a b (fun a b => a <<< shamt b) s
def execShr (fm : Form) (d a b : BitVec 6) (s : State) : Out := alu2 fm d a b (fun a b => a >>> shamt b) s
def execSar (fm : Form) (d a b : BitVec 6) (s : State) : Out := alu2 fm d a b (fun a b => a.sshiftRight (shamt b)) s
def execRol (fm : Form) (d a b : BitVec 6) (s : State) : Out := alu2 fm d a b (fun a b => a.rotateLeft (shamt b)) s

/-! ## Major 0x02 -/

def execAddImm (fm : Form) (d : BitVec 6) (i : BitVec 12) (s : State) : Out := aluI fm d i (· + ·) s
/-- `li` has no source (R92). -/
def execLi (fm : Form) (d : BitVec 6) (i : BitVec 12) (s : State) : Out := .next (plain fm (fun h => h.setX d (immI fm i)) s)
/-- `mov` copies its source (R92). -/
def execMov (fm : Form) (d a : BitVec 6) (s : State) : Out := alu1 fm d a id s
def execAndImm (fm : Form) (d : BitVec 6) (i : BitVec 12) (s : State) : Out := aluI fm d i (· &&& ·) s
def execOrImm (fm : Form) (d : BitVec 6) (i : BitVec 12) (s : State) : Out := aluI fm d i (· ||| ·) s
def execXorImm (fm : Form) (d : BitVec 6) (i : BitVec 12) (s : State) : Out := aluI fm d i (· ^^^ ·) s
def execShlImm (fm : Form) (d : BitVec 6) (i : BitVec 12) (s : State) : Out := aluI fm d i (fun a b => a <<< shamt b) s
def execShrImm (fm : Form) (d : BitVec 6) (i : BitVec 12) (s : State) : Out := aluI fm d i (fun a b => a >>> shamt b) s
def execSarImm (fm : Form) (d : BitVec 6) (i : BitVec 12) (s : State) : Out :=
  aluI fm d i (fun a b => a.sshiftRight (shamt b)) s
def execRolImm (fm : Form) (d : BitVec 6) (i : BitVec 12) (s : State) : Out := aluI fm d i (fun a b => a.rotateLeft (shamt b)) s
def execMulImm (fm : Form) (d : BitVec 6) (i : BitVec 12) (s : State) : Out := aluI fm d i (· * ·) s

/-! ## Major 0x07 -/

def execClz (fm : Form) (d a : BitVec 6) (s : State) : Out := alu1 fm d a (fun a => BitVec.ofNat 64 (leadingZeros a)) s
def execCtz (fm : Form) (d a : BitVec 6) (s : State) : Out := alu1 fm d a (fun a => BitVec.ofNat 64 (trailingZeros a)) s
def execPopc (fm : Form) (d a : BitVec 6) (s : State) : Out := alu1 fm d a (fun a => BitVec.ofNat 64 (popCount a)) s
def execBext (fm : Form) (d a b : BitVec 6) (s : State) : Out :=
  .next (plain fm (fun h => h.setX d (bitExtract (h.getX a) (fieldOperand fm b h))) s)
def execBins (fm : Form) (d a b : BitVec 6) (s : State) : Out :=
  .next (plain fm (fun h => h.setX d (bitInsert (h.getX d) (h.getX a) (fieldOperand fm b h))) s)
/-- `sel`: a when xd is not zero, else b. -/
def execSel (fm : Form) (d a b : BitVec 6) (s : State) : Out :=
  .next (plain fm (fun h => h.setX d (if h.getX d ≠ 0 then h.getX a else h.getX b)) s)
def execMin (fm : Form) (d a b : BitVec 6) (s : State) : Out := alu2 fm d a b (fun a b => if a.slt b then a else b) s
def execMax (fm : Form) (d a b : BitVec 6) (s : State) : Out := alu2 fm d a b (fun a b => if a.slt b then b else a) s
def execMinN (fm : Form) (d a b : BitVec 6) (s : State) : Out := alu2 fm d a b (fun a b => if a.ult b then a else b) s
def execMaxN (fm : Form) (d a b : BitVec 6) (s : State) : Out := alu2 fm d a b (fun a b => if a.ult b then b else a) s

end Sys2Proof.Machine
end

