-- ==== Sys2Proof/Machine/Control.lean ====
section
/-! DEFINITION. Control transfer, vector length and lane split: majors 0x03 to 0x05 and the control instructions of 0x06
(R94 to R99, R101 to R104). -/

namespace Sys2Proof.Machine

/-! ## Branches (R94) -/

def branch {n : Nat} (fm : Form) (disp : BitVec n) (a b : BitVec 6) (c : DWord → DWord → Bool) (s : State) : Out :=
  .next (jump (fun h => { h with
    pc := if c (h.getX a) (h.getX b) then h.pc + dispBytes fm disp else h.pc + BitVec.ofNat 64 fm.len }) s)

def execBEq (fm : Form) (a b : BitVec 6) (p : BitVec 8) (s : State) : Out := branch fm p a b (fun x y => x == y) s
def execBNe (fm : Form) (a b : BitVec 6) (p : BitVec 8) (s : State) : Out := branch fm p a b (fun x y => x != y) s
def execBLt (fm : Form) (a b : BitVec 6) (p : BitVec 8) (s : State) : Out := branch fm p a b (fun x y => x.slt y) s
def execBGe (fm : Form) (a b : BitVec 6) (p : BitVec 8) (s : State) : Out := branch fm p a b (fun x y => !x.slt y) s
def execBLtn (fm : Form) (a b : BitVec 6) (p : BitVec 8) (s : State) : Out := branch fm p a b (fun x y => x.ult y) s
def execBGen (fm : Form) (a b : BitVec 6) (p : BitVec 8) (s : State) : Out := branch fm p a b (fun x y => !x.ult y) s

/-! ## Jumps (R95, R96) -/

def linkOf (fm : Form) (h : Hart) : DWord := h.pc + BitVec.ofNat 64 fm.len

/-- A register target has bits [1:0] cleared (R58). -/
def regTarget (x : DWord) : DWord := x &&& ~~~3#64

def execJmp (fm : Form) (p : BitVec 17) (s : State) : Out :=
  .next (jump (fun h => { h with pc := h.pc + dispBytes fm p }) s)
def execCall (fm : Form) (d : BitVec 6) (p : BitVec 17) (s : State) : Out :=
  .next (jump (fun h => { (h.setX d (linkOf fm h)) with pc := h.pc + dispBytes fm p }) s)
def execJmpReg (_fm : Form) (q : BitVec 6) (s : State) : Out :=
  .next (jump (fun h => { h with pc := regTarget (h.getX q) }) s)
/-- The target is read before the link is written (R96). -/
def execCallReg (fm : Form) (q l : BitVec 6) (s : State) : Out :=
  .next (jump (fun h => { (h.setX l (linkOf fm h)) with pc := regTarget (h.getX q) }) s)
/-- `ret` differs from `jmp` only as a hint. -/
def execRet (_fm : Form) (q : BitVec 6) (s : State) : Out :=
  .next (jump (fun h => { h with pc := regTarget (h.getX q) }) s)

/-! ## Vector length (R97) -/

/-- A write of `vl` closes a strip interval (R97, R143). -/
def Hart.setVl (h : Hart) (ew : BitVec 2) (n : Nat) : Hart :=
  { h with ew := ew, vl := BitVec.ofNat 12 n, strip := h.strip + 1 }

def execSetvl (fm : Form) (d a : BitVec 6) (w : BitVec 2) (s : State) : Out :=
  .next (plain fm (fun h =>
    let n := min (h.getX a).toNat (h.grant (ewBits w))
    (h.setVl w n).setX d (BitVec.ofNat 64 n)) s)

/-! ## Lane split (R99) -/

/-- Slots of a merge group at split code k, when the declared split code is d. -/
def groupSize (d k : BitVec 2) : Nat := 2 ^ (d.toNat - k.toNat)

/-- The leader's slot of the merge group of a slot. -/
def leaderOf (d k : BitVec 2) (slot : Nat) : Nat := slot / groupSize d k * groupSize d k

def samePart (a b : HartId) : Bool := a.core == b.core && a.part == b.part

def Hart.joining (h : Hart) : Option (BitVec 2) := match h.park with | some (.join k _) => some k | _ => none

/-- Every slot of the partition has reached the `vjoin k`: parked at it, merged away, idle or exited (R99). -/
def State.joinReached (s : State) (id : HartId) (k : BitVec 2) : Bool :=
  s.allHarts.all fun g => !samePart g.id id || g.joining == some k || g.park == some .away

/-- Agreement: leaders go on at split k with the lanes of their groups, the other arrived harts are merged away; each has
retired its `vjoin`, with what that means for one that an `eret` resumed (R111). -/
def Hart.agree (h : Hart) (k : BitVec 2) : Hart :=
  match h.park with
  | some (.join k' len) =>
    if k' = k then
      let h := { h with pc := h.pc + BitVec.ofNat 64 len }
      let h := if h.resumed then { h with ves := { }, vcm := 0, resumed := false } else h
      if h.id.slot = leaderOf h.split k h.id.slot then { h with park := none, cur := k } else { h with park := some .away }
    else h
  | _ => h

def State.joinResolve (s : State) (id : HartId) (k : BitVec 2) : State :=
  if s.joinReached id k then
    -- the convoy in execution is counted as it retires (R381)
    let n := (s.allHarts.filter fun g => samePart g.id id && g.joining == some k).length - (s.cv.active && s.h.joining == some k).toNat
    (s.mapHarts (fun g => g.live && samePart g.id id) (·.agree k)).count id.core id.part 2 n
  else s

/-- A hart has left its partition: a `vjoin` that waited for it may be agreed now. -/
def State.joinRecheck (s : State) (id : HartId) : State :=
  [0#2, 1#2, 2#2].foldl (fun s k => s.joinResolve id k) s

/-- Split code of `vjoin 1` and `vjoin 2`: the flag is the low bit of func. -/
def joinBody (i : Instr) (k : BitVec 2) : M Unit := do
  let s ← get
  let h := s.h
  if ¬ k.toNat < h.cur.toNat then before 0x12 (word0 i)
  if s.harts.any fun g => g.live && samePart g.id h.id && (match g.joining with | some k' => k' != k | none => false) then
    before 0x12 (word0 i)
  modify fun s => ({ s with h := { s.h with park := some (.join k (instrLen i)), resumed := s.cv.resumed } }).joinResolve h.id k
  if (← getH).joining = some k then throw (.park (.join k (instrLen i)))
  modify State.finish
  throw .done

def execVjoin (fm : Form) (two : Bool) (s : State) : Out :=
  .next (run (.vjoin fm two) (joinBody (.vjoin fm two) (if two then 1 else 0)) s)

/-- `vsplit`: the issuing hart keeps its own group, and each other leader of a new group resumes after its `vjoin` (R99). -/
def splitBody (i : Instr) (k : BitVec 2) : M Unit := do
  let h ← getH
  if ¬ (h.cur.toNat < k.toNat ∧ k.toNat ≤ h.split.toNat) then before 0x12 (word0 i)
  let lo := h.id.slot
  let hi := lo + groupSize h.split h.cur
  modify fun s => (s.mapHarts (fun g => g.live && samePart g.id h.id && decide (lo < g.id.slot) && decide (g.id.slot < hi) &&
      g.park == some .away && g.id.slot == leaderOf g.split k g.id.slot) fun g => { g with park := none, cur := k }).mapH
    fun h => { h with cur := k }

def execVsplit (fm : Form) (four : Bool) (s : State) : Out :=
  .next (run (.vsplit fm four) (splitBody (.vsplit fm four) (if four then 2 else 1)) s)

/-! ## Traps and events (R101, R103, R104) -/

/-- `trap n` retires and raises 0xC0 with `epc` after it (R101). -/
def execTrap (fm : Form) (n : BitVec 12) (s : State) : Out :=
  .next ((plain fm id s).mapH fun h => h.enter false 0 0xC0 (n.setWidth 64) h.pc)

/-- `yield` has no architectural effect (R103). -/
def execYield (fm : Form) (s : State) : Out := .next (plain fm id s)

/-- `wfe` retires, then parks while no enabled event bit is set (R104). -/
def execWfe (fm : Form) (s : State) : Out :=
  .next ((plain fm id s).mapH fun h => if s.evtOf h &&& h.emask = 0 then { h with park := some .wfe } else h)

end Sys2Proof.Machine
end

