-- ==== Sys2Proof/Machine/System.lean ====
section
/-! DEFINITION. The system registers and `mfs` and `mts` (R100, R105 to R108). -/

namespace Sys2Proof.Machine

/-- The node of a hart's task. -/
def State.nodeOf (s : State) (h : Hart) : Option Node :=
  match s.gangOf h.gang with
  | none => none
  | some g => s.nodes.find? (·.id == g.node)

def State.prioOf (s : State) (h : Hart) : Nat := match s.nodeOf h with | some n => n.prio | none => 0

def State.gangidOf (s : State) (h : Hart) : Nat := match s.gangOf h.gang with | some g => g.gidx | none => 0

/-- The bits of `vdirty` and `vlive` that stand for registers in the hart's range (R107): q0 to q(8/D − 1). -/
def Hart.rangeMask (h : Hart) : DWord := BitVec.ofNat 64 (2 ^ (56 + 8 / 2 ^ h.split.toNat) - 1)

def statusWord (h : Hart) : DWord :=
  BitVec.ofNat 64 (h.status.prv.toNat + 2 * h.status.pprv.toNat + 4 * h.status.ie.toNat + 8 * h.status.pie.toNat +
    32 * h.prot.toNat + 64 * h.split.toNat + 256 * h.cur.toNat + 2048 * h.status.nest.toNat)

def vesWord (v : Ves) : DWord := BitVec.ofNat 64 (v.idx.toNat + 4096 * v.cm.toNat + 2 ^ 63 * v.rst.toNat)

def causeWord (c : Cause) : DWord := BitVec.ofNat 64 (c.code.toNat + 256 * c.acode.toNat + 2 ^ 63 * c.int.toNat)

/-- Supervisor-only registers (R105). -/
def supervisorOnly (n : Nat) : Bool := n == 0x11 || (0x101 ≤ n && n ≤ 0x105)

/-- The value a system register reads as in supervisor mode (R106 to R108). -/
def sysRead (s : State) (h : Hart) (n : Nat) : DWord :=
  if 0x20 ≤ n ∧ n < 0x40 then h.vcm.extractLsb' (64 * (n - 0x20)) 64
  else match n with
    | 0x000 => h.vlReg
    | 0x001 => BitVec.ofNat 64 (h.grant 32)
    | 0x002 => vesWord h.ves
    | 0x004 => h.sseed
    | 0x005 => h.sbase
    | 0x008 => h.fprog
    | 0x010 => h.vdirty &&& h.rangeMask
    | 0x011 => h.vlive &&& h.rangeMask
    | 0x012 => BitVec.ofNat 64 (h.mism.toNat * 65536 + h.prot.toNat)
    | 0x100 => statusWord h
    | 0x101 => causeWord h.cause
    | 0x102 => h.epc
    | 0x103 => h.tval
    | 0x104 => h.tvec
    | 0x105 => h.sscr
    | 0x106 => (s.evtOf h).setWidth 64
    | 0x107 => h.emask.setWidth 64
    | 0x108 => h.tcmp
    | 0x180 => BitVec.ofNat 64 h.hartid
    | 0x181 => BitVec.ofNat 64 (s.gangidOf h)
    | 0x182 => BitVec.ofNat 64 (s.prioOf h * 2 ^ 32 + s.taskOf h)
    | 0x190 => s.tstamp
    | _ => 0

/-- A write of a system register by the fields its map lets the mode write (R100, R106 to R108); `prv` is the mode. A write of
`vl` is checked before. -/
def sysWrite (h : Hart) (n : Nat) (d : DWord) : Hart :=
  let prv := h.status.prv
  if 0x20 ≤ n ∧ n < 0x40 then
    if prv then { h with vcm := setBits h.vcm (64 * (n - 0x20)) 64 d.toNat } else h
  else match n with
    | 0x000 => h.setVl (d.extractLsb' 12 2) (d.toNat % 4096)
    | 0x002 => if prv then { h with ves := { rst := d.getLsbD 63, cm := d.extractLsb' 12 2, idx := d.extractLsb' 0 12 } } else h
    | 0x004 => { h with sseed := d }
    | 0x005 => { h with sbase := d }
    | 0x008 => { h with fprog := d }
    | 0x010 => if prv then { h with vdirty := h.vdirty &&& ~~~(d &&& h.rangeMask) } else h
    | 0x011 => { h with vlive := (h.vlive &&& ~~~h.rangeMask) ||| (d &&& h.rangeMask) }
    | 0x100 => if prv then { h with status := { h.status with
        nest := h.status.nest && !d.getLsbD 11, pie := d.getLsbD 3, ie := d.getLsbD 2, pprv := d.getLsbD 1 } } else h
    | 0x101 => { h with cause := { int := d.getLsbD 63, acode := d.extractLsb' 8 8, code := d.extractLsb' 0 8 } }
    | 0x102 => { h with epc := d &&& 0x01FFFFFFFFFFFFFC#64 }
    | 0x103 => { h with tval := d }
    | 0x104 => { h with tvec := d &&& 0x01FFFFFFFFFFFFC0#64 }
    | 0x105 => { h with sscr := d }
    | 0x106 => { h with evtCpy := h.evtCpy && !d.getLsbD 1, evtMsg := h.evtMsg && !d.getLsbD 2,
                        evtChld := h.evtChld && !d.getLsbD 3, evtBar := h.evtBar && !d.getLsbD 4 }
    | 0x107 => { h with emask := d.setWidth 6 }
    | 0x108 => { h with tcmp := d }
    | _ => h

/-- `mfs`: a supervisor-only register reads zero in user mode (R100). -/
def execMfs (fm : Form) (d : BitVec 6) (sys : BitVec 12) (s : State) : Out :=
  .next (plain fm (fun h =>
    h.setX d (if supervisorOnly sys.toNat && !h.status.prv then 0 else sysRead s h sys.toNat)) s)

/-- `mts`: privileged for a supervisor-only register (R31, R100); a length above the grant raises 0x11 (R19, R106). -/
def mtsBody (i : Instr) (a : BitVec 6) (n : Nat) : M Unit := do
  let h ← getH
  let d := h.getX a
  if supervisorOnly n && !h.status.prv then before 3 (word0 i)
  if n = 0 ∧ h.grant (ewBits (d.extractLsb' 12 2)) < d.toNat % 4096 then before 0x11 d
  modH fun h => sysWrite h n d

def execMts (fm : Form) (a : BitVec 6) (sys : BitVec 12) (s : State) : Out :=
  .next (run (.mts fm a sys) (mtsBody (.mts fm a sys) a sys.toNat) s)

end Sys2Proof.Machine
end

