-- ==== Sys2Proof/Machine/Transfers.lean ====
section
/-! DEFINITION. The address-range interlock table and the waits for engine transfers, with the reports of failed copies
(R139, R140, R145, R295). -/

namespace Sys2Proof.Machine

/-- A change of the hart that outlives a before-effect trap or a wait of the instruction that makes it. -/
def keepH (f : Hart → Hart) : M Unit := modify fun s => { s with h := f s.h, h0 := f s.h0, hT := f s.hT }

/-- A copy command held by the hart that has not finished. -/
def Hart.copyOf (h : Hart) (n : Nat) : Option CopyCmd := h.copies.find? (·.handle == n)

def Hart.mapCopy (h : Hart) (n : Nat) (f : CopyCmd → CopyCmd) : Hart :=
  { h with copies := h.copies.map fun c => if c.handle = n then f c else c }

/-- An instruction must wait for these copies of its hart (R295): the lowest FAULTED one is reported, before effect; REPORTED
ones restart from their beginning; and it waits, as `how` says, while any is left. -/
def waitCopiesBy (sel : CopyCmd → Bool) (how : Exc) : M Unit := do
  let h ← getH
  let cs := h.copies.filter sel
  let faulted := cs.filter (·.st == .faulted)
  match faulted with
  | c :: l =>
    let c := l.foldl (fun a b => if b.handle < a.handle then b else a) c
    keepH fun h => h.mapCopy c.handle fun c => { c with st := .reported }
    before c.code c.addr
  | [] =>
    if !cs.isEmpty then
      let again := fun (c : CopyCmd) => if sel c && c.st == .reported then { c with st := .queued } else c
      keepH fun h => { h with copies := h.copies.map again }
      throw how

def waitCopies (sel : CopyCmd → Bool) (reason : Nat) : M Unit := waitCopiesBy sel (.stall reason)

/-- A fence, a release, a barrier arrival waits for the older engine transfers, stream fetches excepted (R145, R298). -/
def waitTransfers (reason : Nat) : M Unit := do
  waitCopies (fun _ => true) reason
  let h ← getH
  if h.arit.any (fun l => match l.own with | .epilogue _ => true | _ => false) then throw (.stall reason)

/-- The range that accesses of `n` bytes at these places touch, in each space that one of them reaches (R139, R140). -/
def State.rangesOf (s : State) (ps : List (Space × Nat)) (n : Nat) : List (Space × Nat × Nat) :=
  (ps.map (·.1)).dedup.map fun sp =>
    let rs := (ps.filter (·.1 == sp)).map fun x => s.lockRange sp x.2 (x.2 + n)
    (sp, rs.foldl (fun a r => min a r.1) ((rs.headD (0, 0)).1), rs.foldl (fun a r => max a r.2) 0)

/-- What addresses `[lo, hi)` reach for engine transfers of a hart, space by space: 0 global, 1 TCM, 2 scratchpad, where a range may pass
through the allocations of several gangs, or through the save window (R118, R139, R182). -/
def State.lockParts (s : State) (h : Hart) (space lo hi : Nat) : List (Space × Nat × Nat) :=
  let part := fun (sp : Space) a b => let r := s.lockRange sp a b; (sp, r.1, r.2)
  let low := min hi (2 ^ 63)
  let up := max lo (2 ^ 63)
  if space = 0 then [(.glob, lo, hi)]
  else if space = 1 then
    if !h.status.prv then [part (.tcm h.gang) lo hi]
    else
      let a := h.id.core * 131072 + up % 131072
      (if lo < low then [part (.tcm h.gang) lo low] else []) ++ if up < hi then [part .win a (a + (hi - up))] else []
  else
    let node := match s.gangOf h.gang with | some g => g.node | none => 0
    let of := fun (g : Gang) =>
      -- blocks of 2^32 addresses that name the gang, from the first on
      let b := up / 2 ^ 32
      let k := b + (g.gidx + 65536 - b % 65536) % 65536
      if hi ≤ k * 2 ^ 32 || g.node != node then none
      else if (k + 65536) * 2 ^ 32 < hi then some (part (.sp g.key) 0 (2 ^ 32))
      else some (part (.sp g.key) (max up (k * 2 ^ 32) - k * 2 ^ 32) (min hi ((k + 1) * 2 ^ 32) - k * 2 ^ 32))
    (if lo < low then [part (.sp h.gang) lo low] else []) ++ if up < hi then s.gangs.filterMap of else []

/-- The entry that a command takes for what it reaches (R139): one, in as many parts as there are spaces. -/
def lockEntry (own : LockOwner) (write : Bool) (ps : List (Space × Nat × Nat)) : List Lock :=
  let one := fun part (p : Space × Nat × Nat) => ({ own := own, space := p.1, lo := p.2.1, hi := p.2.2, write := write, part := part } : Lock)
  match ps with
  | [] => [one false (.void, 0, 0)]
  | p :: l => one false p :: l.map (one true)

/-- A vector-class access or an engine command waits for the entries that one of its ranges conflicts with; the flag marks a write
(R140). -/
def waitLocks (rs : List ((Space × Nat × Nat) × Bool)) : M Unit := do
  let h ← getH
  let ls := h.arit.filter fun l => rs.any fun r => decide (r.1.2.1 < r.1.2.2) && l.hits r.1.1 r.1.2.1 r.1.2.2 r.2
  waitCopies (fun c => ls.any fun l => l.own == .copy c.handle) 4
  if !ls.isEmpty then throw (.stall 4)

/-- Entries that stand in the table. -/
def Hart.entriesHeld (h : Hart) : Nat := h.arit.countP (!·.part)

/-- Takes entries of the table; too few free ones make the command wait, for copies that failed among others (R140, R295). So does an
older write that overlaps one of its ranges and that a transfer of an earlier interval holds back (R140, R143). -/
def takeLocks (ls : List Lock) : M Unit := do
  let s ← get
  let h := s.h
  let meets := fun (w : PWrite) (l : Lock) =>
    let a := if w.space = .glob then w.va.toNat else w.addr
    l.hits w.space a (a + w.bytes.length) true
  if h.stbuf.any fun w => w.cls == .vector && ls.any (meets w) then throw (.stall 4)
  if 16 < h.entriesHeld + ls.countP (!·.part) then
    waitCopies (fun c => h.arit.any fun l => l.own == .copy c.handle) 4
    throw (.stall 4)
  modH fun h => { h with arit := h.arit ++ ls.map fun l => { l with strip := h.strip } }

/-- A vector-class write that performs at once waits for transfers of earlier strip intervals that have still to write (R143). -/
def waitEarlier : M Unit := do
  let h ← getH
  let ls := h.arit.filter fun l => l.write && decide (l.strip < h.strip)
  waitCopies (fun c => ls.any fun l => l.own == .copy c.handle) 4
  if !ls.isEmpty then throw (.stall 4)

/-- Releases the entries of an owner. -/
def Hart.release (h : Hart) (o : LockOwner) : Hart := { h with arit := h.arit.filter fun l => l.own != o }

/-- An engine command that reads or writes memory: every older vector-class access of its hart that conflicts performs first
(R140). Older pending writes of the hart all perform, which is one order the rules allow. -/
def settleVector : M Unit := flushM (· == .vector)

/-- Every older access of the hart, in both classes, has performed (R291, R314, R325): writes that a transfer of an earlier strip interval
holds back are waited for. -/
def settleAll : M Unit := do
  flushM
  if !(← getH).stbuf.isEmpty then waitEarlier

end Sys2Proof.Machine
end

