-- ==== Sys2Proof/Machine/ScalarMem.lean ====
section
/-! DEFINITION. Scalar loads and stores, acquire and release, fences, prefetch and translation control: majors 0x08 to 0x0B
(R118 to R123, R129 to R131, R144 to R146). -/

namespace Sys2Proof.Machine

def bytesVal (bs : List (Byte × Bool)) : Nat := leNat (bs.map (·.1))
def anyPsn (bs : List (Byte × Bool)) : Bool := bs.any (·.2)

/-- Extension of a value of `n` bytes (R119 table). -/
def extendTo (signed : Bool) (n v : Nat) : DWord :=
  if signed then (BitVec.ofNat (8 * n) v).signExtend 64 else BitVec.ofNat 64 v

/-- A scalar load of `n` bytes from the space that `t` selects (R121). -/
def loadScalar (t : Bool) (va : DWord) (n : Nat) (poisonCause : Nat) : M Nat := do
  if va.toNat % n ≠ 0 then before 0x30 va
  let bs ← if t then do
      let h ← getH
      let (sp, off) := h.tcmSpace va
      loadSpace .scalar sp off n poisonCause
    else do
      let w ← whoM
      loadGlob .scalar va n .before 0 (some { w with psnCause := poisonCause })
  if anyPsn bs then squash poisonCause va
  return bytesVal bs

/-- A scalar store of the low `n` bytes of `d` (R121, R122). -/
def storeScalar (t : Bool) (va : DWord) (n : Nat) (d : DWord) : M Unit := do
  if va.toNat % n ≠ 0 then before 0x30 va
  let bs := leBytes n d.toNat
  if t then
    let h ← getH
    let (sp, off) := h.tcmSpace va
    storeSpace .scalar sp off va bs false
  else storeGlob .scalar va bs false .before

def loadBody (fm : Form) (d b i : BitVec 6) (t signed : Bool) (n : Nat) : M Unit := do
  let va := addrB fm b i (← getH)
  let v ← loadScalar t va n 0x40
  modH fun h => h.setX d (extendTo signed n v)

def execLds (fm : Form) (d b i : BitVec 6) (w : BitVec 2) (t : Bool) (s : State) : Out :=
  .next (run (.lds fm d b i w t) (loadBody fm d b i t true (2 ^ w.toNat)) s)
def execLdD (fm : Form) (d b i : BitVec 6) (t : Bool) (s : State) : Out :=
  .next (run (.ldD fm d b i t) (loadBody fm d b i t false 8) s)
def execLdz (fm : Form) (d b i : BitVec 6) (w : BitVec 2) (t : Bool) (s : State) : Out :=
  .next (run (.ldz fm d b i w t) (loadBody fm d b i t false (2 ^ w.toNat)) s)

def storeBody (fm : Form) (v b i : BitVec 6) (w : BitVec 2) (t : Bool) : M Unit := do
  let h ← getH
  storeScalar t (addrB fm b i h) (2 ^ w.toNat) (h.getX v)

def execSt (fm : Form) (v b i : BitVec 6) (w : BitVec 2) (t : Bool) (s : State) : Out :=
  .next (run (.st fm v b i w t) (storeBody fm v b i w t) s)

/-! ## Acquire and release -/

/-- `ldacq` is a load that younger accesses follow; poison raises 0x41 (R123, R146, R151). Accesses of this model follow in
program order already. -/
def ldacqBody (fm : Form) (d b i : BitVec 6) (w : Bool) : M Unit := do
  let va := addrB fm b i (← getH)
  let n := if w then 8 else 4
  let v ← loadScalar false va n 0x41
  modH fun h => h.setX d (BitVec.ofNat 64 v)

def execLdacq (fm : Form) (d b i : BitVec 6) (w : Bool) (c : Scope) (s : State) : Out :=
  .next (run (.ldacq fm d b i w c) (ldacqBody fm d b i w) s)

/-- What a release at a scope waits for: engine transfers, and at fabric scope, and no other, the delivery of older messages (R145, R146,
R340). Every older write then performs. -/
def releaseAt (c : Scope) : M Unit := do
  waitTransfers 0xE
  let h ← getH
  if c == .fab && h.undelivered != 0 then throw (.stall 0xE)
  settleAll

/-- `strel` performs after every older access, and so does its walk (R134, R146). -/
def strelBody (fm : Form) (v b i : BitVec 6) (w : Bool) (c : Scope) : M Unit := do
  let h ← getH
  let va := addrB fm b i h
  let n := if w then 8 else 4
  if va.toNat % n ≠ 0 then before 0x30 va
  releaseAt c
  storeGlob .scalar va (leBytes n (h.getX v).toNat) false .before
  flushM

def execStrel (fm : Form) (v b i : BitVec 6) (w : Bool) (c : Scope) (s : State) : Out :=
  .next (run (.strel fm v b i w c) (strelBody fm v b i w c) s)

/-! ## Fences, prefetch, translation control -/

/-- `fence.sv`: older scalar-class accesses before younger vector-class ones (R144). -/
def execFenceSv (fm : Form) (s : State) : Out := .next (run (.fenceSv fm) (flushM (· == .scalar)) s)

/-- `fence.vs`: older vector-class accesses, engine transfers among them, before younger scalar-class ones (R144). -/
def execFenceVs (fm : Form) (s : State) : Out :=
  .next (run (.fenceVs fm) (do waitTransfers 0xE; flushM (· == .vector)) s)

/-- `fence.S`: every older access performs, and what was fetched ahead is discarded (R59, R130, R145). -/
def fenceBody (c : Scope) : M Unit := do
  releaseAt c
  modH fun h => { h with ahead := [] }

def execFence (fm : Form) (c : Scope) (s : State) : Out := .next (run (.fence fm c) (fenceBody c) s)

/-- A prefetch has no architectural effect (R129). -/
def execPref (fm : Form) (_b _i : BitVec 6) (_l : BitVec 2) (s : State) : Out := .next (plain fm id s)

/-- Older stores of the hart perform, then the translations selected leave every cache. Writes of other harts that used one, by
address space and address, perform first (R131). -/
def tlbinvBody (i : Instr) (sel : TlbEntry → Bool) (used : Nat → Nat → Bool) : M Unit := do
  let h ← getH
  if !h.status.prv then before 3 (word0 i)
  settleAll
  if (← get).harts.any fun g => g.live && g.stbuf.any fun w => w.space == .glob && used g.asn w.va.toNat then throw (.stall 0xE)
  modify fun s => { s with tlb := s.tlb.filter fun e => !sel e }

def execTlbinvVa (fm : Form) (a n : BitVec 6) (s : State) : Out :=
  .next (run (.tlbinvVa fm a n) (do
    let h ← getH
    let va := (h.getX a).toNat
    let asn := (h.getX n).toNat % 65536
    -- a page is at most 1 GiB
    tlbinvBody (.tlbinvVa fm a n) (fun e => e.asn == asn && decide (e.va ≤ va) && decide (va < e.va + e.size))
      fun a v => a == asn && v / 2 ^ 30 == va / 2 ^ 30) s)

def execTlbinvAsn (fm : Form) (n : BitVec 6) (s : State) : Out :=
  .next (run (.tlbinvAsn fm n) (do
    let h ← getH
    let asn := (h.getX n).toNat % 65536
    tlbinvBody (.tlbinvAsn fm n) (fun e => e.asn == asn) fun a _ => a == asn) s)

def execTlbinvAll (fm : Form) (s : State) : Out :=
  .next (run (.tlbinvAll fm) (tlbinvBody (.tlbinvAll fm) (fun _ => true) fun _ _ => true) s)

end Sys2Proof.Machine
end

