-- ==== Sys2Proof/Machine/Formats.lean ====
section
/-! DEFINITION. Number formats (03_utdar_formats.md): codes, exact values, rounding, comparison, the format descriptor,
stochastic rounding and floating immediates. -/

namespace Sys2Proof.Machine

/-! ## Format codes (R69) -/

def isIeee (c : Nat) : Bool := c ≤ 2
def isTap (c : Nat) : Bool := 8 ≤ c && c ≤ 10
def isTb8 (c : Nat) : Bool := c == 0x0B
def isMx (c : Nat) : Bool := 0x10 ≤ c && c ≤ 0x12
def isInt (c : Nat) : Bool := 0x20 ≤ c && c ≤ 0x27
/-- The floating class (R156). -/
def isFloating (c : Nat) : Bool := isIeee c || isTap c
/-- Formats with a scale byte for 32 elements. -/
def isBlock (c : Nat) : Bool := isTb8 c || isMx c
def isFmt (c : Nat) : Bool := isFloating c || isBlock c || isInt c
def isSigned (c : Nat) : Bool := c < 0x24

/-- Element width in bits. -/
def fmtWidth (c : Nat) : Nat :=
  if c = 0 then 32 else if c = 1 then 16 else if c = 2 then 64
  else if c = 0x12 then 4 else if isBlock c then 8
  else if isTap c then 8 * 2 ^ (c - 8)
  else if isInt c then 8 * 2 ^ (c % 4) else 32

/-- Exponent and fraction bits of an IEEE or MX format, and whether its top exponent holds infinities and NaNs. -/
def fpShape (c : Nat) : Nat × Nat :=
  if c = 0 then (8, 23) else if c = 1 then (5, 10) else if c = 2 then (11, 52)
  else if c = 0x10 then (4, 3) else if c = 0x11 then (5, 2) else (2, 1)

/-- Size and exponent size of a tapered format (R70); tb8 elements are tap8. -/
def tapShape (c : Nat) : Nat × Nat := if c = 9 then (16, 1) else if c = 10 then (32, 2) else (8, 1)

/-! ## Exact values -/

/-- An exact value of an operand or of an operation. `num n m e` is (−1)^n × m × 2^e with m > 0. A quotient or a root carries
more digits than any rounding looks at, and a last digit 1 when it is not exact. `divz` is nonzero ÷ 0 (R73). -/
inductive Val where
  | nar
  | inf (neg : Bool)
  | divz (neg : Bool)
  | zero (neg : Bool)
  | num (neg : Bool) (m : Nat) (e : Int)
  deriving DecidableEq, Repr

/-- Consecutive bits equal to `b` downward from bit i − 1. -/
def runDown (c : Nat) (b : Bool) : Nat → Nat
  | 0 => 0
  | i + 1 => if c.testBit i == b then runDown c b i + 1 else 0

/-- Value of a tapered code (R71). -/
def tapVal (n es c : Nat) : Val :=
  if c = 0 then .zero false
  else if c = 2 ^ (n - 1) then .nar
  else
    let s := c.testBit (n - 1)
    let c := if s then 2 ^ n - c else c
    let b := c.testBit (n - 2)
    let m := runDown c b (n - 1)
    let k : Int := if b then (m : Int) - 1 else -(m : Int)
    let rest := n - 2 - m
    let ne := min es rest
    let e := bits c (rest - ne) ne * 2 ^ (es - ne)
    let nf := rest - ne
    .num s (2 ^ nf + c % 2 ^ nf) (k * 2 ^ es + e - nf)

/-- Value of an IEEE or MX code (R77, R78). -/
def fpVal (c p : Nat) : Val :=
  let (eb, mb) := fpShape c
  let neg := p.testBit (eb + mb)
  let e := bits p mb eb
  let f := p % 2 ^ mb
  let bias := 2 ^ (eb - 1) - 1
  if e = 2 ^ eb - 1 && isIeee c && f != 0 then .nar
  else if e = 2 ^ eb - 1 && isIeee c then .inf neg
  else if c = 0x11 && e = 31 then (if f = 0 then .inf neg else .nar)
  else if c = 0x10 && e = 15 && f = 7 then .nar
  else if e = 0 && f = 0 then .zero neg
  else if e = 0 then .num neg f (1 - (bias : Int) - mb)
  else .num neg (2 ^ mb + f) ((e : Int) - bias - mb)

/-- An integer as a value. -/
def intVal (z : Int) : Val := if z = 0 then .zero false else .num (z < 0) z.natAbs 0

/-- The integer that a pattern of an integer format names. -/
def patInt (c p : Nat) : Int :=
  let w := fmtWidth c
  let p := p % 2 ^ w
  if isSigned c && p.testBit (w - 1) then (p : Int) - 2 ^ w else p

/-- The exact value of a pattern in a format. -/
def valueOf (c p : Nat) : Val :=
  let p := p % 2 ^ fmtWidth c
  if isTap c || isTb8 c then tapVal (tapShape c).1 (tapShape c).2 p
  else if isInt c then intVal (patInt c p)
  else fpVal c p

/-- A subnormal IEEE pattern (R77). -/
def isSubnormal (c p : Nat) : Bool :=
  let (eb, mb) := fpShape c
  isIeee c && bits p mb eb == 0 && p % 2 ^ mb != 0

/-- Sign of a value other than not-a-real. -/
def Val.isNeg : Val → Bool
  | .inf n | .divz n | .zero n | .num n _ _ => n
  | .nar => false

def Val.isZero : Val → Bool
  | .zero _ => true
  | _ => false

/-- A zero of the sign of a value. -/
def Val.flush (v : Val) : Val := .zero v.isNeg

/-- Scale of a block by its byte (R75, R78): not-a-real for 0xFF, else 2^(s − 127). -/
def scaleVal (s : Nat) : Val := if s = 255 then .nar else .num false 1 ((s : Int) - 127)

/-! ## Exact operations (R73 and IEEE 754 for signs and specials) -/

def Val.neg : Val → Val
  | .nar => .nar
  | .inf n => .inf !n
  | .divz n => .divz !n
  | .zero n => .zero !n
  | .num n m e => .num (!n) m e

def Val.abs : Val → Val
  | .nar => .nar
  | .inf _ => .inf false
  | .divz _ => .divz false
  | .zero _ => .zero false
  | .num _ m e => .num false m e

/-- Signed integer at exponent `k`, for k at most the exponent. -/
def scaled (neg : Bool) (m : Nat) (e k : Int) : Int :=
  let z : Int := m * 2 ^ (e - k).toNat
  if neg then -z else z

/-- Sum; an exact zero sum of operands of opposite sign is −0 only when rounding goes toward −∞ (R73). -/
def Val.add (down : Bool) : Val → Val → Val
  | .nar, _ | _, .nar => .nar
  | .inf a, .inf b => if a = b then .inf a else .nar
  | .inf a, _ | _, .inf a => .inf a
  | .divz a, _ | _, .divz a => .divz a
  | .zero a, .zero b => .zero (if a = b then a else down)
  | .zero _, .num n m e | .num n m e, .zero _ => .num n m e
  | .num n m e, .num n' m' e' =>
    let k := min e e'
    let z := scaled n m e k + scaled n' m' e' k
    if z = 0 then .zero down else .num (z < 0) z.natAbs k

def Val.mul : Val → Val → Val
  | .nar, _ | _, .nar => .nar
  | .inf _, .zero _ | .zero _, .inf _ => .nar
  | .inf a, b => .inf (a != b.isNeg)
  | a, .inf b => .inf (a.isNeg != b)
  | .divz a, b => .divz (a != b.isNeg)
  | a, .divz b => .divz (a.isNeg != b)
  | .zero a, b => .zero (a != b.isNeg)
  | a, .zero b => .zero (a.isNeg != b)
  | .num n m e, .num n' m' e' => .num (n != n') (m * m') (e + e')

/-- Quotient of two naturals to 256 digits below that of the dividend, the last digit 1 when it is not exact. -/
def stickyDiv (a b : Nat) : Nat :=
  let q := a / b
  if a % b = 0 then 2 * q else 2 * q + 1

/-- The quotient (R73). An infinity over zero is an infinite result from an infinite source (log entry 76). -/
def Val.div : Val → Val → Val
  | .nar, _ | _, .nar => .nar
  | .inf _, .inf _ => .nar
  | .zero _, .zero _ => .nar
  | .inf a, b => .inf (a != b.isNeg)
  | a, .inf b => .zero (a.isNeg != b)
  | .divz a, b => .divz (a != b.isNeg)
  | a, .divz b => .zero (a.isNeg != b)
  | .zero a, b => .zero (a != b.isNeg)
  | a, .zero b => .divz (a.isNeg != b)
  | .num n m e, .num n' m' e' =>
    let s := 256 + Nat.log2 m'
    .num (n != n') (stickyDiv (m * 2 ^ s) m') (e - e' - s - 1)

/-- Integer square root, one digit of the result for each step. -/
def isqrtFrom (n : Nat) : Nat → Nat → Nat
  | 0, r => r
  | k + 1, r => isqrtFrom n k (if (r + 2 ^ k) ^ 2 ≤ n then r + 2 ^ k else r)

def isqrt (n : Nat) : Nat := isqrtFrom n (Nat.log2 n / 2 + 1) 0

/-- √(m × 2^e) with at least 256 digits. -/
def rootNum (m : Nat) (e : Int) : Val :=
  let s : Nat := if e % 2 = 0 then 512 else 513
  let r := isqrt (m * 2 ^ s)
  .num false (if r * r = m * 2 ^ s then 2 * r else 2 * r + 1) ((e - s) / 2 - 1)

def Val.sqrt : Val → Val
  | .num false m e => rootNum m e
  | .num true _ _ | .inf true => .nar
  | v => v

/-- 1 ÷ √v: ±∞ of a zero in IEEE, not-a-real in tapered formats (R73, R161). -/
def Val.rsqrt : Val → Val
  | .num false m e =>
    -- 1 / √(m 2^e) = √(2^(−e) / m), with the quotient exact enough to keep the last digit right
    let s : Nat := 1024 + 2 * Nat.log2 m + (if e % 2 = 0 then 0 else 1)
    let q := 2 ^ s / m
    let r := isqrt q
    .num false (if r * r * m = 2 ^ s then 2 * r else 2 * r + 1) ((-e - s) / 2 - 1)
  | .num true _ _ | .inf true | .nar => .nar
  | .inf false => .zero false
  | .zero n => .divz n
  | .divz n => .divz n

/-- Order of two values that are not not-a-real (R74): −∞ below all, +∞ above all, zeros equal. -/
def Val.cmp : Val → Val → Ordering
  | .inf a, .inf b => if a = b then .eq else if a then .lt else .gt
  | .inf a, _ => if a then .lt else .gt
  | _, .inf b => if b then .gt else .lt
  | .zero _, .num n _ _ => if n then .gt else .lt
  | .num n _ _, .zero _ => if n then .lt else .gt
  | .num n m e, .num n' m' e' =>
    let k := min e e'
    compare (scaled n m e k) (scaled n' m' e' k)
  | _, _ => .eq

/-- Comparison decided by the family of source a: `none` is unordered (R74, R157). -/
def compareVals (ieee : Bool) (a b : Val) : Option Ordering :=
  match a, b with
  | .nar, .nar => if ieee then none else some .eq
  | .nar, _ => if ieee then none else some .lt
  | _, .nar => if ieee then none else some .gt
  | a, b => some (a.cmp b)

/-- Minimum or maximum by the family of source a (R74); of two values that are equal there, a tapered zero and an IEEE −0, it is a (log
entry 94). -/
def pickVals (ieee larger : Bool) (a b : Val) : Val :=
  match a, b with
  | .nar, _ | _, .nar => .nar
  | .zero m, .zero n => if ieee then .zero (if larger then m && n else m || n) else a
  | a, b =>
    match a.cmp b with
    | .lt => if larger then b else a
    | .gt => if larger then a else b
    | .eq => a

/-! ## Rounding -/

/-- Rounding modes (R72, R80); `sr` carries the 32-bit stochastic input. -/
inductive Rnd where
  | rne | rtz | up | down | away
  | sr (rnd : Nat)
  deriving DecidableEq, Repr

/-- RM of a descriptor. -/
def rmOf (rm : Nat) : Rnd :=
  if rm = 1 then .rtz else if rm = 2 then .up else if rm = 3 then .down else if rm = 4 then .away else .rne

/-- m ÷ 2^s rounded to an integer, for a value of sign `neg`. -/
def roundShift (md : Rnd) (neg : Bool) (m s : Nat) : Nat :=
  let q := m / 2 ^ s
  let r := m % 2 ^ s
  let up := match md with
    | .rne => 2 ^ s < 2 * r || (2 * r == 2 ^ s && q % 2 == 1)
    | .rtz => false
    | .up => r != 0 && !neg
    | .down => r != 0 && neg
    | .away => 2 ^ s ≤ 2 * r
    | .sr n => n * 2 ^ s < r * 2 ^ 32
  if s = 0 then m else if up then q + 1 else q

/-- Rounding to a tapered code (R72). -/
def roundTap (n es : Nat) (md : Rnd) (neg : Bool) (m : Nat) (e : Int) : Nat :=
  let lg := Nat.log2 m
  let ex : Int := e + lg
  let lim : Int := (n - 2) * 2 ^ es
  let c :=
    if lim ≤ ex then 2 ^ (n - 1) - 1
    else if ex < -lim || (ex == -lim && m == 2 ^ lg) then 1
    else
      let k := ex / 2 ^ es
      let sub := (ex - k * 2 ^ es).toNat
      let (reg, len) := if 0 ≤ k then (2 ^ (k.toNat + 2) - 2, k.toNat + 2) else (1, (-k).toNat + 1)
      -- every digit of the unbounded encoding
      let t := (reg * 2 ^ es + sub) * 2 ^ lg + (m - 2 ^ lg)
      let total := len + es + lg
      if n - 1 ≤ total then roundShift md false t (total - (n - 1)) else t * 2 ^ (n - 1 - total)
  if neg then 2 ^ n - c else c

/-- A value as a tapered code (R73). -/
def toTap (c : Nat) (md : Rnd) (sat : Bool) (v : Val) : Nat :=
  let (n, es) := tapShape c
  match v with
  | .nar | .divz _ => 2 ^ (n - 1)
  | .inf neg => if sat then (if neg then 2 ^ (n - 1) + 1 else 2 ^ (n - 1) - 1) else 2 ^ (n - 1)
  | .zero _ => 0
  | .num neg m e => roundTap n es md neg m e

/-- What becomes of a tiny IEEE result (R53, R77). -/
inductive Tiny where
  | flush | assist | gradual
  deriving DecidableEq, Repr

def signBit (c : Nat) (neg : Bool) : Nat := if neg then 2 ^ (fmtWidth c - 1) else 0

/-- The canonical quiet NaN (R77). -/
def qnan (c : Nat) : Nat :=
  let (eb, mb) := fpShape c
  (2 ^ eb - 1) * 2 ^ mb + 2 ^ (mb - 1)

def fpInf (c : Nat) : Nat := (2 ^ (fpShape c).1 - 1) * 2 ^ (fpShape c).2

/-- Overflow: ±largest finite when SAT = 1 or the direction keeps it finite, else ±∞ (R73). -/
def overflow (c : Nat) (md : Rnd) (sat neg : Bool) : Nat :=
  let finite := sat || (match md with | .rtz => true | .up => neg | .down => !neg | _ => false)
  signBit c neg + (if finite then fpInf c - 1 else fpInf c)

/-- IEEE rounding of a nonzero real: `none` when it needs the assist (R73, R77). -/
def roundIeee (c : Nat) (md : Rnd) (sat : Bool) (ty : Tiny) (neg : Bool) (m : Nat) (e : Int) : Option Nat :=
  let (eb, mb) := fpShape c
  let bias : Int := 2 ^ (eb - 1) - 1
  let lg := Nat.log2 m
  let ex : Int := e + lg
  if ex < 1 - bias then
    match ty with
    | .flush => some (signBit c neg)
    | .assist => none
    | .gradual =>
      let s : Int := 1 - bias - mb - e
      some (signBit c neg + (if 0 ≤ s then roundShift md neg m s.toNat else m * 2 ^ (-s).toNat))
  else
    let q := if mb ≤ lg then roundShift md neg m (lg - mb) else m * 2 ^ (mb - lg)
    let code := (ex + bias).toNat * 2 ^ mb + (q - 2 ^ mb)
    if bias < ex || fpInf c ≤ code then some (overflow c md sat neg) else some (signBit c neg + code)

/-- A value as an IEEE pattern (R73). -/
def toIeee (c : Nat) (md : Rnd) (sat : Bool) (ty : Tiny) : Val → Option Nat
  | .nar => some (qnan c)
  | .inf n | .divz n => some (signBit c n + fpInf c)
  | .zero n => some (signBit c n)
  | .num n m e => roundIeee c md sat ty n m e

/-- Range of an integer format. -/
def intMin (c : Nat) : Int := if isSigned c then -(2 ^ (fmtWidth c - 1)) else 0
def intMax (c : Nat) : Int := if isSigned c then 2 ^ (fmtWidth c - 1) - 1 else 2 ^ fmtWidth c - 1

def clampInt (c : Nat) (z : Int) : Int := max (intMin c) (min (intMax c) z)

/-- Two's-complement pattern of an integer at a width. -/
def patOf (w : Nat) (z : Int) : Nat := (z % 2 ^ w).toNat

/-- Storing an exact integer result (R157). -/
def storeInt (c : Nat) (sat : Bool) (z : Int) : Nat := patOf (fmtWidth c) (if sat then clampInt c z else z)

/-- Conversion of a value to an integer format: rounded, then clamped (R73). -/
def toInt (c : Nat) (md : Rnd) (v : Val) : Nat :=
  let z : Int := match v with
    | .nar | .zero _ => 0
    | .inf n | .divz n => if n then intMin c else intMax c
    | .num n m e =>
      let q : Int := if 0 ≤ e then m * 2 ^ e.toNat else roundShift md n m (-e).toNat
      if n then -q else q
  patOf (fmtWidth c) (clampInt c z)

/-! ## The format descriptor (R79 to R81) -/

def fdFA (d : DWord) : Nat := bits d.toNat 0 6
def fdFB (d : DWord) : Nat := bits d.toNat 6 6
def fdDst (d : DWord) : Nat := bits d.toNat 12 6
def fdRM (d : DWord) : Nat := bits d.toNat 18 3
def fdSat (d : DWord) : Bool := flag d.toNat 21
def fdSub (d : DWord) : Bool := flag d.toNat 22
def fdSR (d : DWord) : Bool := flag d.toNat 23
def fdBsz (d : DWord) : Nat := bits d.toNat 24 2
def fdScm (d : DWord) : Nat := bits d.toNat 26 2
def fdKdep (d : DWord) : Nat := bits d.toNat 28 3
def fdScb (d : DWord) : Nat := bits d.toNat 32 8

/-- Which fields of a descriptor an instruction reads, and the codes it accepts there. -/
structure FdUse where
  fa : Option (Nat → Bool) := none
  fb : Option (Nat → Bool) := none
  dst : Option (Nat → Bool) := none
  rounds : Bool := false
  kdep : Bool := false
  /-- the fields of blocks are not read (R265, R266, R273) -/
  noBlock : Bool := false

/-- The descriptor passes R81. -/
def fdOk (u : FdUse) (d : DWord) : Bool :=
  let ok := fun (p : Option (Nat → Bool)) c => match p with | none => true | some f => isFmt c && f c
  let reads := fun (p : Option (Nat → Bool)) c => match p with | none => false | some _ => isBlock c
  let tb := fun (p : Option (Nat → Bool)) c => match p with | none => false | some _ => isTb8 c
  bits d.toNat 40 24 == 0 && !flag d.toNat 31 &&
  ok u.fa (fdFA d) && ok u.fb (fdFB d) && ok u.dst (fdDst d) &&
  (!u.rounds || decide (fdRM d ≤ (if isTap (fdDst d) || isTb8 (fdDst d) then 1 else 4))) &&
  (u.noBlock || ((!(reads u.fa (fdFA d) || reads u.fb (fdFB d) || reads u.dst (fdDst d)) || fdBsz d == 0) &&
    (!(tb u.dst (fdDst d)) || decide (fdScm d < 2)))) &&
  (!u.kdep || decide (fdKdep d < 3) || (fdKdep d == 3 && !(tb u.fa (fdFA d) || tb u.fb (fdFB d))))

/-! ## One rounding under a descriptor (R82, R158) -/

/-- The stochastic input of element e (R82). -/
def rndOf (seed base : DWord) (e : Nat) : Nat := (mix64 (seed + base + BitVec.ofNat 64 e)).toNat / 2 ^ 32

/-- The seed, the base and the descriptor that a rounding uses. -/
structure RCtx where
  d : DWord
  seed : DWord
  base : DWord
  deriving DecidableEq, Repr

/-- The mode of a rounding to a format: RM, or SR for a tapered or tb8 result (R72, R80). -/
def RCtx.mode (r : RCtx) (c e : Nat) : Rnd :=
  if fdSR r.d && (isTap c || isTb8 c) then .sr (rndOf r.seed r.base e) else rmOf (fdRM r.d)

/-- The pattern of a value in format `c` with key e; `none` when it needs the assist. -/
def RCtx.round (r : RCtx) (c e : Nat) (v : Val) : Option Nat :=
  if isInt c then some (toInt c (rmOf (fdRM r.d)) v)
  else if isIeee c then toIeee c (rmOf (fdRM r.d)) (fdSat r.d) (if fdSub r.d then .assist else .flush) v
  else some (toTap c (r.mode c e) (fdSat r.d) v)

/-- A source of an operation whose result has format `dst` (R77): `none` when it needs the assist. -/
def sourceVal (d : DWord) (dst c p : Nat) : Option Val :=
  if isIeee dst && isSubnormal c p then (if fdSub d then none else some (valueOf c p).flush) else some (valueOf c p)

/-- The same where SUB = 0, and a tiny result is flushed (R214, R233). -/
def RCtx.roundNoSub (r : RCtx) (c e : Nat) (v : Val) : Nat := (r.round c e v).getD 0

/-- One block written as tb8: its scale byte and the code of each value, with the key of the first (R76). -/
def tb8Scale (d : DWord) (vs : List Val) : Nat :=
  let bad := vs.any fun v => match v with
    | .nar | .divz _ => true
    | .inf _ => !fdSat d
    | _ => false
  if bad then 255
  else if fdScm d = 1 then min (fdScb d) 254
  else
    let lgs := vs.filterMap fun v => match v with
      | .inf _ => some (139 : Int)
      | .num _ m e => some (e + Nat.log2 m)
      | _ => none
    match lgs with
    | [] => 127
    | l :: ls => (max 0 (min 254 (ls.foldl max l + 127))).toNat

def tb8Code (r : RCtx) (s e : Nat) (v : Val) : Nat :=
  if s = 255 then 0x80
  else
    let v := match v with | .num n m x => .num n m (x - ((s : Int) - 127)) | v => v
    toTap 8 (r.mode 8 e) (fdSat r.d) v

/-! ## Immediates in place of source b (R51 to R53, R159) -/

/-- The literal and IMM of a form, and LT. -/
def immOf (fm : Form) : Option (Bool × Bool × Nat) :=
  match fm with
  | .base => none
  | .baseLit l => some (true, false, l.toNat)
  | .ext e => if e.ib then some (false, false, e.imm.toNat) else none
  | .extLit e l => some (true, e.lt, l.toNat)

/-- Integer immediate at a width: a signed type extends IMM by its sign (R51). -/
def immInt (fm : Form) (c : Nat) : Nat :=
  match immOf fm with
  | none => 0
  | some (true, _, l) => l % 2 ^ fmtWidth c
  | some (false, _, i) =>
    if isSigned c then ((BitVec.ofNat 24 i).signExtend 64).toNat % 2 ^ fmtWidth c else i % 2 ^ fmtWidth c

/-- Floating immediate converted to FB: to nearest even under SR or where RM is not valid for FB, with gradual underflow and
without SAT for an IEEE target (R52, R53). -/
def immFloat (fm : Form) (d : DWord) (c : Nat) : Nat :=
  match immOf fm with
  | none => 0
  | some (isLit, lt, p) =>
    let v := if isLit then (if lt then valueOf 10 p else valueOf 2 p) else valueOf 9 (p % 65536)
    let md := if fdSR d || (isTap c && 1 < fdRM d) then .rne else rmOf (fdRM d)
    if isLit && !lt && c == 2 then p
    else if isIeee c then (toIeee c md false .gradual v).getD 0
    else toTap c md (fdSat d) v

/-- The immediate as a pattern of FB. -/
def immPat (fm : Form) (d : DWord) : Nat := if isInt (fdFB d) then immInt fm (fdFB d) else immFloat fm d (fdFB d)

/-- A field of an immediate that FB leaves without a meaning is nonzero (R401, R50). -/
def immReserved (fm : Form) (d : DWord) : Bool :=
  match fm with
  | .ext e => e.ib && !isInt (fdFB d) && e.imm.toNat / 65536 != 0
  | .extLit e _ => isInt (fdFB d) && e.lt
  | _ => false

end Sys2Proof.Machine
end

