-- ==== Sys2Proof/Machine/StreamCore.lean ====
section
/-! DEFINITION. Pattern records, the fetches of stream engines, pops, and the reading of source operands (R209 to R214, R219 to
R224). -/

namespace Sys2Proof.Machine

/-! ## Pattern records (R209 to R212, R214) -/

/-- One step of the operator chain; `cin` is the current format before it. -/
structure ChainStep where
  op : Nat
  sc : Bool
  gsz : Nat
  fd : DWord
  arg : DWord
  cin : Nat
  deriving DecidableEq, Repr

structure Pattern where
  base : DWord
  fibre : Bool
  space : Nat
  fmt : Nat
  count : Nat
  dims : List (Nat × DWord)
  cbase : DWord
  vbase : DWord
  steps : List ChainStep
  out : Nat
  deriving DecidableEq, Repr

def recWord (r : List Byte) (off : Nat) : Nat := leNat ((r.drop off).take 8)

/-- Bits of a step descriptor that the step reads; others must be zero (R212). -/
def stepFields (op : Nat) : Nat :=
  if op = 1 then 0x3BFF03F else if op = 2 then 0xBFF03F else if op = 4 then 0x3F else 0

/-- A conversion target of a stream (R212). -/
def streamDst (c : Nat) : Bool := isFloating c || isInt c

def stepOk (cur : Nat) (st : ChainStep) : Bool :=
  let f := st.fd
  f.toNat &&& stepFields st.op == f.toNat &&
  (if st.op = 1 then
    fdOk { fa := some fun _ => true, dst := some streamDst, rounds := true } f && fdFA f == cur &&
      (isBlock cur || st.arg == 0)
  else if st.op = 2 then
    fdOk { fa := some isFloating, dst := some isFloating, rounds := true } f && fdFA f == cur
  else if st.op = 4 then
    isInt cur && fdOk { fa := some fun _ => true } f && fmtWidth (fdFA f) == 8 * 2 ^ st.gsz
  else st.op == 3)

/-- The steps of a record from step `k` on, with the current format; `none` when one is malformed. -/
def parseSteps (r : List Byte) (fibre : Bool) : Nat → Nat → Nat → Option (List ChainStep × Nat)
  | 0, _, cur => some ([], cur)
  | n + 1, k, cur =>
    let w := recWord r (80 + 24 * k)
    let op := bits w 0 4
    let st : ChainStep := { op := op, sc := flag w 10, gsz := bits w 8 2, fd := BitVec.ofNat 64 (recWord r (88 + 24 * k)),
                            arg := BitVec.ofNat 64 (recWord r (96 + 24 * k)), cin := cur }
    let plain := bits w 11 53 == 0 && bits w 4 4 == 0 && (op == 4 || bits w 8 3 == 0) && !(fibre && 2 < op)
    if !plain || !stepOk cur st then none
    else
      let next := if op = 1 || op = 2 then fdDst st.fd else if op = 4 then fdFA st.fd else cur
      match parseSteps r fibre n (k + 1) next with
      | none => none
      | some (l, out) => some (st :: l, out)

/-- A pattern record; `none` when it is malformed (R214). Code 3 of ALC is malformed, as of CLS (R209; log entry 13). -/
def parsePattern (r : List Byte) : Option Pattern :=
  let hd := recWord r 8
  let fmt := bits hd 0 6
  let ndim := bits hd 12 3
  let kind := bits hd 15 2
  let nstep := bits hd 17 3
  let space := bits hd 6 2
  let size := fun d => recWord r (16 + 16 * d)
  let stride := fun d => recWord r (24 + 16 * d)
  let headOk := bits hd 24 40 == 0 && bits hd 8 4 == 0 && bits hd 20 2 != 3 && bits hd 22 2 != 3 && nstep ≤ 4 && kind ≤ 1 &&
    space != 3 && isFmt fmt && fmt != 0x12
  let n := if kind = 1 then size 0 else ((List.range ndim).map size).foldl (· * ·) 1
  let bodyOk :=
    if kind = 1 then ndim == 0 && size 0 < 2 ^ 32 && size 0 != 0 && (List.range 5).all fun k => recWord r (40 + 8 * k) == 0
    else 1 ≤ ndim && ndim ≤ 4 && n < 2 ^ 48 && (List.range 4).all fun d =>
      if d < ndim then size d < 2 ^ 32 && size d != 0 else size d == 0 && stride d == 0
  let restOk := (List.range 4).all fun k => k < nstep || (List.range 3).all fun j => recWord r (80 + 24 * k + 8 * j) == 0
  if !headOk || !bodyOk || !restOk then none
  else
    match parseSteps r (kind == 1) nstep 0 fmt with
    | none => none
    | some (steps, out) =>
      if isBlock out then none
      else some { base := BitVec.ofNat 64 (recWord r 0), fibre := kind == 1, space := space, fmt := fmt, count := n,
                  dims := (List.range ndim).map fun d => (size d, BitVec.ofNat 64 (stride d)),
                  cbase := BitVec.ofNat 64 (recWord r 24), vbase := BitVec.ofNat 64 (recWord r 32), steps := steps, out := out }

/-- The pattern of a binding: its record passed the checks when it was bound. -/
def Binding.pattern (b : Binding) : Pattern :=
  match parsePattern b.record with
  | some p => p
  | none => { base := 0, fibre := false, space := 0, fmt := 0, count := 0, dims := [], cbase := 0, vbase := 0, steps := [], out := 0 }

/-- Address of dense element i (R210). -/
def Pattern.addr (p : Pattern) (i : Nat) : DWord :=
  (p.dims.foldl (fun (acc : DWord × Nat) d => (acc.1 + BitVec.ofNat 64 (acc.2 % d.1) * d.2, acc.2 / d.1)) (p.base, i)).1

/-- The fixed-address bytes of a pattern as a range (R224); one that wraps covers everything. -/
def Pattern.range (p : Pattern) : Nat × Nat :=
  let b : Int := p.base.toNat
  let spans : List (Int × Int) :=
    if p.fibre then [(b, b + 8 * (p.count + 1))]
    else
      let ext := p.dims.map fun d => ((d.1 : Int) - 1) * d.2.toInt
      let lo := (ext.map (min 0)).foldl (· + ·) b
      let hi := (ext.map (max 0)).foldl (· + ·) b
      (lo, hi + fmtWidth p.fmt / 8) :: p.steps.filterMap fun st =>
        if st.op = 3 then some ((st.arg.toNat : Int), (st.arg.toNat : Int) + (p.count + 7) / 8)
        else if st.op = 1 && isBlock st.cin then some ((st.arg.toNat : Int), (st.arg.toNat : Int) + (p.count + 31) / 32)
        else none
  let lo := (spans.map (·.1)).foldl min b
  let hi := (spans.map (·.2)).foldl max b
  if lo < 0 || 2 ^ 64 < hi then (0, 2 ^ 64) else (lo.toNat, hi.toNat)

/-! ## Fetches (R211, R213, R222) -/

/-- A fetch: it may end in a fault with its address. -/
abbrev F := ExceptT (Nat × DWord) (StateM State)

/-- Reads bytes of global memory for an engine. -/
def engineGlob (w : Who) (va : DWord) (n : Nat) : F (List (Byte × Bool)) := do
  let l ← (piecesOf va.toNat n).mapM fun (a, len) => do
    let a := a % 2 ^ 64
    let (r, s) := (← get).translate w a .read
    set s
    match r with
    | .error (.cause c) => throw (c, BitVec.ofNat 64 a)
    | .error .wait => throw (0x20, BitVec.ofNat 64 a)
    | .ok (pa, key) =>
      let (r, s) := (← get).loadSector w [] pa len key a
      set s
      match r with
      | some l => return l
      | none => throw (0x44, BitVec.ofNat 64 a)
  return l.flatten

/-- The local storage that an address reaches for an engine of the hart: 1 TCM, 2 scratchpad. -/
def State.engineSpace (s : State) (w : Who) (h : Hart) (space : Nat) (va : DWord) : Space × Nat :=
  if space = 1 then { h with status := { h.status with prv := w.prv } }.tcmSpace va else s.spSpace h va

/-- Reads bytes of a space for an engine of the hart: 0 global, 1 TCM, 2 scratchpad. -/
def engineRead (w : Who) (h : Hart) (space : Nat) (va : DWord) (n : Nat) : F (List (Byte × Bool)) := do
  if space = 0 then engineGlob w va n
  else
    let s ← get
    let (sp, off) := s.engineSpace w h space va
    set (s.readEcc w sp off n)
    return ((List.range n).map fun i => s.loadLocal [] sp (spaceOff sp off i) 1).flatten

def bytesOf (l : List (Byte × Bool)) : Nat := leNat (l.map (·.1))
def poisoned (l : List (Byte × Bool)) : Bool := l.any (·.2)

/-- The steps of a chain on element i (R213). -/
def runChain (w : Who) (h : Hart) (b : Binding) (space i : Nat) : List ChainStep → Nat × Bool → F (Nat × Bool)
  | [], x => return x
  | st :: l, (x, p) =>
    if p then return (x, true)
    else do
      let r : RCtx := { d := st.fd, seed := b.seed, base := b.base }
      if st.op = 1 then
        let sc ← if isBlock st.cin then engineRead w h space (st.arg + BitVec.ofNat 64 (i / 32)) 1 else pure [(0, false)]
        if poisoned sc then return (x, true)
        let v := (sourceVal st.fd (fdDst st.fd) st.cin x).getD .nar
        let v := if isBlock st.cin then v.mul (scaleVal (bytesOf sc)) else v
        runChain w h b space i l (r.roundNoSub (fdDst st.fd) i v, false)
      else if st.op = 2 then
        let v := (sourceVal st.fd (fdDst st.fd) st.cin x).getD .nar
        runChain w h b space i l (r.roundNoSub (fdDst st.fd) i (v.mul (valueOf 2 st.arg.toNat)), false)
      else if st.op = 4 then
        let k := patInt st.cin x * (if st.sc then 2 ^ st.gsz else 1)
        let bs ← engineRead w h space (st.arg + BitVec.ofInt 64 k) (2 ^ st.gsz)
        runChain w h b space i l (bytesOf bs, poisoned bs)
      else runChain w h b space i l (x, false)

/-- The mask-select steps of a chain on element i, in order: what they deliver in its place, or `none` when it is selected. A step
that deselects it ends them, and a poisoned byte of a bitmap poisons it (R213; log entry 22). -/
def selectElem (w : Who) (h : Hart) (space i : Nat) : List ChainStep → F (Option (Nat × Bool))
  | [] => return none
  | st :: l => do
    let bs ← engineRead w h space (st.arg + BitVec.ofNat 64 (i / 8)) 1
    if poisoned bs then return some (0, true)
    if !(bytesOf bs).testBit (i % 8) then return some (0, false)
    selectElem w h space i l

/-- Element i of a dense stream (R213). -/
def fetchDense (w : Who) (h : Hart) (b : Binding) (p : Pattern) (i : Nat) : F (Nat × Bool) := do
  match ← selectElem w h p.space i (p.steps.filter (·.op == 3)) with
  | some x => return x
  | none =>
    let bs ← engineRead w h p.space (p.addr i) (fmtWidth p.fmt / 8)
    runChain w h b p.space i p.steps (bytesOf bs, poisoned bs)

/-- Pairs `j`, `j + 1`, … of a fibre, `n` of them, until one faults. -/
def fetchPairs (w : Who) (h : Hart) (b : Binding) (p : Pattern) : Nat → Nat → State → (List Pair × Option (Nat × DWord)) × State
  | 0, _, s => (([], none), s)
  | n + 1, j, s =>
    let one : F Pair := do
      let c ← engineRead w h p.space (p.cbase + BitVec.ofNat 64 (4 * j)) 4
      let v ← engineRead w h p.space (p.vbase + BitVec.ofNat 64 (j * (fmtWidth p.fmt / 8))) (fmtWidth p.fmt / 8)
      let (x, vp) ← runChain w h b p.space j p.steps (bytesOf v, poisoned v)
      return { crd := BitVec.ofNat 32 (bytesOf c), val := BitVec.ofNat 32 x, cp := poisoned c, vp := vp }
    match one s with
    | (.error e, s) => (([], some e), s)
    | (.ok x, s) =>
      let ((l, e), s) := fetchPairs w h b p n (j + 1) s
      ((x :: l, e), s)

/-- Fibre f of a fibre stream (R211). -/
def fetchFibre (w : Who) (h : Hart) (b : Binding) (p : Pattern) (f : Nat) : F Fetched := do
  let at_ := p.base + BitVec.ofNat 64 (8 * f)
  let bs ← engineRead w h p.space at_ 16
  if poisoned (bs.take 8) then throw (0x40, at_)
  if poisoned (bs.drop 8) then throw (0x40, at_ + 8)
  let lo := bytesOf (bs.take 8)
  let hi := bytesOf (bs.drop 8)
  if hi < lo || 2 ^ 23 ≤ hi - lo then return .fibre lo [] true none
  let ((l, e), s) := fetchPairs w h b p (hi - lo) lo (← get)
  set s
  return .fibre lo l false e

/-- The position that the engine fetches next: the first at or after the stream's that is not held. -/
def Binding.next (b : Binding) : Option Nat :=
  ((List.range (b.held.length + 1)).map (· + b.pos)).find? fun p =>
    decide (p < b.pattern.count) && b.held.all (·.1 != p)

/-- Every position left has been fetched without a fault (R224). -/
def Binding.allFetched (b : Binding) : Bool := b.next.isNone && b.held.all fun x => !x.2.faulty

/-- A stream engine fetches its next element; any fault stays with it (R213, R222, R224). -/
def State.streamFetch (s : State) (id : HartId) (q : BitVec 3) : State :=
  match s.hartAt id with
  | none => s
  | some h =>
    match h.getQ q with
    | none => s
    | some b =>
      match b.next with
      | none => s
      | some p =>
        let w : Who := { s.who h with prv := b.prv, psnCause := 0 }
        let pat := b.pattern
        let get1 : F Fetched :=
          if pat.fibre then fetchFibre w h b pat p
          else do
            let (v, ps) ← fetchDense w h b pat p
            return .elem v ps
        let (r, s) := get1 s
        let x := match r with | .ok x => x | .error (c, a) => .fault c a
        let b := { b with held := b.held ++ [(p, x)] }
        s.mapHarts (fun g => g.live && g.id == id) fun g =>
          let g := g.setQ q (some b)
          if b.allFetched then g.release (.stream q) else g

/-! ## Pops (R219 to R223) -/

/-- The stream register whose slot is `r` (R215, R219). -/
def Hart.slotOf (h : Hart) (r : BitVec 5) : Option (BitVec 3) :=
  ((List.range 8).map (BitVec.ofNat 3)).find? fun q => match h.getQ q with | some b => b.slot == some r | none => false

/-- A register that is a slot may not be written or named so (R220). -/
def noSlot (r : BitVec 5) : M Unit := do
  if ((← getH).slotOf r).isSome then before 0x65 (BitVec.ofNat 64 r.toNat)

/-- Changes a binding for good, whatever becomes of the convoy. -/
def keepBinding (q : BitVec 3) (f : Binding → Binding) : M Unit :=
  keepH fun h => match h.getQ q with | some b => h.setQ q (some (f b)) | none => h

/-- How a fault kept with a fetched element ends the instruction (R222). -/
def fetchedFault {α : Type} (kind : Kind) (code : Nat) (a : DWord) : M α :=
  if code = 0x40 || code = 0x44 then squash code a else throwTrap kind code a

/-- Moves a stream on by `n` positions (R219). -/
def Hart.advance (h : Hart) (q : BitVec 3) (n : Nat) : Hart :=
  match h.getQ q with
  | none => h
  | some b =>
    let b' := { b with pos := b.pos + n, held := b.held.filter fun x => b.pos + n ≤ x.1 }
    let h := if n = 0 then h else (h.setQ q (some b')).dirty (qBit q)
    if b'.allFetched then h.release (.stream q) else h

/-- Takes `n` elements of a dense stream; they count when the member retires (R381). -/
def popElems (q : BitVec 3) (n : Nat) : M (List (Nat × Bool)) := do
  let h ← getH
  match h.getQ q with
  | none => return []
  | some b =>
    if b.pattern.count < b.pos + n then before 0x62 (BitVec.ofNat 64 (b.pos + n))
    let got := (List.range n).map fun k => (b.held.find? (·.1 == b.pos + k)).map (·.2)
    keepBinding q fun c => c.wants b.pos (b.pos + n)
    if got.any fun x => x.isNone || x == some .again then throw (.stall 0xB)
    match got.findSome? fun x => match x with | some (.fault c a) => some (c, a) | _ => none with
    | some (c, a) => do
      keepBinding q Binding.deferFaults
      fetchedFault .before c a
    | none =>
      modH fun h => h.advance q n
      modify fun s => { s with cv := { s.cv with popped := s.cv.popped + n } }
      return got.map fun x => match x with | some (.elem v p) => (v, p) | _ => (0, false)

/-- Elements laid out in a register from element 0 (R6, R219). -/
def layElems (r : VReg) (w : Nat) (l : List (Nat × Bool)) : VReg :=
  ((List.range l.length).zip l).foldl (fun r (k, v, p) => r.setElt w k v p) r

/-- Reads one source register at a width: a slot pops `n` elements (R219). -/
def readSource (r : BitVec 5) (w n : Nat) : M VReg := do
  let h ← getH
  match h.slotOf r with
  | none => return h.getV r
  | some q =>
    let wo := match h.getQ q with | some b => fmtWidth b.pattern.out | none => 0
    if wo ≠ w then before 0x64 (BitVec.ofNat 64 wo)
    let l ← popElems q n
    return layElems (h.getV r) w l

/-- Reads source registers in order; one named twice pops once (R219). -/
def readSources (n : Nat) : List (BitVec 5 × Nat) → List (BitVec 5 × VReg) → M (List VReg)
  | [], _ => return []
  | (r, w) :: l, seen => do
    match seen.find? (·.1 == r) with
    | some (_, v) =>
      let h ← getH
      match (h.slotOf r).bind h.getQ with
      | some b => if fmtWidth b.pattern.out ≠ w then before 0x64 (BitVec.ofNat 64 (fmtWidth b.pattern.out))
      | none => pure ()
      return v :: (← readSources n l seen)
    | none =>
      let v ← readSource r w n
      return v :: (← readSources n l ((r, v) :: seen))

end Sys2Proof.Machine
end

