-- ==== Sys2Proof/Machine/VecMem.lean ====
section
/-! DEFINITION. Vector loads and stores: majors 0x0C to 0x0F (R124 to R128, R137), over the accesses of elements that the vector
scratchpad forms share. -/

namespace Sys2Proof.Machine

/-! ## Elements -/

/-- The elements of the current member that are active, below `n` and not finished (R47, R111, R125). -/
def todo (fm : Form) (n : Nat) : M (List Nat) := do
  let s ← get
  return (List.range n).filter fun e => activeAt fm s.h e && !s.cv.done.getLsbD e

/-- DONE bit of an element that has finished (R110). -/
def markDone (e : Nat) : M Unit := modify fun s => { s with cv := { s.cv with done := setBit s.cv.done e true } }

/-- A pending request stops the member before element e (R23). -/
def cutHere (e : Nat) : M Bool := do
  let s ← get
  return match s.cv.cut with
    | some (m, k) => m = s.cv.idx && 0 < k && decide (k ≤ e) && !s.cv.pend
    | none => false

/-- Where an access goes: a translated place of global memory, or storage of a local space. -/
inductive Target where
  | glob (ps : List (Nat × Nat × Nat))
  | loc (sp : Space) (off : Nat)
  deriving DecidableEq, Repr

/-- The target of an access of the member, TCM when `t`, or why it is denied. -/
def targetOf (t : Bool) (va : DWord) (n : Nat) (k : Acc) : M (Except Denied Target) := do
  if t then
    let (sp, off) := (← getH).tcmSpace va
    return .ok (.loc sp off)
  else
    let r ← findAll (← whoM) k (piecesOf va.toNat n)
    return r.map .glob

/-- The bytes that an access touches are in sequence one access, or accesses of their own when its address is no multiple of its size
(R125). -/
def torn (va : DWord) (n : Nat) : Bool := va.toNat % n != 0

/-- Reads a target in the vector class; an integrity failure squashes (R125, R364). `cause` is what poison raises there. -/
def loadTarget (va : DWord) (n : Nat) (t : Target) (cause : Nat := 0) : M (List (Byte × Bool)) := do
  let one := torn va n && !(← getH).early.isEmpty
  match t with
  | .loc sp off =>
    if one then return (← (List.range n).mapM fun i => loadSpace .vector sp (spaceOff sp off i) 1 cause).flatten
    else loadSpace .vector sp off n cause
  | .glob ps =>
    let w ← whoM
    let ps := if one then ps.flatMap fun x => (List.range x.2.2).map fun i => (x.1 + i, x.2.1, 1) else ps
    return (← ps.mapM fun x => readPiece .vector { w with psnCause := cause } va x).flatten

/-- The writes that a store to a target makes, in the vector class: one for each piece, or for each byte (R122, R125, R150). -/
def writesTo (va : DWord) (bs : List Byte) (p : Bool) (t : Target) : M (List PWrite) := do
  let s ← get
  let ws := match t with
    | .loc sp off => s.localWrites .vector sp off va bs p
    | .glob ps => globWrites s.h .vector va bs p ps
  return if torn va bs.length then ws.flatMap PWrite.single else ws

/-- Makes a write to a target. -/
def storeTarget (va : DWord) (bs : List Byte) (p : Bool) (t : Target) : M Unit := do pushWrites (← writesTo va bs p t)

/-! ## Interlock (R140) -/

/-- A vector-class access waits for conflicting entries. -/
def interlock (t : Bool) (as : List DWord) (n : Nat) (write : Bool) : M Unit := do
  let s ← get
  waitLocks ((s.rangesOf (as.map fun a => if t then s.h.tcmSpace a else (.glob, a.toNat)) n).map (·, write))

/-! ## Loads -/

/-- One element of a load: read and placed in the register. -/
def loadElem (v : BitVec 5) (w e : Nat) (va : DWord) (t : Target) : M Unit := do
  let bs ← loadTarget va (w / 8) t
  modH fun h => (h.setV v ((h.getV v).setBytes w e bs)).dirty (vBit v)
  markDone e

/-- Elements above the one at which the member stops that the memory engine finishes all the same: an open choice (R23, R137, log
entry 5). -/
def loadAbove (tcm : Bool) (v : BitVec 5) (w pick : Nat) : List (Nat × DWord) → M Unit
  | [] => return
  | (e, a) :: l => do
    if pick.testBit e then
      match ← targetOf tcm a (w / 8) .read with
      | .ok t => loadElem v w e a t
      | .error _ => pure ()
    loadAbove tcm v w pick l

/-- The elements of a load in order, up to a fault or a request (R23, R125, R137). -/
def loadElems (tcm : Bool) (v : BitVec 5) (w : Nat) : List (Nat × DWord) → M Unit
  | [] => return
  | (e, a) :: l => do
    if ← cutHere e then
      loadAbove tcm v w (← takeFreeM) l
      throw (.cut e)
    match ← targetOf tcm a (w / 8) .read with
    | .ok t => do loadElem v w e a t; loadElems tcm v w l
    | .error d => do
      loadAbove tcm v w (← takeFreeM) l
      denied .restartable e a d

/-- Elements are read for what squashes there; other faults do not count (R113). -/
def probeElems (tcm : Bool) (n : Nat) : List (Nat × DWord) → M Unit
  | [] => return
  | (e, a) :: l => do
    match ← targetOf tcm a n .read with
    | .ok t => do let _ ← loadTarget a n t
    | .error (.cause 0x40) => denied .restartable e a (.cause 0x40)
    | .error (.cause 0x44) => denied .restartable e a (.cause 0x44)
    | .error _ => pure ()
    probeElems tcm n l

/-! ## Stores -/

/-- Element e of a data register as bytes, with its poison. -/
def eltOut (r : VReg) (w e : Nat) : List Byte × Bool := (leBytes (w / 8) (r.elt w e), r.eltPsn w e)

/-- An element of a store that was reached, and its writes. -/
abbrev Reached := Nat × List PWrite

/-- Two lists of writes share a byte. -/
def writesMeet (a b : List PWrite) : Bool := a.any fun x => b.any (overlaps x)

/-- What is known of where an element that is not finished writes: its address, and its writes once it is translated. -/
abbrev Left := DWord × Option (List PWrite)

/-- An element at `a` with the writes `ws` may write a byte of one that is left. -/
def meetsLeft (n : Nat) (a : DWord) (ws : List PWrite) (x : Left) : Bool :=
  match x.2 with
  | some ws' => writesMeet ws ws'
  | none => decide (a.toNat < x.1.toNat + n) && decide (x.1.toNat < a.toNat + n)

/-- Elements above the one at which a store stops that it finishes all the same: an open choice (R23, R127, R137, log entry 5). Where
the order of elements is given, none that writes a byte of a lower element that is left (R126, R127). -/
def reachAbove (tcm ordered : Bool) (src : VReg) (n pick : Nat) : List Left → List (Nat × DWord) → M (List Reached)
  | _, [] => return []
  | low, (e, a) :: l => do
    let out := eltOut src (8 * n) e
    match ← (if pick.testBit e then targetOf tcm a n .write else pure (.error .wait)) with
    | .ok t => do
      let ws ← writesTo a out.1 out.2 t
      if ordered && low.any (meetsLeft n a ws) then reachAbove tcm ordered src n pick (low ++ [(a, some ws)]) l
      else return (e, ws) :: (← reachAbove tcm ordered src n pick low l)
    | .error _ => reachAbove tcm ordered src n pick (low ++ [(a, none)]) l

/-- The elements of a store that are reached, and where and why it stopped. -/
def reachElems (tcm ordered : Bool) (src : VReg) (n : Nat) :
    List (Nat × DWord) → M (List Reached × Option (Nat × DWord × Option Denied))
  | [] => return ([], none)
  | (e, a) :: l => do
    if ← cutHere e then return (← reachAbove tcm ordered src n (← takeFreeM) [(a, none)] l, some (e, a, none))
    match ← targetOf tcm a n .write with
    | .ok t => do
      let out := eltOut src (8 * n) e
      let ws ← writesTo a out.1 out.2 t
      let (r, x) ← reachElems tcm ordered src n l
      return ((e, ws) :: r, x)
    | .error d => return (← reachAbove tcm ordered src n (← takeFreeM) [(a, none)] l, some (e, a, some d))

/-- A list in an order that an open value picks. -/
def shuffle {α : Type} : Nat → List α → List α
  | _, [] => []
  | m, x :: l => (shuffle (m / (l.length + 1)) l).insertIdx (m % (l.length + 1)) x

/-- Two elements write the same byte. -/
def shareWrites : List (List PWrite) → Bool
  | [] => false
  | ws :: l => l.any (writesMeet ws) || shareWrites l

/-- Two accesses of `n` bytes at these addresses share a byte. -/
def shareByte (n : Nat) : List Nat → Bool
  | [] => false
  | a :: l => l.any (fun b => decide (a < b + n) && decide (b < a + n)) || shareByte n l

/-- The writes of elements go on their way, in ascending order or, where the order is open and elements share bytes, in an open one
(R126). -/
def putElems (ordered : Bool) (r : List Reached) : M Unit := do
  let r ← if !ordered && shareWrites (r.map (·.2)) then do
      let m ← takeFreeM
      pure (shuffle m r)
    else pure r
  pushWrites (r.flatMap (·.2))
  r.forM fun x => markDone x.1

/-- The elements of a store. -/
def storeElems (tcm ordered : Bool) (src : VReg) (w : Nat) (l : List (Nat × DWord)) : M Unit := do
  let (r, x) ← reachElems tcm ordered src (w / 8) l
  putElems ordered r
  match x with
  | none => pure ()
  | some (e, _, none) => throw (.cut e)
  | some (e, a, some d) => denied .restartable e a d

/-! ## The instructions -/

/-- ⌈vl × w / 2,048⌉ element groups are counted (R109, R381). -/
def countGroups (w : Nat) : M Unit := modify fun s =>
  s.count s.h.id.core s.h.id.part 3 ((s.h.vl.toNat * w + 2047) / 2048)

/-- How the address of an element is formed. -/
inductive Pattern3 where
  | unit
  | strided (c : BitVec 6)
  | indexed (c : BitVec 5) (scaled wide : Bool)
  deriving DecidableEq, Repr

/-- Width of the index elements of a pattern. -/
def Pattern3.width : Pattern3 → Nat
  | .indexed _ _ wide => if wide then 64 else 32
  | _ => 0

/-- Index register of a pattern. -/
def Pattern3.source : Pattern3 → List (BitVec 5 × Nat)
  | .indexed c _ wide => [(c, if wide then 64 else 32)]
  | _ => []

/-- The address of element e (R125). -/
def Pattern3.addr (k : Pattern3) (base : DWord) (h : Hart) (idx : VReg) (bytes e : Nat) : DWord :=
  match k with
  | .unit => base + BitVec.ofNat 64 (e * bytes)
  | .strided c => base + BitVec.ofNat 64 e * h.getX c
  | .indexed _ sc wide =>
    let w := if wide then 64 else 32
    base + BitVec.ofInt 64 ((BitVec.ofNat w (idx.elt w e)).toInt * (if sc then bytes else 1))

/-- The first of these elements whose index is poisoned: it squashes (R125). -/
def Pattern3.badIndex (k : Pattern3) (idx : VReg) (es : List Nat) : Option Nat :=
  match k with
  | .indexed _ _ wide => es.find? fun e => idx.eltPsn (if wide then 64 else 32) e
  | _ => none

def vloadBody (i : Instr) (fm : Form) (v : BitVec 5) (b : BitVec 6) (w : BitVec 2) (t : Bool) (k : Pattern3) : M Unit := do
  checkNamed i
  let width := ewBits w
  checkGrant (max width k.width)
  noSlot v
  let h ← getH
  let base := h.getX b + offsetOf fm
  let srcs ← readSources h.vl.toNat k.source []
  atDispatch
  let idx := srcs.headD { }
  let es ← todo fm h.vl.toNat
  let l := es.map fun e => (e, k.addr base h idx (width / 8) e)
  match k.badIndex idx es with
  | some e => do
    probeElems t (width / 8) (l.filter (·.1 < e))
    squash 0x40 0
  | none => pure ()
  interlock t (l.map (·.2)) (width / 8) false
  loadElems t v width l
  countGroups (max width k.width)

def vstoreBody (i : Instr) (fm : Form) (v : BitVec 5) (b : BitVec 6) (w : BitVec 2) (t ordered : Bool) (k : Pattern3) :
    M Unit := do
  checkNamed i
  let width := ewBits w
  checkGrant (max width k.width)
  let h ← getH
  let base := h.getX b + offsetOf fm
  let srcs ← readSources h.vl.toNat ((v, width) :: k.source) []
  atDispatch
  let idx := srcs.getLastD { }
  let es ← todo fm h.vl.toNat
  if (k.badIndex idx es).isSome then squash 0x40 0
  let l := es.map fun e => (e, k.addr base h idx (width / 8) e)
  interlock t (l.map (·.2)) (width / 8) true
  storeElems t ordered (srcs.headD { }) width l
  countGroups (max width k.width)

def execVld (fm : Form) (v : BitVec 5) (b : BitVec 6) (w : BitVec 2) (t k : Bool) (s : State) : Out :=
  .next (run (.vld fm v b w t k) (vloadBody (.vld fm v b w t k) fm v b w t .unit) s)
def execVlds (fm : Form) (v : BitVec 5) (b c : BitVec 6) (w : BitVec 2) (t k : Bool) (s : State) : Out :=
  .next (run (.vlds fm v b c w t k) (vloadBody (.vlds fm v b c w t k) fm v b w t (.strided c)) s)
def execVldx (fm : Form) (v : BitVec 5) (b : BitVec 6) (c : BitVec 5) (w : BitVec 2) (sc t i k : Bool) (s : State) : Out :=
  .next (run (.vldx fm v b c w sc t i k) (vloadBody (.vldx fm v b c w sc t i k) fm v b w t (.indexed c sc i)) s)
def execVst (fm : Form) (v : BitVec 5) (b : BitVec 6) (w : BitVec 2) (t k : Bool) (s : State) : Out :=
  .next (run (.vst fm v b w t k) (vstoreBody (.vst fm v b w t k) fm v b w t true .unit) s)
def execVsts (fm : Form) (v : BitVec 5) (b c : BitVec 6) (w : BitVec 2) (t k : Bool) (s : State) : Out :=
  .next (run (.vsts fm v b c w t k) (vstoreBody (.vsts fm v b c w t k) fm v b w t true (.strided c)) s)
def execVstx (fm : Form) (v : BitVec 5) (b : BitVec 6) (c : BitVec 5) (w : BitVec 2) (sc t i o k : Bool) (s : State) : Out :=
  .next (run (.vstx fm v b c w sc t i o k) (vstoreBody (.vstx fm v b c w sc t i o k) fm v b w t o (.indexed c sc i)) s)

/-- `vstu`: the first xc bytes of v under byte masks, whatever `vl` (R128). -/
def vstuBody (i : Instr) (fm : Form) (v : BitVec 5) (b c : BitVec 6) (t : Bool) : M Unit := do
  checkNamed i
  let h ← getH
  let n := (h.getX c).toNat
  if h.grant 8 < n then before 0x11 (h.getX c)
  let src ← readSource v 8 n
  atDispatch
  let base := h.getX b + offsetOf fm
  let es ← todo fm n
  let l := es.map fun e => (e, base + BitVec.ofNat 64 e)
  interlock t (l.map (·.2)) 1 true
  storeElems t true src 8 l
  modify fun s => s.count s.h.id.core s.h.id.part 3 ((n * 8 + 2047) / 2048)

def execVstu (fm : Form) (v : BitVec 5) (b c : BitVec 6) (t k : Bool) (s : State) : Out :=
  .next (run (.vstu fm v b c t k) (vstuBody (.vstu fm v b c t k) fm v b c t) s)

end Sys2Proof.Machine
end

