-- ==== Sys2Proof/Machine/Flags.lean ====
section
/-! DEFINITION. The machine has no condition codes: its flags are the mask bits that a comparison writes (R164), the order they
come from (R74, R157), and the conditions of `vwait` (R198) and of branches (R94). -/

namespace Sys2Proof.Machine

/-- A condition of `vcmp` on an order, `none` for unordered (R164). -/
def cmpHolds (c : CmpOp) (o : Option Ordering) : Bool :=
  match c, o with
  | .eq, some .eq => true
  | .ne, some .eq => false
  | .ne, _ => true
  | .lt, some .lt => true
  | .le, some .lt | .le, some .eq => true
  | .gt, some .gt => true
  | .ge, some .gt | .ge, some .eq => true
  | .un, none => true
  | _, _ => false

/-- The order of two elements in the formats of a and b, decided by the family of a (R74, R157, R164). -/
def orderOf (fa fb pa pb : Nat) : Option Ordering := compareVals (isIeee fa) (valueOf fa pa) (valueOf fb pb)

/-- A condition of `vwait` between a location and an element, at a width (R198). -/
def waitHolds (c : WaitOp) (w a b : Nat) : Bool :=
  let s := fun n => (BitVec.ofNat w n).toInt
  match c with
  | .eq => a == b
  | .ne => a != b
  | .lt => s a < s b
  | .ge => s b ≤ s a
  | .ltn => a < b
  | .gen => b ≤ a

end Sys2Proof.Machine
end

