-- ==== Sys2Proof/Machine/VecArith.lean ====
section
/-! DEFINITION. The arithmetic of the vector engine: majors 0x10 to 0x18 (R152 to R170, R176). -/

namespace Sys2Proof.Machine

/-! ## Operands -/

/-- A source operand: a register read at a width, or an immediate pattern. -/
inductive Opd where
  | reg (r : VReg) (w : Nat)
  | imm (p : Nat)
  deriving DecidableEq, Repr

def Opd.at (o : Opd) (e : Nat) : Nat := match o with | .reg r w => r.elt w e | .imm p => p
def Opd.psn (o : Opd) (e : Nat) : Bool := match o with | .reg r w => r.eltPsn w e | .imm _ => false

/-- The old destination as a source, where the operation reads it (R154). -/
def oldOf (reads : Bool) (d : BitVec 5) (w : Nat) (h : Hart) : Opd := if reads then .reg (h.getV d) w else .imm 0

/-- The descriptor is invalid (R81). -/
def checkFd (d : DWord) (ok : Bool) : M Unit := do if !ok then before 0x51 d

/-- A field that the descriptor leaves without a meaning is nonzero (R401). -/
def checkUnused (i : Instr) (bad : Bool) : M Unit := do if bad then before 2 (word0 i)

/-- Sources a and b of a two-source member: b is a register or the immediate of FB (R159, R219). -/
def readAB (fm : Form) (d : DWord) (a b : BitVec 5) : M (Opd × Opd) := do
  let n := (← getH).vl.toNat
  let wa := fmtWidth (fdFA d)
  let wb := fmtWidth (fdFB d)
  if immForm fm then
    let l ← readSources n [(a, wa)] []
    return (.reg (l.headD { }) wa, .imm (immPat fm d))
  else
    let l ← readSources n [(a, wa), (b, wb)] []
    return (.reg (l.headD { }) wa, .reg (l.getLastD { }) wb)

/-! ## The frame of element-wise members -/

/-- Writes results; `vdirty` is set when any element is written (R117, R155). -/
def writeElts (d : BitVec 5) (w : Nat) (l : List (Nat × Nat)) : M Unit :=
  modH fun h =>
    if l.isEmpty then h
    else (h.setV d (l.foldl (fun r x => r.setElt w x.1 x.2 false) (h.getV d))).dirty (vBit d)

/-- Address of the current member's word 0, which the assist reports (R116). -/
def memberPc : M DWord := do return (← getH).pc

/-- Elements in order with their results, `none` where one needs the assist: those below the first such one are written, and of
those above it an open choice (R110, R116). -/
def finishElts (d : BitVec 5) (w : Nat) (l : List (Nat × Option Nat)) : M Unit := do
  let ok := fun (l : List (Nat × Option Nat)) => l.filterMap fun x => x.2.map (x.1, ·)
  match l.find? (·.2.isNone) with
  | none => writeElts d w (ok l)
  | some (f, _) =>
    let pick ← takeFreeM
    let done := ok (l.filter fun x => x.1 < f || pick.testBit x.1)
    writeElts d w done
    modify fun s => { s with cv := { s.cv with done := done.foldl (fun b x => setBit b x.1 true) s.cv.done } }
    throwTrap .restartable 0x50 (← memberPc) f

/-- A poisoned source of an unfinished active element squashes (R155). -/
def cleanElts (os : List Opd) (es : List Nat) : M Unit := do
  if es.any fun e => os.any (·.psn e) then squash 0x40 0

/-- The frame: `f e` is the result of element e from the sources' patterns. -/
def elementwise (fm : Form) (d : BitVec 5) (wd : Nat) (os : List Opd) (f : Nat → Option Nat) : M Unit := do
  let es ← todo fm (← getH).vl.toNat
  cleanElts os es
  finishElts d wd (es.map fun e => (e, f e))

/-- The rounding context of the hart (R82). -/
def rctx (d : DWord) : M RCtx := do
  let h ← getH
  return { d := d, seed := h.sseed, base := h.sbase }

/-! ## Floating arithmetic: majors 0x10 and 0x11 -/

/-- Operations on exact values: of a, b and the old destination (R160, R161). -/
abbrev FOp := Bool → Bool → Val → Val → Val → Val

def fadd : FOp := fun _ down a b _ => a.add down b
def fsub : FOp := fun _ down a b _ => a.add down b.neg
def fmul : FOp := fun _ _ a b _ => a.mul b
def fdiv : FOp := fun _ _ a b _ => a.div b
def fmin : FOp := fun ieee _ a b _ => pickVals ieee false a b
def fmax : FOp := fun ieee _ a b _ => pickVals ieee true a b
def ffma : FOp := fun _ down a b d => (a.mul b).add down d
def ffms : FOp := fun _ down a b d => d.add down (a.mul b).neg

/-- One result of a floating member: sources read under the subnormal policy, one operation, one rounding (R77, R158). -/
def floatElt (r : RCtx) (op : FOp) (e pa pb pd : Nat) : Option Nat := do
  let dst := fdDst r.d
  let a ← sourceVal r.d dst (fdFA r.d) pa
  let b ← sourceVal r.d dst (fdFB r.d) pb
  let d ← sourceVal r.d dst dst pd
  r.round dst e (op (isIeee (fdFA r.d)) (fdRM r.d == 3) a b d)

/-- Two-source floating members; `fused` ones also read the destination (R154, R156, R158). -/
def floatBody (i : Instr) (fm : Form) (d a b : BitVec 5) (f : BitVec 3) (fused : Bool) (op : FOp) : M Unit := do
  checkNamed i
  let fd := fdValue fm f (← getH)
  checkFd fd (fdOk { fa := some isFloating, fb := some isFloating, dst := some isFloating, rounds := true } fd)
  checkUnused i (immReserved fm fd)
  let wd := fmtWidth (fdDst fd)
  checkGrant (max (max (fmtWidth (fdFA fd)) (fmtWidth (fdFB fd))) wd)
  noSlot d
  let (oa, ob) ← readAB fm fd a b
  atDispatch
  let od := oldOf fused d wd (← getH)
  let r ← rctx fd
  elementwise fm d wd [oa, ob, od] fun e => floatElt r op e (oa.at e) (ob.at e) (od.at e)
  countGroups (max (max (fmtWidth (fdFA fd)) (fmtWidth (fdFB fd))) wd)

def execVadd (fm : Form) (d a b : BitVec 5) (f : BitVec 3) (k : Bool) (s : State) : Out :=
  .next (run (.vadd fm d a b f k) (floatBody (.vadd fm d a b f k) fm d a b f false fadd) s)
def execVsub (fm : Form) (d a b : BitVec 5) (f : BitVec 3) (k : Bool) (s : State) : Out :=
  .next (run (.vsub fm d a b f k) (floatBody (.vsub fm d a b f k) fm d a b f false fsub) s)
def execVmul (fm : Form) (d a b : BitVec 5) (f : BitVec 3) (k : Bool) (s : State) : Out :=
  .next (run (.vmul fm d a b f k) (floatBody (.vmul fm d a b f k) fm d a b f false fmul) s)
def execVdiv (fm : Form) (d a b : BitVec 5) (f : BitVec 3) (k : Bool) (s : State) : Out :=
  .next (run (.vdiv fm d a b f k) (floatBody (.vdiv fm d a b f k) fm d a b f false fdiv) s)
def execVmin (fm : Form) (d a b : BitVec 5) (f : BitVec 3) (k : Bool) (s : State) : Out :=
  .next (run (.vmin fm d a b f k) (floatBody (.vmin fm d a b f k) fm d a b f false fmin) s)
def execVmax (fm : Form) (d a b : BitVec 5) (f : BitVec 3) (k : Bool) (s : State) : Out :=
  .next (run (.vmax fm d a b f k) (floatBody (.vmax fm d a b f k) fm d a b f false fmax) s)
def execVfma (fm : Form) (d a b : BitVec 5) (f : BitVec 3) (k : Bool) (s : State) : Out :=
  .next (run (.vfma fm d a b f k) (floatBody (.vfma fm d a b f k) fm d a b f true ffma) s)
def execVfms (fm : Form) (d a b : BitVec 5) (f : BitVec 3) (k : Bool) (s : State) : Out :=
  .next (run (.vfms fm d a b f k) (floatBody (.vfms fm d a b f k) fm d a b f true ffms) s)

/-- Unary floating members (R156, R161). -/
def unaryBody (i : Instr) (fm : Form) (d a : BitVec 5) (f : BitVec 3) (op : Val → Val) : M Unit := do
  checkNamed i
  let fd := fdValue fm f (← getH)
  checkFd fd (fdOk { fa := some isFloating, dst := some isFloating, rounds := true } fd)
  let wa := fmtWidth (fdFA fd)
  let wd := fmtWidth (fdDst fd)
  checkGrant (max wa wd)
  noSlot d
  let src ← readSources (← getH).vl.toNat [(a, wa)] []
  atDispatch
  let oa : Opd := .reg (src.headD { }) wa
  let r ← rctx fd
  elementwise fm d wd [oa] fun e => (sourceVal fd (fdDst fd) (fdFA fd) (oa.at e)).bind fun v => r.round (fdDst fd) e (op v)
  countGroups (max wa wd)

def execVsqrt (fm : Form) (d a : BitVec 5) (f : BitVec 3) (k : Bool) (s : State) : Out :=
  .next (run (.vsqrt fm d a f k) (unaryBody (.vsqrt fm d a f k) fm d a f Val.sqrt) s)
def execVrsqrt (fm : Form) (d a : BitVec 5) (f : BitVec 3) (k : Bool) (s : State) : Out :=
  .next (run (.vrsqrt fm d a f k) (unaryBody (.vrsqrt fm d a f k) fm d a f Val.rsqrt) s)
def execVabs (fm : Form) (d a : BitVec 5) (f : BitVec 3) (k : Bool) (s : State) : Out :=
  .next (run (.vabs fm d a f k) (unaryBody (.vabs fm d a f k) fm d a f Val.abs) s)
def execVneg (fm : Form) (d a : BitVec 5) (f : BitVec 3) (k : Bool) (s : State) : Out :=
  .next (run (.vneg fm d a f k) (unaryBody (.vneg fm d a f k) fm d a f Val.neg) s)

/-! ## Integer arithmetic and logic: majors 0x12 and 0x13 -/

/-- One integer result from the descriptor and the patterns of a, b and d. -/
abbrev IOp := DWord → Nat → Nat → Nat → Nat

/-- Operations on exact integers, stored under R157 (R162). -/
def exactOp (f : Int → Int → Int) : IOp := fun fd pa pb _ =>
  storeInt (fdDst fd) (fdSat fd) (f (patInt (fdFA fd) pa) (patInt (fdFB fd) pb))

def imulh : IOp := fun fd pa pb _ =>
  storeInt (fdDst fd) (fdSat fd) ((patInt (fdFA fd) pa * patInt (fdFB fd) pb) / 2 ^ fmtWidth (fdDst fd))

/-- The shift amount: the low log2(w) bits of b (R163). -/
def shiftOf (fd : DWord) (pb : Nat) : Nat := pb % fmtWidth (fdFA fd)

def logicOp (f : Nat → Nat → Nat) : IOp := fun _ pa pb _ => f pa pb
def shlOp : IOp := fun fd pa pb _ =>
  if fdSat fd then storeInt (fdDst fd) true (patInt (fdFA fd) pa * 2 ^ shiftOf fd pb)
  else pa * 2 ^ shiftOf fd pb % 2 ^ fmtWidth (fdFA fd)
def shrOp : IOp := fun fd pa pb _ => pa / 2 ^ shiftOf fd pb
def sarOp : IOp := fun fd pa pb _ =>
  let w := fmtWidth (fdFA fd)
  patOf w ((BitVec.ofNat w pa).toInt / 2 ^ shiftOf fd pb)
def fshlOp : IOp := fun fd pa pb pd =>
  let w := fmtWidth (fdFA fd)
  let s := shiftOf fd pb
  if s = 0 then pd else (pd * 2 ^ s ||| pa / 2 ^ (w - s)) % 2 ^ w
def fshrOp : IOp := fun fd pa pb pd =>
  let w := fmtWidth (fdFA fd)
  let s := shiftOf fd pb
  if s = 0 then pd else (pd / 2 ^ s ||| pa * 2 ^ (w - s)) % 2 ^ w

/-- Which widths must agree (R156). -/
inductive SameW where
  | any | aDst | all
  deriving DecidableEq, Repr

def SameW.ok (k : SameW) (fd : DWord) : Bool :=
  match k with
  | .any => true
  | .aDst => fmtWidth (fdFA fd) == fmtWidth (fdDst fd)
  | .all => fmtWidth (fdFA fd) == fmtWidth (fdDst fd) && fmtWidth (fdFB fd) == fmtWidth (fdFA fd)

/-- Two-source integer members (R156, R157, R162, R163). -/
def intBody (i : Instr) (fm : Form) (d a b : BitVec 5) (f : BitVec 3) (reads : Bool) (same : SameW) (op : IOp) : M Unit := do
  checkNamed i
  let fd := fdValue fm f (← getH)
  checkFd fd (fdOk { fa := some isInt, fb := some isInt, dst := some isInt } fd && same.ok fd)
  checkUnused i (immReserved fm fd)
  let wd := fmtWidth (fdDst fd)
  checkGrant (max (max (fmtWidth (fdFA fd)) (fmtWidth (fdFB fd))) wd)
  noSlot d
  let (oa, ob) ← readAB fm fd a b
  atDispatch
  let od := oldOf reads d wd (← getH)
  elementwise fm d wd [oa, ob, od] fun e => some (op fd (oa.at e) (ob.at e) (od.at e))
  countGroups (max (max (fmtWidth (fdFA fd)) (fmtWidth (fdFB fd))) wd)

def execViadd (fm : Form) (d a b : BitVec 5) (f : BitVec 3) (k : Bool) (s : State) : Out :=
  .next (run (.viadd fm d a b f k) (intBody (.viadd fm d a b f k) fm d a b f false .any (exactOp (· + ·))) s)
def execVisub (fm : Form) (d a b : BitVec 5) (f : BitVec 3) (k : Bool) (s : State) : Out :=
  .next (run (.visub fm d a b f k) (intBody (.visub fm d a b f k) fm d a b f false .any (exactOp (· - ·))) s)
def execVimul (fm : Form) (d a b : BitVec 5) (f : BitVec 3) (k : Bool) (s : State) : Out :=
  .next (run (.vimul fm d a b f k) (intBody (.vimul fm d a b f k) fm d a b f false .any (exactOp (· * ·))) s)
def execVimulh (fm : Form) (d a b : BitVec 5) (f : BitVec 3) (k : Bool) (s : State) : Out :=
  .next (run (.vimulh fm d a b f k) (intBody (.vimulh fm d a b f k) fm d a b f false .any imulh) s)
def execVimin (fm : Form) (d a b : BitVec 5) (f : BitVec 3) (k : Bool) (s : State) : Out :=
  .next (run (.vimin fm d a b f k) (intBody (.vimin fm d a b f k) fm d a b f false .any (exactOp min)) s)
def execVimax (fm : Form) (d a b : BitVec 5) (f : BitVec 3) (k : Bool) (s : State) : Out :=
  .next (run (.vimax fm d a b f k) (intBody (.vimax fm d a b f k) fm d a b f false .any (exactOp max)) s)
def execVand (fm : Form) (d a b : BitVec 5) (f : BitVec 3) (k : Bool) (s : State) : Out :=
  .next (run (.vand fm d a b f k) (intBody (.vand fm d a b f k) fm d a b f false .all (logicOp (· &&& ·))) s)
def execVor (fm : Form) (d a b : BitVec 5) (f : BitVec 3) (k : Bool) (s : State) : Out :=
  .next (run (.vor fm d a b f k) (intBody (.vor fm d a b f k) fm d a b f false .all (logicOp (· ||| ·))) s)
def execVxor (fm : Form) (d a b : BitVec 5) (f : BitVec 3) (k : Bool) (s : State) : Out :=
  .next (run (.vxor fm d a b f k) (intBody (.vxor fm d a b f k) fm d a b f false .all (logicOp (· ^^^ ·))) s)
def execVshl (fm : Form) (d a b : BitVec 5) (f : BitVec 3) (k : Bool) (s : State) : Out :=
  .next (run (.vshl fm d a b f k) (intBody (.vshl fm d a b f k) fm d a b f false .aDst shlOp) s)
def execVshr (fm : Form) (d a b : BitVec 5) (f : BitVec 3) (k : Bool) (s : State) : Out :=
  .next (run (.vshr fm d a b f k) (intBody (.vshr fm d a b f k) fm d a b f false .aDst shrOp) s)
def execVsar (fm : Form) (d a b : BitVec 5) (f : BitVec 3) (k : Bool) (s : State) : Out :=
  .next (run (.vsar fm d a b f k) (intBody (.vsar fm d a b f k) fm d a b f false .aDst sarOp) s)
def execVfshL (fm : Form) (d a b : BitVec 5) (f : BitVec 3) (k : Bool) (s : State) : Out :=
  .next (run (.vfshL fm d a b f k) (intBody (.vfshL fm d a b f k) fm d a b f true .aDst fshlOp) s)
def execVfshR (fm : Form) (d a b : BitVec 5) (f : BitVec 3) (k : Bool) (s : State) : Out :=
  .next (run (.vfshR fm d a b f k) (intBody (.vfshR fm d a b f k) fm d a b f true .aDst fshrOp) s)

/-- Leading zero bits of a pattern at width w. -/
def clzOf (w p : Nat) : Nat := if p = 0 then w else w - 1 - Nat.log2 p

/-- One bits of a pattern at width w. -/
def popcOf (w p : Nat) : Nat := (List.range w).countP fun i => p.testBit i

/-- `vclz` and `vpopc` (R162). -/
def countBody (i : Instr) (fm : Form) (d a : BitVec 5) (f : BitVec 3) (op : Nat → Nat → Nat) : M Unit := do
  checkNamed i
  let fd := fdValue fm f (← getH)
  checkFd fd (fdOk { fa := some isInt, dst := some isInt } fd)
  let wa := fmtWidth (fdFA fd)
  let wd := fmtWidth (fdDst fd)
  checkGrant (max wa wd)
  noSlot d
  let src ← readSources (← getH).vl.toNat [(a, wa)] []
  atDispatch
  let oa : Opd := .reg (src.headD { }) wa
  elementwise fm d wd [oa] fun e => some (storeInt (fdDst fd) (fdSat fd) (op wa (oa.at e)))
  countGroups (max wa wd)

def execVclz (fm : Form) (d a : BitVec 5) (f : BitVec 3) (k : Bool) (s : State) : Out :=
  .next (run (.vclz fm d a f k) (countBody (.vclz fm d a f k) fm d a f clzOf) s)
def execVpopc (fm : Form) (d a : BitVec 5) (f : BitVec 3) (k : Bool) (s : State) : Out :=
  .next (run (.vpopc fm d a f k) (countBody (.vpopc fm d a f k) fm d a f popcOf) s)

/-! ## Comparison: major 0x14 -/

/-- Writes mask bits; `vdirty` is set when any is written. -/
def writeMask (m : BitVec 3) (l : List (Nat × Bool)) : M Unit :=
  modH fun h =>
    if l.isEmpty then h else (h.setM m (l.foldl (fun b x => setBit b x.1 x.2) (h.getM m))).dirty (mBit m)

def vcmpBody (i : Instr) (fm : Form) (m : BitVec 3) (a b : BitVec 5) (f : BitVec 3) (c : CmpOp) : M Unit := do
  checkNamed i
  let fd := fdValue fm f (← getH)
  let cls := if isInt (fdFA fd) then isInt else isFloating
  checkFd fd (fdOk { fa := some fun x => isFloating x || isInt x, fb := some cls } fd)
  checkUnused i (immReserved fm fd)
  checkGrant (max (fmtWidth (fdFA fd)) (fmtWidth (fdFB fd)))
  let (oa, ob) ← readAB fm fd a b
  atDispatch
  let es ← todo fm (← getH).vl.toNat
  cleanElts [oa, ob] es
  writeMask m (es.map fun e => (e, cmpHolds c (orderOf (fdFA fd) (fdFB fd) (oa.at e) (ob.at e))))
  countGroups (max (fmtWidth (fdFA fd)) (fmtWidth (fdFB fd)))

def execVcmp (fm : Form) (m : BitVec 3) (a b : BitVec 5) (f : BitVec 3) (c : CmpOp) (k : Bool) (s : State) : Out :=
  .next (run (.vcmp fm m a b f c k) (vcmpBody (.vcmp fm m a b f c k) fm m a b f c) s)

/-! ## Reductions, group reductions, scans: majors 0x15 to 0x17 -/

def redBitwise : RedOp → Bool
  | .and | .or | .xor => true
  | _ => false

/-- Formats of R85. -/
def addxFmt (c : Nat) : Bool := c == 8 || c == 9 || c == 1

/-- Descriptor of a reduction or scan (R156). -/
def redFd (o : RedOp) (fd : DWord) : Bool :=
  if redBitwise o then fdOk { fa := some isInt, dst := some isInt } fd && fmtWidth (fdFA fd) == fmtWidth (fdDst fd)
  else if o = RedOp.addx then fdOk { fa := some addxFmt, dst := some isFloating, rounds := true } fd
  else if isInt (fdFA fd) then fdOk { fa := some isInt, dst := some isInt } fd
  else fdOk { fa := some isFloating, dst := some isFloating, rounds := true } fd

/-- The bitwise combination of patterns (R165). -/
def bitFold (o : RedOp) (w : Nat) (ps : List Nat) : Nat :=
  match o with
  | .and => ps.foldl (· &&& ·) (2 ^ w - 1)
  | .or => ps.foldl (· ||| ·) 0
  | _ => ps.foldl (· ^^^ ·) 0

/-- Values added in order, each sum rounded; a single one rounded once (R86). -/
def orderedSum (r : RCtx) (key : Nat) : Val → List Val → Option Nat
  | v, [] => r.round (fdDst r.d) key v
  | v, w :: l => do
    let p ← r.round (fdDst r.d) key (v.add (fdRM r.d == 3) w)
    if l.isEmpty then some p else orderedSum r key (valueOf (fdDst r.d) p) l

/-- A node of the tree of R87: a value, and its pattern once it has been rounded. -/
abbrev TreeNode := Option (Val × Option Nat)

/-- One level of the tree. -/
def treeLevel (r : RCtx) (key : Nat) : List TreeNode → Option (List TreeNode)
  | a :: b :: l => do
    let rest ← treeLevel r key l
    match a, b with
    | some (x, _), some (y, _) =>
      let p ← r.round (fdDst r.d) key (x.add (fdRM r.d == 3) y)
      some (some (valueOf (fdDst r.d) p, some p) :: rest)
    | some x, none | none, some x => some (some x :: rest)
    | none, none => some (none :: rest)
  | l => some l

/-- The levels of the tree up to its root. -/
def treeUp (r : RCtx) (key : Nat) : Nat → List TreeNode → Option TreeNode
  | 0, l => some (l.headD none)
  | n + 1, l => do treeUp r key n (← treeLevel r key l)

/-- The pairwise tree over leaves by index, `none` for an empty one (R87). -/
def treeSum (r : RCtx) (key : Nat) (leaves : List (Option Val)) : Option Nat := do
  let depth := if leaves.length ≤ 1 then 0 else Nat.log2 (leaves.length - 1) + 1
  let pad := leaves ++ List.replicate (2 ^ depth - leaves.length) none
  match ← treeUp r key depth (pad.map fun o => o.map fun v => (v, none)) with
  | none => r.round (fdDst r.d) key (.zero false)
  | some (_, some p) => some p
  | some (v, none) => r.round (fdDst r.d) key v

/-- The combination of the active elements of a range, in the order of their indexes (R165): patterns of the elements by index,
`none` where inactive. -/
def reduce (o : RedOp) (r : RCtx) (key : Nat) (ps : List (Option Nat)) : Option Nat :=
  let fa := fdFA r.d
  let dst := fdDst r.d
  let act := ps.filterMap id
  if redBitwise o then some (bitFold o (fmtWidth fa) act)
  else if isInt fa then
    let zs := act.map (patInt fa)
    let sat := fdSat r.d
    match o with
    | .min => some (match zs with | [] => patOf (fmtWidth dst) (intMax dst) | z :: l => storeInt dst sat (l.foldl min z))
    | .max => some (match zs with | [] => patOf (fmtWidth dst) (intMin dst) | z :: l => storeInt dst sat (l.foldl max z))
    | _ => some (storeInt dst sat (zs.foldl (· + ·) 0))
  else do
    let vs ← ps.mapM fun o => match o with
      | none => some none
      | some p => (sourceVal r.d dst fa p).map some
    let xs := vs.filterMap id
    match o, xs with
    | .min, [] | .max, [] => r.round dst key .nar
    | _, [] => r.round dst key (.zero false)
    | .min, x :: l => r.round dst key (l.foldl (pickVals (isIeee fa) false) x)
    | .max, x :: l => r.round dst key (l.foldl (pickVals (isIeee fa) true) x)
    | .addo, x :: l => orderedSum r key x l
    | .addx, x :: l => r.round dst key (l.foldl (·.add (fdRM r.d == 3)) x)
    | _, _ => treeSum r key vs

/-- The active elements of `[lo, hi)` by index. -/
def activePats (fm : Form) (h : Hart) (o : Opd) (lo hi : Nat) : List (Option Nat) :=
  (List.range (hi - lo)).map fun k => if activeAt fm h (lo + k) then some (o.at (lo + k)) else none

/-- A reduction, group reduction or scan that an assist routine has finished is passed over: DONE bit 0 of the convoy that resumes in
it, whatever IDX (R176). -/
def assisted : M Bool := do
  let s ← get
  return s.cv.resumed && s.cv.idx == s.cv.cm && s.h0.vcm.getLsbD 0

/-- Such a member completes or traps for the assist as a whole (R176). -/
def allOrNothing (d : BitVec 5) (w : Nat) (l : Option (List (Nat × Nat))) : M Unit := do
  match l with
  | some l => writeElts d w l
  | none =>
    modify fun s => { s with cv := { s.cv with done := 0 } }
    throwTrap .restartable 0x50 (← memberPc) 0

/-- The frame of majors 0x15 to 0x17: `f` gives the elements written. One whose DONE bit 0 is set is skipped as a whole (R176), and pops nothing
(log entry 95). -/
def redBody (i : Instr) (fm : Form) (d a : BitVec 5) (f : BitVec 3) (o : RedOp)
    (res : RCtx → Hart → Opd → Option (List (Nat × Nat))) : M Unit := do
  checkNamed i
  let fd := fdValue fm f (← getH)
  checkFd fd (redFd o fd)
  let wa := fmtWidth (fdFA fd)
  let wd := fmtWidth (fdDst fd)
  checkGrant (max wa wd)
  noSlot d
  if ← assisted then return
  let h ← getH
  let src ← readSources h.vl.toNat [(a, wa)] []
  atDispatch
  let oa : Opd := .reg (src.headD { }) wa
  cleanElts [oa] ((List.range h.vl.toNat).filter (activeAt fm h))
  let r ← rctx fd
  allOrNothing d wd (res r h oa)
  countGroups (max wa wd)

def vredRes (fm : Form) (o : RedOp) (r : RCtx) (h : Hart) (oa : Opd) : Option (List (Nat × Nat)) :=
  (reduce o r 0 (activePats fm h oa 0 h.vl.toNat)).map fun p => [(0, p)]

/-- Groups of 2^n elements (R166). -/
def vgredRes (fm : Form) (n : Nat) (o : RedOp) (r : RCtx) (h : Hart) (oa : Opd) : Option (List (Nat × Nat)) :=
  let vl := h.vl.toNat
  (List.range ((vl + 2 ^ n - 1) / 2 ^ n)).mapM fun g =>
    (reduce o r g (activePats fm h oa (g * 2 ^ n) (min ((g + 1) * 2 ^ n) vl))).map fun p => (g, p)

/-- Running sums of the floating class: each rounded with its own index as key (R86, R167). -/
def runningSum (r : RCtx) : Option Val → List (Nat × Val) → Option (List (Nat × Nat))
  | _, [] => some []
  | acc, (e, v) :: l => do
    let x := match acc with | none => v | some y => y.add (fdRM r.d == 3) v
    let p ← r.round (fdDst r.d) e x
    -- the lowest active element stands exactly in the running value
    let next := match acc with | none => v | some _ => valueOf (fdDst r.d) p
    let rest ← runningSum r (some next) l
    some ((e, p) :: rest)

/-- Scans (R167). -/
def vscanRes (fm : Form) (o : RedOp) (r : RCtx) (h : Hart) (oa : Opd) : Option (List (Nat × Nat)) :=
  let fa := fdFA r.d
  let es := (List.range h.vl.toNat).filter (activeAt fm h)
  if o = .add && !isInt fa then do
    let vs ← es.mapM fun e => (sourceVal r.d (fdDst r.d) fa (oa.at e)).map fun v => (e, v)
    runningSum r none vs
  else es.mapM fun e => (reduce o r e ((es.filter (· ≤ e)).map fun j => some (oa.at j))).map fun p => (e, p)

def execVred (fm : Form) (d a : BitVec 5) (f : BitVec 3) (o : RedOp) (k : Bool) (s : State) : Out :=
  .next (run (.vred fm d a f o k) (redBody (.vred fm d a f o k) fm d a f o (vredRes fm o)) s)
def execVgred (fm : Form) (d a n : BitVec 5) (f : BitVec 3) (o : RedOp) (k : Bool) (s : State) : Out :=
  .next (run (.vgred fm d a n f o k) (redBody (.vgred fm d a n f o k) fm d a f o (vgredRes fm n.toNat o)) s)
def execVscan (fm : Form) (d a : BitVec 5) (f : BitVec 3) (o : RedOp) (k : Bool) (s : State) : Out :=
  .next (run (.vscan fm d a f o k) (redBody (.vscan fm d a f o k) fm d a f o (vscanRes fm o)) s)

/-- The product form of `vred.addx`: the exact sum of exact products, rounded once (R85, R165); skipped, it pops nothing (log entry 95). -/
def productBody (i : Instr) (fm : Form) (d a b : BitVec 5) (f : BitVec 3) : M Unit := do
  checkNamed i
  let fd := fdValue fm f (← getH)
  checkFd fd (fdOk { fa := some addxFmt, fb := some addxFmt, dst := some isFloating, rounds := true } fd)
  let wa := fmtWidth (fdFA fd)
  let wb := fmtWidth (fdFB fd)
  let wd := fmtWidth (fdDst fd)
  checkGrant (max (max wa wb) wd)
  noSlot d
  if ← assisted then return
  let h ← getH
  let src ← readSources h.vl.toNat [(a, wa), (b, wb)] []
  atDispatch
  let oa : Opd := .reg (src.headD { }) wa
  let ob : Opd := .reg (src.getLastD { }) wb
  let es := (List.range h.vl.toNat).filter (activeAt fm h)
  cleanElts [oa, ob] es
  let r ← rctx fd
  let vs := es.mapM fun e => do
    let x ← sourceVal fd (fdDst fd) (fdFA fd) (oa.at e)
    let y ← sourceVal fd (fdDst fd) (fdFB fd) (ob.at e)
    some (x.mul y)
  let res := vs.bind fun l => match l with
    | [] => r.round (fdDst fd) 0 (.zero false)
    | x :: l => r.round (fdDst fd) 0 (l.foldl (·.add (fdRM fd == 3)) x)
  allOrNothing d wd (res.map fun p => [(0, p)])
  countGroups (max (max wa wb) wd)

def execVredAddxProduct (fm : Form) (d a b : BitVec 5) (f : BitVec 3) (k : Bool) (s : State) : Out :=
  .next (run (.vredAddxProduct fm d a b f k) (productBody (.vredAddxProduct fm d a b f k) fm d a b f) s)

/-! ## Conversion: major 0x18 -/

/-- Accepted destinations of `vcvt` (R156). -/
def cvtDst (c : Nat) : Bool := !isMx c

/-- The exact value of a source element of `vcvt`: under the subnormal policy, scaled by its block's byte (R75, R77, R168). -/
def cvtSource (fd : DWord) (oa scale : Opd) (e : Nat) : Option Val :=
  (sourceVal fd (fdDst fd) (fdFA fd) (oa.at e)).map fun v =>
    if isBlock (fdFA fd) then v.mul (scaleVal (scale.at (e / 32))) else v

/-- Block k of a tb8 result: the codes written and the scale byte (R76, R169). -/
def cvtBlock (r : RCtx) (oa scale : Opd) (es : List Nat) : List (Nat × Nat) × Nat :=
  let vs := es.map fun e => (e, (cvtSource r.d oa scale e).getD .nar)
  let s := tb8Scale r.d (vs.map (·.2))
  (vs.map fun x => (x.1, tb8Code r s x.1 x.2), s)

/-- The registers that the descriptor of `vcvt` makes operands, when it is valid (R168, R169, R401): vs and vz. -/
def cvtNames (fm : Form) (fd : DWord) (b : BitVec 5) : List Nat :=
  (if isBlock (fdFA fd) then [vBit b] else []) ++ if isTb8 (fdDst fd) then [vBit ((e5Of fm).setWidth 5)] else []

/-- Its descriptor is valid (R81, R168, R169). -/
def cvtFd (fm : Form) (fd : DWord) : Bool :=
  let based := match fm with | .base | .baseLit _ => true | _ => false
  fdOk { fa := some fun _ => true, dst := some cvtDst, rounds := true } fd && !(isTb8 (fdDst fd) && based)

/-- Registers that a convoy member names by its descriptor, as that stands. -/
def decidedBits (h : Hart) : Instr → List Nat
  | .vcvt fm _ _ b f _ => let fd := fdValue fm f h; if cvtFd fm fd then cvtNames fm fd b else []
  | _ => []

/-- An element of which data and scale byte are poisoned raises 0x42, and a scale register that is also vd gets its bytes over the codes
(log entry 76). -/
def vcvtBody (i : Instr) (fm : Form) (d a b : BitVec 5) (f : BitVec 3) : M Unit := do
  checkNamed i (decidedBits (← getH) i)
  let fd := fdValue fm f (← getH)
  let blk := isBlock (fdFA fd)
  let tb := isTb8 (fdDst fd)
  checkFd fd (cvtFd fm fd)
  checkUnused i ((!blk && b != 0) || (!tb && e5Of fm != 0))
  let vz : BitVec 5 := (e5Of fm).setWidth 5
  checkLives (cvtNames fm fd b)
  let wa := fmtWidth (fdFA fd)
  let wd := fmtWidth (fdDst fd)
  checkGrant (max wa wd)
  noSlot d
  if tb then noSlot vz
  let src ← readSources (← getH).vl.toNat ((a, wa) :: if blk then [(b, 8)] else []) []
  atDispatch
  let oa : Opd := .reg (src.headD { }) wa
  let sc : Opd := if blk then .reg (src.getLastD { }) 8 else .imm 0
  let h ← getH
  let es ← todo fm h.vl.toNat
  match es.find? fun e => oa.psn e || sc.psn (e / 32) with
  | some e => squash (if sc.psn (e / 32) then 0x42 else 0x40) 0
  | none => pure ()
  let r ← rctx fd
  if tb then
    let blocks := ((es.map (· / 32)).dedup).map fun k => (k, cvtBlock r oa sc (es.filter (· / 32 == k)))
    writeElts d 8 (blocks.flatMap fun x => x.2.1)
    writeElts vz 8 (blocks.map fun x => (x.1, x.2.2))
  else
    finishElts d wd (es.map fun e => (e, (cvtSource fd oa sc e).bind (r.round (fdDst fd) e)))
  countGroups (max wa wd)

def execVcvt (fm : Form) (d a b : BitVec 5) (f : BitVec 3) (k : Bool) (s : State) : Out :=
  .next (run (.vcvt fm d a b f k) (vcvtBody (.vcvt fm d a b f k) fm d a b f) s)

end Sys2Proof.Machine
end

