-- ==== Sys2Proof/Machine/Masks.lean ====
section
/-! DEFINITION. Mask operations and permutes: majors 0x1C to 0x1F (R172 to R175). -/

namespace Sys2Proof.Machine

/-! ## Mask logic: major 0x1C -/

/-- Writes bit e of md below `vl` from the stored bits of the sources, but for bits that are done (R111, R172). -/
def maskBody (i : Instr) (d a b : BitVec 3) (f : Bool → Bool → Bool) : M Unit := do
  checkNamed i
  atDispatch
  let h ← getH
  let x := h.getM a
  let y := h.getM b
  writeMask d ((← todo .base h.vl.toNat).map fun e => (e, f (x.getLsbD e) (y.getLsbD e)))
  countGroups (ewBits h.ew)

def execMand (fm : Form) (d a b : BitVec 3) (k : Bool) (s : State) : Out :=
  .next (run (.mand fm d a b k) (maskBody (.mand fm d a b k) d a b (· && ·)) s)
def execMor (fm : Form) (d a b : BitVec 3) (k : Bool) (s : State) : Out :=
  .next (run (.mor fm d a b k) (maskBody (.mor fm d a b k) d a b (· || ·)) s)
def execMxor (fm : Form) (d a b : BitVec 3) (k : Bool) (s : State) : Out :=
  .next (run (.mxor fm d a b k) (maskBody (.mxor fm d a b k) d a b (· != ·)) s)
def execMandn (fm : Form) (d a b : BitVec 3) (k : Bool) (s : State) : Out :=
  .next (run (.mandn fm d a b k) (maskBody (.mandn fm d a b k) d a b fun x y => x && !y) s)
def execMnot (fm : Form) (d a : BitVec 3) (k : Bool) (s : State) : Out :=
  .next (run (.mnot fm d a k) (maskBody (.mnot fm d a k) d a a fun x _ => !x) s)

/-! ## Mask to scalar: major 0x1D -/

/-- Set bits of a mask below `vl`. -/
def maskBits (h : Hart) (a : BitVec 3) : List Nat := (List.range h.vl.toNat).filter fun e => (h.getM a).getLsbD e

/-- These write no vector state and are executed whole wherever they stand (R173); with `vl` = 0 they do nothing (R153). -/
def maskScalarBody (i : Instr) (d : BitVec 6) (a : BitVec 3) (f : List Nat → DWord) : M Unit := do
  checkNamed i
  atDispatch
  let h ← getH
  if h.vl ≠ 0 then modH fun h' => h'.setX d (f (maskBits h a))
  countGroups (ewBits h.ew)

def execMpopc (fm : Form) (d : BitVec 6) (a : BitVec 3) (k : Bool) (s : State) : Out :=
  .next (run (.mpopc fm d a k) (maskScalarBody (.mpopc fm d a k) d a fun l => BitVec.ofNat 64 l.length) s)
def execMfirst (fm : Form) (d : BitVec 6) (a : BitVec 3) (k : Bool) (s : State) : Out :=
  .next (run (.mfirst fm d a k) (maskScalarBody (.mfirst fm d a k) d a fun l =>
    match l with | [] => BitVec.allOnes 64 | e :: _ => BitVec.ofNat 64 e) s)

/-! ## Permutes: majors 0x1E and 0x1F -/

/-- Writes elements with their poison tags (R155). -/
def placeElts (d : BitVec 5) (w : Nat) (l : List (Nat × Nat × Bool)) : M Unit :=
  modH fun h =>
    if l.isEmpty then h
    else (h.setV d (l.foldl (fun r x => r.setElt w x.1 x.2.1 x.2.2) (h.getV d))).dirty (vBit d)

/-- Moves elements, each byte with its own tag (R155). -/
def moveElts (d : BitVec 5) (w : Nat) (l : List (Nat × List (Byte × Bool))) : M Unit :=
  modH fun h =>
    if l.isEmpty then h
    else (h.setV d (l.foldl (fun r x => r.setBytes w x.1 x.2) (h.getV d))).dirty (vBit d)

/-- A clean element of zero. -/
def zeroElt (w : Nat) : List (Byte × Bool) := List.replicate (w / 8) (0, false)

/-- The count of a slide: xn, or the immediate read without a sign (R159, R174; log entry 23). -/
def slideCount (fm : Form) (n : BitVec 6) (h : Hart) : Nat :=
  match immOf fm with
  | some (_, _, k) => k
  | none => (h.getX n).toNat

def slideBody (i : Instr) (fm : Form) (d a : BitVec 5) (n : BitVec 6) (up : Bool) : M Unit := do
  checkNamed i
  let h ← getH
  let w := ewBits h.ew
  let vl := h.vl.toNat
  checkGrant w
  noSlot d
  let src := (← readSources vl [(a, w)] []).headD { }
  atDispatch
  let k := slideCount fm n h
  let es ← todo fm vl
  moveElts d w (es.filterMap fun e =>
    if up then (if k ≤ e then some (e, src.bytesAt w (e - k)) else none)
    else some (e, if e + k < vl then src.bytesAt w (e + k) else zeroElt w))
  countGroups w

def execVslideUp (fm : Form) (d a : BitVec 5) (n : BitVec 6) (k : Bool) (s : State) : Out :=
  .next (run (.vslideUp fm d a n k) (slideBody (.vslideUp fm d a n k) fm d a n true) s)
def execVslideDown (fm : Form) (d a : BitVec 5) (n : BitVec 6) (k : Bool) (s : State) : Out :=
  .next (run (.vslideDown fm d a n k) (slideBody (.vslideDown fm d a n k) fm d a n false) s)

/-- Broadcasts: element e gets the low bits of a scalar value (R174). -/
def bcastBody (i : Instr) (fm : Form) (d : BitVec 5) (f : Hart → Nat → DWord) : M Unit := do
  checkNamed i
  let h ← getH
  let w := ewBits h.ew
  checkGrant w
  noSlot d
  atDispatch
  let es ← todo fm h.vl.toNat
  placeElts d w (es.map fun e => (e, (f h e).toNat % 2 ^ w, false))
  countGroups w

def execVbcast (fm : Form) (d : BitVec 5) (y : BitVec 6) (k : Bool) (s : State) : Out :=
  .next (run (.vbcast fm d y k) (bcastBody (.vbcast fm d y k) fm d fun h _ => h.getX y) s)
def execVbcastI (fm : Form) (d : BitVec 5) (y t : BitVec 6) (k : Bool) (s : State) : Out :=
  .next (run (.vbcastI fm d y t k) (bcastBody (.vbcastI fm d y t k) fm d fun h e =>
    h.getX y + BitVec.ofNat 64 e * h.getX t) s)

/-- `vperm` (R175). -/
def vpermBody (i : Instr) (fm : Form) (d a vi : BitVec 5) : M Unit := do
  checkNamed i
  let h ← getH
  let w := ewBits h.ew
  let vl := h.vl.toNat
  checkGrant w
  noSlot d
  let l ← readSources vl [(a, w), (vi, w)] []
  atDispatch
  let src := l.headD { }
  let idx := l.getLastD { }
  let es ← todo fm vl
  if es.any fun e => idx.eltPsn w e then squash 0x40 0
  moveElts d w (es.map fun e =>
    let j := idx.elt w e
    (e, if j < vl then src.bytesAt w j else zeroElt w))
  countGroups w

def execVperm (fm : Form) (d a vi : BitVec 5) (k : Bool) (s : State) : Out :=
  .next (run (.vperm fm d a vi k) (vpermBody (.vperm fm d a vi k) fm d a vi) s)

/-- `vcompress` and `vexpand`: `f` pairs destination and source elements from the elements that the mask selects (R175). -/
def selectBody (i : Instr) (d a : BitVec 5) (m : BitVec 3) (f : List Nat → List (Nat × Nat)) : M Unit := do
  checkNamed i
  let h ← getH
  let w := ewBits h.ew
  let vl := h.vl.toNat
  checkGrant w
  noSlot d
  let src := (← readSources vl [(a, w)] []).headD { }
  atDispatch
  let es ← todo .base vl
  moveElts d w (((f (maskBits h m)).filter fun x => es.contains x.1).map fun x => (x.1, src.bytesAt w x.2))
  countGroups w

def execVcompress (fm : Form) (d a : BitVec 5) (m : BitVec 3) (k : Bool) (s : State) : Out :=
  .next (run (.vcompress fm d a m k) (selectBody (.vcompress fm d a m k) d a m fun l => (List.range l.length).zip l) s)
def execVexpand (fm : Form) (d a : BitVec 5) (m : BitVec 3) (k : Bool) (s : State) : Out :=
  .next (run (.vexpand fm d a m k) (selectBody (.vexpand fm d a m k) d a m fun l => l.zip (List.range l.length)) s)

end Sys2Proof.Machine
end

