-- ==== Sys2Proof/Machine/Scratchpad.lean ====
section
/-! DEFINITION. Scratchpad loads and stores, and the bank statistics: major 0x20 (R181 to R191). -/

namespace Sys2Proof.Machine

/-! ## Scalar forms (R185, R186) -/

def loadSpBody (fm : Form) (d b i : BitVec 6) (signed : Bool) (n : Nat) : M Unit := do
  let h ← getH
  let va := addrB fm b i h
  if va.toNat % n ≠ 0 then before 0x30 va
  let (sp, off) := (← get).spSpace h va
  let bs ← loadSpace .scalar sp off n
  if anyPsn bs then squash 0x40 va
  modH fun h => h.setX d (extendTo signed n (bytesVal bs))

def execLdsSp (fm : Form) (d b i : BitVec 6) (w : BitVec 2) (s : State) : Out :=
  .next (run (.ldsSp fm d b i w) (loadSpBody fm d b i true (2 ^ w.toNat)) s)
def execLdDSp (fm : Form) (d b i : BitVec 6) (s : State) : Out :=
  .next (run (.ldDSp fm d b i) (loadSpBody fm d b i false 8) s)
def execLdzSp (fm : Form) (d b i : BitVec 6) (w : BitVec 2) (s : State) : Out :=
  .next (run (.ldzSp fm d b i w) (loadSpBody fm d b i false (2 ^ w.toNat)) s)

def storeSpBody (fm : Form) (v b i : BitVec 6) (n : Nat) : M Unit := do
  let h ← getH
  let va := addrB fm b i h
  if va.toNat % n ≠ 0 then before 0x30 va
  let (sp, off) := (← get).spSpace h va
  storeSpace .scalar sp off va (leBytes n (h.getX v).toNat) false

def execStSp (fm : Form) (v b i : BitVec 6) (w : BitVec 2) (s : State) : Out :=
  .next (run (.stSp fm v b i w) (storeSpBody fm v b i (2 ^ w.toNat)) s)

/-- `bstat` reads a count after every older scratchpad access has completed (R186). -/
def bstatBody (d sel : BitVec 6) : M Unit := do
  settleAll
  modH fun h => h.setX d (h.bstat.toArray.getD sel.toNat 0)

def execBstat (fm : Form) (d sel : BitVec 6) (s : State) : Out := .next (run (.bstat fm d sel) (bstatBody d sel) s)

/-! ## Bank statistics (R189, R190) -/

/-- A request: its index and the words of the gang's own allocation that it touches. -/
structure BankReq where
  idx : Nat
  words : List Nat
  deriving DecidableEq, Repr

/-- Requests of `size` bytes that make up a batch (R189). -/
def batchLen (size : Nat) : Nat := if size ≤ 4 then 32 else 16

/-- Passes and touches of a batch of requests that touch words. -/
def batchCount (rs : List BankReq) : Nat × Nat :=
  let touches := rs.flatMap (·.words)
  let d := touches.dedup
  let per := (List.range 32).map fun k => d.countP (· % 32 == k)
  (per.foldl max 0, touches.length - d.length)

/-- PASS, REPLAY, MERGE and SPLIT of an instruction whose requests are of `size` bytes (R190). -/
def bankCounts (size : Nat) (rs : List BankReq) : Nat × Nat × Nat × Nat :=
  let rs := rs.filter (!·.words.isEmpty)
  let per := batchLen size
  let batches := (rs.map (·.idx / per)).dedup.map fun g => batchCount (rs.filter (·.idx / per == g))
  let pass := (batches.map (·.1)).foldl (· + ·) 0
  let replay := (batches.map (·.1 - 1)).foldl (· + ·) 0
  let merge := (batches.map (·.2)).foldl (· + ·) 0
  let split := if size ≤ 4 then 0 else ((rs.map (·.idx / 32)).dedup).length
  (pass, replay, merge, split)

/-- Adds the counts of an instruction; replay passes are counted as events (R186, R381). -/
def countBanks (size : Nat) (rs : List BankReq) : M Unit := do
  let (p, r, m, c) := bankCounts size rs
  modH fun h =>
    let add := fun (v : Vector DWord 4) (k n : Nat) => v.setIfInBounds k (v.toArray.getD k 0 + BitVec.ofNat 64 n)
    { h with bstat := add (add (add (add h.bstat 0 p) 1 r) 2 m) 3 c }
  modify fun s => s.count s.h.id.core s.h.id.part 7 r

/-! ## Vector forms (R187, R188) -/

/-- Stride kinds of a vector form of major 0x20. -/
inductive SpKind where
  | unit
  | strided (c : BitVec 6)
  | indexed (c : BitVec 5)
  | pair (c : BitVec 6)
  deriving DecidableEq, Repr

def SpKind.source : SpKind → List (BitVec 5)
  | .indexed c => [c]
  | _ => []

def SpKind.width : SpKind → Nat
  | .indexed _ => 32
  | _ => 0

/-- Bytes of a request, and the request of an element (R189). -/
def SpKind.reqBytes (k : SpKind) (bytes : Nat) : Nat := match k with | .pair _ => 16 | _ => bytes
def SpKind.reqOf (k : SpKind) (e : Nat) : Nat := match k with | .pair _ => e / 2 | _ => e

/-- Address of element e, aligned down to its size (R184, R187). -/
def SpKind.addr (k : SpKind) (base : DWord) (h : Hart) (bytes e : Nat) : DWord :=
  let a := match k with
    | .unit => base + BitVec.ofNat 64 (e * bytes)
    | .strided c => base + BitVec.ofNat 64 e * h.getX c
    | .indexed c => base + BitVec.ofInt 64 ((BitVec.ofNat 32 ((h.getV c).elt 32 e)).toInt * bytes)
    | .pair c => base + BitVec.ofNat 64 (e / 2) * h.getX c + BitVec.ofNat 64 (e % 2 * 8)
  BitVec.ofNat 64 (a.toNat / bytes * bytes)

/-- An element of a vector form: its number, address, space and offset. -/
structure SpElt where
  e : Nat
  va : DWord
  sp : Space
  off : Nat
  deriving DecidableEq, Repr

/-- Waits for conflicting entries in each space reached (R140). -/
def interlockSp (l : List SpElt) (n : Nat) (write : Bool) : M Unit := do
  let s ← get
  waitLocks ((s.rangesOf (l.map fun x => (x.sp, x.off)) n).map (·, write))

/-- The words of the hart's own allocation that an element touches (R189 to R191). -/
def ownWords (s : State) (n : Nat) (x : SpElt) : List Nat :=
  if x.sp = .sp s.h.gang then
    ((List.range n).filterMap fun i => (localOff (s.localOf x.sp).size (x.off + i)).map (· / 4)).dedup
  else []

/-- The requests of an instruction; a pair of which one element is active touches that element's words (log entry 77). -/
def bankReqs (s : State) (k : SpKind) (n : Nat) (l : List SpElt) : List BankReq :=
  ((l.map fun x => k.reqOf x.e).dedup).map fun r =>
    { idx := r, words := ((l.filter fun x => k.reqOf x.e == r).flatMap (ownWords s n)).dedup }

/-- Puts an element that was read into its place; every byte that a poisoned word fills is marked (R187). -/
def putSpElt (v : BitVec 5) (n : Nat) (x : SpElt) (bs : List (Byte × Bool)) : M Unit :=
  modH fun h => (h.setV v ((h.getV v).setBytes (8 * n) x.e bs)).dirty (vBit v)

/-- The common part: checks before forwarding, the elements, and the statistics. -/
def spElts (i : Instr) (fm : Form) (v : BitVec 5) (b : BitVec 6) (w : BitVec 2) (k : SpKind) (write : Bool) :
    M (List SpElt) := do
  checkNamed i
  let width := ewBits w
  checkGrant (max width k.width)
  noSlot v
  for c in k.source do noSlot c
  let s ← get
  let h := s.h
  let es := (List.range h.vl.toNat).filter (activeAt fm h)
  for c in k.source do
    if es.any fun e => (h.getV c).eltPsn 32 e then squash 0x40 0
  let base := h.getX b + offsetOf fm
  let l := es.map fun e =>
    let va := k.addr base h (width / 8) e
    let (sp, off) := s.spSpace h va
    { e := e, va := va, sp := sp, off := off : SpElt }
  interlockSp l (width / 8) write
  countBanks (k.reqBytes (width / 8)) (bankReqs s k (width / 8) l)
  return l

/-- The elements of a batch `b`, where loads performed early: each word is accessed once (R190), so an element gets what an equal one has
got, and bytes loaded early serve it only when no other element reads other bytes of its word. Remote requests are served one by one
(R191). -/
def spLoadBatch (v : BitVec 5) (n : Nat) (b : List SpElt) : List SpElt → List (SpElt × List (Byte × Bool)) → M Unit
  | [], _ => return
  | x :: l, seen => do
    let s ← get
    let locs := fun (y : SpElt) => s.localLocs y.sp y.off n
    let own := x.sp == .sp s.h.gang
    match seen.find? fun y => own && y.1.sp == x.sp && locs y.1 == locs x with
    | some y => do
      putSpElt v n x y.2
      spLoadBatch v n b l seen
    | none => do
      if own && b.any fun y => y.sp == x.sp && locs y != locs x && (ownWords s n y).any (ownWords s n x).contains then
        dropEarly .vector x.sp (locs x)
      let bs ← loadSpace .vector x.sp x.off n 0
      putSpElt v n x bs
      spLoadBatch v n b l (seen ++ [(x, bs)])

/-- The batch of an element (R189). -/
def SpKind.batchOf (k : SpKind) (n : Nat) (x : SpElt) : Nat := k.reqOf x.e / batchLen (k.reqBytes n)

/-- The elements of a member batch by batch, in ascending order (R189). -/
def spBatches (k : SpKind) (n : Nat) (l : List SpElt) : List (List SpElt) :=
  ((l.map (k.batchOf n)).dedup).map fun g => l.filter (k.batchOf n · == g)

def spLoadElts (v : BitVec 5) (n : Nat) : List SpElt → M Unit
  | [] => return
  | x :: l => do
    putSpElt v n x (← loadSpace .vector x.sp x.off n 0)
    spLoadElts v n l

def spLoadBody (i : Instr) (fm : Form) (v : BitVec 5) (b : BitVec 6) (w : BitVec 2) (k : SpKind) : M Unit := do
  let l ← spElts i fm v b w k false
  let n := ewBits w / 8
  if (← getH).early.isEmpty then spLoadElts v n l
  else (spBatches k n l).forM fun b => spLoadBatch v n b b []

/-- The one write that writes of single bytes to word `k` merge to, byte by byte: places that none writes are left out, and it is poisoned
when a byte that survives is (R184, R190). -/
def mergeWord (bs : List PWrite) (k : Nat) : List PWrite :=
  let last := fun i => (bs.filter (·.addr == 4 * k + i)).getLast?
  let own := (List.range 4).filter fun i => (last i).isSome
  match own.head?.bind last with
  | none => []
  | some b =>
    let lo := own.headD 0
    let span := (List.range (own.getLastD 0 + 1 - lo)).map (· + lo)
    [{ b with bytes := span.flatMap fun i => match last i with | some x => x.bytes | none => [0]
              psn := own.any fun i => match last i with | some x => x.psn | none => false
              skip := (span.filter (!own.contains ·)).map (· - lo) }]

/-- The writes of a batch of requests of `n` bytes: one for each word of the gang's own allocation, or for each place of an element of 8
bytes, which is one access (R187, R190); of elements that fill their words the last is left. Remote requests are never merged (R191). -/
def mergeBatch (own : Space) (n : Nat) (ws : List PWrite) : List PWrite :=
  let mine := ws.filter (·.space == own)
  let one :=
    if 4 ≤ n then mine.foldr (fun w l => if l.any (·.addr == w.addr) then l else w :: l) []
    else
      let bs := mine.flatMap PWrite.single
      ((bs.map (·.addr / 4)).dedup).flatMap (mergeWord bs)
  one ++ ws.filter (·.space != own)

/-- The batches of a store, in ascending order: elements in order or, where an indexed store leaves the order open and they share
bytes, in an open one (R126, R187, R189). -/
def storeBatches (free : Bool) (n : Nat) : List (List (List PWrite)) → M Unit
  | [] => return
  | b :: l => do
    let b' ← if free && shareWrites b then do
        let m ← takeFreeM
        pure (shuffle m b)
      else pure b
    pushWrites (mergeBatch (.sp (← getH).gang) n b'.flatten)
    storeBatches free n l

def spStoreBody (i : Instr) (fm : Form) (v : BitVec 5) (b : BitVec 6) (w : BitVec 2) (k : SpKind) : M Unit := do
  let l ← spElts i fm v b w k true
  let s ← get
  let n := ewBits w / 8
  let write := fun (x : SpElt) =>
    let out := eltOut (s.h.getV v) (ewBits w) x.e
    s.localWrites .vector x.sp x.off x.va out.1 out.2
  let free := match k with | .indexed _ => true | _ => false
  storeBatches free n ((spBatches k n l).map (·.map write))

def execVldSp (fm : Form) (v : BitVec 5) (b : BitVec 6) (w : BitVec 2) (s : State) : Out :=
  .next (run (.vldSp fm v b w) (spLoadBody (.vldSp fm v b w) fm v b w .unit) s)
def execVldsSp (fm : Form) (v : BitVec 5) (b c : BitVec 6) (w : BitVec 2) (s : State) : Out :=
  .next (run (.vldsSp fm v b c w) (spLoadBody (.vldsSp fm v b c w) fm v b w (.strided c)) s)
def execVldxSp (fm : Form) (v : BitVec 5) (b : BitVec 6) (c : BitVec 5) (w : BitVec 2) (s : State) : Out :=
  .next (run (.vldxSp fm v b c w) (spLoadBody (.vldxSp fm v b c w) fm v b w (.indexed c)) s)
def execVldpSp (fm : Form) (v : BitVec 5) (b c : BitVec 6) (s : State) : Out :=
  .next (run (.vldpSp fm v b c) (spLoadBody (.vldpSp fm v b c) fm v b 3 (.pair c)) s)
def execVstSp (fm : Form) (v : BitVec 5) (b : BitVec 6) (w : BitVec 2) (s : State) : Out :=
  .next (run (.vstSp fm v b w) (spStoreBody (.vstSp fm v b w) fm v b w .unit) s)
def execVstsSp (fm : Form) (v : BitVec 5) (b c : BitVec 6) (w : BitVec 2) (s : State) : Out :=
  .next (run (.vstsSp fm v b c w) (spStoreBody (.vstsSp fm v b c w) fm v b w (.strided c)) s)
def execVstxSp (fm : Form) (v : BitVec 5) (b : BitVec 6) (c : BitVec 5) (w : BitVec 2) (s : State) : Out :=
  .next (run (.vstxSp fm v b c w) (spStoreBody (.vstxSp fm v b c w) fm v b w (.indexed c)) s)
def execVstpSp (fm : Form) (v : BitVec 5) (b c : BitVec 6) (s : State) : Out :=
  .next (run (.vstpSp fm v b c) (spStoreBody (.vstpSp fm v b c) fm v b 3 (.pair c)) s)

end Sys2Proof.Machine
end

