-- ==== Sys2Proof/Machine/Atomics.lean ====
section
/-! DEFINITION. Atomics and `vwait`: majors 0x21 and 0x22 (R192 to R199). -/

namespace Sys2Proof.Machine

/-! ## Attributes (R193) -/

def attrScope (fm : Form) : Nat := attrOf fm % 8
def attrAcq (fm : Form) : Bool := flag (attrOf fm) 4
def attrRel (fm : Form) : Bool := flag (attrOf fm) 5
def attrU (fm : Form) : Bool := flag (attrOf fm) 6
def attrNF (fm : Form) : Bool := flag (attrOf fm) 7
def attrRA (fm : Form) : Bool := flag (attrOf fm) 8

/-- A release of the scope waits as a release store does (R146, R199). -/
def releaseAttr (fm : Form) : M Unit := do
  if attrRel fm then releaseAt (if attrScope fm = 5 then .fab else if attrScope fm = 6 then .sys else .dev)

/-! ## One location -/

/-- A location of an atomic: global memory, or scratchpad storage. -/
inductive AtomLoc where
  | glob (pa key : Nat)
  | loc (sp : Space) (off : Nat)
  deriving DecidableEq, Repr

/-- Finds the location; a global one is translated for a read-modify-write or a read (R192, R198). -/
def atomLoc (sp : Bool) (va : DWord) (k : Acc) : M (Except Denied AtomLoc) := do
  if sp then
    let s ← get
    let (x, off) := s.spSpace s.h va
    return .ok (.loc x off)
  else
    return (← findM (← whoM) va.toNat k).map fun x => .glob x.1 x.2

/-- Reads a location now, as the class of the hart sees it; poison raises `cause` there. What the class loaded early there is no longer
good (R142, R192). -/
def readAtom (c : Cls) (va : DWord) (n cause : Nat) : AtomLoc → M (List (Byte × Bool))
  | .loc x off => do
    dropEarly c x ((← get).localLocs x off n)
    readSpace c x off n cause
  | .glob pa key => do
    dropEarly c .glob ((List.range n).map (· + pa))
    let w := { (← whoM) with psnCause := cause }
    let (r, s) := (← get).loadSector w ((← getH).pendingOf c) pa n key va.toNat
    set s
    match r with
    | some l => return l
    | none => squash 0x44 va

/-- Writes of the class to the location that are on their way perform first, and what they must follow, in the vector class also those of
earlier strip intervals; other writes stay (R142, R143, R199). -/
def settleAtom (c : Cls) (n : Nat) (l : AtomLoc) : M Unit := do
  let s ← get
  let hit := fun (w : PWrite) => w.cls == c && (c == .vector && decide (w.strip < s.h.strip) || match l with
    | .glob pa _ => w.space == .glob && decide (w.addr < pa + n) && decide (pa < w.addr + w.bytes.length)
    | .loc x off => w.space == x && (s.localLocs x off n).any fun a => decide (w.addr ≤ a) && decide (a < w.addr + w.bytes.length))
  set (s.flushFor hit)

/-- The write half: it performs at once (R192). -/
def writeAtom (va : DWord) (bs : List Byte) (l : AtomLoc) : M Unit := do
  let w ← whoM
  match l with
  | .glob pa key =>
    modify fun s => s.apply w { cls := .scalar, strip := 0, space := .glob, addr := pa, key := key, va := va, bytes := bs, psn := false }
  | .loc x off =>
    modify fun s => s.apply w { cls := .scalar, strip := 0, space := x, addr := off, key := 0, va := va, bytes := bs, psn := false }

/-- The new value of an integer operation at a width (R194). -/
def amoNew (o : AmoOp) (u : Bool) (w old x : Nat) : Nat :=
  let x := x % 2 ^ w
  let lt := fun a b : Nat => if u then decide (a < b) else decide ((BitVec.ofNat w a).toInt < (BitVec.ofNat w b).toInt)
  match o with
  | .add => (old + x) % 2 ^ w
  | .and => old &&& x
  | .or => old ||| x
  | .xor => old ^^^ x
  | .min => if lt x old then x else old
  | .max => if lt old x then x else old
  | .swap => x

/-! ## Scalar atomics: major 0x21 -/

/-- The accesses of the hart that an acquire orders after it have not performed before it (R146, R199). -/
def acquireAttr (fm : Form) : M Unit := if attrAcq fm then modH fun h => { h with early := [] } else pure ()

/-- One atomic step on the location at xb; `f` gives the new value (R194). What a release waits for comes before its walk (R134, R146). -/
def amoBody (fm : Form) (d b : BitVec 6) (dw sp : Bool) (f : Hart → Nat → Nat) : M Unit := do
  let h ← getH
  let va := h.getX b
  let n := if dw then 8 else 4
  if va.toNat % n ≠ 0 then before 0x30 va
  releaseAttr fm
  match ← atomLoc sp va .rmw with
  | .error e => denied .before 0 va e
  | .ok l =>
    settleAtom .scalar n l
    let bs ← readAtom .scalar va n 0x41 l
    if anyPsn bs then squash 0x41 va
    let old := bytesVal bs
    writeAtom va (leBytes n (f h old)) l
    acquireAttr fm
    modH fun h => h.setX d (if attrU fm || dw then BitVec.ofNat 64 old else (BitVec.ofNat 32 old).signExtend 64)

def execAmo (fm : Form) (xd b y : BitVec 6) (o : AmoOp) (dw sp : Bool) (s : State) : Out :=
  .next (run (.amo fm xd b y o dw sp)
    (amoBody fm xd b dw sp fun h old => amoNew o (attrU fm) (if dw then 64 else 32) old (h.getX y).toNat) s)

/-- `cas` stores xs when the old value equals the low bits of xd (R194). -/
def execCas (fm : Form) (xd b y : BitVec 6) (dw sp : Bool) (s : State) : Out :=
  .next (run (.cas fm xd b y dw sp) (amoBody fm xd b dw sp fun h old =>
    let w := if dw then 64 else 32
    if old = (h.getX xd).toNat % 2 ^ w then (h.getX y).toNat % 2 ^ w else old) s)

/-! ## Vector atomics and waits: major 0x22 -/

/-- Address of element e of a `vamo` or `vwait`, aligned down; IMM carries the attributes and is no offset (R184, R193, R195). -/
def vamoAddr (b : BitVec 6) (h : Hart) (idx : VReg) (n e : Nat) : DWord :=
  let a := h.getX b + BitVec.ofInt 64 ((BitVec.ofNat 32 (idx.elt 32 e)).toInt * n)
  BitVec.ofNat 64 (a.toNat / n * n)

/-- The checks before forwarding and the active elements (R197, R198, R220). -/
def vamoElts (fm : Form) (v vi : BitVec 5) (dw : Bool) : M (List Nat) := do
  let w := if dw then 64 else 32
  checkGrant (max w 32)
  noSlot v
  noSlot vi
  let h ← getH
  let es := (List.range h.vl.toNat).filter (activeAt fm h)
  if es.any fun e => (h.getV v).eltPsn w e || (h.getV vi).eltPsn 32 e then squash 0x40 0
  return es

/-- A failed translation of an element is before effect; that of a `vamo` leaves `ves` and `vcm` (R197, R198). -/
def deniedKeeping {α : Type} (keep : Bool) (idx : Nat) (va : DWord) : Denied → M α
  | .cause c =>
    if !keep || c = 0x40 || c = 0x44 then denied .before idx va (.cause c)
    else throw (.trap { kind := .before, code := c, tval := va, idx := idx, keep := true })
  | .wait => denied .before idx va .wait

/-- Locations of elements in order; the lowest failure is before effect (R197). -/
def atomLocs (sp : Bool) (k : Acc) : List (Nat × DWord) → M (List (Nat × DWord × AtomLoc))
  | [] => return []
  | (e, va) :: l => do
    match ← atomLoc sp va k with
    | .error d => deniedKeeping (k == .rmw) e va d
    | .ok x => return (e, va, x) :: (← atomLocs sp k l)

/-- Every location is read before any element performs: a poisoned one squashes (R197). -/
def cleanLocs (n : Nat) : List (Nat × DWord × AtomLoc) → M Unit
  | [] => return
  | (_, va, x) :: l => do
    let bs ← readAtom .vector va n 0x41 x
    if anyPsn bs then squash 0x41 va
    cleanLocs n l

/-- Elements as a parked hart holds them. -/
def AtomLoc.place : AtomLoc → Space × Nat × Nat
  | .glob pa key => (.glob, pa, key)
  | .loc x off => (x, off, 0)

def atomAt : Space × Nat × Nat → AtomLoc
  | (.glob, pa, key) => .glob pa key
  | (x, off, _) => .loc x off

/-- The elements' operations in order, with the old value of each (R196); it may pause after `stop` of them, and then other agents'
accesses, atomics among them, fall between (log entry 78). -/
def vamoRun (i : Instr) (n : Nat) (f : Nat → Nat → Nat) :
    Option Nat → List (Nat × DWord × AtomLoc) → List (Nat × Nat) → M (List (Nat × Nat))
  | _, [], olds => return olds
  | some 0, l, olds => throw (.park (.vamo i (l.map fun x => (x.1, x.2.1, x.2.2.place)) olds))
  | stop, (e, va, x) :: l, olds => do
    let old := bytesVal (← readAtom .vector va n 0x41 x)
    writeAtom va (leBytes n (f e old)) x
    vamoRun i n f (stop.map (· - 1)) l (olds ++ [(e, old)])

/-- Descriptor of `fadd` (R195). -/
def faddFd (dw : Bool) (fd : DWord) : Bool :=
  let ok := fun c : Nat => if dw then c == 2 else c == 0 || c == 10
  fdOk { fa := some ok, fb := some ok, dst := some ok, rounds := true } fd && fdFB fd == fdFA fd && fdDst fd == fdFA fd &&
    !fdSub fd

/-- old + v, rounded with the element as key, subnormals flushed (R195). -/
def faddNew (r : RCtx) (e old x : Nat) : Nat :=
  let c := fdDst r.d
  let v := fun p => (sourceVal r.d c c p).getD .nar
  r.roundNoSub c e ((v old).add (fdRM r.d == 3) (v x))

/-- The elements of a `vamo` that begins, in the order in which they perform: checked before any of them does (R197). -/
def vamoBegin (fm : Form) (v : BitVec 5) (b : BitVec 6) (vi : BitVec 5) (dw sp : Bool) (o : VamoOp) : M (List (Nat × DWord × AtomLoc)) := do
  let n := if dw then 8 else 4
  let es ← vamoElts fm v vi dw
  let h ← getH
  let l := es.map fun e => (e, vamoAddr b h (h.getV vi) n e)
  if sp then
    let s ← get
    interlockSp (l.map fun x => { e := x.1, va := x.2, sp := (s.spSpace h x.2).1, off := (s.spSpace h x.2).2 : SpElt }) n true
  else interlock false (l.map (·.2)) n true
  waitEarlier
  releaseAttr fm
  let ls ← atomLocs sp .rmw l
  let free := match o with | .fadd => attrRA fm | .int _ => true
  if free && shareByte n (ls.map (·.2.1.toNat)) then do
      let m ← takeFreeM
      return shuffle m ls
    else return ls

/-- A `vamo`, or what is left of one that paused. A location that is found poisoned then squashes it (log entry 78). -/
def vamoBody (i : Instr) (fm : Form) (v : BitVec 5) (b : BitVec 6) (vi : BitVec 5) (dw sp : Bool) (o : VamoOp) (stop : Option Nat) :
    M Unit := do
  let n := if dw then 8 else 4
  let w := 8 * n
  let h ← getH
  let fd := fdxValue fm h
  let (ls, olds) ← match h.park with
    | some (.vamo _ left olds) => pure (left.map fun x => (x.1, x.2.1, atomAt x.2.2), olds)
    | _ => do
      checkNamed i
      match o with
      | .fadd => checkFd fd (faddFd dw fd)
      | .int _ => pure ()
      pure (← vamoBegin fm v b vi dw sp o, [])
  ls.forM fun x => settleAtom .vector n x.2.2
  cleanLocs n ls
  let r ← rctx fd
  let src := h.getV v
  let olds ← vamoRun i n (fun e old => match o with
    | .int op => amoNew op (attrU fm) w old (src.elt w e)
    | .fadd => faddNew r e old (src.elt w e)) stop ls olds
  acquireAttr fm
  if !attrNF fm then writeElts v w olds

/-- A `vamo` of which the first elements, as many as `stop` says, perform in this step. -/
def vamoPart (stop : Option Nat) (fm : Form) (v : BitVec 5) (b : BitVec 6) (c : BitVec 5) (dw sp : Bool) (o : VamoOp) (s : State) : State :=
  run (.vamo fm v b c dw sp o) (vamoBody (.vamo fm v b c dw sp o) fm v b c dw sp o stop) s

def execVamo (fm : Form) (v : BitVec 5) (b : BitVec 6) (c : BitVec 5) (dw sp : Bool) (o : VamoOp) (s : State) : Out :=
  .next (vamoPart none fm v b c dw sp o s)

/-- Reads the elements not yet observed; those whose condition holds are observed now (R198). -/
def observe (fm : Form) (c : WaitOp) (n : Nat) (src : VReg) : List (Nat × DWord × AtomLoc) → BitVec 2048 → M (BitVec 2048)
  | [], seen => return seen
  | (e, va, x) :: l, seen => do
    if seen.getLsbD e then observe fm c n src l seen
    else
      let cause := if attrAcq fm then 0x41 else 0x40
      let bs ← readAtom .vector va n cause x
      if anyPsn bs then squash cause va
      let hit := waitHolds c (8 * n) (bytesVal bs) (src.elt (8 * n) e)
      observe fm c n src l (if hit then setBit seen e true else seen)

/-- The elements that a parked `vwait` has observed. -/
def seenOf (h : Hart) : BitVec 2048 := match h.park with | some (.wait _ _ _ b) => b | _ => 0

/-- `vwait` retires once every active element has been observed, and parks until then (R198). -/
def vwaitBody (i : Instr) (fm : Form) (v : BitVec 5) (b : BitVec 6) (vi : BitVec 5) (dw sp : Bool) (c : WaitOp) : M Unit := do
  checkNamed i
  let n := if dw then 8 else 4
  let es ← vamoElts fm v vi dw
  let h ← getH
  let l := es.map fun e => (e, vamoAddr b h (h.getV vi) n e)
  if sp then
    let s ← get
    interlockSp (l.map fun x => { e := x.1, va := x.2, sp := (s.spSpace h x.2).1, off := (s.spSpace h x.2).2 : SpElt }) n false
  else interlock false (l.map (·.2)) n false
  let ls ← atomLocs sp .read l
  let seen ← observe fm c n (h.getV v) ls (seenOf h)
  if es.any fun e => !seen.getLsbD e then throw (.park (.wait i 7 none seen))
  acquireAttr fm

def execVwait (fm : Form) (v : BitVec 5) (b : BitVec 6) (i : BitVec 5) (dw sp : Bool) (c : WaitOp) (s : State) : Out :=
  .next (run (.vwait fm v b i dw sp c) (vwaitBody (.vwait fm v b i dw sp c) fm v b i dw sp c) s)

/-- An unsatisfied element is read again (R198). -/
def execVwaitReevaluation (h : HartId) (s : State) : Out :=
  match s.hartAt h with
  | some { park := some (.wait (.vwait fm v b i dw sp c) _ _ _), .. } => execVwait fm v b i dw sp c (s.focus h)
  | _ => .next s

end Sys2Proof.Machine
end

