-- ==== Sys2Proof/Machine/Barriers.lean ====
section
/-! DEFINITION. Barriers: major 0x23 (R200 to R205). -/

namespace Sys2Proof.Machine

/-! ## State of a barrier (R201, R205) -/

/-- Harts of a gang that have not executed `texit`. -/
def Gang.liveHarts (g : Gang) : Nat := g.desc.harts - (List.range 32).countP fun k => g.exited.getLsbD k

/-- A named barrier by its index, or the gang barrier. -/
def Gang.barAt (g : Gang) : Option Nat → Bar
  | none => g.gbar
  | some k => g.bars.getD k { }

def Gang.setBar (g : Gang) (k : Option Nat) (b : Bar) : Gang :=
  match k with
  | none => { g with gbar := b }
  | some k => { g with bars := g.bars.set k b }

/-- The expected count: of the gang barrier always the harts that have not exited (R201; log entry 24). -/
def Gang.expOf (g : Gang) (k : Option Nat) : Nat := match k with | none => g.liveHarts | some _ => (g.barAt k).exp

/-- The open phase completes: records, next phase, evt.BAR of the harts that arrived, and a trace record (R201, R205, R379). -/
def State.completePhase (s : State) (key : Nat) (k : Option Nat) (last : Hart) : State :=
  match s.gangOf key with
  | none => s
  | some g =>
    let b := g.barAt k
    let b' : Bar := { phase := b.phase + 1, lph := b.phase, lgh := last.gh, lts := s.tstamp, wgh := b.firstGh,
                      wclk := BitVec.ofNat 64 (min (s.clk - b.firstClk) (2 ^ 64 - 1)) }
    let s := s.mapGang key fun g => g.setBar k b'
    let s := s.mapHarts (fun h => h.live && h.gang == key && b.mask.getLsbD h.gh) fun h => { h with evtBar := true }
    if g.tcb.brec then
      s.emit g.tcb g.node (some last) 6 3
        (BitVec.ofNat 64 (b.phase.toNat * 2 ^ 32 + (k.getD 511) * 2 ^ 23 + last.gh * 2 ^ 18 + b.firstGh * 2 ^ 13))
    else s

/-- Every hart of the gang that has not exited has arrived at the gang barrier (R201). -/
def Gang.allArrived (g : Gang) : Bool :=
  (List.range g.desc.harts).all fun k => g.exited.getLsbD k || g.gbar.mask.getLsbD k

/-- The clk of the first arrivals of open phases, turned into clk waited so far when the team is saved, and back when it is restored:
clk in which it is not resident do not count (R205). -/
def Gang.turnBars (g : Gang) (clk : Nat) : Gang :=
  let turn := fun (b : Bar) => { b with firstClk := clk - b.firstClk }
  { g with bars := g.bars.map turn, gbar := turn g.gbar }

/-- An arrival of a hart of the gang with count c (R201). -/
def State.arrive (s : State) (k : Option Nat) (c : Nat) : State :=
  let h := s.h
  match s.gangOf h.gang with
  | none => s
  | some g =>
    let b := g.barAt k
    let exp := match k with | none => g.liveHarts | some _ => if b.exp = 0 then c else b.exp
    let b' := { b with exp := exp, arr := b.arr + 1, mask := setBit b.mask h.gh true,
                       firstGh := if b.arr = 0 then h.gh else b.firstGh, firstClk := if b.arr = 0 then s.clk else b.firstClk }
    let whole := match k with | none => (g.setBar k b').allArrived | some _ => b'.arr == exp
    let s := s.mapGang h.gang fun g => g.setBar k b'
    if whole then s.completePhase h.gang k h else s

/-- The exit of a hart, after its bit is set in `exited`: it may complete the gang barrier's phase (R201). -/
def State.exitBarrier (s : State) (h : Hart) : State :=
  match s.gangOf h.gang with
  | none => s
  | some g => if g.gbar.arr ≠ 0 && g.allArrived then s.completePhase h.gang none h else s

/-! ## The instructions (R202 to R205) -/

/-- The gang of the hart in focus. -/
def gangM : M Gang := do
  let s ← get
  return (s.gangOf s.h.gang).getD { key := 0 }

/-- The named barrier of index xb; outside the gang's range it raises 0xA0 (R204). -/
def barIndex (b : BitVec 6) : M Nat := do
  let x := (← getH).getX b
  if (← gangM).bars.length ≤ x.toNat then before 0xA0 x
  return x.toNat

/-- The checks of an arrival, in the order of their codes (R204; log entry 77): `c` is 0 for the gang barrier, whose index reads as −1. -/
def checkArrival (k : Option Nat) (xc : DWord) : M Nat := do
  let g ← gangM
  let h ← getH
  let c := xc.toNat % 64
  let b := g.barAt k
  if k.isSome then
    if 64 ≤ xc.toNat || c == 0 || g.desc.harts < c then before 0xA1 xc
    if b.exp ≠ 0 && c ≠ b.exp then before 0xA2 (BitVec.ofNat 64 c)
  if b.mask.getLsbD h.gh then before 0xA3 (match k with | some i => BitVec.ofNat 64 i | none => BitVec.allOnes 64)
  return c

/-- An arrival once every older access, engine transfers among them, has performed; the phase arrived in (R202). -/
def arriveM (k : Option Nat) (xc : DWord) : M Word := do
  let c ← checkArrival k xc
  waitTransfers 6
  settleAll
  let ph := ((← gangM).barAt k).phase
  modify fun s => s.arrive k c
  return ph

/-- The wait of `bar.sync` and `gbar`: until the hart's mask bit is clear (R202). -/
def waitMask (i : Instr) (k : Option Nat) : M Unit := do
  let h ← getH
  if ((← gangM).barAt k).mask.getLsbD h.gh then throw (.park (.wait i 6 (some k) 0))

/-- The barrier at which a parked hart has arrived. -/
def Hart.arrivedAt (h : Hart) : Option (Option Nat) := match h.park with | some (.wait _ _ a _) => a | _ => none

def execBarArrive (fm : Form) (d b c : BitVec 6) (s : State) : Out :=
  .next (run (.barArrive fm d b c) (do
    let k ← barIndex b
    let ph ← arriveM (some k) ((← getH).getX c)
    modH fun h => h.setX d (BitVec.ofNat 64 ph.toNat)) s)

def execBarWait (fm : Form) (b t : BitVec 6) (s : State) : Out :=
  .next (run (.barWait fm b t) (do
    let k ← barIndex b
    let tok := ((← getH).getX t).setWidth 32
    if ((← gangM).barAt (some k)).phase = tok then throw (.park (.wait (.barWait fm b t) 6 none 0))) s)

/-- An arrival with a wait. A hart that is tried again, or resumes after a request, only waits (R111, R203). `idx` finds the barrier and `xc` its count. -/
def syncBody (i : Instr) (idx : M (Option Nat)) (xc : Hart → DWord) (d : Option (BitVec 6)) : M Unit := do
  let s ← get
  match s.h.arrivedAt with
  | some k => waitMask i k
  | none =>
    let k ← idx
    if s.cv.resumed && s.cv.done.getLsbD 0 then waitMask i k
    else
      let ph ← arriveM k (xc s.h)
      match d with
      | some d => modH fun h => h.setX d (BitVec.ofNat 64 ph.toNat)
      | none => pure ()
      waitMask i k

def execBarSync (fm : Form) (d b c : BitVec 6) (s : State) : Out :=
  .next (run (.barSync fm d b c) (syncBody (.barSync fm d b c) (some <$> barIndex b) (·.getX c) (some d)) s)

def execGbar (fm : Form) (s : State) : Out :=
  .next (run (.gbar fm) (syncBody (.gbar fm) (pure none) (fun _ => 0) none) s)

/-- What `bar.rd` reads of a barrier (R205). -/
def barWord (b : Bar) (exp sel : Nat) : DWord :=
  if sel = 0 then BitVec.ofNat 64 (b.phase.toNat * 2 ^ 32 + exp % 64 * 256 + b.arr % 64)
  else if sel = 1 then b.mask.setWidth 64
  else if sel = 2 then BitVec.ofNat 64 (b.lph.toNat * 2 ^ 32 + b.lgh % 32)
  else if sel = 3 then b.lts
  else if sel = 4 then BitVec.ofNat 64 (b.wgh % 32)
  else b.wclk

def execBarRd (fm : Form) (d b sel : BitVec 6) (s : State) : Out :=
  .next (run (.barRd fm d b sel) (do
    let h ← getH
    let k ← if h.getX b = BitVec.allOnes 64 then pure none else some <$> barIndex b
    let g ← gangM
    modH fun h => h.setX d (barWord (g.barAt k) (g.expOf k) sel.toNat)) s)

end Sys2Proof.Machine
end

