-- ==== Sys2Proof/Machine/Streams.lean ====
section
/-! DEFINITION. Stream registers: majors 0x24 and 0x25 and the stream engines' fetches (R208, R215 to R218, R224, R225). -/

namespace Sys2Proof.Machine

/-! ## Records read by engine commands (R7, R139, R215) -/

/-- Reads pieces of a record from global memory: a denial is before effect, an integrity failure a squash. -/
def recordPieces : List (Nat × Nat) → M (List (Byte × Bool))
  | [] => return []
  | (a, len) :: l => do
    let va := BitVec.ofNat 64 a
    let w ← whoM
    match ← findM w (a % 2 ^ 64) .read with
    | .error d => denied .before 0 va d
    | .ok (pa, key) =>
      let bs ← readPiece .vector w va (pa, key, len)
      match (bs.zip (List.range len)).find? (·.1.2) with
      | some x => squash 0x40 (va + BitVec.ofNat 64 x.2)
      | none => return bs ++ (← recordPieces l)

/-- Reads a record of `n` bytes, after every older store of the hart in both classes has performed (R215, R291, R314): from TCM when
`t`. -/
def readRecord (t : Bool) (va : DWord) (n : Nat) : M (List Byte) := do
  interlock t [va] n false
  settleAll
  if t then
    let (sp, off) := (← getH).tcmSpace va
    let bs ← loadSpace .vector sp off n
    match (bs.zip (List.range n)).find? (·.1.2) with
    | some x => squash 0x40 (va + BitVec.ofNat 64 x.2)
    | none => return bs.map (·.1)
  else return (← recordPieces (piecesOf va.toNat n)).map (·.1)

/-! ## Binding and stopping (R215, R216) -/

/-- Ends a binding (R216). -/
def Hart.stopStream (h : Hart) (q : BitVec 3) : Hart :=
  match h.getQ q with
  | none => h
  | some _ => ((h.setQ q none).dirty (qBit q)).release (.stream q)

/-- Every stream register of a hart is stopped (R208, R318). -/
def Hart.stopStreams (h : Hart) : Hart := ((List.range 8).map (BitVec.ofNat 3)).foldl Hart.stopStream h

/-- What the entry of a binding covers (R139, R224). -/
def patternParts (s : State) (p : Pattern) : List (Space × Nat × Nat) := s.lockParts s.h p.space p.range.1 p.range.2

/-- Binds: an earlier binding is stopped, one entry is taken, and the engine may fetch (R215, R224). -/
def bindStream (q : BitVec 3) (b : Binding) : M Unit := do
  modH fun h => h.stopStream q
  let s ← get
  let ps := patternParts s b.pattern
  waitLocks (ps.map (·, false))
  takeLocks (lockEntry (.stream q) false ps)
  modH fun h =>
    let h := (h.setQ q (some b)).dirty (qBit q)
    if b.allFetched then h.release (.stream q) else h

/-- A vector register that is the slot of another stream register (R215). -/
def slotFree (q : BitVec 3) (v : BitVec 5) : M Unit := do
  match (← getH).slotOf v with
  | some q' => if q' ≠ q then before 0x65 (BitVec.ofNat 64 v.toNat)
  | none => pure ()

/-- Binds a record. Its address is checked before it is read, and its fields after; a fibre record with a slot that is taken raises 0x64 (log
entry 91). -/
def sbindBody (i : Instr) (q : BitVec 3) (b : BitVec 6) (slot : Option (BitVec 5)) (t : Bool) : M Unit := do
  checkNamed i
  let h ← getH
  let va := h.getX b
  if va.toNat % 16 ≠ 0 then before 0x63 va
  let r ← readRecord t va 176
  match parsePattern r with
  | none => before 0x63 va
  | some p =>
    match slot with
    | some v => do
      if p.fibre then before 0x64 0
      slotFree q v
    | none => pure ()
    let h ← getH
    bindStream q { record := r, seed := h.sseed, base := h.sbase, slot := slot, prv := h.status.prv }

def execSbind (fm : Form) (q : BitVec 3) (b : BitVec 6) (v : BitVec 5) (t : Bool) (s : State) : Out :=
  .next (run (.sbind fm q b v t) (sbindBody (.sbind fm q b v t) q b (some v) t) s)
def execSbindF (fm : Form) (q : BitVec 3) (b : BitVec 6) (t : Bool) (s : State) : Out :=
  .next (run (.sbindF fm q b t) (sbindBody (.sbindF fm q b t) q b none t) s)
def execSstop (fm : Form) (q : BitVec 3) (s : State) : Out :=
  .next (run (.sstop fm q) (do checkNamed (.sstop fm q); modH fun h => h.stopStream q) s)

/-! ## Images (R217) -/

/-- The 256-byte image of a stream register. -/
def streamImage : Option Binding → List Byte
  | none => List.replicate 256 0
  | some b =>
    let fl := 0x80 + (match b.slot with | some v => 0x40 + v.toNat | none => 0)
    (b.record ++ List.replicate 176 0).take 176 ++ leBytes 8 b.pos ++ leBytes 8 b.seed.toNat ++ leBytes 8 b.base.toNat ++
      leBytes 8 fl ++ List.replicate 48 0

/-- Address bits [7:0] are ignored. -/
def imageAddr (x : DWord) : DWord := x &&& ~~~255#64

def execSsave (fm : Form) (q : BitVec 3) (b : BitVec 6) (t : Bool) (s : State) : Out :=
  .next (run (.ssave fm q b t) (do
    checkNamed (.ssave fm q b t)
    let h ← getH
    let va := imageAddr (h.getX b)
    let img := streamImage (h.getQ q)
    interlock t [va] 256 true
    if t then
      let (sp, off) := h.tcmSpace va
      storeSpace .vector sp off va img false
    else storeGlob .vector va img false .before
    flushM) s)

/-- Makes a stream register the stream that an image describes. -/
def srestBody (i : Instr) (q : BitVec 3) (b : BitVec 6) (t : Bool) : M Unit := do
  checkNamed i
  let va := imageAddr ((← getH).getX b)
  let img ← readRecord t va 256
  let fl := recWord img 200
  if !flag fl 7 then modH fun h => h.stopStream q
  else
    if bits fl 8 56 != 0 || flag fl 5 || (img.drop 208).any (· != 0) then before 0x63 va
    match parsePattern (img.take 176) with
    | none => before 0x63 va
    | some p =>
      let pos := recWord img 176
      if p.count < pos then before 0x63 va
      let slot : Option (BitVec 5) := if flag fl 6 then some (BitVec.ofNat 5 fl) else none
      match slot with
      | some v => do
        if p.fibre then before 0x64 0
        slotFree q v
      | none => pure ()
      bindStream q { record := img.take 176, pos := pos, seed := BitVec.ofNat 64 (recWord img 184),
                     base := BitVec.ofNat 64 (recWord img 192), slot := slot, prv := (← getH).status.prv }

def execSrest (fm : Form) (q : BitVec 3) (b : BitVec 6) (t : Bool) (s : State) : Out :=
  .next (run (.srest fm q b t) (srestBody (.srest fm q b t) q b t) s)

/-! ## The engine (R213) -/

def execStreamFetch (h : HartId) (q : BitVec 3) (s : State) : Out := .next (s.streamFetch h q)

/-! ## Taking, skipping, counting (R218) -/

/-- The binding of a register, or cause 0x61. -/
def boundM (q : BitVec 3) : M Binding := do
  match (← getH).getQ q with
  | some b => return b
  | none => before 0x61 (BitVec.ofNat 64 q.toNat)

def sopPopBody (i : Instr) (d : BitVec 5) (q : BitVec 3) : M Unit := do
  checkNamed i
  let b ← boundM q
  let h ← getH
  let wo := fmtWidth b.pattern.out
  if b.pattern.fibre then before 0x64 0
  if wo ≠ ewBits h.ew then before 0x64 (BitVec.ofNat 64 wo)
  checkGrant wo
  if b.pattern.count < b.pos + h.vl.toNat then before 0x62 (BitVec.ofNat 64 (b.pos + h.vl.toNat))
  noSlot d
  let l ← popElems q h.vl.toNat
  placeElts d wo ((List.range l.length).zip l)

def execSopPop (fm : Form) (d : BitVec 5) (q : BitVec 3) (s : State) : Out :=
  .next (run (.sopPop fm d q) (sopPopBody (.sopPop fm d q) d q) s)

def execSopSkip (fm : Form) (q : BitVec 3) (n : BitVec 6) (s : State) : Out :=
  .next (run (.sopSkip fm q n) (do
    checkNamed (.sopSkip fm q n)
    let b ← boundM q
    let k := ((← getH).getX n).toNat
    if b.pattern.count < b.pos + k then before 0x62 (BitVec.ofNat 64 (b.pos + k))
    modH fun h => h.advance q k) s)

def execSopPos (fm : Form) (d : BitVec 6) (q : BitVec 3) (s : State) : Out :=
  .next (run (.sopPos fm d q) (do
    checkNamed (.sopPos fm d q)
    modH fun h => h.setX d (match h.getQ q with | some b => BitVec.ofNat 64 b.pos | none => BitVec.allOnes 64)) s)

def execSopRem (fm : Form) (d : BitVec 6) (q : BitVec 3) (s : State) : Out :=
  .next (run (.sopRem fm d q) (do
    checkNamed (.sopRem fm d q)
    modH fun h => h.setX d (match h.getQ q with | some b => BitVec.ofNat 64 (b.pattern.count - b.pos) | none => 0)) s)

end Sys2Proof.Machine
end

