-- ==== Sys2Proof/Machine/Fibres.lean ====
section
/-! DEFINITION. The fibre engine: majors 0x26 to 0x29 (R227 to R257). -/

namespace Sys2Proof.Machine

/-! ## Fibre registers and values (R227, R228, R230, R233) -/

/-- Coordinates strictly ascend: the sorted flag (R227). -/
def sortedPairs : List Pair → Bool
  | [] => true
  | [_] => true
  | a :: b :: l => decide (a.crd.toNat < b.crd.toNat) && sortedPairs (b :: l)

/-- Capacity of a fibre register (R227). -/
def Hart.cap (h : Hart) : Nat := h.grant 32

/-- Replaces the pairs of a register; `vdirty` is set when a pair is written or the occupancy changes (R229). -/
def Hart.putF (h : Hart) (r : BitVec 4) (l : List Pair) : Hart :=
  if l.isEmpty && (h.getF r).isEmpty then h else (h.setF r l).dirty (fBit r)

/-- The fibre value formats V (R233). -/
def fibreV (c : Nat) : Bool := c ≤ 1 || isTap c || (isInt c && c % 4 != 3)

/-- Any floating or integer format but tb8 and the MX formats (R233). -/
def denseV (c : Nat) : Bool := isFloating c || isInt c

/-- A descriptor of a fibre instruction: codes, one class, no SUB (R81, R233). -/
def fibreFd (u : FdUse) (fd : DWord) (cs : List Nat) : Bool :=
  fdOk { u with rounds := u.dst.isSome && isFloating (fdDst fd) } fd && !fdSub fd && (cs.all isFloating || cs.all isInt)

/-- The exact value that a container stands for in an operation (R77, R228, R233). -/
def fibreVal (fd : DWord) (c : Nat) (v : Word) : Val :=
  let p := v.toNat % 2 ^ fmtWidth c
  if isInt c then valueOf c p else (sourceVal fd (fdDst fd) c p).getD .nar

/-- A value as an exact integer. -/
def Val.toInt : Val → Int
  | .num n m e => scaled n m e 0
  | _ => 0

/-- A result in FDST: R157 for integers, R158 for floating values, with key e (R233). -/
def fibreOut (r : RCtx) (e : Nat) (v : Val) : Word :=
  BitVec.ofNat 32 (if isInt (fdDst r.d) then storeInt (fdDst r.d) (fdSat r.d) v.toInt else r.roundNoSub (fdDst r.d) e v)

/-- The smaller or larger value under R74, or as integers (R157). -/
def fibrePick (fa : Nat) (larger : Bool) (a b : Val) : Val := pickVals (isIeee fa) larger a b

/-- A container converted from one format to FDST. -/
def fibreCvt (r : RCtx) (c e : Nat) (v : Word) : Word := fibreOut r e (fibreVal r.d c v)

/-- A poisoned coordinate or value from a register squashes (R230). -/
def cleanIn (p : Bool) : M Unit := do if p then squash 0x40 0

/-- No fibre register holds this coordinate (R227). -/
def noCrd : Word := BitVec.allOnes 32

/-! ## The frame of continuable members (R235 to R240) -/

/-- A body of a continuable member; an access that faults carries the positions reached, the cause and the address (R240). -/
abbrev B := ExceptT ((Nat × Nat) × Nat × DWord) M

/-- A pair about to be emitted: the positions held at it, its coordinate, its container, and the positions after it (R237). -/
structure Emit where
  here : Nat × Nat
  crd : Word
  cp : Bool := false
  val : B (Word × Bool)
  next : Nat × Nat

/-- Reads bytes for a body; a fault stops at the pair being reached (R240). -/
def readB (t : Bool) (p : Nat × Nat) (va : DWord) (n : Nat) : B (List (Byte × Bool)) := do
  match ← targetOf t va n .read with
  | .ok x => loadTarget va n x
  | .error (.cause c) => throw (p, c, va)
  | .error .wait => throw (p, 0x20, va)

/-- Translates the words of a record before they are read; a fault names the word (R240). -/
def probeB (p : Nat × Nat) (va : DWord) : Nat → B Unit
  | 0 => return ()
  | n + 1 => do
    match ← targetOf false va 8 .read with
    | .ok _ => probeB p (va + 8) n
    | .error (.cause c) => throw (p, c, va)
    | .error .wait => throw (p, 0x20, va)

/-- `fprog` at a stop (R236). -/
def fprogWord (key occ : Nat) (p : Nat × Nat) : DWord :=
  BitVec.ofNat 64 (2 ^ 63 + key * 2 ^ 56 + occ % 1024 * 2 ^ 46 + p.2 % 2 ^ 23 * 2 ^ 23 + p.1 % 2 ^ 23)

def stopAt (key : Nat) (d : BitVec 4) (p : Nat × Nat) : M Unit :=
  modH fun h => { h with fprog := fprogWord key (h.getF d).length p }

/-- A pending request stops the member (R240): before the search for its k-th pair when `k2` is 2k, at that pair when it is 2k + 1 (log
entry 75). -/
def cutPairs (key : Nat) (d : BitVec 4) (k2 : Nat) (p : Nat × Nat) : M Unit := do
  let s ← get
  match s.cv.cut with
  | some (m, n) =>
    if m = s.cv.idx && n ≤ k2 && !s.cv.pend then do
      stopAt key d p
      modify fun s => { s with cv := { s.cv with done := 0 } }
      throw (.cut 0)
  | none => pure ()

/-- Emits pairs until the inputs are consumed (`none`) or a pair finds no room (its positions). -/
def emitPairs (key : Nat) (d : BitVec 4) (lim : Nat) (body : Nat × Nat → B (Option Emit)) :
    Nat → Nat → Nat × Nat → B (Option (Nat × Nat))
  | 0, _, p => return some p
  | fuel + 1, k, p => do
    cutPairs key d (2 * k) p
    match ← body p with
    | none => return none
    | some e =>
      let h ← getH
      if lim ≤ (h.getF d).length then return some e.here
      cutPairs key d (2 * k + 1) e.here
      let (v, vp) ← e.val
      modH fun h => h.putF d (h.getF d ++ [{ crd := e.crd, val := v, cp := e.cp, vp := vp }])
      modify fun s => s.count s.h.id.core s.h.id.part 8 1
      emitPairs key d lim body fuel (k + 1) e.next

/-- The limit L by the cap register (R235). -/
def limitOf (h : Hart) (xs : BitVec 6) : Nat :=
  let n := (h.getX xs).toNat % 1024
  if 1 ≤ n && n ≤ h.cap then n else h.cap

/-- The continuable instructions (R235). -/
def isContinuable : Instr → Bool
  | .fld .. | .fldQ .. | .fisect .. | .funion .. | .fmerge .. | .fwalk .. => true
  | _ => false

/-- A second continuable member of a convoy (R239). -/
def checkSecond (i : Instr) : M Unit := do
  if (← get).cv.cont then before 0x6C (word0 i)
  modify fun s => { s with cv := { s.cv with cont := true } }

/-- A continuation of another instruction (R238). -/
def checkKey (key : Nat) : M Unit := do
  let f := (← getH).fprog
  if flag f.toNat 63 && bits f.toNat 56 7 != key then before 0x6C f

/-- Both, in that order. -/
def checkContinue (i : Instr) (key : Nat) : M Unit := do
  checkSecond i
  checkKey key

/-- The frame of a continuable member after its dispatch checks: `prep` runs once an issue, `body` finds the next pair, `fin` runs
when the inputs are consumed (R237). -/
def continuable {α : Type} (key : Nat) (d : BitVec 4) (xs : BitVec 6) (prep : Nat × Nat → B α)
    (body : α → Nat × Nat → B (Option Emit)) (fin : M Unit) : M Unit := do
  let h ← getH
  let f := h.fprog.toNat
  let p := if flag f 63 then (bits f 0 23, bits f 23 23) else (0, 0)
  if !flag f 63 then modH fun h => h.putF d []
  modify fun s => { s with cv := { s.cv with kids := none } }
  let lim := limitOf h xs
  let all : B (Option (Nat × Nat)) := do
    let a ← prep p
    emitPairs key d lim (body a) (lim + 1) 0 p
  match ← all.run with
  | .error (p, c, va) => do
    if c = 0x40 || c = 0x44 then squash c va
    stopAt key d p
    modify fun s => { s with cv := { s.cv with done := 0 } }
    throwTrap .restartable c va
  | .ok (some p) => do
    stopAt key d p
    modH fun h => h.setX xs (BitVec.ofNat 64 (2 ^ 63 + (h.getF d).length))
  | .ok none => do
    fin
    modH fun h => { h with fprog := 0 }.setX xs (BitVec.ofNat 64 (h.getF d).length)

/-! ## Loads, stores and bookkeeping: major 0x26 -/

/-- An image is an engine transfer with one entry of the interlock table while it runs (R140, R255). -/
def imageEntry (t : Bool) (va : DWord) (n : Nat) (write : Bool) : M Unit := do
  interlock t [va] n write
  if 16 ≤ (← getH).entriesHeld then throw (.stall 4)

/-- The count of an image, read afresh at each issue (R243). -/
def imageCount (t : Bool) (a : DWord) (p : Nat × Nat) : B Nat := do
  if a.toNat % 8 ≠ 0 then (squash 0x69 a : M Unit)
  imageEntry t a (8 + 8 * (p.1 + (← getH).cap)) false
  let bs ← readB t p a 4
  if anyPsn bs then (squash 0x40 a : M Unit)
  let n := bytesVal bs
  if 2 ^ 23 ≤ n then (squash 0x69 a : M Unit)
  return n

/-- Pair j of an image of n pairs: one location of 8 bytes, with a tag for each half in TCM (R149, R234, R243). -/
def imagePair (t : Bool) (a : DWord) (n : Nat) (p : Nat × Nat) : B (Option Emit) := do
  let j := p.1
  if n ≤ j then return none
  let at_ := a + BitVec.ofNat 64 (8 + 8 * j)
  let bs ← readB t p at_ 8
  let c := bs.take 4
  let v := bs.drop 4
  if anyPsn c && !(← getH).status.prv then (squash 0x40 at_ : M Unit)
  let crd := BitVec.ofNat 32 (bytesVal c)
  if crd = noCrd then (squash 0x69 a : M Unit)
  return some { here := p, crd := crd, cp := anyPsn c, next := (j + 1, p.2), val := pure (BitVec.ofNat 32 (bytesVal v), anyPsn v) }

def fldBody (i : Instr) (fm : Form) (d : BitVec 4) (b xs : BitVec 6) (t : Bool) : M Unit := do
  checkNamed i
  checkContinue i t.toNat
  atDispatch
  let a := (← getH).getX b + offsetOf fm
  continuable t.toNat d xs (imageCount t a) (imagePair t a) (pure ())

def execFld (fm : Form) (f : BitVec 4) (b y : BitVec 6) (t k : Bool) (s : State) : Out :=
  .next (run (.fld fm f b y t k) (fldBody (.fld fm f b y t k) fm f b y t) s)

/-- Pair of a fibre that a stream engine fetched (R244). -/
def streamPair (pat : Pattern) (lo : Nat) (ps : List Pair) (stop : Option (Nat × DWord)) (p : Nat × Nat) : B (Option Emit) := do
  match ps[p.1]? with
  | none =>
    match stop with
    | some (c, a) => throw (p, c, a)
    | none => return none
  | some x =>
    if x.cp then (squash 0x40 (pat.cbase + BitVec.ofNat 64 (4 * (lo + p.1))) : M Unit)
    if x.crd = noCrd then (squash 0x69 0 : M Unit)
    return some { here := p, crd := x.crd, val := pure (x.val, x.vp), next := (p.1 + 1, p.2) }

/-- A fault in fetching the fibre, of its pairs or of its two entries in the array of positions, stops the member as R240 has it, at the pair
being reached; that the entries' fault does too is the model's reading (R222, R244; log entry 89). -/
def fldQBody (i : Instr) (d : BitVec 4) (q : BitVec 3) (xs : BitVec 6) : M Unit := do
  checkNamed i
  checkContinue i 2
  let b ← boundM q
  let pat := b.pattern
  if !pat.fibre then before 0x64 0
  if 32 < fmtWidth pat.out then before 0x64 (BitVec.ofNat 64 (fmtWidth pat.out))
  if pat.count ≤ b.pos then before 0x62 (BitVec.ofNat 64 (pat.count + 1))
  keepBinding q fun c => c.wants b.pos (b.pos + 1)
  match b.held.find? (·.1 == b.pos) with
  | none | some (_, .again) => throw (.stall 0xB)
  | some (_, x) =>
    atDispatch
    let (lo, ps, bad, stop) := match x with
      | .fibre lo ps bad stop => (lo, ps, bad, stop)
      | .fault c a => (0, [], false, some (c, a))
      | .elem _ _ | .again => (0, [], true, none)
    if bad then squash 0x69 0
    if stop.isSome then keepBinding q Binding.deferFaults
    continuable 2 d xs (fun _ => pure ()) (fun _ => streamPair pat lo ps stop) (do
      modH fun h => h.advance q 1
      modify fun s => { s with cv := { s.cv with popped := s.cv.popped + 1 } })

def execFldQ (fm : Form) (f : BitVec 4) (q : BitVec 3) (y : BitVec 6) (k : Bool) (s : State) : Out :=
  .next (run (.fldQ fm f q y k) (fldQBody (.fldQ fm f q y k) f q y) s)

/-- A write of `fst`: a pair in TCM has the poison of its second word in `hi` (R184, R234, R245). -/
structure ImageWrite where
  va : DWord
  bytes : List Byte
  psn : Bool := false
  hi : Option Bool := none

/-- What `fst` writes: the count, then each pair as one location (R234, R245). -/
def imageWrites (t : Bool) (a : DWord) (l : List Pair) : List ImageWrite :=
  { va := a, bytes := leBytes 4 l.length } :: ((List.range l.length).zip l).map fun (k, x) =>
    { va := a + BitVec.ofNat 64 (8 + 8 * k), bytes := leBytes 4 x.crd.toNat ++ leBytes 4 x.val.toNat
      psn := x.cp || (!t && x.vp), hi := if t then some x.vp else none }

/-- Checks every write before any is made; a fault is restartable with nothing written (R245). -/
def imageTargets (t : Bool) : List ImageWrite → M (List Target)
  | [] => return []
  | x :: l => do
    match ← targetOf t x.va x.bytes.length .write with
    | .error d => denied .restartable 0 x.va d
    | .ok y => return y :: (← imageTargets t l)

/-- Makes a write of an image. -/
def storeImage (x : ImageWrite) (t : Target) : M Unit := do
  pushWrites ((← writesTo x.va x.bytes x.psn t).map fun w => { w with hi := x.hi })

def fstBody (i : Instr) (fm : Form) (f : BitVec 4) (b : BitVec 6) (t : Bool) : M Unit := do
  checkNamed i
  let h ← getH
  let a := h.getX b + offsetOf fm
  if a.toNat % 8 ≠ 0 then before 0x69 a
  atDispatch
  let ws := imageWrites t a (h.getF f)
  modify fun s => { s with cv := { s.cv with done := 0 } }
  let ts ← imageTargets t ws
  imageEntry t a (8 + 8 * (h.getF f).length) true
  (ws.zip ts).forM fun x => storeImage x.1 x.2

def execFst (fm : Form) (f : BitVec 4) (b : BitVec 6) (t k : Bool) (s : State) : Out :=
  .next (run (.fst fm f b t k) (fstBody (.fst fm f b t k) fm f b t) s)

/-- SRT and occupancy (R246). -/
def countWord (l : List Pair) : DWord := BitVec.ofNat 64 ((sortedPairs l).toNat * 2 ^ 63 + l.length)

/-- `fcount` writes no vector state and is executed whole wherever it stands (R246). -/
def execFcount (fm : Form) (d : BitVec 6) (f : BitVec 4) (k : Bool) (s : State) : Out :=
  .next (run (.fcount fm d f k) (do
    checkNamed (.fcount fm d f k)
    modH fun h => h.setX d (countWord (h.getF f))) s)

def execFclear (fm : Form) (f : BitVec 4) (k : Bool) (s : State) : Out :=
  .next (run (.fclear fm f k) (do
    checkNamed (.fclear fm f k)
    atDispatch
    modH fun h => h.putF f []) s)

/-! ## Set operations: major 0x27 (R247 to R249) -/

/-- What stands where: a only, b only, or both. -/
inductive Side where
  | a | b | both
  deriving DecidableEq, Repr

/-- An input that is not sorted squashes (R249). -/
def checkSorted (r : BitVec 4) : M Unit := do
  if !sortedPairs ((← getH).getF r) then squash 0x68 (BitVec.ofNat 64 r.toNat)

/-- The next pair of a union or merge; `isect` drops what stands on one side only (R248). -/
def nextPair (isect : Bool) (as bs : List Pair) : Nat → Nat × Nat → M (Option (Side × Nat × Nat))
  | 0, _ => return none
  | fuel + 1, (pa, pb) => do
    match as[pa]?, bs[pb]? with
    | none, none => return none
    | some a, none => do
      if isect then return none
      cleanIn a.cp
      return some (.a, pa, pb)
    | none, some b => do
      if isect then return none
      cleanIn b.cp
      return some (.b, pa, pb)
    | some a, some b => do
      cleanIn (a.cp || b.cp)
      if a.crd.toNat < b.crd.toNat then
        if isect then nextPair isect as bs fuel (pa + 1, pb) else return some (.a, pa, pb)
      else if b.crd.toNat < a.crd.toNat then
        if isect then nextPair isect as bs fuel (pa, pb + 1) else return some (.b, pa, pb)
      else return some (.both, pa, pb)

/-- The frame of a set operation: `val` gives the container from what stands where, the two pairs and the key. -/
def setOpBody (key : Nat) (fm : Form) (d a b : BitVec 4) (isect merge : Bool) (val : Side → Pair → Pair → Nat → M (Word × Bool)) :
    M Unit := do
  atDispatch
  let prep := fun _ : Nat × Nat => (do checkSorted a; checkSorted b : B Unit)
  let h ← getH
  let as := h.getF a
  let bs := h.getF b
  continuable key d (e5Of fm) prep (fun _ p => do
    match ← nextPair isect as bs (as.length + bs.length + 1) p with
    | none => return none
    | some (side, pa, pb) =>
      let x := as.getD pa { crd := 0, val := 0 }
      let y := bs.getD pb { crd := 0, val := 0 }
      return some { here := (pa, pb), crd := if side = .b then y.crd else x.crd, val := val side x y (pa + pb),
                    next := (if side = .b then pa else pa + 1, if side = .b || (side = .both && !merge) then pb + 1 else pb) })
    (pure ())

/-- Checks of a set operation with a descriptor, in the order of R113. -/
def setOpCheck (i : Instr) (key : Nat) (d a b : BitVec 4) (fdOkay : DWord → Bool) (fd : DWord) : M Unit := do
  checkNamed i
  checkFd fd (fdOkay fd)
  checkSecond i
  if d = a || d = b then before 0x6B (word0 i)
  checkKey key

/-- A source value of a set operation. -/
def setVal (r : RCtx) (c : Nat) (p : Pair) : M Val := do
  cleanIn p.vp
  return fibreVal r.d c p.val

def isectVal (r : RCtx) (o : IsectOp) (x y : Pair) (e : Nat) : M (Word × Bool) := do
  let a ← setVal r (fdFA r.d) x
  let v ← match o with
    | .first => pure a
    | .mul => do pure (a.mul (← setVal r (fdFB r.d) y))
    | .add => do pure (a.add (fdRM r.d == 3) (← setVal r (fdFB r.d) y))
    | .min => do pure (fibrePick (fdFA r.d) false a (← setVal r (fdFB r.d) y))
    | .max => do pure (fibrePick (fdFA r.d) true a (← setVal r (fdFB r.d) y))
  return (fibreOut r e v, false)

/-- `.first` does not read FB (R233). -/
def isectFd (o : IsectOp) (fd : DWord) : Bool :=
  if o = .first then fibreFd { fa := some fibreV, dst := some fibreV } fd [fdFA fd, fdDst fd]
  else fibreFd { fa := some fibreV, fb := some fibreV, dst := some fibreV } fd [fdFA fd, fdFB fd, fdDst fd]

def fisectBody (i : Instr) (fm : Form) (d a b : BitVec 4) (f : BitVec 3) (o : IsectOp) : M Unit := do
  let fd := fdValue fm f (← getH)
  setOpCheck i (0x20 + o.code) d a b (isectFd o) fd
  let r ← rctx fd
  setOpBody (0x20 + o.code) fm d a b true false fun _ x y e => isectVal r o x y e

def execFisect (fm : Form) (d a b : BitVec 4) (f : BitVec 3) (o : IsectOp) (k : Bool) (s : State) : Out :=
  .next (run (.fisect fm d a b f o k) (fisectBody (.fisect fm d a b f o k) fm d a b f o) s)

def unionVal (r : RCtx) (o : UnionOp) (side : Side) (x y : Pair) (e : Nat) : M (Word × Bool) := do
  let down := fdRM r.d == 3
  let v ← match side with
    | .a => setVal r (fdFA r.d) x
    | .b => do
      let b ← setVal r (fdFB r.d) y
      pure (if o = .sub then b.neg else b)
    | .both => do
      let a ← setVal r (fdFA r.d) x
      match o with
      | .first => pure a
      | .add => do pure (a.add down (← setVal r (fdFB r.d) y))
      | .sub => do pure (a.add down (← setVal r (fdFB r.d) y).neg)
      | .min => do pure (fibrePick (fdFA r.d) false a (← setVal r (fdFB r.d) y))
      | .max => do pure (fibrePick (fdFA r.d) true a (← setVal r (fdFB r.d) y))
  return (fibreOut r e v, false)

def unionFd (fd : DWord) : Bool :=
  fibreFd { fa := some fibreV, fb := some fibreV, dst := some fibreV } fd [fdFA fd, fdFB fd, fdDst fd]

def funionBody (i : Instr) (fm : Form) (d a b : BitVec 4) (f : BitVec 3) (o : UnionOp) : M Unit := do
  let fd := fdValue fm f (← getH)
  setOpCheck i (0x28 + o.code) d a b unionFd fd
  let r ← rctx fd
  setOpBody (0x28 + o.code) fm d a b false false (unionVal r o)

def execFunion (fm : Form) (d a b : BitVec 4) (f : BitVec 3) (o : UnionOp) (k : Bool) (s : State) : Out :=
  .next (run (.funion fm d a b f o k) (funionBody (.funion fm d a b f o k) fm d a b f o) s)

/-- `fmerge`: the pair of a, then the pair of b, both raw (R247, R248). -/
def fmergeBody (i : Instr) (fm : Form) (d a b : BitVec 4) : M Unit := do
  setOpCheck i 0x30 d a b (fun _ => true) 0
  setOpBody 0x30 fm d a b false true fun side x y _ => pure (if side = .b then (y.val, y.vp) else (x.val, x.vp))

def execFmerge (fm : Form) (d a b : BitVec 4) (k : Bool) (s : State) : Out :=
  .next (run (.fmerge fm d a b k) (fmergeBody (.fmerge fm d a b k) fm d a b) s)

/-! ## Reordering and conversion: major 0x28 (R250 to R252) -/

/-- Inserts a pair after those whose coordinates are not larger. -/
def insertPair (x : Pair) : List Pair → List Pair
  | [] => [x]
  | y :: l => if x.crd.toNat < y.crd.toNat then x :: y :: l else y :: insertPair x l

/-- Pairs by coordinate, equal ones in their order. -/
def sortPairs (l : List Pair) : List Pair := l.foldl (fun acc x => insertPair x acc) []

/-- Runs of equal coordinates. -/
def runsOf : List Pair → List (List Pair)
  | [] => []
  | x :: l =>
    match runsOf l with
    | (y :: r) :: rs => if x.crd = y.crd then (x :: y :: r) :: rs else [x] :: (y :: r) :: rs
    | rs => [x] :: rs

/-- The value of a run (R250). -/
def runVal (r : RCtx) (o : SortOp) (l : List Pair) : M Val := do
  let fa := fdFA r.d
  match l with
  | [] => return .zero false
  | x :: rest => do
    let v ← setVal r fa x
    if o = .first then return v
    let vs ← rest.mapM (setVal r fa)
    return vs.foldl (fun a b => match o with
      | .min => fibrePick fa false a b
      | .max => fibrePick fa true a b
      | _ => a.add (fdRM r.d == 3) b) v

/-- The frame of a member that replaces fd from fs under a descriptor with FA and FDST in V. -/
def rebuildBody (i : Instr) (fm : Form) (d a : BitVec 4) (f : BitVec 3) (g : RCtx → List Pair → M (List Pair)) : M Unit := do
  checkNamed i
  let fd := fdValue fm f (← getH)
  checkFd fd (fibreFd { fa := some fibreV, dst := some fibreV } fd [fdFA fd, fdDst fd])
  atDispatch
  let r ← rctx fd
  let l ← g r ((← getH).getF a)
  modH fun h => h.putF d l

def sortInto (o : SortOp) (r : RCtx) (l : List Pair) : M (List Pair) := do
  cleanIn (l.any (·.cp))
  let rs := runsOf (sortPairs l)
  ((List.range rs.length).zip rs).mapM fun (e, run) => do
    let v ← runVal r o run
    return { crd := match run with | x :: _ => x.crd | [] => 0, val := fibreOut r e v }

def execFsort (fm : Form) (d a : BitVec 4) (f : BitVec 3) (o : SortOp) (k : Bool) (s : State) : Out :=
  .next (run (.fsort fm d a f o k) (rebuildBody (.fsort fm d a f o k) fm d a f (sortInto o)) s)

def compactInto (r : RCtx) (l : List Pair) : M (List Pair) := do
  cleanIn (l.any (·.vp))
  let keep := ((List.range l.length).zip l).filter fun x => !(valueOf (fdFA r.d) x.2.val.toNat).isZero
  cleanIn (keep.any (·.2.cp))
  return keep.map fun x => { crd := x.2.crd, val := fibreCvt r (fdFA r.d) x.1 x.2.val }

def execFcompact (fm : Form) (d a : BitVec 4) (f : BitVec 3) (k : Bool) (s : State) : Out :=
  .next (run (.fcompact fm d a f k) (rebuildBody (.fcompact fm d a f k) fm d a f compactInto) s)

/-- The frame of `fexpand.v` and `fexpand.d`: `g` gives the elements written (R232, R251). -/
def expandBody (i : Instr) (fm : Form) (d : BitVec 5) (a : BitVec 4) (f : BitVec 3)
    (g : RCtx → Nat → List Pair → M (List (Nat × Nat × Bool))) : M Unit := do
  checkNamed i
  let fd := fdValue fm f (← getH)
  checkFd fd (fibreFd { fa := some fibreV, dst := some denseV } fd [fdFA fd, fdDst fd])
  let w := fmtWidth (fdDst fd)
  checkGrant w
  noSlot d
  atDispatch
  let r ← rctx fd
  let h ← getH
  placeElts d w (← g r h.vl.toNat (h.getF a))

/-- A container as an element of FDST, of any width. -/
def expandElt (r : RCtx) (e : Nat) (p : Pair) : M Nat := do
  let v ← setVal r (fdFA r.d) p
  return if isInt (fdDst r.d) then storeInt (fdDst r.d) (fdSat r.d) v.toInt else r.roundNoSub (fdDst r.d) e v

def expandV (r : RCtx) (vl : Nat) (l : List Pair) : M (List (Nat × Nat × Bool)) :=
  (List.range vl).mapM fun k => do
    match l[k]? with
    | some p => return (k, ← expandElt r k p, false)
    | none => return (k, 0, false)

def expandD (base : DWord) (r : RCtx) (vl : Nat) (l : List Pair) : M (List (Nat × Nat × Bool)) := do
  cleanIn (l.any (·.cp))
  let hit := l.filter fun p => decide (base.toNat ≤ p.crd.toNat) && decide (p.crd.toNat < base.toNat + vl)
  hit.mapM fun p => do
    let e := p.crd.toNat - base.toNat
    return (e, ← expandElt r e p, false)

def execFexpandV (fm : Form) (d : BitVec 5) (a : BitVec 4) (f : BitVec 3) (k : Bool) (s : State) : Out :=
  .next (run (.fexpandV fm d a f k) (expandBody (.fexpandV fm d a f k) fm d a f expandV) s)
def execFexpandD (fm : Form) (d : BitVec 5) (a : BitVec 4) (f : BitVec 3) (k : Bool) (s : State) : Out :=
  .next (run (.fexpandD fm d a f k) (do
    let base := (← getH).getX (e5Of fm)
    expandBody (.fexpandD fm d a f k) fm d a f (expandD base)) s)

def fexpandCBody (i : Instr) (d : BitVec 5) (f : BitVec 4) : M Unit := do
  checkNamed i
  checkGrant 32
  noSlot d
  atDispatch
  let h ← getH
  let l := h.getF f
  let vl := h.vl.toNat
  cleanIn ((l.take vl).any (·.cp))
  placeElts d 32 ((List.range vl).map fun k =>
    (k, match l[k]? with | some p => p.crd.toNat | none => noCrd.toNat, false))

def execFexpandC (fm : Form) (d : BitVec 5) (f : BitVec 4) (k : Bool) (s : State) : Out :=
  .next (run (.fexpandC fm d f k) (fexpandCBody (.fexpandC fm d f k) d f) s)

/-- A coordinate that no fibre register holds (R227, R252). -/
def checkCrd (c : Nat) : M Unit := do if 0xFFFFFFFF ≤ c then squash 0x69 0

/-- A dense element of format `c` converted. -/
def packElt (r : RCtx) (c e p : Nat) : Word :=
  fibreOut r e (if isInt c then valueOf c p else (sourceVal r.d (fdDst r.d) c p).getD .nar)

def fpackBody (i : Instr) (fm : Form) (d : BitVec 4) (c b : BitVec 5) (f : BitVec 3) : M Unit := do
  checkNamed i
  let fd := fdValue fm f (← getH)
  checkFd fd (fibreFd { fa := some (· == 0x26), fb := some denseV, dst := some fibreV } fd [fdFB fd, fdDst fd])
  let w := fmtWidth (fdFB fd)
  checkGrant (max 32 w)
  let vl := (← getH).vl.toNat
  let l ← readSources vl [(c, 32), (b, w)] []
  atDispatch
  let crd := l.headD { }
  let src := l.getLastD { }
  let r ← rctx fd
  cleanIn ((List.range vl).any fun k => crd.eltPsn 32 k || src.eltPsn w k)
  let ps ← (List.range vl).mapM fun k => do
    checkCrd (crd.elt 32 k)
    return ({ crd := BitVec.ofNat 32 (crd.elt 32 k), val := packElt r (fdFB fd) k (src.elt w k) } : Pair)
  modH fun h => h.putF d ps

def execFpack (fm : Form) (d : BitVec 4) (c b : BitVec 5) (f : BitVec 3) (k : Bool) (s : State) : Out :=
  .next (run (.fpack fm d c b f k) (fpackBody (.fpack fm d c b f k) fm d c b f) s)

def fpackDBody (i : Instr) (fm : Form) (d : BitVec 4) (a : BitVec 5) (f : BitVec 3) : M Unit := do
  checkNamed i
  let fd := fdValue fm f (← getH)
  checkFd fd (fibreFd { fa := some denseV, dst := some fibreV } fd [fdFA fd, fdDst fd])
  let w := fmtWidth (fdFA fd)
  checkGrant (max 32 w)
  let h ← getH
  let vl := h.vl.toNat
  let src := (← readSources vl [(a, w)] []).headD { }
  atDispatch
  let r ← rctx fd
  let base := (h.getX (e5Of fm)).toNat
  cleanIn ((List.range vl).any fun e => src.eltPsn w e)
  let ps ← (List.range vl).filterMapM fun e => do
    if (valueOf (fdFA fd) (src.elt w e)).isZero then return none
    checkCrd (base + e)
    return some ({ crd := BitVec.ofNat 32 (base + e), val := packElt r (fdFA fd) e (src.elt w e) } : Pair)
  modH fun h => h.putF d ps

def execFpackD (fm : Form) (d : BitVec 4) (a : BitVec 5) (f : BitVec 3) (k : Bool) (s : State) : Out :=
  .next (run (.fpackD fm d a f k) (fpackDBody (.fpackD fm d a f k) fm d a f) s)

/-! ## Walking compressed levels: major 0x29 (R253, R254) -/

/-- A level record. -/
structure Level where
  ptr : DWord
  crd : DWord
  val : DWord
  fmt : Nat
  npar : Nat
  deriving DecidableEq, Repr

/-- Reads a level record at each issue (R253, R254). -/
def readLevel (isV : Bool) (a : DWord) (p : Nat × Nat) : B Level := do
  if a.toNat % 8 ≠ 0 then (squash 0x6D a : M Unit)
  interlock false [a] 32 false
  probeB p a 4
  let bs ← readB false p a 32
  if anyPsn bs then (squash 0x40 a : M Unit)
  let r := bs.map (·.1)
  let w := recWord r 24
  if bits w 38 26 != 0 || (isV && !fibreV (bits w 32 6)) then (squash 0x6D a : M Unit)
  return { ptr := BitVec.ofNat 64 (recWord r 0), crd := BitVec.ofNat 64 (recWord r 8), val := BitVec.ofNat 64 (recWord r 16),
           fmt := bits w 32 6, npar := bits w 0 32 }

/-- One datum of a level array, which must not be poisoned. -/
def levelWord (p : Nat × Nat) (va : DWord) : B Nat := do
  interlock false [va] 4 false
  let bs ← readB false p va 4
  if anyPsn bs then (squash 0x40 va : M Unit)
  return bytesVal bs

/-- The value of child j: its position, or its element of the value array (R254). An element narrower than a container stands in its low bits,
and zeros above it: the manual does not say what they are (log entry 90). -/
def childVal (isV : Bool) (lv : Level) (p : Nat × Nat) (j : Nat) : B (Word × Bool) := do
  if isV then
    let n := fmtWidth lv.fmt / 8
    let va := lv.val + BitVec.ofNat 64 (n * j)
    interlock false [va] n false
    let bs ← readB false p va n
    return (BitVec.ofNat 32 (bytesVal bs), anyPsn bs)
  else return (BitVec.ofNat 32 j, false)

/-- Positions lo and hi of the children of the parent of number `par`, at position i: both words are read once an issue (R254). -/
def childRange (lv : Level) (p : Nat × Nat) (par : Nat) : B (Nat × Nat) := do
  match (← get).cv.kids with
  | some (i, lo, hi) => if i = p.1 then return (lo, hi)
  | none => pure ()
  let lo ← levelWord p (lv.ptr + BitVec.ofNat 64 (4 * par))
  let hi ← levelWord p (lv.ptr + BitVec.ofNat 64 (4 * par + 4))
  modify fun s => { s with cv := { s.cv with kids := some (p.1, lo, hi) } }
  return (lo, hi)

/-- The next child (R254). -/
def nextChild (isV : Bool) (lv : Level) (src : List Pair) : Nat → Nat × Nat → B (Option Emit)
  | 0, _ => return none
  | fuel + 1, (i, o) => do
    match src[i]? with
    | none => return none
    | some x => do
      (cleanIn x.vp : M Unit)
      let par := x.val.toNat
      if lv.npar ≤ par then (squash 0x6A (BitVec.ofNat 64 par) : M Unit)
      let (lo, hi) ← childRange lv (i, o) par
      if hi < lo || 2 ^ 23 ≤ hi - lo then (squash 0x6A (BitVec.ofNat 64 par) : M Unit)
      let j := lo + o
      if j < hi then do
        let at_ := lv.crd + BitVec.ofNat 64 (4 * j)
        let c ← levelWord (i, o) at_
        if c = 0xFFFFFFFF then (squash 0x69 at_ : M Unit)
        return some { here := (i, o), crd := BitVec.ofNat 32 c, next := (i, o + 1), val := childVal isV lv (i, o) j }
      else nextChild isV lv src fuel (i + 1, 0)

def fwalkBody (i : Instr) (fm : Form) (d a : BitVec 4) (b : BitVec 6) (isV : Bool) : M Unit := do
  checkNamed i
  checkSecond i
  if d = a then before 0x6B (word0 i)
  checkKey (0x60 + isV.toNat)
  atDispatch
  let h ← getH
  let src := h.getF a
  continuable (0x60 + isV.toNat) d (e5Of fm) (readLevel isV (h.getX b + offsetOf fm))
    (fun lv => nextChild isV lv src (src.length + 1)) (pure ())

def execFwalk (fm : Form) (d a : BitVec 4) (b : BitVec 6) (v k : Bool) (s : State) : Out :=
  .next (run (.fwalk fm d a b v k) (fwalkBody (.fwalk fm d a b v k) fm d a b v) s)

end Sys2Proof.Machine
end

