-- ==== Sys2Proof/Machine/Matrix.lean ====
section
/-! DEFINITION. The matrix engine and the epilogue engine: majors 0x2A to 0x2C (R258 to R282). -/

namespace Sys2Proof.Machine

/-! ## Shapes (R258) -/

/-- D × P of a gang. -/
def Gang.dp (g : Gang) : Nat := 2 ^ g.desc.split.toNat * (if g.desc.prot then 2 else 1)

/-- Rb. -/
def Gang.rb (g : Gang) : Nat := 16384 / g.dp

/-- N for a format. -/
def Gang.cols (g : Gang) (c : Nat) : Nat := (if c = 9 then 64 else 128) / g.dp

/-- M for a kind. -/
def matRows (kind : Nat) : Nat := if isTb8 kind then 64 else 128

/-- Formats of the tile, of A and of the kinds of slots. -/
def matFmt (c : Nat) : Bool := c == 8 || c == 9 || isTb8 c

/-- K by a descriptor. -/
def depthOf (fd : DWord) : Nat := 128 / 2 ^ fdKdep fd

/-! ## Slots (R260) -/

def Mat.slot (m : Mat) (a : BitVec 3) : MSlot := m.slots.get a.toFin
def Mat.setSlot (m : Mat) (a : BitVec 3) (x : MSlot) : Mat := { m with slots := m.slots.set a.toNat x a.isLt }

/-- Row r of a slot with N columns. -/
def MSlot.row (x : MSlot) (n r : Nat) : MRow :=
  match x.rows.find? (·.1 == r) with | some p => p.2 | none => { elts := List.replicate n { } }

def MSlot.setRow (x : MSlot) (r : Nat) (y : MRow) : MSlot :=
  { x with rows := (x.rows.filter fun p => p.1 < r) ++ (r, y) :: x.rows.filter fun p => r < p.1 }

/-- A slot becomes FREE: everything but its kind and anchor is zero (R260, R273). -/
def MSlot.freed (x : MSlot) : MSlot := { x with st := .free, rows := [] }

/-- An `mma` or `epi.go.ld` opens a FREE slot (R260). -/
def MSlot.openIt (x : MSlot) : MSlot := if x.st = .free then { x with st := .opened } else x

/-! ## Accumulators (R83, R84) -/

/-- Weight, as a power of two, of the least significant bit of an element. -/
def MSlot.unit (x : MSlot) : Int := if x.kind = 8 then -24 else if x.kind = 9 then -56 else x.anchor - 96

/-- Width of an element less one. -/
def MSlot.top (x : MSlot) : Nat := if x.kind = 8 then 63 else 127

/-- An integer rounded to a multiple of 2^s, nearest even. -/
def rneInt (z : Int) (s : Nat) : Int :=
  let q : Int := roundShift .rne (z < 0) z.natAbs s
  if z < 0 then -q else q

/-- Adds terms t × 2^e exactly, then rounds once to the element's unit; the flags are sticky, and the answer tells whether INX
is set (R83, R84, R267). Overflow is tested on the rounded total (log entry 76). -/
def Accum.add (a : Accum) (unit : Int) (top : Nat) (ts : List (Int × Int)) : Accum × Bool :=
  if a.nar || a.ovf.isSome then (a, false)
  else
    let e0 := ts.foldl (fun e t => min e t.2) unit
    let z := ts.foldl (fun z t => z + t.1 * 2 ^ (t.2 - e0).toNat) (a.v * 2 ^ (unit - e0).toNat)
    let s := (unit - e0).toNat
    let q := rneInt z s
    if q < -(2 ^ top) || (2 ^ top : Int) ≤ q then ({ a with ovf := some (q < 0) }, true)
    else ({ a with v := q }, q * 2 ^ s != z)

/-- The exact value of a tapered pattern in units of 2^e; `none` is not-a-real. -/
def tapInt (c : Nat) (e : Int) (p : Nat) : Option Int :=
  match valueOf c p with
  | .num n m x => some (scaled n m x e)
  | .zero _ => some 0
  | _ => none

/-! ## Acceptance (R262, R263) -/

/-- The gang holds the matrix engine, or the instruction is illegal (R16, R262). -/
def holdM (i : Instr) : M Gang := do
  let g ← gangM
  if !g.desc.mat then before 1 (word0 i)
  return g

/-- Changes the engine that the gang holds. -/
def modMat (f : Mat → Mat) : M Unit := modify fun s => s.mapGang s.h.gang fun g => { g with mat := f g.mat }

/-- A command that acts on slot H waits while it is SEALED or DRAINING. -/
def waitHead (m : Mat) : M Unit := do
  match (m.slot m.head).st with
  | .sealed | .draining => throw (.stall 0xD)
  | _ => pure ()

/-! ## The tile (R259, R265) -/

/-- The low `rb` bits of registers, one after another. -/
def joinBits (rb : Nat) : List VReg → Nat
  | [] => 0
  | r :: l => r.bits.toNat % 2 ^ rb + 2 ^ rb * joinBits rb l

def joinPsn (rb : Nat) : List VReg → Nat
  | [] => 0
  | r :: l => r.psn.toNat % 2 ^ (rb / 8) + 2 ^ (rb / 8) * joinPsn rb l

def mldbBody (i : Instr) (fm : Form) (g : BitVec 2) (vs : BitVec 5) (f : BitVec 3) : M Unit := do
  let gg ← holdM i
  let h ← getH
  let fd := fdValue fm f h
  checkFd fd (fdOk { fb := some matFmt, kdep := true, noBlock := true } fd)
  let c := fdFB fd
  checkUnused i (!isTb8 c && vs != 0)
  let k := depthOf fd
  let n := gg.cols c
  let w := fmtWidth c
  let regs := (List.range ((k * n * w + gg.rb - 1) / gg.rb)).map fun j => BitVec.ofNat 5 (8 * g.toNat + j)
  checkLives (regs.map vBit ++ if isTb8 c then [vBit vs] else [])
  ((List.range 8).map fun j => BitVec.ofNat 5 (8 * g.toNat + j)).forM noSlot
  if isTb8 c then noSlot vs
  let ns := if isTb8 c then n * (k / 32) else 0
  modMat fun m => { m with
    tile := BitVec.ofNat 131072 (joinBits gg.rb (regs.map h.getV) % 2 ^ (k * n * w))
    tilePsn := BitVec.ofNat 16384 (joinPsn gg.rb (regs.map h.getV) % 2 ^ (k * n * w / 8))
    scale := BitVec.ofNat 4096 ((h.getV vs).bits.toNat % 2 ^ (8 * ns))
    scalePsn := BitVec.ofNat 512 ((h.getV vs).psn.toNat % 2 ^ ns)
    fmt := c
    k := k }

def execMldb (fm : Form) (g : BitVec 2) (y : BitVec 5) (f : BitVec 3) (s : State) : Out :=
  .next (run (.mldb fm g y f) (mldbBody (.mldb fm g y f) fm g y f) s)

/-! ## Multiply and accumulate (R264, R266 to R268) -/

/-- The three forms of an `mma`. -/
inductive MmaForm where
  | plain
  | s24 (m : BitVec 3)
  | indexed (i : BitVec 5)
  deriving DecidableEq, Repr

/-- A term: the A pattern, the index k, and whether an element that it reads is poisoned. -/
structure Term where
  a : Nat
  k : Nat
  p : Bool
  deriving DecidableEq, Repr

/-- The terms of a row, with SEL′ (R267). -/
def mmaTerms (h : Hart) (rb kd w sel : Nat) (a : BitVec 5) : MmaForm → Nat × List Term
  | .plain =>
    let s := sel % (rb / (kd * w))
    (s, (List.range kd).map fun j =>
      { a := (h.getV a).elt w (s * kd + j), k := j, p := (h.getV a).eltPsn w (s * kd + j) })
  | .s24 m =>
    let s := sel % (rb / (kd / 2 * w))
    let b0 := s * kd % h.grant 8
    (s, (List.range (kd / 2)).map fun j =>
      let e := s * (kd / 2) + j
      { a := (h.getV a).elt w e, k := 4 * (j / 2) + bits (h.getM m).toNat (b0 + 2 * j) 2, p := (h.getV a).eltPsn w e })
  | .indexed v =>
    let s := sel % (rb / (kd * w))
    (s, (List.range kd).map fun j =>
      let e := s * kd + j
      { a := (h.getV a).elt w e, k := (h.getV v).elt 8 e, p := (h.getV a).eltPsn w e || (h.getV v).eltPsn 8 e })

/-- Pattern of tile element (k, n). -/
def Mat.elt (m : Mat) (w cols k n : Nat) : Nat := bits m.tile.toNat ((k * cols + n) * w) w

def Mat.eltPsn (m : Mat) (w cols k n : Nat) : Bool := (eltBytes w (k * cols + n)).any fun b => m.tilePsn.getLsbD b

/-- Byte of the scale of block j of column n. -/
def Mat.scaleAt (m : Mat) (cols j n : Nat) : Nat := bits m.scale.toNat (8 * (j * cols + n)) 8

/-- What a term list adds to column n: `none` when something is not-a-real, and then nothing is added (log entry 93), else integers and their
powers of two. -/
def columnSum (m : Mat) (c cols n : Nat) (sa : Nat → Nat) (ts : List Term) : Option (List (Int × Int)) :=
  let u : Int := if c = 9 then -28 else -12
  let w := fmtWidth c
  ts.mapM fun t => do
    let x ← tapInt c u t.a
    let y ← tapInt c u (m.elt w cols t.k n)
    if isTb8 c then
      let a := sa t.k
      let b := m.scaleAt cols (t.k / 32) n
      if a = 255 || b = 255 then none else some (x * y, 2 * u + a + b - 254)
    else some (x * y, 2 * u)

/-- The row of a slot after an `mma` (R267). To an element with a not-a-real term nothing is added, and it sets neither its overflow flag nor
INX (log entry 93). -/
def mmaRow (m : Mat) (x : MSlot) (mis : Bool) (c cols : Nat) (sa : Nat → Nat) (ts : List Term) (row : MRow) : MRow :=
  if mis then { row with elts := row.elts.map fun a => { a with nar := true }, mmas := min (row.mmas + 1) 0xFFFF }
  else
    let l := ((List.range row.elts.length).zip row.elts).map fun (n, a) =>
      match columnSum m c cols n sa ts with
      | none => ({ a with nar := true }, false)
      | some s => a.add x.unit x.top s
    { row with elts := l.map (·.1), inx := row.inx || l.any (·.2), mmas := min (row.mmas + 1) 0xFFFF }

def mmaBody (i : Instr) (fm : Form) (r a : BitVec 5) (f : BitVec 3) (k : MmaForm) : M Unit := do
  let g ← holdM i
  waitHead g.mat
  let h ← getH
  let fd := fdValue fm f h
  let c := fdFA fd
  let tb := isTb8 c
  let isX := match k with | .indexed _ => true | _ => false
  let extended := match fm with | .ext _ | .extLit _ _ => true | _ => false
  let ok := fdOk { fa := some matFmt, fb := some matFmt, dst := some matFmt, kdep := true, noBlock := true } fd &&
    fdFB fd == c && fdDst fd == c && (!tb || (extended && !isX))
  let vz : BitVec 5 := (e5Of fm).setWidth 5
  checkNamed i (if ok && tb then [vBit vz] else [])
  checkFd fd ok
  checkUnused i (!tb && e5Of fm != 0)
  if tb then checkLives [vBit vz]
  noSlot a
  match k with
  | .indexed v => noSlot v
  | _ => pure ()
  if tb then noSlot vz
  let kd := depthOf fd
  let w := fmtWidth c
  let cols := g.cols c
  let word := (h.getX (r.setWidth 6)).toNat
  let (sel, ts) := mmaTerms h g.rb kd w (bits word 0 8) a k
  let used := ts.filter (·.k < kd)
  let tagged := g.mat.fmt = c && g.mat.k = kd
  let zByte := fun t => (sel * kd + t) / 32
  let ks := (used.map (·.k)).dedup
  let bad42 := tb && (used.any (fun t => (h.getV vz).eltPsn 8 (zByte t.k)) ||
    (tagged && ks.any fun t => (List.range cols).any fun n => g.mat.scalePsn.getLsbD (t / 32 * cols + n)))
  let bad40 := ts.any (·.p) || (tagged && ks.any fun t => (List.range cols).any fun n => g.mat.eltPsn w cols t n)
  if bad42 then squash 0x42 0
  if bad40 then squash 0x40 0
  let x := (g.mat.slot g.mat.head).openIt
  let row := bits word 16 7 % matRows x.kind
  let y := mmaRow g.mat x (x.kind != c || !tagged) c cols (fun t => (h.getV vz).elt 8 (zByte t)) used (x.row (g.cols x.kind) row)
  modMat fun m => m.setSlot m.head (x.setRow row y)
  modify fun s => s.count s.h.id.core s.h.id.part 4 1

def execMma (fm : Form) (r a : BitVec 5) (f : BitVec 3) (s : State) : Out :=
  .next (run (.mma fm r a f) (mmaBody (.mma fm r a f) fm r a f .plain) s)
def execMmaS24 (fm : Form) (r a : BitVec 5) (m f : BitVec 3) (s : State) : Out :=
  .next (run (.mmaS24 fm r a m f) (mmaBody (.mmaS24 fm r a m f) fm r a f (.s24 m)) s)
def execMmaX (fm : Form) (r a i : BitVec 5) (f : BitVec 3) (s : State) : Out :=
  .next (run (.mmaX fm r a i f) (mmaBody (.mmaX fm r a i f) fm r a f (.indexed i)) s)

/-! ## Sealing and reading (R269 to R272) -/

def execMseal (fm : Form) (d : BitVec 6) (s : State) : Out :=
  .next (run (.mseal fm d) (do
    let g ← holdM (.mseal fm d)
    waitHead g.mat
    let m := g.mat
    modMat fun m => { m.setSlot m.head { m.slot m.head with st := .sealed } with head := m.head + 1 }
    modH fun h => h.setX d (m.head.setWidth 64)) s)

/-- Formats of `mpeek`. -/
def peekFmt (c : Nat) : Bool := isFloating c

/-- The read-out of an element: its value, and whether it is an overflow (R276). -/
def Accum.read (a : Accum) (unit : Int) : Val × Bool :=
  if a.nar then (.nar, false)
  else match a.ovf with
    | some n => (.inf n, true)
    | none => (if a.v = 0 then .zero false else .num (a.v < 0) a.v.natAbs unit, false)

/-- An infinity that came from an overflow flag as a value that rounds to the largest magnitude of the format: ±∞ for IEEE unless
SAT = 1 (R270, R276). -/
def overflowVal (fd : DWord) (v : Val) : Val :=
  match v with
  | .inf n => if isIeee (fdDst fd) && !fdSat fd then v else .num n 1 5000
  | v => v

def mpeekBody (i : Instr) (fm : Form) (d : BitVec 5) (a : BitVec 3) (r : BitVec 6) : M Unit := do
  let g ← holdM i
  checkNamed i
  let h ← getH
  let fd := fdxValue fm h
  checkFd fd (fdOk { dst := some peekFmt, rounds := true } fd && !fdSub fd)
  noSlot d
  let x := g.mat.slot a
  let row := x.row (g.cols x.kind) (bits (h.getX r).toNat 16 7 % matRows x.kind)
  let rc ← rctx fd
  placeElts d (fmtWidth (fdDst fd)) (((List.range row.elts.length).zip row.elts).map fun (n, e) =>
    let (v, o) := e.read x.unit
    (n, rc.roundNoSub (fdDst fd) n (if o then overflowVal fd v else v), row.psn))

def execMpeek (fm : Form) (d : BitVec 5) (a : BitVec 3) (r : BitVec 6) (s : State) : Out :=
  .next (run (.mpeek fm d a r) (mpeekBody (.mpeek fm d a r) fm d a r) s)

def SlotSt.code : SlotSt → Nat
  | .free => 0 | .opened => 1 | .sealed => 2 | .draining => 3

/-- The status word of a slot and row (R271). -/
def statWord (m : Mat) (a : BitVec 3) (cols r : Nat) : DWord :=
  let x := m.slot a
  let row := x.row cols r
  BitVec.ofNat 64 (x.st.code * 2 ^ 61 + m.head.toNat * 2 ^ 58 + m.tail.toNat * 2 ^ 55 +
    (if x.kind = 8 then 0 else if x.kind = 9 then 1 else 2) * 2 ^ 53 + row.inx.toNat * 2 ^ 52 +
    (row.elts.any (·.nar)).toNat * 2 ^ 51 + (row.elts.any (·.ovf.isSome)).toNat * 2 ^ 50 + row.psn.toNat * 2 ^ 49 +
    (x.rows.any (·.2.inx)).toNat * 2 ^ 48 + patOf 16 x.anchor * 2 ^ 16 + row.mmas)

def execMstat (fm : Form) (d : BitVec 6) (a : BitVec 3) (r : BitVec 6) (s : State) : Out :=
  .next (run (.mstat fm d a r) (do
    let g ← holdM (.mstat fm d a r)
    let kind := (g.mat.slot a).kind
    modH fun h => h.setX d (statWord g.mat a (g.cols kind) (bits (h.getX r).toNat 16 7 % matRows kind))) s)

/-! ## Epilogue commands (R273 to R278) -/

def execEpiCfg (fm : Form) (a : BitVec 3) (f y : BitVec 6) (s : State) : Out :=
  .next (run (.epiCfg fm a f y) (do
    let g ← holdM (.epiCfg fm a f y)
    if (g.mat.slot a).st ≠ .free then throw (.stall 0xD)
    let h ← getH
    let fd := h.getX f
    checkFd fd (fdOk { fa := some matFmt, noBlock := true } fd)
    modMat fun m => m.setSlot a { m.slot a with kind := fdFA fd, anchor := ((h.getX y).setWidth 16).toInt }) s)

/-- Fields of an epilogue record (R274). -/
structure EpiRec where
  obase : DWord
  rstr : DWord
  cstr : DWord
  scbase : DWord
  scstr : DWord
  bbase : DWord
  ofd : DWord
  w : Nat
  deriving DecidableEq, Repr

def epiRec (r : List Byte) : EpiRec :=
  let w := fun k => BitVec.ofNat 64 (recWord r (8 * k))
  { obase := w 0, rstr := w 1, cstr := w 2, scbase := w 3, scstr := w 4, bbase := w 5, ofd := w 6, w := recWord r 56 }

def EpiRec.bfmt (r : EpiRec) : Nat := bits r.w 36 6
def EpiRec.ben (r : EpiRec) : Bool := flag r.w 35
def EpiRec.act (r : EpiRec) : Nat := bits r.w 32 3
def EpiRec.row0 (r : EpiRec) : Nat := bits r.w 24 7
def EpiRec.nrow (r : EpiRec) : Nat := bits r.w 16 8
def EpiRec.ncol (r : EpiRec) : Nat := bits r.w 8 8

/-- Formats of a bias and of an incoming accumulator. -/
def biasFmt (c : Nat) : Bool := isTap c || c == 0 || c == 1

/-- A record is well formed for a gang whose tap8 N is `n` (R278). -/
def EpiRec.ok (r : EpiRec) (ld : Bool) (n : Nat) : Bool :=
  bits r.w 42 22 == 0 && !flag r.w 31 && bits r.w 0 8 == 0 && decide (r.act < 4) && decide (1 ≤ r.nrow) && decide (r.nrow ≤ 128) &&
  decide (1 ≤ r.ncol) && decide (r.ncol ≤ n) &&
  (if r.ben then biasFmt r.bfmt else r.bbase == 0 && r.bfmt == 0) &&
  (if ld then fdOk { fa := some isTap } r.ofd && r.act == 0 && !r.ben && r.scbase == 0 && r.scstr == 0
   else fdOk { dst := some fun c => isFloating c || isTb8 c, rounds := true } r.ofd && !fdSub r.ofd &&
     (isTb8 (fdDst r.ofd) || (r.scbase == 0 && r.scstr == 0)))

/-- Address of element (i, n), and of its scale byte. -/
def EpiRec.addr (r : EpiRec) (i n : Nat) : DWord := r.obase + BitVec.ofNat 64 i * r.rstr + BitVec.ofNat 64 n * r.cstr
def EpiRec.scaleAddr (r : EpiRec) (i b : Nat) : DWord := r.scbase + BitVec.ofNat 64 i * r.scstr + BitVec.ofNat 64 b

/-- The elements of a record with their addresses. -/
def EpiRec.cells (r : EpiRec) : List (Nat × Nat × DWord) :=
  (List.range r.nrow).flatMap fun i => (List.range r.ncol).map fun n => (i, n, r.addr i n)

/-- Addresses of the scale bytes of a tb8 output. -/
def EpiRec.scales (r : EpiRec) : List DWord :=
  (List.range r.nrow).flatMap fun i => (List.range ((r.ncol + 31) / 32)).map (r.scaleAddr i)

/-- The permission check alone, without an access: 0 when it passes (R135 items 1 to 3). -/
def State.probe (s : State) (w : Who) (va : Nat) (k : Acc) : Nat × State :=
  if 2 ^ 57 ≤ va then (0x20, s)
  else
    match s.lookup w va with
    | (.error (.cause c), s) => (c, s)
    | (.error .wait, s) => (0x13, s)
    | (.ok e, s) =>
      let p := e.leaf.toNat
      let owns := match s.spaceOf w.asn with | some sp => sp.keys.contains (leafKey p) | none => false
      (permCause p w.prv owns k, s)

/-- The lowest failing address among accesses of `n` bytes, with its cause (R275). -/
def State.probeAll (s : State) (w : Who) (k : Acc) (n : Nat) : List DWord → Option (Nat × Nat) → Option (Nat × Nat) × State
  | [], best => (best, s)
  | a :: l, best =>
    let ends := if n = 1 then [a.toNat] else [a.toNat, (a.toNat + n - 1) % 2 ^ 64 / 65536 * 65536]
    let (best, s) := ends.foldl (fun (x : Option (Nat × Nat) × State) v =>
      if v = a.toNat || v / 65536 != a.toNat / 65536 then
        match x.2.probe w v k with
        | (0, t) => (x.1, t)
        | (c, t) => (match x.1 with | some (b, c') => some (if v < b then (v, c) else (b, c')) | none => some (v, c), t)
      else x) (best, s)
    s.probeAll w k n l best

def probeM (k : Acc) (n : Nat) (as : List DWord) (best : Option (Nat × Nat)) : M (Option (Nat × Nat)) := do
  let w ← whoM
  let (r, s) := (← get).probeAll w k n as best
  set s
  return r

def failProbe : Option (Nat × Nat) → M Unit
  | some (va, c) => denied .before 0 (BitVec.ofNat 64 va) (.cause c)
  | none => pure ()

/-- Reads and checks the record of an epilogue command (R275, R278). -/
def epiRecord (ld : Bool) (g : Gang) (xb : DWord) : M (List Byte) := do
  if 8 ≤ g.mat.queue.length then throw (.stall 0xD)
  if xb.toNat % 64 ≠ 0 then before 0x63 xb
  let r ← readRecord false xb 64
  if !(epiRec r).ok ld (g.cols 8) then before 0x63 xb
  return r

/-- The range of accesses of `n` bytes and of single bytes. -/
def State.epiRange (s : State) (n : Nat) (as bs : List DWord) : Nat × Nat :=
  let rs := s.rangesOf (as.map fun a => (.glob, a.toNat)) n ++ s.rangesOf (bs.map fun a => (.glob, a.toNat)) 1
  (rs.foldl (fun x r => min x r.2.1) (rs.headD (.glob, 0, 0)).2.1, rs.foldl (fun x r => max x r.2.2) 0)

def epiGoBody (i : Instr) (b : BitVec 6) : M Unit := do
  let g ← holdM i
  let xb := (← getH).getX b
  let raw ← epiRecord false g xb
  let r := epiRec raw
  let n := r.ncol
  let bias ← if r.ben then do
      let l ← readRecord false r.bbase (n * (fmtWidth r.bfmt / 8))
      pure ((List.range n).map fun k => leNat ((l.drop (k * (fmtWidth r.bfmt / 8))).take (fmtWidth r.bfmt / 8)))
    else pure []
  let es := r.cells.map (·.2.2)
  let ss := if isTb8 (fdDst r.ofd) then r.scales else []
  let nb := fmtWidth (fdDst r.ofd) / 8
  failProbe (← probeM .write 1 ss (← probeM .write nb es none))
  let (lo, hi) := (← get).epiRange nb es ss
  waitLocks [((.glob, lo, hi), true)]
  settleVector
  let k := g.mat.accepted
  takeLocks [{ own := .epilogue k, space := .glob, lo := lo, hi := hi, write := true }]
  let h ← getH
  modMat fun m => { m with
    accepted := k + 1
    queue := m.queue ++ [{ n := k, gh := h.gh, asn := h.asn, prv := h.status.prv, seed := h.sseed, base := h.sbase,
                           record := raw, bias := bias }] }

def execEpiGo (fm : Form) (b : BitVec 6) (s : State) : Out :=
  .next (run (.epiGo fm b) (epiGoBody (.epiGo fm b) b) s)

/-- Adds a source element to an element of slot H (R277). -/
def loadAcc (x : MSlot) (c p : Nat) (a : Accum) : Accum × Bool :=
  if !(isTb8 x.kind || c == 8 || c == x.kind) then ({ a with nar := true }, false)
  else match valueOf c p with
    | .num n m e => a.add x.unit x.top [(scaled n m e e, e)]
    | .zero _ => (a, false)
    | _ => ({ a with nar := true }, false)

/-- Reads a source element in the vector class; what an integrity failure hides reads as poison (log entry 26). -/
def loadSource (va : DWord) (n : Nat) : M (List (Byte × Bool)) := do
  match ← targetOf false va n .read with
  | .ok (.glob ps) => do
    let l ← ps.mapM fun (pa, key, len) => do
      let w ← whoM
      let ws := (← getH).pendingOf .vector
      let (r, s) := (← get).loadSector w ws pa len key va.toNat
      set s
      return r.getD (List.replicate len (0, true))
    return l.flatten
  | .ok _ => return []
  | .error d => denied .before 0 va d

def epiGoLdBody (i : Instr) (b : BitVec 6) : M Unit := do
  let g ← holdM i
  waitHead g.mat
  let xb := (← getH).getX b
  let r := epiRec (← epiRecord true g xb)
  let c := fdFA r.ofd
  let nb := fmtWidth c / 8
  let cells := r.cells
  failProbe (← probeM .read nb (cells.map (·.2.2)) none)
  let (lo, hi) := (← get).epiRange nb (cells.map (·.2.2)) []
  waitLocks [((.glob, lo, hi), false)]
  if 16 ≤ (← getH).entriesHeld then throw (.stall 4)
  settleVector
  let x := (g.mat.slot g.mat.head).openIt
  let cols := g.cols x.kind
  let x ← (cells.filter fun e => e.2.1 < cols).foldlM (fun (x : MSlot) (e : Nat × Nat × DWord) => do
    let bs ← loadSource e.2.2 nb
    let row := (r.row0 + e.1) % matRows x.kind
    let y := x.row cols row
    let (a, inx) := loadAcc x c (bytesVal bs) (y.elts.getD e.2.1 { })
    return x.setRow row { y with elts := y.elts.set e.2.1 a, inx := y.inx || inx, psn := y.psn || anyPsn bs }) x
  modMat fun m => m.setSlot m.head x

def execEpiGoLd (fm : Form) (b : BitVec 6) (s : State) : Out :=
  .next (run (.epiGoLd fm b) (epiGoLdBody (.epiGoLd fm b) b) s)

/-! ## The drain (R275, R276, R280) -/

/-- Activations on exact values. -/
def activate (act : Nat) (v : Val) : Val :=
  match act, v with
  | 1, .inf true | 1, .zero _ | 3, .inf true | 3, .zero _ => .zero false
  | 3, .inf false => .num false 6 0
  | 1, .num true _ _ | 3, .num true _ _ => .zero false
  | 3, .num false m e => if (Val.num false m e).cmp (.num false 6 0) == .gt then .num false 6 0 else .num false m e
  | 2, .num true m e => .num true m (e - 3)
  | _, v => v

/-- The exact value of output element (i, n). -/
def drainVal (r : EpiRec) (bias : List Nat) (x : MSlot) (row : MRow) (n : Nat) : Val :=
  let (v, o) := ((row.elts.getD n { }).read x.unit)
  let y := if r.ben then v.add (fdRM r.ofd == 3) ((sourceVal r.ofd (fdDst r.ofd) r.bfmt (bias.getD n 0)).getD .nar) else v
  let y := activate r.act y
  if o then overflowVal r.ofd y else y

/-- The writes of one row: address, bytes and poison. -/
def drainRow (c : EpiCmd) (x : MSlot) (cols i : Nat) : List (DWord × List Byte × Bool) :=
  let r := epiRec c.record
  let rc : RCtx := { d := r.ofd, seed := c.seed, base := c.base }
  let row := x.row cols ((r.row0 + i) % matRows x.kind)
  let nc := min r.ncol cols
  let key := fun n => i * r.ncol + n
  let y := drainVal r c.bias x row
  if isTb8 (fdDst r.ofd) then
    (List.range ((nc + 31) / 32)).flatMap fun b =>
      let ns := (List.range (min 32 (nc - 32 * b))).map (· + 32 * b)
      let sc := tb8Scale r.ofd (ns.map y)
      (ns.map fun n => (r.addr i n, [BitVec.ofNat 8 (tb8Code rc sc (key n) (y n))], row.psn)) ++
        [(r.scaleAddr i b, [BitVec.ofNat 8 sc], row.psn)]
  else (List.range nc).map fun n =>
    (r.addr i n, leBytes (fmtWidth (fdDst r.ofd) / 8) (rc.roundNoSub (fdDst r.ofd) (key n) (y n)), row.psn)

/-- A piece of a write of the drain: its length, and where it goes while its page translates. -/
abbrev DrainPiece := Nat × Option (Nat × Nat)

/-- Translates a write of the drain: `none` when it must wait for a copy of its block, which none does that comes about `now`. -/
def State.drainTarget (s : State) (w : Who) (now : Bool) : List (Nat × Nat) → Option (List DrainPiece) × State
  | [] => (some [], s)
  | (a, len) :: l =>
    match (if now then s.translateNow w (a % 2 ^ 64) else s.translateHw w (a % 2 ^ 64)) with
    | (.error .wait, s) => (none, s)
    | (.error (.cause _), s) => let (r, s) := s.drainTarget w now l; (r.map ((len, none) :: ·), s)
    | (.ok x, s) => let (r, s) := s.drainTarget w now l; (r.map ((len, some x) :: ·), s)

/-- Every target of a list of writes, before any is made. -/
def State.drainTargets (s : State) (w : Who) (now : Bool) : List (DWord × List Byte × Bool) → Option (List (List DrainPiece)) × State
  | [] => (some [], s)
  | (va, bs, _) :: l =>
    match s.drainTarget w now (piecesOf va.toNat bs.length) with
    | (none, s) => (none, s)
    | (some t, s) => let (r, s) := s.drainTargets w now l; (r.map (t :: ·), s)

/-- Makes the pieces of one write; a page that no longer translates has them discarded (R280). -/
def State.drainWrite (s : State) (w : Who) (va : DWord) (p : Bool) : List Byte → List DrainPiece → Bool × State
  | _, [] => (false, s)
  | bs, (len, x) :: l =>
    let s := match x with
      | none => s
      | some (pa, key) =>
        s.apply w { cls := .vector, strip := 0, space := .glob, addr := pa, key := key, va := va, bytes := bs.take len, psn := p }
    let (b, s) := s.drainWrite w (va + BitVec.ofNat 64 len) p (bs.drop len) l
    (x.isNone || b, s)

/-- The gang on a core that holds its matrix engine. -/
def State.matGang (s : State) (core : Nat) : Option Gang := s.gangs.find? fun g => g.core == core && g.desc.mat

/-- The epilogue engine drains slot T under the oldest command once the slot is sealed (R275), and the hart's writes of earlier strip
intervals have performed (R143). The record of discarded elements (R280), to which no rule gives a
location, has LOC 8 (DESIGN CHOICE, log entry 96). -/
def State.epilogueDrain (s : State) (core : Nat) (now : Bool := false) : State :=
  match s.matGang core with
  | none => s
  | some g =>
    match g.mat.queue with
    | [] => s
    | c :: _ =>
      let x := g.mat.slot g.mat.tail
      let hart := s.allHarts.find? fun h => h.gang == g.key && h.gh == c.gh
      if x.st ≠ .sealed || (!now && hart.any fun h => !h.engineMay (.epilogue c.n)) then s
      else
        let w : Who := { hart := hart.map (·.id), core := core, asn := c.asn, prv := c.prv, task := g.node }
        let ws := (List.range (epiRec c.record).nrow).flatMap (drainRow c x (g.cols x.kind))
        match s.drainTargets w now ws with
        | (none, s) => s
        | (some ts, s) =>
          let (lost, s) := (ws.zip ts).foldl (fun (a : Option DWord × State) e =>
            let (b, t) := a.2.drainWrite w e.1.1 e.1.2.2 e.1.2.1 e.2
            (if a.1.isNone && b then some e.1.1 else a.1, t)) (none, s)
          let s := match lost with | some va => s.logAt w 8 0 8 0 va.toNat 0 0 | none => s
          s.mapGang g.key fun g => { g with mat := g.mat.setSlot g.mat.tail { g.mat.slot g.mat.tail with st := .draining } }

def execEpilogueDrain (core : Nat) (s : State) : Out := .next (s.epilogueDrain core)

/-- The writes of the drain are complete: the slot is FREE, the tail moves on, and the command's entry is released (R260). -/
def State.slotFree (s : State) (core : Nat) : State :=
  match s.matGang core with
  | none => s
  | some g =>
    match g.mat.queue with
    | [] => s
    | c :: l =>
      if (g.mat.slot g.mat.tail).st ≠ .draining then s
      else
        let m := { g.mat.setSlot g.mat.tail (g.mat.slot g.mat.tail).freed with tail := g.mat.tail + 1, queue := l }
        (s.mapGang g.key fun g => { g with mat := m }).mapHarts (fun h => h.live && h.gang == g.key && h.gh == c.gh)
          fun h => h.release (.epilogue c.n)


end Sys2Proof.Machine
end

