-- ==== Sys2Proof/Machine/Copies.lean ====
section
/-! DEFINITION. The copy engines: major 0x2D and the engines' own steps (R283 to R299). -/

namespace Sys2Proof.Machine

/-! ## The shape record (R284, R285, R287) -/

/-- A dimension: extent, source stride, destination stride. -/
structure ShapeDim where
  size : Nat
  sstr : DWord
  dstr : DWord
  deriving DecidableEq, Repr

structure Shape where
  sbase : DWord
  dbase : DWord
  esz : Nat
  dspc : Nat
  sspc : Nat
  conv : Bool
  perm : List Nat
  fd : DWord
  sscb : DWord
  dscb : DWord
  dims : List ShapeDim
  deriving DecidableEq, Repr

/-- Fields that the hints, the spaces and the conversion leave without a meaning are zero, and codes are listed. -/
def shapeHead (w : Nat) : Bool :=
  bits w 40 24 == 0 && !flag w 24 && bits w 38 2 != 3 && bits w 36 2 != 3 && bits w 34 2 != 3 && bits w 32 2 != 3 &&
    bits w 28 2 != 3 && bits w 26 2 != 3 && (!flag w 25 || bits w 30 2 == 0)

/-- The conditions of R287 on the descriptor and the scale addresses. -/
def shapeFd (conv : Bool) (fd : DWord) (sscb dscb : Nat) : Bool :=
  if conv then
    fdOk { fa := some (· != 0x12), dst := some fun c => !isMx c, rounds := true } fd && !fdSub fd && fdFB fd == 0 && fdKdep fd == 0 &&
      (isTb8 (fdDst fd) || (fdScm fd == 0 && fdScb fd == 0 && dscb == 0)) && (isBlock (fdFA fd) || sscb == 0)
  else fd == 0 && sscb == 0 && dscb == 0

/-- A shape record; `none` when it is malformed. -/
def parseShape (r : List Byte) : Option Shape :=
  let w := recWord r 16
  let nd := bits w 21 3
  let perm := (List.range nd).map fun d => bits w (3 * d) 3
  let size := fun d => recWord r (48 + 24 * d)
  let sstr := fun d => recWord r (56 + 24 * d)
  let dstr := fun d => recWord r (64 + 24 * d)
  let permOk := (List.range nd).all (perm.contains ·) && (List.range 7).all fun d => d < nd || bits w (3 * d) 3 == 0
  let dimOk := (List.range 7).all fun d =>
    if d < nd then size d < 2 ^ 32 && size d != 0 else size d == 0 && sstr d == 0 && dstr d == 0
  let n := ((List.range nd).map size).foldl (· * ·) 1
  let fd := BitVec.ofNat 64 (recWord r 24)
  let ok := shapeHead w && 1 ≤ nd && permOk && dimOk && n < 2 ^ 48 && (r.drop 216).all (· == 0) &&
    shapeFd (flag w 25) fd (recWord r 32) (recWord r 40)
  if !ok then none
  else some { sbase := BitVec.ofNat 64 (recWord r 0), dbase := BitVec.ofNat 64 (recWord r 8), esz := bits w 30 2,
              dspc := bits w 28 2, sspc := bits w 26 2, conv := flag w 25, perm := perm, fd := fd,
              sscb := BitVec.ofNat 64 (recWord r 32), dscb := BitVec.ofNat 64 (recWord r 40),
              dims := (List.range nd).map fun d =>
                { size := size d, sstr := BitVec.ofNat 64 (sstr d), dstr := BitVec.ofNat 64 (dstr d) } }

/-- Bytes of a source and of a destination element. -/
def Shape.srcBytes (p : Shape) : Nat := if p.conv then fmtWidth (fdFA p.fd) / 8 else 2 ^ p.esz
def Shape.dstBytes (p : Shape) : Nat := if p.conv then fmtWidth (fdDst p.fd) / 8 else 2 ^ p.esz

def Shape.count (p : Shape) : Nat := (p.dims.map (·.size)).foldl (· * ·) 1

/-- One element: its source and destination linear indexes and addresses (R285). -/
structure CopyElem where
  l : Nat
  ld : Nat
  sa : DWord
  da : DWord
  deriving DecidableEq, Repr

/-- Source index along each dimension of the element of source linear index `l`. -/
def sourceIndex : List ShapeDim → Nat → List Nat
  | [], _ => []
  | d :: ds, l => l % d.size :: sourceIndex ds (l / d.size)

/-- Linear index of an index list in an order of the dimensions. -/
def linear : List (Nat × Nat) → Nat
  | [] => 0
  | (i, n) :: l => i + n * linear l

def Shape.elem (p : Shape) (l : Nat) : CopyElem :=
  let i := sourceIndex p.dims l
  let at_ := fun d => i.getD d 0
  let dim := fun d => p.dims.getD d { size := 1, sstr := 0, dstr := 0 }
  let ds := List.range p.dims.length
  { l := l
    ld := linear (p.perm.map fun d => (at_ d, (dim d).size))
    sa := ds.foldl (fun a d => a + BitVec.ofNat 64 (at_ d) * (dim d).sstr) p.sbase
    da := (ds.zip p.perm).foldl (fun a x => a + BitVec.ofNat 64 (at_ x.2) * (dim x.1).dstr) p.dbase }

def Shape.elems (p : Shape) : List CopyElem := (List.range p.count).map p.elem

/-- Extent of strided accesses around a base, with a scale array beside it: the smallest range that holds every byte (R139). -/
def spanOf (base : DWord) (ds : List (Nat × DWord)) (n : Nat) (scale : Option (DWord × Nat)) : Nat × Nat :=
  let ext := ds.map fun d => ((d.1 : Int) - 1) * d.2.toInt
  let lo := (ext.map (min 0)).foldl (· + ·) (base.toNat : Int)
  let hi := (ext.map (max 0)).foldl (· + ·) (base.toNat : Int) + n
  let (lo, hi) := match scale with
    | none => (lo, hi)
    | some (a, k) => (min lo (a.toNat : Int), max hi ((a.toNat : Int) + k))
  if lo < 0 || 2 ^ 64 < hi then (0, 2 ^ 64) else (lo.toNat, hi.toNat)

def Shape.srcRange (p : Shape) : Nat × Nat :=
  spanOf p.sbase (p.dims.map fun d => (d.size, d.sstr)) p.srcBytes
    (if p.conv && isBlock (fdFA p.fd) then some (p.sscb, (p.count + 31) / 32) else none)

def Shape.dstRange (p : Shape) : Nat × Nat :=
  spanOf p.dbase ((p.perm.zip p.dims).map fun x => ((p.dims.getD x.1 { size := 1, sstr := 0, dstr := 0 }).size, x.2.dstr)) p.dstBytes
    (if p.conv && isTb8 (fdDst p.fd) then some (p.dscb, (p.count + 31) / 32) else none)

/-! ## Accesses of an engine -/

/-- Translates the pieces of an engine's write: a fault with its address, or cause 0 when a block is being copied. -/
def engineTarget (w : Who) (va : DWord) (n : Nat) : F (List (Nat × Nat × Nat)) :=
  (piecesOf va.toNat n).mapM fun (a, len) => do
    let a := a % 2 ^ 64
    let (r, s) := (← get).translate w a .write
    set s
    match r with
    | .error (.cause c) => throw (c, BitVec.ofNat 64 a)
    | .error .wait => throw (0, BitVec.ofNat 64 a)
    | .ok (pa, key) => return (pa, key, len)

/-- The writes that bytes of a space are for an engine. -/
def engineWrites (w : Who) (h : Hart) (space : Nat) (va : DWord) (bs : List Byte) (p : Bool) : F (List PWrite) := do
  if space = 0 then return globWrites h .vector va bs p (← engineTarget w va bs.length)
  else
    let s ← get
    let (sp, off) := s.engineSpace w h space va
    return s.localWrites .vector sp off va bs p

/-- Writes bytes of a space for an engine. -/
def engineWrite (w : Who) (h : Hart) (space : Nat) (va : DWord) (bs : List Byte) (p : Bool) : F Unit := do
  let ws ← engineWrites w h space va bs p
  modify fun s => ws.foldl (fun s x => s.apply w x) s

/-! ## A transfer (R286, R288, R289) -/

/-- A transfer: its record, captured registers, who makes its accesses and from which hart's place. -/
structure CopyJob where
  p : Shape
  seed : DWord
  base : DWord
  w : Who
  h : Hart
  deriving DecidableEq, Repr

/-- What a source element gives: raw bytes, or its exact value; and poison. -/
def CopyJob.read (c : CopyJob) (e : CopyElem) : F (List (Byte × Bool) × Bool) := do
  let bs ← engineRead c.w c.h c.p.sspc e.sa c.p.srcBytes
  let sc ← if c.p.conv && isBlock (fdFA c.p.fd) then engineRead c.w c.h c.p.sspc (c.p.sscb + BitVec.ofNat 64 (e.l / 32)) 1 else pure []
  return (bs ++ sc, poisoned bs || poisoned sc)

/-- The exact value of an element that was read. -/
def CopyJob.val (c : CopyJob) (bs : List (Byte × Bool)) : Val :=
  let fd := c.p.fd
  let v := (sourceVal fd (fdDst fd) (fdFA fd) (bytesOf (bs.take c.p.srcBytes))).getD .nar
  if isBlock (fdFA fd) then v.mul (scaleVal (bytesOf (bs.drop c.p.srcBytes))) else v

def CopyJob.rctx (c : CopyJob) : RCtx := { d := c.p.fd, seed := c.seed, base := c.base }

/-- Raw bytes written with their tags: those that fall in one unit of poison of the destination, a sector or a word of local storage, are
one write (R286, R366). -/
def CopyJob.putRaw (c : CopyJob) (da : DWord) (bs : List (Byte × Bool)) : F Unit := do
  let u := if c.p.dspc = 0 then 64 else 4
  let unit := fun i => (da.toNat + i) / u
  ((List.range bs.length).map unit).dedup.forM fun k => do
    let own := (List.range bs.length).filter (unit · == k)
    let l := own.map fun i => bs.getD i (0, false)
    engineWrite c.w c.h c.p.dspc (da + BitVec.ofNat 64 (own.headD 0)) (l.map (·.1)) (poisoned l)

/-- The move of elements that were read, in the order given. -/
def CopyJob.put (c : CopyJob) (es : List (CopyElem × List (Byte × Bool) × Bool)) : F Unit := do
  let p := c.p
  if !p.conv then es.forM fun x => c.putRaw x.1.da x.2.1
  else if isTb8 (fdDst p.fd) then
    let ks := (es.map fun x => x.1.ld / 32).dedup
    ks.forM fun k => do
      let blk := es.filter fun x => x.1.ld / 32 == k
      let psn := blk.any (·.2.2)
      let vs := blk.map fun x => (x.1, c.val x.2.1)
      let sc := tb8Scale p.fd (vs.map (·.2))
      vs.forM fun x => engineWrite c.w c.h p.dspc x.1.da [BitVec.ofNat 8 (tb8Code c.rctx sc x.1.l x.2)] psn
      engineWrite c.w c.h p.dspc (p.dscb + BitVec.ofNat 64 k) [BitVec.ofNat 8 sc] psn
  else es.forM fun x =>
    engineWrite c.w c.h p.dspc x.1.da (leBytes p.dstBytes (c.rctx.roundNoSub (fdDst p.fd) x.1.l (c.val x.2.1))) x.2.2

/-- Where the command writes: addresses and lengths. -/
def CopyJob.writes (c : CopyJob) : List (DWord × Nat) :=
  c.p.elems.map (fun e => (e.da, c.p.dstBytes)) ++
    if c.p.conv && isTb8 (fdDst c.p.fd) then
      (List.range ((c.p.count + 31) / 32)).map fun k => (c.p.dscb + BitVec.ofNat 64 k, 1)
    else []

/-- Runs a fetch or a write and keeps its failure. -/
def attempt {α : Type} (f : F α) (s : State) : Option (Nat × DWord) × State :=
  match f s with
  | (.error e, s) => (some e, s)
  | (.ok _, s) => (none, s)

/-- Failures of a list of accesses. -/
def attempts (l : List (F Unit)) (s : State) : List (Nat × DWord) × State :=
  l.foldl (fun a f => let (e, s) := attempt f a.2; (match e with | some e => a.1 ++ [e] | none => a.1, s)) ([], s)

/-- Every access of the command is tried: its failures (R294), cause 0 standing for a block that is being copied. -/
def CopyJob.failures (c : CopyJob) (s : State) : List (Nat × DWord) × State :=
  let (a, s) := attempts (c.p.elems.map fun e => (do let _ ← c.read e : F Unit)) s
  let (b, s) := attempts (if c.p.dspc = 0 then c.writes.map fun x => (do let _ ← engineTarget c.w x.1 x.2 : F Unit) else []) s
  (a ++ b, s)

/-- Cause code of a copy for a failed access (R299). -/
def copyCode (c : Nat) : Nat :=
  if c = 0x21 then 0x82 else if c = 0x22 then 0x83 else if c = 0x25 then 0x84 else if c = 0x26 then 0x85
  else if c = 0x44 then 0x86 else 0x81

/-- Every destination byte becomes an open value (R289): of those that can be written. -/
def CopyJob.scramble (c : CopyJob) (w : Who) (s : State) : State :=
  c.writes.foldl (fun s x =>
    let (v, s) := s.takeFree
    (attempt (engineWrite w c.h c.p.dspc x.1 (leBytes x.2 v) false) s).2) s

/-- Whose writes no checksum counts (R390). -/
def Who.uncounted (w : Who) : Who := { w with sum := false }

/-- A source or scale byte lies in the destination range (R288). -/
def CopyJob.overlaps (c : CopyJob) (s : State) : Bool :=
  let dst := s.lockParts c.h c.p.dspc c.p.dstRange.1 c.p.dstRange.2
  let hit := fun (a : DWord) (n : Nat) => (s.lockParts c.h c.p.sspc a.toNat (a.toNat + n)).any fun x =>
    dst.any fun y => x.1 == y.1 && decide (x.2.1 < y.2.2) && decide (y.2.1 < x.2.2)
  c.p.elems.any fun e => hit e.sa c.p.srcBytes ||
    (c.p.conv && isBlock (fdFA c.p.fd) && hit (c.p.sscb + BitVec.ofNat 64 (e.l / 32)) 1)

/-- Two of the elements write one byte. -/
def CopyJob.share (c : CopyJob) (es : List CopyElem) (s : State) : Bool :=
  shareWrites (es.map fun e =>
    match engineWrites c.w c.h c.p.dspc e.da (List.replicate c.p.dstBytes 0) false s with
    | (.ok ws, _) => ws
    | (.error _, _) => [])

/-- The transfer itself: every element is read, then written; of elements that share a byte an open one is last (R288). -/
def CopyJob.transfer (c : CopyJob) : F Unit := do
  let es ← c.p.elems.mapM fun e => do return (e, ← c.read e)
  let s ← get
  if c.share c.p.elems s then do
    let (v, s) := s.takeFree
    set s
    c.put (shuffle v es)
  else c.put es

/-- What the source of each element reads as now, with its scale byte; none where a read fails. -/
def CopyJob.look (c : CopyJob) (s : State) : List (Option (List (Byte × Bool))) :=
  c.p.elems.map fun e =>
    match c.read e s with
    | (.ok x, _) => some (x.1.map fun b => if b.2 then (0, true) else b)
    | (.error _, _) => none

/-- A byte of a source that was read before reads differently now, poison apart (R289; log entry 80). -/
def differs (old now : List (Option (List (Byte × Bool)))) : Bool :=
  (old.zip now).any fun x => ((x.1.getD []).zip (x.2.getD [])).any fun b => !b.1.2 && !b.2.2 && b.1 != b.2

/-- Where the source and scale bytes of a command lie now. -/
def CopyJob.sourceLocs (c : CopyJob) (s : State) : List (Space × Nat) :=
  let at_ := fun (va : DWord) (n : Nat) =>
    if c.p.sspc = 0 then
      (piecesOf va.toNat n).flatMap fun x => match (s.translate c.w (x.1 % 2 ^ 64) .read).1 with
        | .ok (pa, _) => (List.range x.2).map fun i => (.glob, pa + i)
        | .error _ => []
    else
      let (sp, off) := s.engineSpace c.w c.h c.p.sspc va
      (s.localLocs sp off n).map fun a => (sp, a)
  c.p.elems.flatMap fun e => at_ e.sa c.p.srcBytes ++
    if c.p.conv && isBlock (fdFA c.p.fd) then at_ (c.p.sscb + BitVec.ofNat 64 (e.l / 32)) 1 else []

/-- A write of this move changed a source or scale byte. -/
def CopyJob.touched (c : CopyJob) (s : State) : Bool := !s.changed.isEmpty && (c.sourceLocs s).any s.changed.contains

/-- Bytes that a command writes (R381). -/
def CopyJob.bytes (c : CopyJob) : Nat := (c.writes.map (·.2)).foldl (· + ·) 0

/-- A command runs: its destination is undefined from here on, and a failure is found (R289, R294); of several failures an open one
is recorded. `none` when it must wait for a copy of a block. -/
def CopyJob.run (c : CopyJob) (s : State) : Option (Option (Nat × DWord)) × State :=
  let (es, s) := c.failures s
  if es.any (·.1 == 0) then (none, s)
  else
    let s := c.scramble c.w.uncounted s
    match es with
    | [] => (some none, s)
    | e :: l =>
      let (v, s) := s.takeFree
      let x := (e :: l).getD (v % (l.length + 1)) e
      (some (some (copyCode x.1, x.2)), s)

/-- A command ends: every byte gets its value, or an open one where source and destination overlap or, as `bad` tells, a source byte was
changed meanwhile (R288, R289). -/
def CopyJob.finish (c : CopyJob) (bad : Bool) (s : State) : Option (Option (Nat × DWord)) × State :=
  let undef := bad || c.overlaps s
  match c.run s with
  | (some none, s) => (some none, if undef then c.scramble c.w s else (attempt c.transfer s).2)
  | r => r

/-- The job of a hart's command. -/
def State.copyJob (s : State) (h : Hart) (c : CopyCmd) : Option CopyJob :=
  (parseShape c.record).map fun p =>
    { p := p, seed := c.sseed, base := c.sbase, w := { s.who h with prv := c.prv, psnCause := 0, intCause := 0x86 },
      h := { h with status := { h.status with prv := c.prv } } }

/-! ## Instructions (R290 to R293) -/

def cpyGoBody (d b : BitVec 6) (t : Bool) : M Unit := do
  let h ← getH
  let xb := h.getX b
  let r ← readRecord t xb 256
  if xb.toNat % 64 ≠ 0 then before 0x80 xb
  match parseShape r with
  | none => before 0x80 xb
  | some p => do
    let s ← get
    let src := s.lockParts s.h p.sspc p.srcRange.1 p.srcRange.2
    let dst := s.lockParts s.h p.dspc p.dstRange.1 p.dstRange.2
    waitLocks (src.map (·, false) ++ dst.map (·, true))
    let n := s.h.copyCount + 1
    takeLocks (lockEntry (.copy n) false src ++ lockEntry (.copy n) true dst)
    let c : CopyCmd := { handle := n, record := r, sseed := h.sseed, sbase := h.sbase, prv := h.status.prv }
    modH fun h => { h with copyCount := n, copies := h.copies ++ [{ c with src := (s.copyJob h c).elim [] fun j => j.look s }] }
    modH fun h => h.setX d (BitVec.ofNat 64 n)

def execCpyGo (fm : Form) (d b : BitVec 6) (t : Bool) (s : State) : Out :=
  .next (run (.cpyGo fm d b t) (cpyGoBody d b t) s)

def execCpyWait (fm : Form) (t : BitVec 6) (s : State) : Out :=
  .next (run (.cpyWait fm t) (do
    let n := ((← getH).getX t).toNat
    waitCopiesBy (fun c => decide (c.handle ≤ n)) (.park (.wait (.cpyWait fm t) 0xA none 0))) s)

/-- The copy command is given up: its entries are released (R292). -/
def Hart.dropCopy (h : Hart) (n : Nat) : Hart :=
  { h with copies := h.copies.filter fun c => c.handle != n }.release (.copy n)

def execCpyWaitDrop (fm : Form) (d t : BitVec 6) (s : State) : Out :=
  .next (run (.cpyWaitDrop fm d t) (do
    let h ← getH
    let cs := h.copies.filter fun c => decide (c.handle ≤ (h.getX t).toNat)
    if cs.any fun c => c.st == .queued || c.st == .running then
      throw (.park (.wait (.cpyWaitDrop fm d t) 0xA none 0))
    modH fun h => (cs.foldl (fun h c => h.dropCopy c.handle) h).setX d (BitVec.ofNat 64 cs.length)) s)

def CopySt.code : CopySt → Nat
  | .queued | .running => 1 | .faulted => 2 | .reported => 3

/-- The status of a command (R293). -/
def pollWord (h : Hart) (n : Nat) : DWord :=
  let (st, code) := match h.copyOf n with
    | none => (0, 0)
    | some c => (c.st.code, if c.st == .faulted || c.st == .reported then c.code else 0)
  BitVec.ofNat 64 (st * 2 ^ 62 + code * 2 ^ 48 + h.copies.length)

def execCpyPoll (fm : Form) (d t : BitVec 6) (s : State) : Out :=
  .next (run (.cpyPoll fm d t) (modH fun h => h.setX d (pollWord h (h.getX t).toNat)) s)

/-! ## The engines' steps (R283, R293, R294) -/

/-- Changes a command of a hart. -/
def State.mapCopyOf (s : State) (id : HartId) (n : Nat) (f : CopyCmd → CopyCmd) : State :=
  s.mapHarts (fun h => h.live && h.id == id) fun h => h.mapCopy n f

/-- The source of a command is looked at again (R289). -/
def CopyCmd.seen (c : CopyCmd) (j : CopyJob) (s : State) : CopyCmd :=
  let now := j.look s
  { c with bad := c.bad || j.touched s || differs c.src now, src := (c.src.zip now).map fun x => if x.1.isSome then x.1 else x.2 }

/-- What a move did to the sources of the commands of a hart that have not completed (R289). -/
def State.watchHart (s : State) (h : Hart) : Hart :=
  if h.copies.isEmpty then h
  else { h with copies := h.copies.map fun c => match s.copyJob h c with | some j => c.seen j s | none => c }

/-- The same for a hart that is saved, of sources in global memory (R296). -/
def State.watchSaved (s : State) (h : Hart) : Hart :=
  if h.copies.isEmpty then h
  else { h with copies := h.copies.map fun c => match s.copyJob h c with
    | some j => if j.p.sspc = 0 then c.seen j s else c
    | none => c }

/-- Every command in flight is looked at after a move. -/
def State.watchCopies (s : State) : State :=
  { s with h := s.watchHart s.h, harts := s.harts.map s.watchHart, changed := [],
           saved := s.saved.map fun g => { g with harts := g.harts.map s.watchSaved } }

/-- An engine takes and runs a command (R283, R289). -/
def State.copyTransfer (s : State) (id : HartId) (n : Nat) : State :=
  match s.hartAt id with
  | none => s
  | some h =>
    match h.copyOf n with
    | none => s
    | some c =>
      if c.st ≠ .queued then s
      else match s.copyJob h c with
        | none => s
        | some j =>
          match j.run s with
          | (none, s) => s
          | (some none, s') => s'.mapCopyOf id n fun c => { c with st := .running, code := 0, addr := 0 }
          | (some (some (k, a)), s') => s'.mapCopyOf id n fun c => { c with st := .running, code := k, addr := a }

/-- A running command whose access failed becomes FAULTED (R294). -/
def State.copyFault (s : State) (id : HartId) (n : Nat) : State :=
  match (s.hartAt id).bind (·.copyOf n) with
  | none => s
  | some c =>
    if c.st ≠ .running || c.code = 0 then s
    else (s.mapCopyOf id n fun c => { c with st := .faulted }).mapHarts (fun h => h.live && h.id == id)
      fun h => { h with evtCpy := true }

/-- A running command completes: its writes have performed, after those of earlier strip intervals, and its entries are released (R143,
R293); or it meets a failure only now. -/
def State.copyComplete (s : State) (id : HartId) (n : Nat) : State :=
  match s.hartAt id with
  | none => s
  | some h =>
    match h.copyOf n with
    | none => s
    | some c =>
      if c.st ≠ .running || c.code ≠ 0 || !h.engineMay (.copy n) then s
      else match s.copyJob h c with
        | none => s
        | some j =>
          match j.finish (c.seen j s).bad s with
          | (none, s) => s
          | (some (some (k, a)), s) => s.mapCopyOf id n fun c => { c with code := k, addr := a }
          | (some none, s) =>
            (s.count id.core id.part 0x0B j.bytes).mapHarts (fun h => h.live && h.id == id)
              fun h => { h.dropCopy n with evtCpy := true }

def execCopyTransfer (h : HartId) (n : Nat) (s : State) : Out := .next (s.copyTransfer h n)
def execCopyFault (h : HartId) (n : Nat) (s : State) : Out := .next (s.copyFault h n)
def execCopyComplete (h : HartId) (n : Nat) (s : State) : Out := .next (s.copyComplete h n)

end Sys2Proof.Machine
end

