-- ==== Sys2Proof/Machine/Launch.lean ====
section
/-! DEFINITION. The launch engine: nodes, the pending-launch pool, the graph, starts and ends of gangs, majors 0x2E and 0x2F
(R12 to R16, R37, R300 to R319). -/

namespace Sys2Proof.Machine

/-! ## Records (R301, R302) -/

/-- A task descriptor; `none` when it is malformed. -/
def parseDesc (r : List Byte) : Option TaskDesc :=
  let w := recWord r 8
  let d : TaskDesc := { entry := BitVec.ofNat 64 (recWord r 0), gangs := bits w 32 16, harts := bits w 20 6,
                        split := BitVec.ofNat 2 (bits w 18 2), mat := flag w 17, prot := flag w 16, idem := flag w 15,
                        tcmb := bits (recWord r 16) 32 32, spb := bits (recWord r 16) 0 32 }
  if recWord r 0 % 4 == 0 && bits w 48 16 == 0 && bits w 26 6 == 0 && bits w 0 15 == 0 && bits w 18 2 != 3 && d.gangs != 0 &&
      d.harts != 0 && d.harts ≤ 32 && d.harts ≤ 8 * 2 ^ d.split.toNat && d.tcmb ≤ 393216 && d.spb ≤ 4194304 &&
      (r.drop 24).all (· == 0) then some d
  else none

structure LaunchRec where
  desc : DWord
  crec : DWord
  save : DWord
  hold : Bool
  prio : Nat
  copy : Bool
  preds : List Nat
  args : List DWord
  deriving DecidableEq, Repr

/-- A launch record; `none` when it is malformed. -/
def parseLaunch (r : List Byte) : Option LaunchRec :=
  let w := recWord r 24
  let l : LaunchRec := { desc := BitVec.ofNat 64 (recWord r 0), crec := BitVec.ofNat 64 (recWord r 8),
                         save := BitVec.ofNat 64 (recWord r 16), hold := flag w 7, prio := bits w 4 2, copy := flag w 0,
                         preds := [bits (recWord r 32) 0 32, bits (recWord r 32) 32 32, bits (recWord r 40) 0 32, bits (recWord r 40) 32 32],
                         args := (List.range 8).map fun i => BitVec.ofNat 64 (recWord r (64 + 8 * i)) }
  if bits w 8 56 == 0 && !flag w 6 && bits w 2 2 == 0 && bits w 0 2 ≤ 1 && recWord r 8 % 32 == 0 &&
      ((r.drop 48).take 16).all (· == 0) &&
      (if l.copy then l.save == 0 && l.args.all (· == 0) else recWord r 16 % 65536 == 0) then some l
  else none

/-- Length of the record at DESC by KIND; a malformed KIND names none. -/
def descLen (lrec : List Byte) : Nat :=
  let k := bits (recWord lrec 24) 0 2
  if k = 0 then 64 else if k = 1 then 256 else 0

/-- The reject code of a launch's records: 0x01 and 0x02 of R303, or 0. -/
def launchCode (lrec desc : List Byte) : Nat :=
  match parseLaunch lrec with
  | none => 1
  | some l =>
    if l.desc.toNat % 64 ≠ 0 then 2
    else if l.copy then (if (parseShape desc).isSome then 0 else 2)
    else if (parseDesc desc).isSome then 0 else 2

/-! ## The pool (R300, R307, R319) -/

/-- The node whose completion a parked hart awaits. -/
def Hart.awaits (h : Hart) : Option Nat :=
  match h.park with
  | some (.wait (.twait _ _ t) _ _ _) => some (h.getX t).toNat
  | _ => none

/-- Changes the free list that an entry belongs to. -/
def State.mapFree (s : State) (idx : Nat) (f : FreeList → FreeList) : State :=
  if idx < 7168 then { s with shared := f s.shared }
  else { s with reserve := s.reserve.modify ((idx - 7168) / 128) f }

/-- Entries of finished nodes that no `twait` is parked on return to the pool. -/
def State.reap (s : State) : State :=
  (s.nodes.filter fun n => n.st == .finished && s.allHarts.all fun h => h.awaits != some n.id).foldl (fun s n =>
    { s with nodes := s.nodes.filter (·.id != n.id) }.mapFree (n.id % 8192) fun l => { l with freed := l.freed ++ [n.id % 8192] }) s

/-- The first free entry. -/
def FreeList.take (l : FreeList) : Option (Nat × FreeList) :=
  if l.fresh < l.last then some (l.fresh, { l with fresh := l.fresh + 1 })
  else match l.freed with
    | [] => none
    | i :: is => some (i, { l with freed := is })

/-- Takes an entry for a node of a depth: shared ones first, then the depth's reserve. -/
def State.takeEntry (s : State) (depth : Nat) : Option (Nat × State) :=
  match s.shared.take with
  | some (i, l) => some (i, { s with shared := l })
  | none =>
    match (s.reserve.getD depth { fresh := 0, last := 0 }).take with
    | some (i, l) => some (i, { s with reserve := s.reserve.set depth l })
    | none => none

/-- The identifier that an entry takes next: its generation advances, and wraps to 1. -/
def State.nextId (s : State) (idx : Nat) : Nat :=
  let g := match s.entries.find? (·.idx == idx) with | some e => e.gen | none => 0
  (if g + 1 < 2 ^ 19 then g + 1 else 1) * 8192 + idx

/-- What an entry remembers. -/
def State.setEntry (s : State) (id : Nat) (o : Option NodeEnd) : State :=
  { s with entries := { idx := id % 8192, gen := id / 8192, outcome := o } :: s.entries.filter (·.idx != id % 8192) }

/-- Engines of the device that belong to no core hold translations of their own. -/
def noCore : Nat := 128

/-! ## Trace control blocks (R376) -/

/-- The fields of a trace control block; with a nonzero reserved field all zeros. -/
def parseTcb (r : List Byte) : Tcb :=
  let w := recWord r 8
  let blog := bits w 32 8
  let sper := bits w 27 5
  let ok := bits w 40 24 == 0 && bits w 0 23 == 0 && bits (recWord r 48) 57 7 == 0 && bits (recWord r 56) 57 7 == 0 &&
    recWord r 0 % 4096 == 0 && (recWord r 0 == 0 || (12 ≤ blog && blog ≤ 40)) && (sper == 0 || (10 ≤ sper && sper ≤ 24))
  if !ok then { }
  else { buf := BitVec.ofNat 64 (recWord r 0), blog := blog, sper := sper, lock := flag w 26, brec := flag w 25, chk := flag w 24,
         trec := flag w 23, ev := (List.range 32).map fun i => ((r.getD (16 + i) 0).toNat),
         bp := [BitVec.ofNat 64 (recWord r 48), BitVec.ofNat 64 (recWord r 56)] }

/-- Reads 64 aligned bytes for the device with a privilege: `none` when they cannot be read or are poisoned. -/
def State.readBlock (s : State) (w : Who) (va : DWord) : Option (List Byte) × State :=
  match s.translate w va.toNat .read with
  | (.error _, s) => (none, s)
  | (.ok (pa, key), s) =>
    match s.loadSector w [] pa 64 key va.toNat with
    | (none, s) => (none, s)
    | (some l, s) => (if l.any (·.2) then none else some (l.map (·.1)), s)

/-- The trace control block of an address space, as a gang takes it. -/
def State.readTcb (s : State) (asn core : Nat) : Tcb × State :=
  match s.spaceOf asn with
  | none => ({ }, s)
  | some sp =>
    if sp.tcb.toNat % 64 ≠ 0 then ({ }, s)
    else match s.readBlock { core := core, asn := asn, prv := true } sp.tcb with
      | (none, s) => ({ }, s)
      | (some r, s) => (parseTcb r, s)

/-! ## The graph (R305 to R308) -/

/-- What a named predecessor means for its successor (R307). -/
inductive Pred where
  | edge | satisfied | cancels
  deriving DecidableEq, Repr

/-- The identifier names an unfinished node. -/
def State.unfinished (s : State) (p : Nat) : Bool := match s.node p with | some n => n.st != .finished | none => false

/-- What the entry of an identifier remembers of it. -/
def State.outcomeOf (s : State) (p : Nat) : Option NodeEnd :=
  (s.entries.find? fun e => e.idx == p % 8192 && e.gen == p / 8192).bind (·.outcome)

def State.resolve (s : State) (p : Nat) : Pred :=
  if s.unfinished p then .edge
  else match s.outcomeOf p with
    | some .complete | none => .satisfied
    | some _ => .cancels

/-- An unfinished node that has 16 successors (R303). -/
def State.predFull (s : State) (p : Nat) : Bool :=
  match s.node p with | some n => n.st != .finished && 16 ≤ n.succs.length | none => false

/-- A node becomes READY. -/
def State.ready (s : State) (id : Nat) : State :=
  let t := s.mapNode id fun n => { n with st := .ready, readyNo := s.readyCount, since := s.tstamp }
  { t with readyCount := s.readyCount + 1 }

/-- A hold is released: the node is WAITING or READY (R305, R316). -/
def State.release (s : State) (id : Nat) : State :=
  match s.node id with
  | none => s
  | some n => if n.st ≠ .held then s else if n.count = 0 then s.ready id else s.mapNode id fun n => { n with st := .waiting }

/-- A predecessor has completed. -/
def State.decrement (s : State) (id : Nat) : State :=
  match s.node id with
  | none => s
  | some n =>
    let s := s.mapNode id fun n => { n with count := n.count - 1 }
    if n.st = .waiting ∧ n.count = 1 then s.ready id else s

/-- Writes a completion record at a virtual address; a write that is dropped is logged (R308). -/
def State.writeCompletion (s : State) (asn task : Nat) (va : DWord) (ws : List DWord) : State :=
  if va = 0 then s
  else
    let w : Who := { core := noCore, asn := asn, task := task }
    match s.translateNow w va.toNat with
    | (.error _, s) => s.logOpen w 0xD 0 0 va.toNat 0 0
    | (.ok (pa, key), s) =>
      let bs := ws.flatMap fun x => leBytes 8 x.toNat
      let lost := s.dropsWrite pa key bs.length
      let s := (s.spoil asn pa va.toNat).writeSector w pa key va bs false
      if lost then s.logAt w 0xD 0 0 pa va.toNat key 0 else s

/-- Word +0 of a completion record (R304). -/
def completionWord (status code nabn exit : Nat) : DWord :=
  BitVec.ofNat 64 (2 ^ 63 + status * 2 ^ 60 + code % 256 * 2 ^ 40 + min nabn 255 * 2 ^ 32 + exit % 65536)

def NodeEnd.status : NodeEnd → Nat
  | .complete => 0 | .failed => 1 | .cancelled => 2 | .lost => 3

/-- How a node ends: its outcome, a copy node's cause and failing address (R304). -/
structure Ending where
  id : Nat
  out : NodeEnd
  code : Nat := 0
  addr : DWord := 0
  deriving DecidableEq, Repr

/-- Changes saved harts that satisfy `p`. -/
def SavedGang.mapHarts (g : SavedGang) (p : Hart → Bool) (f : Hart → Hart) : SavedGang :=
  { g with harts := g.harts.map fun h => if p h then f h else h }

def State.mapSaved (s : State) (p : Hart → Bool) (f : Hart → Hart) : State :=
  { s with saved := s.saved.map fun g => g.mapHarts p f }

/-- The trace control block that records the end of a node: as its last gang took it, or as the address space has it where no gang of
the node started (log entry 81). -/
def State.tcbAtEnd (s : State) (n : Node) : Tcb × State :=
  if n.task && n.st == .running then (n.tcb, s) else s.readTcb n.asn noCore

/-- The record, evt.CHLD and trace records of a node that finishes (R304, R308, R379, R390). -/
def State.finishNode (s : State) (e : Ending) (n : Node) : State :=
  let code := match e.out with | .lost => 0xF1 | _ => if n.task then n.abnCause else e.code
  let word := completionWord e.out.status code n.nabn n.exit
  let s := s.writeCompletion n.asn n.id n.crec [word, e.addr, n.ahnd, s.tstamp]
  let mine := fun (h : Hart) => n.launcher == some (h.gang, h.gh)
  let s := s.mapHarts (fun h => h.live && mine h) fun h => { h with evtChld := true }
  let s := s.mapSaved mine fun h => { h with evtChld := true }
  let (tcb, s) := s.tcbAtEnd n
  let s := if tcb.trec then s.emit tcb n.id none 4 9 word else s
  let s := if n.task && tcb.chk then s.emit tcb n.id none 7 9 n.chk else s
  (s.mapNode n.id fun n => { n with st := .finished, word := word }).setEntry n.id (some e.out)

/-- Nodes finish, one after another: held nodes that a task launched are released, successors are decremented, or cancelled in turn
(R306, R308, R318). -/
def State.finishAll : Nat → List Ending → State → State
  | 0, _, s => s
  | _, [], s => s
  | fuel + 1, e :: l, s =>
    match s.node e.id with
    | none => State.finishAll fuel l s
    | some n =>
      if n.st = .finished then State.finishAll fuel l s
      else
        let s := s.finishNode e n
        let s := (s.nodes.filter fun c => c.parent == n.id && c.st == .held).foldl (fun s c => s.release c.id) s
        match e.out with
        | .complete => State.finishAll fuel l (n.succs.foldl State.decrement s)
        | _ => State.finishAll fuel ((n.succs.map fun i => { id := i, out := .cancelled }) ++ l) s

/-- A node finishes, with everything that follows from it. -/
def State.finishNodes (s : State) (l : List Ending) : State :=
  (State.finishAll (l.length + s.nodes.length + (s.nodes.map (·.succs.length)).sum) l s).reap

/-! ## Launches (R303, R305, R309, R312) -/

/-- Who launches: a hart, or a host queue. -/
structure Launcher where
  hart : Option (Nat × Nat) := none
  task : Nat := 0
  depth : Nat := 0
  prio : Nat := 0
  asn : Nat := 0
  queue : Option Nat := none
  cseq : DWord := 0
  prv : Bool := false
  seed : DWord := 0
  base : DWord := 0
  core : Nat := 0
  older : List LockOwner := []
  deriving DecidableEq, Repr

/-- The node of records that are well-formed. -/
def newNode (p : Launcher) (id : Nat) (l : LaunchRec) (desc : List Byte) : Node :=
  let d := (parseDesc desc).getD { }
  { id := id, st := if l.hold then .held else .waiting, task := !l.copy, depth := p.depth, prio := max l.prio p.prio, asn := p.asn,
    queue := p.queue, launcher := p.hart, parent := p.task, desc := d, crec := l.crec, save := l.save, args := l.args,
    toStart := if l.copy then [] else List.range d.gangs, unended := if l.copy then 0 else d.gangs, cseq := p.cseq,
    shape := if l.copy then desc else [], sseed := p.seed, sbase := p.base, prv := p.prv,
    gang := match p.hart with | some g => g.1 | none => 0, core := p.core, older := p.older }

/-- Creates a node in an entry that was taken: edges from its predecessors, or cancellation (R305, R307). -/
def State.createNode (s : State) (p : Launcher) (idx : Nat) (l : LaunchRec) (desc : List Byte) : Nat × State :=
  let id := s.nextId idx
  let ps := l.preds.filter (· != 0)
  let rs := ps.map s.resolve
  let edges := ps.filter fun q => s.resolve q == .edge
  let s := { s with nodes := s.nodes ++ [{ newNode p id l desc with count := edges.length }] }.setEntry id none
  let s := edges.foldl (fun s q => s.mapNode q fun n => { n with succs := n.succs ++ [id] }) s
  if rs.contains .cancels then (id, s.finishNodes [{ id := id, out := .cancelled }])
  else if !l.hold && edges.isEmpty then (id, s.ready id)
  else (id, s)

/-- Engine transfers that a hart of a gang holds: its copies, and its accepted epilogue commands (R298). -/
def State.transfersOf (s : State) (gang gh : Nat) : List LockOwner :=
  let harts := s.allHarts ++ s.saved.flatMap (·.harts)
  let gangs := s.gangs ++ s.saved.map (·.gang)
  (harts.filter fun h => h.gang == gang && h.gh == gh).flatMap (fun h => h.copies.map fun c => .copy c.handle) ++
    (gangs.filter (·.key == gang)).flatMap fun g => (g.mat.queue.filter (·.gh == gh)).map fun c => .epilogue c.n

/-- Transfers that are older than the launch of a node have still to perform (R308). -/
def State.launchHeld (s : State) (n : Node) : Bool :=
  match n.launcher with
  | some l => n.older.any (s.transfersOf l.1 l.2).contains
  | none => false

/-- The hart in focus as a launcher. -/
def State.launcherOf (s : State) (h : Hart) : Launcher :=
  let n := (s.nodeOf h).getD { id := 0 }
  { hart := some (h.gang, h.gh), task := n.id, depth := n.depth + 1, prio := n.prio, asn := h.asn, queue := n.queue,
    cseq := n.cseq, prv := h.status.prv, seed := h.sseed, base := h.sbase, core := h.id.core, older := s.transfersOf h.gang h.gh }

/-- The result of a rejection. -/
def rejected (c : Nat) : DWord := BitVec.ofNat 64 (2 ^ 63 + c)

/-- Reads the launch record and the record that it names, or takes them as the parked instruction read them (R314). -/
def launchRecords (b : BitVec 6) : M (List Byte × List Byte) := do
  match (← getH).park with
  | some (.entry _ l d) => return (l, d)
  | _ =>
    let l ← readRecord false ((← getH).getX b) 128
    let d ← readRecord false (BitVec.ofNat 64 (recWord l 0)) (descLen l)
    return (l, d)

def launchBody (i : Instr) (d b : BitVec 6) (try_ : Bool) : M Unit := do
  let s ← get
  let n := (s.nodeOf s.h).getD { id := 0 }
  if 7 ≤ n.depth then before 0x90 (BitVec.ofNat 64 n.id)
  let (l, r) ← launchRecords b
  let code := if (s.h.getX b).toNat % 64 ≠ 0 then 1 else launchCode l r
  match parseLaunch l with
  | none => modH fun h => h.setX d (rejected 1)
  | some p => do
    if code ≠ 0 then modH fun h => h.setX d (rejected code)
    else if (p.preds.filter (· != 0)).any (← get).predFull then modH fun h => h.setX d (rejected 4)
    else do
      settleAll
      let s := (← get).reap
      match s.takeEntry (n.depth + 1) with
      | none => if try_ then modH fun h => h.setX d (rejected 3) else throw (.park (.entry i l r))
      | some (idx, t) => do
        let (id, t) := t.createNode (s.launcherOf s.h) idx p r
        set t
        modH fun h => h.setX d (BitVec.ofNat 64 id)

def execLaunch (fm : Form) (d b : BitVec 6) (s : State) : Out :=
  .next (run (.launch fm d b) (launchBody (.launch fm d b) d b false) s)
def execLaunchTry (fm : Form) (d b : BitVec 6) (s : State) : Out :=
  .next (run (.launchTry fm d b) (launchBody (.launchTry fm d b) d b true) s)

/-! ## Edges and waiting (R316, R317) -/

/-- An identifier in a register names this node; upper bits that are set name none (R300). -/
def State.named (s : State) (x : DWord) : Option Node := s.node x.toNat

def execTdep (fm : Form) (d x p : BitVec 6) (s : State) : Out :=
  .next (run (.tdep fm d x p) (do
    let s ← get
    let h := s.h
    let xp := (h.getX p).toNat
    match s.named (h.getX x) with
    | none => modH fun h => h.setX d (rejected 5)
    | some n => do
      if n.st ≠ .held || n.parent ≠ s.taskOf h then modH fun h => h.setX d (rejected 5)
      else if xp = 0 then do
        modify fun s => s.release n.id
        modH fun h => h.setX d 0
      else match s.resolve xp with
        | .edge => do
          if s.predFull xp then modH fun h => h.setX d (rejected 4)
          else do
            modify fun s => (s.mapNode xp fun m => { m with succs := m.succs ++ [n.id] }).mapNode n.id fun m => { m with count := m.count + 1 }
            modH fun h => h.setX d 0
        | .satisfied => modH fun h => h.setX d 0
        | .cancels => do
          modify fun s => s.finishNodes [{ id := n.id, out := .cancelled }]
          modH fun h => h.setX d 0) s)

/-- A hart that stops waiting gives up what keeps the entry. -/
def execTwait (fm : Form) (d t : BitVec 6) (s : State) : Out :=
  .next (run (.twait fm d t) (do
    let s ← get
    match s.named (s.h.getX t) with
    | none => modH fun h => h.setX d 0
    | some n => do
      if n.st ≠ .finished then throw (.park (.wait (.twait fm d t) 8 none 0))
      modH fun h => { h with park := none }.setX d n.word
      modify fun s => s.reap) s)

/-! ## Ends of harts and gangs (R208, R261, R297, R318, R322, R323) -/

/-- A hart is gone from its slot; what it wrote performs, and a `vjoin` of its partition may be agreed. -/
def State.removeHart (s : State) (h : Hart) : State :=
  let w := s.who h
  let s := h.stbuf.foldl (fun s p => s.apply w p) s
  let here := fun (g : Hart) => g.live && g.id == h.id
  let s := { s with harts := s.harts.filter fun g => !here g }
  let s := if here s.h then { s with h := { }, h0 := { }, hT := { }, cv := { } } else s
  s.joinRecheck h.id

/-- Resident time of a gang in ns since it last started from ENTRY (R322). -/
def State.residentNs (s : State) (g : Gang) : Nat := g.ran + (s.tstamp.toNat - g.start.toNat)

/-- The gang leaves its core: its allocations and partitions are free. -/
def State.dropGang (s : State) (key : Nat) : State := { s with gangs := s.gangs.filter (·.key != key) }

/-- A gang index back in the order of starting (R311, R323). -/
def requeue (l : List Nat) (g : Nat) : List Nat := natInsert l g

/-- The end of a gang whose harts have ended: by what happens to it (R318, R323). -/
def State.endGang (s : State) (g : Gang) : State :=
  let s := s.dropGang g.key
  match g.fate with
  | .runs | .gone => s
  | .again => s.mapNode g.node fun n => { n with toStart := requeue n.toStart g.gidx }
  | .ended =>
    let s := s.mapNode g.node fun n => { n with unended := n.unended - 1, ended := n.ended + 1, endedNs := n.endedNs + s.residentNs g,
                                                tcb := g.tcb }
    match s.node g.node with
    | none => s
    | some n => if n.unended = 0 then s.finishNodes [{ id := n.id, out := if flag n.exit 15 then .failed else .complete }] else s

/-- Every accepted epilogue command has completed. -/
def Gang.quiet (g : Gang) : Bool := g.mat.queue.isEmpty

/-- Gangs without harts whose accepted epilogue commands have completed end (R261). -/
def State.sweep (s : State) : State :=
  (s.gangs.filter fun g => g.fate != .runs && g.quiet && s.allHarts.all fun h => h.gang != g.key).foldl State.endGang s

/-- Failed copies that a `texit` abandons (R297, R304). -/
def Node.abandon (n : Node) (cs : List CopyCmd) : Node :=
  match cs with
  | [] => n
  | c :: _ => { n with nabn := n.nabn + cs.length, abnCause := if n.nabn = 0 then c.code else n.abnCause,
                       ahnd := if n.nabn = 0 then BitVec.ofNat 64 c.handle else n.ahnd }

/-- The hart in focus ends by `texit` (R318). -/
def State.exitHart (s : State) (code : Nat) : State :=
  let h := s.h.stopStreams
  let task := s.taskOf h
  let s := s.mapNode task fun n => { n.abandon h.copies with exit := n.exit ||| code }
  let s := s.mapGang h.gang fun g => { g with exited := setBit g.exited h.gh true }
  let s := (s.removeHart h).exitBarrier h
  let s := if s.allHarts.any fun g => g.gang == h.gang then s else s.mapGang h.gang fun g => { g with fate := if g.fate = .runs then .ended else g.fate }
  s.sweep

def execTexit (fm : Form) (a : BitVec 6) (s : State) : Out :=
  .next (run (.texit fm a) (do
    let h ← getH
    if h.copies.any fun c => c.st == .queued || c.st == .running then throw (.stall 0xA)
    modify fun s => (s.count h.id.core h.id.part 2 1).exitHart ((h.getX a).toNat % 65536)
    throw .done) s)

/-- An epilogue command that completes may be the last that a gang waits for (R261). -/
def execSlotFree (core : Nat) (s : State) : Out := .next (s.slotFree core).sweep

/-- The accepted epilogue commands of a gang whose harts are gone complete, those whose slot is sealed; of the others, which none will
seal, nothing is left (R323; log entry 82). -/
def State.finishEpilogue (s : State) (key : Nat) : State :=
  match s.gangOf key with
  | none => s
  | some g =>
    (g.mat.queue.foldl (fun s _ => (s.epilogueDrain g.core true).slotFree g.core) s).mapGang key
      fun g => { g with mat := { g.mat with queue := [] } }

/-- Something that hardware does for a hart at a time when another instruction may be in execution. -/
def State.aside (s : State) (id : HartId) (f : State → State) : State :=
  { (f { s.focus id with cv := { }, h0 := { }, hT := { } }).focus s.h.id with cv := s.cv, h0 := s.h0, hT := s.hT, ended := s.ended }

/-- A `vamo` of which some elements have performed is whole before its hart stops (R23, R196). -/
def State.finishVamo (s : State) (id : HartId) : State :=
  match (s.hartAt id).bind (·.park) with
  | some (.vamo (.vamo fm v b c dw sp o) _ _) => s.aside id (vamoPart none fm v b c dw sp o)
  | _ => s

/-- Harts of gangs end at their convoy boundary, accepted epilogue commands complete, and what happens to the gangs is set: a
discard, a rollback, a deregistration, a loss of context (R323, R327, R354). -/
def State.killGangs (s : State) (keys : List Nat) (f : Fate) : State :=
  let s := ((s.allHarts.filter fun h => keys.contains h.gang).map (·.id)).foldl State.finishVamo s
  let s := (s.allHarts.filter fun h => keys.contains h.gang).foldl State.removeHart s
  let s := keys.foldl (fun s k => (s.finishEpilogue k).mapGang k fun g => { g with fate := f }) s
  s.sweep

/-! ## Placement (R14 to R16, R34, R311, R312, R37, R387, R399) -/

/-- An allocation in whole granules of 4 KiB (R33). -/
def granules (n : Nat) : Nat := (n + 4095) / 4096 * 4096

/-- Partitions that a gang occupies (R15). -/
def TaskDesc.parts (d : TaskDesc) : Nat := (d.harts + 2 ^ d.split.toNat - 1) / 2 ^ d.split.toNat

/-- Partitions of a core that can take a gang, gangs of `without` counted as gone. -/
def State.freeParts (s : State) (without : List Nat) (core : Nat) : List Nat :=
  (List.range 8).filter fun p => !s.partQuar.contains (core, p) && !s.man.off.contains (core, p) &&
    s.gangs.all fun g => without.contains g.key || g.core != core || !g.parts.contains p

/-- A gang fits on a core. -/
def State.fits (s : State) (d : TaskDesc) (without : List Nat) (core : Nat) : Bool :=
  let gs := s.gangs.filter fun g => !without.contains g.key
  let here := gs.filter (·.core == core)
  let near := gs.filter fun g => g.core / 4 == core / 4
  core < 128 && d.parts ≤ (s.freeParts without core).length &&
    (here.map (·.tcm.size)).sum + granules d.tcmb ≤ 393216 && (near.map (·.sp.size)).sum + granules d.spb ≤ 4194304 &&
    !(d.mat && here.any (·.desc.mat))

/-- Some core takes it. -/
def State.placeable (s : State) (d : TaskDesc) (without : List Nat) : Bool := (List.range 128).any (s.fits d without)

/-- New gangs may start in the power state, and none is asked for that forbids them (R398, R399). -/
def State.powered (s : State) : Bool := s.firm.st == 3 && s.firm.pst ≤ 1 && s.firm.ask.isNone

/-- The address space is stopped (R387). -/
def State.stoppedAs (s : State) (asn : Nat) : Bool := match s.spaceOf asn with | some sp => sp.stopped | none => true

/-- A task with a gang to start, that neither a stop nor its launcher's transfers hold back (R308, R387). -/
def State.startable (s : State) (n : Node) : Bool :=
  n.task && !n.toStart.isEmpty && (n.st == .running || (n.st == .ready && !s.stoppedAs n.asn && !s.launchHeld n))

/-- The oldest startable task of a queue at a priority (R312). -/
def State.oldest (s : State) (prio q : Nat) : Option Node :=
  match s.nodes.filter fun n => s.startable n && n.prio == prio && n.queue.getD 0 == q with
  | [] => none
  | n :: l => some (l.foldl (fun a b => if b.readyNo < a.readyNo then b else a) n)

def State.weightOf (s : State) (q : Nat) : Nat := match s.firm.queues.find? (·.q == q) with | some b => b.weight | none => 1

def Rota.get (l : List (Nat × Nat)) (k : Nat) : Nat := match l.find? (·.1 == k) with | some x => x.2 | none => 0
def Rota.put (l : List (Nat × Nat)) (k v : Nat) : List (Nat × Nat) := (k, v) :: l.filter (·.1 != k)

/-- Deficit round-robin from the queue being visited: the task that starts next and the state of the rota then (R312). -/
def State.serve (s : State) (prio : Nat) : Nat → Rota → Option (Node × Rota)
  | 0, _ => none
  | fuel + 1, r =>
    let q := Rota.get r.cur prio
    let next := (q + 1) % 64
    let own := fun (q : Nat) => 64 * prio + q
    let go := fun (d : List (Nat × Nat)) =>
      s.serve prio fuel { deficit := Rota.put d (own next) (Rota.get d (own next) + 32 * s.weightOf next),
                          cur := Rota.put r.cur prio next }
    match s.oldest prio q with
    | none => go (Rota.put r.deficit (own q) 0)
    | some n =>
      if s.placeable n.desc [] && n.desc.harts ≤ Rota.get r.deficit (own q) then
        some (n, { r with deficit := Rota.put r.deficit (own q) (Rota.get r.deficit (own q) - n.desc.harts) })
      else go r.deficit

/-- The task whose gang starts next: of the highest priority at which any can be placed (R37, R312). -/
def State.nextStart (s : State) : Option (Node × Rota) :=
  match (List.range 4).find? fun p => s.nodes.any fun n => s.startable n && n.prio == p && s.placeable n.desc [] with
  | none => none
  | some p => s.serve p 192 s.rota

/-- A queue with no ready gang at a priority has its deficit there at zero (R312). -/
def State.settleRota (s : State) : State :=
  { s with rota := { s.rota with deficit := s.rota.deficit.filter fun d => (s.oldest (d.1 / 64) (d.1 % 64)).isSome } }

/-- The partitions that a mask names. -/
def maskParts (m : Nat) : List Nat := (List.range 8).filter m.testBit

/-- The launch engine may start this gang there now. -/
def State.mayStart (s : State) (node gang core : Nat) (ps : List Nat) : Option (Node × Rota) :=
  match s.nextStart with
  | none => none
  | some (n, r) =>
    if s.powered && n.id == node && n.toStart.head? == some gang && s.fits n.desc [] core && ps.length == n.desc.parts &&
        ps.all (s.freeParts [] core).contains then some (n, r)
    else none

/-- Counters of partitions begin afresh (R381). -/
def State.resetCtrs (s : State) (core : Nat) (ps : List Nat) : State :=
  { s with ctrs := (s.ctrs.filter fun c => !(c.core == core && ps.contains c.part)) ++
      ps.map fun p => { core := core, part := p, start := s.clk } }

/-- The hart of an index in a gang that starts (R310, R355). -/
def newHart (n : Node) (core : Nat) (ps : List Nat) (key : Nat) (tvec : DWord) (gh : Nat) : Hart :=
  let d := n.desc
  let k := 2 ^ d.split.toNat
  let x9 := match n.rolled with | some v => v | none => 0
  { live := true, id := ⟨core, ps.getD (gh / k) 0, gh % k⟩, gh := gh, gang := key, asn := n.asn, pc := d.entry,
    x := Vector.ofFn fun i : Fin 64 =>
      if 1 ≤ i.val ∧ i.val ≤ 8 then n.args.getD (i.val - 1) 0 else if i.val = 9 then x9 else 0,
    tvec := tvec, split := d.split, cur := d.split, prot := d.prot }

/-- The gang of an index of a node on a core (R14, R33, R200, R261). -/
def newGang (n : Node) (key gidx core : Nat) (ps : List Nat) (tcb : Tcb) (now : DWord) : Gang :=
  { key := key, asn := n.asn, core := core, parts := ps, node := n.id, gidx := gidx, desc := n.desc, tcb := tcb, start := now,
    order := key, tcm := { size := granules n.desc.tcmb }, sp := { size := granules n.desc.spb },
    bars := List.replicate (32 * ps.length) { } }

/-- The gang starts: all its harts become ready at once (R14, R310). -/
def State.startGang (s : State) (n : Node) (gidx core : Nat) (ps : List Nat) : State :=
  let (tcb, s) := s.readTcb n.asn core
  let key := s.startCount + 1
  let tvec := match s.spaceOf n.asn with | some sp => sp.trap | none => 0
  let s := { s with startCount := key
                    gangs := s.gangs ++ [newGang n key gidx core ps tcb s.tstamp]
                    harts := s.harts ++ (List.range n.desc.harts).map (newHart n core ps key tvec) }
  let s := (s.resetCtrs core ps).mapNode n.id fun n => { n with st := .running, toStart := n.toStart.tail, tcb := tcb, req := none }
  if n.st = .ready && tcb.trec then s.emit tcb n.id none 3 9 (n.args.getD 0 0) else s

/-- The gang of this index of the node waits in a save region. -/
def State.isSaved (s : State) (node gidx : Nat) : Bool := s.saved.any fun g => g.gang.node == node && g.gang.gidx == gidx

def execGangStart (node core parts : Nat) (s : State) : Out :=
  let gidx := match s.node node with | some n => n.toStart.headD 0 | none => 0
  match s.mayStart node gidx core (maskParts parts) with
  | none => .next s
  | some (n, r) =>
    if s.isSaved node gidx then .next s
    else .next ({ s with rota := r }.startGang n gidx core (maskParts parts))

/-! ## Copy nodes and aging (R37, R309) -/

/-- A place from which a copy node acts: its launcher's gang and core; a gang that is gone holds nothing (R309). -/
def Node.place (n : Node) : Hart :=
  { id := ⟨n.core, 0, 0⟩, gang := n.gang, asn := n.asn, status := { prv := n.prv } }

/-- A gang that is not resident still names its task, whose other gangs a copy node reaches. -/
def State.withGhost (s : State) (n : Node) : State :=
  if n.gang = 0 || (s.gangOf n.gang).isSome then s
  else { s with gangs := s.gangs ++ [{ key := n.gang, core := noCore, node := n.parent, gidx := 65536 }] }

def State.withoutGhost (s : State) : State := { s with gangs := s.gangs.filter (·.gidx != 65536) }

def Node.copyJob (n : Node) : Option CopyJob :=
  (parseShape n.shape).map fun p =>
    { p := p, seed := n.sseed, base := n.sbase, w := { core := n.core, asn := n.asn, prv := n.prv, task := n.id, intCause := 0x86 }, h := n.place }

/-- A ready copy node runs on a copy engine, and finishes or fails; a job that is stopped starts none (R308, R309, R387). -/
def State.runCopyNode (s : State) (id : Nat) : State :=
  match s.node id with
  | none => s
  | some n =>
    if n.task || n.st ≠ .ready || s.stoppedAs n.asn || s.launchHeld n || !s.powered then s
    else match n.copyJob with
      | none => s
      | some j =>
        match j.finish false (s.withGhost n) with
        | (none, s) => s.withoutGhost
        | (some none, s) => s.withoutGhost.finishNodes [{ id := id, out := .complete }]
        | (some (some (c, a)), s) => s.withoutGhost.finishNodes [{ id := id, out := .failed, code := c, addr := a }]

def execCopyNodeRun (node : Nat) (s : State) : Out := .next (s.runCopyNode node)

/-- A ready task that has waited 2 ms at its priority is promoted (R37). -/
def execTaskAging (node : Nat) (s : State) : Out :=
  .next (s.mapNode node fun n =>
    if n.task && n.st == .ready && 0 < n.prio && n.since.toNat + 2000000 ≤ s.tstamp.toNat then
      { n with prio := n.prio - 1, since := s.tstamp }
    else n)

end Sys2Proof.Machine
end

