-- ==== Sys2Proof/Machine/Dealer.lean ====
section
/-! DEFINITION. The Dealer: requests, victims, discards, saves and restores of teams, `texit.sv`, and `eret` (R102, R320 to R327). -/

namespace Sys2Proof.Machine

/-! ## Teams (R13, R320) -/

def State.teamGangs (s : State) (t : Team) : List Gang :=
  s.gangs.filter fun g => g.node == t.node && g.core == t.core && g.fate == .runs

def State.teamHarts (s : State) (t : Team) : List Hart :=
  let keys := (s.teamGangs t).map (·.key)
  s.allHarts.filter fun h => keys.contains h.gang

def State.teams (s : State) : List Team :=
  ((s.gangs.filter (·.fate == .runs)).map fun g => { node := g.node, core := g.core }).dedup

/-- Parked in `launch` or `twait`. -/
def Hart.inLaunch (h : Hart) : Bool :=
  match h.park with
  | some (.entry _ _ _) | some (.wait (.twait _ _ _) _ _ _) => true
  | _ => false

/-- A team that counts as lower in priority than every waiting task (R320). -/
def State.isLow (s : State) (t : Team) : Bool := !(s.teamHarts t).isEmpty && (s.teamHarts t).all (·.inLaunch)

def State.prioOfTask (s : State) (id : Nat) : Nat := match s.node id with | some n => n.prio | none => 0

/-- The Dealer has already chosen for the team. -/
def State.isBusy (s : State) (t : Team) : Bool :=
  s.saves.any (·.team == t) || (s.teamGangs t).any fun g => s.drains.contains g.key

/-! ## Victims (R321) -/

def State.teamKeys (s : State) (ts : List Team) : List Nat := ts.flatMap fun t => (s.teamGangs t).map (·.key)

/-- Teams that may give way to a node; those already taken, for this request or another, count as gone in the test of a cluster
too. -/
def State.candidates (s : State) (n : Node) : List Team :=
  let cs := s.teams.filter fun t => s.isLow t || n.prio < s.prioOfTask t.node
  cs.filter fun t =>
    let near := s.teamKeys (cs.filter fun u => u.core / 4 == t.core / 4)
    (List.range 4).any fun i => s.fits n.desc near (t.core / 4 * 4 + i)

/-- When a team was last started. -/
def State.startedNo (s : State) (t : Team) : Nat := ((s.teamGangs t).map (·.order)).foldl max 0

/-- Of two victims, the first is taken earlier. -/
def State.before (s : State) (a b : Team) : Bool :=
  if s.isLow a != s.isLow b then s.isLow a
  else if s.prioOfTask a.node != s.prioOfTask b.node then s.prioOfTask b.node < s.prioOfTask a.node
  else s.startedNo b < s.startedNo a

/-- Insertion into a list that is sorted by `lt`. -/
def insertBy {α : Type} (lt : α → α → Bool) (x : α) : List α → List α
  | [] => [x]
  | y :: l => if lt x y then x :: y :: l else y :: insertBy lt x l

def sortBy {α : Type} (lt : α → α → Bool) (l : List α) : List α := l.foldr (insertBy lt) []

/-! ## Choices (R322, R323) -/

inductive Choice where
  | drain | discard | save
  deriving DecidableEq, Repr

/-- The mean resident time of the gangs of a task that ended, less the least of the team's, is within the time left. -/
def State.endsInTime (s : State) (n : Node) (gs : List Gang) (deadline : DWord) : Bool :=
  let run := match gs.map s.residentNs with | [] => 0 | x :: l => l.foldl min x
  n.ended != 0 && s.tstamp.toNat ≤ deadline.toNat && n.endedNs ≤ (run + (deadline.toNat - s.tstamp.toNat)) * n.ended

def State.choice (s : State) (t : Team) (deadline : DWord) (barred : Bool) : Choice :=
  match s.node t.node with
  | none => .drain
  | some n =>
    if s.endsInTime n (s.teamGangs t) deadline then .drain
    else if n.desc.idem then .discard
    else if n.save ≠ 0 && !barred && (s.teamHarts t).all (fun h => h.cur == h.split && h.park != some .away) then .save
    else .drain

/-- Order of the harts of a team on its core (R324). -/
def slotOrder (a b : Hart) : Bool := a.id.part < b.id.part || (a.id.part == b.id.part && a.id.slot < b.id.slot)

/-- The choice for a team takes effect. -/
def State.giveWay (s : State) (t : Team) (deadline : DWord) (waiter : Nat) (barred : Bool) : State :=
  match s.choice t deadline barred with
  | .drain => { s with drains := s.drains ++ s.teamKeys [t] }
  | .discard => s.killGangs (s.teamKeys [t]) .again
  | .save =>
    { s with saves := s.saves ++ [{ team := t, deadline := deadline, waiter := waiter,
                                    order := (sortBy slotOrder (s.teamHarts t)).map (·.id) }] }

/-- Victims are taken in order until what they free lets the gang be placed (R321); a team that gives way already keeps the choice made
for it (log entry 83). -/
def State.takeVictims (s : State) (id : Nat) : List Team → State
  | [] => s
  | t :: l =>
    match s.node id with
    | none => s
    | some n =>
      match n.req with
      | none => s
      | some r =>
        if s.placeable n.desc (s.teamKeys r.taken) then s
        else
          let s := s.mapNode id fun n => { n with req := some { r with taken := r.taken ++ [t] } }
          (if s.isBusy t then s else s.giveWay t r.deadline id (r.barred.contains t)).takeVictims id l

/-- The Dealer serves the request of a node, from the victims there are now; those whose save was abandoned come last, and are not
saved again (R322, R325; log entry 83). -/
def State.dealFor (s : State) (id : Nat) : State :=
  match s.node id with
  | none => s
  | some n =>
    match n.req with
    | none => s
    | some r =>
      let cs := sortBy s.before ((s.candidates n).filter fun t => !r.taken.contains t)
      s.takeVictims id (cs.filter (fun t => !r.barred.contains t) ++ cs.filter r.barred.contains)

/-- The deadline of a request, in ns after now, by priority (R321). -/
def deadlineNs (prio : Nat) : Nat := [10000, 50000, 250000, 1000000].getD prio 1000000

/-- A task whose next gang cannot be placed requests, once no victim of an earlier request of it is resident. -/
def State.request (s : State) (id : Nat) : State :=
  match s.node id with
  | none => s
  | some n =>
    let open_ := match n.req with | some r => !(s.teamKeys r.taken).isEmpty | none => false
    let r : Request := { deadline := s.tstamp + BitVec.ofNat 64 (deadlineNs n.prio) }
    if !s.startable n || !s.powered || s.placeable n.desc [] || open_ || (s.candidates n).isEmpty then s
    else (s.mapNode id fun n => { n with req := some r }).dealFor id

def execDealerRequest (node : Nat) (s : State) : Out := .next (s.request node)

/-! ## The save region (R324, R325) -/

def up64K (n : Nat) : Nat := (n + 65535) / 65536 * 65536

/-- HA and GA of a task. -/
def TaskDesc.hartAreas (d : TaskDesc) : Nat := 262144 * d.harts
def TaskDesc.gangPart (d : TaskDesc) : Nat := 65536 + up64K d.tcmb + up64K d.spb + if d.mat then 1179648 else 0

def Node.gangArea (n : Node) (gidx : Nat) : DWord := n.save + BitVec.ofNat 64 (gidx * (n.desc.hartAreas + n.desc.gangPart))
def Node.hartArea (n : Node) (gidx gh : Nat) : DWord := n.gangArea gidx + BitVec.ofNat 64 (262144 * gh)
def Node.gangBlock (n : Node) (gidx : Nat) : DWord := n.gangArea gidx + BitVec.ofNat 64 n.desc.hartAreas

/-- Writes bytes of the region through the task's translation with supervisor privilege, sector by sector; it says whether a
translation or a permission failed, the frame pool was empty, or the bytes were not taken. -/
def State.saveBytes (w : Who) : List (Nat × Nat) → List (Byte × Bool) → State → Bool × State
  | [], _, s => (true, s)
  | (a, len) :: l, bs, s =>
    let s := match s.translate w a .write with | (.error .wait, s) => s.allCopiesDone | (_, s) => s
    match s.translate w a .write with
    | (.error _, s) => (false, s)
    | (.ok (pa, key), s) =>
      State.saveBytes w l (bs.drop len) ((s.spoil w.asn pa a).writeSector w pa key (BitVec.ofNat 64 a) ((bs.take len).map (·.1)) ((bs.take len).any (·.2)))

def saveWho (n : Node) (core : Nat) : Who := { core := core, asn := n.asn, prv := true }

def State.saveWrite (s : State) (n : Node) (core : Nat) (va : DWord) (bs : List (Byte × Bool)) : Bool × State :=
  State.saveBytes (saveWho n core) (piecesOf va.toNat bs.length) bs s

/-- Writes a block whose layout is not architectural: open bytes. -/
def State.saveOpen (s : State) (n : Node) (core : Nat) (va : DWord) (len : Nat) : Option SaveBlock × State :=
  let (v, s) := s.takeFree
  let (ok, s) := s.saveWrite n core va ((leBytes len v).map (·, false))
  (if ok then some { va := va, len := len, v := v } else none, s)

/-- What reading a block back gives: its bytes as they were written, other bytes, or a failure (R326, R327). -/
inductive ReadBack where
  | same | other | lost
  deriving DecidableEq, Repr

/-- Reads bytes of the region; `none` on a failed translation, an integrity failure or poison. -/
def State.loadBytes (w : Who) : List (Nat × Nat) → State → Option (List Byte) × State
  | [], s => (some [], s)
  | (a, len) :: l, s =>
    match s.translate w a .read with
    | (.error _, s) => (none, s)
    | (.ok (pa, key), s) =>
      match s.loadSector w [] pa len key a with
      | (none, s) => (none, s)
      | (some bs, s) =>
        if bs.any (·.2) then (none, s)
        else match State.loadBytes w l s with
          | (none, s) => (none, s)
          | (some r, s) => (some (bs.map (·.1) ++ r), s)

def State.readBack (s : State) (n : Node) (core : Nat) (b : SaveBlock) : ReadBack × State :=
  match State.loadBytes (saveWho n core) (piecesOf b.va.toNat b.len) s with
  | (none, s) => (.lost, s)
  | (some bs, s) => (if bs = leBytes b.len b.v then .same else .other, s)

/-! ## Saves (R324, R325, R327) -/

def State.mapSave (s : State) (t : Team) (f : SaveOp → SaveOp) : State :=
  { s with saves := s.saves.map fun o => if o.team = t then f o else o }

def State.teamOf (s : State) (h : Hart) : Team := { node := s.taskOf h, core := h.id.core }

/-- A hart of a team whose save is abandoned: a `texit.sv` resumes with 0, an interrupt not yet taken is withdrawn. -/
def Hart.unsave (h : Hart) : Hart :=
  let h := if h.sv = .asked then { h with preempt := none } else h
  match h.park with
  | some (.wait (.texitSv fm d _ _) _ _ _) =>
    { (h.setX d 0) with sv := .none, park := none, pc := h.pc + BitVec.ofNat 64 fm.len }
  | _ => { h with sv := .none }

/-- Parked in `texit.sv`. -/
def Hart.inTexitSv (h : Hart) : Bool :=
  match h.park with
  | some (.wait (.texitSv _ _ _ _) _ _ _) => true
  | _ => false

/-- The save of a team is abandoned, and the Dealer takes the next victim (R325), for every request that counted on the team (R321; log
entry 83). -/
def State.abandonSave (s : State) (t : Team) : State :=
  match s.saves.find? (·.team == t) with
  | none => s
  | some op =>
    let keys := s.teamKeys [t]
    let s := { s with saves := s.saves.filter (·.team != t) }
    let s := (s.allHarts.filter fun h => keys.contains h.gang && h.inTexitSv).foldl (fun s h => s.count h.id.core h.id.part 2 1) s
    let s := s.mapHarts (fun h => h.live && keys.contains h.gang) Hart.unsave
    let ids := (s.nodes.filter fun n => n.req.any (·.taken.contains t)).map (·.id)
    let pass := fun (r : Request) => { r with barred := r.barred ++ [t], taken := r.taken.filter (· != t) }
    let s := { s with nodes := s.nodes.map fun n => if ids.contains n.id then { n with req := n.req.map pass } else n }
    (ids.filter (· == op.waiter) ++ ids.filter (· != op.waiter)).foldl State.dealFor s

/-- The context of a team is lost: every gang of its task ends, and the task finishes (R327). -/
def State.loseTask (s : State) (id : Nat) : State :=
  let s := { s with saves := s.saves.filter (·.team.node != id), saved := s.saved.filter (·.gang.node != id) }
  let s := s.killGangs ((s.gangs.filter (·.node == id)).map (·.key)) .gone
  { s with gangs := s.gangs.filter (·.node != id) }.finishNodes [{ id := id, out := .lost }]

/-- Reading words of local storage met an error that ECC cannot correct. Poison that a program stored is data, and is carried (R230, R327;
log entry 84). -/
def Local.lost (m : Local) (p : Nat → Bool) : Bool := m.ecc.any fun e => p e.word && m.psn.contains e.word

/-- Writes the gang parts of gangs: the blocks, or a failure. -/
def State.saveGangs (s : State) (n : Node) (core : Nat) : List Gang → Option (List (Gang × SaveBlock)) × State
  | [] => (some [], s)
  | g :: l =>
    match s.saveOpen n core (n.gangBlock g.gidx) n.desc.gangPart with
    | (none, s) => (none, s)
    | (some b, s) =>
      match s.saveGangs n core l with
      | (none, s) => (none, s)
      | (some r, s) => (some ((g, b) :: r), s)

/-- The gang of a saved team, with its harts as they stopped. -/
def State.savedGang (s : State) (n : Node) (op : SaveOp) (g : Gang) (b : SaveBlock) : SavedGang :=
  let hs := s.allHarts.filter (·.gang == g.key)
  { gang := { g.turnBars s.clk with ran := s.residentNs g }, harts := hs,
    blocks := b :: op.blocks.filter fun x => hs.any fun h => x.va == n.hartArea g.gidx h.gh + 0x3F800 }

/-- Every hart of the team is saved: its gangs' state is saved and its resources are free (R324 step 3). -/
def State.commitSave (s : State) (op : SaveOp) : State :=
  match s.node op.team.node with
  | none => s
  | some n =>
    let gs := s.teamGangs op.team
    let w := saveWho n op.team.core
    let lost := gs.any fun g => g.tcm.lost (fun _ => true) || g.sp.lost (fun _ => true)
    let s := gs.foldl (fun s g => (s.readEcc w (.tcm g.key) 0 g.tcm.size).readEcc w (.sp g.key) 0 g.sp.size) s
    if lost then s.loseTask n.id
    else match s.saveGangs n op.team.core (s.teamGangs op.team) with
      | (none, s) => s.abandonSave op.team
      | (some bs, s) =>
        let kept := bs.map fun x => s.savedGang n op x.1 x.2
        let s := { s with saves := s.saves.filter (·.team != op.team), saved := s.saved ++ kept }
        -- what the matrix engine held went with the gang part
        let s := gs.foldl (fun s g => s.mapGang g.key fun g => { g with mat := { } }) s
        s.killGangs (gs.map (·.key)) .again

/-- A save goes on: harts that have ended are passed over; with none left to ask and none at work it is committed. -/
def State.checkSave (s : State) (t : Team) : State :=
  match s.saves.find? (·.team == t) with
  | none => s
  | some op =>
    let hs := s.teamHarts t
    let order := op.order.filter fun i => hs.any (·.id == i)
    let s := s.mapSave t fun o => { o with order := order }
    if hs.isEmpty then { s with saves := s.saves.filter (·.team != t) }
    else if order.isEmpty && hs.all (·.sv == .saved) then s.commitSave { op with order := [] }
    else s

/-- Interrupt 0x01 is sent to the next hart of the save that its core works on (R324 step 1). -/
def State.askNext (s : State) (id : HartId) : State :=
  match s.saves.find? (·.team.core == id.core) with
  | none => s
  | some op =>
    let s := s.checkSave op.team
    match s.saves.find? (·.team == op.team) with
    | none => s
    | some op =>
      if op.order.head? ≠ some id || s.allHarts.any fun h => h.id.core == id.core && (h.sv == .asked || h.sv == .lent) then s
      else
        (s.mapSave op.team fun o => { o with order := o.order.tail }).mapHarts
          (fun h => h.live && h.id == id) fun h => { h with sv := .asked, preempt := some op.deadline }

def execPreemptionRequest (h : HartId) (s : State) : Out := .next (s.askNext h)

/-! ## `texit.sv` (R325) -/

def execTexitSv (fm : Form) (d a x : BitVec 6) (s : State) : Out :=
  .next (run (.texitSv fm d a x) (do
    let s ← get
    let h := s.h
    let c := h.getX x
    if h.sv = .saved then throw (.park (.wait (.texitSv fm d a x) 0xE none 0))
    if !h.status.prv || h.sv ≠ .lent then modH fun h => h.setX d 0
    else if c.getLsbD 1 then do
      modify fun s => s.abandonSave (s.teamOf h)
      modH fun h => h.setX d 0
    else do
      settleAll
      throw (.park (.wait (.texitSv fm d a x) 0xE none 0))) s)

/-- Window slots that a `texit.sv` drains. -/
def drainSlots (mask ctl : DWord) : List Nat := (List.range 64).filter fun i => mask.getLsbD i && !(i == 63 && ctl.getLsbD 8)

/-- What a drain comes to: it is done, a write failed, or data of the team was uncorrectable. -/
inductive Drained where
  | done | failed | lost
  deriving DecidableEq, Repr

/-- Drains slots of the save window of a core into a hart area. -/
def State.drainTo (s : State) (n : Node) (core : Nat) (base : DWord) : List Nat → Drained × State
  | [] => (.done, s)
  | i :: l =>
    let off := core * 131072 + 2048 * i
    let bs := s.loadLocal [] .win off 2048
    let lost := s.win.lost fun w => w / 512 == off / 2048
    let s := s.readEcc (saveWho n core) .win off 2048
    if lost then (.lost, s)
    else
      let (ok, s) := s.saveWrite n core (base + BitVec.ofNat 64 (2048 * i)) bs
      if ok then s.drainTo n core base l else (.failed, s)

/-- A hart that goes on after its `texit.sv`. -/
def Hart.drained (h : Hart) (fm : Form) (d : BitVec 6) (v : DWord) : Hart :=
  { (h.setX d v) with park := none, pc := h.pc + BitVec.ofNat 64 fm.len }

/-- The drain of a parked hart ends (R325). -/
def State.drainDone (s : State) (id : HartId) : State :=
  match s.hartAt id with
  | none => s
  | some h =>
    match h.park with
    | some (.wait (.texitSv fm d a x) _ _ _) =>
      if h.sv ≠ .lent then s
      else
        let t := s.teamOf h
        let ctl := h.getX x
        match s.node t.node with
        | none => s
        | some n =>
          let gidx := s.gangidOf h
          let area := n.hartArea gidx h.gh
          match s.drainTo n id.core (if ctl.getLsbD 8 then area + 131072 else area) (drainSlots (h.getX a) ctl) with
          | (.lost, s) => s.loseTask n.id
          | (.failed, s) => s.abandonSave t
          | (.done, s) =>
            if !ctl.getLsbD 0 then
              (s.count id.core id.part 2 1).mapHarts (fun g => g.live && g.id == id) fun g => g.drained fm d 1
            else match s.saveOpen n id.core (area + 0x3F800) 2048 with
              | (none, s) => s.abandonSave t
              | (some b, s) =>
                ((s.mapSave t fun o => { o with blocks := o.blocks ++ [b] }).mapHarts (fun g => g.live && g.id == id) fun g => { g with sv := .saved }).checkSave t
    | _ => s

def execSaveWindowDrainComplete (h : HartId) (s : State) : Out := .next (s.drainDone h)

/-! ## Restores (R296, R326, R327, R376) -/

/-- A command of a saved hart: one that was QUEUED or RUNNING starts again (R296). -/
def CopyCmd.thaw (c : CopyCmd) : CopyCmd :=
  match c.st with
  | .queued | .running => { c with st := .queued, code := 0, addr := 0 }
  | _ => c

/-- The registers of a restored hart, laid over those of a hart that starts (R326). -/
def Hart.restored (fresh h : Hart) (area : DWord) : Hart :=
  let (len, d) := match h.park with | some (.wait (.texitSv fm d _ _) _ _ _) => (fm.len, d) | _ => (0, 0)
  { fresh with
    gang := h.gang, x := (h.setX d area).x, pc := h.pc + BitVec.ofNat 64 len,
    status := { h.status with prv := true }, epc := h.epc, cause := h.cause, tval := h.tval, sscr := h.sscr,
    evtBar := h.evtBar, evtChld := h.evtChld, evtMsg := h.evtMsg, evtCpy := h.evtCpy, emask := h.emask, tcmp := h.tcmp,
    bstat := h.bstat, copies := h.copies.map CopyCmd.thaw, copyCount := h.copyCount,
    arit := h.arit.filter fun l => (match l.own with | .stream _ => false | _ => true),
    async := h.async, note := h.note, undelivered := h.undelivered, watch := h.watch }

/-- Open values out of one. -/
def openNats : Nat → Nat → List Nat
  | 0, _ => []
  | n + 1, v => v.unpair.1 :: openNats n v.unpair.2

/-- A copy command of a region that was written over: some legal one of its handle. -/
def CopyCmd.scrambled (c : CopyCmd) (v : Nat) : CopyCmd :=
  let o := fun i => (openNats 6 v).getD i 0
  let r := leBytes 256 (o 0)
  { c with st := [CopySt.queued, .running, .faulted, .reported].getD (o 1 % 4) .queued, code := o 2 % 256, addr := BitVec.ofNat 64 (o 3),
           sseed := BitVec.ofNat 64 (o 4), sbase := BitVec.ofNat 64 (o 5), record := if (parseShape r).isSome then r else c.record }

/-- A hart whose saved registers and commands were written over: they are undefined (R324). -/
def Hart.scrambled (h : Hart) (v : Nat) : Hart :=
  let o := fun i => (openNats 16 v).getD i 0
  let b := fun i => (o 0).testBit i
  let xs := openNats 64 (o 1)
  let bs := openNats 4 (o 2)
  let cs := openNats h.copies.length (o 3)
  let gone := (h.copies.zip (List.range h.copies.length)).filter fun x => (o 4).testBit x.2
  gone.foldl (fun h x => h.dropCopy x.1.handle)
    { h with x := Vector.ofFn fun i : Fin 64 => BitVec.ofNat 64 (xs.getD i.val 0)
             bstat := Vector.ofFn fun i : Fin 4 => BitVec.ofNat 64 (bs.getD i.val 0)
             status := { nest := b 0, pie := b 1, ie := b 2, pprv := b 3, prv := b 4 }
             cause := { int := b 5, acode := BitVec.ofNat 8 (o 5), code := BitVec.ofNat 8 (o 6) }
             epc := BitVec.ofNat 64 (o 7 % 2 ^ 57 / 4 * 4), tval := BitVec.ofNat 64 (o 8), sscr := BitVec.ofNat 64 (o 9)
             tcmp := BitVec.ofNat 64 (o 10), emask := BitVec.ofNat 6 (o 11)
             evtBar := b 6, evtChld := b 7, evtMsg := b 8, evtCpy := b 9, copyCount := o 12 % 2 ^ 64
             copies := (h.copies.zip cs).map fun x => x.1.scrambled x.2 }

/-- The same for a gang's own state. -/
def Local.scrambled (m : Local) (v : Nat) : Local :=
  { m with cells := ((List.range m.size).map fun i => (i, BitVec.ofNat 8 (v.unpair.1 / 2 ^ (8 * i)))).filter fun c => c.2 != 0
           psn := (List.range (m.size / 4)).filter v.unpair.2.testBit
           ecc := [] }

def Bar.scrambled (v : Nat) : Bar :=
  let o := fun i => (openNats 11 v).getD i 0
  { phase := BitVec.ofNat 32 (o 0), exp := o 1 % 64, arr := o 2 % 64, mask := BitVec.ofNat 32 (o 3), lph := BitVec.ofNat 32 (o 4),
    lgh := o 5 % 32, lts := BitVec.ofNat 64 (o 6), wgh := o 7 % 32, wclk := BitVec.ofNat 64 (o 8), firstGh := o 9 % 32, firstClk := o 10 }

/-- A row of `cols` accumulators of a width. -/
def MRow.scrambled (cols w v : Nat) : MRow :=
  let o := fun i => (openNats 5 v).getD i 0
  { elts := (openNats cols (o 0)).map fun x =>
      { v := (BitVec.ofNat w x.unpair.1).toInt, nar := x.unpair.2.testBit 0
        ovf := if x.unpair.2.testBit 1 then some (x.unpair.2.testBit 2) else none }
    inx := (o 1).testBit 0, psn := (o 2).testBit 0, mmas := o 3 }

/-- A slot of a ring in a state. -/
def MSlot.scrambled (g : Gang) (st : SlotSt) (v : Nat) : MSlot :=
  let o := fun i => (openNats 3 v).getD i 0
  let x : MSlot := { kind := [8, 9, 0x0B].getD (o 0 % 3) 8, anchor := (BitVec.ofNat 16 (o 1)).toInt, st := st }
  if st = .free then x
  else
    let rows := (openNats (matRows x.kind) (o 2)).map (MRow.scrambled (g.cols x.kind) (x.top + 1))
    { x with rows := (List.range rows.length).zip rows }

/-- The matrix engine: a ring that is sealed from its tail up to its head. -/
def Mat.scrambled (m : Mat) (g : Gang) (v : Nat) : Mat :=
  let o := fun i => (openNats 12 v).getD i 0
  let head := BitVec.ofNat 3 (o 0)
  let tail := BitVec.ofNat 3 (o 1)
  let vs := openNats 8 (o 2)
  let cs := openNats m.queue.length (o 3)
  let st := fun (i : Nat) =>
    let p := BitVec.ofNat 3 i - tail
    if p < head - tail then
      if p = 0 && !m.queue.isEmpty && (o 4).testBit 0 then SlotSt.draining else .sealed
    else if p = head - tail && (o 4).testBit 1 then .opened else .free
  { m with tile := BitVec.ofNat 131072 (o 5), tilePsn := BitVec.ofNat 16384 (o 6), scale := BitVec.ofNat 4096 (o 7)
           scalePsn := BitVec.ofNat 512 (o 8), fmt := [8, 9, 0x0B].getD (o 9 % 3) 8, k := 128 / 2 ^ (o 10 % 4)
           head := head, tail := tail, slots := Vector.ofFn fun i : Fin 8 => MSlot.scrambled g (st i.val) (vs.getD i.val 0)
           queue := (m.queue.zip cs).map fun x =>
             { x.1 with seed := BitVec.ofNat 64 x.2.unpair.1, base := BitVec.ofNat 64 x.2.unpair.2.unpair.1
                        bias := openNats x.1.bias.length x.2.unpair.2.unpair.2 } }

def Gang.scrambled (g : Gang) (v : Nat) : Gang :=
  let o := fun i => (openNats 5 v).getD i 0
  { g with tcm := g.tcm.scrambled (o 0), sp := g.sp.scrambled (o 1), bars := (openNats g.bars.length (o 2)).map Bar.scrambled
           gbar := Bar.scrambled (o 3), mat := g.mat.scrambled g (o 4) }

/-- Reads every block of a saved gang back: the worst of what they give. -/
def State.readBlocks (s : State) (n : Node) (core : Nat) : List SaveBlock → ReadBack × State
  | [] => (.same, s)
  | b :: l =>
    match s.readBack n core b with
    | (.lost, s) => (.lost, s)
    | (r, s) =>
      match s.readBlocks n core l with
      | (.lost, s) => (.lost, s)
      | (q, s) => (if r = .other then .other else q, s)

/-- A saved gang takes its place on a core. -/
def State.placeSaved (s : State) (n : Node) (sg : SavedGang) (core : Nat) (ps : List Nat) (open_ : Option Nat) : State :=
  let (tcb, s) := s.readTcb n.asn core
  let no := s.startCount + 1
  let tvec := match s.spaceOf n.asn with | some sp => sp.trap | none => 0
  let g := { sg.gang.turnBars s.clk with core := core, parts := ps, tcb := tcb, start := s.tstamp, order := no }
  let one := fun (h : Hart) => (newHart n core ps g.key tvec h.gh).restored
    (match open_ with | some v => h.scrambled ((openNats 33 v).getD (h.gh + 1) 0) | none => h) (n.hartArea g.gidx h.gh)
  let s := { s with
    startCount := no
    saved := s.saved.filter (·.gang.key != g.key)
    gangs := s.gangs ++ [match open_ with | some v => g.scrambled ((openNats 33 v).getD 0 0) | none => g]
    harts := s.harts ++ sg.harts.map one }
  let s := (s.resetCtrs core ps).mapNode n.id fun n => { n with toStart := n.toStart.tail, tcb := tcb, req := none }
  ps.foldl (fun s p => s.emit tcb n.id none 0xA 9 (BitVec.ofNat 64 (core * 8 + p))) s

def execTeamRestore (node gang core parts : Nat) (s : State) : Out :=
  match s.mayStart node gang core (maskParts parts), s.saved.find? fun g => g.gang.node == node && g.gang.gidx == gang with
  | some (n, r), some sg =>
    match { s with rota := r }.readBlocks n core sg.blocks with
    | (.lost, s) => .next (s.loseTask node)
    | (.same, s) => .next (s.placeSaved n sg core (maskParts parts) none)
    | (.other, s) =>
      let (v, s) := s.takeFree
      .next (s.placeSaved n sg core (maskParts parts) (some v))
  | _, _ => .next s

/-! ## The return from a trap (R102, R324) -/

/-- `eret` is privileged; while the save window is lent to the hart it abandons the save. -/
def execEret (fm : Form) (s : State) : Out :=
  .next (run (.eret fm) (do
    let s ← get
    if !s.h.status.prv then before 3 (word0 (.eret fm))
    if s.h.sv = .lent then modify fun s => s.abandonSave (s.teamOf s.h)
    modify fun s => (s.mapH Hart.leave).finish
    throw .done) s)

end Sys2Proof.Machine
end

