-- ==== Sys2Proof/Machine/Fabric.lean ====
section
/-! DEFINITION. The fabric engine: ports, channels, routes, messages and receive buffers, major 0x30 (R328 to R340, R356), and
device time across the fabric (R385). Channel 2p + v is VC v of port p; channel 24 stands for the send queue. -/

namespace Sys2Proof.Machine

def State.mapFab (s : State) (f : Fabric → Fabric) : State := { s with fab := f s.fab }

def State.mapPort (s : State) (p : Nat) (f : Port → Port) : State := s.mapFab fun x => { x with ports := x.ports.modify p f }

def State.portUp (s : State) (p : Nat) : Bool := (s.fab.ports.getD p { }).up

def State.inOf (s : State) (ch : Nat) : List Item := s.fab.inq.getD ch []
def State.outOf (s : State) (ch : Nat) : List Item := s.fab.outq.getD ch []
def State.setIn (s : State) (ch : Nat) (l : List Item) : State := s.mapFab fun x => { x with inq := x.inq.set ch l }
def State.setOut (s : State) (ch : Nat) (l : List Item) : State := s.mapFab fun x => { x with outq := x.outq.set ch l }

/-! ## Addresses and routes (R330) -/

/-- The device's fabric address. -/
def State.addr (s : State) : Nat := s.man.x + 16 * s.man.y + 256 * s.man.z

/-- Coordinates of a fabric address, of the device, and the extents. -/
def coords (a : Nat) : List Nat := [a % 16, a / 16 % 16, a / 256 % 16]
def Manifest.ext (m : Manifest) : List Nat := [m.ex, m.ey, m.ez]

/-- An address within the extents. -/
def Manifest.holds (m : Manifest) (a : Nat) : Bool := a % 16 < m.ex && a / 16 % 16 < m.ey && a / 256 % 16 < m.ez

/-- The direction k in which a message for `d` leaves, and its virtual channel; `came` is the channel it arrived on. -/
def State.route (s : State) (d : Nat) (came : Option Nat) : Nat × Nat :=
  let c := coords s.addr
  let t := coords d
  let dim := if c.getD 0 0 != t.getD 0 0 then 0 else if c.getD 1 0 != t.getD 1 0 then 1 else 2
  let e := max 1 (s.man.ext.getD dim 1)
  let a := c.getD dim 0
  let b := t.getD dim 0
  let up := (b + e - a % e) % e ≤ (a + e - b % e) % e
  let vc := match came with
    | none => 0
    | some ch => if ch / 8 = dim ∧ (ch % 2 = 1 ∨ a = (if up then 0 else e - 1)) then 1 else 0
  (2 * dim + if up then 0 else 1, vc)

/-- The port of a direction that a message for `d` takes; `none` when both are down. -/
def State.portFor (s : State) (k d : Nat) : Option Nat :=
  let p := 2 * k + (coords d).sum % 2
  let o := 2 * k + (1 - (coords d).sum % 2)
  if s.portUp p then some p else if s.portUp o then some o else none

/-! ## Messages (R332, R335, R340) -/

/-- Payload bytes of a message (R332). -/
def Msg.size (m : Msg) : Nat := 40 + 8 * m.pairs.length

/-- A message of a hart of this device no longer awaits delivery. -/
def Hart.oneLess (h : Hart) : Hart := { h with undelivered := h.undelivered - 1 }

def State.ackTo (s : State) (gang gh : Nat) : State :=
  let mine := fun (h : Hart) => h.gang == gang && h.gh == gh
  (s.mapHarts (fun h => h.live && mine h) Hart.oneLess).mapSaved mine Hart.oneLess

/-- A message has been delivered. -/
def State.msgDone (s : State) (m : Msg) : State := match m.sender with | some (g, i) => s.ackTo g i | none => s

/-- A message is discarded: counted, and logged under a kind (R328, R330, R335). It is never delivered (R340; log entry 52). -/
def State.discardMsg (s : State) (port : Option Nat) (kind : Nat) (m : Msg) : State :=
  let s := match port with | some p => s.mapPort p fun x => { x with refused := x.refused + 1 } | none => s
  (s.countAll 0x0D 1).logAt { asn := m.asn } kind 0 10 0 m.va.toNat 0 0

/-- A receive-buffer record (R333); `none` when it is malformed. -/
structure RxRec where
  slots : Nat
  nslot : Nat
  slg : Nat
  head : DWord
  tail : DWord
  trunc : DWord
  deriving DecidableEq, Repr

def parseRx (r : List Byte) : Option RxRec :=
  let w := recWord r 8
  let x : RxRec := { slots := recWord r 0, nslot := bits w 16 16, slg := bits w 0 5, head := BitVec.ofNat 64 (recWord r 16),
                     tail := BitVec.ofNat 64 (recWord r 24), trunc := BitVec.ofNat 64 (recWord r 32) }
  if bits w 32 32 == 0 && bits w 5 11 == 0 && (r.drop 40).all (· == 0) && x.nslot != 0 && 7 ≤ x.slg && x.slg ≤ 13 &&
      x.slots % 2 ^ x.slg == 0 then some x
  else none

/-- Virtual address of the slot of a message count, and the pairs it holds. -/
def RxRec.slotVa (x : RxRec) (n : DWord) : Nat := (x.slots + n.toNat % x.nslot * 2 ^ x.slg) % 2 ^ 64
def RxRec.cap (x : RxRec) : Nat := (2 ^ x.slg - 16) / 8

/-- A buffer is in use from here on, where it was not (R334). -/
def State.useRx (s : State) (pa asn : Nat) (x : RxRec) : State :=
  if s.fab.rx.any (·.sec == pa / 64) then s
  else s.mapFab fun f => { f with rx := f.rx ++ [{ sec := pa / 64, asn := asn, lo := x.slots, hi := x.slots + x.nslot * 2 ^ x.slg }] }

def State.rxBad (s : State) (pa : Nat) : Bool := s.fab.rx.any fun r => r.sec == pa / 64 && r.bad

/-- The counts of a buffer that an ordinary store has reached are open (R334). -/
def State.openRx (s : State) (pa : Nat) (x : RxRec) : RxRec × State :=
  if s.rxBad pa then
    let (v, s) := s.takeFree
    ({ x with head := BitVec.ofNat 64 v, tail := BitVec.ofNat 64 (v / 2 ^ 64), trunc := BitVec.ofNat 64 (v / 2 ^ 128) }, s)
  else (x, s)

/-- Writes bytes of one page for the device, cut at sectors, of which `psn` lists those written as poison; nothing of it is an ordinary
store. -/
def State.devWrite (s : State) (w : Who) (pa key : Nat) (va : DWord) (bs : List Byte) (psn : List Nat := []) : State :=
  ((piecesOf pa bs.length).foldl (fun (a : State × List Byte) x =>
    (a.1.writeSector w x.1 key (va + BitVec.ofNat 64 (x.1 - pa)) (a.2.take x.2) (psn.contains (x.1 / 64)), a.2.drop x.2)) (s, bs)).1

/-- Where a part of a receive buffer lies, once it is found readable and writable with KEY ≠ 0 (R335); no write is made yet. -/
def State.rxFind (s : State) (w : Who) (va : Nat) : Except Denied (Nat × Nat) × State :=
  match s.find w va .read with
  | (.error d, s) => (.error d, s)
  | (.ok (_, pa, k), s) =>
    if k = 0 then (.error (.cause 0x25), s)
    else match s.probe w va .write with
      | (0, s) => (.ok (pa, k), s)
      | (c, s) => (.error (.cause c), s)

/-- An instruction of the hart in focus names a buffer: what it wrote to the slots before comes before, and the buffer is in use
(R334). -/
def State.nameRx (s : State) (pa asn : Nat) (x : RxRec) : State :=
  if s.fab.rx.any (·.sec == pa / 64) then s
  else
    (s.flushFor fun p => p.space == .glob && decide (x.slots ≤ p.va.toNat) && decide (p.va.toNat < x.slots + x.nslot * 2 ^ x.slg)).useRx pa asn x

/-- The record of a buffer of an address space, where one stands. -/
def State.rxAt (s : State) (asn : Nat) (va : DWord) : Option (Nat × RxRec) :=
  let w : Who := { core := noCore, asn := asn }
  match s.rxFind w va.toNat with
  | (.ok (pa, key), t) =>
    match (t.loadPlain w [] pa 64 key va.toNat).1 with
    | some bs => if bs.any (·.2) then none else (parseRx (bs.map (·.1))).map fun x => (pa, x)
    | none => none
  | (.error _, _) => none

/-- A `dsend` that is accepted names its buffer, when that is on this device: the hart's writes that create it come before (R334). -/
def State.sendNames (s : State) (m : Msg) : State :=
  if m.dev ≠ s.addr then s
  else
    let s := match (s.rxFind { core := noCore, asn := m.asn } m.va.toNat).1 with
      | .ok (pa, _) => s.flushFor fun (p : PWrite) => p.space == Space.glob && p.addr / 64 == pa / 64
      | .error _ => s
    match s.rxAt m.asn m.va with
    | some (pa, x) => s.nameRx pa m.asn x
    | none => s

/-- A message for this device that arrives was sent: its buffer is named (R334). -/
def State.arrivalNames (s : State) (m : Msg) : State :=
  if m.dev ≠ s.addr then s
  else match s.rxAt m.asn m.va with
    | some (pa, x) => s.useRx pa m.asn x
    | none => s

/-- The message stands in its slot: open bytes in memory, poison in a sector for each poisoned value, and the message beside them (R333,
R335). -/
def State.putSlot (s : State) (w : Who) (m : Msg) (x : RxRec) (rpa pa key : Nat) (va : DWord) : State :=
  let (v, s) := s.takeFree
  let len := 2 ^ x.slg
  let ps := m.pairs.take x.cap
  let psn := (((List.range ps.length).zip ps).filter (·.2.vp)).map fun y => pa / 64 + v / 2 ^ (8 * len + 8 * y.1) % (len / 64)
  let e : SlotMsg := { pa := pa, len := len, v := v, psn := psn, pairs := ps, tag := m.tag, trunc := x.cap < m.pairs.length,
                       rx := rpa / 64 }
  (s.devWrite w pa key va (leBytes len v) psn).mapFab fun f => { f with slots := e :: f.slots.filter fun y => y.pa != pa }

/-- What a delivery comes to. -/
inductive Delivery where
  | waits | refused | discarded
  | ok (rpa rkey : Nat) (x : RxRec) (spa skey : Nat)
  deriving DecidableEq, Repr

/-- The checks of a delivery, and then the translations of its writes (R335, R347, R348). -/
def State.rxCheck (s : State) (w : Who) (m : Msg) : Delivery × State :=
  match s.rxFind w m.va.toNat with
  | (.error _, s) => (.refused, s)
  | (.ok (rpa, rkey), s) =>
    match s.loadPlain w [] rpa 64 rkey m.va.toNat with
    | (none, s) => (.refused, s)
    | (some bs, s) =>
      if bs.any (·.2) then (.refused, s)
      else match parseRx (bs.map (·.1)) with
        | none => (.refused, s)
        | some x =>
          let (x, s) := s.openRx rpa x
          match s.rxFind w (x.slotVa x.tail) with
          | (.error _, s) => (.refused, s)
          | (.ok (spa, skey), s) =>
            if (x.tail - x.head).toNat = x.nslot then (.waits, s)
            else if s.quar.contains (spa / 65536) then (.discarded, s.logAt w 0xA 0 0 spa (x.slotVa x.tail) skey 0)
            else match s.translateHw w m.va.toNat with
              | (.error _, s) => (.waits, s)
              | (.ok _, s) =>
                match s.translateHw w (x.slotVa x.tail) with
                | (.error _, s) => (.waits, s)
                | (.ok _, s) => (.ok rpa rkey x spa skey, s)

/-- Age of an epoch against the device's: equal, newer, or older by serial numbers (R356). -/
def epochDiff (m d : Nat) : Nat := (m + 65536 - d % 65536) % 65536

/-- Delivery of a message at its destination: `false` while it waits and holds its channel (R335, R356). -/
def State.deliver (s : State) (port : Option Nat) (m : Msg) : Bool × State :=
  let d := epochDiff m.epoch (s.job m.asn).epoch
  if 32768 ≤ d then (true, s.countAll 0x0D 1)
  else if d ≠ 0 then (false, s)
  else if (s.spaceOf m.asn).isNone then (true, s.discardMsg port 7 m)
  else
    let w : Who := { core := noCore, asn := m.asn }
    match s.rxCheck w m with
    | (.waits, s) => (false, s)
    | (.refused, s) => (true, s.discardMsg port 7 m)
    | (.discarded, s) => (true, s)
    | (.ok rpa rkey x spa skey, s) =>
      let s := (s.useRx rpa m.asn x).putSlot w m x rpa spa skey (BitVec.ofNat 64 (x.slotVa x.tail))
      let t := if x.cap < m.pairs.length then x.trunc + 1 else x.trunc
      let s := s.devWrite w (rpa + 24) rkey (m.va + 24) (leBytes 8 (x.tail + 1).toNat ++ leBytes 8 t.toNat)
      (true, (s.mapHarts (fun h => h.live && h.watch == some rpa) fun h => { h with evtMsg := true }).msgDone m)

/-! ## Moves of messages -/

/-- The message at the head of a channel; of the send queue, the first that is for this device, or the first that is not. -/
def State.headMsg (s : State) (ch : Nat) (here : Bool) : Option Msg :=
  if ch = 24 then s.fab.sendq.find? fun m => (m.dev == s.addr) == here
  else match s.inOf ch with
    | .msg m :: _ => if (m.dev == s.addr) == here then some m else none
    | _ => none

def State.dropHead (s : State) (ch : Nat) (m : Msg) : State :=
  if ch = 24 then s.mapFab fun x => { x with sendq := x.sendq.erase m } else s.setIn ch (s.inOf ch).tail

def execMessageDelivery (ch : Nat) (s : State) : Out :=
  match s.headMsg ch true with
  | none => .next s
  | some m =>
    let (gone, s) := s.deliver (if ch < 24 then some (ch / 2) else none) m
    .next (if gone then s.dropHead ch m else s)

/-- A message goes on its way (R330); with no port up in its direction it is lost. -/
def State.forward (s : State) (came : Option Nat) (m : Msg) : State :=
  let (k, vc) := s.route m.dev came
  match s.portFor k m.dev with
  | none => s.discardMsg (some (2 * k + (coords m.dev).sum % 2)) 0xC m
  | some p => s.setOut (2 * p + vc) (s.outOf (2 * p + vc) ++ [.msg m])

def execMessageForward (ch : Nat) (s : State) : Out :=
  .next (match s.headMsg ch false with
    | none => s
    | some m => (s.dropHead ch m).forward (if ch < 24 then some ch else none) m)

/-- Payload bytes pass on a port, with wire bytes of an open number (R331, R381). -/
def State.countBytes (s : State) (p pay : Nat) (sent : Bool) : State :=
  let (w, s) := s.takeFree
  let k := if sent then 0 else 2
  let s := (s.countAll (0x40 + 4 * p + k) pay).countAll (0x41 + 4 * p + k) w
  let a := BitVec.ofNat 64 pay
  let b := BitVec.ofNat 64 w
  s.mapPort p fun x =>
    if sent then { x with sentPay := x.sentPay + a, sentWire := x.sentWire + b }
    else { x with recvPay := x.recvPay + a, recvWire := x.recvWire + b }

/-- An item passes on a port: the payload of a message is as R332 gives, a marker has none. -/
def State.countPort (s : State) (p : Nat) (x : Item) (sent : Bool) : State :=
  s.countBytes p (match x with | .msg m => m.size | .marker .. => 0) sent

/-- A marker of a job's snapshot waits in a channel. -/
def hasMarker (asn num : Nat) (l : List Item) : Bool :=
  l.any fun x => match x with | .marker a n _ => a == asn && n == num | .msg _ => false

/-- A message that arrives on a channel that is being recorded is channel state (R346). -/
def State.recordArrival (s : State) (ch : Nat) (m : Msg) : State :=
  let j := s.job m.asn
  match j.prog with
  | none => s
  | some x =>
    if x.st == .recording && x.wait.contains ch && !hasMarker m.asn x.num (s.inOf ch) then
      s.setJob { j with prog := some { x with chan := x.chan ++ [(ch, m)] } }
    else s

/-- A whole message or a marker arrives over a link that is up. -/
def State.arriveItem (s : State) (ch : Nat) (x : Item) : State :=
  if !s.portUp (ch / 2) || 24 ≤ ch then s
  else
    let s := s.countPort (ch / 2) x false
    let s := match x with | .msg m => (s.recordArrival ch m).arrivalNames m | .marker .. => s
    s.setIn ch (s.inOf ch ++ [x])

/-- The first item of an outgoing channel leaves over the link. -/
def State.departItem (s : State) (ch : Nat) : State :=
  match s.outOf ch with
  | [] => s
  | x :: l => if s.portUp (ch / 2) then (s.setOut ch l).countPort (ch / 2) x true else s

/-! ## `dsend`, `drecv` (R336 to R340) -/

/-- Bits [5:0] and [63:57] of a buffer address must be zero. -/
def badBuffer (x : DWord) : Bool := x.toNat % 64 != 0 || 2 ^ 57 ≤ x.toNat

def execDsend (fm : Form) (f : BitVec 4) (v m : BitVec 6) (s : State) : Out :=
  .next (run (.dsend fm f v m) (do
    checkNamed (.dsend fm f v m)
    let s ← get
    let xv := s.h.getX v
    let xm := s.h.getX m
    if bits xv.toNat 12 20 != 0 || !s.man.holds (bits xv.toNat 0 12) then before 0xB1 xv
    if badBuffer xm then before 0xB1 xm
    let ps := s.h.getF f
    if ps.any (·.cp) then (squash 0x40 0 : M Unit)
    if Config.sendQueueDepth ≤ s.fab.sendq.length then throw (.stall 2)
    let x : Msg := { pairs := ps, tag := xv.extractLsb' 32 32, dev := bits xv.toNat 0 12, va := xm, asn := s.h.asn,
                     epoch := (s.job s.h.asn).epoch, sender := some (s.h.gang, s.h.gh) }
    modify fun s => ((s.mapFab fun y => { y with sendq := y.sendq ++ [x] }).count s.h.id.core s.h.id.part 0x0C 1).sendNames x
    modH fun h => { h with undelivered := h.undelivered + 1 }) s)

/-- The record of a buffer, read through the hart's translation for reading and writing (R338): its place, key and fields. Writes of the
hart to it that are on their way perform first: among them are those that create it (R334). -/
def rxRecord (xm : DWord) : M (Nat × Nat × RxRec) := do
  let w := { (← whoM) with psnCause := 0x41 }
  match ← translateM xm 64 .read .before 0 (some w) with
  | (pa, key, _) :: _ => do
    let (c, s) := (← get).probe w xm.toNat .write
    set s
    if c ≠ 0 then (denied .before 0 xm (.cause c) : M Unit)
    modify fun s => s.flushFor fun p => p.space == .glob && p.addr / 64 == pa / 64
    let (r, s) := (← get).loadPlain w [] pa 64 key xm.toNat
    set s
    match r with
    | none => squash 0x44 xm
    | some bs => do
      if bs.any (·.2) then (squash 0x41 xm : M Unit)
      match parseRx (bs.map (·.1)) with
      | none => before 0xB3 xm
      | some x => do
        let (x, s) := (← get).openRx pa x
        set s
        return (pa, key, x)
  | [] => before 0xB3 xm

/-- A message that a store by software has made undefined (R334). -/
def openMsg (v cap pa : Nat) : SlotMsg :=
  let n := v % (cap + 1)
  { pa := pa, len := 0, v := v, tag := BitVec.ofNat 32 (v / 2 ^ 16), trunc := v.testBit 48,
    pairs := (List.range n).map fun i => { crd := BitVec.ofNat 32 (v / 2 ^ (64 + 64 * i) % (2 ^ 32 - 1)), val := BitVec.ofNat 32 (v / 2 ^ (96 + 64 * i)) } }

/-- Sectors of a slot that were not written as poison have met an error: which of the coordinates and values it reaches is open. -/
def SlotMsg.hit (e : SlotMsg) (v : Nat) : SlotMsg :=
  { e with pairs := ((List.range e.pairs.length).zip e.pairs).map fun (i, p) =>
      { p with cp := p.cp || v.testBit (2 * i), vp := p.vp || v.testBit (2 * i + 1) } }

/-- The message in a slot: as delivered, with poison from memory, or undefined (R334, R338). -/
def takeSlot (rpa : Nat) (x : RxRec) (cap : Nat) : M SlotMsg := do
  let w := { (← whoM) with psnCause := 0 }
  let va := BitVec.ofNat 64 (x.slotVa x.head)
  let (pa, key, _) := (← translateM va (2 ^ x.slg) .read .before 0 (some w)).headD (0, 0, 0)
  let bs ← (piecesOf pa (2 ^ x.slg)).mapM fun (a, len) => do
    let (r, s) := (← get).loadPlain w [] a len key va.toNat
    set s
    match r with
    | none => squash 0x44 va
    | some l => return (a / 64, l)
  let s ← get
  let bad := (bs.filter fun y => y.2.any (·.2)).map (·.1)
  let same := fun (e : SlotMsg) => (bs.zip ((piecesOf pa (2 ^ x.slg)).map (·.1))).all fun y =>
    bad.contains y.1.1 || ((List.range y.1.2.length).map fun i => BitVec.ofNat 8 (e.v / 2 ^ (8 * (y.2 - pa + i)))) == y.1.2.map (·.1)
  match s.fab.slots.find? fun e => e.pa == pa && e.len == 2 ^ x.slg && same e with
  | some e => do
    if s.rxBad rpa then return openMsg (← takeFreeM) cap pa
    if bad.all e.psn.contains then return e
    return e.hit (← takeFreeM)
  | none => do
    let e := openMsg (← takeFreeM) cap pa
    if bad.isEmpty then return e
    return e.hit (← takeFreeM)

/-- The result of a `drecv` (R338). -/
def recvWord (e : SlotMsg) : DWord := BitVec.ofNat 64 (e.trunc.toNat * 2 ^ 62 + e.pairs.length * 2 ^ 32 + e.tag.toNat)

def drecvBody (i : Instr) (f : BitVec 4) (m d : BitVec 6) (try_ : Bool) : M Unit := do
  checkNamed i
  let xm := (← getH).getX m
  if badBuffer xm then before 0xB1 xm
  let (rpa, rkey, x) ← rxRecord xm
  modH fun h => { h with watch := some rpa }
  modify fun s => s.nameRx rpa s.h.asn x
  if x.head = x.tail then
    if try_ then modH fun h => h.setX d (BitVec.ofNat 64 (2 ^ 63)) else throw (.park (.wait i 9 none 0))
  else do
    let h ← getH
    let cap := h.cap
    let e ← takeSlot rpa x cap
    if cap < e.pairs.length then before 0xB2 (BitVec.ofNat 64 e.pairs.length)
    if !h.status.prv && e.pairs.any (·.cp) then (squash 0x40 (BitVec.ofNat 64 (x.slotVa x.head)) : M Unit)
    let _ ← translateM xm 64 .write .before
    let w ← whoM
    modify fun s => s.devWrite { w with task := 0 } (rpa + 16) rkey (xm + 16) (leBytes 8 (x.head + 1).toNat)
    modH fun h => (h.putF f e.pairs).setX d (recvWord e)

def execDrecv (fm : Form) (f : BitVec 4) (m d : BitVec 6) (s : State) : Out :=
  .next (run (.drecv fm f m d) (drecvBody (.drecv fm f m d) f m d false) s)
def execDrecvTry (fm : Form) (f : BitVec 4) (m d : BitVec 6) (s : State) : Out :=
  .next (run (.drecvTry fm f m d) (drecvBody (.drecvTry fm f m d) f m d true) s)

/-! ## Device time across the fabric (R385) -/

/-- A beat or an exchange tells device time how far it is from fabric time; ticks remove the offset. -/
def State.discipline (s : State) (ns : DWord) (bound : Word) : State :=
  s.mapFab fun x => { x with offset := (ns.toNat : Int) - s.tstamp.toNat, bound := bound }

def execTimeSyncBeat (ns : DWord) (bound : Word) (s : State) : Out := .next (s.discipline ns bound)
def execPrecisionTimeProtocol (ns : DWord) (bound : Word) (lock : Bool) (s : State) : Out :=
  .next ((s.discipline ns bound).mapFab fun x => { x with lock := lock })

/-- Time passes: device time runs off by at most 200 ppm while an offset is removed, and never back (R385). -/
def State.tick (s : State) (c : Nat) (n : DWord) : State :=
  let most : Int := n.toNat * 200 / 1000000
  let corr := max (-most) (min most s.fab.offset)
  let s := s.countClks c
  let s := { s with clk := s.clk + c, tstamp := BitVec.ofNat 64 (min (2 ^ 64 - 1) ((s.tstamp.toNat + n.toNat + corr).toNat)) }
  s.mapFab fun x => { x with offset := x.offset - corr }

end Sys2Proof.Machine
end

