-- ==== Sys2Proof/Machine/Shake.lean ====
section
/-! DEFINITION. SHAKE256 (R350, R373), a function that the manual names and FIPS 202 defines (log entry 28). -/

namespace Sys2Proof.Machine

/-- The sponge's state: five sheets of five lanes; lane (x, y) is the y-th of sheet x. -/
abbrev Sheets := List (List DWord)

def laneAt (a : Sheets) (x y : Nat) : DWord := (a.getD (x % 5) []).getD y 0

/-- θ: each lane takes in the parities of two neighbouring sheets. -/
def mixColumns (a : Sheets) : Sheets :=
  let parity := a.map fun sheet => sheet.foldl (· ^^^ ·) 0
  let near := fun k => parity.getD (k % 5) 0
  a.mapIdx fun x sheet => sheet.map (· ^^^ near (x + 4) ^^^ (near (x + 1)).rotateLeft 1)

/-- ρ and π as one walk over the lanes other than (0, 0): step t turns a lane by a triangular number and puts it where the walk goes
next. -/
def walkLanes (a : Sheets) : Sheets :=
  ((List.range 24).foldl (fun (b : Sheets × Nat × Nat) t =>
    let (x, y) := b.2
    let dst := (y, (2 * x + 3 * y) % 5)
    (b.1.modify dst.1 fun sheet => sheet.set dst.2 ((laneAt a x y).rotateLeft ((t + 1) * (t + 2) / 2 % 64)), dst)) (a, 1, 0)).1

/-- χ: the only step that is not linear. -/
def bendRows (a : Sheets) : Sheets :=
  a.mapIdx fun x sheet => sheet.mapIdx fun y v => v ^^^ (~~~laneAt a (x + 1) y &&& laneAt a (x + 2) y)

/-- The feedback register behind the constants of ι after t steps. -/
def feedback : Nat → Nat
  | 0 => 1
  | t + 1 => if 2 * feedback t < 256 then 2 * feedback t else 2 * feedback t ^^^ 0x171

/-- The constant of round i: its bit 2^j − 1 is a bit of the register. -/
def roundWord (i : Nat) : DWord :=
  BitVec.ofNat 64 ((List.range 7).map fun j => feedback (7 * i + j) % 2 * 2 ^ (2 ^ j - 1)).sum

def sheetRound (a : Sheets) (i : Nat) : Sheets :=
  (bendRows (walkLanes (mixColumns a))).modify 0 fun sheet => sheet.modify 0 (· ^^^ roundWord i)

/-- The rate of SHAKE256, in bytes: 17 lanes. -/
def shakeRate : Nat := 136

/-- A block enters the state lane by lane, lane (x, y) being number x + 5y, and 24 rounds follow. -/
def absorbBlock (a : Sheets) (blk : List Byte) : Sheets :=
  let word := fun k => if 8 * k < shakeRate then BitVec.ofNat 64 (leNat ((blk.drop (8 * k)).take 8)) else 0
  (List.range 24).foldl sheetRound (a.mapIdx fun x sheet => sheet.mapIdx fun y v => v ^^^ word (x + 5 * y))

/-- A message with the suffix of its function and padding: a multiple of the rate. -/
def spongePad (suffix : Byte) (l : List Byte) : List Byte :=
  let gap := shakeRate - l.length % shakeRate
  l ++ if gap = 1 then [suffix ^^^ 0x80] else suffix :: List.replicate (gap - 2) 0 ++ [0x80]

/-- The first n bytes of the sponge's output, at most one block. -/
def sponge (suffix : Byte) (n : Nat) (l : List Byte) : List Byte :=
  let m := spongePad suffix l
  let a := (List.range (m.length / shakeRate)).foldl (fun a k => absorbBlock a ((m.drop (shakeRate * k)).take shakeRate))
    (List.replicate 5 (List.replicate 5 (0 : DWord)) : Sheets)
  ((List.range 17).flatMap fun k => leBytes 8 (laneAt a (k % 5) (k / 5)).toNat).take n

/-- SHAKE256 with 32 bytes of output. -/
def shake256 (l : List Byte) : List Byte := sponge 0x1F 32 l

end Sys2Proof.Machine
end

