-- ==== Sys2Proof/Machine/Cipher.lean ====
section
/-! DEFINITION. AES-256 in counter mode and KMAC256 (R359, R360): functions that the manual names, FIPS 197 and SP 800-185 define (log
entry 28). -/

namespace Sys2Proof.Machine

/-! ## AES-256 -/

/-- The field of 256 elements: product with x, and product by repeated doubling. -/
def gfDouble (a : Byte) : Byte := (a <<< 1) ^^^ (if a.getLsbD 7 then 0x1B else 0)

def gfMul (a b : Byte) : Byte :=
  ((List.range 8).foldl (fun (r : Byte × Byte) i => (if b.getLsbD i then r.1 ^^^ r.2 else r.1, gfDouble r.2)) (0, a)).1

/-- The inverse, as the 254th power. -/
def gfInv (a : Byte) : Byte :=
  let p := (List.range 6).foldl (fun r _ => gfMul (gfMul r r) a) a
  gfMul p p

/-- The substitution of a byte. -/
def aesSub (a : Byte) : Byte :=
  let v := gfInv a
  (List.range 5).foldl (fun r i => r ^^^ v.rotateLeft i) 0x63

/-- A key or a state is a list of columns of four bytes. -/
abbrev Column := List Byte

def xorColumn (a b : Column) : Column := a.zipWith (· ^^^ ·) b

/-- The 60 columns of the key schedule from the eight of the key: those last made, newest first. -/
def aesSchedule : Nat → List Column → List Column
  | 0, ks => ks
  | n + 1, ks =>
    let i := ks.length
    let t := ks.headD []
    let t := if i % 8 = 0 then
        xorColumn ((t.rotate 1).map aesSub) [(List.range (i / 8 - 1)).foldl (fun r _ => gfDouble r) 1, 0, 0, 0]
      else if i % 8 = 4 then t.map aesSub else t
    aesSchedule n (xorColumn t (ks.getD 7 []) :: ks)

/-- The round keys, four columns each. -/
def aesKeys (key : List Byte) : List (List Column) :=
  let ks := (aesSchedule 52 ((List.range 8).map fun i => (key.drop (4 * i)).take 4).reverse).reverse
  (List.range 15).map fun r => (ks.drop (4 * r)).take 4

/-- Rows turn: byte r of column c comes from column c + r. -/
def aesShift (s : List Column) : List Column :=
  (List.range 4).map fun c => (List.range 4).map fun r => (s.getD ((c + r) % 4) []).getD r 0

/-- A column is mixed. -/
def aesMix (a : Column) : Column :=
  (List.range 4).map fun r =>
    let b := fun i => a.getD ((r + i) % 4) 0
    gfDouble (b 0) ^^^ gfDouble (b 1) ^^^ b 1 ^^^ b 2 ^^^ b 3

/-- One block of 16 bytes under a key of 32. -/
def aes256 (key block : List Byte) : List Byte :=
  let ks := aesKeys key
  let add := fun (s : List Column) r => s.zipWith xorColumn (ks.getD r [])
  let sub := fun (s : List Column) => aesShift (s.map (·.map aesSub))
  let s := add ((List.range 4).map fun i => (block.drop (4 * i)).take 4) 0
  let s := (List.range 13).foldl (fun s r => add ((sub s).map aesMix) (r + 1)) s
  (add (sub s) 14).flatten

/-! ## KMAC256 -/

/-- A number on as few bytes as hold it, the most significant first. -/
def fewBytes (n : Nat) : List Byte :=
  let k := max 1 ((Nat.log2 n + 8) / 8)
  (leBytes k n).reverse

def leftEncode (n : Nat) : List Byte := BitVec.ofNat 8 (fewBytes n).length :: fewBytes n
def rightEncode (n : Nat) : List Byte := fewBytes n ++ [BitVec.ofNat 8 (fewBytes n).length]

/-- A string with its length in bits before it. -/
def encodeString (l : List Byte) : List Byte := leftEncode (8 * l.length) ++ l

/-- Strings made a multiple of the rate long. -/
def bytePad (l : List Byte) : List Byte :=
  let m := leftEncode shakeRate ++ l
  m ++ List.replicate ((shakeRate - m.length % shakeRate) % shakeRate) 0

/-- KMAC256 without customization: n bytes of output. -/
def kmac256 (n : Nat) (key msg : List Byte) : List Byte :=
  let name : List Byte := [0x4B, 0x4D, 0x41, 0x43]
  sponge 0x04 n (bytePad (encodeString name ++ encodeString []) ++ bytePad (encodeString key) ++ msg ++ rightEncode (8 * n))

end Sys2Proof.Machine
end

