-- ==== Sys2Proof/Machine/Telemark.lean ====
section
/-! DEFINITION. Telemark snapshots and rollback: major 0x31, markers, links, and the copies of blocks (R341 to R356). -/

namespace Sys2Proof.Machine

/-! ## Shared pages (R347) -/

/-- The entries of a table from its `k`-th sector on, `n` sectors of eight, read as the walker reads them (R134, R364); of a sector that cannot
be read none (log entry 71). -/
def State.tableEntries (s : State) (t k : Nat) : Nat → List (Nat × Nat) × State
  | 0 => ([], s)
  | n + 1 =>
    let pa := t + 64 * k
    let (r, s) := s.readSector ({ } : Who).walker (pa / 64) (s.region (pa / 4096)).kidx 0
    let es := match r with
      | .data | .zeros => ((List.range 8).map fun i => (8 * k + i, s.rawRead (pa + 8 * i) 8)).filter fun e => pteV e.2
      | .poison | .integrity => []
    let (l, s) := s.tableEntries t (k + 1) n
    (es ++ l, s)

/-- Valid leaves below a table with W = 1 and KEY ≠ 0, in ascending address order. -/
def State.leavesAt (s : State) : List Nat → Nat → Nat → List JobLeaf × State
  | [], _, _ => ([], s)
  | lvl :: ls, t, va =>
    let (es, s) := s.tableEntries t 0 (if lvl = 0 then 4 else 64)
    es.foldl (fun (a : List JobLeaf × State) e =>
      let s := a.2
      let at_ := va + e.1 * leafSize lvl
      if s.malformed e.2 lvl then a
      else if pteLeaf e.2 then
        (if flag e.2 3 && leafKey e.2 != 0 then
          a.1 ++ [{ pte := t + 8 * e.1, va := at_, pa := leafFrame e.2, size := leafSize lvl, key := leafKey e.2 }] else a.1, s)
      else
        let (l, s) := s.leavesAt ls (pteNext e.2) at_
        (a.1 ++ l, s)) ([], s)

/-- The leaves of a job that its instant shares. -/
def State.jobLeaves (s : State) (asn : Nat) : List JobLeaf × State :=
  match s.spaceOf asn with | some sp => s.leavesAt [4, 3, 2, 1, 0] sp.root 0 | none => ([], s)

/-- Blocks of a leaf with their virtual addresses. -/
def JobLeaf.blocks (l : JobLeaf) : List (Nat × Nat) :=
  (List.range (l.size / 65536)).map fun i => (l.va + 65536 * i, l.pa / 65536 + i)

/-! ## Ends of snapshots (R349, R352) -/

/-- The snapshot in progress ends without completing; its own frames are free, and SNP follows. -/
def State.endSnap (s : State) (asn : Nat) (st : SnapSt) (fcode : Nat) : State :=
  let j := s.job asn
  match j.prog with
  | none => s
  | some x =>
    (s.setJob { j with prog := none, last := some { num := x.num, st := st, fcode := fcode, nir := x.nir } }).refreshSnp asn
      (j.leaves)

/-! ## The instant (R345, R346) -/

/-- Every write that a hart has made performs. -/
def State.flushHart (s : State) (h : Hart) : State :=
  let w := s.who h
  let s := h.stbuf.foldl (fun s p => s.apply w p) s
  s.mapHarts (fun g => g.live && g.id == h.id) fun g => { g with stbuf := [] }

def State.flushAll (s : State) : State := s.allHarts.foldl State.flushHart s

/-- Channels in one direction that have a link. -/
def State.channels (s : State) : List Nat := (List.range 24).filter fun ch => s.portUp (ch / 2)

/-- One marker on every outgoing channel. -/
def State.sendMarkers (s : State) (asn num epoch : Nat) : State :=
  s.channels.foldl (fun s ch => s.setOut ch (s.outOf ch ++ [.marker asn num epoch])) s

/-- Messages of a channel before a marker of the snapshot. -/
def beforeMarker (asn num : Nat) : List Item → List Msg
  | [] => []
  | .marker a n _ :: l => if a = asn ∧ n = num then [] else beforeMarker asn num l
  | .msg m :: l => m :: beforeMarker asn num l

/-- Messages of a job received or accepted and not yet delivered or sent on (R346). On the channel of the first marker every message
that was received before it has gone on; those behind it were sent after their sender's instant. -/
def State.heldMsgs (s : State) (asn num : Nat) (first : Option Nat) : List (Option Nat × Msg) :=
  ((s.fab.sendq.filter (·.asn == asn)).map fun m => (none, m)) ++
    ((List.range 24).filter fun ch => some ch != first).flatMap fun ch =>
      ((beforeMarker asn num (s.inOf ch)).filter (·.asn == asn)).map fun m => (some ch, m)

/-- A node as a snapshot records it: one that runs is recorded as READY. -/
def Node.recorded (n : Node) : Node :=
  let st : NodeSt := if n.st = .running then .ready else n.st
  let r := { n with st := st, req := none, rolled := none, word := 0, older := [] }
  if n.task then
    { r with exit := 0, nabn := 0, abnCause := 0, ahnd := 0, toStart := List.range n.desc.gangs, unended := n.desc.gangs, ended := 0,
             endedNs := 0, chk := 0, tcb := { }, launcher := none }
  else { r with launcher := none }

def State.liveNodes (s : State) (asn : Nat) : List Node := s.nodes.filter fun n => n.asn == asn && n.st != .finished

/-- The snapshot of an armed job at its instant. A copy of a block that has not changed since the latest complete one serves both
(R347, R349). -/
def State.newSnap (s : State) (j : Job) (num : Nat) (first : Option Nat) (leaves : List JobLeaf) : Snap :=
  let all := leaves.flatMap (·.blocks)
  let kept := match j.done with | some x => x.shared | none => []
  let wait := s.channels.filter fun ch => some ch != first
  let ns := s.liveNodes j.asn
  { num := num, st := if wait.isEmpty then .sealing else .recording, epoch := j.epoch,
    prev := (match j.done with | some x => x.num | none => 0), tinst := s.tstamp, leaves := leaves,
    shared := (all.map (·.2)).foldl natInsert []
    copies := (match j.done with | some x => x.copies | none => []).filter fun c => kept.contains c.1 && all.any (·.2 == c.1)
    listed := all.filter fun b => !kept.contains b.2, wait := wait,
    held := s.heldMsgs j.asn num first, nodes := ns.map (·.recorded),
    nir := ns.any fun n => n.task && n.st == .running && !n.desc.idem
    rx := s.fab.rx.filter (·.asn == j.asn) }

/-- A device takes its instant for a snapshot of a job (R345, R346). -/
def State.instant (s : State) (asn num : Nat) (first : Option Nat) : State :=
  let s := s.flushAll
  let j := { s.job asn with top := num }
  let t := (s.setJob j).sendMarkers asn num j.epoch
  if (s.spaceOf asn).isNone then t.setJob { j with last := some { num := num, st := .absent } }
  else if j.arm.isNone then t.setJob { j with last := some { num := num, st := .failed, fcode := 1 } }
  else
    let (ls, t) := t.jobLeaves asn
    (t.setJob { j with prog := some (s.newSnap j num first ls) }).refreshSnp asn ls

/-! ## Markers (R341, R345, R356) -/

/-- A marker comes for a job with a snapshot in progress. -/
def State.markerFor (s : State) (j : Job) (x : Snap) (num ch : Nat) : State :=
  if num ≠ x.num then (s.setJob { j with top := max j.top num }).endSnap j.asn .failed 5
  else
    let wait := x.wait.filter (· != ch)
    s.setJob { j with prog := some { x with wait := wait, st := if wait.isEmpty then .sealing else x.st } }

def State.marker (s : State) (ch asn num epoch : Nat) : State :=
  let j := s.job asn
  if epoch ≠ j.epoch then s
  else match j.prog with
    | some x => s.markerFor j x num ch
    | none => if num ≤ j.top then s else s.instant asn num (some ch)

def execMarkerReceipt (ch : Nat) (s : State) : Out :=
  .next (match s.inOf ch with
    | .marker a n e :: l => (s.setIn ch l).marker ch a n e
    | _ => s)

/-! ## Links (R328 to R330, R349) -/

/-- Messages that have not begun on a link that is gone take the other port of the direction, on the same channel (R330). -/
def State.reroute (s : State) (port vc : Nat) (m : Msg) : State :=
  let o := if port % 2 = 0 then port + 1 else port - 1
  if s.portUp o then s.setOut (2 * o + vc) (s.outOf (2 * o + vc) ++ [.msg m]) else s.discardMsg (some port) 0xC m

/-- An outgoing channel whose link is gone: its first items, an open number of them, were in flight or in the retry buffers and are lost.
What of them was sent counts (R331). Of the last of them this device may hold the remainder, which it drops; where the other end holds
it, that end does (R328). -/
def State.cutChannel (s : State) (port vc : Nat) : State :=
  let l := s.outOf (2 * port + vc)
  let (v, s) := s.takeFree
  let k := v % (l.length + 1)
  let s := s.setOut (2 * port + vc) []
  let rest := (l.drop k).filterMap fun x => match x with | .msg m => some m | .marker .. => none
  let s := (l.take (k - 1)).foldl (fun s x => s.countPort port x true) s
  let s := match l[k - 1]? with
    | some (.msg m) =>
      if k = 0 then s
      else if (v / 2 ^ 64).testBit 0 then (s.countBytes port (v / 2 ^ 65 % m.size) true).discardMsg (some port) 0xC m
      else s.countPort port (.msg m) true
    | some x => if k = 0 then s else s.countPort port x true
    | none => s
  rest.foldl (fun s m => s.reroute port vc m) s

/-- Of a message that arrives over a link that is gone, the device may hold a part, which it drops: whose it is, and how much of it came,
is open (R328). -/
def State.dropPart (s : State) (port : Nat) : State :=
  let (v, s) := s.takeFree
  if v.testBit 0 then
    (s.countBytes port (v / 2 % 4136) false).discardMsg (some port) 0xC
      { pairs := [], tag := 0, dev := 0, va := BitVec.ofNat 64 (v / 2 ^ 16 % 2 ^ 57 / 64 * 64), asn := v / 2 ^ 80 % 65536, epoch := 0 }
  else s

/-- Every snapshot that is being recorded fails: a link of the device went down (R349). -/
def State.linkLost (s : State) : State :=
  s.fab.jobs.foldl (fun s j => match j.prog with
    | some x => if x.st = .recording then s.endSnap j.asn .failed 4 else s
    | none => s) s

def execLinkDown (port : Nat) (s : State) : Out :=
  .next (if !s.portUp port then s
    else (((((s.mapPort port fun x => { x with up := false }).cutChannel port 0).cutChannel port 1).dropPart port).dropPart port).linkLost)

def execLinkUp (port : Nat) (s : State) : Out := .next (s.mapPort port fun x => { x with up := true })

/-! ## Copies of blocks (R347) -/

def execBlockCopyComplete (asn block : Nat) (s : State) : Out := .next (s.copyDone asn block)

/-! ## Sealing and the manifest (R349, R350) -/

/-- The sealing copies: `false` when the pool is empty. -/
def State.sealCopies (s : State) (asn : Nat) : List Nat → Bool × State
  | [] => (true, s)
  | b :: l =>
    let j := s.job asn
    match j.prog with
    | none => (false, s)
    | some x =>
      if !x.needs b then s.sealCopies asn l
      else match j.freeFrames, x.leaves.find? (·.has b) with
        | f :: _, some lf =>
          let s := s.copyBlock b lf.key f (match j.arm with | some a => a.key | none => 0)
          (s.setJob { j with prog := some { x with copies := x.copies ++ [(b, f)] } }).sealCopies asn l
        | _, _ => (false, s)

/-- Writes bytes by physical address under a key index. -/
def State.writePhys (s : State) (key pa : Nat) (bs : List Byte) : State := s.devWrite { } pa key 0 bs

/-- 64 KiB blocks that n bytes fill. -/
def blocksOf (n : Nat) : Nat := (n + 65535) / 65536

/-- Bytes that node records fill: 256 each, a layout of the model (R349). -/
def nodeBytes (n : Nat) : Nat := 256 * n

/-- Words +0 and +8 of the manifest's entries: listed blocks, then blocks of messages and of nodes (R350). -/
def manifestEntries (a : ArmRec) (x : Snap) (hb mb nb : Nat) : List (Nat × Nat) :=
  (x.listed.map fun b => (b.1, 65536 * Rota.get x.copies b.2)) ++
    (List.range (mb + nb)).map fun i =>
      ((if i < mb then 1 else 2) * 2 ^ 62 + (hb + i), a.area + 65536 * (hb + i))

/-- Reads sectors by physical address for the device, with the checks of every read (R364): open bytes where one fails. -/
def State.readPhys (s : State) (key pa : Nat) : Nat → List Byte × State
  | 0 => ([], s)
  | n + 1 =>
    let (r, s) := s.readSector { } (pa / 64) key 0
    let (bs, s) := match r with
      | .data => (cellsRead s.mem pa 64, s)
      | .zeros => (List.replicate 64 0, s)
      | .poison | .integrity => (leBytes 64 s.takeFree.1, s.takeFree.2)
    let (l, s) := s.readPhys key (pa + 64) n
    (bs ++ l, s)

/-- Entries with their hashes. -/
def State.entryBytes (s : State) (asn num key : Nat) : List (Nat × Nat) → List Byte × State
  | [] => ([], s)
  | e :: es =>
    let hd := leBytes 8 e.1 ++ leBytes 8 e.2
    let (bs, s) := s.readPhys key e.2 1024
    let (l, s) := s.entryBytes asn num key es
    (hd ++ shake256 (leBytes 2 asn ++ leBytes 4 num ++ hd ++ bs) ++ l, s)

/-- Messages recorded: held ones, then channel state. -/
def Snap.msgs (x : Snap) : List Msg := x.held.map (·.2) ++ x.chan.map (·.2)

/-- The header of a manifest. -/
def State.manifestHead (s : State) (asn : Nat) (x : Snap) (nent : Nat) : List Byte :=
  (leBytes 8 (asn * 2 ^ 32 + x.num) ++ leBytes 8 (x.epoch * 2 ^ 48 + x.prev)) ++ (leBytes 8 s.addr ++ leBytes 8 x.tinst.toNat) ++
    (leBytes 8 nent ++ leBytes 8 x.msgs.length) ++ (leBytes 8 x.nodes.length ++ leBytes 8 x.nir.toNat)

/-- Writes the records and the signed manifest: `false` when the area overflows. -/
def State.sealArea (s : State) (asn : Nat) (a : ArmRec) (x : Snap) : Bool × State :=
  let mb := blocksOf (x.msgs.map (·.size)).sum
  let nb := blocksOf (nodeBytes x.nodes.length)
  let nent := x.listed.length + mb + nb
  let hb := blocksOf (64 + 48 * nent + 3309)
  if a.narea < hb + mb + nb then (false, s)
  else
    let (v, s) := s.takeFree
    let s := s.writePhys a.key (a.area + 65536 * hb) (leBytes (65536 * (mb + nb)) v)
    let (es, s) := s.entryBytes asn x.num a.key (manifestEntries a x hb mb nb)
    let body := s.manifestHead asn x nent ++ es
    (true, s.writePhys a.key a.area (body ++ (List.range 3309).map (Config.signatureByte Config.deviceSecret body)))

/-- A snapshot that seals completes and replaces the latest complete one, or fails (R349). -/
def State.sealSnap (s : State) (asn : Nat) : State :=
  let j := s.job asn
  match j.prog, j.arm with
  | some x, some a =>
    if x.st ≠ .sealing || !j.pending.isEmpty then s
    else
      match s.sealCopies asn (x.listed.map (·.2)) with
      | (false, s) => s.endSnap asn .failed 2
      | (true, s) =>
        let j := s.job asn
        match j.prog with
        | none => s
        | some x =>
          match s.sealArea asn a x with
          | (false, s) => s.endSnap asn .failed 3
          | (true, s) =>
            let x := { x with st := .complete }
            (s.setJob { j with prog := none, done := some x, last := some { num := x.num, st := .complete, nir := x.nir } }).refreshSnp
              asn (j.leaves ++ x.leaves)
  | _, _ => s

def execSnapshotComplete (asn : Nat) (s : State) : Out := .next (s.sealSnap asn)

/-! ## `snap`, `snap.arm`, `snap.drop`, `snap.poll` (R342 to R344, R351, R352) -/

/-- A privileged instruction in user mode raises 0x03 (R31). -/
def privilegedM (i : Instr) : M Unit := do if !(← getH).status.prv then before 3 (word0 i)

/-- A snapshot record (R342); `none` when it is malformed. -/
def parseArm (r : List Byte) : Option (Nat × ArmRec) :=
  let w := recWord r 0
  let a : ArmRec := { key := bits w 16 8, pool := recWord r 8, npool := recWord r 16, area := recWord r 24, narea := recWord r 32 }
  if bits w 24 40 == 0 && a.key != 0 && a.pool < 2 ^ 48 && a.pool % 65536 == 0 && a.npool < 2 ^ 32 && a.npool != 0 &&
      a.area < 2 ^ 48 && a.area % 65536 == 0 && a.narea < 2 ^ 32 && a.narea != 0 && (r.drop 40).all (· == 0) then
    some (bits w 0 16, a)
  else none

/-- Arms a job: the result in xd (R343). -/
def State.armJob (s : State) (asn : Nat) (a : ArmRec) : DWord × State :=
  let j := s.job asn
  if j.prog.isSome then (rejected 2, s)
  else if j.arm.isNone && 16 ≤ (s.fab.jobs.filter (·.arm.isSome)).length then (rejected 3, s)
  else (0, s.setJob { j with arm := some a })

def execSnapArm (fm : Form) (d b : BitVec 6) (s : State) : Out :=
  .next (run (.snapArm fm d b) (do
    privilegedM (.snapArm fm d b)
    let va := (← getH).getX b
    let r ← readRecord false va 64
    if va.toNat % 64 ≠ 0 then before 0xB4 va
    match parseArm r with
    | none => before 0xB4 va
    | some (asn, a) => do
      let (x, t) := (← get).armJob asn a
      set t
      modH fun h => h.setX d x) s)

/-- The job that a register names. -/
def jobIn (x : DWord) : Nat := x.toNat % 65536

def execSnap (fm : Form) (d j : BitVec 6) (s : State) : Out :=
  .next (run (.snap fm d j) (do
    privilegedM (.snap fm d j)
    let s ← get
    let asn := jobIn (s.h.getX j)
    let x := s.job asn
    if x.arm.isNone then modH fun h => h.setX d (rejected 1)
    else if x.prog.isSome then modH fun h => h.setX d (rejected 2)
    else do
      waitTransfers 0xE
      settleAll
      let n := (x.top + 1) % 2 ^ 32
      modify fun s => s.instant asn n none
      modH fun h => h.setX d (BitVec.ofNat 64 n)) s)

def execSnapDrop (fm : Form) (d j : BitVec 6) (s : State) : Out :=
  .next (run (.snapDrop fm d j) (do
    privilegedM (.snapDrop fm d j)
    let s ← get
    let asn := jobIn (s.h.getX j)
    match (s.job asn).prog with
    | none => modH fun h => h.setX d 0
    | some x => do
      modify fun s => s.endSnap asn .dropped 0
      modH fun h => h.setX d (BitVec.ofNat 64 x.num)) s)

def SnapSt.code : SnapSt → Nat
  | .recording => 1 | .sealing => 2 | .complete => 3 | .failed => 4 | .dropped => 5 | .absent => 6

/-- The status of a snapshot (R351). -/
def snapWord (j : Job) : Option Snap → DWord
  | none => 0
  | some x => BitVec.ofNat 64 (x.st.code * 2 ^ 61 + x.nir.toNat * 2 ^ 60 + x.fcode * 2 ^ 56 +
      min j.frames.length (2 ^ 24 - 1) * 2 ^ 32 + x.num % 2 ^ 32)

def execSnapPoll (fm : Form) (d j : BitVec 6) (s : State) : Out :=
  .next (run (.snapPoll fm d j) (do
    let s ← get
    let x := s.h.getX j
    let job := s.job (if s.h.status.prv then jobIn x else s.h.asn)
    modH fun h => h.setX d (snapWord job (if s.h.status.prv && x.getLsbD 16 then job.done else job.recent))) s)

/-! ## Rollback (R353 to R355) -/

/-- Edges from nodes of an address space to unfinished nodes of others. -/
def State.outEdges (s : State) (asn : Nat) : List (Nat × Nat) :=
  (s.liveNodes asn).flatMap fun n => (n.succs.filter fun i => match s.node i with
    | some m => m.asn != asn && m.st != .finished
    | none => false).map fun i => (n.id, i)

/-- Nodes of an address space are gone without finishing: their entries are free and remember no outcome, and no node of another counts
them down any more. -/
def State.forgetNodes (s : State) (asn : Nat) : State :=
  (s.nodes.filter (·.asn == asn)).foldl (fun s n =>
    let rest := (s.nodes.filter (·.id != n.id)).map fun m => { m with succs := m.succs.filter (· != n.id) }
    ({ s with nodes := rest }.setEntry n.id none).mapFree (n.id % 8192)
      fun l => { l with freed := l.freed ++ [n.id % 8192] }) s

/-- Every gang and saved gang of an address space ends (R354 step 1). -/
def State.endSpace (s : State) (asn : Nat) : State :=
  let mine := fun (id : Nat) => match s.node id with | some n => n.asn == asn | none => false
  let s := { s with saves := s.saves.filter fun o => !mine o.team.node, saved := s.saved.filter (·.gang.asn != asn) }
  s.killGangs ((s.gangs.filter (·.asn == asn)).map (·.key)) .gone

/-- Changed blocks get their contents at the instant back (R354 step 3). -/
def State.restoreBlocks (s : State) (x : Snap) : State :=
  (x.copies.filter fun c => !x.shared.contains c.1).foldl (fun s c =>
    s.copyBlock c.2 (s.region (16 * c.2)).kidx c.1 (match x.leaves.find? (·.has c.1) with | some l => l.key | none => 0)) s

/-- Recorded messages come again under an epoch: held ones where they waited, channel state after them (R354 step 4). -/
def State.reinject (s : State) (x : Snap) (epoch : Nat) : State :=
  let fresh := fun (m : Msg) => { m with epoch := epoch, sender := none }
  let mine := x.held.filterMap fun c => match c.1 with | none => some (fresh c.2) | some _ => none
  let s := s.mapFab fun f => { f with sendq := mine ++ f.sendq }
  (List.range 24).foldl (fun s ch =>
    let h := x.held.filterMap fun c => if c.1 = some ch then some (Item.msg (fresh c.2)) else none
    let c := x.chan.filterMap fun c => if c.1 = ch then some (Item.msg (fresh c.2)) else none
    s.setIn ch (h ++ c ++ s.inOf ch)) s

/-- The recorded nodes stand again, with edges among themselves and those to other jobs' nodes that wait for them, `out`; an edge from a
node that does not stand again counts as satisfied (R354 step 5, R355). -/
def State.recreate (s : State) (x : Snap) (out : List (Nat × Nat)) : State :=
  let ids := x.nodes.map (·.id)
  let s := x.nodes.foldl (fun s n =>
    let succs := n.succs.filter ids.contains ++ (out.filter (·.1 == n.id)).map (·.2)
    let count := (x.nodes.map fun p => p.succs.countP (· == n.id)).sum
    let r := { n with succs := succs, count := count, rolled := some (BitVec.ofNat 64 x.num),
                      st := if n.st = .held then .held else .waiting }
    ({ s with nodes := s.nodes ++ [r] }.setEntry n.id none).mapFree (n.id % 8192) fun l =>
      { l with freed := l.freed.filter (· != n.id % 8192) }) s
  let s := (out.filter fun e => !ids.contains e.1).foldl (fun s e => s.decrement e.2) s
  x.nodes.foldl (fun s n => match s.node n.id with
    | some r => if r.st = .waiting ∧ r.count = 0 then s.ready n.id else s
    | none => s) s

/-- What forbids a rollback: codes of R353, or 0. -/
def State.rollbackCode (s : State) (asn num : Nat) : Nat :=
  let j := s.job asn
  match j.done with
  | none => 1
  | some x =>
    if x.num ≠ num then 1
    else if j.prog.isSome then 2
    else if x.nir then 3
    else if x.nodes.any fun n => s.nodes.any fun m => m.id % 8192 == n.id % 8192 && m.asn != asn then 4
    else 0

/-- The receive buffers of a job are those in use at the instant (R334, R354). -/
def State.restoreRx (s : State) (asn : Nat) (x : Snap) : State :=
  s.mapFab fun f => { f with rx := f.rx.filter (·.asn != asn) ++ x.rx }

/-- The job goes back to its latest complete snapshot (R354), as it stands once the job's nodes have ended: what they wrote last had
its blocks copied too. -/
def State.rollback (s : State) (asn : Nat) : State :=
  match (s.job asn).done with
  | none => s
  | some x =>
    let s := s.allCopiesDone.endSpace asn
    let out := s.outEdges asn
    let s := s.forgetNodes asn
    let x := (s.job asn).done.getD x
    let e := ((s.job asn).epoch + 1) % 65536
    let s := (s.setJob { s.job asn with epoch := e }).restoreBlocks x
    ((s.restoreRx asn x).reinject x e).recreate x out

def execRollback (fm : Form) (d j n : BitVec 6) (s : State) : Out :=
  .next (run (.rollback fm d j n) (do
    privilegedM (.rollback fm d j n)
    let s ← get
    let asn := jobIn (s.h.getX j)
    let code := s.rollbackCode asn ((s.h.getX n).toNat % 2 ^ 32)
    if code ≠ 0 then modH fun h => h.setX d (rejected code)
    else if s.h.asn = asn then do
      modify fun s => s.rollback asn
      throw .done
    else do
      settleAll
      modify fun s => s.rollback asn
      modH fun h => h.setX d 0) s)

end Sys2Proof.Machine
end

