-- ==== Sys2Proof/Machine/Trace.lean ====
section
/-! DEFINITION. The trace engine: marks, counters, samples and trace records, major 0x32 (R376 to R392). -/

namespace Sys2Proof.Machine

/-! ## Instructions (R382 to R385) -/

/-- The trace values of a hart's gang. -/
def State.tcbOf (s : State) (h : Hart) : Tcb := match s.gangOf h.gang with | some g => g.tcb | none => { }

/-- A mark record (R384). -/
def execTmark (fm : Form) (a : BitVec 6) (s : State) : Out :=
  .next (plain fm id (s.emit (s.tcbOf s.h) (s.taskOf s.h) (some s.h) 2 0xC (s.h.getX a)))

/-- Accumulator n of a partition: EVP 0 to 15, then EVA 0 to 15 (R383). -/
def State.accum (s : State) (core part n : Nat) : DWord :=
  match s.ctrs.find? fun c => c.core == core && c.part == part with
  | some c => c.acc.toArray.getD n 0
  | none => 0

/-- Events of which open numbers come about between two looks at a counter: misses and hits of caches, whose contents are not state, and
wire bytes of time-sync beats and link management (R331, R381; log entry 85). -/
def openEvent (ev : Nat) : Bool := ev == 5 || ev == 6 || ev == 0xA || (0x40 ≤ ev && ev < 0x70 && ev % 2 == 1)

/-- Clk from the start of a counter to clk `t` in the windows of accumulator n. -/
def PartCtr.own (c : PartCtr) (evs : List Nat) (n t : Nat) : Nat :=
  let d := t - c.start
  let evp := if evs.getD (2 * (n % 16) + 1) 0 = 0 then d else evpClks d
  if n < 16 then evp else d - evp

/-- Accumulator n counts now, or has counted since it was looked at. -/
def PartCtr.mayOpen (c : PartCtr) (evs : List Nat) (n t : Nat) : Bool :=
  decide (c.looked.toArray.getD n 0 < c.own evs n t) ||
    (if evs.getD (2 * (n % 16) + 1) 0 = 0 then n < 16 else ((t - c.start) / 65536 % 2 == 0) == decide (n < 16))

/-- Those that accumulator n of a partition counts are added, those of its own windows. -/
def State.countOpen (s : State) (core part n : Nat) (evs : List Nat) : State :=
  if openEvent (evs.getD (if n < 16 then 2 * n else 2 * (n - 16) + 1) 0) then
    let (v, s) := s.takeFree
    { s with ctrs := s.ctrs.map fun c =>
        if c.core = core ∧ c.part = part ∧ c.mayOpen evs n s.clk = true then
          { c with acc := c.acc.setIfInBounds n (c.acc.toArray.getD n 0 + BitVec.ofNat 64 v)
                   looked := c.looked.setIfInBounds n (c.own evs n s.clk) }
        else c }
  else s

def execPcntRd (fm : Form) (d n : BitVec 6) (s : State) : Out :=
  .next (run (.pcntRd fm d n) (do
    let s ← get
    if (s.tcbOf s.h).lock && !s.h.status.prv then before 0xC2 (n.setWidth 64)
    modify fun s => s.countOpen s.h.id.core s.h.id.part n.toNat (s.tcbOf s.h).ev
    let s ← get
    modH fun h => h.setX d (s.accum h.id.core h.id.part n.toNat)) s)

/-- What `tstamp` reads (R385): the bound of sel 2 takes in what is still to be removed of the offset that was found. -/
def State.timeWord (s : State) (sel : Nat) : DWord :=
  match sel with
  | 0 => s.tstamp
  | 1 => BitVec.ofNat 64 s.clk
  | _ => BitVec.ofNat 64 (s.fab.lock.toNat * 2 ^ 63 + min 0xFFFFFFFF (s.fab.bound.toNat + s.fab.offset.natAbs))

def execTstamp (fm : Form) (d : BitVec 6) (sel : BitVec 12) (s : State) : Out :=
  .next (plain fm (fun h => h.setX d (s.timeWord sel.toNat)) s)

/-! ## Samples (R380) -/

/-- Why a parked hart does not issue; none where timing alone decides. -/
def Park.reason : Park → Option Nat
  | .wfe => some 0x10
  | .join _ _ | .away => some 0x11
  | .wait _ r _ _ => some r
  | .entry _ _ _ => some 8
  | .vamo _ _ _ => none

/-- Reasons that depend on timing only. -/
def openReasons : List Nat := [0x00, 0x01, 0x02, 0x03, 0x05, 0x0C, 0x0F, 0x12]

/-- The reason of a sample; where timing alone decides, one of the reasons that are left (log entry 5). -/
def State.sampleReason (s : State) (h : Hart) : Nat × State :=
  match h.park.bind (·.reason) with
  | some r => (r, s)
  | none =>
    if h.stall ≠ 0 ∧ h.stall < 0x10 then (h.stall, s)
    else
      let (v, s) := s.takeFree
      (openReasons.getD (v % openReasons.length) 0, s)

/-- Harts of a partition by slot. -/
def State.slotsOf (s : State) (core part : Nat) : List Hart :=
  (List.range 4).filterMap fun i => s.allHarts.find? fun h => h.id == ⟨core, part, i⟩

/-- A partition takes the sample that is due. -/
def State.sampleAt (s : State) (core part : Nat) : State :=
  match s.gangAt core part, s.ctrs.find? fun c => c.core == core && c.part == part with
  | some g, some c =>
    if g.tcb.sper = 0 || s.clk < c.start + (c.sampled + 1) * 2 ^ g.tcb.sper then s
    else
      let hs := s.slotsOf core part
      let t := { s with ctrs := s.ctrs.map fun x => if x.core = core ∧ x.part = part then { x with sampled := x.sampled + 1 } else x }
      match hs[c.sampled % hs.length]? with
      | none => t
      | some h =>
        let (r, t) := t.sampleReason h
        t.emit g.tcb g.node (some h) 1 0 (BitVec.ofNat 64 (bits h.pc.toNat 2 55 * 256 + r))
  | _, _ => s

def execSample (core part : Nat) (s : State) : Out := .next (s.sampleAt core part)

/-- The window that a multiplexed counter is in (R381); ticks see to it as well. -/
def execCounterMultiplex (core part n : Nat) (s : State) : Out :=
  .next (match s.gangAt core part with
    | none => s
    | some g => { s with ctrs := s.ctrs.map fun c => if c.core = core ∧ c.part = part then c.switch g.tcb.ev n s.clk else c })

/-! ## The trace buffer (R377, R378, R388, R389) -/

/-- A record's 32 bytes (R378). -/
def TraceRec.bytes (r : TraceRec) : List Byte :=
  leBytes 8 (r.type * 2 ^ 56 + r.eng * 2 ^ 52 + r.queue % 64 * 2 ^ 46 + r.task) ++ leBytes 8 (r.cseq * 2 ^ 32 + r.hartid % 2 ^ 24) ++
    leBytes 8 r.ts.toNat ++ leBytes 8 r.data.toNat

/-- The gap record that precedes a record (R379). -/
def TraceRec.gap (r : TraceRec) (n : Nat) (ts : DWord) : TraceRec :=
  { r with type := 5, eng := 0xC, hart := none, hartid := 0xFFFFFF, ts := ts, data := BitVec.ofNat 64 n }

/-- Address of record number k. -/
def Tcb.slot (t : Tcb) (k : DWord) : Nat := (t.buf.toNat + 64 + 32 * (k.toNat % ((2 ^ t.blog - 64) / 32))) % 2 ^ 64

/-- Records are written with user privilege; no hart is told of their errors. -/
def traceWho (asn : Nat) : Who := { core := noCore, asn := asn }

/-- The header of a buffer: its place and key, WPTR and DROP; open values where it cannot be read whole. -/
def State.traceHead (s : State) (r : TraceRec) : Except Denied (Nat × Nat × DWord × DWord) × State :=
  let w := traceWho r.asn
  match s.translateHw w r.tcb.buf.toNat with
  | (.error d, s) => (.error d, s)
  | (.ok (pa, key), s) =>
    let (l, s) := s.loadPlain w [] pa 16 key r.tcb.buf.toNat
    let bs := l.getD []
    if l.isNone || bs.any (·.2) then
      let (v, s) := s.takeFree
      (.ok (pa, key, BitVec.ofNat 64 v, BitVec.ofNat 64 (v / 2 ^ 64)), s)
    else
      (.ok (pa, key, BitVec.ofNat 64 (leNat ((bs.take 8).map (·.1))), BitVec.ofNat 64 (leNat ((bs.drop 8).map (·.1)))), s)

/-- Places of records of consecutive numbers from k. -/
def State.traceSlots (s : State) (t : Tcb) (asn : Nat) : List TraceRec → DWord → Except Denied (List (Nat × Nat × TraceRec)) × State
  | [], _ => (.ok [], s)
  | r :: l, k =>
    match s.translateHw (traceWho asn) (t.slot k) with
    | (.error d, s) => (.error d, s)
    | (.ok (pa, key), s) =>
      match s.traceSlots t asn l (k + 1) with
      | (.error d, s) => (.error d, s)
      | (.ok ps, s) => (.ok ((pa, key, r) :: ps), s)

/-- What is known of a buffer's drops once its header is read. -/
def TraceDrop.sync (d : TraceDrop) (drop : DWord) : TraceDrop := { d with owed := 0, drop := drop + BitVec.ofNat 64 d.owed }

/-- The first waiting record of an address space is numbered and written, with a gap record before it after drops, or dropped. -/
def State.traceWrite (s : State) (asn : Nat) : State :=
  match s.trace.find? (·.asn == asn) with
  | none => s
  | some r =>
    match s.traceHead r with
    | (.error .wait, s) => s
    | (.error (.cause _), s) => { s with trace := s.trace.erase r }.dropRec r
    | (.ok (hpa, hkey, wptr, drop), s) =>
      let d := s.dropsOf r
      let rs := if d.since = 0 then [r] else [r.gap d.since s.tstamp, r]
      let put := fun (s : State) (pa key va : Nat) (bs : List Byte) =>
        (s.spoil asn pa va).devWrite (traceWho asn) pa key (BitVec.ofNat 64 va) bs
      match s.traceSlots r.tcb asn rs wptr with
      | (.error .wait, s) => s
      | (.error (.cause _), s) =>
        let s := (({ s with trace := s.trace.erase r }).setDrops (d.sync drop)).dropRec r
        let d := s.dropsOf r
        put (s.setDrops { d with owed := 0 }) (hpa + 8) hkey (r.tcb.buf.toNat + 8) (leBytes 8 d.drop.toNat)
      | (.ok ps, s) =>
        let s := { s with trace := s.trace.erase r }.setDrops { (d.sync drop) with since := 0 }
        let s := (ps.foldl (fun (a : State × DWord) p =>
          (put a.1 p.1 p.2.1 (r.tcb.slot a.2) p.2.2.bytes, a.2 + 1)) (s, wptr)).1
        put s hpa hkey r.tcb.buf.toNat
          (leBytes 8 (wptr + BitVec.ofNat 64 rs.length).toNat ++ leBytes 8 (d.sync drop).drop.toNat)

def execTraceRecordWrite (asn : Nat) (s : State) : Out := .next (s.traceWrite asn)

/-! ## Stops (R387) -/

/-- No task of an address space is RUNNING. -/
def State.noneRuns (s : State) (asn : Nat) : Bool := s.nodes.all fun n => !(n.asn == asn && n.task && n.st == .running)

def State.mapSpace (s : State) (asn : Nat) (f : AddrSpace → AddrSpace) : State :=
  { s with spaces := s.spaces.map fun p => if p.asn = asn then f p else p }

/-- The stop record of a job that has stopped. -/
def State.stopRec (s : State) (asn : Nat) : State :=
  let (tcb, s) := s.readTcb asn noCore
  (s.mapSpace asn fun p => { p with told := true }).queueRec {
    asn := asn, tcb := tcb, type := 9, eng := 9, queue := 0, task := 0, cseq := 0, hart := none, hartid := 0xFFFFFF,
    ts := s.tstamp, data := 0 }

/-- Every stop that is complete is recorded. -/
def State.checkStops (s : State) : State :=
  (s.spaces.filter fun p => p.stopped && !p.told && s.noneRuns p.asn).foldl (fun s p => s.stopRec p.asn) s

/-- A stop request for a job (R387). -/
def State.stopJob (s : State) (asn : Nat) : State :=
  s.mapSpace asn fun p => if p.stopped then p else { p with stopped := true, told := false }

/-! ## evt.TIME (R108) -/

/-- evt.TIME is a level; as it rises, a `wfe` that it is enabled for returns. -/
def execTimeEvent (h : HartId) (s : State) : Out :=
  .next (s.mapHarts (fun g => g.live && g.id == h && g.park == some .wfe && s.timeUp g && g.emask.getLsbD 5) fun g => { g with park := none })

end Sys2Proof.Machine
end

