-- ==== Sys2Proof/Machine/Seal.lean ====
section
/-! DEFINITION. The seal engine's instructions and errors: `diag.st`, `seal.log`, hardware errors and scrubs, major 0x33, and
what stands in HBM4 (R359, R360, R368 to R372). -/

namespace Sys2Proof.Machine

/-! ## What stands in HBM4 (R360): the model holds plaintext, and the rest follows from it -/

/-- The keys of an index as two strings of bytes; all zero where the firmware generated none (R359). -/
def State.keyBytes (s : State) (k : Nat) : List Byte × List Byte :=
  match s.firm.keys.find? (·.idx == k) with
  | some x => (leBytes 32 x.aes.toNat, leBytes 32 x.mac.toNat)
  | none => (leBytes 32 0, leBytes 32 0)

/-- PA[47:6] ‖ KEY ‖ MAJ ‖ MIN ‖ j and zeros, the first bit first (log entry 86). -/
def counterBlock (sec key maj min j : Nat) : List Byte :=
  (leBytes 16 (((((sec % 2 ^ 42 * 2 ^ 8 + key % 2 ^ 8) * 2 ^ 56 + maj % 2 ^ 56) * 2 ^ 7 + min % 2 ^ 7) * 2 ^ 2 + j % 4) * 2 ^ 13)).reverse

/-- Block `j` of a sealed sector as it is encrypted. -/
def State.sealedBlock (s : State) (sec j : Nat) : List Byte :=
  let x := s.region (sec / 64)
  (aes256 (s.keyBytes x.kidx).1 (counterBlock sec x.kidx x.maj (x.minOf (sec % 64)) j)).zipWith (· ^^^ ·)
    (cellsRead s.mem (64 * sec + 16 * j) 16)

/-- A byte of sealed memory as it stands in HBM4: what the host wrote raw, else ciphertext. -/
def State.cipherAt (s : State) (pa : Nat) : Byte :=
  match s.raw.find? (·.1 == pa) with
  | some c => c.2
  | none => (s.sealedBlock (pa / 64) (pa % 64 / 16)).getD (pa % 16) 0

/-- The tag that a sealed sector carries when nothing corrupted it (log entry 86). -/
def State.sealTag (s : State) (sec : Nat) : List Byte :=
  let x := s.region (sec / 64)
  kmac256 7 (s.keyBytes x.kidx).2
    (leBytes 6 (64 * sec) ++ leBytes 1 x.kidx ++ leBytes 7 x.maj ++ leBytes 1 (x.minOf (sec % 64)) ++
      (List.range 4).flatMap (s.sealedBlock sec))

/-- The 16 bytes of side-band of a sealed sector: check bits of its eight words, each with its syndrome (R366, R371); the tag with its
flips; check bits of the tag with theirs. -/
def State.sideBand (s : State) (sec : Nat) : List Byte :=
  let tag := leNat (s.sealTag sec) ^^^ (match s.tagXor.find? (·.1 == sec) with | some x => x.2.toNat | none => 0)
  ((List.range 8).map fun i => Config.checkBits (leNat ((List.range 8).map fun k => s.cipherAt (64 * sec + 8 * i + k))) ^^^
    BitVec.ofNat 8 (s.wordSynd sec i)) ++
    leBytes 7 tag ++ [Config.checkBits tag ^^^ match s.tagErr sec with | some e => e.synd | none => 0]

/-! ## The tree over the counter lines (R361): its contents follow from the lines (log entry 87) -/

/-- How far the counters of a line have moved on: every write of the region makes it larger. -/
def Region.changes (x : Region) : Nat := x.maj * 2 ^ 13 + (List.range 64).foldl (fun n k => n + x.minOf k) 0

/-- Regions of a stack of 48 GiB. -/
def stackRegions : Nat := 48 * 2 ^ 18

/-- The counter of node `i` at level `lvl` of a stack's tree, which its parent holds; level 0 is the counter lines. -/
def State.treeCount (s : State) (stack lvl i : Nat) : Nat :=
  (((s.regions.filter fun x => x.idx / stackRegions == stack && x.idx % stackRegions / 8 ^ lvl == i).map Region.changes).foldl
    (· + ·) 0) % 2 ^ 56

/-- A node of the tree: eight child counters of 56 bits, and a tag of 56 bits over itself. -/
structure CtrNode where
  kids : List Nat
  tag : List Byte
  deriving DecidableEq, Repr

/-- Node `i` at level `lvl`, of 1 to 9, of a stack's tree. -/
def State.ctrNode (s : State) (stack lvl i : Nat) : CtrNode :=
  let kids := (List.range 8).map fun k => s.treeCount stack (lvl - 1) (8 * i + k)
  { kids := kids
    tag := kmac256 7 (leBytes 32 (Config.treeKey Config.deviceSecret).toNat)
      (leBytes 1 stack ++ leBytes 1 lvl ++ leBytes 6 i ++ kids.flatMap (leBytes 7)) }

/-- The root of a stack, inside the seal engine: nine levels above the counter lines. -/
def State.treeRoot (s : State) (stack : Nat) : CtrNode := s.ctrNode stack 9 0

/-! ## `diag.st` (R371) -/

def weight (n : Nat) : Nat := ((List.range 8).filter n.testBit).length

/-- The control word follows its table. -/
def diagCtlOk (t : DiagSpace) (c : Nat) : Bool :=
  bits c 20 44 == 0 && bits c 16 2 == 0 && bits c 18 2 != 3 &&
    match t with
    | .global => bits c 18 2 == 1 || bits c 8 8 == 0
    | _ => bits c 18 2 == 0 && bits c 15 1 == 0

/-- What flipped check bits come to: corrected, uncorrectable, or taken for other contents (R371). -/
inductive Flip where
  | none | fixed | lost | wrong
  deriving DecidableEq, Repr

/-- An odd weight of 3 or more depends on the code matrix. -/
def State.flipOutcome (s : State) (f : Nat) : Flip × State :=
  if f = 0 then (.none, s)
  else if weight f = 1 then (.fixed, s)
  else if weight f % 2 = 0 then (.lost, s)
  else
    let (v, s) := s.takeFree
    ([Flip.fixed, .lost, .wrong].getD (v % 3) .lost, s)

/-- The word of global memory at `pa` has an error of syndrome `f`, which comes to `o`; it arose at `loc` when not in the storage. -/
def State.putError (s : State) (pa key f : Nat) (o : Flip) (loc : Option Nat := none) : State :=
  let put := fun lost => { s with ecc := { word := pa, synd := BitVec.ofNat 8 f, lost := lost, loc := loc } :: s.ecc.filter (·.word != pa) }
  match o with
  | .none => s
  | .fixed => put false
  | .lost => put true
  | .wrong =>
    if key ≠ 0 then { s with badTag := natInsert s.badTag (pa / 64) }
    else
      let (v, s) := s.takeFree
      { s with mem := cellsWrite s.mem pa (leBytes 8 v) }

/-- Corrupts the check bits of the word of global memory at `pa`. -/
def State.flipData (s : State) (pa key f : Nat) : State :=
  let (o, s) := s.flipOutcome f
  s.putError pa key f o

/-- The tag of a sealed sector has an error, which comes to `o`. -/
def State.putTagError (s : State) (sec f : Nat) (o : Flip) (loc : Option Nat := none) : State :=
  let put := fun lost => { s with eccTag := { word := sec, synd := BitVec.ofNat 8 f, lost := lost, loc := loc } :: s.eccTag.filter (·.word != sec) }
  match o with
  | .none => s
  | .fixed => put false
  | .lost => put true
  | .wrong => { s with badTag := natInsert s.badTag sec }

/-- The counter line of a region has an error, which comes to `o`. -/
def State.putMetaError (s : State) (r f : Nat) (o : Flip) (loc : Option Nat := none) : State :=
  let put := fun lost => { s with eccMeta := { word := r, synd := BitVec.ofNat 8 f, lost := lost, loc := loc } :: s.eccMeta.filter (·.word != r) }
  match o with
  | .none => s
  | .fixed => put false
  | .lost => { put true with badMeta := natInsert s.badMeta r }
  | .wrong => { s with badTree := natInsert s.badTree r }

/-- Corrupts the check bits of the counter line of a region. -/
def State.flipMeta (s : State) (r f : Nat) : State :=
  let (o, s) := s.flipOutcome f
  s.putMetaError r f o

/-- Corrupts the check bits of a local word. -/
def Local.flipWord (m : Local) (w f : Nat) (o : Flip) (v : Nat) : Local :=
  let ecc := { word := w, synd := BitVec.ofNat 8 f } :: m.ecc.filter (·.word != w)
  match o with
  | .none => m
  | .fixed => { m with ecc := ecc }
  | .lost => { m with ecc := ecc, psn := natInsert m.psn w }
  | .wrong => { m with cells := cellsWrite m.cells (4 * w) (leBytes 4 v) }

def State.mapLocal (s : State) (sp : Space) (f : Local → Local) : State :=
  match sp with
  | .tcm g => s.mapGang g fun x => { x with tcm := f x.tcm }
  | .sp g => s.mapGang g fun x => { x with sp := f x.sp }
  | .win => { s with win := f s.win }
  | .glob | .void => s

def State.flipLocal (s : State) (sp : Space) (off f : Nat) : State :=
  match localOff (s.localOf sp).size off with
  | none => s
  | some o =>
    let (k, s) := s.flipOutcome f
    let (v, s) := s.takeFree
    s.mapLocal sp fun m => m.flipWord (o / 4) f k v

/-- The target of a store that corrupts more than data is not sealed HBM4, as far as the address translates. -/
def diagUnsealed (va : DWord) : M Bool := do
  let s ← get
  match s.lookup (s.who s.h) va.toNat with
  | (.error _, _) => pure false
  | (.ok e, s) => do
    set s
    pure (leafKey e.leaf.toNat == 0 || s.isSram (leafFrame e.leaf.toNat + va.toNat % e.size))

/-- The store and the corruption of a sealed or unsealed global word. -/
def diagGlobal (i : Instr) (va d : DWord) (c : Nat) : M Unit := do
  if bits c 18 2 ≠ 0 then
    if ← diagUnsealed va then before 2 (word0 i)
  let ps ← translateM va 8 .write .before
  let (pa, key, _) := ps.headD (0, 0, 0)
  settleAll
  let gone := (← get).dropsWrite pa key 8
  pushWrites (globWrites (← getH) .scalar va (leBytes 8 d.toNat) false ps)
  settleAll
  if !gone then
    modify fun s =>
      match bits c 18 2 with
      | 0 => s.flipData pa key (c % 256)
      | 1 => if c % 65536 = 0 then s else { s with tagXor := (pa / 64, BitVec.ofNat 16 c) :: s.tagXor.filter (·.1 != pa / 64) }
      | _ => s.flipMeta (pa / 4096) (c % 256)

/-- The same in TCM or scratchpad: the words at xb and xb + 4. -/
def diagLocal (sp : Space) (off : Nat) (va d : DWord) (c : Nat) : M Unit := do
  settleAll
  storeSpace .scalar sp off va (leBytes 8 d.toNat) false
  settleAll
  modify fun s => (s.flipLocal sp (spaceOff sp off 0) (bits c 0 7)).flipLocal sp (spaceOff sp off 4) (bits c 8 7)

def execDiagSt (fm : Form) (v b c : BitVec 6) (t : DiagSpace) (s : State) : Out :=
  .next (run (.diagSt fm v b c t) (do
    privilegedM (.diagSt fm v b c t)
    let s ← get
    let va := s.h.getX b
    let x := (s.h.getX c).toNat
    if va.toNat % 8 ≠ 0 then before 0x30 va
    if !diagCtlOk t x then before 2 (word0 (.diagSt fm v b c t))
    match t with
    | .global => diagGlobal (.diagSt fm v b c t) va (s.h.getX v) x
    | .tcm => do
      let (m, off) := s.h.tcmSpace va
      diagLocal m off va (s.h.getX v) x
    | .sp => do
      let (m, off) := s.spSpace s.h va
      diagLocal m off va (s.h.getX v) x) s)

/-! ## `seal.log` (R369, R372) -/

/-- The 64 bytes of a log record. -/
def LogRec.bytes (r : LogRec) : List Byte :=
  leBytes 8 (r.seq % 2 ^ 32 * 2 ^ 32 + r.kind * 2 ^ 24 + r.cause * 2 ^ 16 + r.loc * 2 ^ 12) ++ leBytes 8 r.pa ++ leBytes 8 r.va ++
    leBytes 8 (r.asn % 2 ^ 16 * 2 ^ 48 + r.key % 2 ^ 8 * 2 ^ 40 + r.task % 2 ^ 32) ++ leBytes 8 r.hart.toNat ++
    leBytes 8 (r.synd % 65536) ++ leBytes 8 r.ts.toNat ++ leBytes 8 0

/-- The record that `seal.log` names; none at an empty position. -/
def State.logRecord (s : State) (a : DWord) : Option LogRec :=
  if a.getLsbD 63 then s.log.head? else s.log.find? fun r => r.seq % 1024 == bits a.toNat 6 10

def execSealLog (fm : Form) (d b a : BitVec 6) (s : State) : Out :=
  .next (run (.sealLog fm d b a) (do
    privilegedM (.sealLog fm d b a)
    let s ← get
    let va := s.h.getX b
    if va.toNat % 64 ≠ 0 then before 0x30 va
    let r := s.logRecord (s.h.getX a)
    storeGlob .scalar va (match r with | some r => r.bytes | none => List.replicate 64 0) false .before
    modH fun h => h.setX d (match r with | some r => BitVec.ofNat 64 (r.seq % 2 ^ 32) | none => 0)) s)

/-! ## Errors in state without poison (R115, R368) -/

/-- Interrupt 0x02 is taken, at a point between convoys, when it is the next of the hart. -/
def State.takeAsync (s : State) (id : HartId) : State :=
  match s.hartAt id with
  | none => s
  | some h =>
    if h.takeable && h.preempt.isNone && !h.async.isEmpty && h.park != some .away && h.sv != .saved then
      ((s.focus id).mapH fun h => h.interrupt h.pc).reap
    else s

def execAsynchronousError (h : HartId) (s : State) : Out := .next (s.takeAsync h)

/-- Registers whose storage the error hit hold open values (log entry 5). -/
def Hart.unreliable (h : Hart) (v : Nat) : Hart :=
  let g := h.scrambled v
  { g with m := Vector.ofFn fun i : Fin 8 => BitVec.ofNat 2048 (v / 2 ^ (8192 + 2048 * i.val)) }

/-- Address of the newest log record. -/
def State.logAddr (s : State) : DWord := BitVec.ofNat 64 (64 * (s.logSeq % 1024))

/-- An uncorrectable error in such state: logged; a hart that reads it squashes its convoy, otherwise 0xF0 is posted to the hart whose
work it affected, and with no such hart the log is all. -/
def State.unreliable (s : State) (id : HartId) (atHart : Bool) (loc synd : Nat) : State :=
  match s.hartAt id with
  | none => s.logAt { } 9 0xF0 loc 0 0 0 synd
  | some h =>
    let s := s.logAt (s.who h) 9 0xF0 loc 0 0 0 synd
    let (v, s) := s.takeFree
    let s := s.mapHarts (fun g => g.live && g.id == id) fun g => g.unreliable v
    if atHart && h.park != some .away && h.sv != .saved then ((s.focus id).trapAt .squash 0xF0 s.logAddr).reap
    else s.post (s.who h) 0xF0 s.logAddr

/-! ## Errors in state with poison (R184, R230, R282, R366, R368; log entry 79) -/

/-- A vector register's byte is poisoned, or one half of a pair. -/
def Hart.strike (h : Hart) (place : Nat) : Hart :=
  if place % 3 = 1 then
    let d := BitVec.ofNat 5 (place / 3)
    h.setV d { h.getV d with psn := setBit (h.getV d).psn (place / 96 % 2048) true }
  else
    let d := BitVec.ofNat 4 (place / 3)
    let hit := fun (p : Pair) => if place / 48 % 2 = 0 then { p with cp := true } else { p with vp := true }
    h.setF d ((h.getF d).modify (place / 96) hit)

/-- A byte of the tile, a scale byte or a row of a slot is poisoned. -/
def Gang.strike (g : Gang) (place : Nat) : Mat :=
  let m := g.mat
  match place % 3 with
  | 0 => { m with tilePsn := setBit m.tilePsn (place / 3 % 16384) true }
  | 1 => { m with scalePsn := setBit m.scalePsn (place / 3 % 512) true }
  | _ =>
    let k := BitVec.ofNat 3 (place / 3)
    let x := m.slot k
    let r := place / 24 % matRows x.kind
    m.setSlot k (x.setRow r { x.row (g.cols x.kind) r with psn := true })

/-- A word of local storage has an error. -/
def State.strikeLocal (s : State) (sp : Space) (off synd : Nat) (o : Flip) : State :=
  match localOff (s.localOf sp).size off with
  | none => s
  | some x => s.mapLocal sp fun m => m.flipWord (x / 4) synd o 0

/-- An error in memory: in a word of eight bytes, in the tag of a sector of HBM4, or in the counter line of a region; it is found and logged
when it is next read (R364, R367). -/
def State.strikeMem (s : State) (loc place synd : Nat) (o : Flip) : State :=
  let at_ := if loc < 2 then none else some loc
  let pa := 64 * (place / 9) + 8 * (place % 9)
  if loc = 9 then if s.populated (4096 * place) 4096 && !s.isSram (4096 * place) then s.putMetaError place synd o at_ else s
  else if !s.populated (64 * (place / 9)) 64 then s
  else if place % 9 = 8 then
    if s.isSram (64 * (place / 9)) || (s.region (place / 9 / 64)).kidx = 0 then s else s.putTagError (place / 9) synd o at_
  else s.putError pa (s.region (pa / 4096)).kidx synd o at_

/-- An error in storage that carries poison: the bytes that it hit are poisoned, or it is corrected. What belongs to a gang is found by the
partition, whether or not its harts have ended (R261). `none` where the state at `loc` carries no poison. -/
def State.strike (s : State) (id : HartId) (loc place synd : Nat) (fixed : Bool) : Option State :=
  let o := if fixed then Flip.fixed else .lost
  let h := s.hartAt id
  let seen := fun (s : State) => s.logAt (match h with | some h => s.who h | none => { }) (if fixed then 1 else 2) 0 loc 0 0 0 synd
  let gang := (s.gangAt id.core id.part).map (·.key)
  match loc with
  | 5 => some (gang.elim s fun g => s.strikeLocal (.tcm g) (4 * place) synd o)
  | 6 => some (gang.elim s fun g => s.strikeLocal (.sp g) (4 * place) synd o)
  | 7 =>
    if place % 3 = 0 then none
    else some (seen (if fixed then s else s.mapHarts (fun g => g.live && g.id == id) fun g => g.strike place))
  | 8 => some (seen (if fixed then s else gang.elim s fun k => s.mapGang k fun g => { g with mat := g.strike place }))
  | 10 | 11 => none
  | _ => some (s.strikeMem loc place synd o)

/-- An error of hardware at a place: bits [15:0] of `synd` are its syndrome, and bit 16 says that it is corrected. -/
def State.hardware (s : State) (id : HartId) (atHart : Bool) (loc synd : Nat) : State :=
  match s.strike id (loc % 12) (loc / 12) (synd % 65536) (synd.testBit 16) with
  | some s => s
  | none =>
    if synd.testBit 16 then s.logAt (match s.hartAt id with | some h => s.who h | none => { }) 1 0 (loc % 12) 0 0 0 synd
    else s.unreliable id atHart (loc % 12) synd

def execHardwareError (h : HartId) (atHart : Bool) (loc synd : DWord) (s : State) : Out :=
  .next (s.hardware h atHart loc.toNat synd.toNat)

/-! ## Scrubs (R359, R363) -/

/-- A region of a destroyed index: plaintext zeros with clean check bits under index 0. -/
def State.scrubRegion (s : State) (r : Nat) : State :=
  let s := s.rekey r 0
  { s with badMeta := natErase s.badMeta r, badTree := natErase s.badTree r, eccMeta := s.eccMeta.filter (·.word != r) }

/-- The scrub of a destroyed index ends: every region that carries it is rewritten, and the index is free. Its keys stay until then
only as what the ciphertext that still stands there was made under. -/
def State.scrubKey (s : State) (key : Nat) : State :=
  if !s.firm.scrub.contains key then s
  else
    let s := (s.regions.filter (·.kidx == key)).foldl (fun s x => s.scrubRegion x.idx) s
    { s with firm := { s.firm with scrub := natErase s.firm.scrub key, keys := s.firm.keys.filter (·.idx != key) } }

def execKeyIndexScrub (key : Nat) (s : State) : Out := .next (s.scrubKey key)

end Sys2Proof.Machine
end

