-- ==== Sys2Proof/Machine/Host.lean ====
section
/-! DEFINITION. The host's side: its accesses, host queues, management commands, bring-up, power and cooling (R373 to R375, R393 to
R402). -/

namespace Sys2Proof.Machine

def State.mapFirm (s : State) (f : Firm → Firm) : State := { s with firm := f s.firm }

/-! ## Queues (R395, R396) -/

def State.queueNo (s : State) (q : Nat) : Option HostQ := s.firm.queues.find? (·.q == q)

def State.setQueue (s : State) (b : HostQ) : State :=
  s.mapFirm fun f => { f with queues := f.queues.map fun x => if x.q = b.q then b else x }

/-- A doorbell write. -/
def State.ring (s : State) (q : Nat) (p : DWord) : State :=
  match s.queueNo q with
  | none => s
  | some b =>
    if b.prod.toNat ≤ p.toNat && p.toNat ≤ b.cons.toNat + 2 ^ b.qlog then s.setQueue { b with prod := p }
    else s.logOpen { asn := b.asn } 9 0 0 0 0 0

def execDoorbell (q : Nat) (p : DWord) (s : State) : Out := .next (s.ring q p)

/-- Copies sectors by physical address as key index 0 gives them; `none` for one with poison or an integrity failure. -/
def State.copySectors (s : State) (pa : Nat) : Nat → List (Option (List Byte)) × State
  | 0 => ([], s)
  | n + 1 =>
    let (r, s) := s.readSector { } (pa / 64) 0 0
    let x := match r with
      | .data => some (cellsRead s.mem pa 64)
      | .zeros => some (List.replicate 64 0)
      | .poison | .integrity => none
    let (l, s) := s.copySectors (pa + 64) n
    (x :: l, s)

/-- The bytes of sectors that were all copied. -/
def allSectors (l : List (Option (List Byte))) : Option (List Byte) :=
  if l.all (·.isSome) then some (l.flatMap (·.getD [])) else none

/-- Reads a descriptor or shape record with user privilege, block by block. -/
def State.readBlocksAt (s : State) (w : Who) (va : DWord) : Nat → Option (List Byte) × State
  | 0 => (some [], s)
  | n + 1 =>
    match s.readBlock w va with
    | (none, s) => (none, s)
    | (some bs, s) =>
      let (l, s) := s.readBlocksAt w (va + 64) n
      (l.map (bs ++ ·), s)

/-- The checks of an entry that was copied (R303): its reject code, or 0 with the launch record and the record that it names. -/
def State.checkEntry (s : State) (b : HostQ) (e : Option (List Byte)) : Nat × Option LaunchRec × List Byte × State :=
  match e with
  | none => (1, none, [], s)
  | some e =>
    match parseLaunch e with
    | none => (1, none, [], s)
    | some l =>
      if !(e.drop 144).all (· == 0) then (1, none, [], s)
      else if l.desc.toNat % 64 ≠ 0 then (2, none, [], s)
      else
        match s.readBlocksAt { core := noCore, asn := b.asn } l.desc (descLen e / 64) with
        | (none, s) => (2, none, [], s)
        | (some d, s) =>
          let c := launchCode e d
          if c ≠ 0 then (c, none, [], s)
          else if (l.preds.filter (· != 0)).any s.predFull then (4, none, [], s)
          else (0, some l, d, s)

/-- The completion record of an entry that is rejected: `e` is the entry, or its first sector, which holds CREC (R302), when that was
copied. -/
def State.rejectEntry (s : State) (b : HostQ) (e : Option (List Byte)) (code : Nat) : State :=
  let crec := match e with | some e => recWord e 8 | none => 0
  if crec % 32 ≠ 0 then s.logOpen { asn := b.asn } 0xD 0 0 crec 0 0
  else s.writeCompletion b.asn 0 (BitVec.ofNat 64 crec) [completionWord 4 code 0 0, 0, 0, s.tstamp]

/-- CONS advances, in entry 0 of the ring too. -/
def State.advance (s : State) (b : HostQ) : State :=
  let c := b.cons + 1
  (s.setQueue { b with cons := c }).writeSector { } (b.qb + 136) 0 0 (leBytes 8 c.toNat) false

/-- The next entry of a queue is consumed, once a pool entry is held for it. -/
def State.consume (s : State) (b : HostQ) : State :=
  let s := s.reap
  if b.prod.toNat ≤ b.cons.toNat || (s.takeEntry 0).isNone then s
  else
    let (l, s) := s.copySectors (b.qb + 256 * (b.cons.toNat % 2 ^ b.qlog)) 4
    let e := allSectors l
    match s.checkEntry b e with
    | (0, some l, d, s) =>
      match s.takeEntry 0 with
      | none => s
      | some (idx, s) =>
        let p : Launcher := { prio := b.prio, asn := b.asn, queue := some b.q, core := noCore,
                              cseq := BitVec.ofNat 64 (recWord (e.getD []) 128) }
        (s.createNode p idx l d).2.advance b
    | (c, _, _, s) => (s.rejectEntry b (l.headD none) c).advance b

def execHostQueueEntry (q : Nat) (s : State) : Out :=
  .next (match s.queueNo q with | some b => s.consume b | none => s)

/-! ## The control page (R394, R400) -/

/-- A register of the control page. -/
def State.ctrlWord (s : State) (off : Nat) : DWord :=
  if off = 0 then BitVec.ofNat 64 (s.firm.st * 2 ^ 60 + s.firm.pst * 2 ^ 56)
  else if off = 8 then s.firm.alarm
  else if 0x10 ≤ off ∧ off < 0x100 then s.firm.telem.getD ((off - 0x10) / 8) 0
  else if 0x400 ≤ off ∧ off < 0xC00 then s.firm.mbox.getD ((off - 0x400) / 8) 0
  else 0

def execAlarmClear (m : DWord) (s : State) : Out := .next (s.mapFirm fun f => { f with alarm := f.alarm &&& ~~~m })

/-- The firmware has finished a command (R397, R402). -/
def State.finishCmd (s : State) (code : Nat) : State :=
  s.mapFirm fun f => { f with mbox := (f.mbox.set 0 (f.mbox.getD 0 0 &&& ~~~1#64)).set 1 (if code = 0 then 0 else rejected code) }

/-- A write of a register: read-only ones ignore it. Bit 0 of MBOX word 0 starts a command; one that is none of R397's is unknown. -/
def State.ctrlWrite (s : State) (off : Nat) (v : DWord) : State :=
  if off = 8 then s.mapFirm fun f => { f with alarm := f.alarm &&& ~~~v }
  else if 0x100 ≤ off ∧ off < 0x300 then s.ring ((off - 0x100) / 8) v
  else if 0x400 ≤ off ∧ off < 0xC00 then
    let s := s.mapFirm fun f => { f with mbox := f.mbox.set ((off - 0x400) / 8) v }
    if off / 8 = 0x80 ∧ v.getLsbD 0 ∧ s.firm.st = 3 ∧ s.firm.unbind.isNone then s.finishCmd 7 else s
  else s

def execMboxWrite (off : Nat) (v : DWord) (s : State) : Out := .next (s.ctrlWrite off v)

/-! ## Accesses of the host (R363 to R365, R393) -/

def State.inCtrl (s : State) (pa : Nat) : Bool := s.man.ctrl ≤ pa && pa < s.man.ctrl + 4096

/-- A host read of bytes of one sector. -/
def State.hostReadSector (s : State) (pa n : Nat) : List Byte × State :=
  let zeros := List.replicate n (0 : Byte)
  if s.inCtrl pa then
    ((List.range n).map fun i => BitVec.ofNat 8 ((s.ctrlWord ((pa + i - s.man.ctrl) / 8 * 8)).toNat / 2 ^ (8 * ((pa + i) % 8))), s)
  else if !s.populated pa n then (zeros, s)
  else if (s.region (pa / 4096)).kidx = 0 then
    match s.readSector { } (pa / 64) 0 0 with
    | (.data, s) => (cellsRead s.mem pa n, s)
    | (.poison, s) => let (v, s) := s.takeFree; (leBytes n v, s)
    | (_, s) => (zeros, s)
  else if s.isSram pa || s.quar.contains (pa / 65536) then (zeros, s)
  else ((List.range n).map fun i => s.cipherAt (pa + i), s)

def State.hostReadAll (s : State) : List (Nat × Nat) → List Byte × State
  | [] => ([], s)
  | (pa, n) :: l =>
    let (bs, s) := s.hostReadSector pa n
    let (r, s) := s.hostReadAll l
    (bs ++ r, s)

def execHostRead (pa len : Nat) (s : State) : Out :=
  let (bs, s) := s.hostReadAll (piecesOf pa len)
  .next (s.mapFirm fun f => { f with lastRead := bs })

/-- Lists one byte, zero or not, in the order of addresses. -/
def rawPut : List Host.Cell → Nat → Byte → List Host.Cell
  | [], pa, b => [(pa, b)]
  | c :: l, pa, b => if pa < c.1 then (pa, b) :: c :: l else c :: rawPut l pa b

/-- A raw write of a byte of a sealed sector: its tag fails while the byte differs from the ciphertext (R364). -/
def State.rawByte (s : State) (pa : Nat) (b : Byte) : State :=
  let s := { s with raw := s.raw.filter (·.1 != pa) }
  if s.cipherAt pa = b then s else { s with raw := rawPut s.raw pa b }

/-- A host write of bytes of one sector. -/
def State.hostWriteSector (s : State) (pa : Nat) (bs : List Byte) : State :=
  if s.inCtrl pa then
    if pa % 8 = 0 ∧ bs.length % 8 = 0 then
      (List.range (bs.length / 8)).foldl (fun s i =>
        s.ctrlWrite (pa - s.man.ctrl + 8 * i) (BitVec.ofNat 64 (leNat ((bs.drop (8 * i)).take 8)))) s
    else s
  else if !s.populated pa bs.length then s
  else if s.isSram pa then
    if (s.region (pa / 4096)).kidx = 0 then s.writeSector { } pa 0 0 bs false else s.logAt { } 0xB 0 1 pa 0 (s.region (pa / 4096)).kidx 0
  else if s.quar.contains (pa / 65536) then s.logAt { } 0xA 0 0 pa 0 (s.region (pa / 4096)).kidx 0
  else if (s.region (pa / 4096)).kidx = 0 then s.writeSector { } pa 0 0 bs false
  else
    let s := (List.range bs.length).foldl (fun s i => s.rawByte (pa + i) (bs.getD i 0)) s
    if bs.length = 64 then { s with psn := natErase s.psn (pa / 64), ecc := s.ecc.filter fun e => e.word / 64 != pa / 64 } else s

def execHostWrite (pa : Nat) (bytes : List Byte) (s : State) : Out :=
  .next ((piecesOf pa bytes.length).foldl (fun (a : State × List Byte) x =>
    (a.1.hostWriteSector x.1 (a.2.take x.2), a.2.drop x.2)) (s, bytes)).1

/-! ## Management commands (R397, R402) -/

/-- The lowest code that applies, from a list in ascending order; 0 when none does. -/
def firstCode (l : List (Nat × Bool)) : Nat := match l.find? (·.2) with | some x => x.1 | none => 0

/-- A command runs from STATE 3 on, one at a time: with a failure code it has no effect. -/
def State.command (s : State) (codes : List (Nat × Bool)) (f : State → State) : State :=
  if s.firm.st ≠ 3 || s.firm.unbind.isSome then s
  else if firstCode codes = 0 then (f s).finishCmd 0
  else s.finishCmd (firstCode codes)

/-- The tag of a signed command is bad or missing. -/
def State.badSig (s : State) (tag : BitVec 256) (cmd : Nat) (args : List Nat) : Bool :=
  match s.firm.session with | some k => tag != Config.kmac k cmd args | none => true

/-- No such address space. -/
def State.noSpace (s : State) (asn : Nat) : Bool := (s.spaceOf asn).isNone

/-- Words of MBOX from a number on. -/
def Firm.putMbox (f : Firm) (i : Nat) (l : List DWord) : Firm :=
  { f with mbox := (f.mbox.take i ++ l ++ f.mbox.drop (i + l.length)).take 256 }

/-- What a report holds, in an order of the model's own (R375; log entry 86). -/
def Report.body (r : Report) : List Byte :=
  leBytes 8 r.nonce.toNat ++ r.manHash ++ leBytes 8 r.seqNo ++ leBytes 32 r.measure.toNat ++ r.kemKey

/-- The attestation report for a nonce, signed with the device attestation key (R375). -/
def State.attestation (s : State) (nonce : DWord) : Report :=
  let r : Report := { nonce := nonce, manHash := shake256 (Config.manifestBytes s.man), seqNo := s.man.seqNo,
                      measure := s.firm.measure, kemKey := (List.range 1568).map (Config.kemByte Config.deviceSecret), sig := [] }
  { r with sig := (List.range 3309).map (Config.signatureByte Config.deviceSecret r.body) }

/-- The report fills MBOX from word 2 on, as far as MBOX reaches (log entry 86); frames quarantined so far may be released. -/
def execAttest (nonce : DWord) (s : State) : Out :=
  .next (s.command [] fun s =>
    let r := s.attestation nonce
    let bs := r.body ++ r.sig
    s.mapFirm fun f =>
      { (f.putMbox 2 ((List.range 254).map fun i => BitVec.ofNat 64 (leNat ((List.range 8).map fun k =>
          bs.getD (Config.reportPlace (8 * i + k)) 0)))) with report := some r, attested := s.quar })

def execSession (ct : List Byte) (s : State) : Out :=
  .next (s.command [(2, (Config.sessionKey ct).isNone)] fun s => s.mapFirm fun f => { f with session := Config.sessionKey ct })

/-- Key indices that are free, lowest first (R359). -/
def State.freeKeys (s : State) : List Nat :=
  ((List.range 255).map (· + 1)).filter fun k => !s.firm.scrub.contains k && s.spaces.all fun p => !p.keys.contains k

/-- A set of key indices as a map of 256 bits in four words. -/
def keyMap (ks : List Nat) : List DWord :=
  (List.range 4).map fun w => BitVec.ofNat 64 ((ks.filter (· / 64 == w)).map fun k => 2 ^ (k % 64)).sum

/-- Keys are generated for the indices given, from the device secret (R359, R373). -/
def Firm.makeKeys (f : Firm) : List Nat → Firm
  | [] => f
  | k :: ks =>
    let b := Config.sealKey Config.deviceSecret f.keyCount
    let new : SealKey := { idx := k, aes := b.setWidth 256, mac := (b >>> 256).setWidth 256 }
    Firm.makeKeys { f with keys := f.keys.filter (·.idx != k) ++ [new], keyCount := f.keyCount + 1 } ks

def State.addSpace (s : State) (asn : Nat) (root trap tcb : DWord) (nkey : Nat) : State :=
  let ks := s.freeKeys.take nkey
  let p : AddrSpace := { asn := asn, root := root.toNat, trap := trap, tcb := tcb, keys := ks }
  { s with spaces := s.spaces ++ [p] }.mapFirm fun f => (f.makeKeys ks).putMbox 2 (keyMap ks)

def execRegas (tag : BitVec 256) (asn : Nat) (root trap tcb : DWord) (nkey : Nat) (s : State) : Out :=
  .next (s.command
    [(1, s.badSig tag 2 [asn, root.toNat, trap.toNat, tcb.toNat, nkey]),
     (2, decide (65536 ≤ asn) || root.toNat % 4096 != 0 || decide (2 ^ 48 ≤ root.toNat) || trap.toNat % 64 != 0 ||
         decide (2 ^ 57 ≤ trap.toNat) || nkey == 0 || decide (16 < nkey)),
     (3, !s.noSpace asn), (5, decide (s.freeKeys.length < nkey))]
    fun s => s.addSpace asn root trap tcb nkey)

/-- A space is gone: its gangs end, its nodes are cancelled, its keys wait for their scrub (log entry 61). L of its job and the record
that it is armed with stay with the fabric engine (R341, R343). -/
def State.dropSpace (s : State) (asn : Nat) : State :=
  let keys := match s.spaceOf asn with | some p => p.keys | none => []
  let s := s.allCopiesDone.endSpace asn
  let s := s.finishNodes ((s.nodes.filter fun n => n.asn == asn && n.st != .finished).map fun n => { id := n.id, out := .cancelled })
  { s with spaces := s.spaces.filter (·.asn != asn), tlb := s.tlb.filter (·.asn != asn), firm := { s.firm with scrub := s.firm.scrub ++ keys },
           fab := { s.fab with rx := s.fab.rx.filter (·.asn != asn) } }

def execDeregas (tag : BitVec 256) (asn : Nat) (s : State) : Out :=
  .next (s.command [(1, s.badSig tag 3 [asn]), (2, decide (65536 ≤ asn)), (4, s.noSpace asn)] fun s => s.dropSpace asn)

/-- Every region of a range of HBM4 has KIDX 0 (R358). -/
def State.inWindow (s : State) (pa n : Nat) : Bool :=
  s.populated pa n && !s.isSram pa && s.regions.all fun r => r.kidx == 0 || r.idx * 4096 + 4096 ≤ pa || pa + n ≤ r.idx * 4096

def State.bindQueue (s : State) (b : HostQ) : State :=
  (s.mapFirm fun f => { f with queues := f.queues.filter (·.q != b.q) ++ [b] }).writeSector { } (b.qb + 136) 0 0 (leBytes 8 0) false

def State.unbindNow (s : State) (q : Nat) : State := s.mapFirm fun f => { f with queues := f.queues.filter (·.q != q) }

/-- Every entry rung for is consumed. -/
def State.drained (s : State) (q : Nat) : Bool := match s.queueNo q with | some b => b.cons == b.prod | none => true

/-- An unbinding that waits is over once CONS equals the producer count. -/
def State.checkUnbind (s : State) : State :=
  match s.firm.unbind with
  | none => s
  | some q => if s.drained q then ((s.unbindNow q).mapFirm fun f => { f with unbind := none }).finishCmd 0 else s

/-- BINDQ: unbinding waits until every entry rung for is consumed, and the command is in execution until then. -/
def execBindq (tag : BitVec 256) (q : Nat) (bind : Bool) (qb : DWord) (qlog prio weight asn : Nat) (s : State) : Out :=
  let sig := s.badSig tag 4 [q, bind.toNat, qb.toNat, qlog, prio, weight, asn]
  if bind then
    .next (s.command
      [(1, sig), (2, decide (63 < q) || decide (65536 ≤ asn) || decide (qlog < 4) || decide (12 < qlog) || decide (3 < prio) || weight == 0 || decide (255 < weight) ||
          qb.toNat % 4096 != 0 || !s.inWindow qb.toNat (256 * 2 ^ qlog)), (4, s.noSpace asn)]
      fun s => s.bindQueue { q := q, qb := qb.toNat, qlog := qlog, prio := prio, weight := weight, asn := asn })
  else if s.firm.st = 3 && s.firm.unbind.isNone && !sig && q ≤ 63 && !s.drained q then
    .next (s.mapFirm fun f => { f with unbind := some q, mbox := f.mbox.set 0 (f.mbox.getD 0 0 ||| 1) })
  else .next (s.command [(1, sig), (2, decide (63 < q))] fun s => s.unbindNow q)

/-- Every team that `p` selects gives way by a deadline. -/
def State.clearOut (s : State) (p : Team → Bool) (deadline : DWord) : State :=
  (s.teams.filter fun t => p t && !s.isBusy t).foldl (fun s t => s.giveWay t deadline 0 false) s

def State.asnOfTask (s : State) (id : Nat) : Option Nat := (s.node id).map (·.asn)

def execPreempt (tag : BitVec 256) (asn : Nat) (deadline : DWord) (s : State) : Out :=
  .next (s.command [(1, s.badSig tag 5 [asn, deadline.toNat]), (2, decide (65536 ≤ asn)), (4, s.noSpace asn)]
    fun s => s.clearOut (fun t => s.asnOfTask t.node == some asn) deadline)

def execStop (tag : BitVec 256) (asn : Nat) (s : State) : Out :=
  .next (s.command [(1, s.badSig tag 6 [asn]), (2, decide (65536 ≤ asn)), (4, s.noSpace asn)] fun s => s.stopJob asn)

def execResume (tag : BitVec 256) (asn : Nat) (s : State) : Out :=
  .next (s.command [(1, s.badSig tag 7 [asn]), (2, decide (65536 ≤ asn)), (4, s.noSpace asn)]
    fun s => s.mapSpace asn fun p => { p with stopped := false, told := false })

def execUnquar (tag : BitVec 256) (frame : Nat) (s : State) : Out :=
  .next (s.command
    [(1, s.badSig tag 8 [frame]), (2, decide (2 ^ 32 ≤ frame)), (6, !s.quar.contains frame || !s.firm.attested.contains frame)]
    fun s => { s with quar := natErase s.quar frame, firm := { s.firm with attested := natErase s.firm.attested frame } })

/-! ## Power (R399) -/

/-- The power state in which the device runs: not above what its manifest and its heat allow (R398, R400). -/
def State.runState (s : State) (n : Nat) : Nat := if s.man.slow || s.firm.hot then max n 1 else n

def State.powerTo (s : State) (n : Nat) : State :=
  if n ≤ 1 then s.mapFirm fun f => { f with pst := s.runState n, ask := none }
  else (s.mapFirm fun f => { f with ask := some n }).clearOut (fun _ => true) (s.tstamp + 1000000)

def execPstate (n : Nat) (s : State) : Out := .next (s.command [(2, decide (3 < n))] fun s => s.powerTo n)

/-- A move to state 2 or 3 is over once no gang is resident. -/
def State.checkPower (s : State) : State :=
  match s.firm.ask with
  | some n => if s.gangs.isEmpty then s.mapFirm fun f => { f with pst := n, ask := none } else s
  | none => s

/-- What the firmware sees to after each move: power states, stops and an unbinding that waits. -/
def State.firmware (s : State) : State := s.checkPower.checkStops.checkUnbind

/-! ## Bring-up (R398) -/

/-- The key that signs an image: the first of its keys is the root key whose hash the ROM holds, and each signs the next (R373). -/
def FwImage.signer (i : FwImage) : Option (List Byte) :=
  match i.keys with
  | [] => none
  | k :: l =>
    if BitVec.ofNat 256 (leNat (shake256 k.1)) = Config.rootKeyHash then
      l.foldl (fun p x => p.bind fun k => if Config.verifies k x.1 x.2 then some x.1 else none) (some k.1)
    else none

/-- The boot ROM accepts an image: its signature verifies under a key that chains to the root, and its version is not below the manifest's
minimum (R373, R374). -/
def Manifest.takes (m : Manifest) (i : FwImage) : Bool :=
  (match i.signer with | some k => Config.verifies k i.bytes i.sig | none => false) && decide (m.minFw ≤ i.version)

def Manifest.accepts (m : Manifest) : Bool := m.images.all m.takes

/-- The images that the ROM measures: up to the first that it refuses. -/
def Manifest.read (m : Manifest) : List FwImage := m.images.takeWhile m.takes ++ (m.images.dropWhile m.takes).take 1

/-- The measurement register after images were measured in boot order (R373; log entry 86). -/
def measured (l : List FwImage) : BitVec 256 :=
  l.foldl (fun m i => BitVec.ofNat 256 (leNat (shake256 (leBytes 32 m.toNat ++ shake256 i.bytes)))) 0

/-- The device after power-on or reset: ready, with a manifest that fails in STATE 5, or with firmware that is refused in the boot ROM
(log entry 86). Device time, the links that trained and the sync status are open values (log entry 5). -/
def State.powerOn (s : State) : State :=
  let f := fun i => Config.freeNat (s.free + i)
  let r := { State.reset with man := s.man, turns := s.turns, free := s.free + 16 }
  if !s.man.signed then r.mapFirm fun x => { x with st := 5 }
  else if !s.man.accepts then r.mapFirm fun x => { x with measure := measured s.man.read }
  else
    let r := { r with tstamp := BitVec.ofNat 64 (f 0) }
    let r := r.mapFab fun x => { x with lock := (f 1).testBit 0, bound := BitVec.ofNat 32 (f 2),
                                        ports := (List.range 12).map fun p => { up := (f 3).testBit p } }
    r.mapFirm fun x => { x with st := 3, pst := if s.man.slow then 1 else 0, measure := measured s.man.images }

def execPowerOnReset (s : State) : Out := .next s.powerOn

/-! ## Telemetry and cooling (R400) -/

/-- Power and the three temperatures come from outside; the count of throttle events is the device's own. -/
def execTelemetryRefresh (vals : List DWord) (s : State) : Out :=
  let l := (List.range 4).map (fun i => vals.getD i 0) ++ [BitVec.ofNat 64 s.firm.throttles] ++ List.replicate 25 0
  .next (s.mapFirm fun f => { f with telem := l })

/-- A die reaches 105 °C. -/
def execThermalThrottle (s : State) : Out :=
  .next ((s.mapFirm fun f => { f with pst := max f.pst 1, hot := true, throttles := f.throttles + 1 }).raiseAlarm 1)

/-- A die has stayed below 95 °C for 100 ms. -/
def execThermalRecovery (s : State) : Out :=
  .next (if s.firm.hot then
    s.mapFirm fun f => { f with hot := false, pst := if f.pst = 1 then (if s.man.slow then 1 else 0) else f.pst } else s)

/-- A die reaches 115 °C. -/
def execThermalHalt (s : State) : Out := .next (s.mapFirm fun f => { f with st := 4 })

end Sys2Proof.Machine
end

