-- ==== Sys2Proof/Machine/Dispatch.lean ====
section
/-! DEFINITION. The meaning of each instruction, one arm for each constructor. -/

namespace Sys2Proof.Machine

def exec (i : Instr) (s : State) : Host.Outcome State Fault Refusal :=
  match i with
  | .add fm d a b => Sys2Proof.Machine.execAdd fm d a b s
  | .sub fm d a b => Sys2Proof.Machine.execSub fm d a b s
  | .mul fm d a b => Sys2Proof.Machine.execMul fm d a b s
  | .mulh fm d a b => Sys2Proof.Machine.execMulh fm d a b s
  | .mulhN fm d a b => Sys2Proof.Machine.execMulhN fm d a b s
  | .div fm d a b => Sys2Proof.Machine.execDiv fm d a b s
  | .divN fm d a b => Sys2Proof.Machine.execDivN fm d a b s
  | .rem fm d a b => Sys2Proof.Machine.execRem fm d a b s
  | .remN fm d a b => Sys2Proof.Machine.execRemN fm d a b s
  | .and fm d a b => Sys2Proof.Machine.execAnd fm d a b s
  | .or fm d a b => Sys2Proof.Machine.execOr fm d a b s
  | .xor fm d a b => Sys2Proof.Machine.execXor fm d a b s
  | .andn fm d a b => Sys2Proof.Machine.execAndn fm d a b s
  | .shl fm d a b => Sys2Proof.Machine.execShl fm d a b s
  | .shr fm d a b => Sys2Proof.Machine.execShr fm d a b s
  | .sar fm d a b => Sys2Proof.Machine.execSar fm d a b s
  | .rol fm d a b => Sys2Proof.Machine.execRol fm d a b s
  | .addImm fm d im => Sys2Proof.Machine.execAddImm fm d im s
  | .li fm d im => Sys2Proof.Machine.execLi fm d im s
  | .mov fm d y => Sys2Proof.Machine.execMov fm d y s
  | .andImm fm d im => Sys2Proof.Machine.execAndImm fm d im s
  | .orImm fm d im => Sys2Proof.Machine.execOrImm fm d im s
  | .xorImm fm d im => Sys2Proof.Machine.execXorImm fm d im s
  | .shlImm fm d im => Sys2Proof.Machine.execShlImm fm d im s
  | .shrImm fm d im => Sys2Proof.Machine.execShrImm fm d im s
  | .sarImm fm d im => Sys2Proof.Machine.execSarImm fm d im s
  | .rolImm fm d im => Sys2Proof.Machine.execRolImm fm d im s
  | .mulImm fm d im => Sys2Proof.Machine.execMulImm fm d im s
  | .clz fm d a => Sys2Proof.Machine.execClz fm d a s
  | .ctz fm d a => Sys2Proof.Machine.execCtz fm d a s
  | .popc fm d a => Sys2Proof.Machine.execPopc fm d a s
  | .bext fm d a b => Sys2Proof.Machine.execBext fm d a b s
  | .bins fm d a b => Sys2Proof.Machine.execBins fm d a b s
  | .sel fm d a b => Sys2Proof.Machine.execSel fm d a b s
  | .min fm d a b => Sys2Proof.Machine.execMin fm d a b s
  | .max fm d a b => Sys2Proof.Machine.execMax fm d a b s
  | .minN fm d a b => Sys2Proof.Machine.execMinN fm d a b s
  | .maxN fm d a b => Sys2Proof.Machine.execMaxN fm d a b s
  | .bEq fm a b p => Sys2Proof.Machine.execBEq fm a b p s
  | .bNe fm a b p => Sys2Proof.Machine.execBNe fm a b p s
  | .bLt fm a b p => Sys2Proof.Machine.execBLt fm a b p s
  | .bGe fm a b p => Sys2Proof.Machine.execBGe fm a b p s
  | .bLtn fm a b p => Sys2Proof.Machine.execBLtn fm a b p s
  | .bGen fm a b p => Sys2Proof.Machine.execBGen fm a b p s
  | .jmp fm p => Sys2Proof.Machine.execJmp fm p s
  | .call fm d p => Sys2Proof.Machine.execCall fm d p s
  | .jmpReg fm q => Sys2Proof.Machine.execJmpReg fm q s
  | .callReg fm q y => Sys2Proof.Machine.execCallReg fm q y s
  | .ret fm q => Sys2Proof.Machine.execRet fm q s
  | .setvl fm d a w => Sys2Proof.Machine.execSetvl fm d a w s
  | .vjoin fm two => Sys2Proof.Machine.execVjoin fm two s
  | .vsplit fm four => Sys2Proof.Machine.execVsplit fm four s
  | .mfs fm d sys => Sys2Proof.Machine.execMfs fm d sys s
  | .mts fm a sys => Sys2Proof.Machine.execMts fm a sys s
  | .trap fm n => Sys2Proof.Machine.execTrap fm n s
  | .eret fm => Sys2Proof.Machine.execEret fm s
  | .yield fm => Sys2Proof.Machine.execYield fm s
  | .wfe fm => Sys2Proof.Machine.execWfe fm s
  | .lds fm d b im w t => Sys2Proof.Machine.execLds fm d b im w t s
  | .ldD fm d b im t => Sys2Proof.Machine.execLdD fm d b im t s
  | .ldz fm d b im w t => Sys2Proof.Machine.execLdz fm d b im w t s
  | .st fm v b im w t => Sys2Proof.Machine.execSt fm v b im w t s
  | .ldacq fm d b im w c => Sys2Proof.Machine.execLdacq fm d b im w c s
  | .strel fm v b im w c => Sys2Proof.Machine.execStrel fm v b im w c s
  | .fenceSv fm => Sys2Proof.Machine.execFenceSv fm s
  | .fenceVs fm => Sys2Proof.Machine.execFenceVs fm s
  | .fence fm c => Sys2Proof.Machine.execFence fm c s
  | .pref fm b im l => Sys2Proof.Machine.execPref fm b im l s
  | .tlbinvVa fm a y => Sys2Proof.Machine.execTlbinvVa fm a y s
  | .tlbinvAsn fm y => Sys2Proof.Machine.execTlbinvAsn fm y s
  | .tlbinvAll fm => Sys2Proof.Machine.execTlbinvAll fm s
  | .vld fm v b w t k => Sys2Proof.Machine.execVld fm v b w t k s
  | .vlds fm v b c w t k => Sys2Proof.Machine.execVlds fm v b c w t k s
  | .vldx fm v b c w y t im k => Sys2Proof.Machine.execVldx fm v b c w y t im k s
  | .vst fm v b w t k => Sys2Proof.Machine.execVst fm v b w t k s
  | .vsts fm v b c w t k => Sys2Proof.Machine.execVsts fm v b c w t k s
  | .vstu fm v b c t k => Sys2Proof.Machine.execVstu fm v b c t k s
  | .vstx fm v b c w y t im o k => Sys2Proof.Machine.execVstx fm v b c w y t im o k s
  | .vadd fm d a b f k => Sys2Proof.Machine.execVadd fm d a b f k s
  | .vsub fm d a b f k => Sys2Proof.Machine.execVsub fm d a b f k s
  | .vmul fm d a b f k => Sys2Proof.Machine.execVmul fm d a b f k s
  | .vdiv fm d a b f k => Sys2Proof.Machine.execVdiv fm d a b f k s
  | .vmin fm d a b f k => Sys2Proof.Machine.execVmin fm d a b f k s
  | .vmax fm d a b f k => Sys2Proof.Machine.execVmax fm d a b f k s
  | .vfma fm d a b f k => Sys2Proof.Machine.execVfma fm d a b f k s
  | .vfms fm d a b f k => Sys2Proof.Machine.execVfms fm d a b f k s
  | .vsqrt fm d a f k => Sys2Proof.Machine.execVsqrt fm d a f k s
  | .vrsqrt fm d a f k => Sys2Proof.Machine.execVrsqrt fm d a f k s
  | .vabs fm d a f k => Sys2Proof.Machine.execVabs fm d a f k s
  | .vneg fm d a f k => Sys2Proof.Machine.execVneg fm d a f k s
  | .viadd fm d a b f k => Sys2Proof.Machine.execViadd fm d a b f k s
  | .visub fm d a b f k => Sys2Proof.Machine.execVisub fm d a b f k s
  | .vimul fm d a b f k => Sys2Proof.Machine.execVimul fm d a b f k s
  | .vimulh fm d a b f k => Sys2Proof.Machine.execVimulh fm d a b f k s
  | .vimin fm d a b f k => Sys2Proof.Machine.execVimin fm d a b f k s
  | .vimax fm d a b f k => Sys2Proof.Machine.execVimax fm d a b f k s
  | .vclz fm d a f k => Sys2Proof.Machine.execVclz fm d a f k s
  | .vpopc fm d a f k => Sys2Proof.Machine.execVpopc fm d a f k s
  | .vand fm d a b f k => Sys2Proof.Machine.execVand fm d a b f k s
  | .vor fm d a b f k => Sys2Proof.Machine.execVor fm d a b f k s
  | .vxor fm d a b f k => Sys2Proof.Machine.execVxor fm d a b f k s
  | .vshl fm d a b f k => Sys2Proof.Machine.execVshl fm d a b f k s
  | .vshr fm d a b f k => Sys2Proof.Machine.execVshr fm d a b f k s
  | .vsar fm d a b f k => Sys2Proof.Machine.execVsar fm d a b f k s
  | .vfshL fm d a b f k => Sys2Proof.Machine.execVfshL fm d a b f k s
  | .vfshR fm d a b f k => Sys2Proof.Machine.execVfshR fm d a b f k s
  | .vcmp fm m a b f c k => Sys2Proof.Machine.execVcmp fm m a b f c k s
  | .vred fm d a f o k => Sys2Proof.Machine.execVred fm d a f o k s
  | .vredAddxProduct fm d a b f k => Sys2Proof.Machine.execVredAddxProduct fm d a b f k s
  | .vgred fm d a n f o k => Sys2Proof.Machine.execVgred fm d a n f o k s
  | .vscan fm d a f o k => Sys2Proof.Machine.execVscan fm d a f o k s
  | .vcvt fm d a b f k => Sys2Proof.Machine.execVcvt fm d a b f k s
  | .mand fm d a b k => Sys2Proof.Machine.execMand fm d a b k s
  | .mor fm d a b k => Sys2Proof.Machine.execMor fm d a b k s
  | .mxor fm d a b k => Sys2Proof.Machine.execMxor fm d a b k s
  | .mandn fm d a b k => Sys2Proof.Machine.execMandn fm d a b k s
  | .mnot fm d a k => Sys2Proof.Machine.execMnot fm d a k s
  | .mpopc fm d a k => Sys2Proof.Machine.execMpopc fm d a k s
  | .mfirst fm d a k => Sys2Proof.Machine.execMfirst fm d a k s
  | .vslideUp fm d a n k => Sys2Proof.Machine.execVslideUp fm d a n k s
  | .vslideDown fm d a n k => Sys2Proof.Machine.execVslideDown fm d a n k s
  | .vbcast fm d y k => Sys2Proof.Machine.execVbcast fm d y k s
  | .vbcastI fm d y t k => Sys2Proof.Machine.execVbcastI fm d y t k s
  | .vperm fm d a im k => Sys2Proof.Machine.execVperm fm d a im k s
  | .vcompress fm d a m k => Sys2Proof.Machine.execVcompress fm d a m k s
  | .vexpand fm d a m k => Sys2Proof.Machine.execVexpand fm d a m k s
  | .ldsSp fm d b im w => Sys2Proof.Machine.execLdsSp fm d b im w s
  | .ldDSp fm d b im => Sys2Proof.Machine.execLdDSp fm d b im s
  | .ldzSp fm d b im w => Sys2Proof.Machine.execLdzSp fm d b im w s
  | .stSp fm v b im w => Sys2Proof.Machine.execStSp fm v b im w s
  | .bstat fm d sel => Sys2Proof.Machine.execBstat fm d sel s
  | .vldSp fm v b w => Sys2Proof.Machine.execVldSp fm v b w s
  | .vldsSp fm v b c w => Sys2Proof.Machine.execVldsSp fm v b c w s
  | .vldxSp fm v b c w => Sys2Proof.Machine.execVldxSp fm v b c w s
  | .vldpSp fm v b c => Sys2Proof.Machine.execVldpSp fm v b c s
  | .vstSp fm v b w => Sys2Proof.Machine.execVstSp fm v b w s
  | .vstsSp fm v b c w => Sys2Proof.Machine.execVstsSp fm v b c w s
  | .vstxSp fm v b c w => Sys2Proof.Machine.execVstxSp fm v b c w s
  | .vstpSp fm v b c => Sys2Proof.Machine.execVstpSp fm v b c s
  | .amo fm xd b y o dw sp => Sys2Proof.Machine.execAmo fm xd b y o dw sp s
  | .cas fm xd b y dw sp => Sys2Proof.Machine.execCas fm xd b y dw sp s
  | .vamo fm v b c dw sp o => Sys2Proof.Machine.execVamo fm v b c dw sp o s
  | .vwait fm v b im dw sp c => Sys2Proof.Machine.execVwait fm v b im dw sp c s
  | .vwaitReevaluation h => Sys2Proof.Machine.execVwaitReevaluation h s
  | .barArrive fm d b c => Sys2Proof.Machine.execBarArrive fm d b c s
  | .barWait fm b t => Sys2Proof.Machine.execBarWait fm b t s
  | .barSync fm d b c => Sys2Proof.Machine.execBarSync fm d b c s
  | .gbar fm => Sys2Proof.Machine.execGbar fm s
  | .barRd fm d b sel => Sys2Proof.Machine.execBarRd fm d b sel s
  | .sbind fm q b v t => Sys2Proof.Machine.execSbind fm q b v t s
  | .sbindF fm q b t => Sys2Proof.Machine.execSbindF fm q b t s
  | .sstop fm q => Sys2Proof.Machine.execSstop fm q s
  | .ssave fm q b t => Sys2Proof.Machine.execSsave fm q b t s
  | .srest fm q b t => Sys2Proof.Machine.execSrest fm q b t s
  | .streamFetch h q => Sys2Proof.Machine.execStreamFetch h q s
  | .sopPop fm d q => Sys2Proof.Machine.execSopPop fm d q s
  | .sopSkip fm q n => Sys2Proof.Machine.execSopSkip fm q n s
  | .sopPos fm d q => Sys2Proof.Machine.execSopPos fm d q s
  | .sopRem fm d q => Sys2Proof.Machine.execSopRem fm d q s
  | .fld fm f b y t k => Sys2Proof.Machine.execFld fm f b y t k s
  | .fldQ fm f q y k => Sys2Proof.Machine.execFldQ fm f q y k s
  | .fst fm f b t k => Sys2Proof.Machine.execFst fm f b t k s
  | .fcount fm d f k => Sys2Proof.Machine.execFcount fm d f k s
  | .fclear fm f k => Sys2Proof.Machine.execFclear fm f k s
  | .fisect fm d a b f o k => Sys2Proof.Machine.execFisect fm d a b f o k s
  | .funion fm d a b f o k => Sys2Proof.Machine.execFunion fm d a b f o k s
  | .fmerge fm d a b k => Sys2Proof.Machine.execFmerge fm d a b k s
  | .fsort fm d a f o k => Sys2Proof.Machine.execFsort fm d a f o k s
  | .fcompact fm d a f k => Sys2Proof.Machine.execFcompact fm d a f k s
  | .fexpandV fm d a f k => Sys2Proof.Machine.execFexpandV fm d a f k s
  | .fexpandD fm d a f k => Sys2Proof.Machine.execFexpandD fm d a f k s
  | .fexpandC fm d f k => Sys2Proof.Machine.execFexpandC fm d f k s
  | .fpack fm d c b f k => Sys2Proof.Machine.execFpack fm d c b f k s
  | .fpackD fm d a f k => Sys2Proof.Machine.execFpackD fm d a f k s
  | .fwalk fm d y b v k => Sys2Proof.Machine.execFwalk fm d y b v k s
  | .mldb fm g y f => Sys2Proof.Machine.execMldb fm g y f s
  | .mma fm r a f => Sys2Proof.Machine.execMma fm r a f s
  | .mmaS24 fm r a m f => Sys2Proof.Machine.execMmaS24 fm r a m f s
  | .mmaX fm r a im f => Sys2Proof.Machine.execMmaX fm r a im f s
  | .mseal fm d => Sys2Proof.Machine.execMseal fm d s
  | .mpeek fm d a r => Sys2Proof.Machine.execMpeek fm d a r s
  | .mstat fm d a r => Sys2Proof.Machine.execMstat fm d a r s
  | .epiCfg fm a f y => Sys2Proof.Machine.execEpiCfg fm a f y s
  | .epiGo fm b => Sys2Proof.Machine.execEpiGo fm b s
  | .epiGoLd fm b => Sys2Proof.Machine.execEpiGoLd fm b s
  | .epilogueDrain core => Sys2Proof.Machine.execEpilogueDrain core s
  | .slotFree core => Sys2Proof.Machine.execSlotFree core s
  | .cpyGo fm d b t => Sys2Proof.Machine.execCpyGo fm d b t s
  | .cpyWait fm t => Sys2Proof.Machine.execCpyWait fm t s
  | .cpyWaitDrop fm d t => Sys2Proof.Machine.execCpyWaitDrop fm d t s
  | .cpyPoll fm d t => Sys2Proof.Machine.execCpyPoll fm d t s
  | .copyTransfer h n => Sys2Proof.Machine.execCopyTransfer h n s
  | .copyComplete h n => Sys2Proof.Machine.execCopyComplete h n s
  | .copyFault h n => Sys2Proof.Machine.execCopyFault h n s
  | .launch fm d b => Sys2Proof.Machine.execLaunch fm d b s
  | .launchTry fm d b => Sys2Proof.Machine.execLaunchTry fm d b s
  | .tdep fm d y p => Sys2Proof.Machine.execTdep fm d y p s
  | .twait fm d t => Sys2Proof.Machine.execTwait fm d t s
  | .texit fm a => Sys2Proof.Machine.execTexit fm a s
  | .texitSv fm d a y => Sys2Proof.Machine.execTexitSv fm d a y s
  | .gangStart node core parts => Sys2Proof.Machine.execGangStart node core parts s
  | .copyNodeRun node => Sys2Proof.Machine.execCopyNodeRun node s
  | .taskAging node => Sys2Proof.Machine.execTaskAging node s
  | .dealerRequest node => Sys2Proof.Machine.execDealerRequest node s
  | .preemptionRequest h => Sys2Proof.Machine.execPreemptionRequest h s
  | .teamRestore node gang core parts => Sys2Proof.Machine.execTeamRestore node gang core parts s
  | .dsend fm f v m => Sys2Proof.Machine.execDsend fm f v m s
  | .drecv fm f m d => Sys2Proof.Machine.execDrecv fm f m d s
  | .drecvTry fm f m d => Sys2Proof.Machine.execDrecvTry fm f m d s
  | .messageDelivery ch => Sys2Proof.Machine.execMessageDelivery ch s
  | .messageForward ch => Sys2Proof.Machine.execMessageForward ch s
  | .markerReceipt ch => Sys2Proof.Machine.execMarkerReceipt ch s
  | .linkDown port => Sys2Proof.Machine.execLinkDown port s
  | .linkUp port => Sys2Proof.Machine.execLinkUp port s
  | .timeSyncBeat ns bound => Sys2Proof.Machine.execTimeSyncBeat ns bound s
  | .snap fm d j => Sys2Proof.Machine.execSnap fm d j s
  | .snapArm fm d b => Sys2Proof.Machine.execSnapArm fm d b s
  | .snapDrop fm d j => Sys2Proof.Machine.execSnapDrop fm d j s
  | .snapPoll fm d j => Sys2Proof.Machine.execSnapPoll fm d j s
  | .rollback fm d j n => Sys2Proof.Machine.execRollback fm d j n s
  | .blockCopyComplete asn block => Sys2Proof.Machine.execBlockCopyComplete asn block s
  | .tmark fm a => Sys2Proof.Machine.execTmark fm a s
  | .pcntRd fm d n => Sys2Proof.Machine.execPcntRd fm d n s
  | .tstamp fm d sel => Sys2Proof.Machine.execTstamp fm d sel s
  | .sample core part => Sys2Proof.Machine.execSample core part s
  | .counterMultiplex core part n => Sys2Proof.Machine.execCounterMultiplex core part n s
  | .traceRecordWrite asn => Sys2Proof.Machine.execTraceRecordWrite asn s
  | .timeEvent h => Sys2Proof.Machine.execTimeEvent h s
  | .diagSt fm v b c space => Sys2Proof.Machine.execDiagSt fm v b c space s
  | .sealLog fm d b a => Sys2Proof.Machine.execSealLog fm d b a s
  | .asynchronousError h => Sys2Proof.Machine.execAsynchronousError h s
  | .hardwareError h atHart loc synd => Sys2Proof.Machine.execHardwareError h atHart loc synd s
  | .keyIndexScrub key => Sys2Proof.Machine.execKeyIndexScrub key s
  | .hostRead pa len => Sys2Proof.Machine.execHostRead pa len s
  | .hostWrite pa bytes => Sys2Proof.Machine.execHostWrite pa bytes s
  | .doorbell q p => Sys2Proof.Machine.execDoorbell q p s
  | .hostQueueEntry q => Sys2Proof.Machine.execHostQueueEntry q s
  | .alarmClear bits => Sys2Proof.Machine.execAlarmClear bits s
  | .mboxWrite off val => Sys2Proof.Machine.execMboxWrite off val s
  | .attest nonce => Sys2Proof.Machine.execAttest nonce s
  | .session ct => Sys2Proof.Machine.execSession ct s
  | .regas tag asn root trap tcb nkey => Sys2Proof.Machine.execRegas tag asn root trap tcb nkey s
  | .deregas tag asn => Sys2Proof.Machine.execDeregas tag asn s
  | .bindq tag q bind qb qlog prio weight asn => Sys2Proof.Machine.execBindq tag q bind qb qlog prio weight asn s
  | .preempt tag asn deadline => Sys2Proof.Machine.execPreempt tag asn deadline s
  | .stop tag asn => Sys2Proof.Machine.execStop tag asn s
  | .resume tag asn => Sys2Proof.Machine.execResume tag asn s
  | .unquar tag frame => Sys2Proof.Machine.execUnquar tag frame s
  | .pstate n => Sys2Proof.Machine.execPstate n s
  | .powerOnReset => Sys2Proof.Machine.execPowerOnReset s
  | .telemetryRefresh vals => Sys2Proof.Machine.execTelemetryRefresh vals s
  | .thermalThrottle => Sys2Proof.Machine.execThermalThrottle s
  | .thermalRecovery => Sys2Proof.Machine.execThermalRecovery s
  | .thermalHalt => Sys2Proof.Machine.execThermalHalt s
  | .snapshotComplete asn => Sys2Proof.Machine.execSnapshotComplete asn s
  | .saveWindowDrainComplete h => Sys2Proof.Machine.execSaveWindowDrainComplete h s
  | .precisionTimeProtocol ns bound lock => Sys2Proof.Machine.execPrecisionTimeProtocol ns bound lock s

end Sys2Proof.Machine
end

