-- ==== Sys2Proof/Machine/Front.lean ====
section
/-! DEFINITION. Fetch, framing, the checks of a convoy before it issues, the choice of the hart that issues, and the moves of the
machine (R21, R35, R55 to R59, R111, R113, R115, R179, R180, R386). `ex` stands for the meaning of the instructions (Dispatch.lean). -/

namespace Sys2Proof.Machine

/-! ## Fetch (R58) -/

/-- A failing fetch: how it traps, its cause and address. -/
structure FetchErr where
  kind : Kind
  code : Nat
  addr : DWord
  deriving DecidableEq, Repr

/-- Fetches one word of an instruction. -/
def State.fetchWord (s : State) (va : DWord) : Except FetchErr Nat × State :=
  let w := s.who s.h
  match s.translate w va.toNat .fetch with
  | (.error (.cause c), s) => (.error { kind := .before, code := c, addr := va }, s)
  | (.error .wait, s) => (.error { kind := .before, code := 0x20, addr := va }, s)
  | (.ok (pa, key), s) =>
    match s.loadSector w [] pa 4 key va.toNat with
    | (none, s) => (.error { kind := .squash, code := 0x44, addr := va }, s)
    | (some l, s) =>
      if l.any (·.2) then (.error { kind := .squash, code := 0x40, addr := va }, s)
      else (.ok (leNat (l.map (·.1))), s)

/-- Fetches `n` words. -/
def State.fetchWords (s : State) (va : DWord) : Nat → Except FetchErr (List Nat) × State
  | 0 => (.ok [], s)
  | n + 1 =>
    match s.fetchWord va with
    | (.error e, s) => (.error e, s)
    | (.ok w, s) =>
      match s.fetchWords (va + 4) n with
      | (.error e, s) => (.error e, s)
      | (.ok ws, s) => (.ok (w :: ws), s)

/-- Majors whose instructions may share a convoy (R21). -/
def chainable (w0 : Nat) : Bool :=
  let m := bits w0 2 6
  (0x0C ≤ m && m ≤ 0x1F) || (0x26 ≤ m && m ≤ 0x29)

/-- A convoy as fetched: the words of each member; and word 0 of the member whose chain bit breaks R21, if one does. -/
structure Framed where
  members : List (List Nat)
  bad : Option Nat
  deriving DecidableEq, Repr

/-- Fetches and frames the convoy at `va`, at most `n` members more (R21, R57). The instruction after a chained member counts as a
member for the fetch causes, whatever its major: all its words are fetched before 0x04 is raised (log entry 72). -/
def State.frameFrom (s : State) (prev : Option Nat) (va : DWord) : Nat → Except FetchErr Framed × State
  | 0 => (.ok { members := [], bad := prev }, s)
  | n + 1 =>
    match s.fetchWord va with
    | (.error e, s) => (.error e, s)
    | (.ok w0, s) =>
      let len := lenOfL (bits w0 0 2)
      match s.fetchWords (va + 4) (len / 4 - 1) with
      | (.error e, s) => (.error e, s)
      | (.ok ws, s) =>
        let me := w0 :: ws
        if prev.isSome && !chainable w0 then (.ok { members := [me], bad := prev }, s)
        else if !flag w0 8 then (.ok { members := [me], bad := none }, s)
        else if !chainable w0 then (.ok { members := [me], bad := some w0 }, s)
        else
          match s.frameFrom (some w0) (va + BitVec.ofNat 64 len) n with
          | (.error e, s) => (.error e, s)
          | (.ok f, s) => (.ok { f with members := me :: f.members }, s)

/-- The convoy at the pc: fetched ahead, or now (R59). -/
def State.frame (s : State) : Except FetchErr Framed × State :=
  match s.h.ahead.find? (·.1 == s.h.pc) with
  | some (_, f) => (.ok { members := f.members, bad := f.bad },
      s.mapH fun h => { h with ahead := h.ahead.filter (·.1 != h.pc) })
  | none => s.frameFrom none s.h.pc 4

/-- A hart fetches the convoy at an address ahead of issue (R59); a fetch that fails is not kept. -/
def State.fetchAhead (s : State) (id : HartId) (pc : DWord) : State :=
  if (s.hartAt id).isNone then s
  else
    let s1 := s.focus id
    match s1.frameFrom none pc 4 with
    | (.ok f, s2) => s2.mapH fun h =>
        { h with ahead := (pc, { members := f.members, bad := f.bad }) :: h.ahead.filter (·.1 != pc) }
    | (.error _, _) => s

/-! ## Decode checks (R55, R56) -/

/-- Privileged instructions (R31, R100, R370). -/
def privileged : Instr → Bool
  | .tlbinvVa .. | .tlbinvAsn .. | .tlbinvAll .. | .eret .. | .snap .. | .snapArm .. | .snapDrop .. | .rollback .. => true
  | .diagSt .. | .sealLog .. => true
  | .mts _ _ n => supervisorOnly n.toNat
  | _ => false

/-- Decodes one member in a mode. -/
def decodeMember (prv : Bool) (ws : List Nat) : Except (Nat × DWord) Instr :=
  let w := fun k => ws.getD k 0
  let v := BitVec.ofNat 64 (w 0)
  match decodeWords (w 0) (w 1) (w 2) (w 3) (w 4) with
  | .error .illegal => .error (1, v)
  | .error .reserved => .error (2, v)
  | .ok i => if privileged i && !prv then .error (3, v) else .ok i

/-- All members, in address order: the first failure decides. -/
def decodeAll (prv : Bool) : List (List Nat) → Except (Nat × DWord) (List Instr)
  | [] => .ok []
  | ws :: l =>
    match decodeMember prv ws with
    | .error e => .error e
    | .ok i =>
      match decodeAll prv l with
      | .error e => .error e
      | .ok is => .ok (i :: is)

/-! ## Execution of a convoy -/

/-- A member below CM of a resumed convoy is skipped (R111); a continuable one counts as the convoy's (R239). -/
def State.skip (s : State) (i : Instr) : State :=
  let s := s.mapH fun h => { h with pc := h.pc + BitVec.ofNat 64 (instrLen i) }
  { s with cv := { s.cv with idx := s.cv.idx + 1, cont := s.cv.cont || isContinuable i } }

/-- Finished elements of the member that resumes: those below IDX and those whose DONE bit is set (R111). -/
def State.enterMember (s : State) : State :=
  if s.cv.resumed && s.cv.idx == s.cv.cm && !s.cv.pend then
    { s with cv := { s.cv with done := s.h0.vcm ||| BitVec.ofNat 2048 (2 ^ s.cv.cmIdx - 1) } }
  else s

/-- A request stops the convoy before the member that comes next, which has not begun: not one that resumes (R23). -/
def Convoy.stopsHere (c : Convoy) : Bool :=
  !c.pend && c.cut == some (c.idx, 0) && decide (0 < c.idx) && !(c.resumed && decide (c.idx ≤ c.cm))

/-- The member writes something when it runs whole with these masks: an active element, or what it writes whatever its elements. -/
def yields (h : Hart) (i : Instr) : Bool :=
  let m := bits (encodeWord0 i) 2 6
  let n := match i with | .vstu _ _ _ c _ _ => (h.getX c).toNat | _ => h.vl.toNat
  (0x15 ≤ m && m ≤ 0x17) || 0x26 ≤ m || (List.range n).any fun e => match formOf i with | some fm => activeAt fm h e | none => false

/-- A member that had something to write has run, in protected mode (R178). -/
def State.noteWrote (s b : State) (i : Instr) : State :=
  if b.h.prot && !b.cv.pend then
    { s with cv := { s.cv with wrote := if yields b.h i then b.cv.wrote ++ [b.cv.idx] else b.cv.wrote } }
  else s

/-- The members, one after another (R109), until one traps, waits, parks or is stopped by a request between two (R23). -/
def runMembers (ex : Instr → State → Out) : List Instr → State → Out
  | [], s => .next s
  | i :: is, s =>
    if s.cv.resumed && decide (s.cv.idx < s.cv.cm) then runMembers ex is (s.skip i)
    else if s.cv.stopsHere then .next (s.endExc i (.cut 0))
    else
      match ex i s.enterMember with
      | .next s' =>
        let s' := s'.noteWrote s i
        if s'.cv.active then runMembers ex is s' else .next s'
      | .fault r => .fault r
      | .refused r => .refused r

/-- A convoy begins, of these members. -/
def State.enterConvoy (s : State) (cut : Option (Nat × Nat)) (resumed : Bool) (is : List Instr) : State :=
  let cm := if resumed then s.h.ves.cm.toNat else 0
  let names := (is.drop cm).flatMap fun i => namedBits i ++ decidedBits s.h i
  { s with h0 := s.h, cv := { active := true, base := s.h.pc, resumed := resumed, cm := cm, cmIdx := s.h.ves.idx.toNat, cut := cut,
                              low := s.h.lowDead names, ctrs := s.ctrs } }

/-- What no request comes before: a cause found at dispatch, and the wait for stream elements (R98, R113, R223, R239). -/
def Ended.atDispatch (e : Ended) : Bool := e == .trapped .before || e == .waits streamWait

/-- The checks at dispatch of all members come before any takes effect: `s` before a convoy that they stopped, with nothing but its trap
or its wait, and what is asked of the streams (R81, R110, R113, R222). -/
def State.checkedOnly (s t : State) : State := { s with h := { t.h with async := s.h.async }, ended := t.ended }

/-- Issue of a convoy of several members, or of one that resumes or may be stopped. -/
def issueMembers (ex : Instr → State → Out) (cut : Option (Nat × Nat)) (resumed : Bool) (is : List Instr) (s : State) : Out :=
  match runMembers ex is (s.enterConvoy none resumed is) with
  | .next t =>
    if t.ended.atDispatch then .next (if is.length = 1 then t else s.checkedOnly t)
    else if cut.isNone then .next t
    else runMembers ex is (s.enterConvoy cut resumed is)
  | r => r

/-- Issue of a convoy that is fetched and decoded. -/
def issueDecoded (ex : Instr → State → Out) (cut : Option (Nat × Nat)) (resumed : Bool) (is : List Instr) (s : State) : Out :=
  match cut, resumed, is with
  | none, false, [i] => ex i s
  | _, _, _ => issueMembers ex cut resumed is s

/-! ### Breakpoints (R386) -/

/-- BPACT of the breakpoints that a user-mode convoy at the pc matches. -/
def State.breakActs (s : State) (skip : Bool) : List Nat :=
  if s.h.status.prv || skip then []
  else ((s.tcbOf s.h).bp.filter fun b => bits b.toNat 2 55 == bits s.h.pc.toNat 2 55 && b.toNat % 4 != 0).map (·.toNat % 4)

/-- Checks at dispatch that come before a breakpoint's (R113). -/
def beforeBreak : List Nat := [0x60, 0x10, 0x51, 0x02, 0x11]

/-- The first member fails one of them. -/
def failsFirst (ex : Instr → State → Out) (is : List Instr) (s : State) : Bool :=
  match is with
  | [] => false
  | i :: _ =>
    match ex i (s.mapH fun h => { h with cause := { } }) with
    | .next t => beforeBreak.contains t.h.cause.code.toNat
    | _ => false

/-- The records and the stop request of breakpoints that do not trap; `b` is the state before the convoy (R379, R386). -/
def State.breakRecords (s b : State) (acts : List Nat) : State :=
  acts.foldl (fun s a =>
    let s := s.queueRec (b.recOf (b.tcbOf b.h) (b.taskOf b.h) (some b.h) 8 0 b.h.pc)
    if a = 3 then s.stopJob b.h.asn else s) s

/-- A convoy that waits is issued again as it was: what an `eret` left for it still stands. -/
def Hart.again (h old : Hart) : Hart :=
  if h.stall ≠ 0 ∧ h.live = true ∧ h.id = old.id then { h with fromEret := old.fromEret, brkSkip := old.brkSkip } else h

/-- Issue of the convoy at the pc of the hart in focus. -/
def issueConvoy (ex : Instr → State → Out) (cut : Option (Nat × Nat)) (s : State) : Out :=
  let old := s.h
  let resumed := old.fromEret && old.ves.rst
  let s := s.mapH fun h => { h with fromEret := false, brkSkip := false, park := none, resumed := false, stall := 0 }
  match s.frame with
  | (.error e, s) => .next (s.trapAt e.kind e.code e.addr)
  | (.ok f, s) =>
    match f.bad with
    | some w => .next (s.trapAt .before 4 (BitVec.ofNat 64 w))
    | none =>
      if resumed && f.members.length ≤ old.ves.cm.toNat then
        .next (s.trapAt .before 4 (BitVec.ofNat 64 ((f.members.getLast?.getD []).getD 0 0)))
      else
        match decodeAll s.h.status.prv f.members with
        | .error (c, v) => .next (s.trapAt .before c v)
        | .ok is =>
          let acts := s.breakActs old.brkSkip
          if acts.contains 1 && !failsFirst ex is s then .next (s.trapAt .before 0xC1 s.h.pc)
          else
            match issueDecoded ex cut resumed is s with
            | .next t =>
              let t := t.mapH fun h => h.again old
              .next (if t.h.stall ≠ 0 then t else t.breakRecords s (acts.filter (· != 1)))
            | .fault r => .fault r
            | .refused r => .refused r

/-! ## Choice of the hart (R24, R35, R104, R115) -/

/-- The issue slot of a major (table of R24); a major that the table leaves out is found illegal in the sequencer's own. -/
def slotOf (w0 : Nat) : IssueSlot :=
  let m := bits w0 2 6
  if chainable w0 then .convoy
  else if (8 ≤ m && m ≤ 0xB) || (0x20 ≤ m && m ≤ 0x25) || (0x2A ≤ m && m ≤ 0x31) then .engine
  else .scalar

def IssueSlot.idx : IssueSlot → Fin 3
  | .scalar => 0
  | .convoy => 1
  | .engine => 2

/-- Word 0 of a hart's next instruction, when its fetch does not fail. -/
def State.nextWord (s : State) (h : Hart) : Option Nat :=
  match h.ahead.find? (·.1 == h.pc) with
  | some (_, f) => some ((f.members.headD []).getD 0 0)
  | none => match ({ s with h := h } : State).fetchWord h.pc with
    | (.ok w, _) => some w
    | (.error _, _) => none

/-- The slot issues for the hart: for its next instruction, or to take an interrupt or a fetch cause. -/
def State.servedAt (s : State) (slot : IssueSlot) (h : Hart) : Bool :=
  h.takeable || match s.nextWord h with | some w => slotOf w == slot | none => true

/-- The hart can issue or take an interrupt: it is not parked, or its `wfe` has an event, or an interrupt can be taken. A hart
merged away takes none (R99), nor does one of whose `vamo` some elements have performed: its result is awaited (R23). -/
def State.candidate (s : State) (h : Hart) : Bool :=
  h.live && match h.park with
    | none => true
    | some .away => false
    | some (.wait (.texitSv _ _ _ _) _ _ _) => h.takeable && h.sv != .saved
    | some .wfe => h.takeable || s.evtOf h &&& h.emask != 0
    | some (.vamo _ _ _) => false
    | some (.join _ _) | some (.wait _ _ _ _) | some (.entry _ _ _) => h.takeable

/-- Of two harts, the one that has waited longer since it issued in the slot; a tie goes to the lower hart slot (R35). -/
def older (slot : IssueSlot) (a b : Hart) : Hart :=
  let n := fun (h : Hart) => h.lastIssue.get slot.idx
  if n b < n a || (n b == n a && b.id.slot < a.id.slot) then b else a

def State.choose (s : State) (core part : Nat) (slot : IssueSlot) (busy : Nat) : Option HartId :=
  match s.allHarts.filter fun h => h.id.core == core && h.id.part == part && !busy.testBit h.id.slot && s.candidate h && s.servedAt slot h with
  | [] => none
  | h :: l => some (l.foldl (older slot) h).id

/-! ## The queues of a partition (R24, R36) -/

/-- The hart's instruction stands in a queue of the partition and waits there. -/
def Hart.waitsIn (h : Hart) (core part : Nat) (slot : IssueSlot) : Option Nat :=
  match h.queued with
  | some (q, n) =>
    if h.id.core = core && h.id.part = part && q == slot && h.park.isNone && (h.stall != 0 || h.hand.isSome) then some n else none
  | none => none

/-- An instruction of another hart stands before this hart's in the queue, which is in order (log entry 74). -/
def State.behind (s : State) (slot : IssueSlot) (h : Hart) : Bool :=
  s.allHarts.any fun g => g.id != h.id && match g.waitsIn h.id.core h.id.part slot with
    | some n => (match h.waitsIn h.id.core h.id.part slot with | some m => decide (n < m) | none => true)
    | none => false

/-- A command of the matrix engine. -/
def isMatrix (w0 : Nat) : Bool := 0x2A ≤ bits w0 2 6 && bits w0 2 6 ≤ 0x2C

/-- The hart whose command is at the head of a partition's engine command queue. -/
def State.headOf (s : State) (core part : Nat) : Option Hart :=
  let l := s.allHarts.filter fun h => (h.waitsIn core part .engine).isSome
  match l with
  | [] => none
  | h :: l => some (l.foldl (fun a b => if (b.waitsIn core part .engine).getD 0 < (a.waitsIn core part .engine).getD 0 then b else a) h)

/-- Partitions whose turn at the matrix engine comes before this one's, from the last that it took on (R36; log entry 74). -/
def State.turnsBefore (s : State) (core part : Nat) : List Nat :=
  let last := match s.matLast.find? (·.1 == core) with | some x => x.2 | none => 7
  ((List.range 8).map fun i => (last + 1 + i) % 8).takeWhile (· != part)

/-- The head command of a partition is a matrix command that does not wait (R36, R263). -/
def State.acceptable (ex : Instr → State → Out) (s : State) (core part : Nat) : Bool :=
  match s.headOf core part with
  | none => false
  | some h =>
    (match s.nextWord h with | some w => isMatrix w | none => false) &&
      match issueConvoy ex none (s.focus h.id) with
      | .next t => t.h.stall == 0
      | _ => false

/-- Why the instruction of the hart in focus stays in its queue, by the codes of R380; zero when it goes. -/
def State.heldBack (ex : Instr → State → Out) (s : State) (slot : IssueSlot) (w0 : Nat) : Nat :=
  match slot with
  | .scalar => 0
  | .convoy => if s.behind .convoy s.h then 1 else 0
  | .engine =>
    if s.behind .engine s.h then 2
    else if isMatrix w0 && (s.turnsBefore s.h.id.core s.h.id.part).any (s.acceptable ex s.h.id.core) then 0xD
    else 0

/-- The place of the hart's instruction in its queue, kept while it waits there. -/
def Hart.placeIn (h : Hart) (slot : IssueSlot) (n : Nat) : Option (IssueSlot × Nat) :=
  match h.waitsIn h.id.core h.id.part slot with
  | some m => some (slot, m)
  | none => some (slot, n)

/-- Majors past which a younger load may have performed (log entry 73). -/
def loadsPass (w0 : Nat) : Bool :=
  let m := bits w0 2 6
  (1 ≤ m && m ≤ 5) || (7 ≤ m && m ≤ 9) || (0x20 ≤ m && m ≤ 0x22) || chainable w0

/-- The engine has taken a command on: it did not wait, and was not turned away before acceptance. -/
def Ended.accepted (e : Ended) : Bool :=
  match e with
  | .trapped k => k != .before
  | .waits _ => false
  | _ => true

/-- The hart issues in the slot with this move: its instruction goes or enters the queue, where it did not stand before (R35). A wait at a
slot without a queue is no issue. -/
def Hart.issuesNow (old : Hart) (slot : IssueSlot) (waits : Bool) : Bool :=
  (old.waitsIn old.id.core old.id.part slot).isNone && !(waits && slot == .scalar)

/-- What an issue leaves at its hart: when it issued, the place in the queue while it waits, and the loads that went before it while they
may; and at the matrix engine whose turn it was. -/
def State.afterIssue (s : State) (old : Hart) (slot : IssueSlot) (w0 : Nat) : State :=
  let s := if isMatrix w0 && s.ended.accepted && slot == .engine then
      { s with matLast := (old.id.core, old.id.part) :: s.matLast.filter (·.1 != old.id.core) }
    else s
  if !(s.h.live && s.h.id == old.id) then s
  else
    let waits := s.h.stall != 0
    s.mapH fun h =>
      { h with queued := if waits && slot != .scalar then old.placeIn slot s.issued else none
               lastIssue := if old.issuesNow slot waits then h.lastIssue.set slot.idx.val s.issued else h.lastIssue
               early := if waits || loadsPass w0 then h.early else [] }

/-- The next convoy of the hart is sent on in the slot, or stands in its queue: it is in hand (R23, R24). -/
def Hart.take (h : Hart) (slot : IssueSlot) (n : Nat) : Hart :=
  { h with park := none
           hand := some slot
           queued := if slot = .scalar then none else h.placeIn slot n
           lastIssue := if h.issuesNow slot false then h.lastIssue.set slot.idx.val n else h.lastIssue }

/-- The hart in focus issues at a slot: a request that can be taken is, before anything issues, unless a convoy in hand ends first (R23,
R99, R115); else its next convoy issues. -/
def issueFocus (ex : Instr → State → Out) (cut : Option (Nat × Nat)) (slot : IssueSlot) (s : State) : Out :=
  let s := { s with issued := s.issued + 1 }
  if s.h.takeable && !(cut.isSome && s.h.hand == some slot) then .next (s.mapH fun h => h.interrupt h.pc).reap
  else
    let w0 := (s.nextWord s.h).getD 0
    let n := s.heldBack ex slot w0
    if n ≠ 0 then
      let last := if s.h.issuesNow slot (slot == .scalar) then s.h.lastIssue.set slot.idx.val s.issued else s.h.lastIssue
      .next (s.mapH fun h => { h with park := none, stall := n, queued := h.placeIn slot s.issued, lastIssue := last })
    else
      let cut := if s.h.takeable then cut else none
      match issueConvoy ex cut (s.mapH fun h => { h with hand := none }) with
      | .next t => .next (t.afterIssue s.h slot w0)
      | r => r

/-- The partition issues at a slot for the hart chosen. -/
def issueAt (ex : Instr → State → Out) (cut : Option (Nat × Nat)) (core part : Nat) (slot : IssueSlot) (busy : Nat) (s : State) : Out :=
  match s.choose core part slot busy with
  | none => .next s
  | some id => issueFocus ex cut slot (s.focus id)

/-- The partition sends the next convoy of the hart chosen on; one with a request to take has nothing sent. -/
def handAt (core part : Nat) (slot : IssueSlot) (busy : Nat) (s : State) : State :=
  match s.choose core part slot busy with
  | none => s
  | some id =>
    let s := { s.focus id with issued := s.issued + 1 }
    if s.h.takeable then s else s.mapH (·.take slot s.issued)

/-- The instruction in which a hart is parked and that is tried again. -/
def Park.instr : Park → Option Instr
  | .wait i _ _ _ | .entry i _ _ | .vamo i _ _ => some i
  | .wfe | .join _ _ | .away => none

/-- A parked instruction is tried again: what it waits for may have come (R35). Once it is done, loads that performed while it waited are
good only where a younger load may pass it (R146, R202, R308; log entry 73). -/
def retryAt (ex : Instr → State → Out) (id : HartId) (s : State) : Out :=
  match (s.hartAt id).bind (·.park.bind (·.instr)) with
  | some i =>
    match ex i (s.focus id) with
    | .next t =>
      .next (if t.h.live && t.h.id == id && t.h.park.isNone && !loadsPass (encodeWord0 i) then t.mapH fun h => { h with early := [] } else t)
    | r => r
  | none => .next s

/-! ## Protected mode (R178 to R180, R231, R281) -/

/-- Instructions whose results are compared. -/
def compared (i : Instr) : Bool :=
  let m := bits (encodeWord0 i) 2 6
  (0x0C ≤ m && m ≤ 0x1F) || (0x26 ≤ m && m ≤ 0x29) ||
    match i with
    | .mldb .. | .mma .. | .mmaS24 .. | .mmaX .. | .mpeek .. | .vstSp .. | .vstsSp .. | .vstxSp .. | .vstpSp .. => true
    | _ => false

/-- Addresses and instructions of the members of the convoy at the pc. -/
def State.membersAt (s : State) : List (DWord × Instr) :=
  match s.frame.1 with
  | .error _ => []
  | .ok f =>
    match decodeAll s.h.status.prv f.members with
    | .error _ => []
    | .ok is => (is.foldl (fun (a : List (DWord × Instr) × DWord) i => (a.1 ++ [(a.2, i)], a.2 + BitVec.ofNat 64 (instrLen i))) ([], s.h.pc)).1

/-- The hart in focus squashes its convoy: the first time it is executed again, or a pending request is taken there; the second time
the partition is quarantined. Both comparisons count in MISM (log entry 64). -/
def State.mismatch (s : State) (at_ : DWord) : State :=
  let id := s.h.id
  let s := s.count id.core id.part 0x0F 1
  let m := BitVec.ofNat 16 (min 0xFFFF (s.h.mism.toNat + 1))
  if s.h.mismAt = some s.h.pc then
    let s := ((s.mapH fun h => { h with mism := m, mismAt := none }).trapAt .squash 0x43 at_)
    let s := { s with partQuar := (id.core, id.part) :: s.partQuar.filter (· != (id.core, id.part)) }
    (s.logOpen (s.who s.h) 6 0x43 0 0 0 0).raiseAlarm 2
  else
    let s := s.mapH fun h => { h with mism := m, mismAt := some h.pc }
    if s.h.takeable then (s.mapH fun h => h.interrupt h.pc).reap else s

/-- Results of member `cm` are written back: the convoy retired, or it ended in a restartable trap or at a request after the member or
part-way in it, with elements that it has finished since (R110, R178). Its guards are the masks as they were when it ran, which an
earlier member may have written. -/
def written (before : Hart) (resumed : Bool) (t : State) (cm : Nat) (i : Instr) : Bool :=
  let had := if resumed && before.ves.cm.toNat == cm then before.vcm else 0
  let fibre := 0x26 ≤ bits (encodeWord0 i) 2 6
  let whole := t.cv.wrote.contains cm || (cm == 0 && yields before i)
  (if resumed then before.ves.cm.toNat else 0) ≤ cm && match t.ended with
    | .retired => whole
    | .trapped .restartable | .stopped =>
      (decide (cm < t.h.ves.cm.toNat) && whole) ||
        (cm == t.h.ves.cm.toNat && (fibre || t.h.vcm &&& ~~~had != 0))
    | _ => false

/-- The partition issues, and a result of member `cm` differs; a member that writes nothing back has none. -/
def mismatchAt (ex : Instr → State → Out) (core part : Nat) (slot : IssueSlot) (busy cm : Nat) (cut : Option (Nat × Nat)) (s : State) :
    Out :=
  match s.choose core part slot busy with
  | none => .next s
  | some id =>
    let s := s.focus id
    match issueFocus ex cut slot s with
    | .next t =>
      match s.membersAt[cm]? with
      | some (a, i) =>
        if s.h.prot && compared i && written s.h (s.h.fromEret && s.h.ves.rst) t cm i then
          .next ({ s with issued := t.issued, h := { s.h with lastIssue := t.h.lastIssue, hand := none } }.mismatch a)
        else .next t
      | none => .next t
    | r => r

/-! ## Moves -/

/-- The meaning of instructions where a `vamo` pauses after `n` elements (R196). -/
def partly (n : Nat) (ex : Instr → State → Out) (i : Instr) (s : State) : Out :=
  match i with
  | .vamo fm v b c dw sp o => .next (vamoPart (some n) fm v b c dw sp o s)
  | i => ex i s

/-- Outside STATE 3 only time, resets and the host's accesses go on (R397, R398, R400). -/
def Turn.always : Turn → Bool
  | .tick _ _ | .event .powerOnReset | .event (.hostRead _ _) | .event (.hostWrite _ _) | .event (.doorbell _ _)
  | .event (.alarmClear _) | .event (.mboxWrite _ _) => true
  | _ => false

/-- One move (log entry 6). -/
def turnWith (ex : Instr → State → Out) (t : Turn) (s : State) : Out :=
  if s.firm.st ≠ 3 ∧ t.always = false then .next s
  else match t with
  | .issue c p sl b => issueAt ex none c p sl b s
  | .hand c p sl b => .next (handAt c p sl b s)
  | .part c p sl b n => issueAt (partly n ex) none c p sl b s
  | .more id n => retryAt (partly n ex) id s
  | .cut c p sl b cm idx => issueAt ex (some (cm, idx)) c p sl b s
  | .early id c va n loc => .next (s.loadEarly id c va n loc)
  | .retry id => retryAt ex id s
  | .event i => if (formOf i).isSome then .fault .badTurn else ex i s
  | .perform id n => .next (s.perform id n)
  | .evict n => .next { s with tlb := s.tlb.eraseIdx n }
  | .ahead id pc => .next (s.fetchAhead id pc)
  | .wake id => .next (s.mapHarts (fun h => h.live && h.id == id && h.park == some .wfe) fun h => { h with park := none })
  | .arrive ch x => .next (s.arriveItem ch x)
  | .depart ch => .next (s.departItem ch)
  | .acked g gh => .next (s.ackTo g gh)
  | .mismatch c p sl b cm cut => mismatchAt ex c p sl b cm cut s
  | .tick c n => .next (s.tick c n)

/-- The next move: the first in the queue, or one that the model leaves open (log entry 6). -/
def State.nextTurn (s : State) : Turn × State :=
  match s.turns with
  | t :: ts => (t, { s with turns := ts })
  | [] => (Config.schedule s.free, { s with free := s.free + 1 })

/-- A convoy that retired is counted, and a mismatch before it is past (R179; R381, event 0x02). -/
def State.retired (s : State) : State :=
  if s.ended = .retired then (s.count s.h.id.core s.h.id.part 2 1).mapH fun h => { h with mismAt := none } else s

/-- What every move ends with. -/
def State.settle (s : State) : State := s.retired.watchCopies.settleRota.firmware

def stepWith (ex : Instr → State → Out) (s : State) : Out :=
  match turnWith ex s.nextTurn.1 { s.nextTurn.2 with ended := .open } with
  | .next s => .next s.settle
  | .fault r => .fault r
  | .refused r => .refused r

/-! ## Placing an instruction where the next step fetches -/

/-- Eight bytes of a table entry at an address. -/
def putEntry (m : List Host.Cell) (a v : Nat) : List Host.Cell := cellsWrite m a (leBytes 8 v)

/-- Tables for address space 1 that map the page at 0x10000 to physical 0x200000, key index 0, all accesses allowed (R132,
R133). -/
def placedTables : List Host.Cell :=
  putEntry (putEntry (putEntry (putEntry (putEntry [] 0x100000 0x101001) 0x101000 0x102001) 0x102000 0x103001) 0x103000 0x104001)
    0x104008 0x20003F

/-- A hart of a running gang at 0x10000 with the bytes given there, its partition to issue next (log entry 12): what a launch
does (R310), for one task of one gang of one hart. -/
def State.place (s : State) (bs : List Byte) : State :=
  { s with
    mem := cellsWrite placedTables 0x200000 bs
    spaces := [{ asn := 1, root := 0x100000, trap := 0x10800 }]
    nodes := [{ id := 8192, st := .running, asn := 1, unended := 1 }]
    gangs := [{ key := 1, asn := 1, parts := [0], node := 8192, order := 1 }]
    entries := [{ idx := 0, gen := 1, outcome := none }]
    shared := { fresh := 1, last := 7168 }
    startCount := 1
    h := { live := true, gang := 1, asn := 1, pc := 0x10000, tvec := 0x10800 }
    harts := []
    firm := { s.firm with st := 3, pst := 0 }
    turns := [.issue 0 0 (slotOf (leNat (bs.take 4))) 0] }

end Sys2Proof.Machine
end

