-- ==== Sys2Proof/Machine/Step.lean ====
section
/-! DEFINITION. One step of the machine: the next move of some agent. -/

namespace Sys2Proof.Machine

/-- The next move, with the meanings of `exec`. -/
def step (s : State) : Host.Outcome State Fault Refusal := stepWith exec s

/-- `s` with a program of one instruction placed where the next step fetches (log entry 12). -/
def State.withFetchWord (s : State) (nbits w : Nat) : State := s.place (leBytes 20 (w % 2 ^ nbits))

end Sys2Proof.Machine
end

