-- ==== Sys2Proof/Safety.lean ====
section
/-! DEFINITION. What a well-formed state is, what a run that never stops is, and the terms that the statements are made in: the
conditions under which an instruction completes, and what it leaves unchanged. -/

namespace Sys2Proof.Machine

/-- The memory keeps its canonical form: addresses strictly rising, no byte listed that is zero. -/
abbrev Memory.wf (m : List Host.Cell) : Prop := cellsWf m = true

/-- A run of `n` steps that meets neither a fault nor a refusal. -/
def runsSafely : Nat → State → Prop
  | 0, _ => True
  | n + 1, s => ∃ t, step s = .next t ∧ runsSafely n t

end Sys2Proof.Machine

namespace Sys2Proof.Claims

open Sys2Proof.Machine

/-! ## Frames -/

/-- No byte of device memory differs. -/
def MemSame (s t : State) : Prop := ∀ a, cellsGet t.mem a = cellsGet s.mem a

/-- Everything but the hart in focus and what a convoy in execution carries is as before: memory and local storage, the other harts,
gangs and tasks, the caches, logs and engines. -/
def RestSame (s t : State) : Prop :=
  MemSame s t ∧ t = { s with h := t.h, h0 := t.h0, hT := t.hT, cv := t.cv, ended := t.ended }

/-- The same, but for the counters of events (R381) and for how many open values a run has used. -/
def RestSameC (s t : State) : Prop :=
  MemSame s t ∧ t = { s with h := t.h, h0 := t.h0, hT := t.hT, cv := t.cv, ended := t.ended, ctrs := t.ctrs, free := t.free }

/-- What executes was resumed by an `eret`: its convoy, or the instruction in which the hart is parked (R111). -/
def resumedNow (s : State) : Bool := if s.cv.active then s.cv.resumed else s.h.park.isSome && s.h.resumed

/-- `ves` and `vcm` stay, or a resumed convoy retired and they are zero (R111). -/
def VesKept (s t : State) : Prop :=
  (t.h.ves = s.h.ves ∧ t.h.vcm = s.h.vcm) ∨ (resumedNow s = true ∧ t.h.ves = { } ∧ t.h.vcm = 0)

/-- An instruction that is a convoy of its own begins: no other member made an access or trapped before it (R21). -/
def alone (s : State) : Bool := !s.cv.active || (!s.cv.pend && s.cv.marks.isEmpty && s.cv.popped == 0)

/-- The pc stands after an instruction of the form. -/
def Passed (fm : Form) (s t : State) : Prop := t.h.pc = s.h.pc + BitVec.ofNat 64 fm.len

/-- A scalar instruction has written `v` to xd, and nothing to x0; every other register, memory and the rest of the machine stay. -/
def ScalarDone (fm : Form) (d : BitVec 6) (v : DWord) (s t : State) : Prop :=
  (∀ r, t.h.getX r = if r = 0 then 0 else if r = d then v else s.h.getX r) ∧ Passed fm s t ∧ VesKept s t ∧ RestSame s t ∧
  t.h = { s.h with x := t.h.x, pc := t.h.pc, ves := t.h.ves, vcm := t.h.vcm }

/-- A jump or branch to `p`: nothing but the pc changes. -/
def Jumped (p : DWord) (s t : State) : Prop :=
  t.h.pc = p ∧ VesKept s t ∧ RestSame s t ∧ t.h = { s.h with pc := t.h.pc, ves := t.h.ves, vcm := t.h.vcm }

/-- The source register and the immediate of a form of major 0x02 (table of R92). -/
def immOperands (fm : Form) (d : BitVec 6) (w : BitVec 12) : BitVec 6 × DWord :=
  match fm with
  | .base => (d, BitVec.ofInt 64 w.toInt)
  | .baseLit l => (d, l)
  | .ext e => (BitVec.ofNat 6 w.toNat, BitVec.ofInt 64 e.imm.toInt)
  | .extLit _ l => (BitVec.ofNat 6 w.toNat, l)

/-- The field of `bext` and `bins`: pos and len′ (R93). -/
def bitField (fm : Form) (b : BitVec 6) (h : Hart) : Nat × Nat :=
  let y := match fm with
    | .ext e | .extLit e _ => if e.ib then e.imm.toNat else (h.getX b).toNat
    | _ => (h.getX b).toNat
  (y % 64, min (y / 256 % 128) 64)

/-- The displacement of a branch or direct jump in bytes (R44). -/
def byteDisp {n : Nat} (fm : Form) (disp : BitVec n) : Int :=
  match fm with
  | .ext e | .extLit e _ => 4 * e.imm.toInt
  | _ => 4 * disp.toInt

/-- A trap has been taken in place of the convoy: its code, `tval` and `epc`, with `ves` and `vcm` zero (R110, R112). -/
def Entered (code : Nat) (tval epc : DWord) (s t : State) : Prop :=
  t.h = ({ s.h with ves := { }, vcm := 0 } : Hart).enter false 0 code tval epc ∧ RestSame s t

/-- The same after an instruction that retired, which leaves `ves` and `vcm` (R110). -/
def EnteredKeeping (code : Nat) (tval epc : DWord) (s t : State) : Prop :=
  t.h = s.h.enter false 0 code tval epc ∧ RestSame s t

/-! ## Memory that can be read and written without an event -/

/-- A sector reads as its data under a key index, with nothing to report, and a write to it has nothing to report or to count but MIN
(R361 to R367). -/
def plainSector (s : State) (pa key : Nat) : Bool :=
  let sec := pa / 64
  (s.region (sec / 64)).kidx == key && !s.psn.contains sec && s.ecc.all (fun e => e.word / 64 != sec) &&
    s.eccTag.all (fun e => e.word != sec) && s.isSram pa == s.isSram (64 * sec) && !s.tagFails sec && s.tagXor.all (·.1 != sec) &&
    (s.isSram pa ||
      (!s.quar.contains (sec / 1024) && s.eccMeta.all (fun e => e.word != sec / 64) &&
        !s.badMeta.contains (sec / 64) && !s.badTree.contains (sec / 64)))

/-- The same of a sector that no receive buffer holds (R334), at a virtual address. -/
def cleanSector (s : State) (va pa key : Nat) : Bool := plainSector s pa key && !s.inRx s.h.asn pa va

/-- The translation of a virtual address for the hart in focus is the entry `e`, found without an event, and the access is allowed
(R134, R135 items 1 to 3, R359). The entry stands in a sector that is not sealed. -/
def mapsBy (s : State) (va : Nat) (k : Acc) (e : TlbEntry) : Bool :=
  let r := s.lookup (s.who s.h) va
  decide (va < 2 ^ 57) && (match r.1 with | .ok e' => e' == e | .error _ => false) && decide (r.2 = { s with tlb := r.2.tlb }) &&
    plainSector s e.pte 0 && decide (e.pte % 8 = 0) &&
    permCause e.leaf.toNat s.h.status.prv
      (match s.spaceOf s.h.asn with | some sp => sp.keys.contains (leafKey e.leaf.toNat) | none => false) k == 0

/-- The physical address that an entry gives. -/
def paBy (e : TlbEntry) (va : Nat) : Nat := leafFrame e.leaf.toNat + va % e.size

/-- Bytes of memory hold no part of a table entry that a translation cache knows: that ACC and DRT are set does not change them. -/
def offTables (s : State) (pa n : Nat) : Bool := s.tlb.all fun e => decide (e.pte + 8 ≤ pa) || decide (pa + n ≤ e.pte)

/-- The translation of an address that the cache of the hart in focus holds (R131). -/
def cachedAs (s : State) (va : Nat) : Option TlbEntry :=
  s.tlb.find? fun e => e.core == s.h.id.core && e.asn == s.h.asn && e.va ≤ va && va < e.va + e.size

/-- The cause for which an access is denied, where finding it is no event: the address is beyond 57 bits, an entry is not valid, or a
cached one does not allow the access (R119, R134, R135). -/
def deniedBy (s : State) (va : Nat) (k : Acc) : Option Nat :=
  if 2 ^ 57 ≤ va then some 0x20
  else match cachedAs s va with
    | some e =>
      let c := permCause e.leaf.toNat s.h.status.prv
        (match s.spaceOf s.h.asn with | some sp => sp.keys.contains (leafKey e.leaf.toNat) | none => false) k
      if c = 0 then none else some c
    | none => if s.lookup (s.who s.h) va = (.error (.cause 0x20), s) then some 0x20 else none

/-- No snapshot shares a page: a write to it starts no copy (R347). -/
def unshared (s : State) (e : TlbEntry) : Bool := s.fab.jobs.isEmpty && leafSnp e.leaf.toNat == 0

/-- The byte at an offset of a local space: offsets wrap, and beyond the allocation bytes read zero (R33). -/
def localByte (m : Local) (off : Nat) : Byte := match localOff m.size off with | some o => cellsGet m.cells o | none => 0

/-- Bytes of a local space have no poison and no corrupted check bits. -/
def cleanLocal (m : Local) : Bool := m.psn.isEmpty && m.ecc.isEmpty

/-- The machine as an engine of the device reads and writes an address space: with user privilege, by the translations that belong to
no core (R131, R135). -/
def byDevice (s : State) (asn : Nat) : State :=
  { s with h := { s.h with id := ⟨noCore, 0, 0⟩, asn := asn, status := { }, early := [] } }

/-- A load has written `v` to xd: nothing else changes but the accessed bit in the entry `e` of the page table, and what the caches hold. -/
def LoadDone (fm : Form) (d : BitVec 6) (v : DWord) (e : TlbEntry) (s t : State) : Prop :=
  (∀ r, t.h.getX r = if r = 0 then 0 else if r = d then v else s.h.getX r) ∧ Passed fm s t ∧ VesKept s t ∧
  (∀ a, a < e.pte ∨ e.pte + 8 ≤ a → cellsGet t.mem a = cellsGet s.mem a) ∧
  t = { s with h := t.h, h0 := t.h0, hT := t.hT, cv := t.cv, ended := t.ended, mem := t.mem, changed := t.changed, tlb := t.tlb } ∧
  t.h = { s.h with x := t.h.x, pc := t.h.pc, park := none, ves := t.h.ves, vcm := t.h.vcm }

/-- A scalar instruction that may park has written `v` to xd. -/
def WriteX (fm : Form) (d : BitVec 6) (v : DWord) (s t : State) : Prop :=
  (∀ r, t.h.getX r = if r = 0 then 0 else if r = d then v else s.h.getX r) ∧ Passed fm s t ∧ VesKept s t ∧ RestSame s t ∧
  t.h = { s.h with x := t.h.x, pc := t.h.pc, park := none, ves := t.h.ves, vcm := t.h.vcm }

/-- A store has joined the writes of the hart that are on their way, and has changed no byte but the accessed and dirty bits of the
entry `e`. -/
def StoreMade (fm : Form) (w : PWrite) (e : TlbEntry) (s t : State) : Prop :=
  t.h.stbuf = s.h.stbuf ++ [w] ∧ Passed fm s t ∧ VesKept s t ∧
  (∀ a, a < e.pte ∨ e.pte + 8 ≤ a → cellsGet t.mem a = cellsGet s.mem a) ∧
  t = { s with h := t.h, h0 := t.h0, hT := t.hT, cv := t.cv, ended := t.ended, mem := t.mem, changed := t.changed, tlb := t.tlb } ∧
  t.h.early.Sublist s.h.early ∧
  t.h = { s.h with stbuf := t.h.stbuf, early := t.h.early, pc := t.h.pc, park := none, ves := t.h.ves, vcm := t.h.vcm }

/-- The hart waits for no engine transfer of its own, and at fabric scope for no delivery (R145, R146; log entry 19). -/
def quietAt (h : Hart) (c : Scope) : Bool :=
  h.copies.isEmpty && h.arit.all (fun l => match l.own with | .epilogue _ => false | _ => !l.write) &&
    (c != .fab || h.undelivered == 0)

/-- No write of the hart on its way is held back by a transfer of an earlier strip interval (R143). -/
def noneHeld (h : Hart) : Bool := h.stbuf.all fun w => !h.heldWrite w

/-! ## Numbers -/

/-- The real number that an exact value is; none for an infinity and for what is no real (R71, R73). -/
def ratOf : Val → Option ℚ
  | .zero _ => some 0
  | .num n m e => some ((if n then -1 else 1) * m * 2 ^ e)
  | .nar | .inf _ | .divz _ => none

/-- A magnitude `a` at or above the lower of two neighbours, with `mid` between them, goes to the upper one under RM (R80). -/
def goesUp (rm : Nat) (neg odd : Bool) (lo mid a : ℚ) : Prop :=
  (rm = 0 ∧ (mid < a ∨ (mid = a ∧ odd = true))) ∨ (rm = 2 ∧ lo < a ∧ neg = false) ∨ (rm = 3 ∧ lo < a ∧ neg = true) ∨ (rm = 4 ∧ mid ≤ a)

/-- A result of at least 256 digits stands for the magnitude whose power `n` is `a`: exact when it is even, else strictly between its
neighbours. -/
def standsFor (q : Nat) (k : Int) (n : Nat) (a : ℚ) : Prop :=
  2 ^ 256 ≤ q ∧ (if q % 2 = 0 then (q * 2 ^ k : ℚ) ^ n = a else ((q - 1) * 2 ^ k : ℚ) ^ n < a ∧ a < ((q + 1) * 2 ^ k : ℚ) ^ n)

/-! ## Vector members -/

/-- A member begins with none of its elements finished, in a convoy in which nothing has trapped and no request waits. When it is the
last, ACC and DRT stand already where earlier members made accesses. -/
def fresh (i : Instr) (s : State) : Bool :=
  !s.cv.active || (!s.cv.pend && s.cv.done == 0 && s.cv.popped == 0 && s.cv.cut.isNone && (s.cv.marks.isEmpty || isChained i))

/-- Every register that the member names exists and is live (R113, R117, R208), and it begins as `fresh` says. -/
def named (i : Instr) (s : State) : Bool :=
  fresh i s && (namedBits i).all fun b => (b < 56 || b - 56 < s.h.streams) && !s.h.deadBit b

/-- The same, and `vl` is within the grant at width w (R98). -/
def ready (i : Instr) (w : Nat) (s : State) : Bool := named i s && decide (s.h.vl.toNat ≤ s.h.grant w)

/-- None of these registers is the slot of a bound stream. -/
def noSlots (rs : List (BitVec 5)) (h : Hart) : Bool := rs.all fun r => (h.slotOf r).isNone

/-- Element e is below `vl` and active (R47). -/
def act (fm : Form) (h : Hart) (e : Nat) : Bool := decide (e < h.vl.toNat) && activeAt fm h e

/-- No active element of these sources is poisoned. -/
def cleanAt (fm : Form) (h : Hart) (rs : List (BitVec 5 × Nat)) : Bool :=
  (List.range h.vl.toNat).all fun e => !activeAt fm h e || rs.all fun r => !(h.getV r.1).eltPsn r.2 e

/-- Source b at an element: the register that the field names, or the immediate in its place (R159). -/
def srcB (fm : Form) (fd : DWord) (b : BitVec 5) (h : Hart) (e : Nat) : Nat :=
  if immForm fm then immPat fm fd else (h.getV b).elt (fmtWidth (fdFB fd)) e

/-- The registers that a member with two sources names: b only where no immediate takes its place. -/
def abOf (fm : Form) (a b : BitVec 5) : List (BitVec 5) := if immForm fm then [a] else [a, b]

/-- Register `r'` is `r` with these elements at width w, each with its poison: every bit and every tag outside them is as it was (R155). -/
def GotElts (w : Nat) (g : Nat → Option (Nat × Bool)) (r r' : VReg) : Prop :=
  (∀ e v p, g e = some (v, p) → r'.elt w e = v % 2 ^ w ∧ r'.eltPsn w e = p) ∧
  (∀ j, (∀ e, (g e).isSome → j < e * w ∨ (e + 1) * w ≤ j) → r'.bits.getLsbD j = r.bits.getLsbD j) ∧
  (∀ j, (∀ e, (g e).isSome → 8 * j < e * w ∨ (e + 1) * w ≤ 8 * j) → r'.psn.getLsbD j = r.psn.getLsbD j)

/-- The dirty bit of a written register is set, and in supervisor mode its live bit (R117). -/
def Dirtied (bit : Nat) (any : Prop) (s t : State) : Prop :=
  ∀ j < 64, (t.h.vdirty.getLsbD j = true ↔ s.h.vdirty.getLsbD j = true ∨ (j = bit ∧ any)) ∧
    (t.h.vlive.getLsbD j = true ↔ s.h.vlive.getLsbD j = true ∨ (j = bit ∧ any ∧ s.h.status.prv = true))

/-- A member has written elements of vector register d, and nothing else. -/
def VDone (fm : Form) (d : BitVec 5) (w : Nat) (g : Nat → Option (Nat × Bool)) (s t : State) : Prop :=
  GotElts w g (s.h.getV d) (t.h.getV d) ∧ (∀ r, r ≠ d → t.h.getV r = s.h.getV r) ∧ Dirtied (vBit d) (∃ e, (g e).isSome) s t ∧
  Passed fm s t ∧ VesKept s t ∧ RestSameC s t ∧
  t.h = { s.h with v := t.h.v, vdirty := t.h.vdirty, vlive := t.h.vlive, pc := t.h.pc, park := none, ves := t.h.ves, vcm := t.h.vcm }

/-- A member has written bits of mask register m, and nothing else. -/
def MDone (fm : Form) (m : BitVec 3) (g : Nat → Option Bool) (s t : State) : Prop :=
  (∀ e < 2048, (t.h.getM m).getLsbD e = (g e).getD ((s.h.getM m).getLsbD e)) ∧ (∀ r, r ≠ m → t.h.getM r = s.h.getM r) ∧
  Dirtied (mBit m) (∃ e, (g e).isSome) s t ∧ Passed fm s t ∧ VesKept s t ∧ RestSameC s t ∧
  t.h = { s.h with m := t.h.m, vdirty := t.h.vdirty, vlive := t.h.vlive, pc := t.h.pc, park := none, ves := t.h.ves, vcm := t.h.vcm }

/-- A member has written `v` to xd and nothing to x0, and counted what it did. -/
def XDone (fm : Form) (d : BitVec 6) (v : DWord) (s t : State) : Prop :=
  (∀ r, t.h.getX r = if r = 0 then 0 else if r = d then v else s.h.getX r) ∧ Passed fm s t ∧ VesKept s t ∧ RestSameC s t ∧
  t.h = { s.h with x := t.h.x, pc := t.h.pc, park := none, ves := t.h.ves, vcm := t.h.vcm }

/-! ## Vector memory accesses without an event -/

/-- An access that a cached translation allows and that changes no byte: accessed (before a write: and dirty) is set already, and no
snapshot is near. Physical address and key index. -/
def mapsStill (s : State) (va : Nat) (k : Acc) : Option (Nat × Nat) :=
  match cachedAs s va with
  | none => none
  | some e =>
    let p := s.rawRead e.pte 8
    if mapsBy s va k e && paBy e va % 64 == va % 64 && p ||| (if k.writes then 0x180 else 0x80) == p &&
        (!k.writes || unshared s e) then some (paBy e va, leafKey e.leaf.toNat)
    else none

/-- These words stand at an address, and each is fetched without an event. -/
def holdsWords (s : State) (va : DWord) : List Nat → Prop
  | [] => True
  | w :: l => (∃ pa key, mapsStill s va.toNat .fetch = some (pa, key) ∧ cleanSector s va.toNat pa key = true ∧ leNat (cellsRead s.mem pa 4) = w) ∧
    holdsWords s (va + 4) l

/-- The words of one instruction: as many as its length field says (R40). -/
def wholeMember (ws : List Nat) : Bool := ws.length == lenOfL (ws.headD 0 % 4) / 4

/-- Bytes of a local space, little-endian, where none is poisoned or corrupted. -/
def localAs (s : State) (x : Space × Nat) (n : Nat) : Option Nat :=
  if cleanLocal (s.localOf x.1) then some (leNat ((List.range n).map fun k => localByte (s.localOf x.1) (spaceOff x.1 x.2 k))) else none

/-- What a load of `n` bytes within a sector gives when none performed early: from TCM when `t`, else from global memory. -/
def readsAs (s : State) (t : Bool) (va : DWord) (n : Nat) : Option Nat :=
  if !s.h.early.isEmpty then none
  else if t then localAs s (s.h.tcmSpace va) n
  else match mapsStill s va.toNat .read with
    | some (pa, key) => if va.toNat % 64 + n ≤ 64 && cleanSector s va.toNat pa key then some (leNat (cellsRead s.mem pa n)) else none
    | none => none

/-- The one write that a store of these bytes to a local space makes: within the allocation and within 64 bytes. -/
def localWriteOf (s : State) (x : Space × Nat) (va : DWord) (bs : List Byte) (p : Bool) : Option PWrite :=
  let sz := (s.localOf x.1).size
  let o := x.2 % ceilPow2 sz
  if 0 < sz && o + bs.length ≤ sz && o % 64 + bs.length ≤ 64 && x.2 % 64 == o % 64 then
    some { cls := .vector, strip := s.h.strip, space := x.1, addr := o, key := 0, va := va, bytes := bs, psn := p }
  else none

/-- The one write that a store of these bytes makes: to TCM when `t`, else to global memory. -/
def writeOf (s : State) (t : Bool) (va : DWord) (bs : List Byte) (p : Bool) : Option PWrite :=
  if t then localWriteOf s (s.h.tcmSpace va) va bs p
  else match mapsStill s va.toNat .write with
    | some (pa, key) =>
      if va.toNat % 64 + bs.length ≤ 64 then
        some { cls := .vector, strip := s.h.strip, space := .glob, addr := pa, key := key, va := va, bytes := bs, psn := p }
      else none
    | none => none

/-- The writes of an element: one, or one for each byte when its address is no multiple of its size (R125). -/
def writesOf (s : State) (t : Bool) (va : DWord) (bs : List Byte) (p : Bool) : Option (List PWrite) :=
  (writeOf s t va bs p).map fun w => if va.toNat % bs.length = 0 then [w] else w.single

/-- A member has put these writes on their way, in this order, and has changed nothing else: every byte of memory is as before. -/
def WritesMade (fm : Form) (ws : List PWrite) (s t : State) : Prop :=
  t.h.stbuf = s.h.stbuf ++ ws ∧ Passed fm s t ∧ VesKept s t ∧ RestSameC s t ∧ t.h.early.Sublist s.h.early ∧
  t.h = { s.h with stbuf := t.h.stbuf, early := t.h.early, pc := t.h.pc, park := none, ves := t.h.ves, vcm := t.h.vcm }

/-- The bytes of a record that reads without an event: in TCM when `t`, else in global memory, piece by piece of a sector. -/
def recordAs (s : State) (t : Bool) (va : DWord) (n : Nat) : Option (List Byte) :=
  if !s.h.early.isEmpty then none
  else if t then
    let x := s.h.tcmSpace va
    if cleanLocal (s.localOf x.1) then some ((List.range n).map fun k => localByte (s.localOf x.1) (spaceOff x.1 x.2 k)) else none
  else
    ((piecesOf va.toNat n).mapM fun (a, len) => match mapsStill s (a % 2 ^ 64) .read with
      | some (pa, key) => if cleanSector s (a % 2 ^ 64) pa key then some (cellsRead s.mem pa len) else none
      | none => none).map List.flatten

/-- A member has put these pairs into fibre register d, and changed nothing else. -/
def FDone (fm : Form) (d : BitVec 4) (l : List Pair) (s t : State) : Prop :=
  t.h.getF d = l ∧ (∀ r, r ≠ d → t.h.getF r = s.h.getF r) ∧ Dirtied (fBit d) (l ≠ [] ∨ s.h.getF d ≠ []) s t ∧
  Passed fm s t ∧ VesKept s t ∧ RestSameC s t ∧
  t.h = { s.h with f := t.h.f, vdirty := t.h.vdirty, vlive := t.h.vlive, pc := t.h.pc, park := none, ves := t.h.ves, vcm := t.h.vcm }

/-- The same for a continuable member, which also leaves its count in xr and `fprog` (R236, R237). -/
def FRan (fm : Form) (d : BitVec 4) (l : List Pair) (xr : BitVec 6) (v fprog : DWord) (s t : State) : Prop :=
  t.h.getF d = l ∧ (∀ r, r ≠ d → t.h.getF r = s.h.getF r) ∧ Dirtied (fBit d) (l ≠ [] ∨ s.h.getF d ≠ []) s t ∧
  (∀ r, t.h.getX r = if r = 0 then 0 else if r = xr then v else s.h.getX r) ∧ t.h.fprog = fprog ∧
  Passed fm s t ∧ VesKept s t ∧ RestSameC s t ∧
  t.h = { s.h with f := t.h.f, x := t.h.x, fprog := t.h.fprog, vdirty := t.h.vdirty, vlive := t.h.vlive, pc := t.h.pc, park := none,
                   ves := t.h.ves, vcm := t.h.vcm }

/-- A continuable member starts afresh, and is the first of its convoy (R237, R239). -/
def startsAfresh (s : State) : Bool := !s.h.fprog.getLsbD 63 && !(s.cv.active && s.cv.cont)

end Sys2Proof.Claims
end

