-- ==== Sys2Proof/Certificates/Slice0/Obligations.lean ====
section
/-! DEFINITION. The statements for the provers, each with the rules of the manual that it rests on. Terms are those of Safety.lean. -/

open Sys2Proof Sys2Proof.Machine Sys2Proof.Claims

/-- R398, R33, R359, R369, R300: what reset leaves, of what the manual gives: STATE 0 with PST reading 3, memory zero, every region at key index 0, no
poison, an empty log, no hart, no gang (and so no allocation of TCM or scratchpad), no node, no address space, no translation held, no queue bound
and no job.

That the ports are down and no session key is held, and that the device-shared SRAM is zero, is the model's choice (log entries 2 and 4). -/
def Obligations.ResetState : Prop :=
  let s := State.reset
  s.firm.st = 0 ∧ s.firm.pst = 3 ∧ (∀ a, cellsGet s.mem a = 0) ∧ (∀ k, (s.region k).kidx = 0 ∧ (s.region k).maj = 0 ∧ ∀ j, (s.region k).minOf j = 0) ∧
  s.psn = [] ∧ s.quar = [] ∧ s.log = [] ∧ s.allHarts = [] ∧ s.gangs = [] ∧ s.nodes = [] ∧ s.spaces = [] ∧ s.tlb = [] ∧ (∀ p, s.portUp p = false) ∧
  s.firm.queues = [] ∧ s.firm.session = none ∧ s.fab.jobs = []

/-- The memory after reset is in its canonical form; the form is the model's own (log entry 4). -/
def Obligations.ResetMemoryCanonical : Prop :=
  Memory.wf State.reset.mem

/-- Every step keeps the memory in its canonical form, so that equal memories are equal data; the form is the model's own (log entry 4). -/
def Obligations.StepKeepsMemoryCanonical : Prop :=
  ∀ s t, step s = .next t → Memory.wf s.mem → Memory.wf t.mem

/-- R39 to R56: every well-formed instruction with a word decodes from its own words, with every operand as it was.

That unused fields without a stated meaning are reserved is the model's reading (log entry 13). -/
def Obligations.DecodeOfEncode : Prop :=
  ∀ i, wellFormed i = true → (formOf i).isSome = true →
    let w := encode i
    decodeWords (w.getD 0 0) (w.getD 1 0) (w.getD 2 0) (w.getD 3 0) (w.getD 4 0) = .ok i

/-- R55: whatever the decoder accepts is well-formed, has a word, and has the length that its length field gives.

That unused fields without a stated meaning are reserved is the model's reading (log entry 13). -/
def Obligations.DecodedIsWellFormed : Prop :=
  ∀ w0 w1 w2 w3 w4 i, decodeWords w0 w1 w2 w3 w4 = .ok i → wellFormed i = true ∧ ∃ fm, formOf i = some fm ∧ fm.len = lenOfL (w0 % 4)

/-- R39 to R43, R55, R90 to R100: some words, written out from the manual's encoding, and what they stand for; the word of zeros is illegal, and
`clz` with a nonzero s, which R93 reserves, is not an instruction. -/
def Obligations.DecodedWords : Prop :=
  decodeWords 0x00A20604 0 0 0 0 = .ok (.add .base 3 4 5) ∧
  decodeWords 0x2BC09408 0 0 0 0 = .ok (.li .base 10 700) ∧
  decodeWords 0xFD400E0C 0 0 0 0 = .ok (.bLt .base 7 0 0xFD) ∧
  decodeWords 0x00140210 0 0 0 0 = .ok (.call .base 1 40) ∧
  decodeWords 0x1000FE10 0 0 0 0 = .ok (.ret .base 1) ∧
  decodeWords 0x10059414 0 0 0 0 = .ok (.setvl .base 10 11 2) ∧
  decodeWords 0x00000A18 0 0 0 0 = .ok (.mfs .base 5 0) ∧
  decodeWords 0x08028C18 0 0 0 0 = .ok (.mts .base 6 5) ∧
  decodeWords 0 0 0 0 0 = .error .illegal ∧
  decodeWords 0x0002061C 0 0 0 0 = .ok (.clz .base 3 4) ∧
  decodeWords 0x00A2061C 0 0 0 0 = .error .reserved

/-- R24, R35, R39, R40, R57, R58, R115: when the issue slot of a partition whose turn it is issues for the hart in focus, with no interrupt to
take, nothing before it in the slot's queue and no breakpoint set, and the bytes at its pc decode to an instruction that stands alone, the step is
that instruction's meaning, with what every issue and every step end with.

The queue of moves, the hart in focus and the order of the queues are the model's own (log entries 6, 7 and 74). -/
def Obligations.StepRunsDecoded : Prop :=
  ∀ (s : State) (core part busy : Nat) (slot : IssueSlot) (ts : List Turn) (i : Instr) (place : Nat → Nat × Nat),
    let s0 := { s with turns := ts, ended := .open }
    let s1 := { s0 with issued := s.issued + 1 }
    let old := { s.h with hand := none }
    let s' := { s1 with h := { old with fromEret := false, brkSkip := false, park := none, resumed := false, stall := 0 } }
    let word := fun k => leNat (cellsRead s.mem (place k).1 4)
    let len := lenOfL (word 0 % 4)
    let w := fun k => if 4 * k < len then word k else 0
    s.turns = .issue core part slot busy :: ts → s.firm.st = 3 → s0.choose core part slot busy = some s.h.id → s.h.live = true →
    s.h.takeable = false → State.heldBack exec s1 slot (w 0) = 0 → (s.h.fromEret && s.h.ves.rst) = false → s.h.ahead = [] →
    s.h.pc.toNat % 4 = 0 → (∀ b ∈ (s.tcbOf s.h).bp, b.toNat % 4 = 0) →
    (∀ k, 4 * k < len → mapsStill s (s.h.pc + BitVec.ofNat 64 (4 * k)).toNat .fetch = some (place k) ∧
      cleanSector s (s.h.pc + BitVec.ofNat 64 (4 * k)).toNat (place k).1 (place k).2 = true) →
    decodeWords (w 0) (w 1) (w 2) (w 3) (w 4) = .ok i → flag (w 0) 8 = false → (privileged i = true → s.h.status.prv = true) →
    ∃ t, exec i s' = .next t ∧ step s = .next (((t.mapH fun h => h.again old).afterIssue s1.h slot (w 0)).settle)

/-- R90: add, sub, mul, mulh and mulh.n, in the integers; the frame of each.

R90: the logical instructions bit by bit, shifts and rotates in the integers, by b[5:0]. -/
def Obligations.ScalarArithmetic : Prop :=
  (∀ (fm : Form) (d a b : BitVec 6) (s : State),
     let x := s.h.getX a
     let y := s.h.getX b
     (∃ t, exec (.add fm d a b) s = .next t ∧ ScalarDone fm d (BitVec.ofInt 64 (x.toInt + y.toInt)) s t) ∧
     (∃ t, exec (.sub fm d a b) s = .next t ∧ ScalarDone fm d (BitVec.ofInt 64 (x.toInt - y.toInt)) s t) ∧
     (∃ t, exec (.mul fm d a b) s = .next t ∧ ScalarDone fm d (BitVec.ofInt 64 (x.toInt * y.toInt)) s t) ∧
     (∃ t, exec (.mulh fm d a b) s = .next t ∧ ScalarDone fm d (BitVec.ofInt 64 (x.toInt * y.toInt / 2 ^ 64)) s t) ∧
     (∃ t, exec (.mulhN fm d a b) s = .next t ∧ ScalarDone fm d (BitVec.ofNat 64 (x.toNat * y.toNat / 2 ^ 64)) s t)) ∧
  (∀ (fm : Form) (d a b : BitVec 6) (s : State),
     let x := s.h.getX a
     let y := s.h.getX b
     let n := y.toNat % 64
     (∃ t v, exec (.and fm d a b) s = .next t ∧ ScalarDone fm d v s t ∧
       ∀ k < 64, v.getLsbD k = (x.getLsbD k && y.getLsbD k)) ∧
     (∃ t v, exec (.or fm d a b) s = .next t ∧ ScalarDone fm d v s t ∧
       ∀ k < 64, v.getLsbD k = (x.getLsbD k || y.getLsbD k)) ∧
     (∃ t v, exec (.xor fm d a b) s = .next t ∧ ScalarDone fm d v s t ∧
       ∀ k < 64, v.getLsbD k = (x.getLsbD k != y.getLsbD k)) ∧
     (∃ t v, exec (.andn fm d a b) s = .next t ∧ ScalarDone fm d v s t ∧
       ∀ k < 64, v.getLsbD k = (x.getLsbD k && !y.getLsbD k)) ∧
     (∃ t, exec (.shl fm d a b) s = .next t ∧ ScalarDone fm d (BitVec.ofNat 64 (x.toNat * 2 ^ n)) s t) ∧
     (∃ t, exec (.shr fm d a b) s = .next t ∧ ScalarDone fm d (BitVec.ofNat 64 (x.toNat / 2 ^ n)) s t) ∧
     (∃ t, exec (.sar fm d a b) s = .next t ∧ ScalarDone fm d (BitVec.ofInt 64 (x.toInt / 2 ^ n)) s t) ∧
     (∃ t v, exec (.rol fm d a b) s = .next t ∧ ScalarDone fm d v s t ∧
       ∀ k < 64, v.getLsbD k = x.getLsbD ((k + 64 - n) % 64)))

/-- R90 and R91: division never traps, and its two corners. -/
def Obligations.ScalarDivision : Prop :=
  ∀ (fm : Form) (d a b : BitVec 6) (s : State),
    let x := s.h.getX a
    let y := s.h.getX b
    (∃ t v, exec (.div fm d a b) s = .next t ∧ ScalarDone fm d v s t ∧
      (y = 0 → v = BitVec.allOnes 64) ∧ (x.toInt = -2 ^ 63 → y.toInt = -1 → v.toInt = -2 ^ 63) ∧
      (y ≠ 0 → ¬ (x.toInt = -2 ^ 63 ∧ y.toInt = -1) → v.toInt = x.toInt.tdiv y.toInt)) ∧
    (∃ t v, exec (.divN fm d a b) s = .next t ∧ ScalarDone fm d v s t ∧
      (y = 0 → v = BitVec.allOnes 64) ∧ (y ≠ 0 → v.toNat = x.toNat / y.toNat)) ∧
    (∃ t v, exec (.rem fm d a b) s = .next t ∧ ScalarDone fm d v s t ∧
      (y = 0 → v = x) ∧ (x.toInt = -2 ^ 63 → y.toInt = -1 → v = 0) ∧ (y ≠ 0 → v.toInt = x.toInt.tmod y.toInt)) ∧
    (∃ t v, exec (.remN fm d a b) s = .next t ∧ ScalarDone fm d v s t ∧
      (y = 0 → v = x) ∧ (y ≠ 0 → v.toNat = x.toNat % y.toNat))

/-- R92: each immediate form computes the result of R90 on the source and the immediate of its table; `li` and `mov`. -/
def Obligations.ScalarImmediates : Prop :=
  ∀ (fm : Form) (d : BitVec 6) (w : BitVec 12) (q : BitVec 6) (s : State),
    let x := s.h.getX (immOperands fm d w).1
    let y := (immOperands fm d w).2
    let n := y.toNat % 64
    (∃ t, exec (.addImm fm d w) s = .next t ∧ ScalarDone fm d (BitVec.ofInt 64 (x.toInt + y.toInt)) s t) ∧
    (∃ t, exec (.mulImm fm d w) s = .next t ∧ ScalarDone fm d (BitVec.ofInt 64 (x.toInt * y.toInt)) s t) ∧
    (∃ t, exec (.li fm d w) s = .next t ∧ ScalarDone fm d y s t) ∧
    (∃ t, exec (.mov fm d q) s = .next t ∧ ScalarDone fm d (s.h.getX q) s t) ∧
    (∃ t, exec (.andImm fm d w) s = .next t ∧ ScalarDone fm d (x &&& y) s t) ∧
    (∃ t, exec (.orImm fm d w) s = .next t ∧ ScalarDone fm d (x ||| y) s t) ∧
    (∃ t, exec (.xorImm fm d w) s = .next t ∧ ScalarDone fm d (x ^^^ y) s t) ∧
    (∃ t, exec (.shlImm fm d w) s = .next t ∧ ScalarDone fm d (BitVec.ofNat 64 (x.toNat * 2 ^ n)) s t) ∧
    (∃ t, exec (.shrImm fm d w) s = .next t ∧ ScalarDone fm d (BitVec.ofNat 64 (x.toNat / 2 ^ n)) s t) ∧
    (∃ t, exec (.sarImm fm d w) s = .next t ∧ ScalarDone fm d (BitVec.ofInt 64 (x.toInt / 2 ^ n)) s t) ∧
    (∃ t v, exec (.rolImm fm d w) s = .next t ∧ ScalarDone fm d v s t ∧
      ∀ k < 64, v.getLsbD k = x.getLsbD ((k + 64 - n) % 64))

/-- R93: counts of bits and bit fields.

R93: selection, minimum and maximum. -/
def Obligations.CountsAndSelection : Prop :=
  (∀ (fm : Form) (d a b : BitVec 6) (s : State),
     let x := s.h.getX a
     let pos := (bitField fm b s.h).1
     let len := (bitField fm b s.h).2
     (∃ t n, exec (.clz fm d a) s = .next t ∧ ScalarDone fm d (BitVec.ofNat 64 n) s t ∧ n ≤ 64 ∧
       x.toNat < 2 ^ (64 - n) ∧ (n < 64 → 2 ^ (63 - n) ≤ x.toNat)) ∧
     (∃ t n, exec (.ctz fm d a) s = .next t ∧ ScalarDone fm d (BitVec.ofNat 64 n) s t ∧ n ≤ 64 ∧
       (∀ k < n, x.getLsbD k = false) ∧ (n < 64 → x.getLsbD n = true)) ∧
     (∃ t, exec (.popc fm d a) s = .next t ∧
       ScalarDone fm d (BitVec.ofNat 64 ((List.range 64).countP fun k => x.getLsbD k)) s t) ∧
     (∃ t, exec (.bext fm d a b) s = .next t ∧ ScalarDone fm d (BitVec.ofNat 64 (x.toNat / 2 ^ pos % 2 ^ len)) s t) ∧
     (∃ t v, exec (.bins fm d a b) s = .next t ∧ ScalarDone fm d v s t ∧
       ∀ k < 64, v.getLsbD k = if pos ≤ k ∧ k < pos + len then x.getLsbD (k - pos) else (s.h.getX d).getLsbD k)) ∧
  (∀ (fm : Form) (d a b : BitVec 6) (s : State),
     let x := s.h.getX a
     let y := s.h.getX b
     (∃ t, exec (.sel fm d a b) s = .next t ∧ ScalarDone fm d (if s.h.getX d = 0 then y else x) s t) ∧
     (∃ t v, exec (.min fm d a b) s = .next t ∧ ScalarDone fm d v s t ∧ v.toInt = min x.toInt y.toInt) ∧
     (∃ t v, exec (.max fm d a b) s = .next t ∧ ScalarDone fm d v s t ∧ v.toInt = max x.toInt y.toInt) ∧
     (∃ t v, exec (.minN fm d a b) s = .next t ∧ ScalarDone fm d v s t ∧ v.toNat = min x.toNat y.toNat) ∧
     (∃ t v, exec (.maxN fm d a b) s = .next t ∧ ScalarDone fm d v s t ∧ v.toNat = max x.toNat y.toNat))

/-- R94: a branch goes to its target when its condition holds, else to the next instruction, and writes no register.

R95 and R96: jumps, calls and returns. A register target has its low two bits cleared and is read before the link is
written; the link is the address of the next instruction, and a link to x0 is discarded. -/
def Obligations.ControlTransfers : Prop :=
  (∀ (fm : Form) (a b : BitVec 6) (p : BitVec 8) (s : State),
     let x := s.h.getX a
     let y := s.h.getX b
     let goal := fun (c : Prop) [Decidable c] =>
       if c then s.h.pc + BitVec.ofInt 64 (byteDisp fm p) else s.h.pc + BitVec.ofNat 64 fm.len
     (∃ t, exec (.bEq fm a b p) s = .next t ∧ Jumped (goal (x = y)) s t) ∧
     (∃ t, exec (.bNe fm a b p) s = .next t ∧ Jumped (goal (x ≠ y)) s t) ∧
     (∃ t, exec (.bLt fm a b p) s = .next t ∧ Jumped (goal (x.toInt < y.toInt)) s t) ∧
     (∃ t, exec (.bGe fm a b p) s = .next t ∧ Jumped (goal (y.toInt ≤ x.toInt)) s t) ∧
     (∃ t, exec (.bLtn fm a b p) s = .next t ∧ Jumped (goal (x.toNat < y.toNat)) s t) ∧
     (∃ t, exec (.bGen fm a b p) s = .next t ∧ Jumped (goal (y.toNat ≤ x.toNat)) s t)) ∧
  (∀ (fm : Form) (d q l : BitVec 6) (p : BitVec 17) (s : State),
     let direct := s.h.pc + BitVec.ofInt 64 (byteDisp fm p)
     let next := s.h.pc + BitVec.ofNat 64 fm.len
     let reg := BitVec.ofNat 64 ((s.h.getX q).toNat / 4 * 4)
     let linked := fun (r : BitVec 6) (p : DWord) (t : State) =>
       t.h.pc = p ∧ (∀ k, t.h.getX k = if k = 0 then 0 else if k = r then next else s.h.getX k) ∧ VesKept s t ∧ RestSame s t ∧
       t.h = { s.h with x := t.h.x, pc := t.h.pc, ves := t.h.ves, vcm := t.h.vcm }
     (∃ t, exec (.jmp fm p) s = .next t ∧ Jumped direct s t) ∧
     (∃ t, exec (.call fm d p) s = .next t ∧ linked d direct t) ∧
     (∃ t, exec (.jmpReg fm q) s = .next t ∧ Jumped reg s t) ∧
     (∃ t, exec (.callReg fm q l) s = .next t ∧ linked l reg t) ∧
     (∃ t, exec (.ret fm q) s = .next t ∧ Jumped reg s t))

/-- R97: `setvl` gives min(xa, G(w)), with G of R18, writes it to xd, and sets EW; it never traps. -/
def Obligations.SetvlGrants : Prop :=
  ∀ (fm : Form) (d a : BitVec 6) (w : BitVec 2) (s : State),
    let g := 16384 / 2 ^ s.h.split.toNat / (8 * 2 ^ w.toNat) / (if s.h.prot then 2 else 1)
    let n := min (s.h.getX a).toNat g
    ∃ t, exec (.setvl fm d a w) s = .next t ∧ t.h.vl.toNat = n ∧ t.h.ew = w ∧ t.h.strip = s.h.strip + 1 ∧
      (∀ r, t.h.getX r = if r = 0 then 0 else if r = d then BitVec.ofNat 64 n else s.h.getX r) ∧ Passed fm s t ∧ VesKept s t ∧
      RestSame s t ∧
      t.h = { s.h with x := t.h.x, pc := t.h.pc, vl := t.h.vl, ew := t.h.ew, strip := t.h.strip, ves := t.h.ves, vcm := t.h.vcm }

/-- R99: `vjoin k` with k below the current split, while no hart of the partition waits for another `vjoin`: once every other hart of
the partition has reached a `vjoin k` or is merged away, each hart that reached it has passed it: the leader of each merge group goes on at
split k and the others are merged away; until then the hart is parked at it. Else it raises 0x12.

R99: `vsplit k` with c < k ≤ D: the issuing hart goes on at split k, and each other leader of a merge group for k among the slots
that its group held, if merged away, resumes at split k. Else it raises 0x12. -/
def Obligations.LaneSplits : Prop :=
  (∀ (fm : Form) (two : Bool) (s : State),
     let k : BitVec 2 := if two then 1 else 0
     let mates := s.harts.filter fun g => g.live && samePart g.id s.h.id
     let leads := fun (g : Hart) => g.id.slot % 2 ^ (g.split.toNat - k.toNat) = 0
     let past := fun (g : Hart) (len : Nat) (res : Bool) =>
       { g with pc := g.pc + BitVec.ofNat 64 len, park := if leads g then none else some .away, cur := if leads g then k else g.cur,
                ves := if res then { } else g.ves, vcm := if res then 0 else g.vcm, resumed := false }
     s.h.live = true → alone s = true →
     (k.toNat < s.h.cur.toNat → (∀ g ∈ mates, ∀ j, g.joining = some j → j = k) →
       ∃ t, exec (.vjoin fm two) s = .next t ∧ RestSameC { s with harts := t.harts } t ∧
         if ∀ g ∈ mates, g.joining = some k ∨ g.park = some .away then
           t.h = past s.h fm.len (resumedNow s) ∧
           t.harts = s.harts.map fun g => match g.park with
             | some (.join j len) => if g.live && samePart g.id s.h.id && j == k then past g len g.resumed else g
             | _ => g
         else t.h = { s.h with park := some (.join k fm.len), resumed := resumedNow s } ∧ t.harts = s.harts) ∧
     (¬ k.toNat < s.h.cur.toNat ∨ (∃ g ∈ mates, ∃ j, g.joining = some j ∧ j ≠ k) → s.cv.active = false →
       ∃ t, exec (.vjoin fm two) s = .next t ∧ Entered 0x12 (BitVec.ofNat 64 (encodeWord0 (.vjoin fm two))) s.h.pc s t)) ∧
  (∀ (fm : Form) (four : Bool) (s : State),
     let k : BitVec 2 := if four then 2 else 1
     let lo := s.h.id.slot
     let hi := lo + 2 ^ (s.h.split.toNat - s.h.cur.toNat)
     let resumes := fun (g : Hart) => g.live && samePart g.id s.h.id && decide (lo < g.id.slot) && decide (g.id.slot < hi) &&
       g.park == some .away && g.id.slot % 2 ^ (g.split.toNat - k.toNat) == 0
     let may := s.h.cur.toNat < k.toNat ∧ k.toNat ≤ s.h.split.toNat
     (s.h.live = true → alone s = true → s.h.park ≠ some .away → may →
       ∃ t, exec (.vsplit fm four) s = .next t ∧
         t.harts = s.harts.map (fun g => if resumes g then { g with park := none, cur := k } else g) ∧
         RestSame { s with harts := t.harts } t ∧ VesKept s t ∧
         t.h = { s.h with pc := s.h.pc + BitVec.ofNat 64 fm.len, cur := k, park := none, ves := t.h.ves, vcm := t.h.vcm }) ∧
     (¬ may → s.cv.active = false →
       ∃ t, exec (.vsplit fm four) s = .next t ∧ Entered 0x12 (BitVec.ofNat 64 (encodeWord0 (.vsplit fm four))) s.h.pc s t))

/-- R100 and R105 to R108: `mfs` never traps; a supervisor-only register reads zero in user mode, and every register reads as its map says,
its reserved bits as zero. -/
def Obligations.MfsReads : Prop :=
  ∀ (fm : Form) (d : BitVec 6) (n : BitVec 12) (s : State),
    let only := n.toNat = 0x11 ∨ (0x101 ≤ n.toNat ∧ n.toNat ≤ 0x105)
    let here := fun (i : Nat) => decide (i < 56 + 8 / 2 ^ s.h.split.toNat)
    ∃ t v, exec (.mfs fm d n) s = .next t ∧ ScalarDone fm d v s t ∧
      (only → s.h.status.prv = false → v = 0) ∧
      (s.h.status.prv = true →
        (n = 0x101 → v.getLsbD 63 = s.h.cause.int ∧ v.extractLsb' 8 8 = s.h.cause.acode ∧ v.extractLsb' 0 8 = s.h.cause.code ∧
          v.extractLsb' 16 47 = 0) ∧
        (n = 0x011 → ∀ i < 64, v.getLsbD i = (s.h.vlive.getLsbD i && here i)) ∧
        (n = 0x102 → v = s.h.epc) ∧ (n = 0x103 → v = s.h.tval) ∧ (n = 0x104 → v = s.h.tvec) ∧ (n = 0x105 → v = s.h.sscr)) ∧
      (n = 0x000 → v.extractLsb' 12 2 = s.h.ew ∧ v.extractLsb' 0 12 = s.h.vl ∧ v.toNat < 2 ^ 14) ∧
      (n = 0x001 → v.toNat = 16384 / 2 ^ s.h.split.toNat / 32 / (if s.h.prot then 2 else 1)) ∧
      (n = 0x002 → v.getLsbD 63 = s.h.ves.rst ∧ v.extractLsb' 12 2 = s.h.ves.cm ∧ v.extractLsb' 0 12 = s.h.ves.idx ∧
        v.extractLsb' 14 49 = 0) ∧
      (n = 0x004 → v = s.h.sseed) ∧ (n = 0x005 → v = s.h.sbase) ∧ (n = 0x008 → v = s.h.fprog) ∧
      (n = 0x010 → ∀ i < 64, v.getLsbD i = (s.h.vdirty.getLsbD i && here i)) ∧
      (n = 0x012 → v.getLsbD 0 = s.h.prot ∧ v.extractLsb' 16 16 = s.h.mism ∧ v.extractLsb' 1 15 = 0 ∧ v.extractLsb' 32 32 = 0) ∧
      (0x20 ≤ n.toNat → n.toNat < 0x40 → ∀ i < 64, v.getLsbD i = s.h.vcm.getLsbD (64 * (n.toNat - 0x20) + i)) ∧
      (n = 0x100 → v.getLsbD 0 = s.h.status.prv ∧ v.getLsbD 1 = s.h.status.pprv ∧ v.getLsbD 2 = s.h.status.ie ∧
        v.getLsbD 3 = s.h.status.pie ∧ v.getLsbD 5 = s.h.prot ∧ v.extractLsb' 6 2 = s.h.split ∧ v.extractLsb' 8 2 = s.h.cur ∧
        v.getLsbD 11 = s.h.status.nest ∧ v.getLsbD 4 = false ∧ v.getLsbD 10 = false ∧ v.extractLsb' 12 52 = 0) ∧
      (n = 0x106 → ∀ i, v.getLsbD i = if i = 0 then s.h.preempt.isSome || !s.h.async.isEmpty || s.h.note.isSome
        else if i = 1 then s.h.evtCpy else if i = 2 then s.h.evtMsg else if i = 3 then s.h.evtChld else if i = 4 then s.h.evtBar
        else i == 5 && decide (s.h.tcmp.toNat ≤ s.tstamp.toNat)) ∧
      (n = 0x107 → v.toNat = s.h.emask.toNat) ∧ (n = 0x108 → v = s.h.tcmp) ∧ (n = 0x190 → v = s.tstamp) ∧
      (n = 0x180 → v = BitVec.ofNat 64 (s.h.id.core * 2 ^ 17 + s.h.id.part * 2 ^ 14 + s.h.id.slot * 2 ^ 12 + s.h.gh)) ∧
      (∀ g m, s.gangOf s.h.gang = some g → s.node g.node = some m →
        (n = 0x181 → v = BitVec.ofNat 64 g.gidx) ∧ (n = 0x182 → v = BitVec.ofNat 64 (m.prio * 2 ^ 32 + g.node)))

/-- R100, R106 to R108: an `mts` that its mode allows, and that asks of `vl` no more than the grant, writes the fields that its map
makes writable; fields that are read-only stay. `ves`, `vcm`, `vdirty` and `status` ignore a write in user mode.

R19 and R106: a length above the grant raises cause 0x11 with the value in `tval`.

R100 and R31: an `mts` to a supervisor-only register raises cause 0x03 in user mode, before effect, with word 0 in `tval` and the
address of the convoy in `epc`. -/
def Obligations.MtsWrites : Prop :=
  (∀ (fm : Form) (a : BitVec 6) (n : BitVec 12) (s : State),
     let x := s.h.getX a
     let only := n.toNat = 0x11 ∨ (0x101 ≤ n.toNat ∧ n.toNat ≤ 0x105)
     let p := s.h.status.prv = true
     let here := fun (i : Nat) => decide (i < 56 + 8 / 2 ^ s.h.split.toNat)
     alone s = true → (only → p) →
     (n = 0 → x.toNat % 4096 ≤ 16384 / 2 ^ s.h.split.toNat / (8 * 2 ^ (x.toNat / 4096 % 4)) / (if s.h.prot then 2 else 1)) →
     ∃ t, exec (.mts fm a n) s = .next t ∧ Passed fm s t ∧ RestSame s t ∧ t.h.park = none ∧
       t.h.vl.toNat = (if n = 0 then x.toNat % 4096 else s.h.vl.toNat) ∧ t.h.ew.toNat = (if n = 0 then x.toNat / 4096 % 4 else s.h.ew.toNat) ∧
       t.h.sseed = (if n = 4 then x else s.h.sseed) ∧ t.h.sbase = (if n = 5 then x else s.h.sbase) ∧
       t.h.fprog = (if n = 8 then x else s.h.fprog) ∧
       (∀ i < 64, t.h.vdirty.getLsbD i = (s.h.vdirty.getLsbD i && !(decide (n = 0x10 ∧ p) && x.getLsbD i && here i))) ∧
       (∀ i < 64, t.h.vlive.getLsbD i = if n = 0x11 ∧ here i = true then x.getLsbD i else s.h.vlive.getLsbD i) ∧
       t.h.ves = (if resumedNow s then { } else if n = 2 ∧ p then
         { rst := x.getLsbD 63, cm := x.extractLsb' 12 2, idx := x.extractLsb' 0 12 } else s.h.ves) ∧
       (∀ i < 2048, t.h.vcm.getLsbD i = (!resumedNow s &&
         if p ∧ n.toNat = 0x20 + i / 64 then x.getLsbD (i % 64) else s.h.vcm.getLsbD i)) ∧
       t.h.status = (if n = 0x100 ∧ p then { prv := true, pprv := x.getLsbD 1, ie := x.getLsbD 2, pie := x.getLsbD 3,
                                             nest := s.h.status.nest && !x.getLsbD 11 } else s.h.status) ∧
       t.h.cause = (if n = 0x101 then { int := x.getLsbD 63, acode := x.extractLsb' 8 8, code := x.extractLsb' 0 8 } else s.h.cause) ∧
       t.h.epc.toNat = (if n = 0x102 then x.toNat % 2 ^ 57 / 4 * 4 else s.h.epc.toNat) ∧
       t.h.tval = (if n = 0x103 then x else s.h.tval) ∧
       t.h.tvec.toNat = (if n = 0x104 then x.toNat % 2 ^ 57 / 64 * 64 else s.h.tvec.toNat) ∧
       t.h.sscr = (if n = 0x105 then x else s.h.sscr) ∧
       t.h.evtCpy = (s.h.evtCpy && !(n == 0x106 && x.getLsbD 1)) ∧ t.h.evtMsg = (s.h.evtMsg && !(n == 0x106 && x.getLsbD 2)) ∧
       t.h.evtChld = (s.h.evtChld && !(n == 0x106 && x.getLsbD 3)) ∧ t.h.evtBar = (s.h.evtBar && !(n == 0x106 && x.getLsbD 4)) ∧
       t.h.emask.toNat = (if n = 0x107 then x.toNat % 64 else s.h.emask.toNat) ∧ t.h.tcmp = (if n = 0x108 then x else s.h.tcmp) ∧
       t.h = { s.h with pc := t.h.pc, park := t.h.park, vl := t.h.vl, ew := t.h.ew, strip := t.h.strip, sseed := t.h.sseed,
                        sbase := t.h.sbase, fprog := t.h.fprog, vdirty := t.h.vdirty, vlive := t.h.vlive, status := t.h.status,
                        cause := t.h.cause, epc := t.h.epc, tval := t.h.tval, tvec := t.h.tvec, sscr := t.h.sscr,
                        evtCpy := t.h.evtCpy, evtMsg := t.h.evtMsg, evtChld := t.h.evtChld, evtBar := t.h.evtBar,
                        emask := t.h.emask, tcmp := t.h.tcmp, ves := t.h.ves, vcm := t.h.vcm }) ∧
  (∀ (fm : Form) (a : BitVec 6) (n : BitVec 12) (s : State),
     n.toNat = 0x11 ∨ (0x101 ≤ n.toNat ∧ n.toNat ≤ 0x105) → s.h.status.prv = false → s.cv.active = false →
     ∃ t, exec (.mts fm a n) s = .next t ∧ Entered 3 (BitVec.ofNat 64 (encodeWord0 (.mts fm a n))) s.h.pc s t) ∧
  (∀ (fm : Form) (a : BitVec 6) (s : State),
     let x := s.h.getX a
     16384 / 2 ^ s.h.split.toNat / (8 * 2 ^ (x.toNat / 4096 % 4)) / (if s.h.prot then 2 else 1) < x.toNat % 4096 → s.cv.active = false →
     ∃ t, exec (.mts fm a 0) s = .next t ∧ Entered 0x11 x s.h.pc s t)

/-- R101 with R112: `trap n` retires and then raises cause 0xC0 with n in `tval` and the address of the next instruction in `epc`. -/
def Obligations.TrapInstruction : Prop :=
  ∀ (fm : Form) (n : BitVec 12) (s : State), s.cv.active = false →
    ∃ t, exec (.trap fm n) s = .next t ∧ t.h.ves = s.h.ves ∧ t.h.vcm = s.h.vcm ∧
      EnteredKeeping 0xC0 (BitVec.ofNat 64 n.toNat) (s.h.pc + BitVec.ofNat 64 fm.len) s t

/-- R112: taking a trap or an interrupt saves the pc and the cause, sets NEST in supervisor mode, saves PRV and IE into PPRV and PIE, enters
supervisor mode with interrupts off, and goes to the trap vector; nothing else of the hart's registers changes.

R102: `eret` in supervisor mode goes to `epc` and restores PRV and IE from PPRV and PIE, which it clears, while no save window is
lent to the hart (R324); in user mode it raises 0x03 (R31).

R21, R57: the instructions from the pc on, each with the chain bit but the last and of the majors that may share a convoy, are its members, up
to four; a chain bit on a fourth one, or on or before an instruction of another major, raises 0x04 with word 0 of the chained one. A convoy
fetched ahead that is bad does so too.

R98, R110, R113, R117, R81, R208: a cause found at dispatch leaves no effect of earlier members: the hart is as before the convoy, but for
the trap: a stream register out of range 0x60, then a register that is not live 0x10 with the lowest one of the convoy, then an invalid
descriptor 0x51, then a length above the grant 0x11. No request comes before one.

R111: a convoy resumed by `eret` skips the members below CM; a load as member CM loads only its elements at or above IDX whose DONE bit is
clear; on retirement `ves` and `vcm` are zero. With no member CM it raises 0x04 with word 0 of its last.

R23: a request that stops a convoy between two members leaves CM as the next one, IDX zero and DONE clear, and is taken with `epc` at the convoy.

Of two chain bits that are bad, the first counts; this is the model's reading (log entry 72). -/
def Obligations.TrapEntryAndReturn : Prop :=
  (∀ (h : Hart) (int : Bool) (acode code : BitVec 8) (tval epc : DWord),
     let g := h.enter int acode.toNat code.toNat tval epc
     g.epc.toNat = epc.toNat % 2 ^ 57 / 4 * 4 ∧ g.tval = tval ∧ g.pc = h.tvec ∧
     g.cause = { int := int, acode := acode, code := code } ∧
     g.status = { nest := h.status.prv || h.status.nest, pprv := h.status.prv, pie := h.status.ie, prv := true, ie := false } ∧
     (∀ r, g.getX r = h.getX r) ∧
     g = { h with epc := g.epc, tval := g.tval, pc := g.pc, cause := g.cause, status := g.status, park := none, fromEret := false,
                  brkSkip := false, resumed := false, hand := none, queued := none, stall := 0, early := [],
                  ahead := if h.status.prv then h.ahead else [] }) ∧
  (∀ (fm : Form) (s : State), s.cv.active = false →
     (s.h.status.prv = true → s.h.sv ≠ .lent →
       ∃ t, exec (.eret fm) s = .next t ∧ t.h.pc = s.h.epc ∧
         t.h.status = { nest := s.h.status.nest, prv := s.h.status.pprv, ie := s.h.status.pie, pprv := false, pie := false } ∧
         (∀ r, t.h.getX r = s.h.getX r) ∧ RestSame s t ∧ VesKept s t ∧
         t.h = { s.h with pc := t.h.pc, status := t.h.status, fromEret := true, brkSkip := true, ves := t.h.ves, vcm := t.h.vcm,
                          early := [], ahead := if s.h.status.pprv then s.h.ahead else [] }) ∧
     (s.h.status.prv = false →
       ∃ t, exec (.eret fm) s = .next t ∧ Entered 3 (BitVec.ofNat 64 (encodeWord0 (.eret fm))) s.h.pc s t)) ∧
  (∀ (s : State) (cut : Option (Nat × Nat)) (ms : List (List Nat)) (w n : Nat) (p : DWord) (f : Ahead),
     let word := fun (i : Nat) => (ms.getD i []).headD 0
     let chained := fun (i : Nat) => (word i).testBit 8
     let may := fun (i : Nat) => let m := word i / 4 % 64; (0x0C ≤ m ∧ m ≤ 0x1F) ∨ (0x26 ≤ m ∧ m ≤ 0x29)
     let bad := fun (w : Nat) => ∃ t, issueConvoy exec cut s = .next t ∧ Entered 4 (BitVec.ofNat 64 w) s.h.pc s t
     let good := ms.length = n + 1 ∧ n < 4 ∧ (∀ i < n, chained i = true ∧ may i) ∧ chained n = false ∧ (0 < n → may n)
     (s.h.ahead = [] → holdsWords s s.h.pc ms.flatten → ms.all wholeMember = true →
       (good → s.frame = (.ok { members := ms, bad := none }, s)) ∧
       (good → s.h.fromEret = true → s.h.ves.rst = true → n < s.h.ves.cm.toNat → bad (word n)) ∧
       (ms.length = 4 → (∀ i < 4, chained i = true ∧ may i) → bad (word 3)) ∧
       (ms.length = 1 → chained 0 = true → ¬ may 0 → bad (word 0)) ∧
       (ms.length = n + 2 → n < 3 → (∀ i ≤ n, chained i = true ∧ may i) → ¬ may (n + 1) → bad (word n))) ∧
     (s.h.ahead.find? (·.1 == s.h.pc) = some (p, f) → f.bad = some w →
       ∃ t, issueConvoy exec cut s = .next t ∧ RestSame s t ∧
         t.h = ({ s.h with ves := { }, vcm := 0, ahead := s.h.ahead.filter (·.1 != s.h.pc) } : Hart).enter false 0 4 (BitVec.ofNat 64 w) s.h.pc)) ∧
  (∀ (fm : Form) (d a b : BitVec 5) (f : BitVec 3) (q : BitVec 3) (k : Bool) (s : State) (n : Nat),
     let fd := fdValue fm f s.h
     let i := Instr.viadd fm d a b f k
     let pop := Instr.sopPop fm d q
     let undone := fun (i : Instr) (code : Nat) (tval : DWord) => ∃ t, exec i s = .next t ∧
       t.h = ({ s.h0 with ves := { }, vcm := 0, async := s.h.async } : Hart).enter false 0 code tval s.cv.base ∧ MemSame s t ∧
       t = { s with h := t.h, h0 := t.h0, hT := t.hT, cv := t.cv, ended := t.ended, ctrs := s.cv.ctrs }
     let live := ∀ j ∈ namedBits i, s.h.status.prv = true ∨ s.h.vlive.getLsbD j = true
     let fits := fdOk { fa := some isInt, fb := some isInt, dst := some isInt } fd
     s.cv.active = true →
     (8 / 2 ^ s.h.split.toNat ≤ q.toNat → undone pop 0x60 (BitVec.ofNat 64 (encodeWord0 pop))) ∧
     (s.h.status.prv = false → n ∈ namedBits i → s.h.vlive.getLsbD n = false →
       (∀ j ∈ namedBits i, s.h.vlive.getLsbD j = false → n ≤ j) → undone i 0x10 (BitVec.ofNat 64 (min n (s.cv.low.getD n)))) ∧
     (live → fits = false → undone i 0x51 fd) ∧
     (live → fits = true → immReserved fm fd = false →
       s.h.grant (max (max (fmtWidth (fdFA fd)) (fmtWidth (fdFB fd))) (fmtWidth (fdDst fd))) < s.h.vl.toNat →
       undone i 0x11 (BitVec.ofNat 64 (s.h.ew.toNat * 4096 + s.h.vl.toNat)))) ∧
  (∀ (s t : State) (is : List Instr) (c : Nat × Nat) (r : Bool),
     runMembers exec is (s.enterConvoy none r is) = .next t → t.ended = .trapped .before ∨ t.ended = .waits streamWait →
     issueDecoded exec (some c) r is s =
       .next (if is.length = 1 then t else { s with h := { t.h with async := s.h.async }, ended := t.ended })) ∧
  (∀ (fm : Form) (v : BitVec 5) (b : BitVec 6) (w : BitVec 2) (i : Instr) (s : State),
     let n : Nat := 2 ^ w.toNat
     let j := Instr.vld fm v b w false false
     let reads := fun (e : Nat) => readsAs s false (s.h.getX b + offsetOf fm + BitVec.ofNat 64 (e * n)) n
     let left := fun (e : Nat) => act fm s.h e && decide (s.h.ves.idx.toNat ≤ e) && !s.h.vcm.getLsbD e
     s.cv.active = false → s.h.ves.cm = 1 → ready j (8 * n) s = true → s.h.arit = [] → s.h.pendingOf .vector = [] → noSlots [v] s.h = true →
     (∀ e, left e = true → (reads e).isSome = true) →
     ∃ t, issueDecoded exec none true [i, j] s = .next t ∧ t.h.ves = { } ∧ t.h.vcm = 0 ∧
       t.h.pc = s.h.pc + BitVec.ofNat 64 (instrLen i) + BitVec.ofNat 64 fm.len ∧
       GotElts (8 * n) (fun e => if left e then (reads e).map (·, false) else none) (s.h.getV v) (t.h.getV v) ∧
       (∀ r, r ≠ v → t.h.getV r = s.h.getV r) ∧ RestSameC s t ∧
       t.h = { s.h with v := t.h.v, vdirty := t.h.vdirty, vlive := t.h.vlive, pc := t.h.pc, park := none, ves := { }, vcm := 0 }) ∧
  (∀ (i : Instr) (is : List Instr) (d : DWord) (s : State),
     s.cv.active = true → s.cv.pend = false → s.cv.resumed = false → 0 < s.cv.idx → s.cv.cut = some (s.cv.idx, 0) → s.cv.done = 0 →
     s.cv.marks = [] → s.h.park = none → s.h.preempt = some d →
     ∃ t, runMembers exec (i :: is) s = .next t ∧ RestSame s t ∧ t.h.ves = { rst := true, cm := BitVec.ofNat 2 s.cv.idx, idx := 0 } ∧
       t.h.vcm = 0 ∧ t.h.cause = { int := true, acode := 0, code := 1 } ∧ t.h.tval = d ∧ t.h.pc = s.h.tvec ∧ t.h.preempt = none ∧
       t.h.epc.toNat = s.cv.base.toNat % 2 ^ 57 / 4 * 4 ∧ (∀ r, t.h.getX r = s.h.getX r) ∧ ∀ r, t.h.getV r = s.h.getV r)

/-- R103, R104 and R129: `yield` and the prefetches change nothing but the pc; `wfe` goes on when an event bit that `emask` enables is
set, and otherwise parks after it. -/
def Obligations.HintsAndWaits : Prop :=
  ∀ (fm : Form) (b i : BitVec 6) (l : BitVec 2) (s : State),
    let next := s.h.pc + BitVec.ofNat 64 fm.len
    (∃ t, exec (.yield fm) s = .next t ∧ Jumped next s t) ∧
    (∃ t, exec (.pref fm b i l) s = .next t ∧ Jumped next s t) ∧
    ((∃ k < 6, (s.evtOf s.h).getLsbD k = true ∧ s.h.emask.getLsbD k = true) → ∃ t, exec (.wfe fm) s = .next t ∧ Jumped next s t) ∧
    ((∀ k < 6, (s.evtOf s.h).getLsbD k = true → s.h.emask.getLsbD k = false) →
      ∃ t, exec (.wfe fm) s = .next t ∧ t.h.pc = next ∧ t.h.park = some .wfe ∧ VesKept s t ∧ RestSame s t ∧
        t.h = { s.h with pc := t.h.pc, park := t.h.park, ves := t.h.ves, vcm := t.h.vcm })

/-- R119 to R121: a scalar load from global memory that its page allows, aligned, of clean bytes, gives them little-endian, sign- or
zero-extended; the frame of the scalar loads.

R122, R143: a load may perform before it issues: an aligned doubleword that did so gives the bytes that it read then. How such a load stands
in the state, and which instructions it may pass, is the model's reading (log entry 73).

R118, R33, R182 to R185: scalar loads from TCM and from the scratchpad; offsets wrap, and bytes beyond the allocation read zero. -/
def Obligations.ScalarLoads : Prop :=
  (∀ (fm : Form) (d b i : BitVec 6) (w : BitVec 2) (l : Bool) (c : Scope) (s : State) (e : TlbEntry),
     let va := (addrB fm b i s.h).toNat
     let bytes := fun n => cellsRead s.mem (paBy e va) n
     let ready := fun n => va % n = 0
     alone s = true → mapsBy s va .read e = true → cleanSector s va (paBy e va) (leafKey e.leaf.toNat) = true →
     paBy e va % 8 = va % 8 → s.h.pendingOf .scalar = [] → s.h.early = [] →
     (ready (2 ^ w.toNat) →
       (∃ t, exec (.lds fm d b i w false) s = .next t ∧
         LoadDone fm d (BitVec.ofInt 64 ((BitVec.ofNat (8 * 2 ^ w.toNat) (leNat (bytes (2 ^ w.toNat)))).toInt)) e s t) ∧
       (∃ t, exec (.ldz fm d b i w false) s = .next t ∧ LoadDone fm d (BitVec.ofNat 64 (leNat (bytes (2 ^ w.toNat)))) e s t)) ∧
     (ready 8 → ∃ t, exec (.ldD fm d b i false) s = .next t ∧ LoadDone fm d (BitVec.ofNat 64 (leNat (bytes 8))) e s t) ∧
     (ready (if l then 8 else 4) → ∃ t, exec (.ldacq fm d b i l c) s = .next t ∧
       LoadDone fm d (BitVec.ofNat 64 (leNat (bytes (if l then 8 else 4)))) e s t)) ∧
  (∀ (fm : Form) (d b i : BitVec 6) (w : BitVec 2) (s : State),
     let va := addrB fm b i s.h
     let val := fun (x : Space × Nat) n => leNat ((List.range n).map fun k => localByte (s.localOf x.1) (spaceOff x.1 x.2 k))
     let tcm := s.h.tcmSpace va
     let sp := s.spSpace s.h va
     let sx := fun n v => BitVec.ofInt 64 ((BitVec.ofNat (8 * n) v).toInt)
     alone s = true → s.h.pendingOf .scalar = [] → s.h.early = [] → va.toNat % 2 ^ w.toNat = 0 →
     (cleanLocal (s.localOf tcm.1) = true →
       (∃ t, exec (.lds fm d b i w true) s = .next t ∧ WriteX fm d (sx (2 ^ w.toNat) (val tcm (2 ^ w.toNat))) s t) ∧
       (∃ t, exec (.ldz fm d b i w true) s = .next t ∧ WriteX fm d (BitVec.ofNat 64 (val tcm (2 ^ w.toNat))) s t) ∧
       (va.toNat % 8 = 0 → ∃ t, exec (.ldD fm d b i true) s = .next t ∧ WriteX fm d (BitVec.ofNat 64 (val tcm 8)) s t)) ∧
     (cleanLocal (s.localOf sp.1) = true →
       (∃ t, exec (.ldsSp fm d b i w) s = .next t ∧ WriteX fm d (sx (2 ^ w.toNat) (val sp (2 ^ w.toNat))) s t) ∧
       (∃ t, exec (.ldzSp fm d b i w) s = .next t ∧ WriteX fm d (BitVec.ofNat 64 (val sp (2 ^ w.toNat))) s t) ∧
       (va.toNat % 8 = 0 → ∃ t, exec (.ldDSp fm d b i) s = .next t ∧ WriteX fm d (BitVec.ofNat 64 (val sp 8)) s t))) ∧
  (∀ (fm : Form) (d b i : BitVec 6) (s : State) (pa key : Nat) (l : List (Byte × Bool)),
     let va := addrB fm b i s.h
     alone s = true → va.toNat % 8 = 0 → mapsStill s va.toNat .read = some (pa, key) → l.length = 8 → (∀ x ∈ l, x.2 = false) →
     s.h.early = [{ cls := .scalar, space := .glob, addr := pa, bytes := l }] →
     ∃ t, exec (.ldD fm d b i false) s = .next t ∧ Passed fm s t ∧ VesKept s t ∧ RestSame s t ∧ t.h.early = [] ∧
       ∀ r, t.h.getX r = if r = 0 then 0 else if r = d then BitVec.ofNat 64 (leNat (l.map (·.1))) else s.h.getX r)

/-- R121, R122: a store to an aligned global address that its page allows becomes one write of the scalar class on its way, of the
low bytes of the register, little-endian; no byte of memory but the bits of the page's entry changes before it performs.

R33, R118, R182: an aligned store to TCM or to the scratchpad that lies in the allocation becomes one write on its way; one that lies
beyond it is discarded.

A write on its way stands as log entry 8 says. -/
def Obligations.ScalarStores : Prop :=
  (∀ (fm : Form) (v b i : BitVec 6) (w : BitVec 2) (s : State) (e : TlbEntry),
     let va := addrB fm b i s.h
     let n := 2 ^ w.toNat
     alone s = true → mapsBy s va.toNat .write e = true → unshared s e = true → va.toNat % n = 0 →
     ∃ t, exec (.st fm v b i w false) s = .next t ∧
       StoreMade fm { cls := .scalar, strip := s.h.strip, space := .glob, addr := paBy e va.toNat, key := leafKey e.leaf.toNat, va := va,
                      bytes := leBytes n (s.h.getX v).toNat, psn := false } e s t) ∧
  (∀ (fm : Form) (v b i : BitVec 6) (w : BitVec 2) (s : State),
     let va := addrB fm b i s.h
     let n := 2 ^ w.toNat
     let made := fun (x : Space × Nat) (t : State) =>
       let sz := (s.localOf x.1).size
       let o := x.2 % ceilPow2 sz
       (t.h.stbuf = s.h.stbuf ++ (if o + n ≤ sz then [{ cls := .scalar, strip := s.h.strip, space := x.1, addr := o, key := 0, va := va,
                                                         bytes := leBytes n (s.h.getX v).toNat, psn := false }] else [])) ∧
       Passed fm s t ∧ VesKept s t ∧ RestSame s t ∧
       t.h.early.Sublist s.h.early ∧
       t.h = { s.h with stbuf := t.h.stbuf, early := t.h.early, pc := t.h.pc, park := none, ves := t.h.ves, vcm := t.h.vcm }
     let whole := fun (x : Space × Nat) => (s.localOf x.1).size % 8 = 0 ∧ x.2 % 8 = va.toNat % 8 ∧ 8 ≤ (s.localOf x.1).size
     alone s = true → va.toNat % n = 0 →
     (whole (s.h.tcmSpace va) → ∃ t, exec (.st fm v b i w true) s = .next t ∧ made (s.h.tcmSpace va) t) ∧
     (whole (s.spSpace s.h va) → ∃ t, exec (.stSp fm v b i w) s = .next t ∧ made (s.spSpace s.h va) t))

/-- R121: a misaligned scalar access, an acquire or a release among them, raises 0x30 before effect, with its virtual address in `tval`.

R58, R119, R132, R134, R135, R359: an address beyond 57 bits, or one whose first table entry is not valid, raises 0x20; of a page that is
translated, user mode on a supervisor page or a key index that the address space does not own raises 0x25, then a page without the right to
read 0x21, to write 0x22, for atomics 0x24, to fetch 0x23: before effect, with the virtual address in `tval`. What a release waits for comes before its walk (R134, R146): a release is stated with
nothing left to wait for.

R155: a poisoned source of an active element squashes a member with 0x40: no register of the hart changes but those of the trap.

R116, R110, R158: an element that needs the assist raises 0x50 with the address of the member in `tval` and its number in `ves`; every
active element below it has its result, and `vcm` marks the finished ones. Stated for a member that begins its convoy and ends it.

R137, R125, R110: the lowest element of a load whose access is denied stops it with that cause and its address in `tval`, restartable: the
elements below it are loaded, `ves` names the member and the element, and `vcm` marks exactly the elements that are finished. Stated for a
load that ends its convoy, whose other elements each read cleanly or are denied.

R249: an input that is not sorted squashes a set operation with 0x68 and the number of its register.

Which higher elements have finished is left open (log entry 37). -/
def Obligations.OperandTraps : Prop :=
  (∀ (fm : Form) (d b i : BitVec 6) (w : BitVec 2) (t : Bool) (s : State),
     let va := addrB fm b i s.h
     let traps := fun (j : Instr) => ∃ u, exec j s = .next u ∧ Entered 0x30 va s.h.pc s u
     s.cv.active = false →
     (va.toNat % 2 ^ w.toNat ≠ 0 →
       traps (.lds fm d b i w t) ∧ traps (.ldz fm d b i w t) ∧ traps (.st fm d b i w t) ∧ traps (.ldsSp fm d b i w) ∧
       traps (.ldzSp fm d b i w) ∧ traps (.stSp fm d b i w)) ∧
     (va.toNat % 8 ≠ 0 → traps (.ldD fm d b i t) ∧ traps (.ldDSp fm d b i)) ∧
     (∀ l c, va.toNat % (if l then 8 else 4) ≠ 0 → traps (.ldacq fm d b i l c) ∧ traps (.strel fm d b i l c))) ∧
  (∀ (fm : Form) (d b i y : BitVec 6) (w : BitVec 2) (l dw : Bool) (c : Scope) (o : AmoOp) (s : State),
     let va := addrB fm b i s.h
     let vb := s.h.getX b
     let loads := [Instr.lds fm d b i w false, .ldz fm d b i w false, .ldD fm d b i false, .ldacq fm d b i l c]
     let settled := fun (c : Scope) => s.h.stbuf.isEmpty && quietAt s.h c
     let stores := Instr.st fm d b i w false :: if settled c then [Instr.strel fm d b i l c] else []
     let steps := if !attrRel fm || settled .fab then [Instr.amo fm d b y o dw false, .cas fm d b y dw false] else []
     let trap := fun (code : Nat) (va : DWord) (j : Instr) => ∃ u, exec j s = .next u ∧ Entered code va s.h.pc s u
     let fetch := fun (code : Nat) => s.h.ahead = [] → ∃ u, issueConvoy exec none s = .next u ∧ Entered code s.h.pc s.h.pc s u
     let barred := fun (e : TlbEntry) => (e.leaf.getLsbD 6 = true ∧ s.h.status.prv = false) ∨
       (e.leaf.extractLsb' 48 8 ≠ 0 ∧ ∀ p, s.spaceOf s.h.asn = some p → (e.leaf.extractLsb' 48 8).toNat ∉ p.keys)
     let at' := fun (a : DWord) (p : AddrSpace) => p.root + 8 * (a.toNat / 2 ^ 48 % 512)
     let absent := fun (a : DWord) => 2 ^ 57 ≤ a.toNat ∨
       (cachedAs s a.toNat = none ∧ ∃ p, s.spaceOf s.h.asn = some p ∧ (cellsGet s.mem (at' a p)).getLsbD 0 = false ∧
         plainSector s (at' a p) (s.region (at' a p / 4096)).kidx = true)
     s.cv.active = false → va.toNat % 8 = 0 → vb.toNat % 8 = 0 →
     (absent va → ∀ j ∈ loads ++ stores, trap 0x20 va j) ∧ (absent vb → ∀ j ∈ steps, trap 0x20 vb j) ∧ (absent s.h.pc → fetch 0x20) ∧
     (∀ e, va.toNat < 2 ^ 57 → cachedAs s va.toNat = some e →
       (barred e → ∀ j ∈ loads ++ stores, trap 0x25 va j) ∧
       (¬ barred e → e.leaf.getLsbD 2 = false → ∀ j ∈ loads, trap 0x21 va j) ∧
       (¬ barred e → e.leaf.getLsbD 3 = false → ∀ j ∈ stores, trap 0x22 va j)) ∧
     (∀ e, vb.toNat < 2 ^ 57 → cachedAs s vb.toNat = some e →
       (barred e → ∀ j ∈ steps, trap 0x25 vb j) ∧
       (¬ barred e → e.leaf.getLsbD 2 = false → ∀ j ∈ steps, trap 0x21 vb j) ∧
       (¬ barred e → e.leaf.getLsbD 2 = true → e.leaf.getLsbD 3 = false → ∀ j ∈ steps, trap 0x22 vb j) ∧
       (¬ barred e → e.leaf.getLsbD 2 = true → e.leaf.getLsbD 3 = true → e.leaf.getLsbD 5 = false → ∀ j ∈ steps, trap 0x24 vb j)) ∧
     (∀ e, s.h.pc.toNat < 2 ^ 57 → cachedAs s s.h.pc.toNat = some e →
       (barred e → fetch 0x25) ∧ (¬ barred e → e.leaf.getLsbD 4 = false → fetch 0x23))) ∧
  (∀ (fm : Form) (d a b : BitVec 5) (f : BitVec 3) (s : State) (e : Nat),
     let fd := fdValue fm f s.h
     let wa := fmtWidth (fdFA fd)
     let w := max (max wa (fmtWidth (fdFB fd))) (fmtWidth (fdDst fd))
     let squashed := fun (i : Instr) => ready i w s = true → ∃ t, exec i s = .next t ∧ Entered 0x40 0 s.h.pc s t
     noSlots (d :: abOf fm a b) s.h = true → immReserved fm fd = false → s.cv.active = false → act fm s.h e = true →
     (s.h.getV a).eltPsn wa e = true →
     (fdOk { fa := some isFloating, fb := some isFloating, dst := some isFloating, rounds := true } fd = true →
       squashed (.vadd fm d a b f false) ∧ squashed (.vfma fm d a b f false)) ∧
     (fdOk { fa := some isInt, fb := some isInt, dst := some isInt } fd = true → squashed (.viadd fm d a b f false))) ∧
  (∀ (fm : Form) (d a : BitVec 5) (f : BitVec 3) (s : State) (n : Nat),
     let fd := fdValue fm f s.h
     let wa := fmtWidth (fdFA fd)
     let wd := fmtWidth (fdDst fd)
     let res := fun e => match sourceVal fd (fdDst fd) (fdFA fd) ((s.h.getV a).elt wa e) with
       | some x => (RCtx.mk fd s.h.sseed s.h.sbase).round (fdDst fd) e x.sqrt
       | none => none
     fdOk { fa := some isFloating, dst := some isFloating, rounds := true } fd = true →
     ready (.vsqrt fm d a f false) (max wa wd) s = true → noSlots [d, a] s.h = true → cleanAt fm s.h [(a, wa)] = true →
     s.cv.active = false → act fm s.h n = true → (res n).isNone = true →
     (∀ e < n, act fm s.h e = true → (res e).isSome = true) →
     ∃ t, exec (.vsqrt fm d a f false) s = .next t ∧ t.h.cause = { int := false, acode := 0, code := 0x50 } ∧ t.h.tval = s.h.pc ∧
       t.h.epc.toNat = s.h.pc.toNat % 2 ^ 57 / 4 * 4 ∧ t.h.pc = s.h.tvec ∧
       t.h.ves = { rst := true, cm := 0, idx := BitVec.ofNat 12 n } ∧ t.h.vcm.getLsbD n = false ∧ RestSameC s t ∧
       (∀ r, r ≠ d → t.h.getV r = s.h.getV r) ∧
       ∀ e < n, act fm s.h e = true → t.h.vcm.getLsbD e = true ∧ (res e).map (· % 2 ^ wd) = some ((t.h.getV d).elt wd e)) ∧
  (∀ (fm : Form) (v : BitVec 5) (b : BitVec 6) (w : BitVec 2) (s : State) (m c : Nat),
     let n : Nat := 2 ^ w.toNat
     let at' := fun (e : Nat) => s.h.getX b + offsetOf fm + BitVec.ofNat 64 (e * n)
     let reads := fun e => readsAs s false (at' e) n
     ready (.vld fm v b w false false) (8 * n) s = true → s.h.arit = [] → s.h.pendingOf .vector = [] → noSlots [v] s.h = true →
     act fm s.h m = true → deniedBy s (at' m).toNat .read = some c → (∀ e < m, act fm s.h e = true → (reads e).isSome = true) →
     (∀ e, m < e → act fm s.h e = true → (reads e).isSome = true ∨ (deniedBy s (at' e).toNat .read).isSome = true) →
     ∃ t, exec (.vld fm v b w false false) s = .next t ∧ t.h.cause = { int := false, acode := 0, code := BitVec.ofNat 8 c } ∧
       t.h.tval = at' m ∧ t.h.epc.toNat = (if s.cv.active then s.cv.base else s.h.pc).toNat % 2 ^ 57 / 4 * 4 ∧
       t.h.ves = { rst := true, cm := if s.cv.active then BitVec.ofNat 2 s.cv.idx else 0, idx := BitVec.ofNat 12 m } ∧
       t.h.vcm.getLsbD m = false ∧ RestSameC s t ∧ (∀ r, r ≠ v → t.h.getV r = s.h.getV r) ∧ (∀ r, t.h.getX r = s.h.getX r) ∧
       (∀ e < m, act fm s.h e = true → t.h.vcm.getLsbD e = true) ∧ (∀ e < 2048, t.h.vcm.getLsbD e = true → act fm s.h e = true) ∧
       ∀ e, if t.h.vcm.getLsbD e = true then some ((t.h.getV v).elt (8 * n) e) = reads e
         else (t.h.getV v).elt (8 * n) e = (s.h.getV v).elt (8 * n) e) ∧
  (∀ (fm : Form) (d a b : BitVec 4) (s : State),
     d ≠ a → d ≠ b → startsAfresh s = true → s.cv.active = false → named (.fmerge fm d a b false) s = true →
     sortedPairs (s.h.getF a) = false →
     ∃ t, exec (.fmerge fm d a b false) s = .next t ∧ Entered 0x68 (BitVec.ofNat 64 a.toNat) s.h.pc s t)

/-- R141, R361, R362, R366: when a write of bytes of one sector performs, exactly its bytes change; through a leaf with another key index the whole
4 KiB region becomes zero first.

A write on its way stands as log entry 8 says. -/
def Obligations.WritesPerform : Prop :=
  ∀ (s : State) (w : Who) (p : PWrite) (a : Nat),
    p.space = .glob → p.addr % 64 + p.bytes.length ≤ 64 → s.quar.contains (p.addr / 65536) = false →
    s.badMeta.contains (p.addr / 4096) = false → s.badTree.contains (p.addr / 4096) = false →
    s.tagFails (p.addr / 64) = false →
    cellsGet (s.apply w p).mem a =
      if p.addr ≤ a ∧ a < p.addr + p.bytes.length then p.bytes.getD (a - p.addr) 0
      else if (s.region (p.addr / 4096)).kidx ≠ p.key ∧ a / 4096 = p.addr / 4096 then 0 else cellsGet s.mem a

/-- R130, R144, R145, R59: the fences. By the time `fence.sv` retires every scalar-class write of the hart has performed, oldest first, by
`fence.vs` every vector-class one, and by a scoped fence all, with nothing fetched ahead; nothing else changes. Each completes once the hart's
engine transfers, and at fabric scope its messages, are over.

R146: a release store with nothing of the hart on its way is performed when it completes: exactly its bytes, and the bits of its
page's entry, change.

Writes on their way and what a fence waits for are the model's readings of log entries 8, 10 and 19. -/
def Obligations.FencesAndReleases : Prop :=
  (∀ (fm : Form) (c : Scope) (s : State),
     let who := s.who s.h
     let performed := fun (p : Cls → Bool) (ahead : List (DWord × Ahead)) (t : State) =>
       let u := s.flush p
       Passed fm s t ∧ VesKept s t ∧ t.h.stbuf = s.h.stbuf.filter (fun w => !p w.cls) ∧
       u.mem = ((s.h.stbuf.filter fun w => p w.cls).foldl (fun v w => v.apply who w) s).mem ∧ RestSame u t ∧
       t.h = { u.h with pc := t.h.pc, park := none, ahead := ahead, ves := t.h.ves, vcm := t.h.vcm }
     alone s = true →
     (∃ t, exec (.fenceSv fm) s = .next t ∧ performed (· == .scalar) s.h.ahead t) ∧
     (quietAt s.h .core = true → ∃ t, exec (.fenceVs fm) s = .next t ∧ performed (· == .vector) s.h.ahead t) ∧
     (quietAt s.h c = true → ∃ t, exec (.fence fm c) s = .next t ∧ performed (fun _ => true) [] t)) ∧
  (∀ (fm : Form) (v b i : BitVec 6) (l : Bool) (c : Scope) (s : State) (e : TlbEntry),
     let va := addrB fm b i s.h
     let n := if l then 8 else 4
     let pa := paBy e va.toNat
     alone s = true → s.h.stbuf = [] → quietAt s.h c = true → mapsBy s va.toNat .write e = true → unshared s e = true →
     va.toNat % n = 0 → pa % 8 = va.toNat % 8 → cleanSector s va.toNat pa (leafKey e.leaf.toNat) = true →
     offTables s pa n = true → (pa + n ≤ e.pte ∨ e.pte + 8 ≤ pa) →
     ∃ t, exec (.strel fm v b i l c) s = .next t ∧ t.h.stbuf = [] ∧ Passed fm s t ∧ (∀ r, t.h.getX r = s.h.getX r) ∧
       (∀ k < n, cellsGet t.mem (pa + k) = BitVec.ofNat 8 ((s.h.getX v).toNat / 2 ^ (8 * k))) ∧
       ∀ a, (a < pa ∨ pa + n ≤ a) → (a < e.pte ∨ e.pte + 8 ≤ a) → cellsGet t.mem a = cellsGet s.mem a)

/-- R131: in supervisor mode `tlbinv` removes exactly the translations that it selects from every cache, after every older store of the hart
has performed, once no other hart has a write on its way that used one; till then it waits. A store that an engine transfer of an earlier
strip interval holds back (R143) is waited for. In user mode it raises 0x03.

What the caches hold is the model's reading (log entry 9). -/
def Obligations.TlbInvalidation : Prop :=
  ∀ (fm : Form) (a y : BitVec 6) (s : State),
    let va := (s.h.getX a).toNat
    let asn := (s.h.getX y).toNat % 65536
    let done := s.flush fun _ => true
    let used := fun (p : Nat → Nat → Prop) => ∃ g ∈ done.harts, g.live = true ∧ ∃ w ∈ g.stbuf, w.space = .glob ∧ p g.asn w.va.toNat
    let does := fun (i : Instr) (sel : TlbEntry → Bool) (p : Nat → Nat → Prop) =>
      (¬ used p → ∃ t, exec i s = .next t ∧ RestSame { done with tlb := done.tlb.filter (fun e => !sel e) } t ∧ t.h.stbuf = [] ∧ Passed fm s t ∧
        VesKept s t ∧ t.h = { done.h with pc := t.h.pc, park := none, ves := t.h.ves, vcm := t.h.vcm }) ∧
      (used p → s.cv.active = false → ∃ t, exec i s = .next t ∧ RestSame done t ∧ t.h = { done.h with stall := 0xE })
    (s.h.status.prv = true → noneHeld s.h = true → alone s = true →
      does (.tlbinvVa fm a y) (fun e => e.asn == asn && decide (e.va ≤ va ∧ va < e.va + e.size)) (fun x v => x = asn ∧ v / 2 ^ 30 = va / 2 ^ 30) ∧
      does (.tlbinvAsn fm y) (fun e => e.asn == asn) (fun x _ => x = asn) ∧
      does (.tlbinvAll fm) (fun _ => true) (fun _ _ => True)) ∧
    (s.h.status.prv = false → s.cv.active = false → ∀ i ∈ [Instr.tlbinvVa fm a y, .tlbinvAsn fm y, .tlbinvAll fm],
      ∃ t, exec i s = .next t ∧ Entered 3 (BitVec.ofNat 64 (encodeWord0 i)) s.h.pc s t)

/-- R152 to R155, R158, R160, R51 to R53: a floating member computes one exact operation on each active element, rounds it once to the
destination format, and writes nothing else; where no element needs the assist. Minimum and maximum follow the family of a (R74).

R161: square root, reciprocal square root, absolute value and negation, each rounded once.

R73: sums, products, negations and absolute values of reals are exact; quotients and roots agree with the exact ones in at least 256 digits,
the last of which tells whether they are exact; and the special cases of the table. That 256 digits stand for a quotient or a root until it
is rounded is the model's form of it (log entry 27), and which of two equal values a minimum or a maximum takes is its choice (log entry 94). -/
def Obligations.FloatArithmetic : Prop :=
  (∀ (fm : Form) (d a b : BitVec 5) (f : BitVec 3) (k : Bool) (s : State),
     let fd := fdValue fm f s.h
     let wa := fmtWidth (fdFA fd)
     let wb := fmtWidth (fdFB fd)
     let wd := fmtWidth (fdDst fd)
     let down := fdRM fd == 3
     let ieee := isIeee (fdFA fd)
     let get := sourceVal fd (fdDst fd)
     let round := fun (e : Nat) (x y z : Option Val) (op : Val → Val → Val → Val) =>
       match x, y, z with
       | some x, some y, some z => (RCtx.mk fd s.h.sseed s.h.sbase).round (fdDst fd) e (op x y z)
       | _, _, _ => none
     let does := fun (i : Instr) (fused : Bool) (op : Val → Val → Val → Val) =>
       let res := fun e => round e (get (fdFA fd) ((s.h.getV a).elt wa e)) (get (fdFB fd) (srcB fm fd b s.h e))
         (get (fdDst fd) (if fused then (s.h.getV d).elt wd e else 0)) op
       ready i (max (max wa wb) wd) s = true → noSlots (d :: abOf fm a b) s.h = true →
       cleanAt fm s.h ((if fused then [(d, wd)] else []) ++ (a, wa) :: if immForm fm then [] else [(b, wb)]) = true →
       (∀ e, act fm s.h e = true → (res e).isSome = true) →
       ∃ t, exec i s = .next t ∧ VDone fm d wd (fun e => if act fm s.h e then (res e).map (·, false) else none) s t
     fdOk { fa := some isFloating, fb := some isFloating, dst := some isFloating, rounds := true } fd = true → immReserved fm fd = false →
     does (.vadd fm d a b f k) false (fun x y _ => x.add down y) ∧
     does (.vsub fm d a b f k) false (fun x y _ => x.add down y.neg) ∧
     does (.vmul fm d a b f k) false (fun x y _ => x.mul y) ∧
     does (.vdiv fm d a b f k) false (fun x y _ => x.div y) ∧
     does (.vmin fm d a b f k) false (fun x y _ => pickVals ieee false x y) ∧
     does (.vmax fm d a b f k) false (fun x y _ => pickVals ieee true x y) ∧
     does (.vfma fm d a b f k) true (fun x y z => (x.mul y).add down z) ∧
     does (.vfms fm d a b f k) true (fun x y z => z.add down (x.mul y).neg)) ∧
  (∀ (fm : Form) (d a : BitVec 5) (f : BitVec 3) (k : Bool) (s : State),
     let fd := fdValue fm f s.h
     let wa := fmtWidth (fdFA fd)
     let wd := fmtWidth (fdDst fd)
     let does := fun (i : Instr) (op : Val → Val) =>
       let res := fun e => match sourceVal fd (fdDst fd) (fdFA fd) ((s.h.getV a).elt wa e) with
         | some x => (RCtx.mk fd s.h.sseed s.h.sbase).round (fdDst fd) e (op x)
         | none => none
       ready i (max wa wd) s = true → noSlots [d, a] s.h = true → cleanAt fm s.h [(a, wa)] = true →
       (∀ e, act fm s.h e = true → (res e).isSome = true) →
       ∃ t, exec i s = .next t ∧ VDone fm d wd (fun e => if act fm s.h e then (res e).map (·, false) else none) s t
     fdOk { fa := some isFloating, dst := some isFloating, rounds := true } fd = true →
     does (.vsqrt fm d a f k) Val.sqrt ∧ does (.vrsqrt fm d a f k) Val.rsqrt ∧ does (.vabs fm d a f k) Val.abs ∧
     does (.vneg fm d a f k) Val.neg) ∧
  (∀ (x y : Val) (a b : ℚ) (down : Bool), ratOf x = some a → ratOf y = some b →
     ratOf (x.add down y) = some (a + b) ∧ ratOf (x.mul y) = some (a * b) ∧ ratOf x.neg = some (-a) ∧ ratOf x.abs = some |a| ∧
     (a + b = 0 → a ≠ 0 → x.add down y = .zero down) ∧
     (a ≠ 0 → b ≠ 0 → ∃ q k, x.div y = .num (x.isNeg != y.isNeg) q k ∧ standsFor q k 1 |a / b|) ∧
     (0 < a → ∃ q k, x.sqrt = .num false q k ∧ standsFor q k 2 a) ∧ (0 < a → ∃ q k, x.rsqrt = .num false q k ∧ standsFor q k 2 a⁻¹) ∧
     (a < 0 → x.sqrt = .nar ∧ x.rsqrt = .nar)) ∧
  (∀ (x : Val) (m n down : Bool) (a : ℚ),
     (x.add down .nar = .nar ∧ x.mul .nar = .nar ∧ x.div .nar = .nar ∧ Val.nar.add down x = .nar ∧ Val.nar.mul x = .nar ∧ Val.nar.div x = .nar) ∧
     ((Val.inf m).add down (.inf n) = if m = n then .inf m else .nar) ∧ ((Val.inf m).mul (.inf n) = .inf (m != n)) ∧
     ((Val.inf m).div (.inf n) = .nar) ∧ ((Val.inf m).mul (.zero n) = .nar) ∧ ((Val.zero m).mul (.inf n) = .nar) ∧
     ((Val.zero m).div (.zero n) = .nar) ∧ ((Val.zero m).add down (.zero n) = .zero (if m = n then m else down)) ∧
     ((Val.zero m).sqrt = .zero m ∧ (Val.zero m).rsqrt = .divz m ∧ (Val.inf false).sqrt = .inf false ∧ (Val.inf true).sqrt = .nar ∧
       (Val.inf false).rsqrt = .zero false ∧ (Val.inf true).rsqrt = .nar) ∧
     (ratOf x = some a →
       (Val.inf m).add down x = .inf m ∧ x.add down (.inf m) = .inf m ∧ x.div (.inf m) = .zero (x.isNeg != m) ∧
       (a ≠ 0 → (Val.inf m).mul x = .inf (m != x.isNeg) ∧ x.mul (.inf m) = .inf (x.isNeg != m) ∧ x.div (.zero m) = .divz (x.isNeg != m) ∧
         (Val.inf m).div x = .inf (m != x.isNeg) ∧ (Val.zero m).div x = .zero (m != x.isNeg) ∧ (Val.zero m).add down x = x)))

/-- R157, R162, R163: integer members compute exactly on the integers that the formats name and store the result modulo 2^w, or clamped
when SAT = 1; logic and shifts work on patterns, and a funnel shift on the concatenation of d and a.

R162: `vclz` and `vpopc` count leading zero bits and one bits of the pattern. -/
def Obligations.IntegerArithmetic : Prop :=
  (∀ (fm : Form) (d a b : BitVec 5) (f : BitVec 3) (k : Bool) (s : State),
     let fd := fdValue fm f s.h
     let wa := fmtWidth (fdFA fd)
     let wb := fmtWidth (fdFB fd)
     let wd := fmtWidth (fdDst fd)
     let clamp := fun (z : Int) => if fdSat fd then max (intMin (fdDst fd)) (min (intMax (fdDst fd)) z) else z
     let store := fun (z : Int) => (clamp z % 2 ^ wd).toNat
     let pa := fun e => (s.h.getV a).elt wa e
     let pb := fun e => srcB fm fd b s.h e
     let pd := fun e => (s.h.getV d).elt wd e
     let x := fun e => patInt (fdFA fd) (pa e)
     let y := fun e => patInt (fdFB fd) (pb e)
     let n := fun e => pb e % wa
     let does := fun (i : Instr) (reads : Bool) (res : Nat → Nat) =>
       ready i (max (max wa wb) wd) s = true → noSlots (d :: abOf fm a b) s.h = true →
       cleanAt fm s.h ((if reads then [(d, wd)] else []) ++ (a, wa) :: if immForm fm then [] else [(b, wb)]) = true →
       ∃ t, exec i s = .next t ∧ VDone fm d wd (fun e => if act fm s.h e then some (res e, false) else none) s t
     fdOk { fa := some isInt, fb := some isInt, dst := some isInt } fd = true → immReserved fm fd = false →
     (does (.viadd fm d a b f k) false (fun e => store (x e + y e)) ∧
       does (.visub fm d a b f k) false (fun e => store (x e - y e)) ∧
       does (.vimul fm d a b f k) false (fun e => store (x e * y e)) ∧
       does (.vimulh fm d a b f k) false (fun e => store (x e * y e / 2 ^ wd)) ∧
       does (.vimin fm d a b f k) false (fun e => store (min (x e) (y e))) ∧
       does (.vimax fm d a b f k) false (fun e => store (max (x e) (y e)))) ∧
     (wa = wd → wb = wa →
       does (.vand fm d a b f k) false (fun e => pa e &&& pb e) ∧
       does (.vor fm d a b f k) false (fun e => pa e ||| pb e) ∧
       does (.vxor fm d a b f k) false (fun e => pa e ^^^ pb e)) ∧
     (wa = wd →
       does (.vshl fm d a b f k) false (fun e => if fdSat fd then store (x e * 2 ^ n e) else pa e * 2 ^ n e) ∧
       does (.vshr fm d a b f k) false (fun e => pa e / 2 ^ n e) ∧
       does (.vsar fm d a b f k) false (fun e => ((BitVec.ofNat wa (pa e)).toInt / 2 ^ n e % 2 ^ wa).toNat) ∧
       does (.vfshL fm d a b f k) true (fun e => (pd e * 2 ^ wa + pa e) * 2 ^ n e / 2 ^ wa) ∧
       does (.vfshR fm d a b f k) true (fun e => (pa e * 2 ^ wa + pd e) / 2 ^ n e))) ∧
  (∀ (fm : Form) (d a : BitVec 5) (f : BitVec 3) (k : Bool) (s : State),
     let fd := fdValue fm f s.h
     let wa := fmtWidth (fdFA fd)
     let wd := fmtWidth (fdDst fd)
     let p := fun e => (s.h.getV a).elt wa e
     let does := fun (i : Instr) (n : Nat → Nat) =>
       ready i (max wa wd) s = true → noSlots [d, a] s.h = true → cleanAt fm s.h [(a, wa)] = true →
       ∃ t, exec i s = .next t ∧ VDone fm d wd (fun e => if act fm s.h e then some (storeInt (fdDst fd) (fdSat fd) (n e), false) else none) s t
     fdOk { fa := some isInt, dst := some isInt } fd = true →
     does (.vclz fm d a f k) (fun e => (List.range wa).countP fun j => decide (p e < 2 ^ j)) ∧
     does (.vpopc fm d a f k) (fun e => (List.range wa).countP fun j => (p e).testBit j))

/-- R164, R74: `vcmp` writes the condition on the values of a and b to the mask bit of each active element; a NaN is unordered in the IEEE
family, and not-a-real is below every real, and equal to itself, in the others.

R74: the order is that of the real numbers, with the infinities outside them; minimum and maximum pick by it. -/
def Obligations.Comparisons : Prop :=
  (∀ (fm : Form) (m : BitVec 3) (a b : BitVec 5) (f : BitVec 3) (c : CmpOp) (k : Bool) (s : State),
    let fd := fdValue fm f s.h
    let wa := fmtWidth (fdFA fd)
    let wb := fmtWidth (fdFB fd)
    let order := fun e =>
      match valueOf (fdFA fd) ((s.h.getV a).elt wa e), valueOf (fdFB fd) (srcB fm fd b s.h e) with
      | .nar, .nar => if isIeee (fdFA fd) then none else some Ordering.eq
      | .nar, _ => if isIeee (fdFA fd) then none else some .lt
      | _, .nar => if isIeee (fdFA fd) then none else some .gt
      | x, y => some (x.cmp y)
    let holds := fun (o : Option Ordering) => match c with
      | .eq => o == some .eq
      | .ne => o != some .eq
      | .lt => o == some .lt
      | .le => o == some .lt || o == some .eq
      | .gt => o == some .gt
      | .ge => o == some .gt || o == some .eq
      | .un => o == none
    fdOk { fa := some fun x => isFloating x || isInt x, fb := some (if isInt (fdFA fd) then isInt else isFloating) } fd = true →
    immReserved fm fd = false → ready (.vcmp fm m a b f c k) (max wa wb) s = true → noSlots (abOf fm a b) s.h = true →
    cleanAt fm s.h ((a, wa) :: if immForm fm then [] else [(b, wb)]) = true →
    ∃ t, exec (.vcmp fm m a b f c k) s = .next t ∧ MDone fm m (fun e => if act fm s.h e then some (holds (order e)) else none) s t) ∧
  (∀ (x y : Val) (a b : ℚ) (m n i : Bool), ratOf x = some a → ratOf y = some b →
    (x.isZero = true ↔ a = 0) → (y.isZero = true ↔ b = 0) →
    x.cmp y = compare a b ∧ (Val.inf m).cmp y = (if m then .lt else .gt) ∧ x.cmp (.inf m) = (if m then .gt else .lt) ∧
    (Val.inf m).cmp (.inf n) = (if m = n then .eq else if m then .lt else .gt) ∧
    ratOf (pickVals i false x y) = some (min a b) ∧ ratOf (pickVals i true x y) = some (max a b) ∧
    (pickVals i m x .nar = .nar ∧ pickVals i m .nar y = .nar) ∧
    (pickVals true false (.zero m) (.zero n) = .zero (m || n) ∧ pickVals true true (.zero m) (.zero n) = .zero (m && n)))

/-- R165 to R167, R86, R87: reductions write element 0, group reductions the element of each group, scans every active element, each with
the combination of the active elements in its range; where none needs the assist.

R85, R165: `vred.addx` of products writes to element 0 the exact sum of the exact products of the active elements, rounded once.

R165: a combination of integers is that of the integers that the formats name; of reals, `vred.addx` rounds their exact sum.

R86: an ordered sum starts as the value of the lowest active element, and each later one is added and the sum rounded; one element is rounded
once, and none gives zero; a running sum gives every element its own rounded value so far.

R87: the tree pairs node 2j with node 2j + 1 of each level above leaves by index: two values give their rounded sum, one passes up, and the root
is rounded unless it was; an empty root gives zero. -/
def Obligations.Reductions : Prop :=
  (∀ (fm : Form) (d a n : BitVec 5) (f : BitVec 3) (o : RedOp) (k : Bool) (s : State),
     let fd := fdValue fm f s.h
     let wa := fmtWidth (fdFA fd)
     let wd := fmtWidth (fdDst fd)
     let vl := s.h.vl.toNat
     let pats := fun lo hi => (List.range (hi - lo)).map fun j =>
       if activeAt fm s.h (lo + j) then some ((s.h.getV a).elt wa (lo + j)) else none
     let comb := fun key lo hi => reduce o (RCtx.mk fd s.h.sseed s.h.sbase) key (pats lo hi)
     let size := 2 ^ n.toNat
     let does := fun (i : Instr) (writes : Nat → Bool) (res : Nat → Option Nat) =>
       ready i (max wa wd) s = true → noSlots [d, a] s.h = true → cleanAt fm s.h [(a, wa)] = true →
       (∀ e, writes e = true → (res e).isSome = true) →
       ∃ t, exec i s = .next t ∧ VDone fm d wd (fun e => if writes e then (res e).map (·, false) else none) s t
     let values := (List.range vl).filter (activeAt fm s.h) |>.mapM fun e =>
       (sourceVal fd (fdDst fd) (fdFA fd) ((s.h.getV a).elt wa e)).map fun v => (e, v)
     redFd o fd = true →
     does (.vred fm d a f o k) (· == 0) (fun _ => comb 0 0 vl) ∧
     does (.vgred fm d a n f o k) (fun e => decide (e * size < vl)) (fun e => comb e (e * size) (min ((e + 1) * size) vl)) ∧
     (isInt (fdFA fd) = true ∨ o = .min ∨ o = .max →
       does (.vscan fm d a f o k) (act fm s.h) (fun e => comb e 0 (e + 1))) ∧
     (isInt (fdFA fd) = false → o = .add → ∀ vs l, values = some vs → runningSum (RCtx.mk fd s.h.sseed s.h.sbase) none vs = some l →
       does (.vscan fm d a f o k) (act fm s.h) (fun e => (l.find? (·.1 == e)).map (·.2)))) ∧
  (∀ (fm : Form) (d a b : BitVec 5) (f : BitVec 3) (k : Bool) (s : State),
     let fd := fdValue fm f s.h
     let wa := fmtWidth (fdFA fd)
     let wb := fmtWidth (fdFB fd)
     let wd := fmtWidth (fdDst fd)
     let x := fun e => (valueOf (fdFA fd) ((s.h.getV a).elt wa e)).mul (valueOf (fdFB fd) ((s.h.getV b).elt wb e))
     let es := (List.range s.h.vl.toNat).filter (activeAt fm s.h)
     let down := fdRM fd == 3
     let sum := match es with | [] => Val.zero false | e :: l => l.foldl (fun v e => v.add down (x e)) (x e)
     let res := (RCtx.mk fd s.h.sseed s.h.sbase).round (fdDst fd) 0 sum
     let exact := fun c p => sourceVal fd (fdDst fd) c p = some (valueOf c p)
     fdOk { fa := some addxFmt, fb := some addxFmt, dst := some isFloating, rounds := true } fd = true →
     ready (.vredAddxProduct fm d a b f k) (max (max wa wb) wd) s = true → noSlots [d, a, b] s.h = true →
     cleanAt fm s.h [(a, wa), (b, wb)] = true → res.isSome = true →
     (∀ e, act fm s.h e = true → exact (fdFA fd) ((s.h.getV a).elt wa e) ∧ exact (fdFB fd) ((s.h.getV b).elt wb e)) →
     ∃ t, exec (.vredAddxProduct fm d a b f k) s = .next t ∧ VDone fm d wd (fun e => if e = 0 then res.map (·, false) else none) s t) ∧
  (∀ (r : RCtx) (key : Nat) (ps : List (Option Nat)),
     let fa := fdFA r.d
     let dst := fdDst r.d
     let act := ps.filterMap id
     let sum := fun (x y : Val) => x.add (fdRM r.d == 3) y
     let got := fun (p : Nat) => valueOf dst p
     let empty := r.round dst key (.zero false)
     (isInt fa = true →
       (∀ o ∈ [RedOp.add, .addo], reduce o r key ps = some (storeInt dst (fdSat r.d) (act.map (patInt fa)).sum)) ∧
       (∀ p ∈ act, (∀ q ∈ act, patInt fa p ≤ patInt fa q) → reduce .min r key ps = some (storeInt dst (fdSat r.d) (patInt fa p))) ∧
       (∀ p ∈ act, (∀ q ∈ act, patInt fa q ≤ patInt fa p) → reduce .max r key ps = some (storeInt dst (fdSat r.d) (patInt fa p))) ∧
       (∀ k < fmtWidth fa,
         (reduce .and r key ps).map (·.testBit k) = some (act.all (·.testBit k)) ∧
         (reduce .or r key ps).map (·.testBit k) = some (act.any (·.testBit k)) ∧
         (reduce .xor r key ps).map (·.testBit k) = some (act.countP (·.testBit k) % 2 == 1))) ∧
     (isInt fa = false → ∀ vs, (act.mapM fun p => sourceVal r.d dst fa p) = some vs →
       (vs = [] → ∀ o ∈ [RedOp.add, .addo, .addx], reduce o r key ps = empty) ∧
       (∀ v, vs = [v] → reduce .addo r key ps = r.round dst key v) ∧
       (∀ (x y : Val) (l : List Val) (p : Nat → Nat), vs = x :: y :: l → r.round dst key (sum x y) = some (p 0) →
         (∀ i v, l[i]? = some v → r.round dst key (sum (got (p i)) v) = some (p (i + 1))) → reduce .addo r key ps = some (p l.length)) ∧
       (∀ qs : List ℚ, vs.map ratOf = qs.map some → ∃ v, ratOf v = some qs.sum ∧ reduce .addx r key ps = r.round dst key v) ∧
       (∀ (k : Nat) (node : Nat → Nat → Option (Val × Option Nat)), ps.length ≤ 2 ^ k → (k ≠ 0 → 2 ^ (k - 1) < ps.length) →
         (∀ i, node 0 i = (ps.getD i none).bind fun p => (sourceVal r.d dst fa p).map (·, none)) →
         (∀ n j, match node n (2 * j), node n (2 * j + 1) with
           | some x, some y => ∃ p, r.round dst key (sum x.1 y.1) = some p ∧ node (n + 1) j = some (got p, some p)
           | some x, none | none, some x => node (n + 1) j = some x
           | none, none => node (n + 1) j = none) →
         reduce .add r key ps = match node k 0 with
           | none => empty
           | some (_, some p) => some p
           | some (v, none) => r.round dst key v))) ∧
  (∀ (r : RCtx) (e : Nat) (v : Val) (l : List (Nat × Val)) (p : Nat → Nat),
     let sum := fun (x y : Val) => x.add (fdRM r.d == 3) y
     r.round (fdDst r.d) e v = some (p 0) →
     (∀ i k w, l[i]? = some (k, w) → r.round (fdDst r.d) k (sum (if i = 0 then v else valueOf (fdDst r.d) (p i)) w) = some (p (i + 1))) →
     runningSum r none [] = some [] ∧
     runningSum r none ((e, v) :: l) = some ((e, p 0) :: (List.range l.length).map fun i => ((l.getD i (0, v)).1, p (i + 1))))

/-- R75, R76, R168, R169: `vcvt` rounds the value of each active element, scaled by its block's byte, to the destination format; to tb8 it
writes for each block the codes of its active elements and one scale byte.

R69 to R71, R77, R78: the value of a code of each format, the tapered ones as R71 decodes them.

R72, R73, R77, R80: a real is rounded to one of its two neighbours: in a tapered format by the place in the encoding, or by the stochastic
input, with no overflow and no underflow to zero; in an IEEE format and to an integer by RM, with the overflow, the tiny results and
the clamping of the tables; and the special cases. A subnormal source of an IEEE result is flushed, or needs the assist.

R76: the scale byte of a block is 0xFF where a value is not-a-real, or infinite without SAT; else SCB, or the logarithm of the largest
magnitude; and a code is the value divided by 2^(s − 127) and rounded to tap8, or 0x80 under 0xFF.

What an overflow gives in a directed mode is the model's reading (log entry 35), and so is that the scale bytes are written after the codes where
vz is d (log entry 76). -/
def Obligations.Conversions : Prop :=
  (∀ (fm : Form) (d a b : BitVec 5) (f : BitVec 3) (k : Bool) (s : State),
    let fd := fdValue fm f s.h
    let fa := fdFA fd
    let dst := fdDst fd
    let wa := fmtWidth fa
    let wd := fmtWidth dst
    let r : RCtx := { d := fd, seed := s.h.sseed, base := s.h.sbase }
    let blk := isBlock fa
    let vz : BitVec 5 := (e5Of fm).setWidth 5
    let scaled := fun e (v : Val) => if blk then v.mul (scaleVal ((s.h.getV b).elt 8 (e / 32))) else v
    let val := fun e => scaled e (valueOf fa ((s.h.getV a).elt wa e))
    let res := fun e => match sourceVal fd dst fa ((s.h.getV a).elt wa e) with | some v => r.round dst e (scaled e v) | none => none
    let block := fun c => (List.range s.h.vl.toNat).filter fun e => activeAt fm s.h e && e / 32 == c
    let byte := fun c => tb8Scale fd ((block c).map val)
    let live := fun (q : BitVec 5) => !s.h.deadBit (vBit q)
    let rest := fun (t : State) => Passed fm s t ∧ VesKept s t ∧ RestSameC s t ∧
      t.h = { s.h with v := t.h.v, vdirty := t.h.vdirty, vlive := t.h.vlive, pc := t.h.pc, park := none, ves := t.h.ves, vcm := t.h.vcm }
    fdOk { fa := some fun _ => true, dst := some (fun c => !isMx c), rounds := true } fd = true →
    ready (.vcvt fm d a b f k) (max wa wd) s = true → noSlots ([d, a] ++ (if blk then [b] else []) ++ if isTb8 dst then [vz] else []) s.h = true →
    (if blk then live b = true ∧ ∀ e, act fm s.h e = true → (s.h.getV b).eltPsn 8 (e / 32) = false else b = 0) →
    (if isTb8 dst then live vz = true ∧ (∃ x l, fm = .ext x ∨ fm = .extLit x l) else e5Of fm = 0) →
    cleanAt fm s.h [(a, wa)] = true →
    (isTb8 dst = false → (∀ e, act fm s.h e = true → (res e).isSome = true) →
      ∃ t, exec (.vcvt fm d a b f k) s = .next t ∧ VDone fm d wd (fun e => if act fm s.h e then (res e).map (·, false) else none) s t) ∧
    (isTb8 dst = true →
      ∃ t rd, exec (.vcvt fm d a b f k) s = .next t ∧
        GotElts 8 (fun e => if act fm s.h e then some (tb8Code r (byte (e / 32)) e (val e), false) else none) (s.h.getV d) rd ∧
        GotElts 8 (fun c => if (block c).isEmpty then none else some (byte c, false)) (if vz = d then rd else s.h.getV vz) (t.h.getV vz) ∧
        (vz ≠ d → t.h.getV d = rd) ∧ (∀ q, q ≠ d → q ≠ vz → t.h.getV q = s.h.getV q) ∧ rest t)) ∧
  (∀ (c n es p m : Nat) (b : Bool),
    let rest := n - 2 - m
    let ne := min es rest
    let nf := rest - ne
    let k : Int := if b then (m : Int) - 1 else -(m : Int)
    (p < 2 ^ n → (c, n, es) ∈ [(8, 8, 1), (9, 16, 1), (10, 32, 2), (0xB, 8, 1)] → valueOf c p = tapVal n es p) ∧
    (3 ≤ n → tapVal n es 0 = .zero false ∧ tapVal n es (2 ^ (n - 1)) = .nar) ∧
    (3 ≤ n → 0 < p → p < 2 ^ (n - 1) → tapVal n es (2 ^ n - p) = (tapVal n es p).neg ∧
      (1 ≤ m → m < n → (∀ i < m, p.testBit (n - 2 - i) = b) → (m < n - 1 → p.testBit (n - 2 - m) = !b) →
        ratOf (tapVal n es p) = some ((2 : ℚ) ^ (k * 2 ^ es + (p / 2 ^ nf % 2 ^ ne * 2 ^ (es - ne) : Nat)) * (1 + (p % 2 ^ nf : Nat) / 2 ^ nf))))) ∧
  (∀ (c eb mb p : Nat),
    let e := p / 2 ^ mb % 2 ^ eb
    let f := p % 2 ^ mb
    let neg := p.testBit (eb + mb)
    let bias : Int := 2 ^ (eb - 1) - 1
    let real := ratOf (valueOf c p) =
      some ((if neg then -1 else 1) * (if e = 0 then (f : ℚ) * 2 ^ (1 - bias - mb) else (2 ^ mb + f : ℚ) * 2 ^ ((e : Int) - bias - mb)))
    p < 2 ^ (eb + mb + 1) →
    ((c, eb, mb) ∈ [(0, 8, 23), (1, 5, 10), (2, 11, 52), (0x11, 5, 2)] →
      (e = 2 ^ eb - 1 → valueOf c p = if f = 0 then .inf neg else .nar) ∧ (e ≠ 2 ^ eb - 1 → real)) ∧
    ((c, eb, mb) = (0x10, 4, 3) → (e = 15 ∧ f = 7 → valueOf c p = .nar) ∧ (¬ (e = 15 ∧ f = 7) → real)) ∧
    ((c, eb, mb) = (0x12, 2, 1) → real) ∧ (c < 3 → (c, eb, mb) ∈ [(0, 8, 23), (1, 5, 10), (2, 11, 52)] → e = 0 → f = 0 → valueOf c p = .zero neg)) ∧
  (∀ (c p : Nat), 0x20 ≤ c → c < 0x28 → ratOf (valueOf c p) =
    some (if c < 0x24 then ((BitVec.ofNat (8 * 2 ^ (c % 4)) p).toInt : ℚ) else (p % 2 ^ (8 * 2 ^ (c % 4)) : Nat))) ∧
  (∀ (r : RCtx) (c key m k : Nat) (e : Int) (neg : Bool), 0 < m →
    let a : ℚ := m * 2 ^ e
    let res := r.round c key (.num neg m e)
    let rm := fdRM r.d
    let real := fun (v : Val) => (ratOf v).getD 0
    (∀ n es, (c, n, es) ∈ [(8, 8, 1), (9, 16, 1), (10, 32, 2)] → fdSR r.d = true ∨ rm ≤ 1 →
      ∃ z, res = some (if neg then 2 ^ n - z else z) ∧
        (2 ^ ((n - 2) * 2 ^ es) ≤ a → z = 2 ^ (n - 1) - 1) ∧ (a * 2 ^ ((n - 2) * 2 ^ es) ≤ 1 → z = 1) ∧
        (0 < k → k + 1 < 2 ^ (n - 1) → real (tapVal n es k) ≤ a → a < real (tapVal n es (k + 1)) →
          let up := if fdSR r.d then real (tapVal (n + 32) es (2 ^ 32 * k + rndOf r.seed r.base key)) < a
            else goesUp (if rm = 1 then 1 else 0) neg (k % 2 == 1) 0 (real (tapVal (n + 1) es (2 * k + 1))) a
          (up → z = k + 1) ∧ (¬ up → z = k))) ∧
    (∀ eb mb, (c, eb, mb) ∈ [(0, 8, 23), (1, 5, 10), (2, 11, 52)] → rm ≤ 4 →
      let bias : Int := 2 ^ (eb - 1) - 1
      let top := (2 ^ eb - 1) * 2 ^ mb
      let sign := if neg then 2 ^ (eb + mb) else 0
      let val := fun j => if j = top then (2 : ℚ) ^ (bias + 1) else real (valueOf c j)
      let out := fun z => if z = top ∧ (fdSat r.d = true ∨ rm = 1 ∨ (rm = 2 ∧ neg = true) ∨ (rm = 3 ∧ neg = false)) then top - 1 else z
      let up := goesUp rm neg (k % 2 == 1) (val k) ((val k + val (k + 1)) / 2) a
      (a < 2 ^ (1 - bias) → res = if fdSub r.d then none else some sign) ∧
      (2 ^ (bias + 1) ≤ a → res = some (sign + out top)) ∧
      (2 ^ (1 - bias) ≤ a → k < top → val k ≤ a → a < val (k + 1) →
        (up → res = some (sign + out (k + 1))) ∧ (¬ up → res = some (sign + k)))) ∧
    (0x20 ≤ c → c < 0x28 → rm ≤ 4 → (k : ℚ) ≤ a → a < k + 1 →
      let w := 8 * 2 ^ (c % 4)
      let lo : Int := if c < 0x24 then -(2 ^ (w - 1)) else 0
      let hi : Int := if c < 0x24 then 2 ^ (w - 1) - 1 else 2 ^ w - 1
      let gives := fun (z : Int) => res = some ((max lo (min hi (if neg then -z else z)) % 2 ^ w).toNat)
      let up := goesUp rm neg (k % 2 == 1) k (k + 1 / 2) a
      (up → gives (k + 1)) ∧ (¬ up → gives k))) ∧
  (∀ (r : RCtx) (c key p : Nat) (neg : Bool) (d : DWord) (dst : Nat),
    let res := fun v => r.round c key v
    (∀ n, (c, n) ∈ [(8, 8), (9, 16), (10, 32)] → res .nar = some (2 ^ (n - 1)) ∧ res (.divz neg) = some (2 ^ (n - 1)) ∧ res (.zero neg) = some 0 ∧
      res (.inf neg) = some (if fdSat r.d then (if neg then 2 ^ (n - 1) + 1 else 2 ^ (n - 1) - 1) else 2 ^ (n - 1))) ∧
    (∀ eb mb, (c, eb, mb) ∈ [(0, 8, 23), (1, 5, 10), (2, 11, 52)] →
      let sign := if neg then 2 ^ (eb + mb) else 0
      let inf := (2 ^ eb - 1) * 2 ^ mb
      res .nar = some (inf + 2 ^ (mb - 1)) ∧ res (.inf neg) = some (sign + inf) ∧ res (.divz neg) = some (sign + inf) ∧
        res (.zero neg) = some sign) ∧
    (0x20 ≤ c → c < 0x28 →
      let w := 8 * 2 ^ (c % 4)
      res .nar = some 0 ∧ res (.zero neg) = some 0 ∧ res (.inf neg) =
        some (if c < 0x24 then (if neg then 2 ^ (w - 1) else 2 ^ (w - 1) - 1) else if neg then 0 else 2 ^ w - 1)) ∧
    (∀ eb mb, (c, eb, mb) ∈ [(0, 8, 23), (1, 5, 10), (2, 11, 52)] → dst < 3 → p / 2 ^ mb % 2 ^ eb = 0 → p % 2 ^ mb ≠ 0 →
      sourceVal d dst c p = if fdSub d then none else some (.zero (p.testBit (eb + mb)))) ∧
    (¬ (dst < 3 ∧ c < 3) → sourceVal d dst c p = some (valueOf c p))) ∧
  (∀ (r : RCtx) (vs : List Val) (s e : Nat) (v : Val) (top : Int),
    let infinite := fun (v : Val) => v = .inf true ∨ v = .inf false
    let spoilt := ∃ v ∈ vs, v = .nar ∨ v = .divz true ∨ v = .divz false ∨ (infinite v ∧ fdSat r.d = false)
    let below := fun (v : Val) => (infinite v → 139 ≤ top) ∧ ∀ q, ratOf v = some q → |q| < 2 ^ (top + 1)
    let reaches := fun (v : Val) => (infinite v ∧ top = 139) ∨ ∃ q, ratOf v = some q ∧ 2 ^ top ≤ |q|
    (∀ v ∈ vs, ∀ n x, v ≠ .num n 0 x) →
    (spoilt → tb8Scale r.d vs = 255) ∧
    (¬ spoilt → (fdScm r.d = 1 → tb8Scale r.d vs = min (fdScb r.d) 254) ∧
      (fdScm r.d = 0 → (∀ v ∈ vs, ratOf v = some 0) → tb8Scale r.d vs = 127) ∧
      (fdScm r.d = 0 → (∀ v ∈ vs, below v) → (∃ v ∈ vs, reaches v) → (tb8Scale r.d vs : Int) = max 0 (min 254 (top + 127)))) ∧
    tb8Code r 255 e v = 0x80 ∧ (s ≠ 255 → (∀ n, v ≠ .divz n) → r.round 8 e (v.mul (.num false 1 (127 - s))) = some (tb8Code r s e v)))

/-- R172, R173: mask logic bit by bit below `vl`; counts and the first set bit go to a scalar register, which stays when `vl` is zero (R153).

R174, R175: slides, broadcasts, `vperm`, `vcompress` and `vexpand` move elements, each byte with its poison, at the width of `vl`.

That an immediate count has no sign is the model's reading (log entry 23). -/
def Obligations.MasksAndPermutes : Prop :=
  (∀ (fm : Form) (d a b : BitVec 3) (x : BitVec 6) (k : Bool) (s : State),
     let vl := s.h.vl.toNat
     let p := fun e => (s.h.getM a).getLsbD e
     let q := fun e => (s.h.getM b).getLsbD e
     let does := fun (i : Instr) (res : Nat → Bool) => named i s = true →
       ∃ t, exec i s = .next t ∧ MDone fm d (fun e => if e < vl then some (res e) else none) s t
     let scalar := fun (i : Instr) (v : DWord → Prop) => named i s = true →
       (0 < vl → ∃ t w, exec i s = .next t ∧ v w ∧ XDone fm x w s t) ∧ (vl = 0 → ∃ t, exec i s = .next t ∧ XDone fm x (s.h.getX x) s t)
     does (.mand fm d a b k) (fun e => p e && q e) ∧ does (.mor fm d a b k) (fun e => p e || q e) ∧
     does (.mxor fm d a b k) (fun e => p e != q e) ∧ does (.mandn fm d a b k) (fun e => p e && !q e) ∧
     does (.mnot fm d a k) (fun e => !p e) ∧
     scalar (.mpopc fm x a k) (fun w => w.toNat = (List.range vl).countP p) ∧
     scalar (.mfirst fm x a k) (fun w => if ∀ e < vl, p e = false then w = BitVec.allOnes 64 else
       w.toNat < vl ∧ p w.toNat = true ∧ ∀ e < w.toNat, p e = false)) ∧
  (∀ (fm : Form) (d a vi : BitVec 5) (n y z : BitVec 6) (m : BitVec 3) (k : Bool) (s : State),
     let w := ewBits s.h.ew
     let vl := s.h.vl.toNat
     let src := fun j => ((s.h.getV a).elt w j, (s.h.getV a).eltPsn w j)
     let c := match fm with
       | .base => (s.h.getX n).toNat
       | .ext e => if e.ib then e.imm.toNat else (s.h.getX n).toNat
       | .baseLit l | .extLit _ l => l.toNat
     let set := fun e => (s.h.getM m).getLsbD e
     let does := fun (i : Instr) (rs : List (BitVec 5)) (res : Nat → Option (Nat × Bool)) =>
       ready i w s = true → noSlots rs s.h = true → ∃ t, exec i s = .next t ∧ VDone fm d w res s t
     let guarded := fun {α : Type} (res : Nat → Option α) e => if act fm s.h e then res e else none
     let moves := fun (i : Instr) (rs : List (BitVec 5)) (goes : Nat → Option (Option Nat)) =>
       ready i w s = true → noSlots rs s.h = true → ∃ t, exec i s = .next t ∧
         VDone fm d w (fun e => (goes e).map fun j => match j with | some j => src j | none => (0, false)) s t ∧
         ∀ e j k, goes e = some (some j) → k < w / 8 →
           (t.h.getV d).psn.getLsbD (e * (w / 8) + k) = (s.h.getV a).psn.getLsbD (j * (w / 8) + k)
     moves (.vslideUp fm d a n k) [d, a] (guarded fun e => if c ≤ e then some (some (e - c)) else none) ∧
     moves (.vslideDown fm d a n k) [d, a] (guarded fun e => some (if e + c < vl then some (e + c) else none)) ∧
     does (.vbcast fm d y k) [d] (guarded fun _ => some ((s.h.getX y).toNat, false)) ∧
     does (.vbcastI fm d y z k) [d] (guarded fun e => some ((s.h.getX y).toNat + e * (s.h.getX z).toNat, false)) ∧
     (cleanAt fm s.h [(vi, w)] = true →
       moves (.vperm fm d a vi k) [d, a, vi] (guarded fun e =>
         let j := (s.h.getV vi).elt w e
         some (if j < vl then some j else none))) ∧
     moves (.vcompress fm d a m k) [d, a] (fun e => (((List.range vl).filter set)[e]?).map some) ∧
     moves (.vexpand fm d a m k) [d, a] (fun e => if e < vl && set e then some (some ((List.range e).countP set)) else none))

/-- R124, R125, R118: a vector load places the bytes at the address of each active element, little-endian, and nothing else: unit stride,
a stride from a register, or an index, scaled by the size or not. Stated where every element lies in one sector, is translated, clean
and free of interlocks. -/
def Obligations.VectorLoads : Prop :=
  ∀ (fm : Form) (v idx : BitVec 5) (b c : BitVec 6) (w : BitVec 2) (sc t i k : Bool) (s : State),
    let n : Nat := 2 ^ w.toNat
    let wi : Nat := if i then 64 else 32
    let base := s.h.getX b + offsetOf fm
    let index := fun e => (BitVec.ofNat wi ((s.h.getV idx).elt wi e)).toInt
    let does := fun (j : Instr) (width : Nat) (at' : Nat → DWord) =>
      ready j (max (8 * n) width) s = true → (∀ e, act fm s.h e = true → (readsAs s t (at' e) n).isSome = true) →
      ∃ u, exec j s = .next u ∧
        VDone fm v (8 * n) (fun e => if act fm s.h e then (readsAs s t (at' e) n).map (·, false) else none) s u
    s.h.arit = [] → s.h.pendingOf .vector = [] → noSlots [v] s.h = true →
    does (.vld fm v b w t k) 0 (fun e => base + BitVec.ofNat 64 (e * n)) ∧
    does (.vlds fm v b c w t k) 0 (fun e => base + BitVec.ofInt 64 (e * (s.h.getX c).toInt)) ∧
    (noSlots [idx] s.h = true → cleanAt fm s.h [(idx, wi)] = true →
      does (.vldx fm v b idx w sc t i k) wi (fun e => base + BitVec.ofInt 64 (index e * if sc then n else 1)))

/-- R124 to R126, R128, R150: a vector store puts the write of each active element on its way, in ascending order of the elements, with
the bytes and the poison of the element: one write, or one for each byte when its address is no multiple of its size; `vstu` stores single
bytes. Stated where every element lies in one sector, is translated and free of interlocks, and, for the unordered form, no two elements
share a byte. No byte of memory changes before a write performs.

A write on its way stands as log entry 8 says. -/
def Obligations.VectorStores : Prop :=
  ∀ (fm : Form) (v idx : BitVec 5) (b c : BitVec 6) (w : BitVec 2) (sc t i o k : Bool) (s : State),
    let n : Nat := 2 ^ w.toNat
    let wi : Nat := if i then 64 else 32
    let base := s.h.getX b + offsetOf fm
    let index := fun e => (BitVec.ofNat wi ((s.h.getV idx).elt wi e)).toInt
    let write := fun (m : Nat) (va : DWord) (e : Nat) =>
      writesOf s t va (leBytes m ((s.h.getV v).elt (8 * m) e)) ((s.h.getV v).eltPsn (8 * m) e)
    let does := fun (j : Instr) (m lim : Nat) (ok : Bool) (at' : Nat → DWord) =>
      let es := (List.range lim).filter (activeAt fm s.h)
      ok = true → (∀ e ∈ es, (write m (at' e) e).isSome = true) →
      ∃ u, exec j s = .next u ∧ WritesMade fm (es.flatMap fun e => (write m (at' e) e).getD []) s u
    let vl := s.h.vl.toNat
    let x := (s.h.getX c).toNat
    let ix := fun e => base + BitVec.ofInt 64 (index e * if sc then n else 1)
    s.h.arit = [] → noSlots [v] s.h = true →
    does (.vst fm v b w t k) n vl (ready (.vst fm v b w t k) (8 * n) s) (fun e => base + BitVec.ofNat 64 (e * n)) ∧
    does (.vsts fm v b c w t k) n vl (ready (.vsts fm v b c w t k) (8 * n) s)
      (fun e => base + BitVec.ofInt 64 (e * (s.h.getX c).toInt)) ∧
    (noSlots [idx] s.h = true → cleanAt fm s.h [(idx, wi)] = true →
      (o = true ∨ shareWrites (((List.range vl).filter (activeAt fm s.h)).map fun e => (write n (ix e) e).getD []) = false) →
      does (.vstx fm v b idx w sc t i o k) n vl (ready (.vstx fm v b idx w sc t i o k) (max (8 * n) wi) s) ix) ∧
    does (.vstu fm v b c t k) 1 x (named (.vstu fm v b c t k) s && decide (x ≤ s.h.grant 8)) (fun e => base + BitVec.ofNat 64 e)

/-- R182, R184, R187: scratchpad loads by unit stride, stride, index and pair; the address of an element is aligned down to its size.

R187 to R191: scratchpad stores put the writes of their active elements on their way, batch by batch: 32 elements, or 16 of eight bytes that
are no pairs. Those of a batch to the own allocation merge to one write for each word, or for each place of eight bytes, which leaves every byte
as the last element of the batch has it and the bytes of none as they are, poisoned when a byte of its word that stands is; remote ones stay as
they are.
A write on its way stands as log entry 8 says.

R186, R189, R190: an unmasked load of 32 consecutive words of the hart's own allocation, from a word that is a multiple of 32, takes one
pass and replays none; `bstat` reads each count. -/
def Obligations.ScratchpadAccesses : Prop :=
  (∀ (fm : Form) (v idx : BitVec 5) (b c : BitVec 6) (w : BitVec 2) (s : State),
     let base := s.h.getX b + offsetOf fm
     let stride := (s.h.getX c).toInt
     let index := fun e => (BitVec.ofNat 32 ((s.h.getV idx).elt 32 e)).toInt
     let does := fun (j : Instr) (n width : Nat) (at' : Nat → DWord) =>
       let va := fun e => BitVec.ofNat 64 ((at' e).toNat / n * n)
       let val := fun e => localAs s (s.spSpace s.h (va e)) n
       ready j (max (8 * n) width) s = true → (∀ e, act fm s.h e = true → (val e).isSome = true) →
       ∃ t, exec j s = .next t ∧ GotElts (8 * n) (fun e => if act fm s.h e then (val e).map (·, false) else none) (s.h.getV v) (t.h.getV v) ∧
         (∀ r, r ≠ v → t.h.getV r = s.h.getV r) ∧ Dirtied (vBit v) (∃ e, act fm s.h e = true) s t ∧ Passed fm s t ∧ VesKept s t ∧
         RestSameC s t ∧
         t.h = { s.h with v := t.h.v, vdirty := t.h.vdirty, vlive := t.h.vlive, pc := t.h.pc, park := none, ves := t.h.ves,
                          vcm := t.h.vcm, bstat := t.h.bstat }
     s.h.arit = [] → s.h.pendingOf .vector = [] → s.h.early = [] → noSlots [v] s.h = true →
     does (.vldSp fm v b w) (2 ^ w.toNat) 0 (fun e => base + BitVec.ofNat 64 (e * 2 ^ w.toNat)) ∧
     does (.vldsSp fm v b c w) (2 ^ w.toNat) 0 (fun e => base + BitVec.ofInt 64 (e * stride)) ∧
     (noSlots [idx] s.h = true → cleanAt fm s.h [(idx, 32)] = true →
       does (.vldxSp fm v b idx w) (2 ^ w.toNat) 32 (fun e => base + BitVec.ofInt 64 (index e * 2 ^ w.toNat))) ∧
     does (.vldpSp fm v b c) 8 0 (fun e => base + BitVec.ofInt 64 ((e / 2 : Nat) * stride + (e % 2 : Nat) * 8))) ∧
  (∀ (fm : Form) (v idx : BitVec 5) (b c : BitVec 6) (w : BitVec 2) (s : State),
     let base := s.h.getX b + offsetOf fm
     let stride := (s.h.getX c).toInt
     let index := fun e => (BitVec.ofNat 32 ((s.h.getV idx).elt 32 e)).toInt
     let es := (List.range s.h.vl.toNat).filter (activeAt fm s.h)
     let down := fun (n : Nat) (a : DWord) => BitVec.ofNat 64 (a.toNat / n * n)
     let does := fun (j : Instr) (n width per : Nat) (free : Bool) (at' : Nat → DWord) =>
       let write := fun e => localWriteOf s (s.spSpace s.h (down n (at' e))) (down n (at' e)) (leBytes n ((s.h.getV v).elt (8 * n) e))
         ((s.h.getV v).eltPsn (8 * n) e)
       let made := fun (g : Nat) => (es.filter (· / per == g)).filterMap write
       let covers := fun (o : Nat) (w : PWrite) => w.space == .sp s.h.gang && decide (w.addr ≤ o) && decide (o < w.addr + w.bytes.length) &&
         !w.skip.contains (o - w.addr)
       let last := fun (g o : Nat) => ((made g).filter (covers o)).getLast?
       let merged := fun (ws : List PWrite) (g : Nat) =>
         (∀ o, match last g o with
           | none => ∀ w ∈ ws, covers o w = false
           | some u => ∃ w, ws.filter (covers o) = [w] ∧ w.cls = .vector ∧ w.strip = s.h.strip ∧
               w.bytes[o - w.addr]? = u.bytes[o - u.addr]? ∧ (w.psn = true ↔ ∃ q x, q / 4 = o / 4 ∧ last g q = some x ∧ x.psn = true)) ∧
         (∀ o q, o / max 4 n = q / max 4 n → (last g o).isSome = true → (last g q).isSome = true → ws.filter (covers o) = ws.filter (covers q)) ∧
         ws.filter (·.space != .sp s.h.gang) = (made g).filter (·.space != .sp s.h.gang)
       ready j (max (8 * n) width) s = true → (∀ e ∈ es, (write e).isSome = true) →
       (free = true → shareWrites (es.map fun e => (write e).toList) = false) →
       ∃ t ws, exec j s = .next t ∧ t.h.stbuf = s.h.stbuf ++ (List.range 128).flatMap ws ∧ (∀ g < 128, merged (ws g) g) ∧
         Passed fm s t ∧ VesKept s t ∧ RestSameC s t ∧ t.h.early.Sublist s.h.early ∧
         t.h = { s.h with stbuf := t.h.stbuf, early := t.h.early, pc := t.h.pc, park := none, ves := t.h.ves, vcm := t.h.vcm,
                          bstat := t.h.bstat }
     let ix := fun e => base + BitVec.ofInt 64 (index e * 2 ^ w.toNat)
     s.h.arit = [] → noSlots [v] s.h = true →
     let batch := if w = 3 then 16 else 32
     does (.vstSp fm v b w) (2 ^ w.toNat) 0 batch false (fun e => base + BitVec.ofNat 64 (e * 2 ^ w.toNat)) ∧
     does (.vstsSp fm v b c w) (2 ^ w.toNat) 0 batch false (fun e => base + BitVec.ofInt 64 (e * stride)) ∧
     (noSlots [idx] s.h = true → cleanAt fm s.h [(idx, 32)] = true →
       does (.vstxSp fm v b idx w) (2 ^ w.toNat) 32 batch true ix) ∧
     does (.vstpSp fm v b c) 8 0 32 false (fun e => base + BitVec.ofInt 64 ((e / 2 : Nat) * stride + (e % 2 : Nat) * 8))) ∧
  (∀ (fm : Form) (v : BitVec 5) (b d sel : BitVec 6) (s : State),
     (s.h.stbuf = [] → alone s = true → sel.toNat < 4 →
       ∃ t w, exec (.bstat fm d sel) s = .next t ∧ s.h.bstat[sel.toNat]? = some w ∧ XDone fm d w s t) ∧
     (∀ m, s.gangOf s.h.gang = some m → ready (.vldSp .base v b 2) 32 s = true → s.h.arit = [] → s.h.pendingOf .vector = [] → s.h.early = [] →
       noSlots [v] s.h = true → cleanLocal m.sp = true → s.h.vl = 32 → (s.h.getX b).toNat % 128 = 0 →
       (s.h.getX b).toNat + 128 ≤ m.sp.size → m.sp.size ≤ 2 ^ 20 →
       ∃ t, exec (.vldSp .base v b 2) s = .next t ∧ (t.h.bstat[0]?, t.h.bstat[1]?, t.h.bstat[2]?, t.h.bstat[3]?) =
         ((s.h.bstat[0]?).map (· + 1), s.h.bstat[1]?, s.h.bstat[2]?, s.h.bstat[3]?)))

/-- R192 to R194: one atomic step on a location that its page allows: `xd` gets the old value, sign-extended from 32 bits unless U = 1, and
the location the new one; no other byte changes. `cas` stores xs when the old value is the low part of xd. Stated with no write of the hart on
its way, and for a location that holds no table entry.

U is read as log entry 20 says. -/
def Obligations.ScalarAtomics : Prop :=
  ∀ (fm : Form) (d b y : BitVec 6) (o : AmoOp) (dw : Bool) (s : State),
    let va := s.h.getX b
    let n := if dw then 8 else 4
    let w := 8 * n
    let ext := fun (old : Nat) => if attrU fm || dw then BitVec.ofNat 64 old else BitVec.ofInt 64 ((BitVec.ofNat 32 old).toInt)
    let num := fun (p : Nat) => if attrU fm then (p : Int) else (BitVec.ofNat w p).toInt
    let new := fun (old : Nat) =>
      let x := (s.h.getX y).toNat % 2 ^ w
      match o with
      | .add => (old + x) % 2 ^ w
      | .and => old &&& x
      | .or => old ||| x
      | .xor => old ^^^ x
      | .min => if num x < num old then x else old
      | .max => if num old < num x then x else old
      | .swap => x
    let casNew := fun (old : Nat) => if old = (s.h.getX d).toNat % 2 ^ w then (s.h.getX y).toNat % 2 ^ w else old
    let regs := fun (old : Nat) (t : State) =>
      (∀ r, t.h.getX r = if r = 0 then 0 else if r = d then ext old else s.h.getX r) ∧ Passed fm s t ∧ VesKept s t ∧
      t.h = { s.h with x := t.h.x, pc := t.h.pc, park := none, ves := t.h.ves, vcm := t.h.vcm }
    alone s = true → va.toNat % n = 0 → s.h.stbuf = [] → s.h.early = [] →
    (attrRel fm = true → quietAt s.h (if attrScope fm = 5 then .fab else if attrScope fm = 6 then .sys else .dev) = true) →
    (∀ pa key, mapsStill s va.toNat .rmw = some (pa, key) → cleanSector s va.toNat pa key = true → offTables s pa n = true →
      let old := leNat (cellsRead s.mem pa n)
      let done := fun (v : Nat) (t : State) => regs old t ∧
        (∀ a, cellsGet t.mem a = if pa ≤ a ∧ a < pa + n then BitVec.ofNat 8 (v / 2 ^ (8 * (a - pa))) else cellsGet s.mem a) ∧
        t.nodes = (s.checksum (s.taskOf s.h) va (leBytes n v)).nodes ∧
        t = { s with h := t.h, h0 := t.h0, hT := t.hT, cv := t.cv, ended := t.ended, mem := t.mem, changed := t.changed, regions := t.regions,
                     badTag := t.badTag, raw := t.raw, nodes := t.nodes }
      (∃ t, exec (.amo fm d b y o dw false) s = .next t ∧ done (new old) t) ∧
      (∃ t, exec (.cas fm d b y dw false) s = .next t ∧ done (casNew old) t)) ∧
    (∀ old, localAs s (s.spSpace s.h va) n = some old →
      let done := fun (v : Nat) (t : State) => regs old t ∧ MemSame s t ∧
        t = { s with h := t.h, h0 := t.h0, hT := t.hT, cv := t.cv, ended := t.ended, gangs := t.gangs, changed := t.changed } ∧
        t.gangs = match s.spSpace s.h va with
          | (.sp g, off) => s.gangs.map fun x => if x.key = g then { x with sp := localWrite x.sp off (leBytes n v) false } else x
          | _ => s.gangs
      (∃ t, exec (.amo fm d b y o dw true) s = .next t ∧ done (new old) t) ∧
      (∃ t, exec (.cas fm d b y dw true) s = .next t ∧ done (casNew old) t))

/-- R195 to R197: a `vamo` on global memory or on the scratchpad whose locations do not overlap applies its operation to each, `fadd` the sum
rounded once with subnormals flushed, and the elements of v become the old values unless NF = 1; no other byte changes. It may pause after some of its elements, which have then
performed (log entry 78). Stated with no write on its way, and for locations that hold no table entry.

R198: a `vwait`, on global memory or on the scratchpad, retires once the condition holds between the location and the element of every active element not yet observed, and
parks otherwise, keeping what it has observed; a parked one is read again.

The order of elements is left open (log entry 67). -/
def Obligations.VectorAtomicsAndWaits : Prop :=
  (∀ (fm : Form) (v vi : BitVec 5) (b : BitVec 6) (dw : Bool) (o : VamoOp) (s : State),
     let n := if dw then 8 else 4
     let w := 8 * n
     let at' := fun e => vamoAddr b s.h (s.h.getV vi) n e
     let src := fun e => (s.h.getV v).elt w e
     let es := (List.range s.h.vl.toNat).filter (activeAt fm s.h)
     let place := fun e => (mapsStill s (at' e).toNat .rmw).getD (0, 0)
     let fd := fdxValue fm s.h
     let c := fdDst fd
     let val := fun p => (sourceVal fd c c p).getD .nar
     let new := fun (old e : Nat) => match o with
       | .int op => amoNew op (attrU fm) w old (src e)
       | .fadd => ((RCtx.mk fd s.h.sseed s.h.sbase).round c e ((val old).add (fdRM fd == 3) (val (src e)))).getD 0
     let i := fun (sp : Bool) => Instr.vamo fm v b vi dw sp o
     let took := fun (old : Nat → Nat) (t : State) => Passed fm s t ∧ VesKept s t ∧ (∀ r, r ≠ v → t.h.getV r = s.h.getV r) ∧
       (∀ r, t.h.getX r = s.h.getX r) ∧ GotElts w (fun e => if act fm s.h e && !attrNF fm then some (old e, false) else none) (s.h.getV v) (t.h.getV v)
     noSlots [v, vi] s.h = true → cleanAt fm s.h [(v, w), (vi, 32)] = true → s.h.arit = [] → s.h.stbuf = [] → s.h.early = [] →
     (∀ j l os, s.h.park ≠ some (.vamo j l os)) →
     (o = .fadd → bits fd.toNat 40 24 = 0 ∧ fd.getLsbD 31 = false ∧ (fdRM fd ≤ 1 ∨ (fdRM fd ≤ 4 ∧ c ≠ 10)) ∧ fdFA fd = c ∧ fdFB fd = c ∧
       fdSub fd = false ∧ (if dw then c = 2 else c = 0 ∨ c = 10)) →
     (attrRel fm = true → quietAt s.h (if attrScope fm = 5 then .fab else if attrScope fm = 6 then .sys else .dev) = true) →
     shareByte n (es.map fun e => (at' e).toNat) = false →
     (ready (i false) w s = true →
       (∀ e ∈ es, (mapsStill s (at' e).toNat .rmw).isSome = true ∧ cleanSector s (at' e).toNat (place e).1 (place e).2 = true ∧
         offTables s (place e).1 n = true) →
       (∀ e ∈ es, ∀ e' ∈ es, e ≠ e' → (place e).1 + n ≤ (place e').1 ∨ (place e').1 + n ≤ (place e).1) →
       let old := fun e => leNat (cellsRead s.mem (place e).1 n)
       ∃ t, exec (i false) s = .next t ∧ took old t ∧
         (∀ e ∈ es, ∀ j < n, cellsGet t.mem ((place e).1 + j) = BitVec.ofNat 8 (new (old e) e / 2 ^ (8 * j))) ∧
         (∀ a, (∀ e ∈ es, a < (place e).1 ∨ (place e).1 + n ≤ a) → cellsGet t.mem a = cellsGet s.mem a) ∧
         ∀ k < es.length, ∃ l, (vamoPart (some k) fm v b vi dw false o s).h.pc = s.h.pc ∧
           (vamoPart (some k) fm v b vi dw false o s).h.park = some (.vamo (i false) l ((es.take k).map fun e => (e, old e))) ∧
           l.map (fun x => (x.1, x.2.1)) = (es.drop k).map (fun e => (e, at' e)) ∧
           (∀ e ∈ es.take k, ∀ j < n, cellsGet (vamoPart (some k) fm v b vi dw false o s).mem ((place e).1 + j) =
             BitVec.ofNat 8 (new (old e) e / 2 ^ (8 * j))) ∧
           ∀ a, (∀ e ∈ es.take k, a < (place e).1 ∨ (place e).1 + n ≤ a) →
             cellsGet (vamoPart (some k) fm v b vi dw false o s).mem a = cellsGet s.mem a) ∧
     (∀ (ws : Nat → PWrite) (old : Nat → Nat), ready (i true) w s = true →
       (∀ e ∈ es, localAs s (s.spSpace s.h (at' e)) n = some (old e) ∧
         localWriteOf s (s.spSpace s.h (at' e)) (at' e) (leBytes n (new (old e) e)) false = some (ws e)) →
       (∀ e ∈ es, ∀ e' ∈ es, e ≠ e' → overlaps (ws e) (ws e') = false) →
       ∃ t, exec (i true) s = .next t ∧ took old t ∧ MemSame s t ∧
         t.gangs.map (fun g => { g with sp := { } }) = s.gangs.map (fun g => { g with sp := { } }) ∧
         (∀ e ∈ es, ∀ j < n, cellsGet (t.localOf (ws e).space).cells ((ws e).addr + j) = BitVec.ofNat 8 (new (old e) e / 2 ^ (8 * j))) ∧
         ∀ g a, (∀ e ∈ es, (ws e).space = .sp g → a < (ws e).addr ∨ (ws e).addr + n ≤ a) →
           cellsGet (t.localOf (.sp g)).cells a = cellsGet (s.localOf (.sp g)).cells a)) ∧
  (∀ (fm : Form) (v vi : BitVec 5) (b : BitVec 6) (dw sp : Bool) (c : WaitOp) (s : State),
     let n := if dw then 8 else 4
     let w := 8 * n
     let i := Instr.vwait fm v b vi dw sp c
     let at' := fun e => vamoAddr b s.h (s.h.getV vi) n e
     let es := (List.range s.h.vl.toNat).filter (activeAt fm s.h)
     let val := fun e => if sp then localAs s (s.spSpace s.h (at' e)) n else match mapsStill s (at' e).toNat .read with
       | some (pa, key) => if cleanSector s (at' e).toNat pa key then some (leNat (cellsRead s.mem pa n)) else none
       | none => none
     let seen := match s.h.park with | some (.wait _ _ _ m) => m | _ => 0
     let sx := fun (p : Nat) => (BitVec.ofNat w p).toInt
     let holds := fun e =>
       let x := (val e).getD 0
       let y := (s.h.getV v).elt w e
       match c with
       | .eq => x = y
       | .ne => x ≠ y
       | .lt => sx x < sx y
       | .ge => sx y ≤ sx x
       | .ltn => x < y
       | .gen => y ≤ x
     let ok := fun e => seen.getLsbD e = true ∨ holds e
     (ready i w s = true → noSlots [v, vi] s.h = true → cleanAt fm s.h [(v, w), (vi, 32)] = true → s.h.arit = [] → s.h.stbuf = [] →
       s.h.early = [] → (∀ e ∈ es, (val e).isSome = true) → s.h.vl.toNat ≤ 2048 →
       ∃ t, exec i s = .next t ∧ RestSame s t ∧ VesKept s t ∧
         ((∀ e ∈ es, ok e) → Passed fm s t ∧ t.h = { s.h with pc := t.h.pc, park := none, ves := t.h.ves, vcm := t.h.vcm }) ∧
         ((∃ e ∈ es, ¬ ok e) → ∃ m, t.h = { s.h with park := some (.wait i 7 none m), resumed := resumedNow s, ves := t.h.ves, vcm := t.h.vcm } ∧
           ∀ e < 2048, (m.getLsbD e = true ↔ seen.getLsbD e = true ∨ (e ∈ es ∧ holds e)))) ∧
     (∀ g r a m, s.hartAt g.id = some g → g.park = some (.wait i r a m) →
       ∃ t, exec (.vwaitReevaluation g.id) s = .next t ∧ exec i (s.focus g.id) = .next t))

/-- R201, R202, R205: an arrival reads the phase and adds the hart to the barrier; the last one of the expected count completes the phase: the
next phase opens empty, the records of the last one are kept, and evt.BAR is set in every hart that arrived.

R201: the phase of the gang barrier completes once every hart of the gang that has not exited has arrived.

R202, R204, R205: `bar.wait` goes on when the phase is not the token and parks while it is; `bar.rd` reads a barrier's fields; an index
outside the gang's range raises 0xA0. -/
def Obligations.Barriers : Prop :=
  (∀ (fm : Form) (d b c : BitVec 6) (s : State) (g : Gang),
     let k := (s.h.getX b).toNat
     let n := (s.h.getX c).toNat
     let old := g.bars.getD k { }
     let exp := if old.exp = 0 then n else old.exp
     let mask := old.mask ||| 1#32 <<< s.h.gh
     let bar := fun (t : State) => (t.gangOf s.h.gang).bind fun g => g.bars[k]?
     let joined := fun (t : State) => bar t = some { old with exp := exp, arr := old.arr + 1, mask := mask,
                                                              firstGh := if old.arr = 0 then s.h.gh else old.firstGh,
                                                              firstClk := if old.arr = 0 then s.clk else old.firstClk }
     let completed := fun (t : State) => (bar t).map (fun b => (b.phase, b.exp, b.arr, b.mask, b.lph, b.lgh, b.lts)) =
         some (old.phase + 1, 0, 0, 0, old.phase, s.h.gh, s.tstamp) ∧ t.h.evtBar = true ∧
       (g.tcb.brec = false →
         t.harts = s.harts.map (fun h => if h.live && h.gang == s.h.gang && mask.getLsbD h.gh then { h with evtBar := true } else h))
     let wrote := fun (t : State) => ∀ r, t.h.getX r = if r = 0 then 0 else if r = d then BitVec.ofNat 64 old.phase.toNat else s.h.getX r
     let last := old.arr + 1 = exp
     s.gangOf s.h.gang = some g → s.h.live = true → s.h.gh < 32 → s.h.park = none → s.cv.active = false →
     s.h.stbuf = [] → quietAt s.h .core = true → k < g.bars.length → 1 ≤ n → n < 64 → n ≤ g.desc.harts → (old.exp = 0 ∨ old.exp = n) →
     old.mask.getLsbD s.h.gh = false →
     (∃ t, exec (.barArrive fm d b c) s = .next t ∧ wrote t ∧ Passed fm s t ∧ t.mem = s.mem ∧ t.h.park = none ∧
       (last → completed t) ∧ (¬ last → joined t ∧ t.harts = s.harts ∧ t.h.evtBar = s.h.evtBar)) ∧
     (∃ t, exec (.barSync fm d b c) s = .next t ∧ wrote t ∧ t.mem = s.mem ∧
       (last → completed t ∧ Passed fm s t ∧ t.h.park = none) ∧
       (¬ last → joined t ∧ t.harts = s.harts ∧ t.h.pc = s.h.pc ∧ t.h.park = some (.wait (.barSync fm d b c) 6 (some (some k)) 0)))) ∧
  (∀ (fm : Form) (s : State) (g : Gang),
     let old := g.gbar
     let bar := fun (t : State) => (t.gangOf s.h.gang).map (·.gbar)
     let last := ∀ j < g.desc.harts, g.exited.getLsbD j = true ∨ old.mask.getLsbD j = true ∨ j = s.h.gh
     s.gangOf s.h.gang = some g → s.h.live = true → s.h.gh < 32 → s.h.park = none → s.cv.active = false → s.h.stbuf = [] →
     quietAt s.h .core = true → old.mask.getLsbD s.h.gh = false →
     ∃ t, exec (.gbar fm) s = .next t ∧ t.mem = s.mem ∧ (∀ r, t.h.getX r = s.h.getX r) ∧
       (last → (bar t).map (fun b => (b.phase, b.arr, b.mask, b.lph, b.lgh, b.lts)) =
         some (old.phase + 1, 0, 0, old.phase, s.h.gh, s.tstamp) ∧ Passed fm s t ∧ t.h.evtBar = true ∧ t.h.park = none) ∧
       (¬ last → (bar t).map (fun b => (b.phase, b.arr, b.mask)) = some (old.phase, old.arr + 1, old.mask ||| 1#32 <<< s.h.gh) ∧
         t.h.pc = s.h.pc ∧ t.h.park = some (.wait (.gbar fm) 6 (some none) 0))) ∧
  (∀ (fm : Form) (d b x : BitVec 6) (s : State) (g : Gang),
     let k := (s.h.getX b).toNat
     let bar := g.bars.getD k { }
     let gone := fun (t : State) => Passed fm s t ∧ VesKept s t ∧ RestSame s t ∧
       t.h = { s.h with pc := t.h.pc, park := none, ves := t.h.ves, vcm := t.h.vcm }
     s.gangOf s.h.gang = some g → alone s = true →
     (k < g.bars.length →
       (bar.phase ≠ (s.h.getX x).setWidth 32 → ∃ t, exec (.barWait fm b x) s = .next t ∧ gone t) ∧
       (bar.phase = (s.h.getX x).setWidth 32 → ∃ t, exec (.barWait fm b x) s = .next t ∧ RestSame s t ∧ VesKept s t ∧
         t.h = { s.h with park := some (.wait (.barWait fm b x) 6 none 0), resumed := resumedNow s, ves := t.h.ves, vcm := t.h.vcm }) ∧
       (s.h.getX b ≠ BitVec.allOnes 64 → ∃ t v, exec (.barRd fm d b x) s = .next t ∧ WriteX fm d v s t ∧
         (x = 0 → v.extractLsb' 32 32 = bar.phase ∧ v.toNat / 256 % 64 = bar.exp % 64 ∧ v.toNat % 64 = bar.arr % 64) ∧
         (x = 1 → v.toNat = bar.mask.toNat) ∧ (x = 2 → v.extractLsb' 32 32 = bar.lph ∧ v.toNat % 32 = bar.lgh % 32) ∧
         (x = 3 → v = bar.lts) ∧ (x = 4 → v.toNat = bar.wgh % 32) ∧ (x = 5 → v = bar.wclk))) ∧
     (g.bars.length ≤ k → s.cv.active = false →
       (∃ t, exec (.barWait fm b x) s = .next t ∧ Entered 0xA0 (s.h.getX b) s.h.pc s t) ∧
       (s.h.getX b ≠ BitVec.allOnes 64 → ∃ t, exec (.barRd fm d b x) s = .next t ∧ Entered 0xA0 (s.h.getX b) s.h.pc s t)))

/-- R209, R214, R215, R224: binding reads a record that is aligned and well formed, sets the stream to its start with the seed and base of
the hart, and takes an entry of the interlock table for the bytes that it may read.

R216 to R218: stopping ends a binding and frees its entries; positions, what is left, and skipping.

R217: an image restores what it was made of: `srest` of the image of a stream register gives the same binding, with nothing fetched ahead, and
the image of an unbound one unbinds. `ssave` writes the image, to global memory or to TCM.

That a binding keeps the privilege of the hart that bound it is the model's reading (log entry 22). -/
def Obligations.StreamBindings : Prop :=
  (∀ (fm : Form) (q : BitVec 3) (b : BitVec 6) (v : BitVec 5) (t : Bool) (s : State) (r : List Byte) (p : Pattern),
     let does := fun (i : Instr) (slot : Option (BitVec 5)) => named i s = true →
       ∃ u l, exec i s = .next u ∧
         u.h.getQ q = some { record := r, pos := 0, seed := s.h.sseed, base := s.h.sbase, slot := slot, prv := s.h.status.prv, held := [] } ∧
         (∀ k, k ≠ q → u.h.getQ k = s.h.getQ k) ∧ Dirtied (qBit q) True s u ∧ u.h.arit.filter (!·.part) = [l] ∧
         (∀ k ∈ u.h.arit, k.own = .stream q ∧ k.write = false ∧ k.strip = s.h.strip) ∧
         (p.space = 0 → l.space = .glob ∧ (l.lo, l.hi) = p.range) ∧ Passed fm s u ∧ VesKept s u ∧ RestSame s u ∧
         u.h = { s.h with q := u.h.q, arit := u.h.arit, vdirty := u.h.vdirty, vlive := u.h.vlive, pc := u.h.pc, park := none,
                          ves := u.h.ves, vcm := u.h.vcm }
     (s.h.getX b).toNat % 16 = 0 → recordAs s t (s.h.getX b) 176 = some r → parsePattern r = some p → s.h.arit = [] → s.h.stbuf = [] →
     (p.fibre = false → s.h.slotOf v = none ∨ s.h.slotOf v = some q → does (.sbind fm q b v t) (some v)) ∧ does (.sbindF fm q b t) none) ∧
  (∀ (fm : Form) (q : BitVec 3) (d n : BitVec 6) (s : State),
     let rest := fun (u : State) => (∀ k, k ≠ q → u.h.getQ k = s.h.getQ k) ∧ Passed fm s u ∧ VesKept s u ∧ RestSame s u ∧
       u.h = { s.h with q := u.h.q, arit := u.h.arit, vdirty := u.h.vdirty, vlive := u.h.vlive, pc := u.h.pc, park := none,
                        ves := u.h.ves, vcm := u.h.vcm }
     let k := (s.h.getX n).toNat
     (named (.sstop fm q) s = true → ∃ u, exec (.sstop fm q) s = .next u ∧ u.h.getQ q = none ∧ rest u ∧
       u.h.arit = (if (s.h.getQ q).isSome then s.h.arit.filter fun l => l.own != .stream q else s.h.arit)) ∧
     (named (.sopPos fm d q) s = true → ∃ u, exec (.sopPos fm d q) s = .next u ∧
       WriteX fm d (match s.h.getQ q with | some b => BitVec.ofNat 64 b.pos | none => BitVec.allOnes 64) s u) ∧
     (named (.sopRem fm d q) s = true → ∃ u, exec (.sopRem fm d q) s = .next u ∧
       WriteX fm d (match s.h.getQ q with | some b => BitVec.ofNat 64 (b.pattern.count - b.pos) | none => 0) s u) ∧
     (∀ b, s.h.getQ q = some b → b.pos + k ≤ b.pattern.count → named (.sopSkip fm q n) s = true →
       ∃ u c, exec (.sopSkip fm q n) s = .next u ∧ u.h.getQ q = some c ∧ c.pos = b.pos + k ∧ c.record = b.record ∧ rest u) ∧
     (s.h.getQ q = none → named (.sopSkip fm q n) s = true → s.cv.active = false →
       ∃ u, exec (.sopSkip fm q n) s = .next u ∧ Entered 0x61 (BitVec.ofNat 64 q.toNat) s.h.pc s u)) ∧
  (∀ (fm : Form) (q : BitVec 3) (b : BitVec 6) (t : Bool) (s : State),
     let va := BitVec.ofNat 64 ((s.h.getX b).toNat / 256 * 256)
     let place := fun j => mapsStill s (va.toNat + 64 * j) .write
     (∀ c p, recordAs s t va 256 = some (streamImage (some c)) → c.record.length = 176 → parsePattern c.record = some p → c.pos ≤ p.count →
       s.h.arit = [] → s.h.stbuf = [] → named (.srest fm q b t) s = true →
       (∀ v, c.slot = some v → p.fibre = false ∧ (s.h.slotOf v = none ∨ s.h.slotOf v = some q)) →
       ∃ u, exec (.srest fm q b t) s = .next u ∧ Passed fm s u ∧ RestSame s u ∧ (∀ k, k ≠ q → u.h.getQ k = s.h.getQ k) ∧
         u.h.getQ q = some { c with held := [], prv := s.h.status.prv }) ∧
     (recordAs s t va 256 = some (streamImage none) → s.h.arit = [] → s.h.stbuf = [] → named (.srest fm q b t) s = true →
       ∃ u, exec (.srest fm q b t) s = .next u ∧ Passed fm s u ∧ u.h.getQ q = none) ∧
     (∀ p0 p1 p2 p3 k0 k1 k2 k3, place 0 = some (p0, k0) → place 1 = some (p1, k1) → place 2 = some (p2, k2) → place 3 = some (p3, k3) →
       [(0, p0, k0), (64, p1, k1), (128, p2, k2), (192, p3, k3)].all (fun x => cleanSector s (va.toNat + x.1) x.2.1 x.2.2 &&
         offTables s x.2.1 64) = true → [p0 / 64, p1 / 64, p2 / 64, p3 / 64].Nodup →
       s.h.arit = [] → s.h.stbuf = [] → named (.ssave fm q b false) s = true →
       ∃ u, exec (.ssave fm q b false) s = .next u ∧ Passed fm s u ∧ u.h.stbuf = [] ∧ (∀ k, u.h.getQ k = s.h.getQ k) ∧
         cellsRead u.mem p0 64 ++ cellsRead u.mem p1 64 ++ cellsRead u.mem p2 64 ++ cellsRead u.mem p3 64 = streamImage (s.h.getQ q) ∧
         ∀ a, (∀ p ∈ [p0, p1, p2, p3], a < p ∨ p + 64 ≤ a) → cellsGet u.mem a = cellsGet s.mem a) ∧
     (∀ off m, let o := off % ceilPow2 m.tcm.size
       s.h.tcmSpace va = (.tcm s.h.gang, off) → s.gangOf s.h.gang = some m → o + 256 ≤ m.tcm.size → s.h.arit = [] → s.h.stbuf = [] →
       named (.ssave fm q b true) s = true →
       ∃ u n, exec (.ssave fm q b true) s = .next u ∧ Passed fm s u ∧ u.h.stbuf = [] ∧ (∀ k, u.h.getQ k = s.h.getQ k) ∧ MemSame s u ∧
         u.gangOf s.h.gang = some n ∧ n = { m with tcm := n.tcm } ∧
         (∀ j < 256, cellsGet n.tcm.cells (o + j) = (streamImage (s.h.getQ q)).getD j 0) ∧
         ∀ a, a < o ∨ o + 256 ≤ a → cellsGet n.tcm.cells a = cellsGet m.tcm.cells a))

/-- R218, R219: `sop.pop` moves the next vl elements of a dense stream, once the engine has fetched them, to a register in order, and the
position on by vl; beyond the end of the stream it raises 0x62.

R210, R213: the engine of a dense stream without a chain fetches the element at its next position from the address of the pattern, and holds it.

R209, R210: base, sizes and strides of a dense pattern are those of the words of its record, and element i lies at the base plus each index
times its stride, dimension 0 varying fastest. -/
def Obligations.StreamElements : Prop :=
  (∀ (fm : Form) (d : BitVec 5) (q : BitVec 3) (s : State) (b : Binding) (val : Nat → Nat × Bool),
     let vl := s.h.vl.toNat
     let w := ewBits s.h.ew
     s.h.getQ q = some b → b.pattern.fibre = false → fmtWidth b.pattern.out = w → ready (.sopPop fm d q) w s = true →
     (b.pos + vl ≤ b.pattern.count → noSlots [d] s.h = true →
       (∀ e < vl, b.held.find? (·.1 == b.pos + e) = some (b.pos + e, .elem (val e).1 (val e).2)) →
       ∃ t c, exec (.sopPop fm d q) s = .next t ∧ GotElts w (fun e => if e < vl then some (val e) else none) (s.h.getV d) (t.h.getV d) ∧
         (∀ r, r ≠ d → t.h.getV r = s.h.getV r) ∧ t.h.getQ q = some c ∧ c.pos = b.pos + vl ∧ c.record = b.record ∧
         (∀ k, k ≠ q → t.h.getQ k = s.h.getQ k) ∧ Passed fm s t ∧ VesKept s t ∧ RestSameC s t ∧
         t.h = { s.h with v := t.h.v, q := t.h.q, arit := t.h.arit, vdirty := t.h.vdirty, vlive := t.h.vlive, pc := t.h.pc, park := none,
                          ves := t.h.ves, vcm := t.h.vcm }) ∧
     (b.pattern.count < b.pos + vl → s.cv.active = false →
       ∃ t, exec (.sopPop fm d q) s = .next t ∧ Entered 0x62 (BitVec.ofNat 64 (b.pos + vl)) s.h.pc s t)) ∧
  (∀ (q : BitVec 3) (s : State) (b : Binding) (n v : Nat),
     let w := fmtWidth b.pattern.fmt / 8
     let at' := b.pattern.addr n
     s.h.live = true → s.h.getQ q = some b → b.prv = s.h.status.prv → b.pattern.fibre = false → b.pattern.space = 0 → b.pattern.steps = [] →
     1 ≤ w → b.next = some n → readsAs s false at' w = some v →
     ∃ t, exec (.streamFetch s.h.id q) s = .next t ∧ t.h.getQ q = some { b with held := b.held ++ [(n, .elem v false)] } ∧
       (∀ k, k ≠ q → t.h.getQ k = s.h.getQ k) ∧ MemSame s t ∧ t = { s with h := t.h, harts := t.harts } ∧
       t.h = { s.h with q := t.h.q, arit := t.h.arit }) ∧
  (∀ (r : List Byte) (p : Pattern) (i : Nat),
     let word := fun off => leNat ((r.drop off).take 8)
     let size := fun d => (p.dims.getD d (1, 0)).1
     let stride := fun d => (p.dims.getD d (1, 0)).2
     parsePattern r = some p → p.fibre = false →
     p.base = BitVec.ofNat 64 (word 0) ∧ p.dims.length = word 8 / 2 ^ 12 % 8 ∧
     (∀ d < p.dims.length, size d = word (16 + 16 * d) ∧ 1 ≤ size d ∧ stride d = BitVec.ofNat 64 (word (24 + 16 * d))) ∧
     p.count = size 0 * size 1 * size 2 * size 3 ∧
     (i < p.count → p.addr i = p.base + BitVec.ofNat 64 (i % size 0) * stride 0 + BitVec.ofNat 64 (i / size 0 % size 1) * stride 1 +
       BitVec.ofNat 64 (i / (size 0 * size 1) % size 2) * stride 2 + BitVec.ofNat 64 (i / (size 0 * size 1 * size 2)) * stride 3))

/-- R234, R237, R242, R243, R235: `fld` of an image takes its pairs in order up to the limit: when all fit, xr is their number and `fprog` zero; else
`fprog` holds the progress, and xr has bit 63 set.

R244: `fld.q` takes the pairs of the fibre that the engine has fetched at the stream's position, and moves the position on.

The dirty bits follow log entry 65. -/
def Obligations.FibreLoads : Prop :=
  (∀ (fm : Form) (d : BitVec 4) (b xr : BitVec 6) (t k : Bool) (s : State) (n : Nat) (pair : Nat → Nat × Nat),
     let a := s.h.getX b + offsetOf fm
     let at' := fun j => a + BitVec.ofNat 64 (8 + 8 * j)
     let c := (s.h.getX xr).toNat % 1024
     let lim := if 1 ≤ c ∧ c ≤ s.h.cap then c else s.h.cap
     let l := (List.range (min n lim)).map fun j => ({ crd := BitVec.ofNat 32 (pair j).1, val := BitVec.ofNat 32 (pair j).2 } : Pair)
     named (.fld fm d b xr t k) s = true → startsAfresh s = true → s.h.arit = [] → s.h.pendingOf .vector = [] → a.toNat % 8 = 0 →
     readsAs s t a 4 = some n → n < 2 ^ 23 →
     (∀ j < n, readsAs s t (at' j) 4 = some (pair j).1 ∧ readsAs s t (at' j + 4) 4 = some (pair j).2 ∧ (pair j).1 < 2 ^ 32 - 1) →
     ∃ u, exec (.fld fm d b xr t k) s = .next u ∧
       FRan fm d l xr (if n ≤ lim then BitVec.ofNat 64 n else BitVec.ofNat 64 (2 ^ 63 + lim))
         (if n ≤ lim then 0 else BitVec.ofNat 64 (2 ^ 63 + t.toNat * 2 ^ 56 + lim % 1024 * 2 ^ 46 + lim % 2 ^ 23)) s u) ∧
  (∀ (fm : Form) (d : BitVec 4) (q : BitVec 3) (xr : BitVec 6) (k : Bool) (s : State) (b : Binding) (lo : Nat) (ps : List Pair),
     let c := (s.h.getX xr).toNat % 1024
     let lim := if 1 ≤ c ∧ c ≤ s.h.cap then c else s.h.cap
     named (.fldQ fm d q xr k) s = true → startsAfresh s = true → s.h.getQ q = some b → b.pattern.fibre = true →
     fmtWidth b.pattern.out ≤ 32 → b.pos < b.pattern.count → b.held.find? (·.1 == b.pos) = some (b.pos, .fibre lo ps false none) →
     ps.length ≤ lim → (∀ x ∈ ps, x.cp = false ∧ x.crd ≠ BitVec.allOnes 32) →
     ∃ t c, exec (.fldQ fm d q xr k) s = .next t ∧ t.h.getF d = ps ∧ (∀ r, r ≠ d → t.h.getF r = s.h.getF r) ∧
       t.h.getQ q = some c ∧ c.pos = b.pos + 1 ∧ c.record = b.record ∧ (∀ k, k ≠ q → t.h.getQ k = s.h.getQ k) ∧ t.h.fprog = 0 ∧
       (∀ r, t.h.getX r = if r = 0 then 0 else if r = xr then BitVec.ofNat 64 ps.length else s.h.getX r) ∧
       Passed fm s t ∧ VesKept s t ∧ RestSameC s t ∧
       t.h = { s.h with f := t.h.f, q := t.h.q, arit := t.h.arit, x := t.h.x, fprog := t.h.fprog, vdirty := t.h.vdirty,
                        vlive := t.h.vlive, pc := t.h.pc, park := none, ves := t.h.ves, vcm := t.h.vcm })

/-- R245, R246, R234: `fst` puts the writes of the image of a fibre register on their way: the number of pairs, then each pair as one write from
byte 8 on, poisoned in TCM word by word; a write on its way stands as log entry 8 says. `fcount` reads the
occupancy and whether coordinates ascend strictly; `fclear` empties the register. R229: a register's dirty bit is set when its pairs or its
occupancy change; that `fclear` of an empty register sets none is the model's reading of it (log entry 65). -/
def Obligations.FibreStoresAndCounts : Prop :=
  ∀ (fm : Form) (f : BitVec 4) (d b : BitVec 6) (t k : Bool) (s : State),
    let a := s.h.getX b + offsetOf fm
    let l := s.h.getF f
    let word := writeOf s t a (leBytes 4 l.length) false
    let pairs := (List.range l.length).map fun j => match l[j]? with
      | some x => (writeOf s t (a + BitVec.ofNat 64 (8 + 8 * j)) (leBytes 4 x.crd.toNat ++ leBytes 4 x.val.toNat) (x.cp || (!t && x.vp))).map
          fun w => { w with hi := if t then some x.vp else none }
      | none => none
    (named (.fst fm f b t k) s = true → s.h.arit = [] → a.toNat % 8 = 0 →
      (∀ w ∈ word :: pairs, w.isSome = true) →
      ∃ u, exec (.fst fm f b t k) s = .next u ∧ WritesMade fm ((word :: pairs).filterMap id) s u) ∧
    (named (.fcount fm d f k) s = true → ∃ u v, exec (.fcount fm d f k) s = .next u ∧ WriteX fm d v s u ∧
      (l.length < 2 ^ 63 → v.toNat % 2 ^ 63 = l.length ∧ (v.getLsbD 63 = true ↔ l.Pairwise fun x y => x.crd.toNat < y.crd.toNat))) ∧
    (named (.fclear fm f k) s = true → ∃ u, exec (.fclear fm f k) s = .next u ∧ FDone fm f [] s u)

/-- R247 to R249, R233: set operations on sorted fibres, where the result fits: an intersection holds the coordinates of both, a union those of
either, each once and in order, with the operation's value under the positions as key; a merge holds every pair, those of a first.

The dirty bits follow log entry 65. -/
def Obligations.SetOperations : Prop :=
  ∀ (fm : Form) (d a b : BitVec 4) (f : BitVec 3) (oi : IsectOp) (ou : UnionOp) (k : Bool) (s : State),
    let fd := fdValue fm f s.h
    let r : RCtx := { d := fd, seed := s.h.sseed, base := s.h.sbase }
    let as := s.h.getF a
    let bs := s.h.getF b
    let down := fdRM fd == 3
    let va := fun (x : Pair) => fibreVal fd (fdFA fd) x.val
    let vb := fun (y : Pair) => fibreVal fd (fdFB fd) y.val
    let key := fun (c : Word) => as.countP (fun x => decide (x.crd.toNat < c.toNat)) + bs.countP fun y => decide (y.crd.toNat < c.toNat)
    let out := fun (c : Word) (v : Val) => ({ crd := c, val := fibreOut r (key c) v } : Pair)
    let pick := fun larger x y => pickVals (isIeee (fdFA fd)) larger (va x) (vb y)
    let meet := fun (x y : Pair) => match oi with
      | .mul => (va x).mul (vb y)
      | .add => (va x).add down (vb y)
      | .min => pick false x y
      | .max => pick true x y
      | .first => va x
    let join := fun (x y : Pair) => match ou with
      | .first => va x
      | .add => (va x).add down (vb y)
      | .sub => (va x).add down (vb y).neg
      | .min => pick false x y
      | .max => pick true x y
    let alone := fun (y : Pair) => match ou with | .sub => (vb y).neg | _ => vb y
    let c := (s.h.getX (e5Of fm)).toNat % 1024
    let lim := if 1 ≤ c ∧ c ≤ s.h.cap then c else s.h.cap
    let does := fun (i : Instr) (ok : List Pair → Prop) => ∀ l, named i s = true → ok l → l.length ≤ lim →
      ∃ t, exec i s = .next t ∧ FRan fm d l (e5Of fm) (BitVec.ofNat 64 l.length) 0 s t
    d ≠ a → d ≠ b → startsAfresh s = true → sortedPairs as = true → sortedPairs bs = true →
    (∀ x ∈ as ++ bs, x.cp = false ∧ x.vp = false) →
    (isectFd oi fd = true → does (.fisect fm d a b f oi k) fun l => sortedPairs l = true ∧
      ∀ p, p ∈ l ↔ ∃ x ∈ as, ∃ y ∈ bs, x.crd = y.crd ∧ p = out x.crd (meet x y)) ∧
    (unionFd fd = true → does (.funion fm d a b f ou k) fun l => sortedPairs l = true ∧
      ∀ p, p ∈ l ↔ (∃ x ∈ as, (∀ y ∈ bs, y.crd ≠ x.crd) ∧ p = out x.crd (va x)) ∨
        (∃ y ∈ bs, (∀ x ∈ as, x.crd ≠ y.crd) ∧ p = out y.crd (alone y)) ∨
        ∃ x ∈ as, ∃ y ∈ bs, x.crd = y.crd ∧ p = out x.crd (join x y)) ∧
    does (.fmerge fm d a b k) fun l => l = as.merge bs fun x y => decide (x.crd.toNat ≤ y.crd.toNat)

/-- R250: `fsort` orders pairs by coordinate and combines those of one coordinate in their order; `fcompact` drops the zero values.

The dirty bits follow log entry 65. -/
def Obligations.FibreReordering : Prop :=
  ∀ (fm : Form) (d a : BitVec 4) (f : BitVec 3) (o : SortOp) (k : Bool) (s : State),
    let fd := fdValue fm f s.h
    let r : RCtx := { d := fd, seed := s.h.sseed, base := s.h.sbase }
    let as := s.h.getF a
    let val := fun (x : Pair) => fibreVal fd (fdFA fd) x.val
    let two := fun (u v : Val) => match o with
      | .first => u
      | .add => u.add (fdRM fd == 3) v
      | .min => pickVals (isIeee (fdFA fd)) false u v
      | .max => pickVals (isIeee (fdFA fd)) true u v
    let comb := fun (c : Word) => match (as.filter (·.crd == c)).map val with | [] => Val.zero false | u :: l => l.foldl two u
    fibreFd { fa := some fibreV, dst := some fibreV } fd [fdFA fd, fdDst fd] = true → (∀ x ∈ as, x.cp = false ∧ x.vp = false) →
    (named (.fsort fm d a f o k) s = true → ∃ t l, exec (.fsort fm d a f o k) s = .next t ∧ FDone fm d l s t ∧ sortedPairs l = true ∧
      (∀ c, c ∈ l.map (·.crd) ↔ c ∈ as.map (·.crd)) ∧
      ∀ e (p : Pair), l[e]? = some p → p.val = fibreOut r e (comb p.crd) ∧ p.cp = false ∧ p.vp = false) ∧
    (named (.fcompact fm d a f k) s = true → ∃ t, exec (.fcompact fm d a f k) s = .next t ∧
      FDone fm d (((List.range as.length).zip as).filterMap fun (e, x) =>
        if (valueOf (fdFA fd) x.val.toNat).isZero then none
        else some ({ crd := x.crd, val := fibreOut r e (val x) } : Pair)) s t)

/-- R251, R252, R232: expansion of a fibre to vectors of values, of coordinates, and to dense form; packing of vectors to a fibre.

R253, R254: `fwalk` puts the children of each pair's position, in order, with their positions or their values, where they fit.

That the base of `fexpand.d` has no sign is the model's reading (log entry 30), and the dirty bits follow log entry 65. -/
def Obligations.FibreConversions : Prop :=
  (∀ (fm : Form) (d c b : BitVec 5) (g : BitVec 4) (f : BitVec 3) (k : Bool) (s : State),
     let fd := fdValue fm f s.h
     let r : RCtx := { d := fd, seed := s.h.sseed, base := s.h.sbase }
     let l := s.h.getF g
     let vl := s.h.vl.toNat
     let base := (s.h.getX (e5Of fm)).toNat
     let wd := fmtWidth (fdDst fd)
     let elt := fun e (p : Pair) =>
       let v := fibreVal fd (fdFA fd) p.val
       if isInt (fdDst fd) then storeInt (fdDst fd) (fdSat fd) v.toInt else r.roundNoSub (fdDst fd) e v
     let dense := fun (fmt e p : Nat) => fibreOut r e (if isInt fmt then valueOf fmt p else (sourceVal fd (fdDst fd) fmt p).getD .nar)
     let wb := fmtWidth (fdFB fd)
     let wa := fmtWidth (fdFA fd)
     (fibreFd { fa := some fibreV, dst := some denseV } fd [fdFA fd, fdDst fd] = true → noSlots [d] s.h = true →
       (∀ x ∈ l, x.cp = false ∧ x.vp = false) →
       (ready (.fexpandV fm d g f k) wd s = true → ∃ t, exec (.fexpandV fm d g f k) s = .next t ∧
         VDone fm d wd (fun e => if e < vl then some (match l[e]? with | some p => elt e p | none => 0, false) else none) s t) ∧
       (ready (.fexpandD fm d g f k) wd s = true → ∃ t, exec (.fexpandD fm d g f k) s = .next t ∧
         VDone fm d wd (fun e => if e < vl then ((l.filter fun p => p.crd.toNat == base + e).getLast?).map fun p => (elt e p, false)
           else none) s t)) ∧
     (noSlots [d] s.h = true → (∀ x ∈ l.take vl, x.cp = false) → ready (.fexpandC fm d g k) 32 s = true →
       ∃ t, exec (.fexpandC fm d g k) s = .next t ∧
         VDone fm d 32 (fun e => if e < vl then some (match l[e]? with | some p => p.crd.toNat | none => 2 ^ 32 - 1, false) else none) s t) ∧
     (fibreFd { fa := some (· == 0x26), fb := some denseV, dst := some fibreV } fd [fdFB fd, fdDst fd] = true → noSlots [c, b] s.h = true →
       ready (.fpack fm g c b f k) (max 32 wb) s = true →
       (∀ e < vl, (s.h.getV c).eltPsn 32 e = false ∧ (s.h.getV b).eltPsn wb e = false ∧ (s.h.getV c).elt 32 e ≠ 2 ^ 32 - 1) →
       ∃ t, exec (.fpack fm g c b f k) s = .next t ∧
         FDone fm g ((List.range vl).map fun e => ({ crd := BitVec.ofNat 32 ((s.h.getV c).elt 32 e),
                                                     val := dense (fdFB fd) e ((s.h.getV b).elt wb e) } : Pair)) s t) ∧
     (fibreFd { fa := some denseV, dst := some fibreV } fd [fdFA fd, fdDst fd] = true → noSlots [c] s.h = true →
       ready (.fpackD fm g c f k) (max 32 wa) s = true → (∀ e < vl, (s.h.getV c).eltPsn wa e = false) → base + vl < 2 ^ 32 →
       ∃ t, exec (.fpackD fm g c f k) s = .next t ∧
         FDone fm g ((List.range vl).filterMap fun e =>
           if (valueOf (fdFA fd) ((s.h.getV c).elt wa e)).isZero then none
           else some ({ crd := BitVec.ofNat 32 (base + e), val := dense (fdFA fd) e ((s.h.getV c).elt wa e) } : Pair)) s t)) ∧
  (∀ (fm : Form) (d g : BitVec 4) (b : BitVec 6) (v k : Bool) (s : State) (r : List Byte) (lo hi crd val : Nat → Nat),
     let a := s.h.getX b + offsetOf fm
     let l := s.h.getF g
     let ptr := fun p => BitVec.ofNat 64 (recWord r 0 + 4 * p)
     let w := recWord r 24
     let fmt := w / 2 ^ 32 % 2 ^ 6
     let n := fmtWidth fmt / 8
     let out := l.flatMap fun x => (List.range (hi x.val.toNat - lo x.val.toNat)).map fun j =>
       let i := lo x.val.toNat + j
       ({ crd := BitVec.ofNat 32 (crd i), val := BitVec.ofNat 32 (if v then val i else i) } : Pair)
     let c := (s.h.getX (e5Of fm)).toNat % 1024
     let lim := if 1 ≤ c ∧ c ≤ s.h.cap then c else s.h.cap
     named (.fwalk fm d g b v k) s = true → startsAfresh s = true → d ≠ g → s.h.arit = [] → s.h.pendingOf .vector = [] → a.toNat % 8 = 0 →
     recordAs s false a 32 = some r → (∀ j < 4, (readsAs s false (a + BitVec.ofNat 64 (8 * j)) 8).isSome = true) → w / 2 ^ 38 = 0 → (v = true → fibreV fmt = true) →
     (∀ x ∈ l, x.vp = false ∧ x.val.toNat < w % 2 ^ 32 ∧ readsAs s false (ptr x.val.toNat) 4 = some (lo x.val.toNat) ∧
       readsAs s false (ptr (x.val.toNat + 1)) 4 = some (hi x.val.toNat) ∧ lo x.val.toNat ≤ hi x.val.toNat ∧
       hi x.val.toNat - lo x.val.toNat < 2 ^ 23 ∧
       ∀ i, lo x.val.toNat ≤ i → i < hi x.val.toNat → readsAs s false (BitVec.ofNat 64 (recWord r 8 + 4 * i)) 4 = some (crd i) ∧
         crd i ≠ 2 ^ 32 - 1 ∧ (v = true → readsAs s false (BitVec.ofNat 64 (recWord r 16 + n * i)) n = some (val i))) →
     out.length ≤ lim →
     ∃ t, exec (.fwalk fm d g b v k) s = .next t ∧ FRan fm d out (e5Of fm) (BitVec.ofNat 64 out.length) 0 s t)

/-- R258, R259, R265: `mldb` fills the tile, bit by bit, from the register group, zeroes the rest of it, and sets the tag.

R269, R271, R273: `mseal` seals slot H, gives its number and moves the head on; `epi.cfg` sets the kind and anchor of a FREE slot; `mstat`
reads the state.

The order of checks is the model's reading (log entry 32). -/
def Obligations.TilesAndSlots : Prop :=
  (∀ (fm : Form) (gr : BitVec 2) (vs : BitVec 5) (f : BitVec 3) (s : State) (g : Gang),
     let fd := fdValue fm f s.h
     let c := fdFB fd
     let k := 128 / 2 ^ fdKdep fd
     let bits := k * g.cols c * fmtWidth c
     let regs := (List.range 8).map fun j => BitVec.ofNat 5 (8 * gr.toNat + j)
     let ns := if isTb8 c then g.cols c * (k / 32) else 0
     s.gangOf s.h.gang = some g → g.desc.mat = true → fresh (.mldb fm gr vs f) s = true →
     fdOk { fb := some matFmt, kdep := true, noBlock := true } fd = true → (isTb8 c = true ∨ vs = 0) →
     noSlots (regs ++ if isTb8 c then [vs] else []) s.h = true →
     (∀ r ∈ regs ++ (if isTb8 c then [vs] else []), s.h.deadBit (vBit r) = false) →
     ∃ t m, exec (.mldb fm gr vs f) s = .next t ∧ (t.gangOf s.h.gang).map (·.mat) = some m ∧ m.fmt = c ∧ m.k = k ∧
       (∀ i < 131072, m.tile.getLsbD i = (decide (i < bits) && (s.h.getV (BitVec.ofNat 5 (8 * gr.toNat + i / g.rb))).bits.getLsbD (i % g.rb))) ∧
       (∀ i < 4096, m.scale.getLsbD i = (decide (i < 8 * ns) && (s.h.getV vs).bits.getLsbD i)) ∧
       m.slots = g.mat.slots ∧ m.head = g.mat.head ∧ m.tail = g.mat.tail ∧ m.queue = g.mat.queue ∧
       Passed fm s t ∧ VesKept s t ∧ RestSame { s with gangs := t.gangs } t ∧
       t.h = { s.h with pc := t.h.pc, park := none, ves := t.h.ves, vcm := t.h.vcm }) ∧
  (∀ (fm : Form) (d f y : BitVec 6) (a : BitVec 3) (s : State) (g : Gang),
     let mat := fun (t : State) => (t.gangOf s.h.gang).map (·.mat)
     let x := g.mat.slot a
     let row := x.row (g.cols x.kind) ((s.h.getX y).toNat / 2 ^ 16 % 128 % matRows x.kind)
     let st := fun (z : SlotSt) => match z with | .free => 0 | .opened => 1 | .sealed => 2 | .draining => 3
     let frame := fun (t : State) => Passed fm s t ∧ VesKept s t ∧ RestSame { s with gangs := t.gangs } t
     s.gangOf s.h.gang = some g → g.desc.mat = true → alone s = true →
     ((g.mat.slot g.mat.head).st = .free ∨ (g.mat.slot g.mat.head).st = .opened →
       ∃ t m, exec (.mseal fm d) s = .next t ∧ frame t ∧ mat t = some m ∧ m.head = g.mat.head + 1 ∧ m.tail = g.mat.tail ∧
         (∀ b, m.slot b = if b = g.mat.head then { g.mat.slot b with st := .sealed } else g.mat.slot b) ∧
         (∀ r, t.h.getX r = if r = 0 then 0 else if r = d then g.mat.head.setWidth 64 else s.h.getX r)) ∧
     (x.st = .free → fdOk { fa := some matFmt, noBlock := true } (s.h.getX f) = true →
       ∃ t m, exec (.epiCfg fm a f y) s = .next t ∧ frame t ∧ mat t = some m ∧ m.head = g.mat.head ∧ (∀ r, t.h.getX r = s.h.getX r) ∧
         ∀ b, m.slot b = if b = a then { x with kind := fdFA (s.h.getX f), anchor := ((s.h.getX y).setWidth 16).toInt } else g.mat.slot b) ∧
     (row.mmas < 65536 → ∃ t v, exec (.mstat fm d a y) s = .next t ∧ WriteX fm d v s t ∧ v.toNat / 2 ^ 61 = st x.st ∧
       v.extractLsb' 58 3 = g.mat.head ∧ v.extractLsb' 55 3 = g.mat.tail ∧ v.getLsbD 52 = row.inx ∧
       v.getLsbD 51 = row.elts.any (·.nar) ∧ v.getLsbD 50 = row.elts.any (·.ovf.isSome) ∧ v.getLsbD 49 = row.psn ∧
       v.toNat % 2 ^ 16 = row.mmas))

/-- R83, R84, R264, R266, R267: each form of `mma` adds to every column of one row of slot H the products of the selected elements of A and the
tile, in tb8 scaled by those of their blocks, where format and depth agree with the tile's tag and the slot's kind: the exact total, rounded once
to the element's unit, or its sign as an overflow; a not-a-real term sets the flag. It opens a FREE slot.

R270, R276: `mpeek` reads out a row: each accumulator's exact value, or not-a-real, or its overflow, rounded to the format of the descriptor.

The order of checks and the read-out of an overflow are the model's readings (log entry 32), and so are that overflow is tested on the rounded
total (log entry 76) and that nothing is added beside a not-a-real term (log entry 93). -/
def Obligations.MatrixMultiplies : Prop :=
  (∀ (fm : Form) (r a v : BitVec 5) (m f : BitVec 3) (s : State) (g : Gang),
     let fd := fdValue fm f s.h
     let c := fdFA fd
     let kd := 128 / 2 ^ fdKdep fd
     let w := fmtWidth c
     let word := (s.h.getX (r.setWidth 6)).toNat
     let vz : BitVec 5 := (e5Of fm).setWidth 5
     let x := g.mat.slot g.mat.head
     let row := word / 2 ^ 16 % 128 % matRows x.kind
     let n := g.cols c
     let old := x.row n row
     let unit : Int := if c = 8 then -24 else if c = 9 then -56 else x.anchor - 96
     let top := if c = 8 then 63 else 127
     let seg := fun (per : Nat) => word % 256 % (g.rb / (per * w))
     let elt := fun e => (s.h.getV a).elt w e
     let tile := fun k j => g.mat.tile.toNat / 2 ^ ((k * n + j) * w) % 2 ^ w
     let scaleB := fun k j => g.mat.scale.toNat / 2 ^ (8 * (k / 32 * n + j)) % 256
     let real := fun p => (ratOf (valueOf c p)).getD 0
     let does := fun (i : Instr) (k : MmaForm) (rs : List (BitVec 5)) =>
       let terms := mmaTerms s.h g.rb kd w (word % 256) a k
       let sel := match k with | .s24 _ => seg (kd / 2) | _ => seg kd
       let picked : List (Nat × Nat) := match k with
         | .plain => (List.range kd).map fun j => (elt (sel * kd + j), j)
         | .s24 m => (List.range (kd / 2)).map fun j =>
             let b := sel * kd % s.h.grant 8 + 2 * j
             (elt (sel * (kd / 2) + j), 4 * (j / 2) + ((s.h.getM m).getLsbD b).toNat + 2 * ((s.h.getM m).getLsbD (b + 1)).toNat)
         | .indexed v => (List.range kd).map fun j => (elt (sel * kd + j), (s.h.getV v).elt 8 (sel * kd + j))
       let used := picked.filter fun t => decide (t.2 < kd)
       let scaleA := fun k => (s.h.getV vz).elt 8 ((sel * kd + k) / 32)
       let weight : Nat → Nat → ℚ := fun k j => if isTb8 c then 2 ^ ((scaleA k : Int) + scaleB k j - 254) else 1
       let bad := fun j => ∃ t ∈ used, valueOf c t.1 = .nar ∨ valueOf c (tile t.2 j) = .nar ∨
         (isTb8 c = true ∧ (scaleA t.2 = 255 ∨ scaleB t.2 j = 255))
       let total : Accum → Nat → ℚ := fun e j => e.v * 2 ^ unit + (used.map fun t => real t.1 * real (tile t.2 j) * weight t.2 j).sum
       let sums := fun (e b : Accum) (j : Nat) =>
         (bad j → b = { e with nar := true }) ∧ (¬ bad j → e.nar = true ∨ e.ovf.isSome = true → b = e) ∧
         (¬ bad j → e.nar = false → e.ovf = none → ∀ q : Int, |total e j - q * 2 ^ unit| * 2 ≤ 2 ^ unit →
           (|total e j - q * 2 ^ unit| * 2 = 2 ^ unit → q % 2 = 0) →
           b = if -2 ^ top ≤ q ∧ q < 2 ^ top then { e with v := q } else { e with ovf := some (decide (q < 0)) })
       named i s = true → noSlots (rs ++ if isTb8 c then [vz] else []) s.h = true → terms.2.all (fun t => !t.p) = true →
       ∃ t mat y, exec i s = .next t ∧ (t.gangOf s.h.gang).map (·.mat) = some mat ∧ (mat.slot g.mat.head).st = .opened ∧
         (mat.slot g.mat.head).row n row = y ∧ y.elts.length = old.elts.length ∧
         (∀ j e, old.elts[j]? = some e → ∃ b, y.elts[j]? = some b ∧ sums e b j) ∧
         (∀ j, j ≠ row → (mat.slot g.mat.head).row n j = x.row n j) ∧ (∀ b, b ≠ g.mat.head → mat.slot b = g.mat.slot b) ∧
         mat.tile = g.mat.tile ∧ mat.head = g.mat.head ∧ mat.tail = g.mat.tail ∧ Passed fm s t ∧ VesKept s t ∧
         RestSameC { s with gangs := t.gangs } t ∧ t.h = { s.h with pc := t.h.pc, park := none, ves := t.h.ves, vcm := t.h.vcm }
     s.gangOf s.h.gang = some g → g.desc.mat = true → (x.st = .free ∨ x.st = .opened) → x.kind = c → g.mat.fmt = c → g.mat.k = kd →
     fdOk { fa := some matFmt, fb := some matFmt, dst := some matFmt, kdep := true, noBlock := true } fd = true → fdFB fd = c → fdDst fd = c →
     g.mat.tilePsn = 0 → g.mat.scalePsn = 0 →
     (if isTb8 c then (∃ e l, fm = .ext e ∨ fm = .extLit e l) ∧ s.h.deadBit (vBit vz) = false ∧ (s.h.getV vz).psn = 0 else e5Of fm = 0) →
     does (.mma fm r a f) .plain [a] ∧ does (.mmaS24 fm r a m f) (.s24 m) [a] ∧
     (isTb8 c = false → does (.mmaX fm r a v f) (.indexed v) [a, v])) ∧
  (∀ (fm : Form) (d : BitVec 5) (a : BitVec 3) (r : BitVec 6) (s : State) (g : Gang),
     let fd := match fm with | .ext e | .extLit e _ => s.h.getX e.fdx | _ => 0
     let x := g.mat.slot a
     let row := x.row (g.cols x.kind) ((s.h.getX r).toNat / 2 ^ 16 % 128 % matRows x.kind)
     let unit : Int := if x.kind = 8 then -24 else if x.kind = 9 then -56 else x.anchor - 96
     let value := fun (e : Accum) =>
       if e.nar then Val.nar
       else match e.ovf with
         | some neg => if fdDst fd ≤ 2 && !fdSat fd then .inf neg else .num neg 1 5000
         | none => if e.v = 0 then .zero false else .num (e.v < 0) e.v.natAbs unit
     s.gangOf s.h.gang = some g → g.desc.mat = true → named (.mpeek fm d a r) s = true → noSlots [d] s.h = true →
     fdOk { dst := some isFloating, rounds := true } fd = true → fdSub fd = false → row.elts.length ≤ 128 →
     ∃ t, exec (.mpeek fm d a r) s = .next t ∧ VDone fm d (fmtWidth (fdDst fd)) (fun n => (row.elts[n]?).map fun e =>
       ((RCtx.mk fd s.h.sseed s.h.sbase).roundNoSub (fdDst fd) n (value e), row.psn)) s t)

/-- R274, R275, R278, R139: `epi.go` accepts a command: its record is queued with what it captured, and its writes hold an entry of the interlock
table. Stated for a record without a bias.

R277: `epi.go.ld` adds a source element to each accumulator that its record names, in slot H, which it opens. -/
def Obligations.EpilogueCommands : Prop :=
  (∀ (fm : Form) (b : BitVec 6) (s : State) (g : Gang) (raw : List Byte),
     let r := epiRec raw
     let nb := fmtWidth (fdDst r.ofd) / 8
     let still := fun (n : Nat) (va : DWord) => (mapsStill s va.toNat .write).isSome && decide (va.toNat % 64 + n ≤ 64)
     s.gangOf s.h.gang = some g → g.desc.mat = true → alone s = true → g.mat.queue.length < 8 → (s.h.getX b).toNat % 64 = 0 →
     recordAs s false (s.h.getX b) 64 = some raw → r.ok false (g.cols 8) = true → r.ben = false → s.h.arit = [] → s.h.stbuf = [] →
     r.cells.all (fun x => still nb x.2.2) = true → (isTb8 (fdDst r.ofd) = true → r.scales.all (still 1) = true) →
     ∃ t m l, exec (.epiGo fm b) s = .next t ∧ (t.gangOf s.h.gang).map (·.mat) = some m ∧ m.accepted = g.mat.accepted + 1 ∧
       m.queue = g.mat.queue ++ [{ n := g.mat.accepted, gh := s.h.gh, asn := s.h.asn, prv := s.h.status.prv, seed := s.h.sseed,
                                   base := s.h.sbase, record := raw, bias := [] }] ∧
       (∀ a, m.slot a = g.mat.slot a) ∧ t.h.arit = [l] ∧ l.own = .epilogue g.mat.accepted ∧ l.space = .glob ∧ l.write = true ∧
       (∀ x ∈ r.cells, l.lo ≤ x.2.2.toNat ∧ x.2.2.toNat + nb ≤ l.hi) ∧ Passed fm s t ∧ (∀ r, t.h.getX r = s.h.getX r) ∧ t.mem = s.mem) ∧
  (∀ (fm : Form) (b : BitVec 6) (s : State) (g : Gang) (raw : List Byte) (val : Nat → Nat → Nat),
     let r := epiRec raw
     let c := fdFA r.ofd
     let nb := fmtWidth c / 8
     let x := g.mat.slot g.mat.head
     let n := g.cols x.kind
     let row := fun i => (r.row0 + i) % matRows x.kind
     s.gangOf s.h.gang = some g → g.desc.mat = true → alone s = true → (x.st = .free ∨ x.st = .opened) → g.mat.queue.length < 8 →
     (s.h.getX b).toNat % 64 = 0 → recordAs s false (s.h.getX b) 64 = some raw → r.ok true (g.cols 8) = true → s.h.arit = [] → s.h.stbuf = [] →
     r.nrow ≤ matRows x.kind → (∀ i, (x.row n i).elts.length = n) →
     (∀ i < r.nrow, ∀ j < r.ncol, readsAs s false (r.addr i j) nb = some (val i j)) →
     ∃ t m, exec (.epiGoLd fm b) s = .next t ∧ (t.gangOf s.h.gang).map (·.mat) = some m ∧ Passed fm s t ∧ t.mem = s.mem ∧
       (∀ k, t.h.getX k = s.h.getX k) ∧ (∀ a, a ≠ g.mat.head → m.slot a = g.mat.slot a) ∧ (m.slot g.mat.head).st = .opened ∧
       (∀ i < r.nrow, ∀ j < n, ∀ a, (x.row n (row i)).elts[j]? = some a →
         ((m.slot g.mat.head).row n (row i)).elts[j]? = some (if j < r.ncol then (loadAcc x c (val i j) a).1 else a)) ∧
       (∀ k, (∀ i < r.nrow, row i ≠ k) → (m.slot g.mat.head).row n k = x.row n k))

/-- R275, R276, R260: the epilogue engine writes the rows of the oldest command from slot T once it is sealed, after which the slot drains; the
slot becomes FREE when the writes are complete, the tail moves on, and the command's entry is released. Stated where each write lies in a sector
of its own pages, clean, no two share a byte, and no older write of an earlier strip interval is left (R143).

R274 to R276: the value of output element (i, n) is the exact accumulator with the bias added and the activation applied, or not-a-real, or an
infinity, which stands for the largest magnitude of the format where the activation leaves it; each is rounded once under its index as key and
written at its address, and in tb8 with the scale byte of its block. -/
def Obligations.EpilogueDrains : Prop :=
  (∀ (core : Nat) (s : State) (g : Gang) (c : EpiCmd) (rest : List EpiCmd),
    let x := g.mat.slot g.mat.tail
    let ws := (List.range (epiRec c.record).nrow).flatMap (drainRow c x (g.cols x.kind))
    let place := fun (w : DWord × List Byte × Bool) => (mapsStill s w.1.toNat .write).getD (0, 0)
    s.matGang core = some g → s.gangOf g.key = some g → g.mat.queue = c :: rest →
    (x.st = .sealed → s.h.live = true → s.h.gang = g.key → s.h.gh = c.gh → s.h.asn = c.asn → s.h.status.prv = c.prv → s.h.id.core = core →
      s.h.engineMay (.epilogue c.n) = true →
      (∀ w ∈ ws, (mapsStill s w.1.toNat .write).isSome = true ∧ w.1.toNat % 64 + w.2.1.length ≤ 64 ∧
        cleanSector s w.1.toNat (place w).1 (place w).2 = true) →
      ws.Pairwise (fun v w => (place v).1 + v.2.1.length ≤ (place w).1 ∨ (place w).1 + w.2.1.length ≤ (place v).1) →
      ∃ t m, exec (.epilogueDrain core) s = .next t ∧ (t.gangOf g.key).map (·.mat) = some m ∧ (m.slot g.mat.tail).st = .draining ∧
        (∀ w ∈ ws, cellsRead t.mem (place w).1 w.2.1.length = w.2.1) ∧
        (∀ a, (∀ w ∈ ws, a < (place w).1 ∨ (place w).1 + w.2.1.length ≤ a) → cellsGet t.mem a = cellsGet s.mem a)) ∧
    (x.st = .draining → (∀ g ∈ s.gangs, g.fate = .runs) → ∃ t m, exec (.slotFree core) s = .next t ∧ (t.gangOf g.key).map (·.mat) = some m ∧
      m.slot g.mat.tail = { kind := x.kind, anchor := x.anchor, st := .free, rows := [] } ∧ m.tail = g.mat.tail + 1 ∧ m.queue = rest ∧
      t.mem = s.mem ∧ (s.h.live = true → s.h.gang = g.key → s.h.gh = c.gh →
        t.h.arit = s.h.arit.filter fun l => l.own != .epilogue c.n))) ∧
  (∀ (c : EpiCmd) (x : MSlot) (cols i n : Nat) (b : ℚ),
    let word := fun k => leNat ((c.record.drop (8 * k)).take 8)
    let r := epiRec c.record
    let dst := fdDst r.ofd
    let rc : RCtx := { d := BitVec.ofNat 64 (word 6), seed := c.seed, base := c.base }
    let ncol := word 7 / 2 ^ 8 % 256
    let act := word 7 / 2 ^ 32 % 8
    let fmt := word 7 / 2 ^ 36 % 64
    let row := x.row cols ((word 7 / 2 ^ 24 % 128 + i) % matRows x.kind)
    let at' : Nat → DWord := fun n => BitVec.ofNat 64 (word 0) + BitVec.ofNat 64 i * BitVec.ofNat 64 (word 1) + BitVec.ofNat 64 n * BitVec.ofNat 64 (word 2)
    let scaleAt : Nat → DWord := fun k => BitVec.ofNat 64 (word 3) + BitVec.ofNat 64 i * BitVec.ofNat 64 (word 4) + BitVec.ofNat 64 k
    let key := fun n => i * ncol + n
    let nc := min ncol cols
    let block := fun k => (List.range nc).filter (· / 32 == k)
    let y := drainVal r c.bias x row
    let byte := fun k => tb8Scale rc.d ((block k).map y)
    let e := row.elts.getD n { }
    let unit : Int := if x.kind = 8 then -24 else if x.kind = 9 then -56 else x.anchor - 96
    let sum : ℚ := e.v * 2 ^ unit + b
    let biased := if (word 7).testBit 35 then ∃ z, sourceVal rc.d dst fmt (c.bias.getD n 0) = some z ∧ ratOf z = some b else b = 0
    (e.nar = true → y n = .nar) ∧
    (e.nar = false → e.ovf = none → act < 4 → biased →
      ratOf (y n) = some (if act = 1 then max sum 0 else if act = 2 then (if 0 ≤ sum then sum else sum / 8)
        else if act = 3 then min (max sum 0) 6 else sum)) ∧
    (∀ neg, e.nar = false → e.ovf = some neg → act < 4 → biased →
      (act % 2 = 1 → neg = true → ratOf (y n) = some 0) ∧ (act = 3 → neg = false → ratOf (y n) = some 6) ∧
      (act % 2 = 0 ∨ (act = 1 ∧ neg = false) →
        (∀ m, (dst, m) ∈ [(8, 8), (9, 16), (10, 32)] → rc.roundNoSub dst (key n) (y n) = if neg then 2 ^ (m - 1) + 1 else 2 ^ (m - 1) - 1) ∧
        (∀ eb mb, (dst, eb, mb) ∈ [(0, 8, 23), (1, 5, 10), (2, 11, 52)] → rc.roundNoSub dst (key n) (y n) =
          (if neg then 2 ^ (eb + mb) else 0) + (2 ^ eb - 1) * 2 ^ mb - if fdSat rc.d then 1 else 0))) ∧
    (isTb8 dst = false → ∀ w, w ∈ drainRow c x cols i ↔
      ∃ n < nc, w = (at' n, leBytes (fmtWidth dst / 8) (rc.roundNoSub dst (key n) (y n)), row.psn)) ∧
    (isTb8 dst = true → ∀ w, w ∈ drainRow c x cols i ↔
      (∃ n < nc, w = (at' n, [BitVec.ofNat 8 (tb8Code rc (byte (n / 32)) (key n) (y n))], row.psn)) ∨
      ∃ k, 32 * k < nc ∧ w = (scaleAt k, [BitVec.ofNat 8 (byte k)], row.psn)))

/-- R283 to R285, R287, R290, R291, R139: `cpy.go` queues a command under the next handle, with what it captured and two entries of the
interlock table.

R286, R288, R289, R293, R294: a queued command runs; a running one whose access failed becomes FAULTED and sets evt.CPY; and one without a failure
completes: every destination element holds the bytes of its source, its entries are released, and evt.CPY is set. Completion is stated for
a move without conversion between global ranges that do not share a byte, of clean bytes that no write changed meanwhile, by the
hart in focus, into no table entry, with no older write of an earlier strip interval left (R143). A command one of whose source bytes a write changed is marked after that move, and completes with its
destination undefined.

The order of reading and checking the record, and how a changed source is found, are the model's readings (log entries 33 and 80). -/
def Obligations.CopyCommands : Prop :=
  (∀ (fm : Form) (d b : BitVec 6) (t : Bool) (s : State) (r : List Byte) (p : Shape),
     let n := s.h.copyCount + 1
     alone s = true → (s.h.getX b).toNat % 64 = 0 → recordAs s t (s.h.getX b) 256 = some r → parseShape r = some p → s.h.arit = [] →
     s.h.stbuf = [] →
     ∃ u l m src, exec (.cpyGo fm d b t) s = .next u ∧ u.h.copyCount = n ∧
       u.h.copies = s.h.copies ++ [{ handle := n, st := .queued, record := r, sseed := s.h.sseed, sbase := s.h.sbase, prv := s.h.status.prv,
                                     src := src }] ∧
       (∀ k, u.h.getX k = if k = 0 then 0 else if k = d then BitVec.ofNat 64 n else s.h.getX k) ∧
       u.h.arit.filter (!·.part) = [l, m] ∧ (∀ k ∈ u.h.arit, k.own = .copy n ∧ k.strip = s.h.strip) ∧ l.own = .copy n ∧ l.write = false ∧ m.own = .copy n ∧ m.write = true ∧
       (p.sspc = 0 → l.space = .glob ∧ (l.lo, l.hi) = p.srcRange) ∧ (p.dspc = 0 → m.space = .glob ∧ (m.lo, m.hi) = p.dstRange) ∧
       Passed fm s u ∧ VesKept s u ∧ RestSame s u ∧
       u.h = { s.h with x := u.h.x, copies := u.h.copies, copyCount := n, arit := u.h.arit, pc := u.h.pc, park := none, ves := u.h.ves,
                        vcm := u.h.vcm }) ∧
  (∀ (s : State) (n : Nat) (c : CopyCmd) (j : CopyJob),
     let cmd := fun (t : State) => t.h.copies.find? (·.handle == n)
     let src := fun (e : CopyElem) => (mapsStill s e.sa.toNat .read).getD (0, 0)
     let dst := fun (e : CopyElem) => (mapsStill s e.da.toNat .write).getD (0, 0)
     let z := 2 ^ j.p.esz
     let apart := fun (a b : Nat) => a + z ≤ b ∨ b + z ≤ a
     s.h.live = true → s.h.copies.find? (·.handle == n) = some c → s.copyJob s.h c = some j →
     (c.st = .queued → (j.failures s).1.all (fun x => x.1 != 0) = true →
       ∃ t e, exec (.copyTransfer s.h.id n) s = .next t ∧ cmd t = some e ∧ e.st = .running ∧ (e.code = 0 ↔ (j.failures s).1 = []) ∧
         t.h.pc = s.h.pc ∧ ∀ k, t.h.getX k = s.h.getX k) ∧
     (c.st = .running → c.code ≠ 0 → ∃ t, exec (.copyFault s.h.id n) s = .next t ∧ cmd t = some { c with st := .faulted } ∧
       t.h.evtCpy = true ∧ MemSame s t) ∧
     (c.st = .running → c.code = 0 → c.prv = s.h.status.prv → j.p.conv = false → j.p.sspc = 0 → j.p.dspc = 0 → j.overlaps s = false →
       s.h.engineMay (.copy n) = true → c.bad = false → s.changed = [] → differs c.src (j.look s) = false →
       (∀ e ∈ j.p.elems, (mapsStill s e.sa.toNat .read).isSome = true ∧ e.sa.toNat % 64 + z ≤ 64 ∧
         cleanSector s e.sa.toNat (src e).1 (src e).2 = true ∧ (mapsStill s e.da.toNat .write).isSome = true ∧
         e.da.toNat % 64 + z ≤ 64 ∧ cleanSector s e.da.toNat (dst e).1 (dst e).2 = true ∧ offTables s (dst e).1 z = true) →
       (∀ e ∈ j.p.elems, ∀ e' ∈ j.p.elems, apart (src e).1 (dst e').1 ∧ (e ≠ e' → apart (dst e).1 (dst e').1)) →
       ∃ t, exec (.copyComplete s.h.id n) s = .next t ∧ cmd t = none ∧ t.h.evtCpy = true ∧
         t.h.arit = s.h.arit.filter (fun l => l.own != .copy n) ∧
         (∀ e ∈ j.p.elems, cellsRead t.mem (dst e).1 z = cellsRead s.mem (src e).1 z) ∧
         ∀ a, (∀ e ∈ j.p.elems, a < (dst e).1 ∨ (dst e).1 + z ≤ a) → cellsGet t.mem a = cellsGet s.mem a) ∧
     ((∃ x ∈ j.sourceLocs s, x ∈ s.changed) → (s.watchCopies.h.copies.find? (·.handle == n)).map (·.bad) = some true) ∧
     (c.st = .running → c.code = 0 → c.bad = true → s.h.engineMay (.copy n) = true → j.p.dspc = 0 → (j.failures s).1 = [] →
       ∃ t, exec (.copyComplete s.h.id n) s = .next t ∧ cmd t = none ∧ t.h.evtCpy = true ∧
         t.h.arit = s.h.arit.filter (fun l => l.own != .copy n)))

/-- R292, R293, R295: waiting for copies. With none at or below the handle, `cpy.wait` goes on; with one FAULTED, it raises the cause and address of
the lowest, which becomes REPORTED; else it parks. Dropping gives up the commands that have stopped and counts them; polling reads a command. -/
def Obligations.CopyWaits : Prop :=
  ∀ (fm : Form) (d x : BitVec 6) (s : State),
    let n := (s.h.getX x).toNat
    let cs := s.h.copies.filter fun c => decide (c.handle ≤ n)
    s.cv.active = false →
    (cs = [] → ∃ t, exec (.cpyWait fm x) s = .next t ∧ Passed fm s t ∧ RestSame s t ∧ VesKept s t ∧
      t.h = { s.h with pc := t.h.pc, park := none, ves := t.h.ves, vcm := t.h.vcm }) ∧
    (∀ c ∈ cs, c.st = .faulted → (∀ e ∈ cs, e.st = .faulted → c.handle ≤ e.handle) → (∀ e ∈ cs, e.handle = c.handle → e = c) →
      ∃ t, exec (.cpyWait fm x) s = .next t ∧ t.h.cause = { int := false, acode := 0, code := BitVec.ofNat 8 c.code } ∧ t.h.tval = c.addr ∧
        t.h.epc.toNat = s.h.pc.toNat % 2 ^ 57 / 4 * 4 ∧
        t.h.copies = s.h.copies.map fun e => if e.handle = c.handle then { e with st := .reported } else e) ∧
    (cs ≠ [] → (∀ c ∈ cs, c.st ≠ .faulted) → ∃ t, exec (.cpyWait fm x) s = .next t ∧
      t.h.park = some (.wait (.cpyWait fm x) 0xA none 0) ∧ t.h.pc = s.h.pc ∧
      t.h.copies = s.h.copies.map fun e => if e.handle ≤ n ∧ e.st = .reported then { e with st := .queued } else e) ∧
    ((∀ c ∈ cs, c.st = .faulted ∨ c.st = .reported) → ∃ t, exec (.cpyWaitDrop fm d x) s = .next t ∧ Passed fm s t ∧ RestSame s t ∧
      t.h.copies = s.h.copies.filter (fun c => decide (n < c.handle)) ∧
      t.h.arit = s.h.arit.filter (fun l => cs.all fun c => l.own != .copy c.handle) ∧
      (∀ k, t.h.getX k = if k = 0 then 0 else if k = d then BitVec.ofNat 64 cs.length else s.h.getX k)) ∧
    ((∃ c ∈ cs, c.st = .queued ∨ c.st = .running) → ∃ t, exec (.cpyWaitDrop fm d x) s = .next t ∧ t.h.pc = s.h.pc ∧
      t.h.park = some (.wait (.cpyWaitDrop fm d x) 0xA none 0) ∧ t.h.copies = s.h.copies) ∧
    (s.h.copies.length < 2 ^ 48 → (∀ c ∈ s.h.copies, c.code < 2 ^ 14) → ∃ t v, exec (.cpyPoll fm d x) s = .next t ∧ WriteX fm d v s t ∧ v.toNat % 2 ^ 48 = s.h.copies.length ∧
      v.toNat / 2 ^ 62 = (match s.h.copies.find? (·.handle == n) with
        | none => 0
        | some c => match c.st with | .queued | .running => 1 | .faulted => 2 | .reported => 3))

/-- R301 to R305, R307, R309, R310, R312, R314, R315, R319: a launch makes the node that its records describe, under the first free entry's next
identifier, which it writes to xd: one deeper than its launcher (R315), with the larger of the two priorities and in the launcher's queue (R312),
and a copy node with its launcher's stream seed and base (R309). A predecessor that is not finished gains it as a successor and adds to its count,
one that completed or is not remembered counts for nothing, and one with another outcome cancels it. A malformed record gives its code, a
predecessor with 16 successors gives 4; a full pool gives 3 to `launch.try` and parks `launch`; a task at the greatest depth raises 0x90 (R315).

The order of entries and of checks is the model's reading (log entries 25 and 42). -/
def Obligations.Launches : Prop :=
  ∀ (fm : Form) (d b : BitVec 6) (s : State) (g : Gang) (n : Node) (l r : List Byte),
    let launch := Instr.launch fm d b
    let try_ := Instr.launchTry fm d b
    let gen : Nat := ((s.entries.find? (·.idx == s.shared.fresh)).map (·.gen)).getD 0
    let id := (if gen + 1 < 2 ^ 19 then gen + 1 else 1) * 8192 + s.shared.fresh
    let code := launchCode l r
    let desc := BitVec.ofNat 64 (leNat (l.take 8))
    let kind := ((l.getD 24 0).toNat) % 4
    let len := if kind = 0 then 64 else if kind = 1 then 256 else 0
    let reads := (s.h.getX b).toNat % 64 = 0 ∧ s.h.stbuf = [] ∧
      ((s.h.park = none ∧ s.h.arit = [] ∧ recordAs s false (s.h.getX b) 128 = some l ∧ recordAs s false desc len = some r) ∨
        ∃ i, s.h.park = some (.entry i l r))
    s.gangOf s.h.gang = some g → s.node g.node = some n → s.cv.active = false →
    (7 ≤ n.depth → ∀ i ∈ [launch, try_], ∃ t, exec i s = .next t ∧ Entered 0x90 (BitVec.ofNat 64 n.id) s.h.pc s t) ∧
    (n.depth < 7 → reads → code ≠ 0 → ∀ i ∈ [launch, try_], ∃ t, exec i s = .next t ∧ WriteX fm d (BitVec.ofNat 64 (2 ^ 63 + code)) s t) ∧
    (∀ p, n.depth < 7 → reads → code = 0 → parseLaunch l = some p → (∀ m ∈ s.nodes, m.st ≠ .finished) →
      let named := p.preds.filter (· != 0)
      ((∃ q ∈ named, ∃ m, s.node q = some m ∧ 16 ≤ m.succs.length) →
        ∀ i ∈ [launch, try_], ∃ t, exec i s = .next t ∧ WriteX fm d (BitVec.ofNat 64 (2 ^ 63 + 4)) s t) ∧
      (s.shared.fresh < s.shared.last → (∀ m ∈ s.nodes, m.id ≠ id) → (∀ q ∈ named, ∀ m, s.node q = some m → m.succs.length < 16) →
        ((∀ q ∈ named, s.node q = none → s.outcomeOf q = none ∨ s.outcomeOf q = some .complete) → ∀ i ∈ [launch, try_],
          ∃ t m, exec i s = .next t ∧ t.node id = some m ∧ m.count = named.countP (fun q => (s.node q).isSome) ∧ m.succs = [] ∧
            m.st = (if p.hold then .held else if m.count = 0 then .ready else .waiting) ∧ Passed fm s t ∧
            (∀ k, k ≠ id → t.node k = (s.node k).map fun q => { q with succs := q.succs ++ List.replicate (named.count k) id }) ∧
            ∀ k, t.h.getX k = if k = 0 then 0 else if k = d then BitVec.ofNat 64 id else s.h.getX k) ∧
        ((∃ q ∈ named, s.node q = none ∧ s.outcomeOf q ≠ none ∧ s.outcomeOf q ≠ some .complete) → ∀ i ∈ [launch, try_],
          ∃ t, exec i s = .next t ∧ t.outcomeOf id = some .cancelled ∧ Passed fm s t ∧
            ∀ k, t.h.getX k = if k = 0 then 0 else if k = d then BitVec.ofNat 64 id else s.h.getX k))) ∧
    (∀ p, n.depth < 7 → reads → code = 0 → parseLaunch l = some p → (∀ q ∈ p.preds, q = 0) → (∀ m ∈ s.nodes, m.st ≠ .finished) →
      (s.shared.fresh < s.shared.last → (∀ m ∈ s.nodes, m.id ≠ id) → ∀ i ∈ [launch, try_],
        ∃ t m, exec i s = .next t ∧ t.node id = some m ∧ m.st = (if p.hold then .held else .ready) ∧ m.task = !p.copy ∧
          m.depth = n.depth + 1 ∧ m.prio = max p.prio n.prio ∧ m.asn = s.h.asn ∧ m.queue = n.queue ∧ m.parent = n.id ∧
          m.launcher = some (s.h.gang, s.h.gh) ∧ m.crec = p.crec ∧ m.save = p.save ∧ m.args = p.args ∧ m.count = 0 ∧ m.succs = [] ∧
          (p.copy = false → parseDesc r = some m.desc ∧ m.toStart = List.range m.desc.gangs ∧ m.unended = m.desc.gangs) ∧
          (p.copy = true → m.shape = r ∧ m.sseed = s.h.sseed ∧ m.sbase = s.h.sbase) ∧
          (∀ k, k ≠ id → t.node k = s.node k) ∧ MemSame s t ∧ t.gangs = s.gangs ∧ Passed fm s t ∧
          ∀ k, t.h.getX k = if k = 0 then 0 else if k = d then BitVec.ofNat 64 id else s.h.getX k) ∧
      (s.takeEntry (n.depth + 1) = none →
        (∃ t, exec try_ s = .next t ∧ WriteX fm d (BitVec.ofNat 64 (2 ^ 63 + 3)) s t) ∧
        (∃ t, exec launch s = .next t ∧ RestSame s t ∧ t.h = { s.h with park := some (.entry launch l r), resumed := resumedNow s })))

/-- R305, R307, R316, R317: `tdep` of identifier 0 releases a held node of the task; of an unfinished node it adds an edge; of a finished one that
completed, nothing. An identifier that is no held node of the task gives 5. `twait` gives a finished node's word, and its entry returns to the
pool; zero for no node; and it parks while the node is unfinished.

R297, R318, R304, R325: `texit` ends its hart, and leaves the exit code and the number of copies given up in its task; the last hart of a gang ends
the gang, and the last gang finishes the task. `texit.sv` gives zero where no save window is lent to the hart; with one, everything the hart
wrote performs, and it parks until its slots are drained.

A task that finishes leaves its outcome, its completion record and evt.CHLD, releases the held nodes that it launched, and counts its
successors down, or cancels them when it failed. When the exit code appears, and the user rights under which the record is written, are the model's readings (log entries 44 and 43). -/
def Obligations.EdgesWaitsAndExits : Prop :=
  (∀ (fm : Form) (d x p : BitVec 6) (s : State),
     let xp := (s.h.getX p).toNat
     let node := s.node (s.h.getX x).toNat
     let regs := fun (v : DWord) (t : State) => (∀ k, t.h.getX k = if k = 0 then 0 else if k = d then v else s.h.getX k) ∧ Passed fm s t ∧ MemSame s t
     alone s = true →
     ((∀ n, node = some n → n.st ≠ .held ∨ n.parent ≠ s.taskOf s.h) →
       ∃ t, exec (.tdep fm d x p) s = .next t ∧ WriteX fm d (BitVec.ofNat 64 (2 ^ 63 + 5)) s t) ∧
     (∀ n, node = some n → n.st = .held → n.parent = s.taskOf s.h →
       (xp = 0 → ∃ t m, exec (.tdep fm d x p) s = .next t ∧ regs 0 t ∧ t.node n.id = some m ∧ m.st = (if n.count = 0 then .ready else .waiting) ∧
         m = { n with st := m.st, readyNo := m.readyNo, since := m.since } ∧ ∀ k, k ≠ n.id → t.node k = s.node k) ∧
       (∀ q, xp ≠ 0 → s.node xp = some q → q.st ≠ .finished →
         (q.succs.length < 16 → ∃ t, exec (.tdep fm d x p) s = .next t ∧ regs 0 t ∧ t.nodes = s.nodes.map (fun m =>
           { m with succs := if m.id = xp then m.succs ++ [n.id] else m.succs, count := if m.id = n.id then m.count + 1 else m.count })) ∧
         (16 ≤ q.succs.length → ∃ t, exec (.tdep fm d x p) s = .next t ∧ WriteX fm d (BitVec.ofNat 64 (2 ^ 63 + 4)) s t)) ∧
       (xp ≠ 0 → (∀ q, s.node xp = some q → q.st = .finished) → (∀ e ∈ s.entries, e.idx = xp % 8192 → e.gen = xp / 8192 →
           e.outcome = none ∨ e.outcome = some .complete) →
         ∃ t, exec (.tdep fm d x p) s = .next t ∧ WriteX fm d 0 s t)) ∧
     (node = none → ∃ t, exec (.twait fm d x) s = .next t ∧ WriteX fm d 0 s t) ∧
     (∀ n, node = some n →
       (n.st = .finished → (∀ h ∈ s.harts, h.live = true → h.awaits ≠ some n.id) →
         ∃ t, exec (.twait fm d x) s = .next t ∧ regs n.word t ∧ t.node n.id = none) ∧
       (n.st ≠ .finished → ∃ t, exec (.twait fm d x) s = .next t ∧ RestSame s t ∧
         t.h = { s.h with park := some (.wait (.twait fm d x) 8 none 0), resumed := resumedNow s }))) ∧
  (∀ (fm : Form) (d a x : BitVec 6) (s : State) (g : Gang) (n : Node),
     let code := (s.h.getX a).toNat % 65536
     s.gangOf s.h.gang = some g → s.node g.node = some n → alone s = true → s.h.live = true → s.h.stbuf = [] →
     (∀ k ∈ s.gangs, k.fate = .runs) → (s.gangs.map (·.key)).Nodup →
     (s.h.copies.all (fun c => c.st == .faulted || c.st == .reported) = true → ∃ t, exec (.texit fm a) s = .next t ∧ t.hartAt s.h.id = none ∧
       ((∃ k ∈ s.harts, k.live = true ∧ k.gang = s.h.gang ∧ k.id ≠ s.h.id) → MemSame s t ∧
         (∃ m, t.node n.id = some m ∧ m.exit = n.exit ||| code ∧ m.nabn = n.nabn + s.h.copies.length ∧ m.st = n.st) ∧
         ∃ k, t.gangOf s.h.gang = some k ∧ ∀ j < 32, k.exited.getLsbD j = (g.exited.getLsbD j || j == s.h.gh)) ∧
       ((∀ k ∈ s.harts, k.live = true → k.gang ≠ s.h.gang) → g.mat.queue = [] → t.gangOf s.h.gang = none ∧
         (n.unended = 1 → n.task = true → n.st = .running → (s.nodes.map (·.id % 8192)).Nodup →
           let fails := (n.exit ||| code).testBit 15
           let lost := if n.nabn = 0 then s.h.copies.head? else none
           let word := BitVec.ofNat 64 (2 ^ 63 + (if fails then 2 ^ 60 else 0) + (match lost with | some c => c.code | none => n.abnCause) % 256 * 2 ^ 40 +
             min (n.nabn + s.h.copies.length) 255 * 2 ^ 32 + (n.exit ||| code) % 65536)
           t.outcomeOf n.id = some (if fails then .failed else .complete) ∧
           (∀ m, t.node n.id = some m → m.st = .finished ∧ m.word = word) ∧
           (∀ k ∈ s.harts, k.live = true → k.id ≠ s.h.id → n.launcher = some (k.gang, k.gh) → ∃ k' ∈ t.harts, k'.id = k.id ∧ k'.evtChld = true) ∧
           (∀ c, (fails = true → n.succs = []) → c.parent = n.id → c.st = .held → c.id ∉ n.succs → s.node c.id = some c →
             ∃ m, t.node c.id = some m ∧ m.st = (if c.count = 0 then .ready else .waiting)) ∧
           (∀ q, n.succs.count q.id = 1 → q.id ≠ n.id → s.node q.id = some q → q.st ≠ .finished →
             (fails = false → q.parent ≠ n.id → ∃ m, t.node q.id = some m ∧ m.count = q.count - 1 ∧
               m.st = (if q.st = .waiting ∧ q.count = 1 then .ready else q.st)) ∧
             (fails = true → t.outcomeOf q.id = some .cancelled)) ∧
           (∀ pa key, n.crec ≠ 0 → n.crec.toNat % 32 = 0 → mapsStill (byDevice s n.asn) n.crec.toNat .write = some (pa, key) →
             cleanSector (byDevice s n.asn) n.crec.toNat pa key = true → (fails = true → n.succs = []) →
             ∀ a, cellsGet t.mem a = if pa ≤ a ∧ a < pa + 32 then
               (leBytes 8 word.toNat ++ leBytes 8 0 ++
                 leBytes 8 (match lost with | some c => BitVec.ofNat 64 c.handle | none => n.ahnd).toNat ++ leBytes 8 s.tstamp.toNat).getD (a - pa) 0
               else cellsGet s.mem a)))) ∧
     (s.h.sv ≠ .saved → s.h.status.prv = false ∨ s.h.sv ≠ .lent → ∃ t, exec (.texitSv fm d a x) s = .next t ∧ WriteX fm d 0 s t) ∧
     (s.h.sv = .lent → s.h.status.prv = true → (s.h.getX x).getLsbD 1 = false →
       ∃ t, exec (.texitSv fm d a x) s = .next t ∧ RestSame s t ∧ t.h = { s.h with park := some (.wait (.texitSv fm d a x) 0xE none 0), resumed := resumedNow s }))

/-- R14, R310, R309, R37, R321, R324 to R326: what the launch engine and the Dealer do. A gang that may start does so with every hart at the task's
entry, its arguments in x1 to x8 and in x9 the number of the snapshot it was rolled back to (R355); one that may not, does not. What may start:
the first gang to start of the oldest task of its queue that is ready or running, is stopped by nothing and waits for no transfer of its launcher
(R308, R312, R387), while the device runs in state 0 or 1 (R399); on partitions of one core that are free, and neither disabled nor quarantined
(R15, R16), within the storage of the core and its cluster (R34), and with the matrix engine to itself (R14); and only when no task of a higher
priority can be placed (R311, R37). A ready copy node that its engine finishes is complete; one whose transfer fails has
failed, with its cause in its word, and its successors are cancelled (R304, R306). A task promoted after 2 ms. A request takes a victim and has
its priority's deadline. A save asks its next hart by interrupt 0x01; a hart whose slots are drained goes on with 1; and a saved gang whose data
reads back as it was written is placed with its storage and registers, its barriers counting on from the clk waited (R205).

The save region's layout and the order of starts are the model's readings (log entries 41, 46 and 47); the gang in which a copy node of a gang that
is gone acts (log entry 48), and that a placement which is not allowed starts nothing (log entry 67), are its choices. -/
def Obligations.LaunchEngine : Prop :=
  ∀ (s : State) (node gidx core mask : Nat) (n : Node) (r : Rota),
    let ps := maskParts mask
    let goesOn := fun (b : Bar) => { b with firstClk := s.clk - b.firstClk }
    let need := fun (d : TaskDesc) => (d.harts + 2 ^ d.split.toNat - 1) / 2 ^ d.split.toNat
    let grains := fun (n : Nat) => (n + 4095) / 4096 * 4096
    let free := fun (c p : Nat) => !s.partQuar.contains (c, p) && !s.man.off.contains (c, p) && s.gangs.all fun g => g.core != c || !g.parts.contains p
    let takes := fun (d : TaskDesc) (c : Nat) => c < 128 ∧ need d ≤ (List.range 8).countP (free c) ∧
      ((s.gangs.filter (·.core == c)).map (·.tcm.size)).sum + grains d.tcmb ≤ 393216 ∧
      ((s.gangs.filter (·.core / 4 == c / 4)).map (·.sp.size)).sum + grains d.spb ≤ 4194304 ∧
      (d.mat = true → ∀ g ∈ s.gangs, g.core = c → g.desc.mat = false)
    let wants := fun (m : Node) => m ∈ s.nodes ∧ m.task = true ∧ m.toStart ≠ [] ∧
      (m.st = .running ∨ (m.st = .ready ∧ s.stoppedAs m.asn = false ∧ s.launchHeld m = false))
    let runs := s.firm.st = 3 ∧ s.firm.pst ≤ 1 ∧ s.firm.ask = none
    let placed := fun (m : Node) => runs ∧ m.id = node ∧ wants m ∧ m.toStart.head? = some gidx ∧ takes m.desc core ∧ ps.length = need m.desc ∧
      ∀ p ∈ ps, p < 8 ∧ free core p = true
    let rate := fun (p : Nat) => if p = 0 then 10000 else if p = 1 then 50000 else if p = 2 then 250000 else 1000000
    (s.mayStart node gidx core ps = some (n, r) → placed n ∧ ∀ m, wants m →
      ((∃ c, takes m.desc c) → n.prio ≤ m.prio) ∧ (m.prio = n.prio → m.queue.getD 0 = n.queue.getD 0 → n.readyNo ≤ m.readyNo)) ∧
    (placed n → (∀ m, wants m → m = n) → n.prio < 4 → n.queue.getD 0 < 64 → n.desc.harts ≤ 32 → 1 ≤ s.weightOf (n.queue.getD 0) →
      (∀ c ∈ s.rota.cur, c.2 < 64) → (s.mayStart node gidx core ps).map (·.1) = some n) ∧
    (s.node node = some n → s.mayStart node (n.toStart.headD 0) core ps = some (n, r) → s.isSaved node (n.toStart.headD 0) = false →
      ∃ t, ∃ hs : List Hart, exec (.gangStart node core mask) s = .next t ∧ t.harts = s.harts ++ hs ∧ hs.length = n.desc.harts ∧
        (∃ g, t.gangs = s.gangs ++ [g] ∧ g.core = core ∧ g.parts = ps ∧ g.node = node ∧ g.gidx = n.toStart.headD 0 ∧ g.tcm.cells = [] ∧
          n.desc.tcmb ≤ g.tcm.size ∧ g.tcm.size < n.desc.tcmb + 4096 ∧ g.tcm.size % 4096 = 0) ∧
        ∀ (k : Nat) (h : Hart), hs[k]? = some h → h.live = true ∧ h.gh = k ∧ h.asn = n.asn ∧ h.pc = n.desc.entry ∧ h.status = { } ∧ h.vl = 0 ∧
          h.split = n.desc.split ∧ h.cur = n.desc.split ∧ h.prot = n.desc.prot ∧
          (∀ q : BitVec 6, h.getX q = if 1 ≤ q.toNat ∧ q.toNat ≤ 8 then n.args.getD (q.toNat - 1) 0 else if q = 9 then n.rolled.getD 0 else 0)) ∧
    ((∀ k, s.node node = some k → s.mayStart node (k.toStart.headD 0) core ps = none) → s.mayStart node 0 core ps = none →
      exec (.gangStart node core mask) s = .next s) ∧
    (∀ j u, s.node node = some n → n.task = false → n.st = .ready → s.stoppedAs n.asn = false → s.launchHeld n = false → s.powered = true → n.copyJob = some j →
      j.finish false (s.withGhost n) = (some none, u) →
      ∃ t, exec (.copyNodeRun node) s = .next t ∧ t.outcomeOf node = some .complete ∧ ∀ m, t.node node = some m → m.st = .finished) ∧
    (∀ j u c a, s.node node = some n → n.task = false → n.st = .ready → s.stoppedAs n.asn = false → s.launchHeld n = false → s.powered = true → n.copyJob = some j →
      j.finish false (s.withGhost n) = (some (some (c, a)), u) → n.nabn = 0 → n.exit = 0 → (s.nodes.map (·.id % 8192)).Nodup →
      ∃ t, exec (.copyNodeRun node) s = .next t ∧ t.outcomeOf node = some .failed ∧
        (∀ m, t.node node = some m → m.st = .finished ∧ m.word = BitVec.ofNat 64 (2 ^ 63 + 2 ^ 60 + c % 256 * 2 ^ 40)) ∧
        ∀ q ∈ n.succs, q ≠ node → ∀ m, s.node q = some m → m.st ≠ .finished → t.outcomeOf q = some .cancelled) ∧
    (∃ t, exec (.taskAging node) s = .next t ∧ t = { s with nodes := t.nodes } ∧ t.nodes = s.nodes.map fun m =>
      if m.id = node ∧ m.task = true ∧ m.st = .ready ∧ 0 < m.prio ∧ m.since.toNat + 2000000 ≤ s.tstamp.toNat then
        { m with prio := m.prio - 1, since := s.tstamp } else m) ∧
    (s.node node = some n → s.startable n = true → s.powered = true → s.placeable n.desc [] = false → n.req = none →
      (∀ g ∈ s.gangs, g.fate = .runs) → s.candidates n ≠ [] →
      ∃ t m q, exec (.dealerRequest node) s = .next t ∧ t.node node = some m ∧ m.req = some q ∧
        q.deadline = s.tstamp + BitVec.ofNat 64 (rate n.prio) ∧ q.taken ≠ []) ∧
    (∀ op rest, s.saves.find? (·.team.core == s.h.id.core) = some op → op.order = s.h.id :: rest → s.h.live = true →
      (∀ i ∈ op.order, ∃ h ∈ s.teamHarts op.team, h.id = i) →
      (∀ h ∈ s.allHarts, h.id.core = s.h.id.core → h.sv ≠ .asked ∧ h.sv ≠ .lent) →
      ∃ t, exec (.preemptionRequest s.h.id) s = .next t ∧ t.h = { s.h with sv := .asked, preempt := some op.deadline }) ∧
    (∀ fm d a x why arr seen, s.h.live = true → s.h.park = some (.wait (.texitSv fm d a x) why arr seen) → s.h.sv = .lent →
      s.node (s.taskOf s.h) = some n → (s.h.getX x).getLsbD 0 = false →
      (let area := n.hartArea (s.gangidOf s.h) s.h.gh
       (s.drainTo n s.h.id.core (if (s.h.getX x).getLsbD 8 then area + 131072 else area) (drainSlots (s.h.getX a) (s.h.getX x))).1 = .done) →
      ∃ t, exec (.saveWindowDrainComplete s.h.id) s = .next t ∧ t.h.park = none ∧ Passed fm s t ∧
        ∀ k, t.h.getX k = if k = 0 then 0 else if k = d then 1 else s.h.getX k) ∧
    (∀ sg u, s.mayStart node gidx core ps = some (n, r) → (s.saved.find? fun g => g.gang.node == node && g.gang.gidx == gidx) = some sg →
      { s with rota := r }.readBlocks n core sg.blocks = (.same, u) →
      ∃ t, exec (.teamRestore node gidx core mask) s = .next t ∧
        (∃ g ∈ t.gangs, g.key = sg.gang.key ∧ g.core = core ∧ g.parts = ps ∧ g.tcm = sg.gang.tcm ∧ g.sp = sg.gang.sp ∧ g.bars = sg.gang.bars.map goesOn ∧
          g.gbar = goesOn sg.gang.gbar ∧ g.mat = sg.gang.mat) ∧
        ∀ h ∈ sg.harts, ∃ k ∈ t.harts, k.gh = h.gh ∧ k.status.prv = true ∧ k.epc = h.epc ∧ k.sscr = h.sscr ∧
          ∀ fm d a x why arr seen, h.park = some (.wait (.texitSv fm d a x) why arr seen) → k.pc = h.pc + BitVec.ofNat 64 fm.len ∧
            ∀ q, k.getX q = if q = 0 then 0 else if q = d then n.hartArea sg.gang.gidx h.gh else h.getX q)

/-- R332, R336, R337, R338, R340: `dsend` queues a message of the pairs, tag, address and epoch; one for this device puts the buffer that it names
in use (R334); an address outside the extents raises 0xB1.
`drecv` of an empty buffer parks, and `drecv.try` gives bit 63; of the message in the slot at HEAD, as it was delivered, both take the pairs and give
tag, number and truncation, and the only bytes of memory that change are those of HEAD. A malformed record raises 0xB3, a message larger than the
register 0xB2.

The slots' layout is open (log entry 51); that the write of fd leaves the dirty bit of an empty register that stays empty is the model's reading of
R338 (log entry 65). -/
def Obligations.MessageInstructions : Prop :=
  ∀ (fm : Form) (f : BitVec 4) (v m d : BitVec 6) (s : State),
    let xv := (s.h.getX v).toNat
    let xm := s.h.getX m
    let dev := xv % 4096
    let inside := dev % 16 < s.man.ex ∧ dev / 16 % 16 < s.man.ey ∧ dev / 256 < s.man.ez
    let watched := fun (pa : Nat) (t : State) => t.h.watch = some pa ∧ (∃ r ∈ t.fab.rx, r.sec = pa / 64) ∧ (∀ r ∈ s.fab.rx, r ∈ t.fab.rx)
    let regs := fun (v : DWord) (t : State) => ∀ k, t.h.getX k = if k = 0 then 0 else if k = d then v else s.h.getX k
    let fits := xm.toNat % 64 = 0 ∧ xm.toNat < 2 ^ 57
    (named (.dsend fm f v m) s = true → xv / 2 ^ 12 % 2 ^ 20 = 0 → inside → fits → (∀ p ∈ s.h.getF f, p.cp = false) →
      s.fab.sendq.length < Config.sendQueueDepth →
      let sent : Msg := { pairs := s.h.getF f, tag := BitVec.ofNat 32 (xv / 2 ^ 32), dev := dev, va := xm, asn := s.h.asn,
                          epoch := (s.job s.h.asn).epoch, sender := some (s.h.gang, s.h.gh) }
      ∃ t, exec (.dsend fm f v m) s = .next t ∧ Passed fm s t ∧ VesKept s t ∧ t.fab.sendq = s.fab.sendq ++ [sent] ∧
        (∀ k, t.h.getX k = s.h.getX k) ∧ (∀ k, t.h.getF k = s.h.getF k) ∧ t.h.undelivered = s.h.undelivered + 1 ∧
        (dev ≠ s.addr → t.fab.rx = s.fab.rx) ∧ (∀ r ∈ s.fab.rx, r ∈ t.fab.rx) ∧
        (∀ pa key, dev = s.addr → mapsStill (byDevice s s.h.asn) xm.toNat .read = some (pa, key) → key ≠ 0 → pa % 64 = 0 →
          mapsStill (byDevice s s.h.asn) xm.toNat .write = some (pa, key) → plainSector s pa key = true →
          (parseRx (cellsRead s.mem pa 64)).isSome = true → ∃ r ∈ t.fab.rx, r.sec = pa / 64) ∧
        (dev ≠ s.addr ∨ s.h.stbuf = [] → RestSameC { s with fab := t.fab } t ∧ t.fab = { s.fab with rx := t.fab.rx, sendq := t.fab.sendq } ∧
          t.h = { s.h with undelivered := t.h.undelivered, pc := t.h.pc, park := none, ves := t.h.ves, vcm := t.h.vcm })) ∧
    (named (.dsend fm f v m) s = true → s.cv.active = false → ¬ inside → ∃ t, exec (.dsend fm f v m) s = .next t ∧
      Entered 0xB1 (s.h.getX v) s.h.pc s t) ∧
    (∀ pa key, fits → mapsStill s xm.toNat .read = some (pa, key) → mapsStill s xm.toNat .write = some (pa, key) → pa % 64 = 0 →
      plainSector s pa key = true → (∀ w ∈ s.h.stbuf, w.space ≠ .glob ∨ w.addr / 64 ≠ pa / 64) →
      (parseRx (cellsRead s.mem pa 64) = none → s.cv.active = false → ∀ i ∈ [Instr.drecv fm f m d, .drecvTry fm f m d], named i s = true →
        ∃ t, exec i s = .next t ∧ Entered 0xB3 xm s.h.pc s t) ∧
      ∀ x, parseRx (cellsRead s.mem pa 64) = some x → s.rxBad pa = false →
        (∀ w ∈ s.h.stbuf, w.space = .glob → w.va.toNat < x.slots ∨ x.slots + x.nslot * 2 ^ x.slg ≤ w.va.toNat) →
        (x.head = x.tail →
          (named (.drecvTry fm f m d) s = true → ∃ t, exec (.drecvTry fm f m d) s = .next t ∧ watched pa t ∧ regs (BitVec.ofNat 64 (2 ^ 63)) t ∧
            Passed fm s t ∧ MemSame s t ∧ ∀ k, t.h.getF k = s.h.getF k) ∧
          (named (.drecv fm f m d) s = true → ∃ t, exec (.drecv fm f m d) s = .next t ∧ watched pa t ∧ MemSame s t ∧
            t.h = { s.h with watch := some pa, park := some (.wait (.drecv fm f m d) 9 none 0), resumed := resumedNow s })) ∧
        (∀ spa skey e, x.head ≠ x.tail → spa % 64 = 0 → (∀ i < 2 ^ x.slg / 64,
            mapsStill s (x.slotVa x.head + 64 * i) .read = some (spa + 64 * i, skey) ∧ plainSector s (spa + 64 * i) skey = true) →
          (s.fab.slots.find? fun y => y.pa == spa && y.len == 2 ^ x.slg && leBytes y.len y.v == cellsRead s.mem spa (2 ^ x.slg)) = some e →
          ∀ i ∈ [Instr.drecv fm f m d, .drecvTry fm f m d], named i s = true →
            (s.h.cap < e.pairs.length → s.cv.active = false → ∃ t, exec i s = .next t ∧
              Entered 0xB2 (BitVec.ofNat 64 e.pairs.length) s.h.pc { s with fab := t.fab } t) ∧
            (e.pairs.length ≤ s.h.cap → (∀ p ∈ e.pairs, p.cp = false) → offTables s (pa + 16) 8 = true →
              ∃ t, exec i s = .next t ∧ watched pa t ∧ Passed fm s t ∧
                regs (BitVec.ofNat 64 (e.trunc.toNat * 2 ^ 62 + e.pairs.length * 2 ^ 32 + e.tag.toNat)) t ∧ t.h.getF f = e.pairs ∧
                (∀ k, k ≠ f → t.h.getF k = s.h.getF k) ∧ Dirtied (fBit f) (e.pairs ≠ [] ∨ s.h.getF f ≠ []) s t ∧
                cellsRead t.mem (pa + 16) 8 = leBytes 8 (x.head + 1).toNat ∧
                ∀ a, (a < pa + 16 ∨ pa + 24 ≤ a) → cellsGet t.mem a = cellsGet s.mem a)))

/-- R328, R330, R335, R341, R345, R346, R349, R356, R385: a delivery puts the message into the slot at TAIL, with the pairs that fit, counts TAIL on, and sets
evt.MSG of a hart that watches the buffer; a message of an older epoch is discarded, one of a newer epoch or for a full buffer waits, and one that
R335 refuses is counted and logged. A message for another device goes on by the port of its route: in x, then y, then z, the shorter way, by the
port of the destination's parity if its link is up, else by the other. A message that is delivered or sent on leaves its channel, or the send queue. A marker ends the recording of its
channel, and with the last channel the recording of the snapshot (R346); a stale one does nothing, and one of another number makes the snapshot in
progress fail (R341); the first of a snapshot takes the instant and sends markers on, or leaves the snapshot absent or failed (R345). A link that goes down takes its channels with it and ends every snapshot that is being recorded. Beats and exchanges set the offset, the bound and
the lock.

What a link takes with it and how time is disciplined are the model's readings (log entries 51 to 53). -/
def Obligations.FabricMoves : Prop :=
  ∀ (s : State) (ch port : Nat) (m : Msg) (ns : DWord) (bound : Word) (lock : Bool),
    let v := byDevice s m.asn
    let age := (m.epoch + 65536 - (s.job m.asn).epoch % 65536) % 65536
    let tail := fun (t : State) => (ch < 24 → t.inOf ch = (s.inOf ch).tail) ∧ (ch = 24 → t.fab.sendq = s.fab.sendq.erase m)
    let refused := fun (t : State) => tail t ∧ MemSame s t ∧ t.log.head?.map (·.kind) = some 7 ∧
      (ch < 24 → ∀ p, s.fab.ports[ch / 2]? = some p → t.fab.ports[ch / 2]? = some { p with refused := p.refused + 1 })
    (s.headMsg ch true = some m →
      (32768 ≤ age → ∃ t, exec (.messageDelivery ch) s = .next t ∧ tail t ∧ MemSame s t) ∧
      (age ≠ 0 → age < 32768 → exec (.messageDelivery ch) s = .next s) ∧
      (age = 0 → s.spaceOf m.asn = none → ∃ t, exec (.messageDelivery ch) s = .next t ∧ refused t) ∧
      (∀ c, age = 0 → deniedBy v m.va.toNat .read = some c → ∃ t, exec (.messageDelivery ch) s = .next t ∧ refused t) ∧
      (∀ rpa rkey, age = 0 → (s.spaceOf m.asn).isSome = true → mapsStill v m.va.toNat .read = some (rpa, rkey) →
        mapsStill v m.va.toNat .write = some (rpa, rkey) → rpa % 64 = 0 → plainSector s rpa rkey = true →
        (rkey = 0 ∨ parseRx (cellsRead s.mem rpa 64) = none → ∃ t, exec (.messageDelivery ch) s = .next t ∧ refused t) ∧
        ∀ x spa skey, rkey ≠ 0 → parseRx (cellsRead s.mem rpa 64) = some x → s.rxBad rpa = false →
          mapsStill v (x.slotVa x.tail) .read = some (spa, skey) → mapsStill v (x.slotVa x.tail) .write = some (spa, skey) → skey ≠ 0 →
          ((x.tail - x.head).toNat = x.nslot → exec (.messageDelivery ch) s = .next s) ∧
          ((x.tail - x.head).toNat ≠ x.nslot → spa % 64 = 0 → s.quar.contains (spa / 65536) = false →
            (∀ i < 2 ^ x.slg / 64, plainSector s (spa + 64 * i) skey = true) → spa + 2 ^ x.slg ≤ rpa ∨ rpa + 64 ≤ spa →
            ∃ t e, exec (.messageDelivery ch) s = .next t ∧ tail t ∧ e ∈ t.fab.slots ∧ e.pa = spa ∧ e.pairs = m.pairs.take ((2 ^ x.slg - 16) / 8) ∧
              e.tag = m.tag ∧ (e.trunc = true ↔ (2 ^ x.slg - 16) / 8 < m.pairs.length) ∧
              cellsRead t.mem (rpa + 24) 8 = leBytes 8 (x.tail + 1).toNat ∧
              cellsRead t.mem (rpa + 32) 8 = leBytes 8 (if (2 ^ x.slg - 16) / 8 < m.pairs.length then x.trunc + 1 else x.trunc).toNat ∧
              (s.h.live = true → s.h.watch = some rpa → t.h.evtMsg = true) ∧
              ∀ a, (a < rpa + 24 ∨ rpa + 40 ≤ a) → (a < spa ∨ spa + 2 ^ x.slg ≤ a) → cellsGet t.mem a = cellsGet s.mem a))) ∧
    (∀ d came, let a := s.man.x + 16 * s.man.y + 256 * s.man.z
      let at_ := fun (p i : Nat) => p / 16 ^ i % 16
      let i := if at_ a 0 ≠ at_ d 0 then 0 else if at_ a 1 ≠ at_ d 1 then 1 else 2
      let e : Int := [s.man.ex, s.man.ey, s.man.ez].getD i 1
      let up : Prop := ((at_ d i : Int) - at_ a i) % e ≤ ((at_ a i : Int) - at_ d i) % e
      at_ a i < e → at_ d i < e → (s.route d came).1 = 2 * i + (if up then 0 else 1) ∧
        ((s.route d came).2 = 1 ↔ ∃ c, came = some c ∧ c / 8 = i ∧ (c % 2 = 1 ∨ (at_ a i : Int) = if up then 0 else e - 1)) ∧
        ∀ p, s.portFor (s.route d came).1 d = some p ↔
          let own := 2 * (s.route d came).1 + (at_ d 0 + at_ d 1 + at_ d 2) % 2
          let other := 2 * (s.route d came).1 + (1 - (at_ d 0 + at_ d 1 + at_ d 2) % 2)
          (s.portUp own = true ∧ p = own) ∨ (s.portUp own = false ∧ s.portUp other = true ∧ p = other)) ∧
    (∀ k vc p, s.headMsg ch false = some m → s.route m.dev (if ch < 24 then some ch else none) = (k, vc) → s.portFor k m.dev = some p →
      2 * p + vc < s.fab.outq.length →
      ∃ t, exec (.messageForward ch) s = .next t ∧ tail t ∧ t.outOf (2 * p + vc) = s.outOf (2 * p + vc) ++ [.msg m] ∧ MemSame s t) ∧
    (∀ a n e l x, s.inOf ch = .marker a n e :: l → (s.job a).epoch = e → (s.job a).prog = some x → x.num = n →
      ∃ t y, exec (.markerReceipt ch) s = .next t ∧ t.inOf ch = l ∧ (t.job a).prog = some y ∧ y.wait = x.wait.filter (· != ch) ∧
        y.st = (if y.wait = [] then .sealing else x.st) ∧ MemSame s t) ∧
    (∀ a n e l, s.inOf ch = .marker a n e :: l → (s.job a).epoch ≠ e ∨ ((s.job a).prog = none ∧ n ≤ (s.job a).top) →
      exec (.markerReceipt ch) s = .next (s.setIn ch l)) ∧
    (∀ a n e l x, s.inOf ch = .marker a n e :: l → (s.job a).epoch = e → (s.job a).prog = some x → x.num ≠ n →
      ∃ t y, exec (.markerReceipt ch) s = .next t ∧ t.inOf ch = l ∧ (t.job a).prog = none ∧ (t.job a).top = max (s.job a).top n ∧
        (t.job a).done = (s.job a).done ∧ (t.job a).last = some y ∧ y.num = x.num ∧ y.st = .failed ∧ y.fcode = 5) ∧
    (∀ a n e l, s.inOf ch = .marker a n e :: l → (s.job a).epoch = e → (s.job a).prog = none → (s.job a).top < n →
      ∃ t, exec (.markerReceipt ch) s = .next t ∧ t.inOf ch = l ∧ (t.job a).top = n ∧ (s.h.live = true → t.h.stbuf = []) ∧
        (∀ q < 24, s.portUp (q / 2) = true → q < s.fab.outq.length → t.outOf q = s.outOf q ++ [.marker a n e]) ∧
        (s.spaceOf a = none → (t.job a).prog = none ∧ ∃ y, (t.job a).last = some y ∧ y.num = n ∧ y.st = .absent) ∧
        ((s.spaceOf a).isSome = true → (s.job a).arm = none →
          (t.job a).prog = none ∧ ∃ y, (t.job a).last = some y ∧ y.num = n ∧ y.st = .failed ∧ y.fcode = 1) ∧
        ((s.spaceOf a).isSome = true → (s.job a).arm.isSome = true →
          ∃ x, (t.job a).prog = some x ∧ x.num = n ∧ x.tinst = s.tstamp ∧ x.epoch = e ∧ (∀ q, q ∈ x.wait ↔ q < 24 ∧ s.portUp (q / 2) = true ∧ q ≠ ch) ∧
            x.st = (if x.wait = [] then .sealing else .recording))) ∧
    ((s.portUp port = true → ∃ t, exec (.linkDown port) s = .next t ∧ t.portUp port = false ∧ t.outOf (2 * port) = [] ∧
        t.outOf (2 * port + 1) = [] ∧ (∀ q, q ≠ port → t.portUp q = s.portUp q) ∧ ∀ a x, (t.job a).prog = some x → x.st ≠ .recording) ∧
      (s.portUp port = false → exec (.linkDown port) s = .next s)) ∧
    (port < s.fab.ports.length → ∃ t, exec (.linkUp port) s = .next t ∧ t.portUp port = true ∧ (∀ q, q ≠ port → t.portUp q = s.portUp q) ∧
      t = { s with fab := { s.fab with ports := t.fab.ports } }) ∧
    exec (.timeSyncBeat ns bound) s = .next { s with fab := { s.fab with offset := (ns.toNat : Int) - s.tstamp.toNat, bound := bound } } ∧
    exec (.precisionTimeProtocol ns bound lock) s =
      .next { s with fab := { s.fab with offset := (ns.toNat : Int) - s.tstamp.toNat, bound := bound, lock := lock } }

/-- R31, R336, R342 to R346, R351 to R354: the snapshot instructions in supervisor mode. `snap.arm` takes a well-formed record, or gives 3 when 16 other jobs are armed; `snap` of an armed job with
none in progress takes the instant under the next number; `snap.drop` ends the one in progress; `snap.poll` reads a status, in user mode of the
hart's own job; `rollback` that nothing forbids ends the job's gangs, opens the next epoch, restores the changed blocks, sends the recorded
messages again and creates the recorded nodes again, with their edges and those to nodes of other jobs; else it gives its code. In user mode the privileged ones raise 0x03 (R31, R336). The restored memory is
stated where no gang of the job is resident, no copy is in flight and every sector of the blocks and copies is clean.

R347, R349: a copy of a block ends by leaving its pending state; a snapshot that is being sealed with no copy in flight becomes complete and
replaces the latest one, or fails because the pool or the area is full.

The records' layout and the instant are the model's readings (log entries 50 and 51). -/
def Obligations.Snapshots : Prop :=
  (∀ (fm : Form) (d j n : BitVec 6) (s : State),
     let asn := (s.h.getX j).toNat % 65536
     let job := s.job asn
     let gives := fun (v : DWord) (i : Instr) => ∃ t, exec i s = .next t ∧ WriteX fm d v s t
     let regs := fun (v : DWord) (t : State) => ∀ k, t.h.getX k = if k = 0 then 0 else if k = d then v else s.h.getX k
     let no := fun (c : Nat) => BitVec.ofNat 64 (2 ^ 63 + c)
     let p := s.h.status.prv = true
     s.cv.active = false →
     (s.h.status.prv = false → ∀ i ∈ [Instr.snapArm fm d j, .snap fm d j, .snapDrop fm d j, .rollback fm d j n],
       ∃ t, exec i s = .next t ∧ Entered 3 (BitVec.ofNat 64 (encodeWord0 i)) s.h.pc s t) ∧
     (∀ r a c, p → (s.h.getX j).toNat % 64 = 0 → recordAs s false (s.h.getX j) 64 = some r → parseArm r = some (a, c) → s.h.arit = [] → s.h.stbuf = [] →
       ((s.job a).prog = none → (s.job a).arm.isSome = true ∨ (s.fab.jobs.filter (·.arm.isSome)).length < 16 →
         ∃ t, exec (.snapArm fm d j) s = .next t ∧ regs 0 t ∧ Passed fm s t ∧ MemSame s t ∧ t.job a = { s.job a with arm := some c } ∧
           ∀ b, b ≠ a → t.job b = s.job b) ∧
       ((s.job a).prog.isSome = true → gives (no 2) (.snapArm fm d j)) ∧
       ((s.job a).prog = none → (s.job a).arm = none → 16 ≤ (s.fab.jobs.filter (·.arm.isSome)).length → gives (no 3) (.snapArm fm d j))) ∧
     (p → job.arm = none → gives (no 1) (.snap fm d j)) ∧
     (p → job.arm.isSome = true → job.prog.isSome = true → gives (no 2) (.snap fm d j)) ∧
     (p → job.arm.isSome = true → job.prog = none → (s.spaceOf asn).isSome = true → s.h.arit = [] → s.h.copies = [] →
       ∃ t x, exec (.snap fm d j) s = .next t ∧ regs (BitVec.ofNat 64 ((job.top + 1) % 2 ^ 32)) t ∧ Passed fm s t ∧ (t.job asn).prog = some x ∧
         x.num = (job.top + 1) % 2 ^ 32 ∧ x.tinst = s.tstamp ∧ x.epoch = job.epoch ∧ (t.job asn).top = x.num ∧
         (x.st = .recording ↔ ∃ q < 12, s.portUp q = true) ∧ (∀ q < 12, s.portUp q = true → 2 * q ∈ x.wait ∧ 2 * q + 1 ∈ x.wait) ∧
         t.h.stbuf = []) ∧
     (p → job.prog = none → gives 0 (.snapDrop fm d j)) ∧
     (∀ x, p → job.prog = some x → ∃ t, exec (.snapDrop fm d j) s = .next t ∧ regs (BitVec.ofNat 64 x.num) t ∧ Passed fm s t ∧
       (t.job asn).prog = none ∧ (t.job asn).done = job.done ∧ ∃ y, (t.job asn).last = some y ∧ y.num = x.num ∧ y.st = .dropped) ∧
     (let own := s.job (if p then asn else s.h.asn)
      let pick := if p ∧ (s.h.getX j).getLsbD 16 = true then own.done else match own.prog with | some x => some x | none => own.last
      (pick = none → gives 0 (.snapPoll fm d j)) ∧
      ∀ x, pick = some x → x.fcode < 16 → ∃ t v, exec (.snapPoll fm d j) s = .next t ∧ WriteX fm d v s t ∧
        v.toNat / 2 ^ 61 = (match x.st with | .recording => 1 | .sealing => 2 | .complete => 3 | .failed => 4 | .dropped => 5 | .absent => 6) ∧
        v.getLsbD 60 = x.nir ∧ v.toNat / 2 ^ 56 % 16 = x.fcode ∧ v.toNat / 2 ^ 32 % 2 ^ 24 = min own.frames.length (2 ^ 24 - 1) ∧
        v.toNat % 2 ^ 32 = x.num % 2 ^ 32) ∧
     (p → job.done = none → gives (no 1) (.rollback fm d j n)) ∧
     (∀ x, p → job.done = some x →
       let meets := fun (k : Node) => ∃ m ∈ s.nodes, m.id % 8192 = k.id % 8192 ∧ m.asn ≠ asn
       let number := x.num = (s.h.getX n).toNat % 2 ^ 32
       let epoch := (job.epoch + 1) % 65536
       let again := fun (m : Msg) => { m with epoch := epoch, sender := none }
       let ended := fun (i : Nat) => s.nodes.filter fun n => n.id == i && n.asn == asn
       let waits := fun (i : Nat) => (s.node i).filter fun n => n.asn != asn && n.st != .finished
       (¬ number → gives (no 1) (.rollback fm d j n)) ∧
       (number → job.prog.isSome = true → gives (no 2) (.rollback fm d j n)) ∧
       (number → job.prog = none → x.nir = true → gives (no 3) (.rollback fm d j n)) ∧
       (number → job.prog = none → x.nir = false → (∃ k ∈ x.nodes, meets k) → gives (no 4) (.rollback fm d j n)) ∧
       (number → job.prog = none → x.nir = false → (∀ k ∈ x.nodes, ¬ meets k) → s.h.asn ≠ asn → s.h.live = true → s.h.park = none →
         ((∀ g ∈ s.gangs, g.asn = asn → g.key ≠ s.h.gang ∧ g.mat.queue = []) → (∀ k ∈ s.harts, k.live = true → k.id ≠ s.h.id) →
           ∃ t, exec (.rollback fm d j n) s = .next t ∧ regs 0 t ∧ Passed fm s t ∧ (t.job asn).epoch = epoch ∧
             ∀ g ∈ t.gangs, g.asn = asn → False) ∧
         ((∀ g ∈ s.gangs, g.asn ≠ asn ∧ g.fate = .runs) → (∀ k ∈ s.fab.jobs, k.pending = []) → s.h.stbuf = [] → s.fab.inq.length = 24 →
           (x.nodes.map (·.id % 8192)).Nodup → (s.nodes.map (·.id)).Nodup →
           (∀ c ∈ x.copies, c.1 ∉ x.shared → (∀ c' ∈ x.copies, c'.2 ≠ c.1 ∧ (c'.1 = c.1 → c' = c)) ∧ ∀ i < 1024,
             plainSector s (65536 * c.2 + 64 * i) (s.region (16 * c.2)).kidx = true ∧
             plainSector s (65536 * c.1 + 64 * i) (match x.leaves.find? (·.has c.1) with | some l => l.key | none => 0) = true) → x.copies.Nodup →
           ∃ t, exec (.rollback fm d j n) s = .next t ∧ (t.job asn).epoch = epoch ∧
             (∀ c ∈ x.copies, c.1 ∉ x.shared → ∀ i < 65536, cellsGet t.mem (65536 * c.1 + i) = cellsGet s.mem (65536 * c.2 + i)) ∧
             (∀ a, (∀ c ∈ x.copies, c.1 ∉ x.shared → c.1 ≠ a / 65536) → cellsGet t.mem a = cellsGet s.mem a) ∧
             t.fab.sendq = (x.held.filterMap fun c => if c.1 = none then some (again c.2) else none) ++ s.fab.sendq ∧
             (∀ ch < 24, t.inOf ch = (x.held.filterMap fun c => if c.1 = some ch then some (.msg (again c.2)) else none) ++
               (x.chan.filterMap fun c => if c.1 = ch then some (.msg (again c.2)) else none) ++ s.inOf ch) ∧
             (∀ k ∈ x.nodes, ∃ m, t.node k.id = some m ∧ m.rolled = some (BitVec.ofNat 64 x.num) ∧
               m.count = (x.nodes.map fun q => q.succs.count k.id).sum ∧ m.succs = k.succs.filter (fun q => (x.nodes.map (·.id)).contains q) ++ ((ended k.id).filter (·.st != .finished)).flatMap (fun n => n.succs.filter fun q => (waits q).isSome) ∧
               m.st = (if k.st = .held then .held else if m.count = 0 then .ready else .waiting) ∧
               m = { k with rolled := m.rolled, count := m.count, succs := m.succs, st := m.st, readyNo := m.readyNo, since := m.since }) ∧
             (∀ q ∈ s.nodes, q.asn ≠ asn → ∃ m, t.node q.id = some m ∧ m.succs = q.succs.filter (fun i => (ended i).isEmpty) ∧
               (q.st ≠ .finished → m.count = q.count - ((s.nodes.filter fun n => n.asn == asn && n.st != .finished &&
                 !(x.nodes.map (·.id)).contains n.id).map fun n => n.succs.count q.id).sum)) ∧
             ∀ m ∈ s.nodes, m.asn = asn → (∀ k ∈ x.nodes, k.id ≠ m.id) → t.node m.id = none)))) ∧
  (∀ (s : State) (asn : Nat),
     let job := s.job asn
     (∀ b, (∃ c ∈ job.pending, c.block = b) → ∃ t, exec (.blockCopyComplete asn b) s = .next t ∧
       (t.job asn).pending = job.pending.filter (·.block != b) ∧ (∀ x, (t.job asn).prog = some x → b ∉ x.shared) ∧
       ∀ x, (t.job asn).done = some x → b ∉ x.shared) ∧
     (∀ b, (∀ c ∈ job.pending, c.block ≠ b) → exec (.blockCopyComplete asn b) s = .next s) ∧
     (∀ x, job.prog = some x → x.st = .sealing → job.pending = [] → job.arm.isSome = true → ∃ t y, exec (.snapshotComplete asn) s = .next t ∧
       (t.job asn).prog = none ∧ (t.job asn).last = some y ∧ y.num = x.num ∧
       ((y.st = .complete ∧ ∃ z, (t.job asn).done = some z ∧ z.num = x.num ∧ z.st = .complete) ∨
         (y.st = .failed ∧ (y.fcode = 2 ∨ y.fcode = 3) ∧ (t.job asn).done = job.done))))

/-- R378, R382 to R385, R389: `tmark` queues a mark record with xa, or nothing where the task has no buffer; `pcnt.rd` reads an accumulator of the
partition, an open value where an open number of its events comes about (log entry 85), and raises 0xC2 in user mode of a locked job; `tstamp`
reads device time, clk or the sync status.

R108, R377, R378, R380, R381, R389: a sample that is due names the pc and the reason of a parked hart, the harts of the partition in turn; before
it is due there is none. A multiplexed counter counts in windows of 65,536 clk. A record is written at the place of its number, WPTR counts on and
DROP takes in the drops since, with no other byte changed. evt.TIME ends a `wfe` that it is enabled for.

Fields that the manual leaves open follow log entry 56; the bound of sel 2 takes in what is left of the offset (log entry 53), and DROP takes in drops
when the header can next be written (log entry 29). -/
def Obligations.Tracing : Prop :=
  (∀ (fm : Form) (d a n : BitVec 6) (s : State) (g : Gang),
     let r := ((s.ctrs.find? fun c => c.core == s.h.id.core && c.part == s.h.id.part).map fun c => c.acc.toArray.getD n.toNat 0).getD 0
     let ev := g.tcb.ev.getD (if n.toNat < 16 then 2 * n.toNat else 2 * (n.toNat - 16) + 1) 0
     let open_ := ev == 5 || ev == 6 || ev == 0xA || (decide (0x40 ≤ ev ∧ ev < 0x70) && ev % 2 == 1)
     s.gangOf s.h.gang = some g →
     (g.tcb.buf = 0 → ∃ t, exec (.tmark fm a) s = .next t ∧ Jumped (s.h.pc + BitVec.ofNat 64 fm.len) s t) ∧
     (g.tcb.buf ≠ 0 → s.trace.length < Config.traceQueueDepth → ∃ t x, exec (.tmark fm a) s = .next t ∧ t.trace = s.trace ++ [x] ∧ x.type = 2 ∧
       x.data = s.h.getX a ∧ x.ts = s.tstamp ∧ x.task = g.node ∧ x.hart = some s.h.id ∧ x.tcb = g.tcb ∧
       Jumped (s.h.pc + BitVec.ofNat 64 fm.len) { s with trace := t.trace } t) ∧
     (s.cv.active = false → g.tcb.lock = true → s.h.status.prv = false →
       ∃ t, exec (.pcntRd fm d n) s = .next t ∧ Entered 0xC2 (BitVec.ofNat 64 n.toNat) s.h.pc s t) ∧
     (alone s = true → g.tcb.lock = false ∨ s.h.status.prv = true →
       (open_ = false → ∃ t, exec (.pcntRd fm d n) s = .next t ∧ WriteX fm d r s t) ∧
       (open_ = true → ∃ t v, exec (.pcntRd fm d n) s = .next t ∧ XDone fm d v s t)) ∧
     (∃ t, exec (.tstamp fm d 0) s = .next t ∧ ScalarDone fm d s.tstamp s t) ∧
     (∃ t, exec (.tstamp fm d 1) s = .next t ∧ ScalarDone fm d (BitVec.ofNat 64 s.clk) s t) ∧
     (∃ t v, exec (.tstamp fm d 2) s = .next t ∧ ScalarDone fm d v s t ∧ 
       v = BitVec.ofNat 64 ((if s.fab.lock then 2 ^ 63 else 0) + min (2 ^ 32 - 1) (s.fab.bound.toNat + s.fab.offset.natAbs)))) ∧
  (∀ (s : State) (core part : Nat) (g : Gang) (c : PartCtr),
     let hs := s.slotsOf core part
     let due := c.start + (c.sampled + 1) * 2 ^ g.tcb.sper
     (s.gangAt core part = some g → (s.ctrs.find? fun c => c.core == core && c.part == part) = some c →
       (g.tcb.sper = 0 ∨ s.clk < due → exec (.sample core part) s = .next s) ∧
       (∀ h p r, g.tcb.sper ≠ 0 → due ≤ s.clk → hs[c.sampled % hs.length]? = some h → h.park = some p → p.reason = some r → r < 256 → g.tcb.buf ≠ 0 →
         s.trace.length < Config.traceQueueDepth →
         ∃ t x, exec (.sample core part) s = .next t ∧ t.trace = s.trace ++ [x] ∧ x.type = 1 ∧ x.hart = some h.id ∧
           x.data.toNat = h.pc.toNat / 4 % 2 ^ 55 * 256 + (match p with
             | .wfe => 0x10 | .join _ _ | .away => 0x11 | .wait _ r _ _ => r | .entry _ _ _ => 8 | .vamo _ _ _ => 0)) ∧
       (∀ n, n < 16 → g.tcb.ev.getD (2 * n + 1) 0 ≠ 0 → ∃ t, exec (.counterMultiplex core part n) s = .next t ∧ t = { s with ctrs := t.ctrs } ∧
         t.ctrs = s.ctrs.map fun c => if c.core = core ∧ c.part = part then
           { c with alt := setBit c.alt n ((s.clk - c.start) / 65536 % 2 == 1) } else c)) ∧
     (∀ asn r hpa hkey rpa rkey,
       let v := byDevice s asn
       let drop := BitVec.ofNat 64 (leNat (cellsRead s.mem (hpa + 8) 8) + (s.dropsOf r).owed)
       let k := BitVec.ofNat 64 (leNat (cellsRead s.mem hpa 8))
       let buf := r.tcb.buf.toNat
       let place := (buf + 64 + 32 * (k.toNat % ((2 ^ r.tcb.blog - 64) / 32))) % 2 ^ 64
       s.trace.find? (·.asn == asn) = some r → mapsStill v buf .write = some (hpa, hkey) → mapsStill v place .write = some (rpa, rkey) →
       hpa % 64 = 0 → rpa % 32 = 0 → hpa / 64 ≠ rpa / 64 → cleanSector v buf hpa hkey = true → cleanSector v place rpa rkey = true →
        (s.dropsOf r).since = 0 →
       ∃ t, exec (.traceRecordWrite asn) s = .next t ∧ t.trace = s.trace.erase r ∧ cellsRead t.mem rpa 32 = r.bytes ∧
         cellsRead t.mem hpa 8 = leBytes 8 (k + 1).toNat ∧ cellsRead t.mem (hpa + 8) 8 = leBytes 8 drop.toNat ∧
         ∀ a, (a < rpa ∨ rpa + 32 ≤ a) → (a < hpa ∨ hpa + 16 ≤ a) → cellsGet t.mem a = cellsGet s.mem a) ∧
     (s.h.live = true → s.h.park = some .wfe → s.h.tcmp.toNat ≤ s.tstamp.toNat → s.h.emask.getLsbD 5 = true →
       ∃ t, exec (.timeEvent s.h.id) s = .next t ∧ t.h = { s.h with park := none } ∧ MemSame s t))

/-- R369, R371, R372, R31: `diag.st` in supervisor mode stores xv; with one check bit flipped the word reads as stored and its error is known, with an
even number flipped its sector reads as poison, with a tag that differs it fails its check, and check bits of the counter line do the same for its
region; in TCM and scratchpad the two words have check bits of their own. Targets of tags that are not sealed raise 0x02, and an address that is no
multiple of 8 raises 0x30. `seal.log` stores the record that it names and gives its number; the store is a write on its way (log
entry 8). In user mode both raise 0x03.

R112, R115, R359, R366, R368: interrupt 0x02 takes the oldest asynchronous error of a hart; an uncorrectable error in state without poison is
logged as KIND 9, and posted to its hart or squashes its convoy with 0xF0; one in vector or fibre storage, the tile, its scales or the result ring
poisons what it hit and is logged as KIND 2, whether or not a hart is there; one in memory, in a tag, in a counter line, in TCM or in scratchpad
stands there until it is read; one that is corrected is logged as KIND 1; the scrub of a destroyed index zeroes exactly the regions that carry it.

Outcomes that the manual leaves open follow log entries 57 to 59, and where an error strikes follows log entry 79. -/
def Obligations.SealEngine : Prop :=
  (∀ (fm : Form) (v b c d : BitVec 6) (t : DiagSpace) (s : State),
     let va := s.h.getX b
     let x := s.h.getX v
     let f := (s.h.getX c).toNat
     let p := s.h.status.prv = true
     let flips := (List.range 8).countP fun k => f.testBit k
     (s.h.status.prv = false → s.cv.active = false → ∀ i ∈ [Instr.diagSt fm v b c t, .sealLog fm d b c],
       ∃ u, exec i s = .next u ∧ Entered 3 (BitVec.ofNat 64 (encodeWord0 i)) s.h.pc s u) ∧
     (p → s.cv.active = false → va.toNat % 8 ≠ 0 → ∃ u, exec (.diagSt fm v b c t) s = .next u ∧ Entered 0x30 va s.h.pc s u) ∧
     (∀ pa key, p → va.toNat % 8 = 0 → mapsStill s va.toNat .write = some (pa, key) → f / 2 ^ 16 = 4 ∨ f / 2 ^ 8 = 2 ^ 11 →
       key = 0 ∨ s.isSram pa = true → s.cv.active = false →
       ∃ u, exec (.diagSt fm v b c .global) s = .next u ∧
         Entered 2 (BitVec.ofNat 64 (encodeWord0 (.diagSt fm v b c .global))) s.h.pc { s with tlb := u.tlb } u) ∧
     (∀ pa key, p → alone s = true → va.toNat % 8 = 0 → s.h.stbuf = [] → mapsStill s va.toNat .write = some (pa, key) →
       cleanSector s va.toNat pa key = true → offTables s pa 8 = true →
       let stored := fun (u : State) => Passed fm s u ∧ (∀ k, u.h.getX k = s.h.getX k) ∧ u.psn = s.psn ∧
         ∀ a, cellsGet u.mem a = if pa ≤ a ∧ a < pa + 8 then BitVec.ofNat 8 (x.toNat / 2 ^ (8 * (a - pa))) else cellsGet s.mem a
       (f < 256 → flips ≤ 1 ∨ flips % 2 = 0 → ∃ u, exec (.diagSt fm v b c .global) s = .next u ∧ stored u ∧
         (flips ≠ 0 → ({ word := pa, synd := BitVec.ofNat 8 f, lost := flips % 2 == 0 } : EccErr) ∈ u.ecc) ∧
         ∀ w a, (u.readSector w (pa / 64) key a).1 = (if flips ≤ 1 then .data else .poison) ∧
           (flips ≠ 0 → ∃ r, (u.readSector w (pa / 64) key a).2.log.head? = some r ∧ r.kind = (if flips = 1 then 1 else 2) ∧ r.synd % 256 = f)) ∧
       (f / 2 ^ 16 = 4 → f % 2 ^ 16 ≠ 0 → key ≠ 0 → s.isSram pa = false → ∃ u, exec (.diagSt fm v b c .global) s = .next u ∧ stored u ∧
         ∀ w a, (u.readSector w (pa / 64) key a).1 = .integrity) ∧
       (f / 2 ^ 8 = 2 ^ 11 → flips ≤ 1 ∨ flips % 2 = 0 → key ≠ 0 → s.isSram pa = false → ∃ u, exec (.diagSt fm v b c .global) s = .next u ∧ stored u ∧
         (flips ≠ 0 → ({ word := pa / 4096, synd := BitVec.ofNat 8 f, lost := flips % 2 == 0 } : EccErr) ∈ u.eccMeta) ∧
         ∀ w a, (u.readSector w (pa / 64) key a).1 = if flips ≤ 1 then .data else .poison)) ∧
     (∀ sp w, p → alone s = true → va.toNat % 8 = 0 → f < 2 ^ 15 → s.h.stbuf = [] →
       (sp = s.h.tcmSpace va ∧ t = .tcm) ∨ (sp = s.spSpace s.h va ∧ t = .sp) → localWriteOf s sp va (leBytes 8 x.toNat) false = some w →
       let ones := fun (n : Nat) => (List.range 7).countP fun k => n.testBit k
       let hit := fun (m : Local) (word n : Nat) => if n = 0 then m else
         { m with ecc := { word := word, synd := BitVec.ofNat 8 n } :: m.ecc.filter (·.word != word)
                  psn := if ones n % 2 = 0 then natInsert m.psn word else m.psn }
       (ones (f % 128) ≤ 1 ∨ ones (f % 128) % 2 = 0) → (ones (f / 256 % 128) ≤ 1 ∨ ones (f / 256 % 128) % 2 = 0) →
       ∃ u, exec (.diagSt fm v b c t) s = .next u ∧ Passed fm s u ∧ (∀ k, u.h.getX k = s.h.getX k) ∧ MemSame s u ∧
         u.localOf sp.1 = hit (hit (localWrite (s.localOf sp.1) w.addr (leBytes 8 x.toNat) false) (w.addr / 4) (f % 128))
           ((w.addr + 4) / 4) (f / 256 % 128)) ∧
     (∀ pa key, p → alone s = true → va.toNat % 64 = 0 → mapsStill s va.toNat .write = some (pa, key) →
       let i := s.h.getX c
       let rec' := if i.getLsbD 63 then s.log.head? else s.log.find? fun r => r.seq % 1024 == i.toNat / 2 ^ 6 % 2 ^ 10
       let n := match rec' with | some r => r.seq % 2 ^ 32 | none => 0
       ∃ u, exec (.sealLog fm d b c) s = .next u ∧ Passed fm s u ∧ VesKept s u ∧ RestSame s u ∧
         (∀ k, u.h.getX k = if k = 0 then 0 else if k = d then BitVec.ofNat 64 n else s.h.getX k) ∧
         ∃ w, u.h.stbuf = s.h.stbuf ++ [w] ∧ w.addr = pa ∧ w.bytes.length = 64 ∧ w.space = .glob ∧
           (rec' = none → ∀ k < 64, w.bytes.getD k 0 = 0) ∧
           ∀ r, rec' = some r → w.bytes = leBytes 8 (r.seq % 2 ^ 32 * 2 ^ 32 + r.kind * 2 ^ 24 + r.cause * 2 ^ 16 + r.loc * 2 ^ 12) ++
             leBytes 8 r.pa ++ leBytes 8 r.va ++ leBytes 8 (r.asn % 2 ^ 16 * 2 ^ 48 + r.key % 2 ^ 8 * 2 ^ 40 + r.task % 2 ^ 32) ++
             leBytes 8 r.hart.toNat ++ leBytes 8 (r.synd % 65536) ++ leBytes 8 r.ts.toNat ++ leBytes 8 0)) ∧
  (∀ (s : State) (id : HartId) (loc synd : DWord),
     let newest := BitVec.ofNat 64 (64 * ((s.logSeq + 1) % 1024))
     let code := loc.toNat % 12
     let place := loc.toNat / 12
     let mends := synd.getLsbD 16
     let bare := code = 10 ∨ code = 11 ∨ (code = 7 ∧ place % 3 = 0)
     let logs := fun (kind : Nat) (t : State) => t.log.head?.map (fun r => (r.kind, r.cause, r.loc, r.seq, r.synd)) =
       some (kind, if kind = 9 then 0xF0 else 0, code, s.logSeq + 1, if kind = 9 then synd.toNat else if bare then synd.toNat else synd.toNat % 65536)
     let err := fun (word : Nat) => ({ word := word, synd := synd.setWidth 8, lost := !mends, loc := if code < 2 then none else some code } : EccErr)
     let sec := place / 9
     let hits := s.populated (64 * sec) 64 = true
     let sealed := s.isSram (64 * sec) = false ∧ (s.region (sec / 64)).kidx ≠ 0
     (∀ c v l, s.h.live = true → s.h.takeable = true → s.h.preempt = none → s.h.async = (c, v) :: l → s.h.park ≠ some .away → s.h.sv ≠ .saved →
       ∃ t, exec (.asynchronousError s.h.id) s = .next t ∧ t.h.cause = { int := true, acode := c, code := 2 } ∧ t.h.tval = v ∧
         t.h.epc.toNat = s.h.pc.toNat % 2 ^ 57 / 4 * 4 ∧ t.h.pc = s.h.tvec ∧ t.h.async = l ∧ t.h.status.prv = true ∧ t.h.status.ie = false ∧
         t.h.status.pprv = s.h.status.prv ∧ t.h.status.pie = s.h.status.ie ∧ t.h.park = none ∧ MemSame s t) ∧
     (∀ b, mends = false → bare → ∃ t, exec (.hardwareError id b loc synd) s = .next t ∧ logs 9 t ∧ MemSame s t) ∧
     (s.h.live = true → mends = false → bare →
       (∃ t, exec (.hardwareError s.h.id false loc synd) s = .next t ∧ t.h.async = s.h.async ++ [(0xF0, newest)] ∧ t.h.pc = s.h.pc) ∧
       (s.h.park ≠ some .away → s.h.sv ≠ .saved → ∃ t, exec (.hardwareError s.h.id true loc synd) s = .next t ∧
         t.h.cause = { int := false, acode := 0, code := 0xF0 } ∧ t.h.tval = newest ∧ t.h.pc = s.h.tvec)) ∧
     (∀ b, mends = true → bare ∨ code = 7 ∨ code = 8 → ∃ t, exec (.hardwareError id b loc synd) s = .next t ∧ logs 1 t ∧
       t = { s with log := t.log, logSeq := t.logSeq }) ∧
     (∀ b, code ≤ 4 → ∃ t, exec (.hardwareError id b loc synd) s = .next t ∧
       (hits → place % 9 ≠ 8 → t = { s with ecc := err (64 * sec + 8 * (place % 9)) :: s.ecc.filter (·.word != 64 * sec + 8 * (place % 9)) }) ∧
       (hits → place % 9 = 8 → sealed → t = { s with eccTag := err sec :: s.eccTag.filter (·.word != sec) }) ∧
       (¬ hits ∨ (place % 9 = 8 ∧ ¬ sealed) → t = s) ∧
       ∀ w key a, hits → place % 9 ≠ 8 ∨ sealed → (s.region (sec / 64)).kidx = key → s.quar.contains (sec / 1024) = false → mends = false →
         (t.readSector w sec key a).1 = .poison ∧ (t.readSector w sec key a).2.log.head?.map (·.kind) = some 2) ∧
     (∀ b, code = 9 → s.populated (4096 * place) 4096 = true → s.isSram (4096 * place) = false →
       ∃ t, exec (.hardwareError id b loc synd) s = .next t ∧
         t = { s with eccMeta := err place :: s.eccMeta.filter (·.word != place)
                      badMeta := if mends then s.badMeta else natInsert s.badMeta place }) ∧
     (∀ b g o, code = 5 ∨ code = 6 → s.gangAt id.core id.part = some g → s.gangOf g.key = some g →
       localOff (if code = 5 then g.tcm.size else g.sp.size) (4 * place) = some o →
       let hit := fun (m : Local) => { m with ecc := { word := o / 4, synd := synd.setWidth 8 } :: m.ecc.filter (·.word != o / 4)
                                              psn := if mends then m.psn else natInsert m.psn (o / 4) }
       ∃ t, exec (.hardwareError id b loc synd) s = .next t ∧ MemSame s t ∧ t.h = s.h ∧ t.log = s.log ∧
         t.gangOf g.key = some (if code = 5 then { g with tcm := hit g.tcm } else { g with sp := hit g.sp })) ∧
     (∀ b, (code = 5 ∨ code = 6) → s.gangAt id.core id.part = none → exec (.hardwareError id b loc synd) s = .next s) ∧
     (∀ b, mends = false → (code = 7 ∧ place % 3 ≠ 0 ∧ s.hartAt id = none) ∨ (code = 8 ∧ s.gangAt id.core id.part = none) →
       ∃ t, exec (.hardwareError id b loc synd) s = .next t ∧ logs 2 t ∧ MemSame s t ∧ t.h = s.h ∧ t.gangs = s.gangs) ∧
     (∀ b, s.h.live = true → code = 7 → mends = false →
       (place % 3 = 1 → ∃ t, exec (.hardwareError s.h.id b loc synd) s = .next t ∧ logs 2 t ∧ MemSame s t ∧ t.h.pc = s.h.pc ∧
         ∀ d j, ((t.h.getV d).psn.getLsbD j = true ↔ (s.h.getV d).psn.getLsbD j = true ∨ (d = BitVec.ofNat 5 (place / 3) ∧ j = place / 96 % 2048)) ∧
           (t.h.getV d).bits = (s.h.getV d).bits) ∧
       (place % 3 = 2 → ∃ t, exec (.hardwareError s.h.id b loc synd) s = .next t ∧ logs 2 t ∧ MemSame s t ∧ t.h.pc = s.h.pc ∧
         ∀ d, (t.h.getF d).map (fun p => (p.crd, p.val)) = (s.h.getF d).map (fun p => (p.crd, p.val)) ∧
           ∀ k p, (s.h.getF d)[k]? = some p → (t.h.getF d)[k]? = some (if d = BitVec.ofNat 4 (place / 3) ∧ k = place / 96 then
             (if place / 48 % 2 = 0 then { p with cp := true } else { p with vp := true }) else p))) ∧
     (∀ b g, code = 8 → mends = false → s.gangAt id.core id.part = some g → s.gangOf g.key = some g →
       ∃ t k, exec (.hardwareError id b loc synd) s = .next t ∧ logs 2 t ∧ MemSame s t ∧ t.h = s.h ∧ t.gangOf g.key = some k ∧
         (place % 3 = 0 → k = { g with mat := { g.mat with tilePsn := k.mat.tilePsn } } ∧
           ∀ j, k.mat.tilePsn.getLsbD j = (g.mat.tilePsn.getLsbD j || j == place / 3 % 16384)) ∧
         (place % 3 = 1 → k = { g with mat := { g.mat with scalePsn := k.mat.scalePsn } } ∧
           ∀ j, k.mat.scalePsn.getLsbD j = (g.mat.scalePsn.getLsbD j || j == place / 3 % 512)) ∧
         (place % 3 = 2 → k = { g with mat := { g.mat with slots := k.mat.slots } } ∧ ∀ a r,
           let y := (g.mat.slot a).row (g.cols (g.mat.slot a).kind) r
           (k.mat.slot a).row (g.cols (g.mat.slot a).kind) r =
             if a = BitVec.ofNat 3 (place / 3) ∧ r = place / 24 % matRows (g.mat.slot a).kind then { y with psn := true } else y)) ∧
     (∀ key, key ≠ 0 → key ∈ s.firm.scrub → (s.regions.map (·.idx)).Nodup → ∃ t, exec (.keyIndexScrub key) s = .next t ∧ key ∉ t.firm.scrub ∧
       (∀ k, (t.region k).kidx ≠ key) ∧
       ∀ a, cellsGet t.mem a = if (s.region (a / 4096)).kidx = key then 0 else cellsGet s.mem a))

/-- R302 to R304, R360, R364, R393 to R396: the host reads and writes clean bytes of a region of key index 0; it reads a sealed region as what stands in
HBM4, ciphertext or what it wrote there raw, and a write there changes no plaintext. A doorbell sets PROD within the ring, and is ignored and logged
outside it. An entry is consumed once a pool entry can be held: the node that its records describe is created, or its completion record tells the
code of its rejection, and CONS advances, in the ring too. ALARM bits are cleared by ones. A write of MBOX word 0 with bit 0 that is no command fails
with 7.

An entry whose copy returns poison is rejected with 1 in the completion record that its first sector names, where that one read clean.

Sizes of accesses, places of MBOX words and the unknown command are the model's readings (log entry 60), and so are the layout of the cipher's blocks
(log entry 86), the order of the checks of an entry (log entry 42), the pool's entry taken next (log entry 25), the user rights of a completion record
(log entry 43) and what a host reads, which State keeps (log entry 11); AES is as its own standard gives it (log entry 28). -/
def Obligations.HostAccesses : Prop :=
  ∀ (s : State) (pa len q off : Nat) (bs : List Byte) (v : DWord),
    let ours := s.inCtrl pa = false ∧ s.populated pa len = true ∧ 0 < len ∧ pa % 64 + len ≤ 64
    (ours → plainSector s pa 0 = true →
      (∃ t, exec (.hostRead pa len) s = .next t ∧ t = { s with firm := t.firm } ∧ t.firm = { s.firm with lastRead := cellsRead s.mem pa len }) ∧
      (bs.length = len → ∃ t, exec (.hostWrite pa bs) s = .next t ∧
        ∀ a, cellsGet t.mem a = if pa ≤ a ∧ a < pa + len then bs.getD (a - pa) 0 else cellsGet s.mem a)) ∧
    (let x := s.region (pa / 4096)
     ours → x.kidx ≠ 0 →
      (s.isSram pa = false → s.quar.contains (pa / 65536) = false → ∃ t, exec (.hostRead pa len) s = .next t ∧
        t.firm.lastRead = (List.range len).map fun i => match s.raw.find? (·.1 == pa + i) with
          | some c => c.2
          | none => ((aes256 (s.keyBytes x.kidx).1 (counterBlock (pa / 64) x.kidx x.maj (x.minOf (pa / 64 % 64)) ((pa + i) % 64 / 16))).zipWith
              (· ^^^ ·) (cellsRead s.mem ((pa + i) / 16 * 16) 16)).getD ((pa + i) % 16) 0) ∧
      (bs.length = len → ∃ t, exec (.hostWrite pa bs) s = .next t ∧ MemSame s t)) ∧
    (∀ b, s.queueNo q = some b →
      (b.prod.toNat ≤ v.toNat → v.toNat ≤ b.cons.toNat + 2 ^ b.qlog →
        ∃ t, exec (.doorbell q v) s = .next t ∧ t.queueNo q = some { b with prod := v } ∧ t = { s with firm := t.firm }) ∧
      (v.toNat < b.prod.toNat ∨ b.cons.toNat + 2 ^ b.qlog < v.toNat →
        ∃ t r, exec (.doorbell q v) s = .next t ∧ t.firm = s.firm ∧ t.log.head? = some r ∧ r.kind = 9 ∧ MemSame s t) ∧
      (b.cons.toNat < b.prod.toNat → (s.reap.takeEntry 0).isSome = true →
        ∃ t, exec (.hostQueueEntry q) s = .next t ∧ t.queueNo q = some { b with cons := b.cons + 1 }) ∧
      (let at_ := b.qb + 256 * (b.cons.toNat % 2 ^ b.qlog)
       let e := cellsRead s.mem at_ 256
       let v := byDevice s b.asn
       let desc := BitVec.ofNat 64 (leNat (e.take 8))
       let crec := leNat ((e.drop 8).take 8)
       let kind := (e.getD 24 0).toNat % 4
       let well := (parseLaunch e).isSome && (e.drop 144).all (· == 0)
       let gen : Nat := ((s.entries.find? (·.idx == s.shared.fresh)).map (·.gen)).getD 0
       let id := (if gen + 1 < 2 ^ 19 then gen + 1 else 1) * 8192 + s.shared.fresh
       let counted := fun (a : Nat) => (leBytes 8 (b.cons + 1).toNat).getD (a - (b.qb + 136)) 0
       let consInPlace := fun (a : Nat) => b.qb + 136 ≤ a ∧ a < b.qb + 144
       let rejects := fun (c : Nat) => ∀ pa key, crec ≠ 0 → crec % 32 = 0 → mapsStill v crec .write = some (pa, key) →
         cleanSector v crec pa key = true → pa / 64 ≠ (b.qb + 136) / 64 →
         ∃ t, exec (.hostQueueEntry q) s = .next t ∧ t.queueNo q = some { b with cons := b.cons + 1 } ∧ t.nodes = s.nodes ∧
           ∀ a, cellsGet t.mem a = if consInPlace a then counted a else if pa ≤ a ∧ a < pa + 32 then
             (leBytes 8 (2 ^ 63 + 4 * 2 ^ 60 + c * 2 ^ 40) ++ leBytes 16 0 ++ leBytes 8 s.tstamp.toNat).getD (a - pa) 0
             else cellsGet s.mem a
       b.cons.toNat < b.prod.toNat → (∀ m ∈ s.nodes, m.st ≠ .finished) → s.shared.fresh < s.shared.last → at_ % 64 = 0 →
       plainSector s at_ 0 = true → plainSector s (b.qb + 136) 0 = true → (b.qb + 136) % 64 + 8 ≤ 64 →
       (∀ j, 0 < j → j < 4 → (∀ i < 4, i ≠ j → plainSector s (at_ + 64 * i) 0 = true) → s.psn.contains (at_ / 64 + j) = true →
         (s.region ((at_ / 64 + j) / 64)).kidx = 0 → s.quar.contains ((at_ / 64 + j) / 1024) = false → rejects 1) ∧
       ((∀ i < 4, plainSector s (at_ + 64 * i) 0 = true) → ∀ r, (well = true → desc.toNat % 64 = 0 → recordAs v false desc (if kind = 0 then 64 else if kind = 1 then 256 else 0) = some r) →
       let code := if well then launchCode e r else 1
       (∀ p, code = 0 → parseLaunch e = some p → (∀ y ∈ p.preds, y = 0) → (∀ m ∈ s.nodes, m.id ≠ id) →
         ∃ t m, exec (.hostQueueEntry q) s = .next t ∧ t.queueNo q = some { b with cons := b.cons + 1 } ∧ t.node id = some m ∧
           m.st = (if p.hold then .held else .ready) ∧ m.task = !p.copy ∧ m.depth = 0 ∧ m.prio = max p.prio b.prio ∧ m.asn = b.asn ∧
           m.queue = some q ∧ m.parent = 0 ∧ m.launcher = none ∧ m.crec = p.crec ∧ m.save = p.save ∧ m.args = p.args ∧ m.count = 0 ∧
           m.succs = [] ∧ m.cseq = BitVec.ofNat 64 (leNat ((e.drop 128).take 8)) ∧ m.prv = false ∧
           (p.copy = false → parseDesc r = some m.desc ∧ m.toStart = List.range m.desc.gangs ∧ m.unended = m.desc.gangs) ∧
           (p.copy = true → m.shape = r) ∧ (∀ k, k ≠ id → t.node k = s.node k) ∧
           ∀ a, cellsGet t.mem a = if consInPlace a then counted a else cellsGet s.mem a) ∧
       (code ≠ 0 → rejects code))) ∧
      (b.prod.toNat ≤ b.cons.toNat → ∃ t, exec (.hostQueueEntry q) s = .next t ∧ t.queueNo q = some b ∧ MemSame s t)) ∧
    exec (.alarmClear v) s = .next { s with firm := { s.firm with alarm := s.firm.alarm &&& ~~~v } } ∧
    (0x408 ≤ off → off < 0xC00 → off % 8 = 0 → s.firm.mbox.length = 256 → ∃ t, exec (.mboxWrite off v) s = .next t ∧ t = { s with firm := t.firm } ∧
      t.firm = { s.firm with mbox := t.firm.mbox } ∧
      ∀ k < 256, t.firm.mbox[k]? = if k = (off - 0x400) / 8 then some v else s.firm.mbox[k]?) ∧
    (s.firm.st = 3 → s.firm.unbind = none → s.firm.mbox.length = 256 → v.getLsbD 0 = true → ∃ t, exec (.mboxWrite 0x400 v) s = .next t ∧ t = { s with firm := t.firm } ∧
      t.firm.mbox[0]? = some (v &&& ~~~1#64) ∧ t.firm.mbox[1]? = some (BitVec.ofNat 64 (2 ^ 63 + 7)))

/-- R359, R365, R373, R375, R387, R395, R397, R399, R402: a management command in STATE 3 answers in MBOX: bit 0 of word 0 is clear, and word 1 is zero
when it took effect, else bit 63 and the lowest code that applies. What each does when none applies. An unbinding that waits keeps bit 0, and no
other command is executed until it is over.

R373, R398, R399, R400: a reset leaves the machine at its reset values: ready in STATE 3 with the firmware measured, in STATE 5 when its manifest
fails, and in STATE 0 when an image is refused: one whose signature does not verify under
a key that chains to the root key, or of a version below the minimum (R373); what was measured up to it stays; what heat does to the power state; and the telemetry words.

Commands with work still there, what executes while an unbinding waits, the window of a ring and the order of telemetry are the model's readings (log
entries 60 to 63), and so are the places of a report in MBOX, the folding of measurements and STATE 0 after a refused image (log entry 86), and the
digests (log entry 28). That
memory is zero after a reset that trained none, SRAM among it, and that no session key is held, are the model's choices (log entries 2 and 4); what
else a reset leaves undefined is open (log entry 5). -/
def Obligations.ManagementAndPower : Prop :=
  (∀ (s : State) (tag key : BitVec 256) (asn q n frame qlog prio weight : Nat) (root trap tcb qb v : DWord) (ct : List Byte),
     let answer := fun (c : Nat) (t : State) => (∃ w, t.firm.mbox[0]? = some w ∧ w.getLsbD 0 = false) ∧
       t.firm.mbox[1]? = some (if c = 0 then 0 else BitVec.ofNat 64 (2 ^ 63 + c))
     let fails := fun (c : Nat) (i : Instr) => ∃ t, exec i s = .next t ∧ answer c t ∧ t = { s with firm := t.firm } ∧
       t.firm = { s.firm with mbox := t.firm.mbox }
     let works := fun (i : Instr) (r : State → Prop) => ∃ t, exec i s = .next t ∧ answer 0 t ∧ r t
     let good := fun (cmd : Nat) (args : List Nat) => s.firm.session = some key ∧ tag = Config.kmac key cmd args
     let legal := asn < 65536 ∧ root.toNat % 4096 = 0 ∧ root.toNat < 2 ^ 48 ∧ trap.toNat % 64 = 0 ∧ trap.toNat < 2 ^ 57 ∧ 1 ≤ n ∧ n ≤ 16
     let here := (s.spaceOf asn).isSome = true
     let ring := q < 64 ∧ asn < 65536 ∧ 4 ≤ qlog ∧ qlog ≤ 12 ∧ prio < 4 ∧ 1 ≤ weight ∧ weight < 256 ∧ qb.toNat % 4096 = 0 ∧
       s.inWindow qb.toNat (256 * 2 ^ qlog) = true
     let bound := fun (d : Bool) => Instr.bindq tag q d qb qlog prio weight asn
     s.firm.st = 3 → s.firm.mbox.length = 256 → s.firm.unbind = none →
     works (.attest v) (fun t => t.firm.attested = s.quar ∧ t.mem = s.mem ∧ ∃ r, t.firm.report = some r ∧ r.nonce = v ∧
       r.manHash = shake256 (Config.manifestBytes s.man) ∧ r.seqNo = s.man.seqNo ∧ r.measure = s.firm.measure ∧
       r.kemKey = (List.range 1568).map (Config.kemByte Config.deviceSecret) ∧
       r.sig = (List.range 3309).map (Config.signatureByte Config.deviceSecret r.body) ∧
       ∀ i < 254, t.firm.mbox[2 + i]? = some (BitVec.ofNat 64 (leNat ((List.range 8).map fun k =>
         (r.body ++ r.sig).getD (Config.reportPlace (8 * i + k)) 0)))) ∧
     (match Config.sessionKey ct with
       | some k => works (.session ct) fun t => t.firm.session = some k ∧ t.mem = s.mem
       | none => fails 2 (.session ct)) ∧
     (s.firm.session = none → ∀ i ∈ [Instr.regas tag asn root trap tcb n, .deregas tag asn, .bindq tag q true qb qlog prio weight asn,
       .bindq tag q false qb qlog prio weight asn, .preempt tag asn v, .stop tag asn, .resume tag asn, .unquar tag frame], fails 1 i) ∧
     (good 2 [asn, root.toNat, trap.toNat, tcb.toNat, n] →
       (¬ legal → fails 2 (.regas tag asn root trap tcb n)) ∧
       (legal → here → fails 3 (.regas tag asn root trap tcb n)) ∧
       (legal → ¬ here → s.freeKeys.length < n → fails 5 (.regas tag asn root trap tcb n)) ∧
       (legal → ¬ here → n ≤ s.freeKeys.length → works (.regas tag asn root trap tcb n) fun t => t.mem = s.mem ∧ t.spaces = s.spaces ++
         [{ asn := asn, root := root.toNat, trap := trap, tcb := tcb, keys := s.freeKeys.take n, stopped := false, told := false }] ∧
         (∀ k ∈ s.freeKeys.take n, ∃ x ∈ t.firm.keys, x.idx = k) ∧
         ∀ w < 4, ∃ m, t.firm.mbox[2 + w]? = some m ∧ ∀ k < 64, m.getLsbD k = (s.freeKeys.take n).contains (64 * w + k))) ∧
     (good 3 [asn] → asn < 65536 → (¬ here → fails 4 (.deregas tag asn)) ∧
       (here → works (.deregas tag asn) fun t => t.spaceOf asn = none ∧ (∀ e ∈ t.tlb, e.asn ≠ asn) ∧
         (t.job asn).top = (s.job asn).top ∧ (t.job asn).arm = (s.job asn).arm ∧
         ∀ p k, s.spaceOf asn = some p → k ∈ p.keys → k ∈ t.firm.scrub)) ∧
     (good 4 [q, 1, qb.toNat, qlog, prio, weight, asn] →
       (¬ ring → fails 2 (bound true)) ∧ (ring → ¬ here → fails 4 (bound true)) ∧
       (ring → here → works (bound true) fun t => t.queueNo q =
         some { q := q, qb := qb.toNat, qlog := qlog, prio := prio, weight := weight, asn := asn, prod := 0, cons := 0 })) ∧
     (good 4 [q, 0, qb.toNat, qlog, prio, weight, asn] → q < 64 →
       ((∀ b, s.queueNo q = some b → b.cons = b.prod) → works (bound false) fun t => t.queueNo q = none ∧ t.mem = s.mem) ∧
       (∀ b, s.queueNo q = some b → b.cons ≠ b.prod → ∃ t w, exec (bound false) s = .next t ∧ t = { s with firm := t.firm } ∧
         t.firm = { s.firm with unbind := some q, mbox := t.firm.mbox } ∧ t.firm.mbox[0]? = some w ∧ w.getLsbD 0 = true)) ∧
     (good 5 [asn, v.toNat] → asn < 65536 → (¬ here → fails 4 (.preempt tag asn v)) ∧
       (here → ∀ m, s.teams.filter (fun t => s.asnOfTask t.node == some asn && !s.isBusy t) = [m] → s.choice m v false = .drain →
         works (.preempt tag asn v) fun t => t.drains = s.drains ++ s.teamKeys [m] ∧ t.mem = s.mem)) ∧
     (good 6 [asn] → asn < 65536 → (¬ here → fails 4 (.stop tag asn)) ∧
       (here → works (.stop tag asn) fun t => t.stoppedAs asn = true ∧ t.mem = s.mem ∧ ∀ a, a ≠ asn → t.spaceOf a = s.spaceOf a)) ∧
     (good 7 [asn] → asn < 65536 → (¬ here → fails 4 (.resume tag asn)) ∧
       (here → works (.resume tag asn) fun t => t.stoppedAs asn = false ∧ t.mem = s.mem ∧ ∀ a, a ≠ asn → t.spaceOf a = s.spaceOf a)) ∧
     (good 8 [frame] → frame < 2 ^ 32 →
       (s.quar.contains frame = false ∨ s.firm.attested.contains frame = false → fails 6 (.unquar tag frame)) ∧
       (s.quar.contains frame = true → s.firm.attested.contains frame = true → works (.unquar tag frame) fun t =>
         t.quar = s.quar.filter (· != frame) ∧ t.mem = s.mem)) ∧
     (3 < n → fails 2 (.pstate n)) ∧
     (n ≤ 1 → works (.pstate n) fun t => t.firm.pst = (if s.man.slow || s.firm.hot then 1 else n) ∧ t.firm.ask = none ∧ t.mem = s.mem) ∧
     (n = 2 ∨ n = 3 → works (.pstate n) fun t => t.firm.ask = some n ∧ t.firm.pst = s.firm.pst)) ∧
  (∀ (s : State) (q : Nat), s.firm.unbind = some q → ∀ tag asn n k root trap tcb v ct, ∀ i ∈ [Instr.attest v, .session ct,
     .regas tag asn root trap tcb n, .deregas tag asn, .bindq tag k true v n n n asn, .bindq tag k false v n n n asn, .preempt tag asn v,
     .stop tag asn, .resume tag asn, .unquar tag n, .pstate n], exec i s = .next s) ∧
  (∀ (s : State) (l : List DWord),
     let key := fun (i : FwImage) (n : Nat) => (i.keys.getD n ([], [])).1
     let good := fun (i : FwImage) => i.keys ≠ [] ∧ BitVec.ofNat 256 (leNat (shake256 (key i 0))) = Config.rootKeyHash ∧
       (∀ n, n + 1 < i.keys.length → Config.verifies (key i n) (key i (n + 1)) (i.keys.getD (n + 1) ([], [])).2 = true) ∧
       Config.verifies (key i (i.keys.length - 1)) i.bytes i.sig = true ∧ s.man.minFw ≤ i.version
     let accepted := s.man.signed = true ∧ ∀ i ∈ s.man.images, good i
     let fold := fun (l : List FwImage) => l.foldl (fun m i => BitVec.ofNat 256 (leNat (shake256 (leBytes 32 m.toNat ++ shake256 i.bytes)))) (0 : BitVec 256)
     (∃ t, exec .powerOnReset s = .next t ∧ (accepted → t.firm.st = 3) ∧ (s.man.signed = false → t.firm.st = 5) ∧
       (s.man.signed = true → ¬ accepted → t.firm.st = 0) ∧
       (accepted → t.firm.measure = fold s.man.images) ∧
       (∀ k i, s.man.signed = true → (∀ j < k, ∀ x, s.man.images[j]? = some x → good x) → s.man.images[k]? = some i → ¬ good i →
         t.firm.measure = fold (s.man.images.take (k + 1))) ∧ t.mem = [] ∧ t.h = { } ∧ t.harts = [] ∧ t.gangs = [] ∧
       t.nodes = [] ∧ t.tlb = [] ∧ t.spaces = [] ∧ t.regions = [] ∧ t.psn = [] ∧ t.quar = [] ∧ t.log = [] ∧ t.clk = 0 ∧ t.firm.queues = [] ∧
       t.firm.session = none ∧ t.firm.alarm = 0 ∧ t.man = s.man ∧ (accepted → t.firm.pst = if s.man.slow then 1 else 0)) ∧
     (∃ t, exec (.telemetryRefresh l) s = .next t ∧ t = { s with firm := t.firm } ∧ t.firm = { s.firm with telem := t.firm.telem } ∧
       (∀ i < 4, t.firm.telem[i]? = some (l.getD i 0)) ∧ t.firm.telem[4]? = some (BitVec.ofNat 64 s.firm.throttles)) ∧
     (∃ t, exec .thermalThrottle s = .next t ∧ t = { s with firm := t.firm } ∧ t.firm.pst = max s.firm.pst 1 ∧ t.firm.hot = true ∧
       t.firm.throttles = s.firm.throttles + 1 ∧ ∀ i < 64, t.firm.alarm.getLsbD i = (s.firm.alarm.getLsbD i || i == 1)) ∧
     (s.firm.hot = true → ∃ t, exec .thermalRecovery s = .next t ∧ t = { s with firm := t.firm } ∧ t.firm.hot = false ∧
       (s.firm.pst = 1 → t.firm.pst = if s.man.slow then 1 else 0) ∧ (s.firm.pst ≠ 1 → t.firm.pst = s.firm.pst)) ∧
     (s.firm.hot = false → exec .thermalRecovery s = .next s) ∧
     exec .thermalHalt s = .next { s with firm := { s.firm with st := 4 } })
end

