-- ==== Sys2Proof/Laws/State.lean ====
section
/-! SUPPORT. The small lemmas of the records: what each named update of a hart and of the state leaves. -/

namespace Sys2Proof.Machine

/-- A file of registers reads back what was written at the same number, and is otherwise as it was. -/
theorem regs_get_set {α : Type} {n : Nat} (v : Vector α (2 ^ n)) (r k : BitVec n) (x : α) :
    (v.set r.toNat x r.isLt).get k.toFin = if k = r then x else v.get k.toFin := by
  have h1 : (v.set r.toNat x r.isLt).get k.toFin = (v.set r.toNat x r.isLt)[k.toNat]'k.isLt := rfl
  have h2 : v.get k.toFin = v[k.toNat]'k.isLt := rfl
  rw [h1, h2, Vector.getElem_set]
  by_cases he : k = r
  · simp [he]
  · have : r.toNat ≠ k.toNat := fun h => he (BitVec.eq_of_toNat_eq h.symm)
    simp [he, this]

/-! ## Scalar registers (R88) -/

@[simp] theorem Hart.getX_zero (h : Hart) : h.getX 0 = 0 := rfl

theorem Hart.getX_setX (h : Hart) (d r : BitVec 6) (v : DWord) :
    (h.setX d v).getX r = if r = 0 then 0 else if r = d then v else h.getX r := by
  unfold Hart.setX Hart.getX
  by_cases hr : r = 0
  · simp [hr]
  · by_cases hd : d = 0
    · simp only [hd, hr, if_true, if_false]
    · simp only [hd, hr, if_false]
      exact regs_get_set (n := 6) h.x d r v

@[simp] theorem Hart.setX_x0 (h : Hart) (v : DWord) : h.setX 0 v = h := rfl

theorem Hart.setX_eq (h : Hart) (d : BitVec 6) (v : DWord) : h.setX d v = { h with x := (h.setX d v).x } := by
  unfold Hart.setX; split <;> rfl

@[simp] theorem Hart.setX_pc (h : Hart) (d : BitVec 6) (v : DWord) : (h.setX d v).pc = h.pc := by rw [h.setX_eq]
@[simp] theorem Hart.setX_status (h : Hart) (d : BitVec 6) (v : DWord) : (h.setX d v).status = h.status := by rw [h.setX_eq]
@[simp] theorem Hart.setX_v (h : Hart) (d : BitVec 6) (v : DWord) : (h.setX d v).v = h.v := by rw [h.setX_eq]
@[simp] theorem Hart.setX_m (h : Hart) (d : BitVec 6) (v : DWord) : (h.setX d v).m = h.m := by rw [h.setX_eq]
@[simp] theorem Hart.setX_f (h : Hart) (d : BitVec 6) (v : DWord) : (h.setX d v).f = h.f := by rw [h.setX_eq]
@[simp] theorem Hart.setX_q (h : Hart) (d : BitVec 6) (v : DWord) : (h.setX d v).q = h.q := by rw [h.setX_eq]
@[simp] theorem Hart.setX_vl (h : Hart) (d : BitVec 6) (v : DWord) : (h.setX d v).vl = h.vl := by rw [h.setX_eq]
@[simp] theorem Hart.setX_ves (h : Hart) (d : BitVec 6) (v : DWord) : (h.setX d v).ves = h.ves := by rw [h.setX_eq]
@[simp] theorem Hart.setX_vcm (h : Hart) (d : BitVec 6) (v : DWord) : (h.setX d v).vcm = h.vcm := by rw [h.setX_eq]
@[simp] theorem Hart.setX_hand (h : Hart) (d : BitVec 6) (v : DWord) : (h.setX d v).hand = h.hand := by rw [h.setX_eq]
@[simp] theorem Hart.setX_early (h : Hart) (d : BitVec 6) (v : DWord) : (h.setX d v).early = h.early := by rw [h.setX_eq]
@[simp] theorem Hart.setX_stbuf (h : Hart) (d : BitVec 6) (v : DWord) : (h.setX d v).stbuf = h.stbuf := by rw [h.setX_eq]

@[simp] theorem Hart.getX_withPc (h : Hart) (r : BitVec 6) (p : DWord) : ({ h with pc := p } : Hart).getX r = h.getX r := rfl
@[simp] theorem Hart.getX_withPark (h : Hart) (r : BitVec 6) (p : Option Park) : ({ h with park := p } : Hart).getX r = h.getX r := rfl
@[simp] theorem Hart.getX_withVes (h : Hart) (r : BitVec 6) (v : Ves) (c : BitVec 2048) :
    ({ h with ves := v, vcm := c } : Hart).getX r = h.getX r := rfl

/-! ## Vector, mask, fibre and stream registers -/

@[simp] theorem Hart.getV_setV (h : Hart) (r k : BitVec 5) (x : VReg) :
    (h.setV r x).getV k = if k = r then x else h.getV k := by
  exact regs_get_set (n := 5) h.v r k x

@[simp] theorem Hart.getM_setM (h : Hart) (r k : BitVec 3) (x : BitVec 2048) :
    (h.setM r x).getM k = if k = r then x else h.getM k := by
  exact regs_get_set (n := 3) h.m r k x

@[simp] theorem Hart.getF_setF (h : Hart) (r k : BitVec 4) (x : List Pair) :
    (h.setF r x).getF k = if k = r then x else h.getF k := by
  exact regs_get_set (n := 4) h.f r k x

@[simp] theorem Hart.getQ_setQ (h : Hart) (r k : BitVec 3) (x : Option Binding) :
    (h.setQ r x).getQ k = if k = r then x else h.getQ k := by
  exact regs_get_set (n := 3) h.q r k x

@[simp] theorem Hart.dirty_v (h : Hart) (n : Nat) : (h.dirty n).v = h.v := rfl
@[simp] theorem Hart.dirty_m (h : Hart) (n : Nat) : (h.dirty n).m = h.m := rfl
@[simp] theorem Hart.dirty_f (h : Hart) (n : Nat) : (h.dirty n).f = h.f := rfl
@[simp] theorem Hart.dirty_q (h : Hart) (n : Nat) : (h.dirty n).q = h.q := rfl
@[simp] theorem Hart.dirty_x (h : Hart) (n : Nat) : (h.dirty n).x = h.x := rfl
@[simp] theorem Hart.dirty_pc (h : Hart) (n : Nat) : (h.dirty n).pc = h.pc := rfl
@[simp] theorem Hart.dirty_vl (h : Hart) (n : Nat) : (h.dirty n).vl = h.vl := rfl
@[simp] theorem Hart.dirty_status (h : Hart) (n : Nat) : (h.dirty n).status = h.status := rfl
@[simp] theorem Hart.dirty_stbuf (h : Hart) (n : Nat) : (h.dirty n).stbuf = h.stbuf := rfl
@[simp] theorem Hart.getV_dirty (h : Hart) (n : Nat) (r : BitVec 5) : (h.dirty n).getV r = h.getV r := rfl
@[simp] theorem Hart.getM_dirty (h : Hart) (n : Nat) (r : BitVec 3) : (h.dirty n).getM r = h.getM r := rfl
@[simp] theorem Hart.getF_dirty (h : Hart) (n : Nat) (r : BitVec 4) : (h.dirty n).getF r = h.getF r := rfl
@[simp] theorem Hart.getX_dirty (h : Hart) (n : Nat) (r : BitVec 6) : (h.dirty n).getX r = h.getX r := rfl

/-! ## The state -/

@[simp] theorem State.mapH_h (s : State) (f : Hart → Hart) : (s.mapH f).h = f s.h := rfl
@[simp] theorem State.mapH_mem (s : State) (f : Hart → Hart) : (s.mapH f).mem = s.mem := rfl
@[simp] theorem State.mapH_harts (s : State) (f : Hart → Hart) : (s.mapH f).harts = s.harts := rfl
@[simp] theorem State.mapH_gangs (s : State) (f : Hart → Hart) : (s.mapH f).gangs = s.gangs := rfl
@[simp] theorem State.mapH_cv (s : State) (f : Hart → Hart) : (s.mapH f).cv = s.cv := rfl
@[simp] theorem State.mapHarts_mem (s : State) (p : Hart → Bool) (f : Hart → Hart) : (s.mapHarts p f).mem = s.mem := rfl
@[simp] theorem State.mapGang_mem (s : State) (k : Nat) (f : Gang → Gang) : (s.mapGang k f).mem = s.mem := rfl
@[simp] theorem State.mapGang_h (s : State) (k : Nat) (f : Gang → Gang) : (s.mapGang k f).h = s.h := rfl
@[simp] theorem State.mapNode_mem (s : State) (i : Nat) (f : Node → Node) : (s.mapNode i f).mem = s.mem := rfl
@[simp] theorem State.mapNode_h (s : State) (i : Nat) (f : Node → Node) : (s.mapNode i f).h = s.h := rfl
@[simp] theorem State.idle_h (s : State) : s.idle.h = s.h := rfl
@[simp] theorem State.idle_mem (s : State) : s.idle.mem = s.mem := rfl
@[simp] theorem State.idle_cv (s : State) : s.idle.cv = { wrote := s.cv.wrote } := rfl
@[simp] theorem State.pass_mem (i : Instr) (s : State) : (s.pass i).mem = s.mem := rfl
@[simp] theorem State.nextMember_h (s : State) : s.nextMember.h = s.h := rfl
@[simp] theorem State.nextMember_mem (s : State) : s.nextMember.mem = s.mem := rfl
@[simp] theorem State.logErr_mem (s : State) (r : LogRec) : (s.logErr r).mem = s.mem := rfl
@[simp] theorem State.logErr_h (s : State) (r : LogRec) : (s.logErr r).h = s.h := rfl
@[simp] theorem State.setJob_mem (s : State) (j : Job) : (s.setJob j).mem = s.mem := rfl
@[simp] theorem State.setRegion_mem (s : State) (r : Region) : (s.setRegion r).mem = s.mem := rfl
@[simp] theorem State.raiseAlarm_mem (s : State) (n : Nat) : (s.raiseAlarm n).mem = s.mem := rfl
@[simp] theorem State.setDrops_mem (s : State) (d : TraceDrop) : (s.setDrops d).mem = s.mem := rfl
@[simp] theorem State.takeFree_changed (s : State) : s.takeFree.2.changed = s.changed := rfl
@[simp] theorem State.mapH_changed (s : State) (f : Hart → Hart) : (s.mapH f).changed = s.changed := rfl
@[simp] theorem State.mapHarts_changed (s : State) (p : Hart → Bool) (f : Hart → Hart) : (s.mapHarts p f).changed = s.changed := rfl
@[simp] theorem State.idle_changed (s : State) : s.idle.changed = s.changed := rfl
@[simp] theorem State.logErr_changed (s : State) (r : LogRec) : (s.logErr r).changed = s.changed := rfl
@[simp] theorem State.takeFree_mem (s : State) : s.takeFree.2.mem = s.mem := rfl
@[simp] theorem State.takeFree_h (s : State) : s.takeFree.2.h = s.h := rfl

@[simp] theorem State.count_h (s : State) (c p ev n : Nat) : (s.count c p ev n).h = s.h := by
  unfold State.count; split <;> rfl
@[simp] theorem State.count_mem (s : State) (c p ev n : Nat) : (s.count c p ev n).mem = s.mem := by
  unfold State.count; split <;> rfl
theorem State.count_eq (s : State) (c p ev n : Nat) : s.count c p ev n = { s with ctrs := (s.count c p ev n).ctrs } := by
  unfold State.count; split <;> rfl

/-! ## The frame of an instruction -/

/-- A convoy that retires changes its hart's `ves` and `vcm` when it was resumed, and says that it retired. -/
theorem State.retireConvoy_eq (s : State) : s.retireConvoy = { s with
    h := if s.cv.active && s.cv.resumed then { s.h with ves := { }, vcm := 0 } else s.h
    ended := .retired } := by
  unfold State.retireConvoy State.mapH
  by_cases ha : (s.cv.active && s.cv.resumed) = true <;> simp [ha]

@[simp] theorem State.retireConvoy_mem (s : State) : s.retireConvoy.mem = s.mem := by rw [s.retireConvoy_eq]
@[simp] theorem State.retireConvoy_cv (s : State) : s.retireConvoy.cv = s.cv := by rw [s.retireConvoy_eq]
@[simp] theorem State.retireConvoy_ended (s : State) : s.retireConvoy.ended = .retired := by rw [s.retireConvoy_eq]

/-- A convoy whose accesses leave no bit to set ends with nothing but the end itself. -/
theorem State.close_of_no_marks {s : State} (h : s.cv.marks = []) : s.close = s.idle := by
  unfold State.close; rw [h]; rfl

@[simp] theorem State.void_h (s : State) : s.void.h = s.h := rfl
@[simp] theorem State.void_mem (s : State) : s.void.mem = s.mem := rfl
@[simp] theorem State.void_ctrs (s : State) : s.void.ctrs = s.cv.ctrs := rfl
@[simp] theorem State.void_cv (s : State) : s.void.cv = { wrote := s.cv.wrote } := rfl
@[simp] theorem State.idle_ended (s : State) : s.idle.ended = s.ended := rfl
@[simp] theorem State.pass_cv (i : Instr) (s : State) : (s.pass i).cv = s.cv := rfl
@[simp] theorem State.pass_ended (i : Instr) (s : State) : (s.pass i).ended = s.ended := rfl
@[simp] theorem State.nextMember_ended (s : State) : s.nextMember.ended = s.ended := rfl
@[simp] theorem State.nextMember_idx (s : State) : s.nextMember.cv.idx = s.cv.idx + 1 := rfl
@[simp] theorem State.nextMember_done (s : State) : s.nextMember.cv.done = 0 := rfl

end Sys2Proof.Machine
end

