-- ==== Sys2Proof/Laws/Memory.lean ====
section
/-! SUPPORT. Memory as a list of cells: a read after a write, what a write leaves, and that every operation keeps the canonical form
(log entry 4). -/

namespace Sys2Proof.Machine

/-! ## One byte -/

@[simp] theorem cellsGet_nil (x : Nat) : cellsGet [] x = 0 := rfl

theorem cellsGet_cons (a : Nat) (b : Byte) (l : List Host.Cell) (x : Nat) :
    cellsGet ((a, b) :: l) x = if a = x then b else cellsGet l x := rfl

/-- In canonical form, every address of the tail lies above the first. -/
theorem cellsWf_above {a : Nat} {b : Byte} {l : List Host.Cell} (h : cellsWf ((a, b) :: l) = true) : ∀ c ∈ l, a < c.1 := by
  induction l generalizing a b with
  | nil => intro c hc; cases hc
  | cons d l ih =>
    obtain ⟨a', b'⟩ := d
    simp only [cellsWf, Bool.and_eq_true, decide_eq_true_eq] at h
    intro c hc
    rcases List.mem_cons.1 hc with rfl | hc
    · exact h.1.2
    · exact Nat.lt_trans h.1.2 (ih h.2 c hc)

theorem cellsWf_tail {c : Host.Cell} {l : List Host.Cell} (h : cellsWf (c :: l) = true) : cellsWf l = true := by
  obtain ⟨a, b⟩ := c
  cases l with
  | nil => rfl
  | cons d l =>
    obtain ⟨a', b'⟩ := d
    simp only [cellsWf, Bool.and_eq_true] at h
    exact h.2

theorem cellsWf_head {a : Nat} {b : Byte} {l : List Host.Cell} (h : cellsWf ((a, b) :: l) = true) : b ≠ 0 := by
  cases l with
  | nil => simpa [cellsWf] using h
  | cons d l =>
    obtain ⟨a', b'⟩ := d
    simp only [cellsWf, Bool.and_eq_true, bne_iff_ne] at h
    exact h.1.1

/-- A cell below every cell of a canonical list begins a canonical list. -/
theorem cellsWf_cons {a : Nat} {b : Byte} {l : List Host.Cell} (hb : b ≠ 0) (hl : cellsWf l = true) (ha : ∀ c ∈ l, a < c.1) :
    cellsWf ((a, b) :: l) = true := by
  cases l with
  | nil => simpa [cellsWf] using hb
  | cons d l =>
    obtain ⟨a', b'⟩ := d
    simp only [cellsWf, Bool.and_eq_true, bne_iff_ne, decide_eq_true_eq]
    exact ⟨⟨hb, ha _ (List.mem_cons_self ..)⟩, hl⟩

/-- An address below every listed one reads zero. -/
theorem cellsGet_below {l : List Host.Cell} {x : Nat} (h : ∀ c ∈ l, x < c.1) : cellsGet l x = 0 := by
  induction l with
  | nil => rfl
  | cons c l ih =>
    obtain ⟨a, b⟩ := c
    have : a ≠ x := Nat.ne_of_gt (h _ (List.mem_cons_self ..))
    rw [cellsGet_cons, if_neg this]
    exact ih fun c hc => h c (List.mem_cons_of_mem _ hc)

/-- The addresses of a write are those that were listed and the one written. -/
theorem mem_cellsSet {l : List Host.Cell} {x : Nat} {y : Byte} {c : Host.Cell} (h : c ∈ cellsSet l x y) : c.1 = x ∨ c ∈ l := by
  induction l with
  | nil =>
    unfold cellsSet at h
    split at h
    · cases h
    · simp at h; exact .inl (by simp [h])
  | cons d l ih =>
    obtain ⟨a, b⟩ := d
    unfold cellsSet at h
    split at h
    · split at h
      · exact .inr h
      · rcases List.mem_cons.1 h with rfl | h
        · exact .inl rfl
        · exact .inr h
    · split at h
      · split at h
        · exact .inr (List.mem_cons_of_mem _ h)
        · rcases List.mem_cons.1 h with rfl | h
          · exact .inl rfl
          · exact .inr (List.mem_cons_of_mem _ h)
      · rcases List.mem_cons.1 h with rfl | h
        · exact .inr (List.mem_cons_self ..)
        · rcases ih h with h | h
          · exact .inl h
          · exact .inr (List.mem_cons_of_mem _ h)

/-- Writing a byte keeps the canonical form. -/
theorem cellsSet_wf (l : List Host.Cell) (x : Nat) (y : Byte) (h : cellsWf l = true) : cellsWf (cellsSet l x y) = true := by
  induction l with
  | nil =>
    unfold cellsSet
    split
    · rfl
    · rename_i hy; simpa [cellsWf] using hy
  | cons d l ih =>
    obtain ⟨a, b⟩ := d
    have ht := cellsWf_tail h
    have habove := cellsWf_above h
    unfold cellsSet
    split
    · split
      · exact h
      · rename_i hxa hy
        refine cellsWf_cons hy h fun c hc => ?_
        rcases List.mem_cons.1 hc with rfl | hc
        · exact hxa
        · exact Nat.lt_trans hxa (habove c hc)
    · split
      · rename_i hxa
        split
        · exact ht
        · rename_i hy; exact cellsWf_cons hy ht fun c hc => hxa ▸ habove c hc
      · rename_i hlt hne
        refine cellsWf_cons (cellsWf_head h) (ih ht) fun c hc => ?_
        rcases mem_cellsSet hc with hc | hc
        · omega
        · exact habove c hc

/-- A read after a write of one byte. -/
theorem cellsGet_cellsSet (l : List Host.Cell) (x : Nat) (y : Byte) (z : Nat) (h : cellsWf l = true) :
    cellsGet (cellsSet l x y) z = if z = x then y else cellsGet l z := by
  induction l with
  | nil =>
    unfold cellsSet
    split
    · rename_i hy; simp [hy]
    · simp [cellsGet_cons, eq_comm]
  | cons d l ih =>
    obtain ⟨a, b⟩ := d
    have ht := cellsWf_tail h
    have habove := cellsWf_above h
    unfold cellsSet
    split
    · rename_i hxa
      split
      · rename_i hy
        by_cases hz : z = x
        · rw [if_pos hz, hz, hy]
          refine cellsGet_below fun c hc => ?_
          rcases List.mem_cons.1 hc with rfl | hc
          · exact hxa
          · exact Nat.lt_trans hxa (habove c hc)
        · rw [if_neg hz]
      · by_cases hz : z = x
        · simp [cellsGet_cons, hz]
        · have : ¬x = z := fun e => hz e.symm
          rw [cellsGet_cons x, if_neg this, if_neg hz]
    · split
      · rename_i hxa
        subst hxa
        split
        · rename_i hy
          by_cases hz : z = x
          · rw [if_pos hz, hz, hy]; exact cellsGet_below habove
          · have : ¬x = z := fun e => hz e.symm
            rw [if_neg hz, cellsGet_cons, if_neg this]
        · by_cases hz : z = x
          · simp [cellsGet_cons, hz]
          · have : ¬x = z := fun e => hz e.symm
            rw [if_neg hz, cellsGet_cons, if_neg this, cellsGet_cons, if_neg this]
      · rename_i hlt hne
        rw [cellsGet_cons, cellsGet_cons, ih ht]
        by_cases hz : a = z
        · have : ¬z = x := fun e => hne (e ▸ hz.symm)
          simp [hz, this]
        · simp [hz]

/-! ## Several bytes -/

theorem cellsWrite_wf (l : List Host.Cell) (a : Nat) (bs : List Byte) (h : cellsWf l = true) :
    cellsWf (cellsWrite l a bs) = true := by
  induction bs generalizing l a with
  | nil => exact h
  | cons b bs ih => exact ih _ _ (cellsSet_wf _ _ _ h)

/-- A read after a write of several bytes: the byte written, or what was there. -/
theorem cellsGet_cellsWrite (l : List Host.Cell) (a : Nat) (bs : List Byte) (z : Nat) (h : cellsWf l = true) :
    cellsGet (cellsWrite l a bs) z = if a ≤ z ∧ z < a + bs.length then bs.getD (z - a) 0 else cellsGet l z := by
  induction bs generalizing l a with
  | nil =>
    show cellsGet l z = _
    rw [if_neg (by simp only [List.length_nil]; omega)]
  | cons b bs ih =>
    show cellsGet (cellsWrite (cellsSet l a b) (a + 1) bs) z = _
    rw [ih _ _ (cellsSet_wf _ _ _ h), cellsGet_cellsSet _ _ _ _ h, List.length_cons]
    by_cases h1 : a + 1 ≤ z ∧ z < a + 1 + bs.length
    · rw [if_pos h1, if_pos (by omega), show z - a = (z - (a + 1)) + 1 by omega, List.getD_cons_succ]
    · rw [if_neg h1]
      by_cases h2 : z = a
      · rw [if_pos h2, if_pos (by omega), h2, Nat.sub_self, List.getD_cons_zero]
      · rw [if_neg h2, if_neg (by omega)]

/-- A write leaves every byte outside it. -/
theorem cellsGet_cellsWrite_of_not_mem (l : List Host.Cell) (a : Nat) (bs : List Byte) (z : Nat) (h : cellsWf l = true)
    (hz : z < a ∨ a + bs.length ≤ z) : cellsGet (cellsWrite l a bs) z = cellsGet l z := by
  rw [cellsGet_cellsWrite _ _ _ _ h, if_neg (by omega)]

theorem cellsFilter_wf (l : List Host.Cell) (p : Host.Cell → Bool) (h : cellsWf l = true) : cellsWf (l.filter p) = true := by
  induction l with
  | nil => rfl
  | cons c l ih =>
    rw [List.filter_cons]
    split
    · exact cellsWf_cons (cellsWf_head h) (ih (cellsWf_tail h)) fun d hd => cellsWf_above h d (List.mem_filter.1 hd).1
    · exact ih (cellsWf_tail h)

theorem cellsClear_wf (l : List Host.Cell) (a n : Nat) (h : cellsWf l = true) : cellsWf (cellsClear l a n) = true :=
  cellsFilter_wf _ _ h

theorem cellsGet_cellsClear (l : List Host.Cell) (a n z : Nat) :
    cellsGet (cellsClear l a n) z = if a ≤ z ∧ z < a + n then 0 else cellsGet l z := by
  induction l with
  | nil => simp [cellsClear]
  | cons c l ih =>
    obtain ⟨x, b⟩ := c
    unfold cellsClear at ih ⊢
    rw [List.filter_cons]
    split
    · rename_i hx
      rw [cellsGet_cons, ih, cellsGet_cons]
      by_cases he : x = z
      · have : ¬(a ≤ z ∧ z < a + n) := by simp at hx; omega
        simp [he, this]
      · simp [he]
    · rename_i hx
      rw [ih, cellsGet_cons]
      by_cases he : x = z
      · have : a ≤ z ∧ z < a + n := by simp at hx; omega
        simp [this]
      · simp [he]

@[simp] theorem cellsRead_length (l : List Host.Cell) (a n : Nat) : (cellsRead l a n).length = n := by simp [cellsRead]

theorem cellsRead_getD (l : List Host.Cell) (a n k : Nat) (h : k < n) : (cellsRead l a n).getD k 0 = cellsGet l (a + k) := by
  simp [cellsRead, List.getD, h]

/-- What is read depends on the bytes of its range only. -/
theorem cellsRead_congr {l m : List Host.Cell} {a n : Nat} (h : ∀ z, a ≤ z → z < a + n → cellsGet l z = cellsGet m z) :
    cellsRead l a n = cellsRead m a n := by
  unfold cellsRead
  refine List.map_congr_left fun i hi => ?_
  have := List.mem_range.1 hi
  exact h _ (by omega) (by omega)

/-- Reading back what was written. -/
theorem cellsRead_cellsWrite (l : List Host.Cell) (a : Nat) (bs : List Byte) (h : cellsWf l = true) :
    cellsRead (cellsWrite l a bs) a bs.length = bs := by
  refine List.ext_getElem (by simp) fun k h1 h2 => ?_
  have hk : k < bs.length := h2
  simp [cellsRead, cellsGet_cellsWrite _ _ _ _ h, hk, List.getD]

/-! ## Little-endian bytes -/

@[simp] theorem leBytes_length (n x : Nat) : (leBytes n x).length = n := by
  induction n generalizing x with
  | zero => rfl
  | succ n ih => simp [leBytes, ih]

theorem leNat_leBytes (n x : Nat) : leNat (leBytes n x) = x % 256 ^ n := by
  induction n generalizing x with
  | zero => simp [leBytes, leNat, Nat.mod_one]
  | succ n ih =>
    simp only [leBytes, leNat, ih, BitVec.toNat_ofNat]
    rw [show (256 : Nat) ^ (n + 1) = 256 * 256 ^ n by ring, Nat.mod_mul]

/-! ## Writes of sectors: the canonical form (R361 to R367) -/

@[simp] theorem State.setRegion_h (s : State) (r : Region) : (s.setRegion r).h = s.h := rfl
@[simp] theorem State.logAt_mem (s : State) (w : Who) (kind cause loc pa va key synd : Nat) :
    (s.logAt w kind cause loc pa va key synd).mem = s.mem := rfl
@[simp] theorem State.mapHarts_memory (s : State) (p : Hart → Bool) (f : Hart → Hart) : (s.mapHarts p f).mem = s.mem := rfl

@[simp] theorem State.quarantine_mem (s : State) (w : Who) (kind pa va key : Nat) : (s.quarantine w kind pa va key).mem = s.mem := by
  unfold State.quarantine; split <;> rfl

@[simp] theorem State.poisonRegion_mem (s : State) (w : Who) (r key va cause : Nat) : (s.poisonRegion w r key va cause).mem = s.mem := by
  unfold State.poisonRegion; simp

@[simp] theorem State.fetchCtr_mem (s : State) (w : Who) (r key va : Nat) : (s.fetchCtr w r key va).mem = s.mem := by
  unfold State.fetchCtr; split <;> rfl

@[simp] theorem State.correct_mem (s : State) (w : Who) (sec loc key va : Nat) : (s.correct w sec loc key va).mem = s.mem := by
  unfold State.correct; split <;> rfl

@[simp] theorem State.logLost_mem (s : State) (w : Who) (cause sec loc key va : Nat) :
    (s.logLost w cause sec loc key va).mem = s.mem := rfl

@[simp] theorem State.post_mem (s : State) (w : Who) (code : Nat) (tval : DWord) : (s.post w code tval).mem = s.mem := by
  unfold State.post; simp only []; repeat' split
  all_goals rfl

@[simp] theorem State.storeSector_mem (s : State) (pa : Nat) (bs : List Byte) (p : Bool) :
    (s.storeSector pa bs p).mem = cellsWrite s.mem pa bs := rfl

@[simp] theorem State.rekey_mem (s : State) (r key : Nat) : (s.rekey r key).mem = cellsClear s.mem (4096 * r) 4096 := rfl

/-- A read of a sector changes no byte. -/
@[simp] theorem State.readSector_mem (s : State) (w : Who) (sec key va : Nat) : (s.readSector w sec key va).2.mem = s.mem := by
  unfold State.readSector; simp only []; repeat' split
  all_goals simp

/-- Nor does a read of a table entry. -/
@[simp] theorem State.readEntry_mem (s : State) (w : Who) (pte va : Nat) : (s.readEntry w pte va).2.mem = s.mem := by
  have h := s.readSector_mem w.walker (pte / 64) (s.region (pte / 4096)).kidx va
  unfold State.readEntry
  generalize s.readSector w.walker (pte / 64) (s.region (pte / 4096)).kidx va = r at h ⊢
  obtain ⟨x, u⟩ := r
  cases x <;> exact h

/-- A write of bytes of a sector keeps the canonical form. -/
theorem State.writeSector_wf (s : State) (w : Who) (pa key : Nat) (va : DWord) (bs : List Byte) (p : Bool) (h : cellsWf s.mem = true) :
    cellsWf (s.writeSector w pa key va bs p).mem = true := by
  have hc := cellsClear_wf s.mem (4096 * (pa / 4096)) 4096 h
  unfold State.writeSector
  simp only []
  repeat' split
  all_goals first
    | exact h
    | simp [h, hc, cellsWrite_wf]

theorem State.setAccDrt_wf (s : State) (e : TlbEntry) (wr : Bool) (h : cellsWf s.mem = true) :
    cellsWf (s.setAccDrt e wr).mem = true := by
  have hr : cellsWf (s.readEntry { asn := e.asn } e.pte e.va).2.mem = true := by rw [s.readEntry_mem]; exact h
  unfold State.setAccDrt State.writeEntry
  generalize s.readEntry { asn := e.asn } e.pte e.va = r at hr ⊢
  obtain ⟨x, u⟩ := r
  cases x
  · exact hr
  · simp only []
    repeat' split
    all_goals first | exact hr | exact State.writeSector_wf _ _ _ _ _ _ _ hr

/-- So does the end of a convoy. -/
theorem State.close_wf (s : State) (h : cellsWf s.mem = true) : cellsWf s.close.mem = true := by
  unfold State.close
  show cellsWf (s.cv.marks.foldl _ s).mem = true
  generalize s.cv.marks = l
  induction l generalizing s with
  | nil => exact h
  | cons m l ih => exact ih _ (State.setAccDrt_wf _ _ _ h)

end Sys2Proof.Machine
end

