-- ==== Sys2Proof/Laws/Members.lean ====
section
/-! SUPPORT. How a member ends: the equations of `run` by what the body answers, of retirement and of the taking of a trap (R109 to R112),
the elements of vector registers (R6, R155), and what a body keeps when each of its parts keeps it. -/

namespace Sys2Proof.Machine

/-! ## Execution of a member -/

theorem run_ok {i : Instr} {body : M Unit} {s t : State} (h : body (s.begin i) = (.ok (), t)) : run i body s = t.retireMember i := by
  unfold run; rw [h]

theorem run_error {i : Instr} {body : M Unit} {s t : State} {e : Exc} (h : body (s.begin i) = (.error e, t)) :
    run i body s = t.endExc i e (if e.partWay then (·.undoPops (s.begin i).h) else id) := by
  unfold run; rw [h]

theorem State.begin_of_active {i : Instr} {s : State} (h : s.cv.active = true) : s.begin i = s := by
  unfold State.begin; rw [if_pos h]

theorem State.begin_of_idle {i : Instr} {s : State} (h : s.cv.active = false) :
    s.begin i = { s with cv := { active := true, base := s.h.pc, low := s.h.lowDead (namedBits i),
                                 resumed := s.h.park.isSome && s.h.resumed, ctrs := s.ctrs }, h0 := s.h } := by
  unfold State.begin; rw [h]; rfl

@[simp] theorem State.begin_mem (i : Instr) (s : State) : (s.begin i).mem = s.mem := by unfold State.begin; split <;> rfl
@[simp] theorem State.begin_h (i : Instr) (s : State) : (s.begin i).h = s.h := by unfold State.begin; split <;> rfl
@[simp] theorem State.begin_harts (i : Instr) (s : State) : (s.begin i).harts = s.harts := by unfold State.begin; split <;> rfl
@[simp] theorem State.begin_tlb (i : Instr) (s : State) : (s.begin i).tlb = s.tlb := by unfold State.begin; split <;> rfl

/-- Counting the elements that a member popped changes neither the hart nor memory; where it popped none, nothing. -/
@[simp] theorem State.countPops_h (s : State) : s.countPops.h = s.h := by unfold State.countPops; split <;> simp
@[simp] theorem State.countPops_mem (s : State) : s.countPops.mem = s.mem := by unfold State.countPops; split <;> simp
theorem State.countPops_of_none {s : State} (h : s.cv.popped = 0) : s.countPops = s := by unfold State.countPops; rw [if_pos h]

/-- The last member of a convoy retires and the convoy with it. -/
theorem State.retireMember_last {i : Instr} {s : State} (hp : s.cv.pend = false) (hk : isChained i = false) :
    s.retireMember i = ((s.pass i).countPops.mapH fun h => { h with park := none }).finish := by
  unfold State.retireMember; simp [hp, hk]

/-- A chained member retires and the next follows. -/
theorem State.retireMember_chained {i : Instr} {s : State} (hp : s.cv.pend = false) (hk : isChained i = true) :
    s.retireMember i = ((s.pass i).countPops.mapH fun h => { h with park := none }).nextMember := by
  unfold State.retireMember; simp [hp, hk]

/-- A trap before effect ends the convoy wherever it is met (R113). -/
theorem State.endExc_before {i : Instr} {s : State} {t : Trap} (h : t.kind = .before) : s.endExc i (.trap t) = s.trapConvoy t := by
  unfold State.endExc; simp [h]

/-- Any other trap of the last member ends the convoy, unless an earlier member had trapped. -/
theorem State.endExc_last {i : Instr} {s : State} {t : Trap} (hp : s.cv.pend = false) (hk : isChained i = false) :
    s.endExc i (.trap t) = s.trapConvoy t := by
  unfold State.endExc State.endMember; simp [hp, hk]
  exact fun _ _ => rfl

/-! A convoy that traps before effect or squashes leaves memory as it is; otherwise the bits of its entries may be set. In both cases
the canonical form stands. -/

theorem State.finish_wf (s : State) (h : cellsWf s.mem = true) : cellsWf s.finish.mem = true := by
  unfold State.finish
  split
  · exact State.close_wf _ (by simpa using h)
  · simpa using h

theorem State.checkedMember_wf (i : Instr) (s : State) (h : cellsWf s.mem = true) : cellsWf (s.checkedMember i).mem = true := by
  unfold State.checkedMember
  split
  · exact h
  · simp only []
    split
    · exact State.close_wf _ h
    · exact h

theorem State.retireMember_wf (i : Instr) (s : State) (h : cellsWf s.mem = true) : cellsWf (s.retireMember i).mem = true := by
  unfold State.retireMember
  split
  · exact s.checkedMember_wf i h
  · simp only []
    have hc : cellsWf (s.pass i).countPops.mem = true := by simpa using h
    split
    · exact hc
    · exact State.finish_wf _ hc

theorem State.trapConvoy_wf (s : State) (t : Trap) (h : cellsWf s.mem = true) : cellsWf (s.trapConvoy t).mem = true := by
  unfold State.trapConvoy
  cases t.kind
  case before | squash => exact h
  all_goals exact State.close_wf _ h

theorem State.waitConvoy_wf (s : State) (r : Nat) (h : cellsWf s.mem = true) : cellsWf (s.waitConvoy r).mem = true := h

theorem State.endMember_wf (i : Instr) (f : State → State) (s : State) (h : cellsWf s.mem = true)
    (hf : ∀ s : State, cellsWf s.mem = true → cellsWf (f s).mem = true) : cellsWf (State.endMember i f s).mem = true := by
  unfold State.endMember
  split
  · exact h
  · exact hf s h

theorem State.endExc_wf (i : Instr) (s : State) (e : Exc) (undo : Hart → Hart) (h : cellsWf s.mem = true) :
    cellsWf (s.endExc i e undo).mem = true := by
  unfold State.endExc
  cases e <;> simp only [] <;> repeat' split
  all_goals first
    | exact h
    | exact State.trapConvoy_wf _ _ h
    | exact State.waitConvoy_wf _ _ h
    | exact State.checkedMember_wf _ _ h
    | exact State.close_wf _ h
    | exact State.endMember_wf _ _ _ h fun s hs => State.trapConvoy_wf (s.mapH undo) _ hs
    | exact State.endMember_wf _ _ _ h fun s hs => State.waitConvoy_wf s _ hs

/-- What a body keeps of the form of memory is kept by its execution, however it ends. -/
theorem run_wf {i : Instr} {body : M Unit} (s : State) (hb : ∀ u : State, cellsWf u.mem = true → cellsWf (body u).2.mem = true)
    (hs : cellsWf s.mem = true) : cellsWf (run i body s).mem = true := by
  have h := hb (s.begin i) (by simpa using hs)
  unfold run
  split
  · rename_i t ht
    rw [ht] at h; exact State.retireMember_wf _ _ h
  · rename_i e t ht
    rw [ht] at h; exact State.endExc_wf _ _ _ _ h

/-! ## Taking a trap (R112) and returning from one (R102) -/

section
variable (h : Hart) (int : Bool) (ac code : Nat) (tval epc : DWord)

@[simp] theorem Hart.enter_pc : (h.enter int ac code tval epc).pc = h.tvec := rfl
@[simp] theorem Hart.enter_tval : (h.enter int ac code tval epc).tval = tval := rfl
@[simp] theorem Hart.enter_epc : (h.enter int ac code tval epc).epc = epc &&& 0x01FFFFFFFFFFFFFC#64 := rfl
@[simp] theorem Hart.enter_park : (h.enter int ac code tval epc).park = none := rfl
@[simp] theorem Hart.enter_prv : (h.enter int ac code tval epc).status.prv = true := rfl
@[simp] theorem Hart.enter_ie : (h.enter int ac code tval epc).status.ie = false := rfl
@[simp] theorem Hart.enter_pprv : (h.enter int ac code tval epc).status.pprv = h.status.prv := rfl
@[simp] theorem Hart.enter_pie : (h.enter int ac code tval epc).status.pie = h.status.ie := rfl
@[simp] theorem Hart.enter_nest : (h.enter int ac code tval epc).status.nest = (h.status.nest || h.status.prv) := rfl
@[simp] theorem Hart.enter_x : (h.enter int ac code tval epc).x = h.x := rfl
@[simp] theorem Hart.enter_v : (h.enter int ac code tval epc).v = h.v := rfl
@[simp] theorem Hart.enter_m : (h.enter int ac code tval epc).m = h.m := rfl
@[simp] theorem Hart.enter_f : (h.enter int ac code tval epc).f = h.f := rfl
@[simp] theorem Hart.enter_q : (h.enter int ac code tval epc).q = h.q := rfl
@[simp] theorem Hart.enter_vl : (h.enter int ac code tval epc).vl = h.vl := rfl
@[simp] theorem Hart.enter_ves : (h.enter int ac code tval epc).ves = h.ves := rfl
@[simp] theorem Hart.enter_vcm : (h.enter int ac code tval epc).vcm = h.vcm := rfl
@[simp] theorem Hart.enter_stbuf : (h.enter int ac code tval epc).stbuf = h.stbuf := rfl
@[simp] theorem Hart.enter_getX (r : BitVec 6) : (h.enter int ac code tval epc).getX r = h.getX r := rfl
end

/-- A trap from user mode, returned from, leaves the mode and the enable as they were, and the pc where the trap was. -/
theorem Hart.enter_leave (h : Hart) (code : Nat) (tval epc : DWord) (he : epc &&& 0x01FFFFFFFFFFFFFC#64 = epc) :
    (h.enter false 0 code tval epc).leave.pc = epc ∧ (h.enter false 0 code tval epc).leave.status.prv = h.status.prv ∧
      (h.enter false 0 code tval epc).leave.status.ie = h.status.ie := ⟨he, rfl, rfl⟩

/-! ## Elements (R6) -/

theorem getLsbD_setBits {n : Nat} (b : BitVec n) (lo w v i : Nat) :
    (setBits b lo w v).getLsbD i = if i < n ∧ lo ≤ i ∧ i < lo + w then v.testBit (i - lo) else b.getLsbD i := by
  unfold setBits
  simp only [BitVec.getLsbD_or, BitVec.getLsbD_and, BitVec.getLsbD_not, BitVec.getLsbD_shiftLeft, BitVec.getLsbD_ofNat,
    Nat.testBit_two_pow_sub_one, Nat.testBit_mod_two_pow]
  by_cases hn : i < n
  · by_cases hl : lo ≤ i
    · by_cases hw : i < lo + w
      · have h1 : ¬ i < lo := by omega
        have h2 : i - lo < w := by omega
        have h3 : i - lo < n := by omega
        simp [hn, hl, hw, h1, h2, h3]
      · have h1 : ¬ i < lo := by omega
        have h2 : ¬ i - lo < w := by omega
        simp [hn, hl, hw, h2]
    · have h1 : i < lo := by omega
      simp [hn, hl, h1]
  · simp [hn, BitVec.getLsbD_of_ge b i (by omega)]

@[simp] theorem VReg.setElt_bits (r : VReg) (w e v : Nat) (p : Bool) : (r.setElt w e v p).bits = setBits r.bits (e * w) w v := rfl

theorem VReg.testBit_elt (r : VReg) (w e j : Nat) : (r.elt w e).testBit j = (decide (j < w) && r.bits.getLsbD (e * w + j)) := by
  unfold VReg.elt
  rw [Nat.testBit_mod_two_pow, Nat.testBit_div_two_pow, ← BitVec.testBit_toNat, Nat.add_comm]

/-- An element reads back as it was written. -/
theorem VReg.elt_setElt_same (r : VReg) (w e v : Nat) (p : Bool) (h : (e + 1) * w ≤ 16384) :
    (r.setElt w e v p).elt w e = v % 2 ^ w := by
  refine Nat.eq_of_testBit_eq fun j => ?_
  rw [VReg.testBit_elt, VReg.setElt_bits, getLsbD_setBits, Nat.testBit_mod_two_pow]
  by_cases hj : j < w
  · have : e * w + j < 16384 := by have : (e + 1) * w = e * w + w := Nat.succ_mul e w; omega
    rw [if_pos ⟨this, by omega, by omega⟩]; simp
  · simp [hj]

/-- Every other element of that width is as it was. -/
theorem VReg.elt_setElt_other (r : VReg) (w e f v : Nat) (p : Bool) (h : f ≠ e) : (r.setElt w e v p).elt w f = r.elt w f := by
  refine Nat.eq_of_testBit_eq fun j => ?_
  rw [VReg.testBit_elt, VReg.testBit_elt, VReg.setElt_bits, getLsbD_setBits]
  by_cases hj : j < w
  · have : ¬(e * w ≤ f * w + j ∧ f * w + j < e * w + w) := by
      rcases Nat.lt_or_gt_of_ne h with hlt | hgt
      · have : (f + 1) * w ≤ e * w := Nat.mul_le_mul_right w hlt
        rw [Nat.succ_mul] at this; omega
      · have : (e + 1) * w ≤ f * w := Nat.mul_le_mul_right w hgt
        rw [Nat.succ_mul] at this; omega
    rw [if_neg fun c => this c.2]
  · simp [hj]

/-! ## Local storage (R33) -/

theorem localSetByte_size (m : Local) (off : Nat) (b : Byte) : (localSetByte m off b).size = m.size := by
  unfold localSetByte; split <;> rfl

theorem localSetByte_wf (m : Local) (off : Nat) (b : Byte) (h : cellsWf m.cells = true) :
    cellsWf (localSetByte m off b).cells = true := by
  unfold localSetByte
  split
  · exact h
  · exact cellsSet_wf _ _ _ h

theorem localWrite_wf (m : Local) (off : Nat) (bs : List Byte) (p : Bool) (h : cellsWf m.cells = true) :
    cellsWf (localWrite m off bs p).cells = true := by
  unfold localWrite
  show cellsWf (List.foldl _ m _).cells = true
  generalize List.range bs.length = l
  induction l generalizing m with
  | nil => exact h
  | cons i l ih => exact ih _ (localSetByte_wf _ _ _ h)

/-! ## What a body keeps -/

/-- Whatever state the body begins in, a property of it still holds when the body ends, in whatever way. -/
def Keeps {α : Type} (p : State → Prop) (m : M α) : Prop := ∀ s, p s → p (m s).2

section
variable {α β : Type} {p : State → Prop}

theorem Keeps.pure (a : α) : Keeps p (Pure.pure a : M α) := fun _ h => h
theorem Keeps.throw (e : Exc) : Keeps p (MonadExcept.throw e : M α) := fun _ h => h
theorem Keeps.get : Keeps p (MonadState.get : M State) := fun _ h => h
theorem Keeps.set {t : State} (h : p t) : Keeps p (MonadStateOf.set t : M PUnit) := fun _ _ => h
theorem Keeps.modify {f : State → State} (h : ∀ s, p s → p (f s)) : Keeps p (modify f : M PUnit) := fun s hs => h s hs

theorem Keeps.bind {m : M α} {f : α → M β} (hm : Keeps p m) (hf : ∀ a, Keeps p (f a)) : Keeps p (m >>= f) := by
  intro s hs
  have h := hm s hs
  show p ((ExceptT.bind m f) s).2
  unfold ExceptT.bind ExceptT.mk
  show p ((StateT.bind m (ExceptT.bindCont f)) s).2
  unfold StateT.bind
  show p ((match m s with | (a, s') => ExceptT.bindCont f a s')).2
  generalize hms : m s = r at h
  obtain ⟨a, t⟩ := r
  cases a with
  | ok a => exact hf a t h
  | error e => exact h

theorem Keeps.ite {c : Prop} [Decidable c] {m n : M α} (hm : Keeps p m) (hn : Keeps p n) : Keeps p (if c then m else n) := by
  split <;> assumption

/-- A loop keeps what one pass keeps. -/
theorem Keeps.forM {l : List β} {f : β → M PUnit} (h : ∀ b, Keeps p (f b)) : Keeps p (l.forM f) := by
  induction l with
  | nil => exact Keeps.pure _
  | cons b l ih => exact Keeps.bind (h b) fun _ => ih

theorem Keeps.foldlM {l : List β} {f : α → β → M α} (h : ∀ a b, Keeps p (f a b)) (a : α) : Keeps p (l.foldlM f a) := by
  induction l generalizing a with
  | nil => exact Keeps.pure _
  | cons b l ih => exact Keeps.bind (h a b) fun a => ih a

theorem Keeps.before (code : Nat) (tval : DWord) : Keeps p (before code tval : M α) := Keeps.throw _
theorem Keeps.squash (code : Nat) (tval : DWord) : Keeps p (squash code tval : M α) := Keeps.throw _
theorem Keeps.getH : Keeps p Machine.getH := fun _ h => h
theorem Keeps.modH {f : Hart → Hart} (h : ∀ s, p s → p { s with h := f s.h }) : Keeps p (modH f) := fun s hs => h s hs
end

end Sys2Proof.Machine
end

