-- ==== Sys2Proof/Laws/PerInstr.lean ====
section
/-! SUPPORT. The family Encoding, one lemma for each constructor: word 0 fits in 32 bits, its length field says the form,
and the words are as many as the form has (R40). A row without a word has none. -/

set_option Elab.async false

namespace Sys2Proof.Laws

/-- The encoding of an instruction has the length that its word 0 announces. -/
def Encoding.Statement (i : Instr) : Prop :=
  match formOf i with
  | none => encode i = []
  | some fm => encodeWord0 i < 2 ^ 32 ∧ encodeWord0 i % 4 = fm.code ∧ 4 * (encode i).length = fm.len

theorem formCode_lt (fm : Form) : fm.code < 4 := by cases fm <;> simp [Form.code]

theorem toNat_le (b : Bool) : b.toNat ≤ 1 := by cases b <;> decide

/-- The words of a row that has a form are as many as the form has. -/
theorem encode_length (i : Instr) (fm : Form) (h : formOf i = some fm) : 4 * (encode i).length = fm.len := by
  cases fm <;> simp [encode, h, Form.len, Form.code, lenOfL]

theorem Encoding.of_word {i : Instr} {fm : Form} (h : formOf i = some fm)
    (hw : encodeWord0 i < 2 ^ 32 ∧ encodeWord0 i % 4 = fm.code) : Encoding.Statement i := by
  simp only [Encoding.Statement, h]
  exact ⟨hw.1, hw.2, encode_length i fm h⟩

theorem cmpOpCode_lt (x : CmpOp) : x.code < 8 := by cases x <;> decide

theorem waitOpCode_lt (x : WaitOp) : x.code < 8 := by cases x <;> decide

theorem redOpCode_lt (x : RedOp) : x.code < 8 := by cases x <;> decide

theorem isectOpCode_lt (x : IsectOp) : x.code < 8 := by cases x <;> decide

theorem unionOpCode_lt (x : UnionOp) : x.code < 8 := by cases x <;> decide

theorem sortOpCode_lt (x : SortOp) : x.code < 4 := by cases x <;> decide

theorem amoOpCode_lt (x : AmoOp) : x.code < 8 := by cases x <;> decide

theorem diagSpaceCode_lt (x : DiagSpace) : x.code < 4 := by cases x <;> decide

theorem scopeCode_lt (x : Scope) : x.code < 8 := by cases x <;> decide

theorem vamoOpCode_lt (x : VamoOp) : x.code < 8 := by cases x with
  | int op => cases op <;> decide
  | fadd => decide

theorem Encoding.add (fm : Form) (d : BitVec 6) (a : BitVec 6) (b : BitVec 6) : Encoding.Statement (.add fm d a b) := by
  have h0 := formCode_lt fm
  have h1 := d.isLt
  have h2 := a.isLt
  have h3 := b.isLt
  exact Encoding.of_word rfl (by delta encodeWord0; dsimp only; omega)

theorem Encoding.sub (fm : Form) (d : BitVec 6) (a : BitVec 6) (b : BitVec 6) : Encoding.Statement (.sub fm d a b) := by
  have h0 := formCode_lt fm
  have h1 := d.isLt
  have h2 := a.isLt
  have h3 := b.isLt
  exact Encoding.of_word rfl (by delta encodeWord0; dsimp only; omega)

theorem Encoding.mul (fm : Form) (d : BitVec 6) (a : BitVec 6) (b : BitVec 6) : Encoding.Statement (.mul fm d a b) := by
  have h0 := formCode_lt fm
  have h1 := d.isLt
  have h2 := a.isLt
  have h3 := b.isLt
  exact Encoding.of_word rfl (by delta encodeWord0; dsimp only; omega)

theorem Encoding.mulh (fm : Form) (d : BitVec 6) (a : BitVec 6) (b : BitVec 6) : Encoding.Statement (.mulh fm d a b) := by
  have h0 := formCode_lt fm
  have h1 := d.isLt
  have h2 := a.isLt
  have h3 := b.isLt
  exact Encoding.of_word rfl (by delta encodeWord0; dsimp only; omega)

theorem Encoding.mulhN (fm : Form) (d : BitVec 6) (a : BitVec 6) (b : BitVec 6) : Encoding.Statement (.mulhN fm d a b) := by
  have h0 := formCode_lt fm
  have h1 := d.isLt
  have h2 := a.isLt
  have h3 := b.isLt
  exact Encoding.of_word rfl (by delta encodeWord0; dsimp only; omega)

theorem Encoding.div (fm : Form) (d : BitVec 6) (a : BitVec 6) (b : BitVec 6) : Encoding.Statement (.div fm d a b) := by
  have h0 := formCode_lt fm
  have h1 := d.isLt
  have h2 := a.isLt
  have h3 := b.isLt
  exact Encoding.of_word rfl (by delta encodeWord0; dsimp only; omega)

theorem Encoding.divN (fm : Form) (d : BitVec 6) (a : BitVec 6) (b : BitVec 6) : Encoding.Statement (.divN fm d a b) := by
  have h0 := formCode_lt fm
  have h1 := d.isLt
  have h2 := a.isLt
  have h3 := b.isLt
  exact Encoding.of_word rfl (by delta encodeWord0; dsimp only; omega)

theorem Encoding.rem (fm : Form) (d : BitVec 6) (a : BitVec 6) (b : BitVec 6) : Encoding.Statement (.rem fm d a b) := by
  have h0 := formCode_lt fm
  have h1 := d.isLt
  have h2 := a.isLt
  have h3 := b.isLt
  exact Encoding.of_word rfl (by delta encodeWord0; dsimp only; omega)

theorem Encoding.remN (fm : Form) (d : BitVec 6) (a : BitVec 6) (b : BitVec 6) : Encoding.Statement (.remN fm d a b) := by
  have h0 := formCode_lt fm
  have h1 := d.isLt
  have h2 := a.isLt
  have h3 := b.isLt
  exact Encoding.of_word rfl (by delta encodeWord0; dsimp only; omega)

theorem Encoding.and (fm : Form) (d : BitVec 6) (a : BitVec 6) (b : BitVec 6) : Encoding.Statement (.and fm d a b) := by
  have h0 := formCode_lt fm
  have h1 := d.isLt
  have h2 := a.isLt
  have h3 := b.isLt
  exact Encoding.of_word rfl (by delta encodeWord0; dsimp only; omega)

theorem Encoding.or (fm : Form) (d : BitVec 6) (a : BitVec 6) (b : BitVec 6) : Encoding.Statement (.or fm d a b) := by
  have h0 := formCode_lt fm
  have h1 := d.isLt
  have h2 := a.isLt
  have h3 := b.isLt
  exact Encoding.of_word rfl (by delta encodeWord0; dsimp only; omega)

theorem Encoding.xor (fm : Form) (d : BitVec 6) (a : BitVec 6) (b : BitVec 6) : Encoding.Statement (.xor fm d a b) := by
  have h0 := formCode_lt fm
  have h1 := d.isLt
  have h2 := a.isLt
  have h3 := b.isLt
  exact Encoding.of_word rfl (by delta encodeWord0; dsimp only; omega)

theorem Encoding.andn (fm : Form) (d : BitVec 6) (a : BitVec 6) (b : BitVec 6) : Encoding.Statement (.andn fm d a b) := by
  have h0 := formCode_lt fm
  have h1 := d.isLt
  have h2 := a.isLt
  have h3 := b.isLt
  exact Encoding.of_word rfl (by delta encodeWord0; dsimp only; omega)

theorem Encoding.shl (fm : Form) (d : BitVec 6) (a : BitVec 6) (b : BitVec 6) : Encoding.Statement (.shl fm d a b) := by
  have h0 := formCode_lt fm
  have h1 := d.isLt
  have h2 := a.isLt
  have h3 := b.isLt
  exact Encoding.of_word rfl (by delta encodeWord0; dsimp only; omega)

theorem Encoding.shr (fm : Form) (d : BitVec 6) (a : BitVec 6) (b : BitVec 6) : Encoding.Statement (.shr fm d a b) := by
  have h0 := formCode_lt fm
  have h1 := d.isLt
  have h2 := a.isLt
  have h3 := b.isLt
  exact Encoding.of_word rfl (by delta encodeWord0; dsimp only; omega)

theorem Encoding.sar (fm : Form) (d : BitVec 6) (a : BitVec 6) (b : BitVec 6) : Encoding.Statement (.sar fm d a b) := by
  have h0 := formCode_lt fm
  have h1 := d.isLt
  have h2 := a.isLt
  have h3 := b.isLt
  exact Encoding.of_word rfl (by delta encodeWord0; dsimp only; omega)

theorem Encoding.rol (fm : Form) (d : BitVec 6) (a : BitVec 6) (b : BitVec 6) : Encoding.Statement (.rol fm d a b) := by
  have h0 := formCode_lt fm
  have h1 := d.isLt
  have h2 := a.isLt
  have h3 := b.isLt
  exact Encoding.of_word rfl (by delta encodeWord0; dsimp only; omega)

theorem Encoding.addImm (fm : Form) (d : BitVec 6) (i : BitVec 12) : Encoding.Statement (.addImm fm d i) := by
  have h0 := formCode_lt fm
  have h1 := d.isLt
  have h2 := i.isLt
  exact Encoding.of_word rfl (by delta encodeWord0; dsimp only; omega)

theorem Encoding.li (fm : Form) (d : BitVec 6) (i : BitVec 12) : Encoding.Statement (.li fm d i) := by
  have h0 := formCode_lt fm
  have h1 := d.isLt
  have h2 := i.isLt
  exact Encoding.of_word rfl (by delta encodeWord0; dsimp only; omega)

theorem Encoding.mov (fm : Form) (d : BitVec 6) (s : BitVec 6) : Encoding.Statement (.mov fm d s) := by
  have h0 := formCode_lt fm
  have h1 := d.isLt
  have h2 := s.isLt
  exact Encoding.of_word rfl (by delta encodeWord0; dsimp only; omega)

theorem Encoding.andImm (fm : Form) (d : BitVec 6) (i : BitVec 12) : Encoding.Statement (.andImm fm d i) := by
  have h0 := formCode_lt fm
  have h1 := d.isLt
  have h2 := i.isLt
  exact Encoding.of_word rfl (by delta encodeWord0; dsimp only; omega)

theorem Encoding.orImm (fm : Form) (d : BitVec 6) (i : BitVec 12) : Encoding.Statement (.orImm fm d i) := by
  have h0 := formCode_lt fm
  have h1 := d.isLt
  have h2 := i.isLt
  exact Encoding.of_word rfl (by delta encodeWord0; dsimp only; omega)

theorem Encoding.xorImm (fm : Form) (d : BitVec 6) (i : BitVec 12) : Encoding.Statement (.xorImm fm d i) := by
  have h0 := formCode_lt fm
  have h1 := d.isLt
  have h2 := i.isLt
  exact Encoding.of_word rfl (by delta encodeWord0; dsimp only; omega)

theorem Encoding.shlImm (fm : Form) (d : BitVec 6) (i : BitVec 12) : Encoding.Statement (.shlImm fm d i) := by
  have h0 := formCode_lt fm
  have h1 := d.isLt
  have h2 := i.isLt
  exact Encoding.of_word rfl (by delta encodeWord0; dsimp only; omega)

theorem Encoding.shrImm (fm : Form) (d : BitVec 6) (i : BitVec 12) : Encoding.Statement (.shrImm fm d i) := by
  have h0 := formCode_lt fm
  have h1 := d.isLt
  have h2 := i.isLt
  exact Encoding.of_word rfl (by delta encodeWord0; dsimp only; omega)

theorem Encoding.sarImm (fm : Form) (d : BitVec 6) (i : BitVec 12) : Encoding.Statement (.sarImm fm d i) := by
  have h0 := formCode_lt fm
  have h1 := d.isLt
  have h2 := i.isLt
  exact Encoding.of_word rfl (by delta encodeWord0; dsimp only; omega)

theorem Encoding.rolImm (fm : Form) (d : BitVec 6) (i : BitVec 12) : Encoding.Statement (.rolImm fm d i) := by
  have h0 := formCode_lt fm
  have h1 := d.isLt
  have h2 := i.isLt
  exact Encoding.of_word rfl (by delta encodeWord0; dsimp only; omega)

theorem Encoding.mulImm (fm : Form) (d : BitVec 6) (i : BitVec 12) : Encoding.Statement (.mulImm fm d i) := by
  have h0 := formCode_lt fm
  have h1 := d.isLt
  have h2 := i.isLt
  exact Encoding.of_word rfl (by delta encodeWord0; dsimp only; omega)

theorem Encoding.clz (fm : Form) (d : BitVec 6) (a : BitVec 6) : Encoding.Statement (.clz fm d a) := by
  have h0 := formCode_lt fm
  have h1 := d.isLt
  have h2 := a.isLt
  exact Encoding.of_word rfl (by delta encodeWord0; dsimp only; omega)

theorem Encoding.ctz (fm : Form) (d : BitVec 6) (a : BitVec 6) : Encoding.Statement (.ctz fm d a) := by
  have h0 := formCode_lt fm
  have h1 := d.isLt
  have h2 := a.isLt
  exact Encoding.of_word rfl (by delta encodeWord0; dsimp only; omega)

theorem Encoding.popc (fm : Form) (d : BitVec 6) (a : BitVec 6) : Encoding.Statement (.popc fm d a) := by
  have h0 := formCode_lt fm
  have h1 := d.isLt
  have h2 := a.isLt
  exact Encoding.of_word rfl (by delta encodeWord0; dsimp only; omega)

theorem Encoding.bext (fm : Form) (d : BitVec 6) (a : BitVec 6) (b : BitVec 6) : Encoding.Statement (.bext fm d a b) := by
  have h0 := formCode_lt fm
  have h1 := d.isLt
  have h2 := a.isLt
  have h3 := b.isLt
  exact Encoding.of_word rfl (by delta encodeWord0; dsimp only; omega)

theorem Encoding.bins (fm : Form) (d : BitVec 6) (a : BitVec 6) (b : BitVec 6) : Encoding.Statement (.bins fm d a b) := by
  have h0 := formCode_lt fm
  have h1 := d.isLt
  have h2 := a.isLt
  have h3 := b.isLt
  exact Encoding.of_word rfl (by delta encodeWord0; dsimp only; omega)

theorem Encoding.sel (fm : Form) (d : BitVec 6) (a : BitVec 6) (b : BitVec 6) : Encoding.Statement (.sel fm d a b) := by
  have h0 := formCode_lt fm
  have h1 := d.isLt
  have h2 := a.isLt
  have h3 := b.isLt
  exact Encoding.of_word rfl (by delta encodeWord0; dsimp only; omega)

theorem Encoding.min (fm : Form) (d : BitVec 6) (a : BitVec 6) (b : BitVec 6) : Encoding.Statement (.min fm d a b) := by
  have h0 := formCode_lt fm
  have h1 := d.isLt
  have h2 := a.isLt
  have h3 := b.isLt
  exact Encoding.of_word rfl (by delta encodeWord0; dsimp only; omega)

theorem Encoding.max (fm : Form) (d : BitVec 6) (a : BitVec 6) (b : BitVec 6) : Encoding.Statement (.max fm d a b) := by
  have h0 := formCode_lt fm
  have h1 := d.isLt
  have h2 := a.isLt
  have h3 := b.isLt
  exact Encoding.of_word rfl (by delta encodeWord0; dsimp only; omega)

theorem Encoding.minN (fm : Form) (d : BitVec 6) (a : BitVec 6) (b : BitVec 6) : Encoding.Statement (.minN fm d a b) := by
  have h0 := formCode_lt fm
  have h1 := d.isLt
  have h2 := a.isLt
  have h3 := b.isLt
  exact Encoding.of_word rfl (by delta encodeWord0; dsimp only; omega)

theorem Encoding.maxN (fm : Form) (d : BitVec 6) (a : BitVec 6) (b : BitVec 6) : Encoding.Statement (.maxN fm d a b) := by
  have h0 := formCode_lt fm
  have h1 := d.isLt
  have h2 := a.isLt
  have h3 := b.isLt
  exact Encoding.of_word rfl (by delta encodeWord0; dsimp only; omega)

theorem Encoding.bEq (fm : Form) (a : BitVec 6) (b : BitVec 6) (p : BitVec 8) : Encoding.Statement (.bEq fm a b p) := by
  have h0 := formCode_lt fm
  have h1 := a.isLt
  have h2 := b.isLt
  have h3 := p.isLt
  exact Encoding.of_word rfl (by delta encodeWord0; dsimp only; omega)

theorem Encoding.bNe (fm : Form) (a : BitVec 6) (b : BitVec 6) (p : BitVec 8) : Encoding.Statement (.bNe fm a b p) := by
  have h0 := formCode_lt fm
  have h1 := a.isLt
  have h2 := b.isLt
  have h3 := p.isLt
  exact Encoding.of_word rfl (by delta encodeWord0; dsimp only; omega)

theorem Encoding.bLt (fm : Form) (a : BitVec 6) (b : BitVec 6) (p : BitVec 8) : Encoding.Statement (.bLt fm a b p) := by
  have h0 := formCode_lt fm
  have h1 := a.isLt
  have h2 := b.isLt
  have h3 := p.isLt
  exact Encoding.of_word rfl (by delta encodeWord0; dsimp only; omega)

theorem Encoding.bGe (fm : Form) (a : BitVec 6) (b : BitVec 6) (p : BitVec 8) : Encoding.Statement (.bGe fm a b p) := by
  have h0 := formCode_lt fm
  have h1 := a.isLt
  have h2 := b.isLt
  have h3 := p.isLt
  exact Encoding.of_word rfl (by delta encodeWord0; dsimp only; omega)

theorem Encoding.bLtn (fm : Form) (a : BitVec 6) (b : BitVec 6) (p : BitVec 8) : Encoding.Statement (.bLtn fm a b p) := by
  have h0 := formCode_lt fm
  have h1 := a.isLt
  have h2 := b.isLt
  have h3 := p.isLt
  exact Encoding.of_word rfl (by delta encodeWord0; dsimp only; omega)

theorem Encoding.bGen (fm : Form) (a : BitVec 6) (b : BitVec 6) (p : BitVec 8) : Encoding.Statement (.bGen fm a b p) := by
  have h0 := formCode_lt fm
  have h1 := a.isLt
  have h2 := b.isLt
  have h3 := p.isLt
  exact Encoding.of_word rfl (by delta encodeWord0; dsimp only; omega)

theorem Encoding.jmp (fm : Form) (p : BitVec 17) : Encoding.Statement (.jmp fm p) := by
  have h0 := formCode_lt fm
  have h1 := p.isLt
  exact Encoding.of_word rfl (by delta encodeWord0; dsimp only; omega)

theorem Encoding.call (fm : Form) (d : BitVec 6) (p : BitVec 17) : Encoding.Statement (.call fm d p) := by
  have h0 := formCode_lt fm
  have h1 := d.isLt
  have h2 := p.isLt
  exact Encoding.of_word rfl (by delta encodeWord0; dsimp only; omega)

theorem Encoding.jmpReg (fm : Form) (q : BitVec 6) : Encoding.Statement (.jmpReg fm q) := by
  have h0 := formCode_lt fm
  have h1 := q.isLt
  exact Encoding.of_word rfl (by delta encodeWord0; dsimp only; omega)

theorem Encoding.callReg (fm : Form) (q : BitVec 6) (s : BitVec 6) : Encoding.Statement (.callReg fm q s) := by
  have h0 := formCode_lt fm
  have h1 := q.isLt
  have h2 := s.isLt
  exact Encoding.of_word rfl (by delta encodeWord0; dsimp only; omega)

theorem Encoding.ret (fm : Form) (q : BitVec 6) : Encoding.Statement (.ret fm q) := by
  have h0 := formCode_lt fm
  have h1 := q.isLt
  exact Encoding.of_word rfl (by delta encodeWord0; dsimp only; omega)

theorem Encoding.setvl (fm : Form) (d : BitVec 6) (a : BitVec 6) (w : BitVec 2) : Encoding.Statement (.setvl fm d a w) := by
  have h0 := formCode_lt fm
  have h1 := d.isLt
  have h2 := a.isLt
  have h3 := w.isLt
  exact Encoding.of_word rfl (by delta encodeWord0; dsimp only; omega)

theorem Encoding.vjoin (fm : Form) (two : Bool) : Encoding.Statement (.vjoin fm two) := by
  have h0 := formCode_lt fm
  have h1 := toNat_le two
  exact Encoding.of_word rfl (by delta encodeWord0; dsimp only; omega)

theorem Encoding.vsplit (fm : Form) (four : Bool) : Encoding.Statement (.vsplit fm four) := by
  have h0 := formCode_lt fm
  have h1 := toNat_le four
  exact Encoding.of_word rfl (by delta encodeWord0; dsimp only; omega)

theorem Encoding.mfs (fm : Form) (d : BitVec 6) (sys : BitVec 12) : Encoding.Statement (.mfs fm d sys) := by
  have h0 := formCode_lt fm
  have h1 := d.isLt
  have h2 := sys.isLt
  exact Encoding.of_word rfl (by delta encodeWord0; dsimp only; omega)

theorem Encoding.mts (fm : Form) (a : BitVec 6) (sys : BitVec 12) : Encoding.Statement (.mts fm a sys) := by
  have h0 := formCode_lt fm
  have h1 := a.isLt
  have h2 := sys.isLt
  exact Encoding.of_word rfl (by delta encodeWord0; dsimp only; omega)

theorem Encoding.trap (fm : Form) (n : BitVec 12) : Encoding.Statement (.trap fm n) := by
  have h0 := formCode_lt fm
  have h1 := n.isLt
  exact Encoding.of_word rfl (by delta encodeWord0; dsimp only; omega)

theorem Encoding.eret (fm : Form) : Encoding.Statement (.eret fm) := by
  have h0 := formCode_lt fm
  exact Encoding.of_word rfl (by delta encodeWord0; dsimp only; omega)

theorem Encoding.yield (fm : Form) : Encoding.Statement (.yield fm) := by
  have h0 := formCode_lt fm
  exact Encoding.of_word rfl (by delta encodeWord0; dsimp only; omega)

theorem Encoding.wfe (fm : Form) : Encoding.Statement (.wfe fm) := by
  have h0 := formCode_lt fm
  exact Encoding.of_word rfl (by delta encodeWord0; dsimp only; omega)

theorem Encoding.lds (fm : Form) (d : BitVec 6) (b : BitVec 6) (i : BitVec 6) (w : BitVec 2) (t : Bool) : Encoding.Statement (.lds fm d b i w t) := by
  have h0 := formCode_lt fm
  have h1 := d.isLt
  have h2 := b.isLt
  have h3 := i.isLt
  have h4 := w.isLt
  have h5 := toNat_le t
  exact Encoding.of_word rfl (by delta encodeWord0; dsimp only; omega)

theorem Encoding.ldD (fm : Form) (d : BitVec 6) (b : BitVec 6) (i : BitVec 6) (t : Bool) : Encoding.Statement (.ldD fm d b i t) := by
  have h0 := formCode_lt fm
  have h1 := d.isLt
  have h2 := b.isLt
  have h3 := i.isLt
  have h4 := toNat_le t
  exact Encoding.of_word rfl (by delta encodeWord0; dsimp only; omega)

theorem Encoding.ldz (fm : Form) (d : BitVec 6) (b : BitVec 6) (i : BitVec 6) (w : BitVec 2) (t : Bool) : Encoding.Statement (.ldz fm d b i w t) := by
  have h0 := formCode_lt fm
  have h1 := d.isLt
  have h2 := b.isLt
  have h3 := i.isLt
  have h4 := w.isLt
  have h5 := toNat_le t
  exact Encoding.of_word rfl (by delta encodeWord0; dsimp only; omega)

theorem Encoding.st (fm : Form) (v : BitVec 6) (b : BitVec 6) (i : BitVec 6) (w : BitVec 2) (t : Bool) : Encoding.Statement (.st fm v b i w t) := by
  have h0 := formCode_lt fm
  have h1 := v.isLt
  have h2 := b.isLt
  have h3 := i.isLt
  have h4 := w.isLt
  have h5 := toNat_le t
  exact Encoding.of_word rfl (by delta encodeWord0; dsimp only; omega)

theorem Encoding.ldacq (fm : Form) (d : BitVec 6) (b : BitVec 6) (i : BitVec 6) (w : Bool) (c : Scope) : Encoding.Statement (.ldacq fm d b i w c) := by
  have h0 := formCode_lt fm
  have h1 := d.isLt
  have h2 := b.isLt
  have h3 := i.isLt
  have h4 := toNat_le w
  have h5 := scopeCode_lt c
  exact Encoding.of_word rfl (by delta encodeWord0; dsimp only; omega)

theorem Encoding.strel (fm : Form) (v : BitVec 6) (b : BitVec 6) (i : BitVec 6) (w : Bool) (c : Scope) : Encoding.Statement (.strel fm v b i w c) := by
  have h0 := formCode_lt fm
  have h1 := v.isLt
  have h2 := b.isLt
  have h3 := i.isLt
  have h4 := toNat_le w
  have h5 := scopeCode_lt c
  exact Encoding.of_word rfl (by delta encodeWord0; dsimp only; omega)

theorem Encoding.fenceSv (fm : Form) : Encoding.Statement (.fenceSv fm) := by
  have h0 := formCode_lt fm
  exact Encoding.of_word rfl (by delta encodeWord0; dsimp only; omega)

theorem Encoding.fenceVs (fm : Form) : Encoding.Statement (.fenceVs fm) := by
  have h0 := formCode_lt fm
  exact Encoding.of_word rfl (by delta encodeWord0; dsimp only; omega)

theorem Encoding.fence (fm : Form) (c : Scope) : Encoding.Statement (.fence fm c) := by
  have h0 := formCode_lt fm
  have h1 := scopeCode_lt c
  exact Encoding.of_word rfl (by delta encodeWord0; dsimp only; omega)

theorem Encoding.pref (fm : Form) (b : BitVec 6) (i : BitVec 6) (l : BitVec 2) : Encoding.Statement (.pref fm b i l) := by
  have h0 := formCode_lt fm
  have h1 := b.isLt
  have h2 := i.isLt
  have h3 := l.isLt
  exact Encoding.of_word rfl (by delta encodeWord0; dsimp only; omega)

theorem Encoding.tlbinvVa (fm : Form) (a : BitVec 6) (s : BitVec 6) : Encoding.Statement (.tlbinvVa fm a s) := by
  have h0 := formCode_lt fm
  have h1 := a.isLt
  have h2 := s.isLt
  exact Encoding.of_word rfl (by delta encodeWord0; dsimp only; omega)

theorem Encoding.tlbinvAsn (fm : Form) (s : BitVec 6) : Encoding.Statement (.tlbinvAsn fm s) := by
  have h0 := formCode_lt fm
  have h1 := s.isLt
  exact Encoding.of_word rfl (by delta encodeWord0; dsimp only; omega)

theorem Encoding.tlbinvAll (fm : Form) : Encoding.Statement (.tlbinvAll fm) := by
  have h0 := formCode_lt fm
  exact Encoding.of_word rfl (by delta encodeWord0; dsimp only; omega)

theorem Encoding.vld (fm : Form) (v : BitVec 5) (b : BitVec 6) (w : BitVec 2) (t : Bool) (k : Bool) : Encoding.Statement (.vld fm v b w t k) := by
  have h0 := formCode_lt fm
  have h1 := v.isLt
  have h2 := b.isLt
  have h3 := w.isLt
  have h4 := toNat_le t
  have h5 := toNat_le k
  exact Encoding.of_word rfl (by delta encodeWord0; dsimp only; omega)

theorem Encoding.vlds (fm : Form) (v : BitVec 5) (b : BitVec 6) (c : BitVec 6) (w : BitVec 2) (t : Bool) (k : Bool) : Encoding.Statement (.vlds fm v b c w t k) := by
  have h0 := formCode_lt fm
  have h1 := v.isLt
  have h2 := b.isLt
  have h3 := c.isLt
  have h4 := w.isLt
  have h5 := toNat_le t
  have h6 := toNat_le k
  exact Encoding.of_word rfl (by delta encodeWord0; dsimp only; omega)

theorem Encoding.vldx (fm : Form) (v : BitVec 5) (b : BitVec 6) (c : BitVec 5) (w : BitVec 2) (s : Bool) (t : Bool) (i : Bool) (k : Bool) : Encoding.Statement (.vldx fm v b c w s t i k) := by
  have h0 := formCode_lt fm
  have h1 := v.isLt
  have h2 := b.isLt
  have h3 := c.isLt
  have h4 := w.isLt
  have h5 := toNat_le s
  have h6 := toNat_le t
  have h7 := toNat_le i
  have h8 := toNat_le k
  exact Encoding.of_word rfl (by delta encodeWord0; dsimp only; omega)

theorem Encoding.vst (fm : Form) (v : BitVec 5) (b : BitVec 6) (w : BitVec 2) (t : Bool) (k : Bool) : Encoding.Statement (.vst fm v b w t k) := by
  have h0 := formCode_lt fm
  have h1 := v.isLt
  have h2 := b.isLt
  have h3 := w.isLt
  have h4 := toNat_le t
  have h5 := toNat_le k
  exact Encoding.of_word rfl (by delta encodeWord0; dsimp only; omega)

theorem Encoding.vsts (fm : Form) (v : BitVec 5) (b : BitVec 6) (c : BitVec 6) (w : BitVec 2) (t : Bool) (k : Bool) : Encoding.Statement (.vsts fm v b c w t k) := by
  have h0 := formCode_lt fm
  have h1 := v.isLt
  have h2 := b.isLt
  have h3 := c.isLt
  have h4 := w.isLt
  have h5 := toNat_le t
  have h6 := toNat_le k
  exact Encoding.of_word rfl (by delta encodeWord0; dsimp only; omega)

theorem Encoding.vstu (fm : Form) (v : BitVec 5) (b : BitVec 6) (c : BitVec 6) (t : Bool) (k : Bool) : Encoding.Statement (.vstu fm v b c t k) := by
  have h0 := formCode_lt fm
  have h1 := v.isLt
  have h2 := b.isLt
  have h3 := c.isLt
  have h4 := toNat_le t
  have h5 := toNat_le k
  exact Encoding.of_word rfl (by delta encodeWord0; dsimp only; omega)

theorem Encoding.vstx (fm : Form) (v : BitVec 5) (b : BitVec 6) (c : BitVec 5) (w : BitVec 2) (s : Bool) (t : Bool) (i : Bool) (o : Bool) (k : Bool) : Encoding.Statement (.vstx fm v b c w s t i o k) := by
  have h0 := formCode_lt fm
  have h1 := v.isLt
  have h2 := b.isLt
  have h3 := c.isLt
  have h4 := w.isLt
  have h5 := toNat_le s
  have h6 := toNat_le t
  have h7 := toNat_le i
  have h8 := toNat_le o
  have h9 := toNat_le k
  exact Encoding.of_word rfl (by delta encodeWord0; dsimp only; omega)

theorem Encoding.vadd (fm : Form) (d : BitVec 5) (a : BitVec 5) (b : BitVec 5) (f : BitVec 3) (k : Bool) : Encoding.Statement (.vadd fm d a b f k) := by
  have h0 := formCode_lt fm
  have h1 := d.isLt
  have h2 := a.isLt
  have h3 := b.isLt
  have h4 := f.isLt
  have h5 := toNat_le k
  exact Encoding.of_word rfl (by delta encodeWord0; dsimp only; omega)

theorem Encoding.vsub (fm : Form) (d : BitVec 5) (a : BitVec 5) (b : BitVec 5) (f : BitVec 3) (k : Bool) : Encoding.Statement (.vsub fm d a b f k) := by
  have h0 := formCode_lt fm
  have h1 := d.isLt
  have h2 := a.isLt
  have h3 := b.isLt
  have h4 := f.isLt
  have h5 := toNat_le k
  exact Encoding.of_word rfl (by delta encodeWord0; dsimp only; omega)

theorem Encoding.vmul (fm : Form) (d : BitVec 5) (a : BitVec 5) (b : BitVec 5) (f : BitVec 3) (k : Bool) : Encoding.Statement (.vmul fm d a b f k) := by
  have h0 := formCode_lt fm
  have h1 := d.isLt
  have h2 := a.isLt
  have h3 := b.isLt
  have h4 := f.isLt
  have h5 := toNat_le k
  exact Encoding.of_word rfl (by delta encodeWord0; dsimp only; omega)

theorem Encoding.vdiv (fm : Form) (d : BitVec 5) (a : BitVec 5) (b : BitVec 5) (f : BitVec 3) (k : Bool) : Encoding.Statement (.vdiv fm d a b f k) := by
  have h0 := formCode_lt fm
  have h1 := d.isLt
  have h2 := a.isLt
  have h3 := b.isLt
  have h4 := f.isLt
  have h5 := toNat_le k
  exact Encoding.of_word rfl (by delta encodeWord0; dsimp only; omega)

theorem Encoding.vmin (fm : Form) (d : BitVec 5) (a : BitVec 5) (b : BitVec 5) (f : BitVec 3) (k : Bool) : Encoding.Statement (.vmin fm d a b f k) := by
  have h0 := formCode_lt fm
  have h1 := d.isLt
  have h2 := a.isLt
  have h3 := b.isLt
  have h4 := f.isLt
  have h5 := toNat_le k
  exact Encoding.of_word rfl (by delta encodeWord0; dsimp only; omega)

theorem Encoding.vmax (fm : Form) (d : BitVec 5) (a : BitVec 5) (b : BitVec 5) (f : BitVec 3) (k : Bool) : Encoding.Statement (.vmax fm d a b f k) := by
  have h0 := formCode_lt fm
  have h1 := d.isLt
  have h2 := a.isLt
  have h3 := b.isLt
  have h4 := f.isLt
  have h5 := toNat_le k
  exact Encoding.of_word rfl (by delta encodeWord0; dsimp only; omega)

theorem Encoding.vfma (fm : Form) (d : BitVec 5) (a : BitVec 5) (b : BitVec 5) (f : BitVec 3) (k : Bool) : Encoding.Statement (.vfma fm d a b f k) := by
  have h0 := formCode_lt fm
  have h1 := d.isLt
  have h2 := a.isLt
  have h3 := b.isLt
  have h4 := f.isLt
  have h5 := toNat_le k
  exact Encoding.of_word rfl (by delta encodeWord0; dsimp only; omega)

theorem Encoding.vfms (fm : Form) (d : BitVec 5) (a : BitVec 5) (b : BitVec 5) (f : BitVec 3) (k : Bool) : Encoding.Statement (.vfms fm d a b f k) := by
  have h0 := formCode_lt fm
  have h1 := d.isLt
  have h2 := a.isLt
  have h3 := b.isLt
  have h4 := f.isLt
  have h5 := toNat_le k
  exact Encoding.of_word rfl (by delta encodeWord0; dsimp only; omega)

theorem Encoding.vsqrt (fm : Form) (d : BitVec 5) (a : BitVec 5) (f : BitVec 3) (k : Bool) : Encoding.Statement (.vsqrt fm d a f k) := by
  have h0 := formCode_lt fm
  have h1 := d.isLt
  have h2 := a.isLt
  have h3 := f.isLt
  have h4 := toNat_le k
  exact Encoding.of_word rfl (by delta encodeWord0; dsimp only; omega)

theorem Encoding.vrsqrt (fm : Form) (d : BitVec 5) (a : BitVec 5) (f : BitVec 3) (k : Bool) : Encoding.Statement (.vrsqrt fm d a f k) := by
  have h0 := formCode_lt fm
  have h1 := d.isLt
  have h2 := a.isLt
  have h3 := f.isLt
  have h4 := toNat_le k
  exact Encoding.of_word rfl (by delta encodeWord0; dsimp only; omega)

theorem Encoding.vabs (fm : Form) (d : BitVec 5) (a : BitVec 5) (f : BitVec 3) (k : Bool) : Encoding.Statement (.vabs fm d a f k) := by
  have h0 := formCode_lt fm
  have h1 := d.isLt
  have h2 := a.isLt
  have h3 := f.isLt
  have h4 := toNat_le k
  exact Encoding.of_word rfl (by delta encodeWord0; dsimp only; omega)

theorem Encoding.vneg (fm : Form) (d : BitVec 5) (a : BitVec 5) (f : BitVec 3) (k : Bool) : Encoding.Statement (.vneg fm d a f k) := by
  have h0 := formCode_lt fm
  have h1 := d.isLt
  have h2 := a.isLt
  have h3 := f.isLt
  have h4 := toNat_le k
  exact Encoding.of_word rfl (by delta encodeWord0; dsimp only; omega)

theorem Encoding.viadd (fm : Form) (d : BitVec 5) (a : BitVec 5) (b : BitVec 5) (f : BitVec 3) (k : Bool) : Encoding.Statement (.viadd fm d a b f k) := by
  have h0 := formCode_lt fm
  have h1 := d.isLt
  have h2 := a.isLt
  have h3 := b.isLt
  have h4 := f.isLt
  have h5 := toNat_le k
  exact Encoding.of_word rfl (by delta encodeWord0; dsimp only; omega)

theorem Encoding.visub (fm : Form) (d : BitVec 5) (a : BitVec 5) (b : BitVec 5) (f : BitVec 3) (k : Bool) : Encoding.Statement (.visub fm d a b f k) := by
  have h0 := formCode_lt fm
  have h1 := d.isLt
  have h2 := a.isLt
  have h3 := b.isLt
  have h4 := f.isLt
  have h5 := toNat_le k
  exact Encoding.of_word rfl (by delta encodeWord0; dsimp only; omega)

theorem Encoding.vimul (fm : Form) (d : BitVec 5) (a : BitVec 5) (b : BitVec 5) (f : BitVec 3) (k : Bool) : Encoding.Statement (.vimul fm d a b f k) := by
  have h0 := formCode_lt fm
  have h1 := d.isLt
  have h2 := a.isLt
  have h3 := b.isLt
  have h4 := f.isLt
  have h5 := toNat_le k
  exact Encoding.of_word rfl (by delta encodeWord0; dsimp only; omega)

theorem Encoding.vimulh (fm : Form) (d : BitVec 5) (a : BitVec 5) (b : BitVec 5) (f : BitVec 3) (k : Bool) : Encoding.Statement (.vimulh fm d a b f k) := by
  have h0 := formCode_lt fm
  have h1 := d.isLt
  have h2 := a.isLt
  have h3 := b.isLt
  have h4 := f.isLt
  have h5 := toNat_le k
  exact Encoding.of_word rfl (by delta encodeWord0; dsimp only; omega)

theorem Encoding.vimin (fm : Form) (d : BitVec 5) (a : BitVec 5) (b : BitVec 5) (f : BitVec 3) (k : Bool) : Encoding.Statement (.vimin fm d a b f k) := by
  have h0 := formCode_lt fm
  have h1 := d.isLt
  have h2 := a.isLt
  have h3 := b.isLt
  have h4 := f.isLt
  have h5 := toNat_le k
  exact Encoding.of_word rfl (by delta encodeWord0; dsimp only; omega)

theorem Encoding.vimax (fm : Form) (d : BitVec 5) (a : BitVec 5) (b : BitVec 5) (f : BitVec 3) (k : Bool) : Encoding.Statement (.vimax fm d a b f k) := by
  have h0 := formCode_lt fm
  have h1 := d.isLt
  have h2 := a.isLt
  have h3 := b.isLt
  have h4 := f.isLt
  have h5 := toNat_le k
  exact Encoding.of_word rfl (by delta encodeWord0; dsimp only; omega)

theorem Encoding.vclz (fm : Form) (d : BitVec 5) (a : BitVec 5) (f : BitVec 3) (k : Bool) : Encoding.Statement (.vclz fm d a f k) := by
  have h0 := formCode_lt fm
  have h1 := d.isLt
  have h2 := a.isLt
  have h3 := f.isLt
  have h4 := toNat_le k
  exact Encoding.of_word rfl (by delta encodeWord0; dsimp only; omega)

theorem Encoding.vpopc (fm : Form) (d : BitVec 5) (a : BitVec 5) (f : BitVec 3) (k : Bool) : Encoding.Statement (.vpopc fm d a f k) := by
  have h0 := formCode_lt fm
  have h1 := d.isLt
  have h2 := a.isLt
  have h3 := f.isLt
  have h4 := toNat_le k
  exact Encoding.of_word rfl (by delta encodeWord0; dsimp only; omega)

theorem Encoding.vand (fm : Form) (d : BitVec 5) (a : BitVec 5) (b : BitVec 5) (f : BitVec 3) (k : Bool) : Encoding.Statement (.vand fm d a b f k) := by
  have h0 := formCode_lt fm
  have h1 := d.isLt
  have h2 := a.isLt
  have h3 := b.isLt
  have h4 := f.isLt
  have h5 := toNat_le k
  exact Encoding.of_word rfl (by delta encodeWord0; dsimp only; omega)

theorem Encoding.vor (fm : Form) (d : BitVec 5) (a : BitVec 5) (b : BitVec 5) (f : BitVec 3) (k : Bool) : Encoding.Statement (.vor fm d a b f k) := by
  have h0 := formCode_lt fm
  have h1 := d.isLt
  have h2 := a.isLt
  have h3 := b.isLt
  have h4 := f.isLt
  have h5 := toNat_le k
  exact Encoding.of_word rfl (by delta encodeWord0; dsimp only; omega)

theorem Encoding.vxor (fm : Form) (d : BitVec 5) (a : BitVec 5) (b : BitVec 5) (f : BitVec 3) (k : Bool) : Encoding.Statement (.vxor fm d a b f k) := by
  have h0 := formCode_lt fm
  have h1 := d.isLt
  have h2 := a.isLt
  have h3 := b.isLt
  have h4 := f.isLt
  have h5 := toNat_le k
  exact Encoding.of_word rfl (by delta encodeWord0; dsimp only; omega)

theorem Encoding.vshl (fm : Form) (d : BitVec 5) (a : BitVec 5) (b : BitVec 5) (f : BitVec 3) (k : Bool) : Encoding.Statement (.vshl fm d a b f k) := by
  have h0 := formCode_lt fm
  have h1 := d.isLt
  have h2 := a.isLt
  have h3 := b.isLt
  have h4 := f.isLt
  have h5 := toNat_le k
  exact Encoding.of_word rfl (by delta encodeWord0; dsimp only; omega)

theorem Encoding.vshr (fm : Form) (d : BitVec 5) (a : BitVec 5) (b : BitVec 5) (f : BitVec 3) (k : Bool) : Encoding.Statement (.vshr fm d a b f k) := by
  have h0 := formCode_lt fm
  have h1 := d.isLt
  have h2 := a.isLt
  have h3 := b.isLt
  have h4 := f.isLt
  have h5 := toNat_le k
  exact Encoding.of_word rfl (by delta encodeWord0; dsimp only; omega)

theorem Encoding.vsar (fm : Form) (d : BitVec 5) (a : BitVec 5) (b : BitVec 5) (f : BitVec 3) (k : Bool) : Encoding.Statement (.vsar fm d a b f k) := by
  have h0 := formCode_lt fm
  have h1 := d.isLt
  have h2 := a.isLt
  have h3 := b.isLt
  have h4 := f.isLt
  have h5 := toNat_le k
  exact Encoding.of_word rfl (by delta encodeWord0; dsimp only; omega)

theorem Encoding.vfshL (fm : Form) (d : BitVec 5) (a : BitVec 5) (b : BitVec 5) (f : BitVec 3) (k : Bool) : Encoding.Statement (.vfshL fm d a b f k) := by
  have h0 := formCode_lt fm
  have h1 := d.isLt
  have h2 := a.isLt
  have h3 := b.isLt
  have h4 := f.isLt
  have h5 := toNat_le k
  exact Encoding.of_word rfl (by delta encodeWord0; dsimp only; omega)

theorem Encoding.vfshR (fm : Form) (d : BitVec 5) (a : BitVec 5) (b : BitVec 5) (f : BitVec 3) (k : Bool) : Encoding.Statement (.vfshR fm d a b f k) := by
  have h0 := formCode_lt fm
  have h1 := d.isLt
  have h2 := a.isLt
  have h3 := b.isLt
  have h4 := f.isLt
  have h5 := toNat_le k
  exact Encoding.of_word rfl (by delta encodeWord0; dsimp only; omega)

theorem Encoding.vcmp (fm : Form) (m : BitVec 3) (a : BitVec 5) (b : BitVec 5) (f : BitVec 3) (c : CmpOp) (k : Bool) : Encoding.Statement (.vcmp fm m a b f c k) := by
  have h0 := formCode_lt fm
  have h1 := m.isLt
  have h2 := a.isLt
  have h3 := b.isLt
  have h4 := f.isLt
  have h5 := cmpOpCode_lt c
  have h6 := toNat_le k
  exact Encoding.of_word rfl (by delta encodeWord0; dsimp only; omega)

theorem Encoding.vred (fm : Form) (d : BitVec 5) (a : BitVec 5) (f : BitVec 3) (o : RedOp) (k : Bool) : Encoding.Statement (.vred fm d a f o k) := by
  have h0 := formCode_lt fm
  have h1 := d.isLt
  have h2 := a.isLt
  have h3 := f.isLt
  have h4 := redOpCode_lt o
  have h5 := toNat_le k
  exact Encoding.of_word rfl (by delta encodeWord0; dsimp only; omega)

theorem Encoding.vredAddxProduct (fm : Form) (d : BitVec 5) (a : BitVec 5) (b : BitVec 5) (f : BitVec 3) (k : Bool) : Encoding.Statement (.vredAddxProduct fm d a b f k) := by
  have h0 := formCode_lt fm
  have h1 := d.isLt
  have h2 := a.isLt
  have h3 := b.isLt
  have h4 := f.isLt
  have h5 := toNat_le k
  exact Encoding.of_word rfl (by delta encodeWord0; dsimp only; omega)

theorem Encoding.vgred (fm : Form) (d : BitVec 5) (a : BitVec 5) (n : BitVec 5) (f : BitVec 3) (o : RedOp) (k : Bool) : Encoding.Statement (.vgred fm d a n f o k) := by
  have h0 := formCode_lt fm
  have h1 := d.isLt
  have h2 := a.isLt
  have h3 := n.isLt
  have h4 := f.isLt
  have h5 := redOpCode_lt o
  have h6 := toNat_le k
  exact Encoding.of_word rfl (by delta encodeWord0; dsimp only; omega)

theorem Encoding.vscan (fm : Form) (d : BitVec 5) (a : BitVec 5) (f : BitVec 3) (o : RedOp) (k : Bool) : Encoding.Statement (.vscan fm d a f o k) := by
  have h0 := formCode_lt fm
  have h1 := d.isLt
  have h2 := a.isLt
  have h3 := f.isLt
  have h4 := redOpCode_lt o
  have h5 := toNat_le k
  exact Encoding.of_word rfl (by delta encodeWord0; dsimp only; omega)

theorem Encoding.vcvt (fm : Form) (d : BitVec 5) (a : BitVec 5) (b : BitVec 5) (f : BitVec 3) (k : Bool) : Encoding.Statement (.vcvt fm d a b f k) := by
  have h0 := formCode_lt fm
  have h1 := d.isLt
  have h2 := a.isLt
  have h3 := b.isLt
  have h4 := f.isLt
  have h5 := toNat_le k
  exact Encoding.of_word rfl (by delta encodeWord0; dsimp only; omega)

theorem Encoding.mand (fm : Form) (d : BitVec 3) (a : BitVec 3) (b : BitVec 3) (k : Bool) : Encoding.Statement (.mand fm d a b k) := by
  have h0 := formCode_lt fm
  have h1 := d.isLt
  have h2 := a.isLt
  have h3 := b.isLt
  have h4 := toNat_le k
  exact Encoding.of_word rfl (by delta encodeWord0; dsimp only; omega)

theorem Encoding.mor (fm : Form) (d : BitVec 3) (a : BitVec 3) (b : BitVec 3) (k : Bool) : Encoding.Statement (.mor fm d a b k) := by
  have h0 := formCode_lt fm
  have h1 := d.isLt
  have h2 := a.isLt
  have h3 := b.isLt
  have h4 := toNat_le k
  exact Encoding.of_word rfl (by delta encodeWord0; dsimp only; omega)

theorem Encoding.mxor (fm : Form) (d : BitVec 3) (a : BitVec 3) (b : BitVec 3) (k : Bool) : Encoding.Statement (.mxor fm d a b k) := by
  have h0 := formCode_lt fm
  have h1 := d.isLt
  have h2 := a.isLt
  have h3 := b.isLt
  have h4 := toNat_le k
  exact Encoding.of_word rfl (by delta encodeWord0; dsimp only; omega)

theorem Encoding.mandn (fm : Form) (d : BitVec 3) (a : BitVec 3) (b : BitVec 3) (k : Bool) : Encoding.Statement (.mandn fm d a b k) := by
  have h0 := formCode_lt fm
  have h1 := d.isLt
  have h2 := a.isLt
  have h3 := b.isLt
  have h4 := toNat_le k
  exact Encoding.of_word rfl (by delta encodeWord0; dsimp only; omega)

theorem Encoding.mnot (fm : Form) (d : BitVec 3) (a : BitVec 3) (k : Bool) : Encoding.Statement (.mnot fm d a k) := by
  have h0 := formCode_lt fm
  have h1 := d.isLt
  have h2 := a.isLt
  have h3 := toNat_le k
  exact Encoding.of_word rfl (by delta encodeWord0; dsimp only; omega)

theorem Encoding.mpopc (fm : Form) (d : BitVec 6) (a : BitVec 3) (k : Bool) : Encoding.Statement (.mpopc fm d a k) := by
  have h0 := formCode_lt fm
  have h1 := d.isLt
  have h2 := a.isLt
  have h3 := toNat_le k
  exact Encoding.of_word rfl (by delta encodeWord0; dsimp only; omega)

theorem Encoding.mfirst (fm : Form) (d : BitVec 6) (a : BitVec 3) (k : Bool) : Encoding.Statement (.mfirst fm d a k) := by
  have h0 := formCode_lt fm
  have h1 := d.isLt
  have h2 := a.isLt
  have h3 := toNat_le k
  exact Encoding.of_word rfl (by delta encodeWord0; dsimp only; omega)

theorem Encoding.vslideUp (fm : Form) (d : BitVec 5) (a : BitVec 5) (n : BitVec 6) (k : Bool) : Encoding.Statement (.vslideUp fm d a n k) := by
  have h0 := formCode_lt fm
  have h1 := d.isLt
  have h2 := a.isLt
  have h3 := n.isLt
  have h4 := toNat_le k
  exact Encoding.of_word rfl (by delta encodeWord0; dsimp only; omega)

theorem Encoding.vslideDown (fm : Form) (d : BitVec 5) (a : BitVec 5) (n : BitVec 6) (k : Bool) : Encoding.Statement (.vslideDown fm d a n k) := by
  have h0 := formCode_lt fm
  have h1 := d.isLt
  have h2 := a.isLt
  have h3 := n.isLt
  have h4 := toNat_le k
  exact Encoding.of_word rfl (by delta encodeWord0; dsimp only; omega)

theorem Encoding.vbcast (fm : Form) (d : BitVec 5) (s : BitVec 6) (k : Bool) : Encoding.Statement (.vbcast fm d s k) := by
  have h0 := formCode_lt fm
  have h1 := d.isLt
  have h2 := s.isLt
  have h3 := toNat_le k
  exact Encoding.of_word rfl (by delta encodeWord0; dsimp only; omega)

theorem Encoding.vbcastI (fm : Form) (d : BitVec 5) (s : BitVec 6) (t : BitVec 6) (k : Bool) : Encoding.Statement (.vbcastI fm d s t k) := by
  have h0 := formCode_lt fm
  have h1 := d.isLt
  have h2 := s.isLt
  have h3 := t.isLt
  have h4 := toNat_le k
  exact Encoding.of_word rfl (by delta encodeWord0; dsimp only; omega)

theorem Encoding.vperm (fm : Form) (d : BitVec 5) (a : BitVec 5) (i : BitVec 5) (k : Bool) : Encoding.Statement (.vperm fm d a i k) := by
  have h0 := formCode_lt fm
  have h1 := d.isLt
  have h2 := a.isLt
  have h3 := i.isLt
  have h4 := toNat_le k
  exact Encoding.of_word rfl (by delta encodeWord0; dsimp only; omega)

theorem Encoding.vcompress (fm : Form) (d : BitVec 5) (a : BitVec 5) (m : BitVec 3) (k : Bool) : Encoding.Statement (.vcompress fm d a m k) := by
  have h0 := formCode_lt fm
  have h1 := d.isLt
  have h2 := a.isLt
  have h3 := m.isLt
  have h4 := toNat_le k
  exact Encoding.of_word rfl (by delta encodeWord0; dsimp only; omega)

theorem Encoding.vexpand (fm : Form) (d : BitVec 5) (a : BitVec 5) (m : BitVec 3) (k : Bool) : Encoding.Statement (.vexpand fm d a m k) := by
  have h0 := formCode_lt fm
  have h1 := d.isLt
  have h2 := a.isLt
  have h3 := m.isLt
  have h4 := toNat_le k
  exact Encoding.of_word rfl (by delta encodeWord0; dsimp only; omega)

theorem Encoding.ldsSp (fm : Form) (d : BitVec 6) (b : BitVec 6) (i : BitVec 6) (w : BitVec 2) : Encoding.Statement (.ldsSp fm d b i w) := by
  have h0 := formCode_lt fm
  have h1 := d.isLt
  have h2 := b.isLt
  have h3 := i.isLt
  have h4 := w.isLt
  exact Encoding.of_word rfl (by delta encodeWord0; dsimp only; omega)

theorem Encoding.ldDSp (fm : Form) (d : BitVec 6) (b : BitVec 6) (i : BitVec 6) : Encoding.Statement (.ldDSp fm d b i) := by
  have h0 := formCode_lt fm
  have h1 := d.isLt
  have h2 := b.isLt
  have h3 := i.isLt
  exact Encoding.of_word rfl (by delta encodeWord0; dsimp only; omega)

theorem Encoding.ldzSp (fm : Form) (d : BitVec 6) (b : BitVec 6) (i : BitVec 6) (w : BitVec 2) : Encoding.Statement (.ldzSp fm d b i w) := by
  have h0 := formCode_lt fm
  have h1 := d.isLt
  have h2 := b.isLt
  have h3 := i.isLt
  have h4 := w.isLt
  exact Encoding.of_word rfl (by delta encodeWord0; dsimp only; omega)

theorem Encoding.stSp (fm : Form) (v : BitVec 6) (b : BitVec 6) (i : BitVec 6) (w : BitVec 2) : Encoding.Statement (.stSp fm v b i w) := by
  have h0 := formCode_lt fm
  have h1 := v.isLt
  have h2 := b.isLt
  have h3 := i.isLt
  have h4 := w.isLt
  exact Encoding.of_word rfl (by delta encodeWord0; dsimp only; omega)

theorem Encoding.bstat (fm : Form) (d : BitVec 6) (sel : BitVec 6) : Encoding.Statement (.bstat fm d sel) := by
  have h0 := formCode_lt fm
  have h1 := d.isLt
  have h2 := sel.isLt
  exact Encoding.of_word rfl (by delta encodeWord0; dsimp only; omega)

theorem Encoding.vldSp (fm : Form) (v : BitVec 5) (b : BitVec 6) (w : BitVec 2) : Encoding.Statement (.vldSp fm v b w) := by
  have h0 := formCode_lt fm
  have h1 := v.isLt
  have h2 := b.isLt
  have h3 := w.isLt
  exact Encoding.of_word rfl (by delta encodeWord0; dsimp only; omega)

theorem Encoding.vldsSp (fm : Form) (v : BitVec 5) (b : BitVec 6) (c : BitVec 6) (w : BitVec 2) : Encoding.Statement (.vldsSp fm v b c w) := by
  have h0 := formCode_lt fm
  have h1 := v.isLt
  have h2 := b.isLt
  have h3 := c.isLt
  have h4 := w.isLt
  exact Encoding.of_word rfl (by delta encodeWord0; dsimp only; omega)

theorem Encoding.vldxSp (fm : Form) (v : BitVec 5) (b : BitVec 6) (c : BitVec 5) (w : BitVec 2) : Encoding.Statement (.vldxSp fm v b c w) := by
  have h0 := formCode_lt fm
  have h1 := v.isLt
  have h2 := b.isLt
  have h3 := c.isLt
  have h4 := w.isLt
  exact Encoding.of_word rfl (by delta encodeWord0; dsimp only; omega)

theorem Encoding.vldpSp (fm : Form) (v : BitVec 5) (b : BitVec 6) (c : BitVec 6) : Encoding.Statement (.vldpSp fm v b c) := by
  have h0 := formCode_lt fm
  have h1 := v.isLt
  have h2 := b.isLt
  have h3 := c.isLt
  exact Encoding.of_word rfl (by delta encodeWord0; dsimp only; omega)

theorem Encoding.vstSp (fm : Form) (v : BitVec 5) (b : BitVec 6) (w : BitVec 2) : Encoding.Statement (.vstSp fm v b w) := by
  have h0 := formCode_lt fm
  have h1 := v.isLt
  have h2 := b.isLt
  have h3 := w.isLt
  exact Encoding.of_word rfl (by delta encodeWord0; dsimp only; omega)

theorem Encoding.vstsSp (fm : Form) (v : BitVec 5) (b : BitVec 6) (c : BitVec 6) (w : BitVec 2) : Encoding.Statement (.vstsSp fm v b c w) := by
  have h0 := formCode_lt fm
  have h1 := v.isLt
  have h2 := b.isLt
  have h3 := c.isLt
  have h4 := w.isLt
  exact Encoding.of_word rfl (by delta encodeWord0; dsimp only; omega)

theorem Encoding.vstxSp (fm : Form) (v : BitVec 5) (b : BitVec 6) (c : BitVec 5) (w : BitVec 2) : Encoding.Statement (.vstxSp fm v b c w) := by
  have h0 := formCode_lt fm
  have h1 := v.isLt
  have h2 := b.isLt
  have h3 := c.isLt
  have h4 := w.isLt
  exact Encoding.of_word rfl (by delta encodeWord0; dsimp only; omega)

theorem Encoding.vstpSp (fm : Form) (v : BitVec 5) (b : BitVec 6) (c : BitVec 6) : Encoding.Statement (.vstpSp fm v b c) := by
  have h0 := formCode_lt fm
  have h1 := v.isLt
  have h2 := b.isLt
  have h3 := c.isLt
  exact Encoding.of_word rfl (by delta encodeWord0; dsimp only; omega)

theorem Encoding.amo (fm : Form) (xd : BitVec 6) (b : BitVec 6) (s : BitVec 6) (o : AmoOp) (dw : Bool) (sp : Bool) : Encoding.Statement (.amo fm xd b s o dw sp) := by
  have h0 := formCode_lt fm
  have h1 := xd.isLt
  have h2 := b.isLt
  have h3 := s.isLt
  have h4 := amoOpCode_lt o
  have h5 := toNat_le dw
  have h6 := toNat_le sp
  exact Encoding.of_word rfl (by delta encodeWord0; dsimp only; omega)

theorem Encoding.cas (fm : Form) (xd : BitVec 6) (b : BitVec 6) (s : BitVec 6) (dw : Bool) (sp : Bool) : Encoding.Statement (.cas fm xd b s dw sp) := by
  have h0 := formCode_lt fm
  have h1 := xd.isLt
  have h2 := b.isLt
  have h3 := s.isLt
  have h4 := toNat_le dw
  have h5 := toNat_le sp
  exact Encoding.of_word rfl (by delta encodeWord0; dsimp only; omega)

theorem Encoding.vamo (fm : Form) (v : BitVec 5) (b : BitVec 6) (c : BitVec 5) (dw : Bool) (sp : Bool) (o : VamoOp) : Encoding.Statement (.vamo fm v b c dw sp o) := by
  have h0 := formCode_lt fm
  have h1 := v.isLt
  have h2 := b.isLt
  have h3 := c.isLt
  have h4 := toNat_le dw
  have h5 := toNat_le sp
  have h6 := vamoOpCode_lt o
  exact Encoding.of_word rfl (by delta encodeWord0; dsimp only; omega)

theorem Encoding.vwait (fm : Form) (v : BitVec 5) (b : BitVec 6) (i : BitVec 5) (dw : Bool) (sp : Bool) (c : WaitOp) : Encoding.Statement (.vwait fm v b i dw sp c) := by
  have h0 := formCode_lt fm
  have h1 := v.isLt
  have h2 := b.isLt
  have h3 := i.isLt
  have h4 := toNat_le dw
  have h5 := toNat_le sp
  have h6 := waitOpCode_lt c
  exact Encoding.of_word rfl (by delta encodeWord0; dsimp only; omega)

theorem Encoding.vwaitReevaluation (h : HartId) : Encoding.Statement (.vwaitReevaluation h) := rfl

theorem Encoding.barArrive (fm : Form) (d : BitVec 6) (b : BitVec 6) (c : BitVec 6) : Encoding.Statement (.barArrive fm d b c) := by
  have h0 := formCode_lt fm
  have h1 := d.isLt
  have h2 := b.isLt
  have h3 := c.isLt
  exact Encoding.of_word rfl (by delta encodeWord0; dsimp only; omega)

theorem Encoding.barWait (fm : Form) (b : BitVec 6) (t : BitVec 6) : Encoding.Statement (.barWait fm b t) := by
  have h0 := formCode_lt fm
  have h1 := b.isLt
  have h2 := t.isLt
  exact Encoding.of_word rfl (by delta encodeWord0; dsimp only; omega)

theorem Encoding.barSync (fm : Form) (d : BitVec 6) (b : BitVec 6) (c : BitVec 6) : Encoding.Statement (.barSync fm d b c) := by
  have h0 := formCode_lt fm
  have h1 := d.isLt
  have h2 := b.isLt
  have h3 := c.isLt
  exact Encoding.of_word rfl (by delta encodeWord0; dsimp only; omega)

theorem Encoding.gbar (fm : Form) : Encoding.Statement (.gbar fm) := by
  have h0 := formCode_lt fm
  exact Encoding.of_word rfl (by delta encodeWord0; dsimp only; omega)

theorem Encoding.barRd (fm : Form) (d : BitVec 6) (b : BitVec 6) (sel : BitVec 6) : Encoding.Statement (.barRd fm d b sel) := by
  have h0 := formCode_lt fm
  have h1 := d.isLt
  have h2 := b.isLt
  have h3 := sel.isLt
  exact Encoding.of_word rfl (by delta encodeWord0; dsimp only; omega)

theorem Encoding.sbind (fm : Form) (q : BitVec 3) (b : BitVec 6) (v : BitVec 5) (t : Bool) : Encoding.Statement (.sbind fm q b v t) := by
  have h0 := formCode_lt fm
  have h1 := q.isLt
  have h2 := b.isLt
  have h3 := v.isLt
  have h4 := toNat_le t
  exact Encoding.of_word rfl (by delta encodeWord0; dsimp only; omega)

theorem Encoding.sbindF (fm : Form) (q : BitVec 3) (b : BitVec 6) (t : Bool) : Encoding.Statement (.sbindF fm q b t) := by
  have h0 := formCode_lt fm
  have h1 := q.isLt
  have h2 := b.isLt
  have h3 := toNat_le t
  exact Encoding.of_word rfl (by delta encodeWord0; dsimp only; omega)

theorem Encoding.sstop (fm : Form) (q : BitVec 3) : Encoding.Statement (.sstop fm q) := by
  have h0 := formCode_lt fm
  have h1 := q.isLt
  exact Encoding.of_word rfl (by delta encodeWord0; dsimp only; omega)

theorem Encoding.ssave (fm : Form) (q : BitVec 3) (b : BitVec 6) (t : Bool) : Encoding.Statement (.ssave fm q b t) := by
  have h0 := formCode_lt fm
  have h1 := q.isLt
  have h2 := b.isLt
  have h3 := toNat_le t
  exact Encoding.of_word rfl (by delta encodeWord0; dsimp only; omega)

theorem Encoding.srest (fm : Form) (q : BitVec 3) (b : BitVec 6) (t : Bool) : Encoding.Statement (.srest fm q b t) := by
  have h0 := formCode_lt fm
  have h1 := q.isLt
  have h2 := b.isLt
  have h3 := toNat_le t
  exact Encoding.of_word rfl (by delta encodeWord0; dsimp only; omega)

theorem Encoding.streamFetch (h : HartId) (q : BitVec 3) : Encoding.Statement (.streamFetch h q) := rfl

theorem Encoding.sopPop (fm : Form) (d : BitVec 5) (q : BitVec 3) : Encoding.Statement (.sopPop fm d q) := by
  have h0 := formCode_lt fm
  have h1 := d.isLt
  have h2 := q.isLt
  exact Encoding.of_word rfl (by delta encodeWord0; dsimp only; omega)

theorem Encoding.sopSkip (fm : Form) (q : BitVec 3) (n : BitVec 6) : Encoding.Statement (.sopSkip fm q n) := by
  have h0 := formCode_lt fm
  have h1 := q.isLt
  have h2 := n.isLt
  exact Encoding.of_word rfl (by delta encodeWord0; dsimp only; omega)

theorem Encoding.sopPos (fm : Form) (d : BitVec 6) (q : BitVec 3) : Encoding.Statement (.sopPos fm d q) := by
  have h0 := formCode_lt fm
  have h1 := d.isLt
  have h2 := q.isLt
  exact Encoding.of_word rfl (by delta encodeWord0; dsimp only; omega)

theorem Encoding.sopRem (fm : Form) (d : BitVec 6) (q : BitVec 3) : Encoding.Statement (.sopRem fm d q) := by
  have h0 := formCode_lt fm
  have h1 := d.isLt
  have h2 := q.isLt
  exact Encoding.of_word rfl (by delta encodeWord0; dsimp only; omega)

theorem Encoding.fld (fm : Form) (f : BitVec 4) (b : BitVec 6) (s : BitVec 6) (t : Bool) (k : Bool) : Encoding.Statement (.fld fm f b s t k) := by
  have h0 := formCode_lt fm
  have h1 := f.isLt
  have h2 := b.isLt
  have h3 := s.isLt
  have h4 := toNat_le t
  have h5 := toNat_le k
  exact Encoding.of_word rfl (by delta encodeWord0; dsimp only; omega)

theorem Encoding.fldQ (fm : Form) (f : BitVec 4) (q : BitVec 3) (s : BitVec 6) (k : Bool) : Encoding.Statement (.fldQ fm f q s k) := by
  have h0 := formCode_lt fm
  have h1 := f.isLt
  have h2 := q.isLt
  have h3 := s.isLt
  have h4 := toNat_le k
  exact Encoding.of_word rfl (by delta encodeWord0; dsimp only; omega)

theorem Encoding.fst (fm : Form) (f : BitVec 4) (b : BitVec 6) (t : Bool) (k : Bool) : Encoding.Statement (.fst fm f b t k) := by
  have h0 := formCode_lt fm
  have h1 := f.isLt
  have h2 := b.isLt
  have h3 := toNat_le t
  have h4 := toNat_le k
  exact Encoding.of_word rfl (by delta encodeWord0; dsimp only; omega)

theorem Encoding.fcount (fm : Form) (d : BitVec 6) (f : BitVec 4) (k : Bool) : Encoding.Statement (.fcount fm d f k) := by
  have h0 := formCode_lt fm
  have h1 := d.isLt
  have h2 := f.isLt
  have h3 := toNat_le k
  exact Encoding.of_word rfl (by delta encodeWord0; dsimp only; omega)

theorem Encoding.fclear (fm : Form) (f : BitVec 4) (k : Bool) : Encoding.Statement (.fclear fm f k) := by
  have h0 := formCode_lt fm
  have h1 := f.isLt
  have h2 := toNat_le k
  exact Encoding.of_word rfl (by delta encodeWord0; dsimp only; omega)

theorem Encoding.fisect (fm : Form) (d : BitVec 4) (a : BitVec 4) (b : BitVec 4) (f : BitVec 3) (o : IsectOp) (k : Bool) : Encoding.Statement (.fisect fm d a b f o k) := by
  have h0 := formCode_lt fm
  have h1 := d.isLt
  have h2 := a.isLt
  have h3 := b.isLt
  have h4 := f.isLt
  have h5 := isectOpCode_lt o
  have h6 := toNat_le k
  exact Encoding.of_word rfl (by delta encodeWord0; dsimp only; omega)

theorem Encoding.funion (fm : Form) (d : BitVec 4) (a : BitVec 4) (b : BitVec 4) (f : BitVec 3) (o : UnionOp) (k : Bool) : Encoding.Statement (.funion fm d a b f o k) := by
  have h0 := formCode_lt fm
  have h1 := d.isLt
  have h2 := a.isLt
  have h3 := b.isLt
  have h4 := f.isLt
  have h5 := unionOpCode_lt o
  have h6 := toNat_le k
  exact Encoding.of_word rfl (by delta encodeWord0; dsimp only; omega)

theorem Encoding.fmerge (fm : Form) (d : BitVec 4) (a : BitVec 4) (b : BitVec 4) (k : Bool) : Encoding.Statement (.fmerge fm d a b k) := by
  have h0 := formCode_lt fm
  have h1 := d.isLt
  have h2 := a.isLt
  have h3 := b.isLt
  have h4 := toNat_le k
  exact Encoding.of_word rfl (by delta encodeWord0; dsimp only; omega)

theorem Encoding.fsort (fm : Form) (d : BitVec 4) (a : BitVec 4) (f : BitVec 3) (o : SortOp) (k : Bool) : Encoding.Statement (.fsort fm d a f o k) := by
  have h0 := formCode_lt fm
  have h1 := d.isLt
  have h2 := a.isLt
  have h3 := f.isLt
  have h4 := sortOpCode_lt o
  have h5 := toNat_le k
  exact Encoding.of_word rfl (by delta encodeWord0; dsimp only; omega)

theorem Encoding.fcompact (fm : Form) (d : BitVec 4) (a : BitVec 4) (f : BitVec 3) (k : Bool) : Encoding.Statement (.fcompact fm d a f k) := by
  have h0 := formCode_lt fm
  have h1 := d.isLt
  have h2 := a.isLt
  have h3 := f.isLt
  have h4 := toNat_le k
  exact Encoding.of_word rfl (by delta encodeWord0; dsimp only; omega)

theorem Encoding.fexpandV (fm : Form) (d : BitVec 5) (a : BitVec 4) (f : BitVec 3) (k : Bool) : Encoding.Statement (.fexpandV fm d a f k) := by
  have h0 := formCode_lt fm
  have h1 := d.isLt
  have h2 := a.isLt
  have h3 := f.isLt
  have h4 := toNat_le k
  exact Encoding.of_word rfl (by delta encodeWord0; dsimp only; omega)

theorem Encoding.fexpandD (fm : Form) (d : BitVec 5) (a : BitVec 4) (f : BitVec 3) (k : Bool) : Encoding.Statement (.fexpandD fm d a f k) := by
  have h0 := formCode_lt fm
  have h1 := d.isLt
  have h2 := a.isLt
  have h3 := f.isLt
  have h4 := toNat_le k
  exact Encoding.of_word rfl (by delta encodeWord0; dsimp only; omega)

theorem Encoding.fexpandC (fm : Form) (d : BitVec 5) (f : BitVec 4) (k : Bool) : Encoding.Statement (.fexpandC fm d f k) := by
  have h0 := formCode_lt fm
  have h1 := d.isLt
  have h2 := f.isLt
  have h3 := toNat_le k
  exact Encoding.of_word rfl (by delta encodeWord0; dsimp only; omega)

theorem Encoding.fpack (fm : Form) (d : BitVec 4) (c : BitVec 5) (b : BitVec 5) (f : BitVec 3) (k : Bool) : Encoding.Statement (.fpack fm d c b f k) := by
  have h0 := formCode_lt fm
  have h1 := d.isLt
  have h2 := c.isLt
  have h3 := b.isLt
  have h4 := f.isLt
  have h5 := toNat_le k
  exact Encoding.of_word rfl (by delta encodeWord0; dsimp only; omega)

theorem Encoding.fpackD (fm : Form) (d : BitVec 4) (a : BitVec 5) (f : BitVec 3) (k : Bool) : Encoding.Statement (.fpackD fm d a f k) := by
  have h0 := formCode_lt fm
  have h1 := d.isLt
  have h2 := a.isLt
  have h3 := f.isLt
  have h4 := toNat_le k
  exact Encoding.of_word rfl (by delta encodeWord0; dsimp only; omega)

theorem Encoding.fwalk (fm : Form) (d : BitVec 4) (s : BitVec 4) (b : BitVec 6) (v : Bool) (k : Bool) : Encoding.Statement (.fwalk fm d s b v k) := by
  have h0 := formCode_lt fm
  have h1 := d.isLt
  have h2 := s.isLt
  have h3 := b.isLt
  have h4 := toNat_le v
  have h5 := toNat_le k
  exact Encoding.of_word rfl (by delta encodeWord0; dsimp only; omega)

theorem Encoding.mldb (fm : Form) (g : BitVec 2) (s : BitVec 5) (f : BitVec 3) : Encoding.Statement (.mldb fm g s f) := by
  have h0 := formCode_lt fm
  have h1 := g.isLt
  have h2 := s.isLt
  have h3 := f.isLt
  exact Encoding.of_word rfl (by delta encodeWord0; dsimp only; omega)

theorem Encoding.mma (fm : Form) (r : BitVec 5) (a : BitVec 5) (f : BitVec 3) : Encoding.Statement (.mma fm r a f) := by
  have h0 := formCode_lt fm
  have h1 := r.isLt
  have h2 := a.isLt
  have h3 := f.isLt
  exact Encoding.of_word rfl (by delta encodeWord0; dsimp only; omega)

theorem Encoding.mmaS24 (fm : Form) (r : BitVec 5) (a : BitVec 5) (m : BitVec 3) (f : BitVec 3) : Encoding.Statement (.mmaS24 fm r a m f) := by
  have h0 := formCode_lt fm
  have h1 := r.isLt
  have h2 := a.isLt
  have h3 := m.isLt
  have h4 := f.isLt
  exact Encoding.of_word rfl (by delta encodeWord0; dsimp only; omega)

theorem Encoding.mmaX (fm : Form) (r : BitVec 5) (a : BitVec 5) (i : BitVec 5) (f : BitVec 3) : Encoding.Statement (.mmaX fm r a i f) := by
  have h0 := formCode_lt fm
  have h1 := r.isLt
  have h2 := a.isLt
  have h3 := i.isLt
  have h4 := f.isLt
  exact Encoding.of_word rfl (by delta encodeWord0; dsimp only; omega)

theorem Encoding.mseal (fm : Form) (d : BitVec 6) : Encoding.Statement (.mseal fm d) := by
  have h0 := formCode_lt fm
  have h1 := d.isLt
  exact Encoding.of_word rfl (by delta encodeWord0; dsimp only; omega)

theorem Encoding.mpeek (fm : Form) (d : BitVec 5) (a : BitVec 3) (r : BitVec 6) : Encoding.Statement (.mpeek fm d a r) := by
  have h0 := formCode_lt fm
  have h1 := d.isLt
  have h2 := a.isLt
  have h3 := r.isLt
  exact Encoding.of_word rfl (by delta encodeWord0; dsimp only; omega)

theorem Encoding.mstat (fm : Form) (d : BitVec 6) (a : BitVec 3) (r : BitVec 6) : Encoding.Statement (.mstat fm d a r) := by
  have h0 := formCode_lt fm
  have h1 := d.isLt
  have h2 := a.isLt
  have h3 := r.isLt
  exact Encoding.of_word rfl (by delta encodeWord0; dsimp only; omega)

theorem Encoding.epiCfg (fm : Form) (a : BitVec 3) (f : BitVec 6) (s : BitVec 6) : Encoding.Statement (.epiCfg fm a f s) := by
  have h0 := formCode_lt fm
  have h1 := a.isLt
  have h2 := f.isLt
  have h3 := s.isLt
  exact Encoding.of_word rfl (by delta encodeWord0; dsimp only; omega)

theorem Encoding.epiGo (fm : Form) (b : BitVec 6) : Encoding.Statement (.epiGo fm b) := by
  have h0 := formCode_lt fm
  have h1 := b.isLt
  exact Encoding.of_word rfl (by delta encodeWord0; dsimp only; omega)

theorem Encoding.epiGoLd (fm : Form) (b : BitVec 6) : Encoding.Statement (.epiGoLd fm b) := by
  have h0 := formCode_lt fm
  have h1 := b.isLt
  exact Encoding.of_word rfl (by delta encodeWord0; dsimp only; omega)

theorem Encoding.epilogueDrain (core : Nat) : Encoding.Statement (.epilogueDrain core) := rfl

theorem Encoding.slotFree (core : Nat) : Encoding.Statement (.slotFree core) := rfl

theorem Encoding.cpyGo (fm : Form) (d : BitVec 6) (b : BitVec 6) (t : Bool) : Encoding.Statement (.cpyGo fm d b t) := by
  have h0 := formCode_lt fm
  have h1 := d.isLt
  have h2 := b.isLt
  have h3 := toNat_le t
  exact Encoding.of_word rfl (by delta encodeWord0; dsimp only; omega)

theorem Encoding.cpyWait (fm : Form) (t : BitVec 6) : Encoding.Statement (.cpyWait fm t) := by
  have h0 := formCode_lt fm
  have h1 := t.isLt
  exact Encoding.of_word rfl (by delta encodeWord0; dsimp only; omega)

theorem Encoding.cpyWaitDrop (fm : Form) (d : BitVec 6) (t : BitVec 6) : Encoding.Statement (.cpyWaitDrop fm d t) := by
  have h0 := formCode_lt fm
  have h1 := d.isLt
  have h2 := t.isLt
  exact Encoding.of_word rfl (by delta encodeWord0; dsimp only; omega)

theorem Encoding.cpyPoll (fm : Form) (d : BitVec 6) (t : BitVec 6) : Encoding.Statement (.cpyPoll fm d t) := by
  have h0 := formCode_lt fm
  have h1 := d.isLt
  have h2 := t.isLt
  exact Encoding.of_word rfl (by delta encodeWord0; dsimp only; omega)

theorem Encoding.copyTransfer (h : HartId) (n : Nat) : Encoding.Statement (.copyTransfer h n) := rfl

theorem Encoding.copyComplete (h : HartId) (n : Nat) : Encoding.Statement (.copyComplete h n) := rfl

theorem Encoding.copyFault (h : HartId) (n : Nat) : Encoding.Statement (.copyFault h n) := rfl

theorem Encoding.launch (fm : Form) (d : BitVec 6) (b : BitVec 6) : Encoding.Statement (.launch fm d b) := by
  have h0 := formCode_lt fm
  have h1 := d.isLt
  have h2 := b.isLt
  exact Encoding.of_word rfl (by delta encodeWord0; dsimp only; omega)

theorem Encoding.launchTry (fm : Form) (d : BitVec 6) (b : BitVec 6) : Encoding.Statement (.launchTry fm d b) := by
  have h0 := formCode_lt fm
  have h1 := d.isLt
  have h2 := b.isLt
  exact Encoding.of_word rfl (by delta encodeWord0; dsimp only; omega)

theorem Encoding.tdep (fm : Form) (d : BitVec 6) (s : BitVec 6) (p : BitVec 6) : Encoding.Statement (.tdep fm d s p) := by
  have h0 := formCode_lt fm
  have h1 := d.isLt
  have h2 := s.isLt
  have h3 := p.isLt
  exact Encoding.of_word rfl (by delta encodeWord0; dsimp only; omega)

theorem Encoding.twait (fm : Form) (d : BitVec 6) (t : BitVec 6) : Encoding.Statement (.twait fm d t) := by
  have h0 := formCode_lt fm
  have h1 := d.isLt
  have h2 := t.isLt
  exact Encoding.of_word rfl (by delta encodeWord0; dsimp only; omega)

theorem Encoding.texit (fm : Form) (a : BitVec 6) : Encoding.Statement (.texit fm a) := by
  have h0 := formCode_lt fm
  have h1 := a.isLt
  exact Encoding.of_word rfl (by delta encodeWord0; dsimp only; omega)

theorem Encoding.texitSv (fm : Form) (d : BitVec 6) (a : BitVec 6) (s : BitVec 6) : Encoding.Statement (.texitSv fm d a s) := by
  have h0 := formCode_lt fm
  have h1 := d.isLt
  have h2 := a.isLt
  have h3 := s.isLt
  exact Encoding.of_word rfl (by delta encodeWord0; dsimp only; omega)

theorem Encoding.gangStart (node : Nat) (core : Nat) (parts : Nat) : Encoding.Statement (.gangStart node core parts) := rfl

theorem Encoding.copyNodeRun (node : Nat) : Encoding.Statement (.copyNodeRun node) := rfl

theorem Encoding.taskAging (node : Nat) : Encoding.Statement (.taskAging node) := rfl

theorem Encoding.dealerRequest (node : Nat) : Encoding.Statement (.dealerRequest node) := rfl

theorem Encoding.preemptionRequest (h : HartId) : Encoding.Statement (.preemptionRequest h) := rfl

theorem Encoding.teamRestore (node : Nat) (gang : Nat) (core : Nat) (parts : Nat) : Encoding.Statement (.teamRestore node gang core parts) := rfl

theorem Encoding.dsend (fm : Form) (f : BitVec 4) (v : BitVec 6) (m : BitVec 6) : Encoding.Statement (.dsend fm f v m) := by
  have h0 := formCode_lt fm
  have h1 := f.isLt
  have h2 := v.isLt
  have h3 := m.isLt
  exact Encoding.of_word rfl (by delta encodeWord0; dsimp only; omega)

theorem Encoding.drecv (fm : Form) (f : BitVec 4) (m : BitVec 6) (d : BitVec 6) : Encoding.Statement (.drecv fm f m d) := by
  have h0 := formCode_lt fm
  have h1 := f.isLt
  have h2 := m.isLt
  have h3 := d.isLt
  exact Encoding.of_word rfl (by delta encodeWord0; dsimp only; omega)

theorem Encoding.drecvTry (fm : Form) (f : BitVec 4) (m : BitVec 6) (d : BitVec 6) : Encoding.Statement (.drecvTry fm f m d) := by
  have h0 := formCode_lt fm
  have h1 := f.isLt
  have h2 := m.isLt
  have h3 := d.isLt
  exact Encoding.of_word rfl (by delta encodeWord0; dsimp only; omega)

theorem Encoding.messageDelivery (ch : Nat) : Encoding.Statement (.messageDelivery ch) := rfl

theorem Encoding.messageForward (ch : Nat) : Encoding.Statement (.messageForward ch) := rfl

theorem Encoding.markerReceipt (ch : Nat) : Encoding.Statement (.markerReceipt ch) := rfl

theorem Encoding.linkDown (port : Nat) : Encoding.Statement (.linkDown port) := rfl

theorem Encoding.linkUp (port : Nat) : Encoding.Statement (.linkUp port) := rfl

theorem Encoding.timeSyncBeat (ns : DWord) (bound : Word) : Encoding.Statement (.timeSyncBeat ns bound) := rfl

theorem Encoding.snap (fm : Form) (d : BitVec 6) (j : BitVec 6) : Encoding.Statement (.snap fm d j) := by
  have h0 := formCode_lt fm
  have h1 := d.isLt
  have h2 := j.isLt
  exact Encoding.of_word rfl (by delta encodeWord0; dsimp only; omega)

theorem Encoding.snapArm (fm : Form) (d : BitVec 6) (b : BitVec 6) : Encoding.Statement (.snapArm fm d b) := by
  have h0 := formCode_lt fm
  have h1 := d.isLt
  have h2 := b.isLt
  exact Encoding.of_word rfl (by delta encodeWord0; dsimp only; omega)

theorem Encoding.snapDrop (fm : Form) (d : BitVec 6) (j : BitVec 6) : Encoding.Statement (.snapDrop fm d j) := by
  have h0 := formCode_lt fm
  have h1 := d.isLt
  have h2 := j.isLt
  exact Encoding.of_word rfl (by delta encodeWord0; dsimp only; omega)

theorem Encoding.snapPoll (fm : Form) (d : BitVec 6) (j : BitVec 6) : Encoding.Statement (.snapPoll fm d j) := by
  have h0 := formCode_lt fm
  have h1 := d.isLt
  have h2 := j.isLt
  exact Encoding.of_word rfl (by delta encodeWord0; dsimp only; omega)

theorem Encoding.rollback (fm : Form) (d : BitVec 6) (j : BitVec 6) (n : BitVec 6) : Encoding.Statement (.rollback fm d j n) := by
  have h0 := formCode_lt fm
  have h1 := d.isLt
  have h2 := j.isLt
  have h3 := n.isLt
  exact Encoding.of_word rfl (by delta encodeWord0; dsimp only; omega)

theorem Encoding.blockCopyComplete (asn : Nat) (block : Nat) : Encoding.Statement (.blockCopyComplete asn block) := rfl

theorem Encoding.tmark (fm : Form) (a : BitVec 6) : Encoding.Statement (.tmark fm a) := by
  have h0 := formCode_lt fm
  have h1 := a.isLt
  exact Encoding.of_word rfl (by delta encodeWord0; dsimp only; omega)

theorem Encoding.pcntRd (fm : Form) (d : BitVec 6) (n : BitVec 6) : Encoding.Statement (.pcntRd fm d n) := by
  have h0 := formCode_lt fm
  have h1 := d.isLt
  have h2 := n.isLt
  exact Encoding.of_word rfl (by delta encodeWord0; dsimp only; omega)

theorem Encoding.tstamp (fm : Form) (d : BitVec 6) (sel : BitVec 12) : Encoding.Statement (.tstamp fm d sel) := by
  have h0 := formCode_lt fm
  have h1 := d.isLt
  have h2 := sel.isLt
  exact Encoding.of_word rfl (by delta encodeWord0; dsimp only; omega)

theorem Encoding.sample (core : Nat) (part : Nat) : Encoding.Statement (.sample core part) := rfl

theorem Encoding.counterMultiplex (core : Nat) (part : Nat) (n : Nat) : Encoding.Statement (.counterMultiplex core part n) := rfl

theorem Encoding.traceRecordWrite (asn : Nat) : Encoding.Statement (.traceRecordWrite asn) := rfl

theorem Encoding.timeEvent (h : HartId) : Encoding.Statement (.timeEvent h) := rfl

theorem Encoding.diagSt (fm : Form) (v : BitVec 6) (b : BitVec 6) (c : BitVec 6) (space : DiagSpace) : Encoding.Statement (.diagSt fm v b c space) := by
  have h0 := formCode_lt fm
  have h1 := v.isLt
  have h2 := b.isLt
  have h3 := c.isLt
  have h4 := diagSpaceCode_lt space
  exact Encoding.of_word rfl (by delta encodeWord0; dsimp only; omega)

theorem Encoding.sealLog (fm : Form) (d : BitVec 6) (b : BitVec 6) (a : BitVec 6) : Encoding.Statement (.sealLog fm d b a) := by
  have h0 := formCode_lt fm
  have h1 := d.isLt
  have h2 := b.isLt
  have h3 := a.isLt
  exact Encoding.of_word rfl (by delta encodeWord0; dsimp only; omega)

theorem Encoding.asynchronousError (h : HartId) : Encoding.Statement (.asynchronousError h) := rfl

theorem Encoding.hardwareError (h : HartId) (atHart : Bool) (loc : DWord) (synd : DWord) : Encoding.Statement (.hardwareError h atHart loc synd) := rfl

theorem Encoding.keyIndexScrub (key : Nat) : Encoding.Statement (.keyIndexScrub key) := rfl

theorem Encoding.hostRead (pa : Nat) (len : Nat) : Encoding.Statement (.hostRead pa len) := rfl

theorem Encoding.hostWrite (pa : Nat) (bytes : List Byte) : Encoding.Statement (.hostWrite pa bytes) := rfl

theorem Encoding.doorbell (q : Nat) (p : DWord) : Encoding.Statement (.doorbell q p) := rfl

theorem Encoding.hostQueueEntry (q : Nat) : Encoding.Statement (.hostQueueEntry q) := rfl

theorem Encoding.alarmClear (bits : DWord) : Encoding.Statement (.alarmClear bits) := rfl

theorem Encoding.mboxWrite (off : Nat) (val : DWord) : Encoding.Statement (.mboxWrite off val) := rfl

theorem Encoding.attest (nonce : DWord) : Encoding.Statement (.attest nonce) := rfl

theorem Encoding.session (ct : List Byte) : Encoding.Statement (.session ct) := rfl

theorem Encoding.regas (tag : BitVec 256) (asn : Nat) (root : DWord) (trap : DWord) (tcb : DWord) (nkey : Nat) : Encoding.Statement (.regas tag asn root trap tcb nkey) := rfl

theorem Encoding.deregas (tag : BitVec 256) (asn : Nat) : Encoding.Statement (.deregas tag asn) := rfl

theorem Encoding.bindq (tag : BitVec 256) (q : Nat) (bind : Bool) (qb : DWord) (qlog : Nat) (prio : Nat) (weight : Nat) (asn : Nat) : Encoding.Statement (.bindq tag q bind qb qlog prio weight asn) := rfl

theorem Encoding.preempt (tag : BitVec 256) (asn : Nat) (deadline : DWord) : Encoding.Statement (.preempt tag asn deadline) := rfl

theorem Encoding.stop (tag : BitVec 256) (asn : Nat) : Encoding.Statement (.stop tag asn) := rfl

theorem Encoding.resume (tag : BitVec 256) (asn : Nat) : Encoding.Statement (.resume tag asn) := rfl

theorem Encoding.unquar (tag : BitVec 256) (frame : Nat) : Encoding.Statement (.unquar tag frame) := rfl

theorem Encoding.pstate (n : Nat) : Encoding.Statement (.pstate n) := rfl

theorem Encoding.powerOnReset : Encoding.Statement .powerOnReset := rfl

theorem Encoding.telemetryRefresh (vals : List DWord) : Encoding.Statement (.telemetryRefresh vals) := rfl

theorem Encoding.thermalThrottle : Encoding.Statement .thermalThrottle := rfl

theorem Encoding.thermalRecovery : Encoding.Statement .thermalRecovery := rfl

theorem Encoding.thermalHalt : Encoding.Statement .thermalHalt := rfl

theorem Encoding.snapshotComplete (asn : Nat) : Encoding.Statement (.snapshotComplete asn) := rfl

theorem Encoding.saveWindowDrainComplete (h : HartId) : Encoding.Statement (.saveWindowDrainComplete h) := rfl

theorem Encoding.precisionTimeProtocol (ns : DWord) (bound : Word) (lock : Bool) : Encoding.Statement (.precisionTimeProtocol ns bound lock) := rfl

end Sys2Proof.Laws
end

