-- ==== Sys2Proof/Laws/Scalar.lean ====
section
/-! SUPPORT. What the scalar instructions that cannot trap do: the effect of `plain` and `jump` on the whole state (R88, R89). -/

namespace Sys2Proof.Machine

open Sys2Proof.Claims

/-- `jump` changes the hart in focus by `f`, and ends the convoy. -/
theorem jump_eq (f : Hart → Hart) (s : State) : jump f s = (s.mapH f).retireConvoy.idle := rfl

theorem jump_restSame (f : Hart → Hart) (s : State) : RestSame s (jump f s) :=
  ⟨fun a => by simp [jump], by rw [jump_eq, State.retireConvoy_eq]; rfl⟩

theorem jump_h (f : Hart → Hart) (s : State) :
    (jump f s).h = if s.cv.active && s.cv.resumed then { f s.h with ves := { }, vcm := 0 } else f s.h := by
  rw [jump_eq, State.retireConvoy_eq]; rfl

theorem jump_vesKept (f : Hart → Hart) (s : State) (hv : (f s.h).ves = s.h.ves) (hc : (f s.h).vcm = s.h.vcm) :
    VesKept s (jump f s) := by
  unfold VesKept resumedNow
  rw [jump_h]
  split
  · rename_i h
    obtain ⟨h1, h2⟩ := Bool.and_eq_true _ _ ▸ h
    exact .inr ⟨by rw [h1, h2]; rfl, rfl, rfl⟩
  · exact .inl ⟨hv, hc⟩

/-- Nothing but the pc changes. -/
theorem jump_pc_jumped (p : DWord) (s : State) : Jumped p s (jump (fun h => { h with pc := p }) s) := by
  refine ⟨?_, jump_vesKept _ _ rfl rfl, jump_restSame _ _, ?_⟩ <;> rw [jump_h] <;> split <;> rfl

/-- The effect on the state of a plain instruction that changes the hart by `f`. -/
theorem plain_eq_jump (fm : Form) (f : Hart → Hart) (s : State) :
    plain fm f s = jump (fun h => { f h with pc := (f h).pc + BitVec.ofNat 64 fm.len }) s := rfl

/-- `plain` writes one register and moves on. -/
theorem plain_setX_done (fm : Form) (d : BitVec 6) (v : DWord) (s : State) :
    ScalarDone fm d v s (plain fm (fun h => h.setX d v) s) := by
  refine ⟨fun r => ?_, ?_, jump_vesKept _ _ (by simp) (by simp), jump_restSame _ _, ?_⟩
  · show (jump _ s).h.getX r = _
    rw [jump_h]
    split <;> exact Hart.getX_setX s.h d r v
  · show (jump _ s).h.pc = _
    rw [jump_h]
    split <;> simp
  · obtain ⟨x, hx⟩ : ∃ x, s.h.setX d v = { s.h with x := x } := ⟨_, s.h.setX_eq d v⟩
    rw [plain_eq_jump, jump_h]
    by_cases hc : (s.cv.active && s.cv.resumed) = true
    · rw [if_pos hc, hx]
    · rw [if_neg hc, hx]

end Sys2Proof.Machine
end

