-- ==== Sys2Proof/Tests/Slice0.lean ====
section
/-! SUPPORT. The tests of the model: for every statement of
`Sys2Proof/Certificates/Slice0/Obligations.lean` that has hypotheses, concrete states and operands that
meet them (`witness_<statement>`); words written out from the encoding tables of the manual and what
they decode to; the ill-formed terms that `WellFormed` refuses; and single steps whose results come
from the worked examples and the rules of the manual. -/

set_option Elab.async false

namespace Sys2Proof.Tests

open Sys2Proof.Machine Sys2Proof.Claims

/-! ## Small states -/

/-- Scalar registers set. -/
def xs (l : List (BitVec 6 × DWord)) (h : Hart) : Hart := l.foldl (fun h p => h.setX p.1 p.2) h

/-- A gang of one hart in focus, in user mode at 0x10000, whose page at 0x10000 is cached, mapped to 0x200000 with accessed and dirty set,
and holds these bytes. -/
def base (bs : List Byte) (f : Hart → Hart) : State :=
  let s := State.reset.place bs
  let e : TlbEntry := { core := 0, asn := 1, va := 0x10000, size := 0x10000, leaf := 0x2001BF#64, pte := 0x104008 }
  { s with mem := putEntry s.mem 0x104008 0x2001BF, tlb := [e], h := f s.h }

/-- The same with the gang changed. -/
def baseG (f : Hart → Hart) (g : Gang → Gang) : State := (base [] f).mapGang 1 g

/-- Elements of a vector register, 32 bits each. -/
def v32 (l : List Nat) : VReg := { bits := (List.range l.length).foldl (fun b i => setBits b (32 * i) 32 (l.getD i 0)) 0 }

/-- A gang with TCM and scratchpad of 4,096 bytes each. -/
def locals (f : Hart → Hart) : State := baseG f fun g => { g with tcm := { size := 4096 }, sp := { size := 4096 } }

/-- Two elements of v1 and the indexes 0 and 1 in v2, at the page or at 0 of the local spaces. -/
def memVecs (b : DWord) : State := locals fun h => xs [(1, b), (2, 8)] { (h.setV 1 (v32 [7, 8])).setV 2 (v32 [0, 1]) with vl := 2 }

/-- Two elements of 32 bits in v1 and in v2. -/
def vecs (f : Hart → Hart) : State :=
  base [] fun h => f { (h.setV 1 (v32 [0x3F800000, 0x40000000])).setV 2 (v32 [0x40400000, 0x40800000]) with vl := 2 }

/-- The descriptor of i32 in each place. -/
def i32 : DWord := 0x22 * 0x1041

/-- An active element is below `vl`: a hypothesis about every active element is one about each below `vl`. -/
theorem act_lt {fm : Form} {h : Hart} {e : Nat} (he : act fm h e = true) : e < h.vl.toNat := by
  unfold act at he
  simp at he; exact he.1

theorem act_all {fm : Form} {h : Hart} {p : Nat → Prop} (hp : ∀ e < h.vl.toNat, act fm h e = true → p e) : ∀ e, act fm h e = true → p e :=
  fun e he => hp e (act_lt he) he

/-! ## Witnesses: states and operands that meet the hypotheses of the statements -/

theorem witness_StepKeepsMemoryCanonical :
    let s := base [0x04, 0x06, 0xA2, 0x00] id
    (∃ t, step s = .next t) ∧ Memory.wf s.mem := by
  refine ⟨?_, by decide +kernel⟩
  have h : (match step (base [0x04, 0x06, 0xA2, 0x00] id) with | .next _ => true | _ => false) = true := by decide +kernel
  revert h
  cases step (base [0x04, 0x06, 0xA2, 0x00] id) with
  | next t => exact fun _ => ⟨t, rfl⟩
  | fault r => exact fun h => absurd h (by simp)
  | refused r => exact fun h => absurd h (by simp)

theorem witness_DecodeOfEncode :
    let e : ExtFields := { extOf 0 0 with fdx := 63, g1p := true, g1 := 7, yld := true, pri := 2 }
    (wellFormed (.add .base 63 63 63) = true ∧ (formOf (.add .base 63 63 63)).isSome = true) ∧
    (wellFormed (.vadd (.ext e) 31 31 31 0 true) = true ∧ (formOf (.vadd (.ext e) 31 31 31 0 true)).isSome = true) ∧
    (wellFormed (.addImm (.baseLit (BitVec.allOnes 64)) 63 0) = true ∧ (formOf (.addImm (.baseLit (BitVec.allOnes 64)) 63 0)).isSome = true) ∧
    (wellFormed (.vld (.extLit (extOf 0 0) 5) 31 63 3 true false) = true ∧
      (formOf (.vld (.extLit (extOf 0 0) 5) 31 63 3 true false)).isSome = true) := by decide +kernel

theorem witness_DecodedIsWellFormed : decodeWords 0x00A20604 0 0 0 0 = .ok (.add .base 3 4 5) := by decide +kernel

theorem witness_StepRunsDecoded :
    let s := base [0x04, 0x06, 0xA2, 0x00] id
    let s0 := { s with turns := [], ended := .open }
    let s1 := { s0 with issued := s.issued + 1 }
    s.turns = .issue 0 0 .scalar 0 :: [] ∧ s.firm.st = 3 ∧ s0.choose 0 0 .scalar 0 = some s.h.id ∧ s.h.live = true ∧ s.h.takeable = false ∧
    State.heldBack exec s1 .scalar 0x00A20604 = 0 ∧ (s.h.fromEret && s.h.ves.rst) = false ∧ s.h.ahead = [] ∧ s.h.pc.toNat % 4 = 0 ∧
    ((s.tcbOf s.h).bp.all fun b => b.toNat % 4 == 0) = true ∧ mapsStill s s.h.pc.toNat .fetch = some (0x200000, 0) ∧
    cleanSector s s.h.pc.toNat 0x200000 0 = true ∧ leNat (cellsRead s.mem 0x200000 4) = 0x00A20604 ∧ lenOfL (0x00A20604 % 4) = 4 ∧
    decodeWords 0x00A20604 0 0 0 0 = .ok (.add .base 3 4 5) ∧ flag 0x00A20604 8 = false ∧ privileged (.add .base 3 4 5) = false := by decide +kernel

/-- The corners of division: a zero divisor, the greatest negative dividend by −1, and neither. -/
theorem witness_ScalarDivision :
    let s := base [] (xs [(1, 0x8000000000000000), (2, BitVec.allOnes 64), (3, 7)])
    s.h.getX 0 = 0 ∧ ((s.h.getX 1).toInt = -2 ^ 63 ∧ (s.h.getX 2).toInt = -1) ∧
    (s.h.getX 3 ≠ 0 ∧ ¬((s.h.getX 1).toInt = -2 ^ 63 ∧ (s.h.getX 3).toInt = -1)) := by decide +kernel

/-- A partition declared with four slots, joined to two: the other leader waits at a `vjoin 1`, or has not come yet. -/
def splitState (p : Option Park) (c : BitVec 2) : State :=
  let s := base [] fun h => { h with split := 2, cur := c }
  { s with harts := [{ s.h with id := ⟨0, 0, 2⟩, gh := 2, park := p }] }

theorem witness_LaneSplits :
    (∀ p ∈ [some (.join 0 4), some .away, none], let s := splitState p 1
      s.h.live = true ∧ alone s = true ∧ (0 : BitVec 2).toNat < s.h.cur.toNat ∧ (s.harts.all fun g => g.live && samePart g.id s.h.id &&
        g.joining.all (· == 0)) = true) ∧
    ((splitState (some (.join 0 4)) 1).harts.all fun g => g.joining == some 0) = true ∧
    ((splitState none 1).harts.all fun g => g.joining == some 0 || g.park == some .away) = false ∧
    (let s := splitState (some .away) 0
     s.h.live = true ∧ alone s = true ∧ s.h.park ≠ some .away ∧ s.h.cur.toNat < (2 : BitVec 2).toNat ∧ (2 : BitVec 2).toNat ≤ s.h.split.toNat) := by
  decide +kernel

/-- `vjoin 1` at split 0, and beside a hart that waits at `vjoin 2`; `vsplit 2` at split 1 (log2: 1 below, 2 above the declared 1). -/
theorem witness_LaneSplits_traps :
    (let s := splitState none 0
     s.h.live = true ∧ alone s = true ∧ ¬ (0 : BitVec 2).toNat < s.h.cur.toNat ∧ s.cv.active = false) ∧
    (let s := splitState (some (.join 1 4)) 2
     (0 : BitVec 2).toNat < s.h.cur.toNat ∧ (s.harts.any fun g => g.live && samePart g.id s.h.id && g.joining == some 1) = true ∧ s.cv.active = false) ∧
    (let s := splitState none 1
     ¬ s.h.cur.toNat < (1 : BitVec 2).toNat ∧ s.cv.active = false) ∧
    (let s := base [] fun h => { h with split := 1 }
     ¬ (2 : BitVec 2).toNat ≤ s.h.split.toNat ∧ s.cv.active = false) := by decide +kernel

theorem witness_MfsReads :
    (let s := base [] fun h => { h with status := { prv := true } }
     s.h.status.prv = true ∧ ((s.gangOf s.h.gang).any fun g => (s.node g.node).isSome) = true) ∧ (base [] id).h.status.prv = false ∧
    (0x11 : BitVec 12).toNat = 0x11 ∧ (0x3F : BitVec 12).toNat < 0x40 := by decide +kernel

/-- `mts`: the greatest `vl` that a grant admits and the next one, a register of both modes in user mode, one of supervisor mode in each mode. -/
theorem witness_MtsWrites :
    (let s := base [] (xs [(1, 0x2200)])
     alone s = true ∧ (s.h.getX 1).toNat % 4096 ≤ 16384 / 2 ^ s.h.split.toNat / (8 * 2 ^ ((s.h.getX 1).toNat / 4096 % 4)) / (if s.h.prot then 2 else 1)) ∧
    (let s := base [] (xs [(1, 0x2201)])
     s.cv.active = false ∧ 16384 / 2 ^ s.h.split.toNat / (8 * 2 ^ ((s.h.getX 1).toNat / 4096 % 4)) / (if s.h.prot then 2 else 1) < (s.h.getX 1).toNat % 4096) ∧
    (let s := base [] fun h => { h with status := { prv := true } }
     alone s = true ∧ s.h.status.prv = true) ∧
    (let s := base [] id
     (0x101 : BitVec 12).toNat = 0x101 ∧ (0x11 : BitVec 12).toNat = 0x11 ∧ s.h.status.prv = false ∧ s.cv.active = false) := by decide +kernel

theorem witness_TrapInstruction : (base [] id).cv.active = false := by decide +kernel

/-- Words at the pc: `viadd v5, v9, v25` with its chain bit and without, `add x3, x4, x5` with it and without. -/
def wordsAt (l : List Nat) (f : Hart → Hart) : State := base (l.flatMap (leBytes 4)) f

theorem witness_TrapEntryAndReturn :
    (let s := base [] fun h => { h with status := { prv := true, pie := true } }
     s.cv.active = false ∧ s.h.status.prv = true ∧ s.h.sv ≠ .lent) ∧
    (let s := base [] id
     s.cv.active = false ∧ s.h.status.prv = false) := by decide +kernel

theorem witness_TrapEntryAndReturn_frames :
    (∀ ms ∈ [[[0x00A20604]], [[0x01394748], [0x01394648]], List.replicate 4 [0x01394748], [[0x00A20704]], [[0x01394748], [0x00A20604]]],
      (wordsAt ms.flatten id).h.ahead = [] ∧ holdsWords (wordsAt ms.flatten id) 0x10000 ms.flatten ∧ ms.all wholeMember = true) ∧
    ((0x01394748).testBit 8 = true ∧ (0x01394648).testBit 8 = false ∧ (0x00A20704).testBit 8 = true ∧ (0x00A20604).testBit 8 = false ∧
      (0x0C ≤ 0x01394748 / 4 % 64 ∧ 0x01394748 / 4 % 64 ≤ 0x1F) ∧ 0x00A20704 / 4 % 64 < 0x0C) ∧
    (let h := (wordsAt [0x01394748, 0x01394648] fun h => { h with fromEret := true, ves := { rst := true, cm := 2 } }).h
     h.fromEret = true ∧ h.ves.rst = true ∧ 1 < h.ves.cm.toNat) ∧
    (let f : Ahead := { members := [[0x00A20704]], bad := some 0x00A20704 }
     let s := base [] fun h => { h with ahead := [(0x10000, f)] }
     s.h.ahead.find? (·.1 == s.h.pc) = some (0x10000, f) ∧ f.bad = some 0x00A20704) := by
  refine ⟨?_, by decide +kernel, by decide +kernel, by decide +kernel⟩
  intro ms hm
  simp only [List.mem_cons, List.not_mem_nil, or_false] at hm
  rcases hm with rfl | rfl | rfl | rfl | rfl
  · exact ⟨by decide +kernel, ⟨⟨0x200000, 0, by decide +kernel⟩, trivial⟩, by decide +kernel⟩
  · exact ⟨by decide +kernel, ⟨⟨0x200000, 0, by decide +kernel⟩, ⟨0x200004, 0, by decide +kernel⟩, trivial⟩, by decide +kernel⟩
  · exact ⟨by decide +kernel, ⟨⟨0x200000, 0, by decide +kernel⟩, ⟨0x200004, 0, by decide +kernel⟩, ⟨0x200008, 0, by decide +kernel⟩,
      ⟨0x20000C, 0, by decide +kernel⟩, trivial⟩, by decide +kernel⟩
  · exact ⟨by decide +kernel, ⟨⟨0x200000, 0, by decide +kernel⟩, trivial⟩, by decide +kernel⟩
  · exact ⟨by decide +kernel, ⟨⟨0x200000, 0, by decide +kernel⟩, ⟨0x200004, 0, by decide +kernel⟩, trivial⟩, by decide +kernel⟩

/-- In a convoy: a stream register out of range, a register that is not live, a descriptor that is none of integers, a length above the grant; a
request that comes before a member that traps at dispatch; and one between two members. -/
theorem witness_TrapEntryAndReturn_convoys :
    (let s := vecs fun h => { h with split := 3 }
     8 / 2 ^ s.h.split.toNat ≤ (7 : BitVec 3).toNat) ∧
    (let i := Instr.viadd .base 3 1 2 0 true
     let s := vecs fun h => { h with vlive := ~~~4#64 }
     s.h.status.prv = false ∧ 2 ∈ namedBits i ∧ s.h.vlive.getLsbD 2 = false ∧ ∀ j ∈ namedBits i, s.h.vlive.getLsbD j = false → 2 ≤ j) ∧
    (let i := Instr.viadd .base 3 1 2 0 true
     let use : FdUse := { fa := some isInt, fb := some isInt, dst := some isInt }
     (∀ j ∈ namedBits i, (vecs id).h.vlive.getLsbD j = true) ∧ fdOk use (fdValue .base 0 (vecs id).h) = false ∧
     (let h := (vecs fun h => xs [(8, i32)] { h with split := 2, vl := 129 }).h
      (∀ j ∈ namedBits i, h.vlive.getLsbD j = true) ∧ fdOk use (fdValue .base 0 h) = true ∧ immReserved .base (fdValue .base 0 h) = false ∧
      h.grant 32 < h.vl.toNat)) ∧
    (let s := { base [] id with cv := { active := true } }
     s.cv.active = true) ∧
    (let s := base [] fun h => { h with vlive := 0 }
     let is := [Instr.viadd .base 3 1 2 0 false]
     (match runMembers exec is (s.enterConvoy none false is) with | .next t => t.ended == .trapped .before | _ => false) = true) ∧
    (let s := memVecs 0x10000
     let t := s.mapH fun h => { h with ves := { rst := true, cm := 1, idx := 1 } }
     t.cv.active = false ∧ t.h.ves.cm = 1 ∧ ready (.vld .base 3 1 2 false false) 32 t = true ∧ t.h.arit = [] ∧ t.h.pendingOf .vector = [] ∧
     noSlots [3] t.h = true ∧ (readsAs t false (t.h.getX 1 + offsetOf .base + BitVec.ofNat 64 (1 * 4)) 4).isSome = true) ∧
    (let s := { (base [] fun h => { h with preempt := some 5 }) with cv := { active := true, idx := 1, cut := some (1, 0) } }
     s.cv.active = true ∧ s.cv.pend = false ∧ s.cv.resumed = false ∧ 0 < s.cv.idx ∧ s.cv.cut = some (s.cv.idx, 0) ∧ s.cv.done = 0 ∧
     s.cv.marks = [] ∧ s.h.park = none ∧ s.h.preempt = some 5) := by decide +kernel

theorem witness_HintsAndWaits :
    (let s := base [] fun h => { h with evtBar := true }
     (s.evtOf s.h).getLsbD 4 = true ∧ s.h.emask.getLsbD 4 = true) ∧
    (let s := base [] id
     ∀ k < 6, (s.evtOf s.h).getLsbD k = true → s.h.emask.getLsbD k = false) := by decide +kernel

/-- The sector of the first bytes of the page, and the greatest width at its greatest aligned place; local spaces; and a load that performed early. -/
theorem witness_ScalarLoads :
    (let s := base [1, 2, 3, 4, 5, 6, 7, 0x88] (xs [(1, 0x10000), (2, 56)])
     let e := s.tlb.headD ⟨0, 0, 0, 0, 0, 0⟩
     ∀ i ∈ [(0 : BitVec 6), 2], let va := (addrB .base 1 i s.h).toNat
       alone s = true ∧ mapsBy s va .read e = true ∧ cleanSector s va (paBy e va) (leafKey e.leaf.toNat) = true ∧
       paBy e va % 8 = va % 8 ∧ s.h.pendingOf .scalar = [] ∧ s.h.early = [] ∧ va % 8 = 0) ∧
    (let s := (base [] (xs [(1, 8184)])).mapGang 1 fun g => { g with tcm := { size := 4096 }, sp := { size := 4096 } }
     ∀ i ∈ [(0 : BitVec 6), 1], let va := addrB .base i 0 s.h
       alone s = true ∧ s.h.pendingOf .scalar = [] ∧ s.h.early = [] ∧ va.toNat % 8 = 0 ∧ cleanLocal (s.localOf (s.h.tcmSpace va).1) = true ∧
       cleanLocal (s.localOf (s.spSpace s.h va).1) = true) ∧
    (let l := [1, 2, 3, 4, 5, 6, 7, 8].map fun k => (BitVec.ofNat 8 k, false)
     let s := base [] fun h => xs [(1, 0x10000)] { h with early := [{ cls := .scalar, space := .glob, addr := 0x200000, bytes := l }] }
     alone s = true ∧ (addrB .base 1 0 s.h).toNat % 8 = 0 ∧ mapsStill s (addrB .base 1 0 s.h).toNat .read = some (0x200000, 0) ∧ l.length = 8 ∧
     l.all (fun x => !x.2) = true) := by decide +kernel

theorem witness_ScalarStores :
    (let s := base [] (xs [(1, 0x10000), (2, 0xFFF8)])
     let e := s.tlb.headD ⟨0, 0, 0, 0, 0, 0⟩
     ∀ i ∈ [(0 : BitVec 6), 2], let va := addrB .base 1 i s.h
       alone s = true ∧ mapsBy s va.toNat .write e = true ∧ unshared s e = true ∧ va.toNat % 8 = 0) ∧
    (let s := (base [] (xs [(1, 4088), (2, 4096)])).mapGang 1 fun g => { g with tcm := { size := 4096 }, sp := { size := 4096 } }
     ∀ i ∈ [(0 : BitVec 6), 1, 2], let va := addrB .base i 0 s.h
       let whole := fun (x : Space × Nat) => (s.localOf x.1).size % 8 = 0 ∧ x.2 % 8 = va.toNat % 8 ∧ 8 ≤ (s.localOf x.1).size
       alone s = true ∧ va.toNat % 8 = 0 ∧ whole (s.h.tcmSpace va) ∧ whole (s.spSpace s.h va)) := by decide +kernel

theorem witness_OperandTraps :
    (let s := base [] (xs [(1, 0x10001)])
     s.cv.active = false ∧ (addrB .base 1 0 s.h).toNat % 2 ≠ 0 ∧ (addrB .base 1 0 s.h).toNat % 8 ≠ 0 ∧ (addrB .base 1 0 s.h).toNat % 4 ≠ 0) ∧
    (let s := vecs fun h => (xs [(9, i32)] h).setV 1 { bits := 0, psn := 0x80 }
     noSlots (3 :: abOf .base 1 2) s.h = true ∧ s.cv.active = false ∧ act .base s.h 1 = true ∧ (s.h.getV 1).eltPsn 32 1 = true ∧
     (immReserved .base (fdValue .base 0 s.h) = false ∧ immReserved .base (fdValue .base 1 s.h) = false) ∧
     (fdOk { fa := some isFloating, fb := some isFloating, dst := some isFloating, rounds := true } (fdValue .base 0 s.h) = true ∧
       ready (.vadd .base 3 1 2 0 false) 32 s = true ∧ ready (.vfma .base 3 1 2 0 false) 32 s = true) ∧
     (fdOk { fa := some isInt, fb := some isInt, dst := some isInt } (fdValue .base 1 s.h) = true ∧
       ready (.viadd .base 3 1 2 1 false) 32 s = true)) := by decide +kernel

/-- Addresses beyond 57 bits and without a valid entry; and a cached page for supervisor mode, of another key index, that may not be read,
written, fetched from, or used by atomics. -/
theorem witness_OperandTraps_denied :
    let page := fun (leaf : Nat) (bs : List Byte) (f : Hart → Hart) =>
      let s := base bs f
      { s with mem := putEntry s.mem 0x104008 leaf, tlb := s.tlb.map fun e => { e with leaf := BitVec.ofNat 64 leaf } }
    let barred := fun (s : State) (e : TlbEntry) => (e.leaf.getLsbD 6 && !s.h.status.prv) ||
      (e.leaf.extractLsb' 48 8 != 0 && (s.spaceOf s.h.asn).all fun p => !p.keys.contains (e.leaf.extractLsb' 48 8).toNat)
    (let s := base [] (xs [(1, 2 ^ 57), (2, 2 ^ 48)])
     s.cv.active = false ∧ (addrB .base 1 0 s.h).toNat % 8 = 0 ∧ 2 ^ 57 ≤ (addrB .base 1 0 s.h).toNat ∧ (s.h.getX 1).toNat % 8 = 0 ∧
     cachedAs s (2 ^ 48) = none ∧ ((s.spaceOf s.h.asn).any fun p => p.root + 8 * (2 ^ 48 / 2 ^ 48 % 512) == 0x100008) = true ∧
     (cellsGet s.mem 0x100008).getLsbD 0 = false ∧ plainSector s 0x100008 (s.region (0x100008 / 4096)).kidx = true ∧ s.h.ahead = [] ∧
     s.h.stbuf = [] ∧ [Scope.hart, .core, .cluster, .die, .dev, .fab, .sys].all (quietAt s.h) = true) ∧
    (∀ x ∈ [(0x2001FF, true), (0x2001BF + 2 ^ 48, true), (0x2001BB, false), (0x2001B7, false), (0x2001AF, false), (0x20019F, false)],
      let s := page x.1 [] (xs [(1, 0x10000)])
      let e := s.tlb.headD ⟨0, 0, 0, 0, 0, 0⟩
      s.cv.active = false ∧ (s.h.getX 1).toNat < 2 ^ 57 ∧ cachedAs s (s.h.getX 1).toNat = some e ∧ cachedAs s s.h.pc.toNat = some e ∧ s.h.ahead = [] ∧
      barred s e = x.2 ∧ (x.1 = 0x2001BB → e.leaf.getLsbD 2 = false) ∧ (x.1 = 0x2001B7 → e.leaf.getLsbD 2 = true ∧ e.leaf.getLsbD 3 = false) ∧
      (x.1 = 0x2001AF → e.leaf.getLsbD 4 = false) ∧
      (x.1 = 0x20019F → e.leaf.getLsbD 2 = true ∧ e.leaf.getLsbD 3 = true ∧ e.leaf.getLsbD 5 = false)) := by decide +kernel

/-- A root of a subnormal; a load alone and in a convoy, whose first or last element is denied; a merge of a fibre that is not sorted. -/
theorem witness_OperandTraps_assist :
    (let s := vecs fun h => (xs [(8, 0x400000)] h).setV 1 (v32 [0x3F800000, 1])
     let res := fun e => match sourceVal 0x400000 0 0 ((s.h.getV 1).elt 32 e) with
       | some x => (RCtx.mk 0x400000 s.h.sseed s.h.sbase).round 0 e x.sqrt
       | none => none
     fdValue .base 0 s.h = 0x400000 ∧ fdOk { fa := some isFloating, dst := some isFloating, rounds := true } 0x400000 = true ∧
     ready (.vsqrt .base 3 1 0 false) 32 s = true ∧ noSlots [3, 1] s.h = true ∧ cleanAt .base s.h [(1, 32)] = true ∧ s.cv.active = false ∧
     act .base s.h 1 = true ∧ (res 1).isNone = true ∧ ∀ e < 1, act .base s.h e = true → (res e).isSome = true) ∧
    (∀ b ∈ [0x1FFFC, 2 ^ 57 - 4], let s := base [] fun h => xs [(1, BitVec.ofNat 64 b)] { h with vl := 1 }
     let at' := fun (e : Nat) => s.h.getX 1 + offsetOf (.baseLit 4) + BitVec.ofNat 64 (e * 4)
     ready (.vld (.baseLit 4) 3 1 2 false false) 32 s = true ∧ s.h.arit = [] ∧ s.h.pendingOf .vector = [] ∧
     noSlots [3] s.h = true ∧ act (.baseLit 4) s.h 0 = true ∧ deniedBy s (at' 0).toNat .read = some 0x20) ∧
    (let s := base [] fun h => xs [(1, 0x1FFF8)] { h with vl := 2 }
     let at' := fun (e : Nat) => s.h.getX 1 + offsetOf (.baseLit 4) + BitVec.ofNat 64 (e * 4)
     (readsAs s false (at' 0) 4).isSome = true ∧ act (.baseLit 4) s.h 1 = true ∧ deniedBy s (at' 1).toNat .read = some 0x20) ∧
    (let s := base [] fun h => (h.setF 1 [⟨5, 0, false, false⟩, ⟨5, 0, false, false⟩])
     (3 : BitVec 4) ≠ 1 ∧ (3 : BitVec 4) ≠ 2 ∧ startsAfresh s = true ∧ s.cv.active = false ∧ named (.fmerge .base 3 1 2 false) s = true ∧
     sortedPairs (s.h.getF 1) = false) := by decide +kernel

theorem witness_WritesPerform :
    let s := base [] id
    let p : PWrite := { cls := .scalar, strip := 0, space := .glob, addr := 0x20003C, key := 0, va := 0x1003C, bytes := [1, 2, 3, 4], psn := false }
    p.space = .glob ∧ p.addr % 64 + p.bytes.length ≤ 64 ∧ s.quar.contains (p.addr / 65536) = false ∧
    s.badMeta.contains (p.addr / 4096) = false ∧ s.badTree.contains (p.addr / 4096) = false ∧ s.tagFails (p.addr / 64) = false := by
  decide +kernel

/-- A fence over a store on its way, and a release with none. -/
theorem witness_FencesAndReleases :
    (let w : PWrite := { cls := .scalar, strip := 0, space := .glob, addr := 0x200000, key := 0, va := 0x10000, bytes := [1, 2], psn := false }
     let s := base [] fun h => { h with stbuf := [w] }
     alone s = true ∧ (∀ c ∈ [Scope.hart, .core, .cluster, .die, .dev, .fab, .sys], quietAt s.h c = true)) ∧
    (let s := base [] (xs [(1, 0x10000)])
     let e := s.tlb.headD ⟨0, 0, 0, 0, 0, 0⟩
     let va := addrB .base 1 0 s.h
     alone s = true ∧ (∀ c ∈ [Scope.hart, .core, .cluster, .die, .dev, .fab, .sys], quietAt s.h c = true) ∧ s.h.stbuf = [] ∧
     mapsBy s va.toNat .write e = true ∧ unshared s e = true ∧ va.toNat % 8 = 0 ∧ paBy e va.toNat % 8 = va.toNat % 8 ∧
     cleanSector s va.toNat (paBy e va.toNat) (leafKey e.leaf.toNat) = true ∧ offTables s (paBy e va.toNat) 8 = true ∧
     e.pte + 8 ≤ paBy e va.toNat) := by decide +kernel

/-- Supervisor mode, where another hart has a write on its way that used the translation, or has none; and user mode. -/
theorem witness_TlbInvalidation :
    (let w : PWrite := { cls := .scalar, strip := 0, space := .glob, addr := 0x200000, key := 0, va := 0x10000, bytes := [1, 2], psn := false }
     ∀ ws ∈ [[], [w]],
       let s := base [] fun h => xs [(1, 0x10008), (2, 1)] { h with status := { prv := true } }
       let s := { s with harts := [{ s.h with id := ⟨0, 0, 1⟩, gh := 1, stbuf := ws }] }
       let done := s.flush fun _ => true
       s.h.status.prv = true ∧ noneHeld s.h = true ∧ alone s = true ∧ s.cv.active = false ∧
       (done.harts.any fun g => g.live && g.asn == (s.h.getX 2).toNat % 65536 &&
         g.stbuf.any fun w => w.space == .glob && w.va.toNat / 2 ^ 30 == (s.h.getX 1).toNat / 2 ^ 30) = !ws.isEmpty) ∧
    (let s := base [] id; s.h.status.prv = false ∧ s.cv.active = false) := by decide +kernel

/-- Sums, products, quotients and roots of 1, 2, 3, 4: no element needs the assist. -/
theorem witness_FloatArithmetic :
    let s := vecs id
    let r := fun (e : Nat) (x : Option Val) => match x with | some v => (RCtx.mk 0 0 0).round 0 e v | none => none
    let a := fun e => sourceVal 0 0 0 ((s.h.getV 1).elt 32 e)
    let b := fun e => sourceVal 0 0 0 ((s.h.getV 2).elt 32 e)
    let two := fun (op : Val → Val → Val) e => match a e, b e with | some x, some y => r e (some (op x y)) | _, _ => none
    (fdValue .base 0 s.h = 0 ∧ s.h.sseed = 0 ∧ s.h.sbase = 0 ∧ immReserved .base 0 = false ∧
      fdOk { fa := some isFloating, fb := some isFloating, dst := some isFloating, rounds := true } 0 = true ∧
      fdOk { fa := some isFloating, dst := some isFloating, rounds := true } 0 = true) ∧
    ((∀ i ∈ [Instr.vadd .base 3 1 2 0 false, .vsub .base 3 1 2 0 false, .vmul .base 3 1 2 0 false, .vdiv .base 3 1 2 0 false,
      .vmin .base 3 1 2 0 false, .vmax .base 3 1 2 0 false, .vfma .base 3 1 2 0 false, .vfms .base 3 1 2 0 false, .vsqrt .base 3 1 0 false,
      .vrsqrt .base 3 1 0 false, .vabs .base 3 1 0 false, .vneg .base 3 1 0 false], ready i 32 s = true) ∧ noSlots [3, 1, 2] s.h = true ∧
      noSlots (3 :: abOf .base 1 2) s.h = true ∧ cleanAt .base s.h [(3, 32), (1, 32), (2, 32)] = true) ∧
    ∀ e < 2, ((two (fun x y => x.add false y) e).isSome = true ∧ (two (fun x y => x.add false y.neg) e).isSome = true ∧
      (two Val.mul e).isSome = true ∧ (two Val.div e).isSome = true ∧ (two (pickVals true false) e).isSome = true ∧
      (two (pickVals true true) e).isSome = true) ∧
      (r e ((a e).map Val.sqrt)).isSome = true ∧ (r e ((a e).map Val.rsqrt)).isSome = true ∧ (r e ((a e).map Val.abs)).isSome = true ∧
      (r e ((a e).map Val.neg)).isSome = true ∧ (sourceVal 0 0 0 ((s.h.getV 3).elt 32 e)).isSome = true := by decide +kernel

/-- Reals for the exact clauses: 3/2, −3/2 and a zero. -/
theorem witness_FloatArithmetic_exact :
    ratOf (.num false 3 (-1)) = some (3 / 2) ∧ ratOf (.num true 3 (-1)) = some (-3 / 2) ∧ ratOf (.zero false) = some 0 ∧
    (Val.zero false).isZero = true ∧ (Val.num false 3 (-1)).isZero = false := by
  refine ⟨?_, ?_, rfl, rfl, rfl⟩ <;> norm_num [ratOf]

theorem witness_IntegerArithmetic :
    let s := vecs (xs [(8, i32)])
    let fd := fdValue .base 0 s.h
    (fdOk { fa := some isInt, fb := some isInt, dst := some isInt } fd = true ∧ immReserved .base fd = false ∧
      fmtWidth (fdFA fd) = 32 ∧ fmtWidth (fdFB fd) = 32 ∧ fmtWidth (fdDst fd) = 32) ∧
    (∀ i ∈ [Instr.viadd .base 3 1 2 0 false, .visub .base 3 1 2 0 false, .vimul .base 3 1 2 0 false, .vimulh .base 3 1 2 0 false,
      .vimin .base 3 1 2 0 false, .vimax .base 3 1 2 0 false, .vand .base 3 1 2 0 false, .vor .base 3 1 2 0 false, .vxor .base 3 1 2 0 false,
      .vshl .base 3 1 2 0 false, .vshr .base 3 1 2 0 false, .vsar .base 3 1 2 0 false, .vfshL .base 3 1 2 0 false, .vfshR .base 3 1 2 0 false,
      .vclz .base 3 1 0 false, .vpopc .base 3 1 0 false], ready i 32 s = true) ∧
    noSlots (3 :: abOf .base 1 2) s.h = true ∧ cleanAt .base s.h [(3, 32), (1, 32), (2, 32)] = true := by decide +kernel

theorem witness_Comparisons :
    let s := vecs (xs [(9, i32)])
    ∀ f ∈ [(0 : BitVec 3), 1], let fd := fdValue .base f s.h
      fdOk { fa := some fun x => isFloating x || isInt x, fb := some (if isInt (fdFA fd) then isInt else isFloating) } fd = true ∧
      immReserved .base fd = false ∧ ready (.vcmp .base 2 1 2 f .lt false) 32 s = true ∧ noSlots (abOf .base 1 2) s.h = true ∧
      cleanAt .base s.h [(1, 32), (2, 32)] = true := by decide +kernel

theorem witness_Reductions :
    let s := vecs (xs [(9, i32)])
    let r := RCtx.mk 0 s.h.sseed s.h.sbase
    let pats := fun lo hi => (List.range (hi - lo)).map fun j => if activeAt .base s.h (lo + j) then some ((s.h.getV 1).elt 32 (lo + j)) else none
    let vs := [(0, (.num false 0x800000 (-23) : Val)), (1, .num false 0x800000 (-22))]
    (redFd .add 0 = true ∧ redFd .add i32 = true ∧ isInt (fdFA i32) = true ∧ isInt (fdFA 0) = false ∧
      fdValue .base 0 s.h = 0 ∧ fdValue .base 1 s.h = i32) ∧
    (∀ i ∈ [Instr.vred .base 3 1 0 .add false, .vgred .base 3 1 1 0 .add false, .vscan .base 3 1 0 .add false, .vscan .base 3 1 1 .add false], ready i 32 s = true) ∧ noSlots [3, 1] s.h = true ∧ cleanAt .base s.h [(1, 32)] = true ∧
    (reduce .add r 0 (pats 0 2)).isSome = true ∧ (reduce .add (RCtx.mk i32 0 0) 0 (pats 0 1)).isSome = true ∧
    (reduce .add (RCtx.mk i32 0 0) 0 (pats 0 2)).isSome = true ∧
    ((List.range 2).mapM fun e => (sourceVal 0 0 0 ((s.h.getV 1).elt 32 e)).map fun v => (e, v)) = some vs ∧
    ((runningSum r none vs).map fun l => l.map (·.1)) = some [0, 1] := by decide +kernel

/-- A context of integers and one of reals, with 1 and 2 about an inactive element: ordered, running and tree sums; no element, one, and exact terms. -/
theorem witness_Reductions_orders :
    let r : RCtx := { d := 0, seed := 0, base := 0 }
    let vals := fun (ps : List (Option Nat)) => (ps.filterMap id).mapM fun p => sourceVal r.d (fdDst r.d) (fdFA r.d) p
    let one : Val := .num false 0x800000 (-23)
    let two : Val := .num false 0x800000 (-22)
    (isInt (fdFA i32) = true ∧ ∀ q ∈ [5, 7], patInt (fdFA i32) 5 ≤ patInt (fdFA i32) q) ∧
    (isInt (fdFA r.d) = false ∧ vals [none] = some [] ∧ vals [some 0x3F800000] = some [one] ∧
      vals [some 0x3F800000, none, some 0x40000000] = some [one, two]) ∧
    r.round 0 0 one = some 0x3F800000 ∧ r.round 0 0 (one.add false two) = some 0x40400000 ∧ r.round 0 1 (one.add false two) = some 0x40400000 ∧
    (∃ node : Nat → Nat → Option (Val × Option Nat),
      (∀ i, node 0 i = ([some 0x3F800000, some 0x40000000].getD i none).bind fun p => (sourceVal r.d (fdDst r.d) (fdFA r.d) p).map (·, none)) ∧
      ∀ n j, match node n (2 * j), node n (2 * j + 1) with
        | some x, some y => ∃ p, r.round 0 0 (x.1.add false y.1) = some p ∧ node (n + 1) j = some (valueOf 0 p, some p)
        | some x, none | none, some x => node (n + 1) j = some x
        | none, none => node (n + 1) j = none) := by
  refine ⟨by decide +kernel, by decide +kernel, by decide +kernel, by decide +kernel, by decide +kernel,
    fun n j => match n, j with
      | 0, i => ([some 0x3F800000, some 0x40000000].getD i none).bind fun p => (sourceVal 0 0 0 p).map (·, none)
      | _ + 1, 0 => some (valueOf 0 0x40400000, some 0x40400000)
      | _ + 1, _ + 1 => none, fun i => rfl, ?_⟩
  intro n j
  match n, j with
  | 0, 0 => exact ⟨0x40400000, by decide +kernel, rfl⟩
  | 0, j + 1 => rfl
  | n + 1, 0 => rfl
  | n + 1, j + 1 => rfl

theorem witness_Reductions_exact :
    [(.num false 3 (-1) : Val), .zero true, .num true 1 2].map ratOf = [(3 / 2 : ℚ), 0, -4].map some := by norm_num [ratOf]

theorem witness_Reductions_products :
    let s := vecs (xs [(8, 0x208)])
    let x := fun e => (valueOf 8 ((s.h.getV 1).elt 8 e)).mul (valueOf 8 ((s.h.getV 2).elt 8 e))
    fdValue .base 0 s.h = 0x208 ∧ fdOk { fa := some addxFmt, fb := some addxFmt, dst := some isFloating, rounds := true } 0x208 = true ∧
    ready (.vredAddxProduct .base 3 1 2 0 false) 32 s = true ∧ noSlots [3, 1, 2] s.h = true ∧ cleanAt .base s.h [(1, 8), (2, 8)] = true ∧
    ((RCtx.mk 0x208 s.h.sseed s.h.sbase).round 0 0 ((x 0).add false (x 1))).isSome = true ∧
    ∀ e < 2, sourceVal 0x208 0 8 ((s.h.getV 1).elt 8 e) = some (valueOf 8 ((s.h.getV 1).elt 8 e)) ∧
      sourceVal 0x208 0 8 ((s.h.getV 2).elt 8 e) = some (valueOf 8 ((s.h.getV 2).elt 8 e)) := by decide +kernel

/-- From f32 to tap16, from a block of tb8 to f32, and from f32 to tb8. -/
theorem witness_Conversions :
    let use : FdUse := { fa := some fun _ => true, dst := some (fun c => !isMx c), rounds := true }
    let x : Form := .ext { extOf 0 0 with e5 := 4, fdx := 9 }
    let s := vecs (xs [(8, 9 * 0x1000), (9, 0xB * 0x1000), (10, 0xB)])
    (fdOk use (9 * 0x1000) = true ∧ fdOk use (0xB * 0x1000) = true ∧ fdOk use 0xB = true) ∧
    (ready (.vcvt .base 3 1 0 0 false) 32 s = true ∧ noSlots [3, 1] s.h = true ∧ e5Of .base = 0 ∧ cleanAt .base s.h [(1, 32)] = true ∧
      ∀ e < 2, ((sourceVal (9 * 0x1000) 9 0 ((s.h.getV 1).elt 32 e)).bind fun v => (RCtx.mk (9 * 0x1000) 0 0).round 9 e v).isSome = true) ∧
    (fdValue x 0 s.h = 0xB * 0x1000 ∧ ready (.vcvt x 3 1 0 0 false) 32 s = true ∧ noSlots [3, 1, 4] s.h = true ∧ s.h.deadBit (vBit 4) = false ∧
      cleanAt x s.h [(1, 32)] = true ∧ (e5Of x).setWidth 5 = (4 : BitVec 5)) ∧
    (ready (.vcvt .base 3 1 2 2 false) 32 s = true ∧ noSlots [3, 1, 2] s.h = true ∧ s.h.deadBit (vBit 2) = false ∧
      cleanAt .base s.h [(1, 8)] = true ∧ ∀ e < 2, (s.h.getV 2).eltPsn 8 (e / 32) = false ∧
        ((sourceVal 0xB 0 0xB ((s.h.getV 1).elt 8 e)).bind fun v => (RCtx.mk 0xB 0 0).round 0 e (v.mul (scaleVal ((s.h.getV 2).elt 8 0)))).isSome = true) := by
  decide +kernel

/-- A code of each format in the ranges of its clauses, and a real between two neighbours. -/
theorem witness_Conversions_values :
    ((0x5A : Nat) < 2 ^ 8 ∧ 3 ≤ 8 ∧ 0 < 0x5A ∧ 0x5A < 2 ^ 7 ∧ ((∀ i < 1, (0x5A).testBit (8 - 2 - i) = true) ∧ (0x5A).testBit (8 - 2 - 1) = !true)) ∧
    ((0x3C00 : Nat) < 2 ^ 16 ∧ 0x3C00 / 2 ^ 10 % 2 ^ 5 ≠ 2 ^ 5 - 1 ∧ 0x7C01 / 2 ^ 10 % 2 ^ 5 = 2 ^ 5 - 1 ∧ 1 / 2 ^ 10 % 2 ^ 5 = 0 ∧ 1 % 2 ^ 10 ≠ 0) ∧
    ((0x20 : Nat) ≤ 0x22 ∧ 0x22 < 0x28) ∧
    ((fdRM 0 ≤ 1) ∧ (0 : Nat) < 1 ∧ 0x4000 + 1 < 2 ^ 15) ∧
    ratOf (tapVal 16 1 0x4000) = some 1 ∧ ((ratOf (tapVal 16 1 0x4001)).getD 0 = 4097 / 4096) ∧
    (ratOf (valueOf 1 0x3C00)).getD 0 = 1 ∧ (ratOf (valueOf 1 0x3C01)).getD 0 = 1025 / 1024 := by
  decide +kernel

/-- Blocks: one with a value that is not a real, one of zeros, and one whose largest magnitude lies from 4 to 8. -/
theorem witness_Conversions_blocks :
    (∃ v ∈ [(.nar : Val), .zero false], v = .nar) ∧ fdScm 0 = 0 ∧ fdScm (2 ^ 26) = 1 ∧ (∀ v ∈ [(.zero true : Val)], ratOf v = some 0) ∧
    (∀ v ∈ [(.num false 3 (-1) : Val), .num true 5 0], ∀ n x, v ≠ .num n 0 x) ∧
    (∀ v ∈ [(.num false 3 (-1) : Val), .num true 5 0], ∀ q, ratOf v = some q → |q| < 2 ^ ((2 : Int) + 1)) ∧
    (∃ v ∈ [(.num false 3 (-1) : Val), .num true 5 0], ∃ q, ratOf v = some q ∧ 2 ^ (2 : Int) ≤ |q|) := by
  refine ⟨⟨.nar, by simp, rfl⟩, by decide, by decide, by simp [ratOf], by simp, ?_, ⟨.num true 5 0, by simp, -5, by norm_num [ratOf], by norm_num⟩⟩
  intro v hv q h
  simp only [List.mem_cons, List.not_mem_nil, or_false] at hv
  rcases hv with rfl | rfl <;> simp only [ratOf, Option.some.injEq] at h <;> subst h <;> norm_num [abs_lt]

/-- Two elements, and none. -/
theorem witness_MasksAndPermutes :
    (∀ s ∈ [vecs (xs [(1, 1)]), vecs fun h => xs [(1, 1)] { h with vl := 0 }],
      ∀ i ∈ [Instr.mand .base 1 2 3 false, .mor .base 1 2 3 false, .mxor .base 1 2 3 false, .mandn .base 1 2 3 false, .mnot .base 1 2 false,
        .mpopc .base 5 2 false, .mfirst .base 5 2 false], named i s = true) ∧
    (let s := vecs (xs [(1, 1)])
     (∀ i ∈ [Instr.vslideUp .base 3 1 1 false, .vslideDown .base 3 1 1 false, .vbcast .base 3 1 false, .vbcastI .base 3 1 1 false,
       .vperm .base 3 1 2 false, .vcompress .base 3 1 2 false, .vexpand .base 3 1 2 false], ready i (ewBits s.h.ew) s = true) ∧
     0 < s.h.vl.toNat ∧ noSlots [3, 1, 2] s.h = true ∧ noSlots [3, 1] s.h = true ∧ noSlots [3] s.h = true ∧
     cleanAt .base s.h [(2, ewBits s.h.ew)] = true) := by decide +kernel

theorem witness_VectorLoads :
    ∀ t ∈ [false, true], let s := memVecs (if t then 0 else 0x10000)
      s.h.arit = [] ∧ s.h.pendingOf .vector = [] ∧ noSlots [3] s.h = true ∧ noSlots [2] s.h = true ∧ cleanAt .base s.h [(2, 32)] = true ∧
      ready (.vld .base 3 1 2 t false) 32 s = true ∧ ready (.vlds .base 3 1 2 2 t false) 32 s = true ∧
      ready (.vldx .base 3 1 2 2 true t false false) 32 s = true ∧
      ∀ a ∈ [0, 4, 8], (readsAs s t (s.h.getX 1 + BitVec.ofNat 64 a) 4).isSome = true := by decide +kernel

/-- Elements at multiples of their size, and at an odd address. -/
theorem witness_VectorStores :
    ∀ t ∈ [false, true], ∀ o ∈ [0, 1], let s := memVecs (BitVec.ofNat 64 ((if t then 0 else 0x10000) + o))
      s.h.arit = [] ∧ noSlots [1] s.h = true ∧ noSlots [2] s.h = true ∧ cleanAt .base s.h [(2, 32)] = true ∧
      ready (.vst .base 1 1 2 t false) 32 s = true ∧ ready (.vsts .base 1 1 2 2 t false) 32 s = true ∧
      ready (.vstx .base 1 1 2 2 true t false false false) 32 s = true ∧ named (.vstu .base 1 1 2 t false) s = true ∧
      (s.h.getX 2).toNat ≤ s.h.grant 8 ∧
      shareWrites ([0, 4].map fun a => (writesOf s t (s.h.getX 1 + BitVec.ofNat 64 a) (leBytes 4 7) false).getD []) = false ∧
      (∀ a ∈ [0, 4, 8], (writesOf s t (s.h.getX 1 + BitVec.ofNat 64 a) (leBytes 4 7) false).isSome = true) ∧
      ∀ e < 8, (writesOf s t (s.h.getX 1 + BitVec.ofNat 64 e) (leBytes 1 ((s.h.getV 1).elt 8 e)) false).isSome = true := by decide +kernel

theorem witness_ScratchpadAccesses :
    (let s := memVecs 0
     s.h.arit = [] ∧ s.h.pendingOf .vector = [] ∧ s.h.early = [] ∧ noSlots [1] s.h = true ∧ noSlots [2] s.h = true ∧ cleanAt .base s.h [(2, 32)] = true ∧
     ready (.vldSp .base 1 1 2) 32 s = true ∧ ready (.vldsSp .base 1 1 2 2) 32 s = true ∧ ready (.vldxSp .base 1 1 2 2) 32 s = true ∧
     ready (.vldpSp .base 1 1 2) 64 s = true ∧ ready (.vstSp .base 1 1 2) 32 s = true ∧ ready (.vstsSp .base 1 1 2 2) 32 s = true ∧
     ready (.vstxSp .base 1 1 2 2) 32 s = true ∧ ready (.vstxSp .base 1 1 2 0) 32 s = true ∧ ready (.vstSp .base 1 1 0) 8 s = true ∧
     ready (.vstpSp .base 1 1 2) 64 s = true ∧
     (let write := fun n a => localWriteOf s (s.spSpace s.h (BitVec.ofNat 64 a)) (BitVec.ofNat 64 a) (leBytes n 7) false
      (∀ x ∈ [(1, [0, 1]), (4, [0, 4]), (8, [0, 8])], shareWrites (x.2.map fun a => (write x.1 a).toList) = false ∧
        ∀ a ∈ x.2, (localAs s (s.spSpace s.h (BitVec.ofNat 64 a)) x.1).isSome = true ∧ (write x.1 a).isSome = true ∧
          (write x.1 a).all (fun w => w.space == .sp s.h.gang) = true))) ∧
    (let s := locals fun h => xs [(1, 3968)] { h with vl := 32 }
     s.h.stbuf = [] ∧ alone s = true ∧ (3 : BitVec 6).toNat < 4 ∧ ready (.vldSp .base 1 1 2) 32 s = true ∧ s.h.arit = [] ∧
     s.h.pendingOf .vector = [] ∧ s.h.early = [] ∧ noSlots [1] s.h = true ∧ s.h.vl = 32 ∧ (s.h.getX 1).toNat % 128 = 0 ∧
     ((s.gangOf s.h.gang).any fun m => cleanLocal m.sp && decide ((s.h.getX 1).toNat + 128 ≤ m.sp.size) && decide (m.sp.size ≤ 2 ^ 20)) = true) := by
  decide +kernel

theorem witness_ScalarAtomics :
    (let s := base [] (xs [(1, 0x10000)])
     alone s = true ∧ (s.h.getX 1).toNat % 8 = 0 ∧ s.h.stbuf = [] ∧ s.h.early = [] ∧ quietAt s.h .sys = true ∧
     mapsStill s (s.h.getX 1).toNat .rmw = some (0x200000, 0) ∧ cleanSector s (s.h.getX 1).toNat 0x200000 0 = true ∧ offTables s 0x200000 8 = true) ∧
    (let s := locals (xs [(1, 4088)])
     alone s = true ∧ (s.h.getX 1).toNat % 8 = 0 ∧ s.h.stbuf = [] ∧ s.h.early = [] ∧ localAs s (s.spSpace s.h (s.h.getX 1)) 8 = some 0) := by decide +kernel

/-- `vamo` on memory and on the scratchpad, an integer one and a sum of f32; `vwait` while its condition holds (all zero), while it does not, and parked. -/
theorem witness_VectorAtomicsAndWaits :
    ∀ sp ∈ [false, true], let s := memVecs (if sp then 0 else 0x10000)
      let i := Instr.vwait .base 1 1 2 false sp .lt
      let at' := fun e => vamoAddr 1 s.h (s.h.getV 2) 4 e
      ready (.vamo .base 1 1 2 false sp (.int .add)) 32 s = true ∧ ready (.vamo .base 1 1 2 false sp .fadd) 32 s = true ∧ ready i 32 s = true ∧
      noSlots [1, 2] s.h = true ∧ cleanAt .base s.h [(1, 32), (2, 32)] = true ∧ s.h.arit = [] ∧ s.h.stbuf = [] ∧ s.h.early = [] ∧ s.h.park = none ∧
      s.h.vl.toNat ≤ 2048 ∧ attrRel .base = false ∧ fdxValue .base s.h = 0 ∧ (fdRM 0 ≤ 1 ∧ fdFA 0 = 0 ∧ fdFB 0 = 0 ∧ fdDst 0 = 0 ∧ fdSub 0 = false) ∧
      shareByte 4 [(at' 0).toNat, (at' 1).toNat] = false := by decide +kernel

theorem witness_VectorAtomicsAndWaits_places :
    (let s := memVecs 0x10000
     let at' := fun e => vamoAddr 1 s.h (s.h.getV 2) 4 e
     ∀ e < 2, mapsStill s (at' e).toNat .rmw = some (0x200000 + 4 * e, 0) ∧ mapsStill s (at' e).toNat .read = some (0x200000 + 4 * e, 0) ∧
      cleanSector s (at' e).toNat (0x200000 + 4 * e) 0 = true ∧ offTables s (0x200000 + 4 * e) 4 = true ∧
      leNat (cellsRead s.mem (0x200000 + 4 * e) 4) < (s.h.getV 1).elt 32 e ∧
      leNat (cellsRead s.mem (0x200000 + 4 * e) 4) ≠ (s.h.getV 1).elt 32 e) ∧
    (let s := memVecs 0
     let at' := fun e => vamoAddr 1 s.h (s.h.getV 2) 4 e
     let write := fun e => localWriteOf s (s.spSpace s.h (at' e)) (at' e) (leBytes 4 (7 + e)) false
     (∀ e < 2, localAs s (s.spSpace s.h (at' e)) 4 = some 0 ∧ (write e).isSome = true) ∧
     ((write 0).all fun x => (write 1).all fun y => !overlaps x y) = true) ∧
    (let i := Instr.vwait .base 1 1 2 false false .lt
     let s := memVecs 0x10000
     let u := { s with h := { s.h with park := some (.wait i 7 none 0) } }
     ((u.hartAt u.h.id).any fun g => g.id == u.h.id && g.park == some (.wait i 7 none 0)) = true) := by decide +kernel

/-- A gang of one or two harts: the last arrival, and one that is not. -/
def barState (n : Nat) (b : Bar) : State :=
  let s := baseG (xs [(1, 1), (2, BitVec.ofNat 64 n)]) fun g => { g with desc := { harts := n }, bars := [{ }, b] }
  s

theorem witness_Barriers :
    (∀ x ∈ [(1, { }), (2, { }), (2, { exp := 2, arr := 1, mask := 2#32 })], let s := barState x.1 x.2
      s.h.live = true ∧ s.h.gh < 32 ∧ s.h.park = none ∧ s.cv.active = false ∧ s.h.stbuf = [] ∧ quietAt s.h .core = true ∧
      ((s.gangOf s.h.gang).any fun g => decide ((s.h.getX 1).toNat < g.bars.length) && decide (1 ≤ x.1) && decide (x.1 < 64) &&
        decide (x.1 ≤ g.desc.harts) && g.bars[1]? == some x.2 && !g.gbar.mask.getLsbD s.h.gh) = true ∧
      (x.2.exp = 0 ∨ x.2.exp = x.1) ∧ x.2.mask.getLsbD s.h.gh = false) ∧
    (let s := barState 1 { phase := 1 }
     alone s = true ∧ ((s.gangOf s.h.gang).any fun g => g.bars[1]?.any fun b => b.phase == (s.h.getX 2).setWidth 32) = true ∧
     ((s.gangOf s.h.gang).any fun g => g.bars[1]?.any fun b => b.phase != (s.h.getX 0).setWidth 32) = true ∧ s.h.getX 1 ≠ BitVec.allOnes 64) ∧
    (let s := barState 2 { }
     s.cv.active = false ∧ ((s.gangOf s.h.gang).any fun g => decide (g.bars.length ≤ (s.h.getX 2).toNat)) = true ∧ s.h.getX 2 ≠ BitVec.allOnes 64) := by
  decide +kernel

/-- A pattern of four f32 from 0x10100 on, and one of two fibres. -/
def patDense : List Byte := leBytes 8 0x10100 ++ leBytes 8 0x1000 ++ leBytes 8 4 ++ leBytes 8 4 ++ List.replicate 144 0
def patFibre : List Byte :=
  leBytes 8 0x10100 ++ leBytes 8 0x8000 ++ leBytes 8 2 ++ leBytes 8 0x10200 ++ leBytes 8 0x10300 ++ List.replicate 136 0

/-- A pattern, bound or not. -/
def streamState (r : List Byte) (b : Option Binding) : State := base r fun h => xs [(1, 0x10000), (2, 4)] { h.setQ 1 b with vl := 2 }

theorem witness_StreamBindings :
    (∀ r ∈ [patDense, patFibre], let s := streamState r none
      (s.h.getX 1).toNat % 16 = 0 ∧ recordAs s false (s.h.getX 1) 176 = some r ∧ (parsePattern r).isSome = true ∧ s.h.arit = [] ∧ s.h.stbuf = [] ∧
      s.h.slotOf 3 = none ∧ named (.sbind .base 1 1 3 false) s = true ∧ named (.sbindF .base 1 1 false) s = true) ∧
    ((parsePattern patDense).any fun p => !p.fibre) = true ∧
    (let s := streamState [] (some { record := patDense })
     named (.sstop .base 1) s = true ∧ named (.sopPos .base 3 1) s = true ∧ named (.sopRem .base 3 1) s = true ∧ named (.sopSkip .base 1 2) s = true ∧
     ((s.h.getQ 1).any fun b => decide (b.pos + (s.h.getX 2).toNat ≤ b.pattern.count)) = true) ∧
    (let s := streamState [] none
     s.h.getQ 1 = none ∧ named (.sopSkip .base 1 2) s = true ∧ s.cv.active = false) ∧
    (∀ c ∈ [none, some ({ record := patDense, pos := 4, slot := some 3 } : Binding)], let s := streamState (streamImage c) none
      let va := BitVec.ofNat 64 ((s.h.getX 1).toNat / 256 * 256)
      recordAs s false va 256 = some (streamImage c) ∧ s.h.arit = [] ∧ s.h.stbuf = [] ∧ named (.srest .base 1 1 false) s = true ∧
      s.h.slotOf 3 = none ∧ (c.all fun b => b.record.length == 176 && decide (b.pos ≤ b.pattern.count)) = true ∧
      named (.ssave .base 1 1 false) s = true ∧
      ∀ j < 4, mapsStill s (va.toNat + 64 * j) .write = some (0x200000 + 64 * j, 0) ∧ cleanSector s (va.toNat + 64 * j) (0x200000 + 64 * j) 0 = true ∧
        offTables s (0x200000 + 64 * j) 64 = true) ∧
    (let s := memVecs 256
     let va := BitVec.ofNat 64 ((s.h.getX 1).toNat / 256 * 256)
     s.h.tcmSpace va = (.tcm s.h.gang, 256) ∧ ((s.gangOf s.h.gang).any fun m => decide (256 % ceilPow2 m.tcm.size + 256 ≤ m.tcm.size)) = true ∧
     s.h.arit = [] ∧ s.h.stbuf = [] ∧ named (.ssave .base 1 1 true) s = true) := by
  decide +kernel

theorem witness_StreamElements :
    (let b : Binding := { record := patDense, pos := 2, held := [(2, .elem 5 false), (3, .elem 6 true)] }
     let s := streamState [] (some b)
     s.h.getQ 1 = some b ∧ b.pattern.fibre = false ∧ fmtWidth b.pattern.out = ewBits s.h.ew ∧ ready (.sopPop .base 3 1) (ewBits s.h.ew) s = true ∧
     b.pos + s.h.vl.toNat ≤ b.pattern.count ∧ noSlots [3] s.h = true ∧
     ∀ e < s.h.vl.toNat, b.held.find? (·.1 == b.pos + e) = some (b.pos + e, .elem (5 + e) (e == 1))) ∧
    (let b : Binding := { record := patDense, pos := 3 }
     let s := streamState [] (some b)
     s.h.getQ 1 = some b ∧ ready (.sopPop .base 3 1) (ewBits s.h.ew) s = true ∧ b.pattern.count < b.pos + s.h.vl.toNat ∧ s.cv.active = false) ∧
    (let b : Binding := { record := patDense }
     let s := streamState [] (some b)
     s.h.live = true ∧ s.h.getQ 1 = some b ∧ b.prv = s.h.status.prv ∧ b.pattern.fibre = false ∧ b.pattern.space = 0 ∧ b.pattern.steps = [] ∧
     b.next = some 0 ∧ readsAs s false (b.pattern.addr 0) 4 = some 0) ∧
    ((parsePattern patDense).any fun p => !p.fibre && p.dims.length == 1 && decide (3 < p.count)) = true := by decide +kernel

/-- A fibre of two pairs in memory at 0x10000: they fit, and with a limit of one they do not. -/
def fibreImage : List Byte := leBytes 8 2 ++ leBytes 4 3 ++ leBytes 4 5 ++ leBytes 4 7 ++ leBytes 4 9

theorem witness_FibreLoads :
    (∀ c ∈ [0, 1], let s := base fibreImage (xs [(1, 0x10000), (2, BitVec.ofNat 64 c)])
      named (.fld .base 1 1 2 false false) s = true ∧ startsAfresh s = true ∧ s.h.arit = [] ∧ s.h.pendingOf .vector = [] ∧
      readsAs s false 0x10000 4 = some 2 ∧ ∀ j < 2, readsAs s false (BitVec.ofNat 64 (0x10008 + 8 * j)) 4 = some (3 + 4 * j) ∧
        readsAs s false (BitVec.ofNat 64 (0x1000C + 8 * j)) 4 = some (5 + 4 * j)) ∧
    (let b : Binding := { record := patFibre, held := [(0, .fibre 0 [⟨3, 5, false, false⟩] false none)] }
     let s := streamState [] (some b)
     named (.fldQ .base 1 1 3 false) s = true ∧ startsAfresh s = true ∧ s.h.getQ 1 = some b ∧ b.pattern.fibre = true ∧
     fmtWidth b.pattern.out ≤ 32 ∧ b.pos < b.pattern.count ∧ b.held.find? (·.1 == b.pos) = some (b.pos, .fibre 0 [⟨3, 5, false, false⟩] false none) ∧
     1 ≤ s.h.cap ∧ ((3 : Word) ≠ BitVec.allOnes 32)) := by decide +kernel

/-- Two sorted fibres that share a coordinate, in f32 (f0), and a row of a sparse matrix. -/
def fibres (f : Hart → Hart) : State := base [] fun h =>
  f { ((h.setF 1 [⟨1, 0x3F800000, false, false⟩, ⟨5, 0x40000000, false, false⟩]).setF 2 [⟨5, 0x40400000, false, false⟩]) with vl := 2 }

theorem witness_FibreStoresAndCounts :
    let s := fibres (xs [(1, 0x10000)])
    (named (.fst .base 1 1 false false) s = true ∧ s.h.arit = [] ∧ (writeOf s false 0x10000 (leBytes 4 2) false).isSome = true ∧
      ∀ j < 2, (writeOf s false (BitVec.ofNat 64 (0x10008 + 8 * j)) (leBytes 4 1 ++ leBytes 4 2) false).isSome = true) ∧
    named (.fcount .base 3 1 false) s = true ∧ (s.h.getF 1).length < 2 ^ 63 ∧ named (.fclear .base 1 false) s = true := by decide +kernel

theorem witness_SetOperations :
    let s := fibres id
    startsAfresh s = true ∧ sortedPairs (s.h.getF 1) = true ∧ sortedPairs (s.h.getF 2) = true ∧
    ((s.h.getF 1 ++ s.h.getF 2).all fun x => !x.cp && !x.vp) = true ∧ 3 ≤ s.h.cap ∧
    (isectFd .mul 0 = true ∧ named (.fisect .base 3 1 2 0 .mul false) s = true) ∧
    (unionFd 0 = true ∧ named (.funion .base 3 1 2 0 .add false) s = true) ∧ named (.fmerge .base 3 1 2 false) s = true := by decide +kernel

theorem witness_FibreReordering :
    let s := fibres id
    fdValue .base 0 s.h = 0 ∧ fibreFd { fa := some fibreV, dst := some fibreV } 0 [0, 0] = true ∧ ((s.h.getF 1).all fun x => !x.cp && !x.vp) = true ∧
    named (.fsort .base 3 1 0 .add false) s = true ∧ named (.fcompact .base 3 1 0 false) s = true := by decide +kernel

/-- Positions 0 and 1, whose children lie at 0 to 0 and at 1: coordinates 4 and 6. -/
def walkImage : List Byte :=
  leBytes 8 0x10040 ++ leBytes 8 0x10080 ++ leBytes 8 0x100C0 ++ leBytes 8 2 ++ List.replicate 32 0 ++
  leBytes 4 0 ++ leBytes 4 1 ++ leBytes 4 2 ++ List.replicate 52 0 ++ leBytes 4 4 ++ leBytes 4 6

theorem witness_FibreConversions :
    (let s := fibres fun h => (xs [(9, 0x26 + 0 * 64)] h).setV 1 (v32 [4, 6])
     (fibreFd { fa := some fibreV, dst := some denseV } 0 [0, 0] = true ∧ noSlots [3] s.h = true ∧ ((s.h.getF 1).all fun x => !x.cp && !x.vp) = true ∧
       ready (.fexpandV .base 3 1 0 false) 32 s = true ∧ ready (.fexpandD .base 3 1 0 false) 32 s = true ∧
       ready (.fexpandC .base 3 1 false) 32 s = true) ∧
     (fibreFd { fa := some (· == 0x26), fb := some denseV, dst := some fibreV } (fdValue .base 1 s.h) [fdFB (fdValue .base 1 s.h), 0] = true ∧
       noSlots [1, 2] s.h = true ∧ ready (.fpack .base 3 1 2 1 false) 32 s = true ∧
       ∀ e < 2, (s.h.getV 1).eltPsn 32 e = false ∧ (s.h.getV 2).eltPsn 32 e = false ∧ (s.h.getV 1).elt 32 e ≠ 2 ^ 32 - 1) ∧
     (fibreFd { fa := some denseV, dst := some fibreV } 0 [0, 0] = true ∧ noSlots [1] s.h = true ∧ ready (.fpackD .base 3 1 0 false) 32 s = true)) ∧
    (let s := base walkImage fun h => xs [(1, 0x10000)] (h.setF 1 [⟨0, 0, false, false⟩, ⟨0, 1, false, false⟩])
     named (.fwalk .base 3 1 1 false false) s = true ∧ startsAfresh s = true ∧ s.h.arit = [] ∧ s.h.pendingOf .vector = [] ∧
     (∀ j < 4, (readsAs s false (BitVec.ofNat 64 (0x10000 + 8 * j)) 8).isSome = true) ∧
     recordAs s false 0x10000 32 = some (walkImage.take 32) ∧ (recWord walkImage 24) / 2 ^ 38 = 0 ∧ 2 ≤ s.h.cap ∧
     ∀ p < 2, p < recWord walkImage 24 % 2 ^ 32 ∧ readsAs s false (BitVec.ofNat 64 (0x10040 + 4 * p)) 4 = some p ∧
       readsAs s false (BitVec.ofNat 64 (0x10040 + 4 * (p + 1))) 4 = some (p + 1) ∧
       readsAs s false (BitVec.ofNat 64 (0x10080 + 4 * p)) 4 = some (4 + 2 * p)) := by decide +kernel

/-- A gang that holds the matrix engine, with slots changed. -/
def matState (bs : List Byte) (f : Hart → Hart) (g : Mat → Mat) : State :=
  (base bs f).mapGang 1 fun x => { x with desc := { mat := true }, mat := g x.mat }

/-- The descriptor of tap8 in each place. -/
def tap8 : DWord := 8 * 0x1041

theorem witness_TilesAndSlots :
    let s := matState [] (xs [(8, tap8), (1, 3 * 65536)]) id
    let regs := (List.range 8).map fun j => BitVec.ofNat 5 (8 + j)
    alone s = true ∧ fresh (.mldb .base 1 0 0) s = true ∧ fdOk { fb := some matFmt, kdep := true, noBlock := true } (fdValue .base 0 s.h) = true ∧
    noSlots regs s.h = true ∧ (regs.all fun r => !s.h.deadBit (vBit r)) = true ∧ fdOk { fa := some matFmt, noBlock := true } (s.h.getX 8) = true ∧
    ((s.gangOf s.h.gang).any fun g => g.desc.mat && (g.mat.slot g.mat.head).st == .free && (g.mat.slot 5).st == .free &&
      decide (((g.mat.slot 5).row (g.cols 8) 3).mmas < 65536)) = true := by decide +kernel

theorem witness_MatrixMultiplies :
    let s := matState [] (fun h => xs [(8, tap8)] { h with vl := 2 }) id
    let fd := fdValue .base 0 s.h
    named (.mma .base 5 1 0) s = true ∧ named (.mmaS24 .base 5 1 2 0) s = true ∧ named (.mmaX .base 5 1 2 0) s = true ∧ noSlots [1, 2] s.h = true ∧
    noSlots [1] s.h = true ∧ fdOk { fa := some matFmt, fb := some matFmt, dst := some matFmt, kdep := true, noBlock := true } fd = true ∧
    fdFA fd = 8 ∧ fdFB fd = 8 ∧ fdDst fd = 8 ∧ e5Of .base = 0 ∧ named (.mpeek .base 3 1 2) s = true ∧
    fdOk { dst := some isFloating, rounds := true } 0 = true ∧ fdSub 0 = false ∧
    ((s.gangOf s.h.gang).any fun g => g.desc.mat && (g.mat.slot g.mat.head).st == .free && (g.mat.slot g.mat.head).kind == 8 && g.mat.fmt == 8 &&
      g.mat.k == 128 / 2 ^ fdKdep fd && g.mat.tilePsn == 0 && g.mat.scalePsn == 0 &&
      decide (((g.mat.slot 1).row (g.cols 8) 0).elts.length ≤ 128) &&
      [MmaForm.plain, .s24 2, .indexed 2].all fun k => (mmaTerms s.h g.rb 128 8 0 1 k).2.all fun t => !t.p) = true := by decide +kernel

/-- A record of one row of two elements at 0x10100: f32, or tap8 to load. -/
def epiRow (fd : Nat) : List Byte :=
  leBytes 8 0x10100 ++ leBytes 8 64 ++ leBytes 8 4 ++ List.replicate 24 0 ++ leBytes 8 fd ++ leBytes 8 0x10200

theorem witness_EpilogueCommands :
    (let s := matState (epiRow 0) (xs [(1, 0x10000)]) id
     let r := epiRec (epiRow 0)
     alone s = true ∧ (s.h.getX 1).toNat % 64 = 0 ∧ recordAs s false (s.h.getX 1) 64 = some (epiRow 0) ∧ r.ben = false ∧ s.h.arit = [] ∧
     s.h.stbuf = [] ∧ (r.cells.all fun x => (mapsStill s x.2.2.toNat .write).isSome && decide (x.2.2.toNat % 64 + 4 ≤ 64)) = true ∧
     isTb8 (fdDst r.ofd) = false ∧ ((s.gangOf s.h.gang).any fun g => decide (g.mat.queue.length < 8) && r.ok false (g.cols 8)) = true) ∧
    (let s := matState (epiRow 8) (xs [(1, 0x10000)]) id
     let r := epiRec (epiRow 8)
     alone s = true ∧ recordAs s false (s.h.getX 1) 64 = some (epiRow 8) ∧ s.h.arit = [] ∧ s.h.stbuf = [] ∧ r.nrow ≤ matRows 8 ∧
     (∀ i < r.nrow, ∀ j < r.ncol, readsAs s false (r.addr i j) 1 = some 0) ∧
     ((s.gangOf s.h.gang).any fun g => r.ok true (g.cols 8) && (g.mat.slot g.mat.head).st == .free &&
       (List.range r.nrow).all fun i => ((g.mat.slot g.mat.head).row (g.cols 8) ((r.row0 + i) % 128)).elts.length == g.cols 8) = true) := by
  decide +kernel

/-- A command of that record that waits for slot 0 in this state. -/
def drainState (st : SlotSt) : State :=
  matState [] id fun m => { (m.setSlot 0 { m.slot 0 with st := st }) with
    queue := [{ n := 0, gh := 0, asn := 1, prv := false, seed := 0, base := 0, record := epiRow 0, bias := [] }] }

theorem witness_EpilogueDrains :
    (∀ st ∈ [SlotSt.sealed, .draining], let s := drainState st
      ((s.matGang 0).any fun g => (s.gangOf g.key).isSome && (g.mat.slot g.mat.tail).st == st && g.mat.queue.length == 1 && g.key == s.h.gang &&
        g.mat.queue.all fun c => c.gh == s.h.gh && c.asn == s.h.asn && c.prv == s.h.status.prv) = true ∧
      s.h.live = true ∧ s.h.id.core = 0 ∧ s.h.engineMay (.epilogue 0) = true ∧ (s.gangs.all fun g => g.fate == .runs) = true) ∧
    (let s := drainState .sealed
     ∀ j < 2, mapsStill s (0x10100 + 4 * j) .write = some (0x200100 + 4 * j, 0) ∧ cleanSector s (0x10100 + 4 * j) (0x200100 + 4 * j) 0 = true) ∧
    ((drainState .sealed).matGang 0).all (fun g => ((List.range 1).flatMap (drainRow (g.mat.queue.headD ⟨0, 0, 0, false, 0, 0, [], []⟩)
      (g.mat.slot 0) (g.cols 8))).map (fun w => (w.1, w.2.1.length)) == [(0x10100, 4), (0x10104, 4)]) = true ∧
    [(0x200100, 4), (0x200104, 4)].Pairwise (fun v w => v.1 + v.2 ≤ w.1 ∨ w.1 + w.2 ≤ v.1) := by decide +kernel

/-- A row with a plain element, one that is not-a-real and an overflow of either sign; a record without a bias for each activation. -/
theorem witness_EpilogueDrains_values :
    let x : MSlot := { rows := [(0, { elts := [{ v := 5 }, { nar := true }, { ovf := some true }, { ovf := some false }] })] }
    let elt := fun n => (x.row 4 0).elts.getD n { }
    ((elt 0).nar = false ∧ (elt 0).ovf = none ∧ (elt 1).nar = true ∧ (elt 2).nar = false ∧ (elt 2).ovf = some true ∧ (elt 3).ovf = some false) ∧
    (∀ a ∈ [0, 1, 2, 3], let r := (epiRow 0).take 60 ++ [BitVec.ofNat 8 a] ++ (epiRow 0).drop 61
      let word := fun k => leNat ((r.drop (8 * k)).take 8)
      word 7 / 2 ^ 32 % 8 = a ∧ (word 7).testBit 35 = false ∧ (word 7 / 2 ^ 24 % 128) % matRows x.kind = 0 ∧ isTb8 (fdDst (epiRec r).ofd) = false) ∧
    isTb8 (fdDst (epiRec (epiRow 0xB000)).ofd) = true := by decide +kernel

/-- A move of two words from 0x10100 to 0x10200. -/
def shape2 : List Byte :=
  leBytes 8 0x10100 ++ leBytes 8 0x10200 ++ leBytes 8 0x80200000 ++ List.replicate 24 0 ++ leBytes 8 2 ++ leBytes 8 4 ++ leBytes 8 4 ++
  List.replicate 184 0

def copyState (c : CopyCmd) : State := base shape2 fun h => { h with copies := [{ c with handle := 1, record := shape2 }] }

theorem witness_CopyCommands :
    (let s := base shape2 (xs [(1, 0x10000)])
     alone s = true ∧ (s.h.getX 1).toNat % 64 = 0 ∧ recordAs s false (s.h.getX 1) 256 = some shape2 ∧ (parseShape shape2).isSome = true ∧
     s.h.arit = [] ∧ s.h.stbuf = []) ∧
    (∀ st ∈ [CopySt.queued, .running], let s := copyState { handle := 1, st := st }
      s.h.live = true ∧ s.h.engineMay (.copy 1) = true ∧ s.changed = [] ∧ ((s.h.copies.find? (·.handle == 1)).any fun c => c.st == st && c.code == 0 && c.prv == s.h.status.prv &&
        (s.copyJob s.h c).any fun j => (j.failures s).1.all (fun x => x.1 != 0) && !j.p.conv && j.p.sspc == 0 && j.p.dspc == 0 &&
          !j.overlaps s && !c.bad && !differs c.src (j.look s) && 2 ^ j.p.esz == 4 && !shareByte 4 (j.p.elems.map (·.da.toNat)) &&
          j.p.elems.map (fun e => (e.sa, e.da)) == [(0x10100, 0x10200), (0x10104, 0x10204)]) = true ∧
      (∀ j < 2, (readsAs s false (BitVec.ofNat 64 (0x10100 + 4 * j)) 4).isSome = true ∧
        mapsStill s (0x10200 + 4 * j) .write = some (0x200200 + 4 * j, 0) ∧ cleanSector s (0x10200 + 4 * j) (0x200200 + 4 * j) 0 = true) ∧
      offTables s 0x200200 8 = true) ∧
    (let s := copyState { handle := 1, st := .running, bad := true }
     let u := { s with changed := [(.glob, 0x200100)] }
     s.h.engineMay (.copy 1) = true ∧ ((s.h.copies.find? (·.handle == 1)).any fun c => c.bad && c.code == 0 && (s.copyJob s.h c).any fun j =>
       (j.failures s).1.isEmpty && j.p.dspc == 0 && (j.sourceLocs u).any u.changed.contains) = true) ∧
    ((copyState { handle := 1, st := .running, code := 0x81 }).h.copies.any fun c => c.st == .running && c.code != 0) = true := by decide +kernel

theorem witness_CopyWaits :
    (let s := base [] (xs [(1, 5)])
     s.cv.active = false ∧ (s.h.copies.filter fun c => decide (c.handle ≤ (s.h.getX 1).toNat)) = []) ∧
    (∀ st ∈ [CopySt.queued, .running, .faulted, .reported], let s := base [] fun h => xs [(1, 1)] { h with copies := [{ handle := 1, st := st, code := 0x81 }] }
      s.cv.active = false ∧ (s.h.copies.filter fun c => decide (c.handle ≤ (s.h.getX 1).toNat)) ≠ [] ∧
      (s.h.copies.all fun c => c.st == st && decide (c.code < 2 ^ 14)) = true) := by decide +kernel

/-- A launch record at 0x10000 of a task of one gang of one hart, whose descriptor lies at 0x10080. -/
def launchImage (entry : Nat) : List Byte :=
  leBytes 8 0x10080 ++ List.replicate 120 0 ++ leBytes 8 entry ++ leBytes 8 (2 ^ 32 + 2 ^ 20) ++ List.replicate 48 0

theorem witness_Launches :
    (∀ e ∈ [0x10000, 0x10001], let s := base (launchImage e) (xs [(1, 0x10000)])
      s.cv.active = false ∧ (s.h.getX 1).toNat % 64 = 0 ∧ recordAs s false (s.h.getX 1) 128 = some ((launchImage e).take 128) ∧
      recordAs s false 0x10080 64 = some ((launchImage e).drop 128) ∧ s.h.arit = [] ∧ s.h.copies = [] ∧ s.h.stbuf = [] ∧ s.h.park = none ∧
      ((s.gangOf s.h.gang).any fun g => (s.node g.node).any fun n => decide (n.depth < 7)) = true ∧
      launchCode ((launchImage e).take 128) ((launchImage e).drop 128) = (if e % 4 = 0 then 0 else 2) ∧
      ((parseLaunch ((launchImage e).take 128)).any fun p => p.preds.all (· == 0) && !p.copy) = true ∧
      (s.nodes.all fun m => m.st != .finished) = true ∧ s.shared.fresh < s.shared.last ∧ (s.nodes.all fun m => m.id != 8193) = true) ∧
    (let l := (launchImage 0x10000).take 128
     let r := (launchImage 0x10000).drop 128
     let s := base [] fun h => xs [(1, 0x10000)] { h with park := some (.entry (.launch .base 3 1) l r) }
     (s.h.getX 1).toNat % 64 = 0 ∧ s.h.stbuf = [] ∧ s.h.park = some (.entry (.launch .base 3 1) l r) ∧ s.cv.active = false) ∧
    (let s := { base (launchImage 0x10000) (xs [(1, 0x10000)]) with shared := { fresh := 7168, last := 7168 }, reserve := [] }
     s.takeEntry 1 = none) ∧
    (let s := (base [] id).mapNode 8192 fun n => { n with depth := 7 }
     ((s.gangOf s.h.gang).any fun g => (s.node g.node).any fun n => decide (7 ≤ n.depth)) = true) := by decide +kernel

/-- A launch that names node 8194: waiting with no successor or with 16, or failed and no longer remembered as a node. -/
theorem witness_Launches_predecessors :
    let l := ((launchImage 0x10000).take 32) ++ leBytes 8 8194 ++ ((launchImage 0x10000).drop 40).take 88
    let r := (launchImage 0x10000).drop 128
    let s := fun (m : List Node) (e : List Entry) =>
      let s := base (l ++ r) (xs [(1, 0x10000)])
      { s with nodes := s.nodes ++ m, entries := e }
    let ok := fun (s : State) => s.cv.active = false ∧ s.h.stbuf = [] ∧ s.h.park = none ∧ s.h.arit = [] ∧ recordAs s false (s.h.getX 1) 128 = some l ∧
      recordAs s false 0x10080 64 = some r ∧ launchCode l r = 0 ∧ ((parseLaunch l).any fun p => p.preds.filter (· != 0) == [8194]) = true ∧
      (s.nodes.all fun m => m.st != .finished && m.id != 8193) = true ∧ s.shared.fresh = 1 ∧ s.shared.fresh < s.shared.last
    (let s := s [{ id := 8194, st := .waiting, succs := List.replicate 16 1 }] []
     ok s ∧ ((s.node 8194).any fun m => decide (16 ≤ m.succs.length)) = true) ∧
    (let s := s [{ id := 8194, st := .waiting }] []
     ok s ∧ ((s.node 8194).any fun m => decide (m.succs.length < 16)) = true) ∧
    (let s := s [] [{ idx := 2, gen := 1, outcome := some .failed }]
     ok s ∧ s.node 8194 = none ∧ s.outcomeOf 8194 = some .failed) := by decide +kernel

/-- The page is cached for the fabric engine too. -/
def fabBase (bs : List Byte) (f : Hart → Hart) (g : Fabric → Fabric) : State :=
  let s := base bs f
  { s with tlb := s.tlb ++ s.tlb.map fun e => { e with core := 128 }, fab := g s.fab }

/-- The task 8192 of the hart in focus, with a node that it launched. -/
def withNode (n : Node) (f : Hart → Hart) : State :=
  let s := base [] f
  { s with nodes := s.nodes ++ [n] }

theorem witness_EdgesWaitsAndExits :
    (let s := withNode { id := 8193, st := .held, parent := 8192 } (xs [(1, 8193), (2, 8192), (3, 99)])
     alone s = true ∧ ((s.node (s.h.getX 1).toNat).any fun n => n.st == .held && n.parent == s.taskOf s.h) = true ∧
     ((s.node (s.h.getX 2).toNat).any fun q => q.st != .finished && decide (q.succs.length < 16) && q.st != .held) = true ∧ (s.h.getX 2).toNat ≠ 0 ∧
     s.node (s.h.getX 3).toNat = none ∧ (s.entries.all fun e => e.idx != (s.h.getX 3).toNat % 8192) = true) ∧
    (let s := (withNode { id := 8193, st := .held, parent := 8192 } (xs [(1, 8193), (2, 8192)])).mapNode 8192 fun n =>
       { n with succs := List.replicate 16 1 }
     ((s.node (s.h.getX 2).toNat).any fun q => q.st != .finished && decide (16 ≤ q.succs.length)) = true) ∧
    (let s := withNode { id := 8193, st := .finished } (xs [(1, 8193)])
     ((s.node (s.h.getX 1).toNat).any fun n => n.st == .finished) = true ∧ (s.harts.all fun h => h.awaits != some 8193) = true) ∧
    (let s := base [] id
     let t := { s with harts := [{ s.h with id := ⟨0, 0, 1⟩, gh := 1 }] }
     (∀ u ∈ [s, t], ((u.gangOf u.h.gang).any fun g => (u.node g.node).isSome && g.mat.queue.isEmpty) = true ∧ alone u = true ∧ u.h.live = true ∧
       u.h.stbuf = [] ∧ (u.gangs.all fun k => k.fate == .runs) = true ∧ (u.gangs.map (·.key)).Nodup ∧ u.h.copies = [] ∧ u.h.sv ≠ .saved ∧
       u.h.status.prv = false) ∧
     (s.harts.all fun k => k.gang != s.h.gang) = true ∧ ((s.node 8192).any fun n => n.unended == 1 && n.task && n.st == .running) = true ∧ (s.nodes.map (·.id % 8192)).Nodup ∧
     (t.harts.any fun k => k.live && k.gang == t.h.gang && k.id != t.h.id) = true) ∧
    (let s := base [] fun h => { h with sv := .lent, status := { prv := true } }
     alone s = true ∧ s.h.sv = .lent ∧ s.h.status.prv = true ∧ (s.h.getX 0).getLsbD 1 = false) := by decide +kernel

/-- A task that ends: its launcher runs, a node it launched is held, another waits for it, and its completion record lies at 0x10040. -/
theorem witness_EdgesWaitsAndExits_finish :
    let s := fabBase [] id id
    let s : State := { s with
      nodes := [{ id := 8192, st := .running, asn := 1, unended := 1, launcher := some (9, 3), crec := 0x10040, succs := [8194] },
                { id := 8193, st := .held, parent := 8192 }, { id := 8194, st := .waiting, count := 1 }],
      harts := [{ live := true, id := ⟨0, 1, 0⟩, gang := 9, gh := 3 }] }
    let v := byDevice s 1
    ((s.gangOf s.h.gang).any fun g => g.node == 8192 && g.mat.queue.isEmpty) = true ∧ alone s = true ∧ s.h.live = true ∧ s.h.stbuf = [] ∧
    (s.gangs.all fun k => k.fate == .runs) = true ∧ (s.gangs.map (·.key)).Nodup ∧ s.h.copies = [] ∧ (s.harts.all fun k => k.gang != s.h.gang) = true ∧
    (s.nodes.map (·.id % 8192)).Nodup ∧ ((s.node 8192).any fun n => n.succs.count 8194 == 1 && n.launcher == some (9, 3)) = true ∧
    ((s.node 8193).any fun c => c.st == .held && c.parent == 8192) = true ∧ ((s.node 8194).any fun q => q.st == .waiting && q.parent != 8192) = true ∧
    mapsStill v 0x10040 .write = some (0x200040, 0) ∧ cleanSector v 0x10040 0x200040 0 = true := by decide +kernel

/-- A ready task of one gang of one hart, at a priority. -/
def readyNode (p : Nat) : Node :=
  { id := 8193, st := .ready, prio := p, asn := 1, toStart := [0], unended := 1, desc := { tcmb := 100 }, queue := some 0 }

/-- Every partition held by a gang of low priority that began long ago. -/
def fullState : State :=
  let s := base [] id
  let gs := (List.range 128).map fun c => ({ key := 10 + c, asn := 1, core := c, parts := List.range 8, node := 8200 + c } : Gang)
  { s with gangs := gs, nodes := readyNode 0 :: (List.range 128).map (fun c => ({ id := 8200 + c, st := .running, prio := 3, unended := 1 } : Node)),
           tstamp := 1000000000 }

theorem witness_LaunchEngine :
    (let s := { base [] id with nodes := [readyNode 0] }
     ((s.mayStart 8193 0 1 (maskParts 1)).any fun x => x.1 == readyNode 0) = true ∧ s.isSaved 8193 0 = false ∧
     s.mayStart 8193 0 0 (maskParts 1) = none ∧ s.mayStart 99 0 0 (maskParts 1) = none ∧
     s.firm.st = 3 ∧ s.firm.pst ≤ 1 ∧ s.firm.ask = none ∧ (∀ m ∈ s.nodes, m = readyNode 0) ∧ s.stoppedAs 1 = false ∧ s.launchHeld (readyNode 0) = false ∧
     (∀ p ∈ maskParts 1, p < 8 ∧ s.partQuar.contains (1, p) = false ∧ s.man.off.contains (1, p) = false ∧
       (s.gangs.all fun g => g.core != 1 || !g.parts.contains p) = true) ∧
     1 ≤ s.weightOf ((readyNode 0).queue.getD 0) ∧ (s.rota.cur.all fun c => decide (c.2 < 64)) = true) ∧
    (let n : Node := { id := 8193, task := false, st := .ready, asn := 1, shape := shape2 }
     let s := withNode n id
     s.node 8193 = some n ∧ s.stoppedAs n.asn = false ∧ s.launchHeld n = false ∧ s.powered = true ∧
     (n.copyJob.any fun j => (j.finish false (s.withGhost n)).1 == some none) = true) ∧
    (let n : Node := { id := 8193, task := false, st := .ready, asn := 1, shape := leBytes 8 (2 ^ 56) ++ shape2.drop 8, succs := [8194] }
     let s := withNode n id
     let s : State := { s with nodes := s.nodes ++ [{ id := 8194, st := .waiting, count := 1 }] }
     s.node 8193 = some n ∧ s.stoppedAs n.asn = false ∧ s.launchHeld n = false ∧ s.powered = true ∧ n.nabn = 0 ∧ n.exit = 0 ∧ (s.nodes.map (·.id % 8192)).Nodup ∧
     (n.copyJob.any fun j => match (j.finish false (s.withGhost n)).1 with | some (some _) => true | _ => false) = true) ∧
    (let s := fullState
     let n := readyNode 0
     s.node 8193 = some n ∧ s.startable n = true ∧ s.powered = true ∧ s.placeable n.desc [] = false ∧ n.req = none ∧
     (s.gangs.all fun g => g.fate == .runs) = true ∧ (s.candidates n).isEmpty = false) := by
  decide +kernel

theorem witness_LaunchEngine_saves :
    (let s := base [] id
     let u := { s with saves := [{ team := { node := 8192, core := 0 }, deadline := 5, waiter := 0, order := [s.h.id] }] }
     ((u.saves.find? (·.team.core == u.h.id.core)).any fun op => op.order == [u.h.id] &&
       op.order.all fun i => (u.teamHarts op.team).any fun h => h.id == i) = true ∧ u.h.live = true ∧
     (u.allHarts.all fun h => h.sv != .asked && h.sv != .lent) = true) ∧
    (let i := Instr.texitSv .base 3 0 0
     let s := base [] fun h => { h with sv := .lent, status := { prv := true }, park := some (.wait i 0xE none 0) }
     s.h.live = true ∧ s.h.park = some (.wait i 0xE none 0) ∧ s.h.sv = .lent ∧ (s.h.getX 0).getLsbD 0 = false ∧
     ((s.node (s.taskOf s.h)).any fun n => (s.drainTo n s.h.id.core (n.hartArea (s.gangidOf s.h) s.h.gh) (drainSlots (s.h.getX 0) (s.h.getX 0))).1 == .done) = true) ∧
    (let n := { readyNode 0 with save := 0x10000 }
     let g : Gang := { key := 7, asn := 1, node := 8193, parts := [0] }
     let s := { base [] id with nodes := [n], saved := [{ gang := g, harts := [{ gang := 7, asn := 1 }], blocks := [] }] }
     (s.mayStart 8193 0 1 (maskParts 1)).isSome = true ∧
     ((s.saved.find? fun g => g.gang.node == 8193 && g.gang.gidx == 0).any fun sg => (s.readBlocks n 1 sg.blocks).1 == .same) = true) := by decide +kernel

/-- A receive buffer at 0x10000 with one slot of 128 bytes at 0x10080, after `head` and `tail` messages. -/
def rxImage (head tail : Nat) : List Byte :=
  leBytes 8 0x10080 ++ leBytes 8 0x10007 ++ leBytes 8 head ++ leBytes 8 tail ++ List.replicate 32 0

theorem witness_MessageInstructions :
    (let s := base [] fun h => xs [(1, 0x10000)] (h.setF 1 [⟨3, 5, false, false⟩])
     named (.dsend .base 1 0 1) s = true ∧ (s.h.getX 0).toNat / 2 ^ 12 % 2 ^ 20 = 0 ∧ 0 < s.man.ex ∧ 0 < s.man.ey ∧ 0 < s.man.ez ∧
     (s.h.getX 1).toNat % 64 = 0 ∧ (s.h.getX 1).toNat < 2 ^ 57 ∧ ((s.h.getF 1).all fun p => !p.cp) = true ∧ s.fab.sendq.length = 0) ∧
    (let s := base [] (xs [(1, 1)])
     named (.dsend .base 1 1 0) s = true ∧ s.cv.active = false ∧ ¬ (s.h.getX 1).toNat % 16 < s.man.ex) ∧
    (let s := fabBase (leBytes 8 1) (xs [(1, 0x10000)]) id
     mapsStill s 0x10000 .read = some (0x200000, 0) ∧ mapsStill s 0x10000 .write = some (0x200000, 0) ∧ plainSector s 0x200000 0 = true ∧
     s.h.stbuf = [] ∧ parseRx (cellsRead s.mem 0x200000 64) = none ∧ s.cv.active = false) ∧
    (let s := fabBase [] (fun h => { h with split := 3 }) id
     s.h.cap < (List.replicate (s.h.cap + 1) (⟨3, 5, false, false⟩ : Pair)).length) ∧
    (∀ t ∈ [0, 1], let e : SlotMsg := { pa := 0x200080, len := 128, v := 0, pairs := [⟨3, 5, false, false⟩], tag := 9, trunc := false }
      let s := fabBase (rxImage 0 t) (xs [(1, 0x10000)]) fun f => { f with slots := [e] }
      mapsStill s 0x10000 .read = some (0x200000, 0) ∧ mapsStill s 0x10000 .write = some (0x200000, 0) ∧ plainSector s 0x200000 0 = true ∧
      ((parseRx (cellsRead s.mem 0x200000 64)).any fun x => (x.head == x.tail) == (t == 0) && x.slotVa x.head == 0x10080 && x.slg == 7) = true ∧
      named (.drecv .base 1 1 2) s = true ∧ named (.drecvTry .base 1 1 2) s = true ∧ mapsStill s 0x10080 .read = some (0x200080, 0) ∧
      (∀ i < 2, plainSector s (0x200080 + 64 * i) 0 = true) ∧
      (s.fab.slots.find? fun y => y.pa == 0x200080 && y.len == 128 && leBytes y.len y.v == cellsRead s.mem 0x200080 128) = some e ∧
      s.rxBad 0x200000 = false ∧ offTables s 0x200010 8 = true ∧ s.h.stbuf = [] ∧ e.pairs.length ≤ s.h.cap ∧ (e.pairs.all fun p => !p.cp) = true) := by decide +kernel

/-- A depth of one place at least: an empty queue takes a record or a message. -/
theorem witness_queues : (0 : Nat) < Config.sendQueueDepth ∧ (0 : Nat) < Config.traceQueueDepth := ⟨Nat.succ_pos _, Nat.succ_pos _⟩

/-- The page is sealed under key index 1, which the address space owns. -/
def sealedPage (s : State) : State :=
  let leaf : Nat := 0x2001BF + 2 ^ 48
  { s with mem := putEntry s.mem 0x104008 leaf, tlb := s.tlb.map (fun e => { e with leaf := BitVec.ofNat 64 leaf }),
           spaces := s.spaces.map (fun p => { p with keys := [1] }), regions := [{ idx := 0x200, kidx := 1 }] }

/-- A message for this device whose buffer is sealed and well formed; and a buffer beside a store of the hart on its way elsewhere. -/
theorem witness_MessageInstructions_local :
    (let s := sealedPage (fabBase (rxImage 0 0) (xs [(1, 0x10000)]) id)
     let v := byDevice s s.h.asn
     named (.dsend .base 1 0 1) s = true ∧ (s.h.getX 0).toNat % 4096 = s.addr ∧ mapsStill v 0x10000 .read = some (0x200000, 1) ∧
     mapsStill v 0x10000 .write = some (0x200000, 1) ∧ plainSector s 0x200000 1 = true ∧ (parseRx (cellsRead s.mem 0x200000 64)).isSome = true) ∧
    (let w : PWrite := { cls := .scalar, strip := 0, space := .glob, addr := 0x200400, key := 0, va := 0x10400, bytes := [1], psn := false }
     let s := fabBase (rxImage 0 0) (fun h => xs [(1, 0x10000)] { h with stbuf := [w] }) id
     mapsStill s 0x10000 .read = some (0x200000, 0) ∧ mapsStill s 0x10000 .write = some (0x200000, 0) ∧ plainSector s 0x200000 0 = true ∧
     (s.h.stbuf.all fun w => decide (w.addr / 64 ≠ 0x200000 / 64)) = true ∧ s.rxBad 0x200000 = false ∧
     ((parseRx (cellsRead s.mem 0x200000 64)).any fun x => s.h.stbuf.all fun w => decide (w.va.toNat < x.slots ∨ x.slots + x.nslot * 2 ^ x.slg ≤ w.va.toNat)) = true ∧
     named (.drecvTry .base 1 1 2) s = true) := by decide +kernel

def msg (dev epoch : Nat) : Msg := { pairs := [⟨3, 5, false, false⟩], tag := 9, dev := dev, va := 0x10000, asn := 1, epoch := epoch }

/-- A message, or a marker, at the head of channel 0, with `t` messages waiting in the buffer. -/
def arrivedAt (t : Nat) (x : Item) (g : Fabric → Fabric) : State :=
  let s := sealedPage (fabBase (rxImage 0 t) id fun f => g { f with inq := [[x]] })
  { s with man := { s.man with ex := 2 } }

def arrived : Item → (Fabric → Fabric) → State := arrivedAt 0

theorem witness_FabricMoves :
    (∀ e ∈ [0, 1, 40000], let s := arrived (.msg (msg 0 e)) id
      s.headMsg 0 true = some (msg 0 e) ∧ (e + 65536 - (s.job 1).epoch % 65536) % 65536 = e) ∧
    (∀ t ∈ [0, 1], let s := arrivedAt t (.msg (msg 0 0)) id
      let v := byDevice s 1
      (s.spaceOf 1).isSome = true ∧ mapsStill v 0x10000 .read = some (0x200000, 1) ∧ mapsStill v 0x10000 .write = some (0x200000, 1) ∧
      plainSector s 0x200000 1 = true ∧ s.rxBad 0x200000 = false ∧
      ((parseRx (cellsRead s.mem 0x200000 64)).any fun x => x.slotVa x.tail == 0x10080 && x.slg == 7 &&
        ((x.tail - x.head).toNat == x.nslot) == (t == 1)) = true ∧
      mapsStill v 0x10080 .read = some (0x200080, 1) ∧ mapsStill v 0x10080 .write = some (0x200080, 1) ∧
      s.quar.contains (0x200080 / 65536) = false ∧ ∀ i < 2, plainSector s (0x200080 + 64 * i) 1 = true) ∧
    (let s := arrived (.msg (msg 1 0)) fun f => { f with ports := List.replicate 12 { up := true } }
     s.headMsg 0 false = some (msg 1 0) ∧ s.route 1 (some 0) = (0, 1) ∧ s.portFor 0 1 = some 1 ∧ 2 * 1 + 1 < s.fab.outq.length) ∧
    (let s := arrived (.marker 1 5 0) fun f => { f with jobs := [{ asn := 1, prog := some { num := 5, wait := [0, 1] } }] }
     s.inOf 0 = [.marker 1 5 0] ∧ (s.job 1).epoch = 0 ∧ ((s.job 1).prog.any fun x => x.num == 5) = true) ∧
    (let s := arrived (.marker 1 5 0) fun f => { f with jobs := [{ asn := 1, top := 5 }] }
     s.inOf 0 = [.marker 1 5 0] ∧ (s.job 1).prog = none ∧ 5 ≤ (s.job 1).top) ∧
    (let s := arrived (.msg (msg 0 0)) fun f => { f with ports := [{ up := true }, { }] }
     s.portUp 0 = true ∧ s.portUp 1 = false ∧ 1 < s.fab.ports.length) := by decide +kernel

/-- An address space that is gone, an address beyond 57 bits, an unsealed record, and one that is malformed. -/
theorem witness_FabricMoves_refused :
    (let s := { arrived (.msg (msg 0 0)) id with spaces := [] }
     s.headMsg 0 true = some (msg 0 0) ∧ s.spaceOf 1 = none) ∧
    (let m := { msg 0 0 with va := 2 ^ 57 }
     let s := arrived (.msg m) id
     s.headMsg 0 true = some m ∧ deniedBy (byDevice s 1) m.va.toNat .read = some 0x20) ∧
    (let s := fabBase (rxImage 0 0) id fun f => { f with inq := [[.msg (msg 0 0)]] }
     let v := byDevice s 1
     s.headMsg 0 true = some (msg 0 0) ∧ (s.spaceOf 1).isSome = true ∧ mapsStill v 0x10000 .read = some (0x200000, 0) ∧
     mapsStill v 0x10000 .write = some (0x200000, 0) ∧ plainSector s 0x200000 0 = true) ∧
    (let s := sealedPage (fabBase (leBytes 8 1) id fun f => { f with inq := [[.msg (msg 0 0)]] })
     let v := byDevice s 1
     s.headMsg 0 true = some (msg 0 0) ∧ mapsStill v 0x10000 .read = some (0x200000, 1) ∧
     mapsStill v 0x10000 .write = some (0x200000, 1) ∧ plainSector s 0x200000 1 = true ∧ parseRx (cellsRead s.mem 0x200000 64) = none) := by
  decide +kernel

/-- An arming record, as it is kept. -/
def armed : ArmRec := { key := 1, pool := 0x400000, npool := 4, area := 0x800000, narea := 16 }

/-- A message of this device's own send queue; a marker of another number than the snapshot in progress; and first markers of a job whose space is
gone, of one that is not armed, and of one that is. -/
theorem witness_FabricMoves_markers :
    (let s := sealedPage (fabBase (rxImage 0 0) id fun f => { f with sendq := [msg 0 0] })
     s.headMsg 24 true = some (msg 0 0)) ∧
    (let s := arrived (.marker 1 6 0) fun f => { f with jobs := [{ asn := 1, prog := some { num := 5, wait := [0, 1] } }] }
     s.inOf 0 = [.marker 1 6 0] ∧ (s.job 1).epoch = 0 ∧ ((s.job 1).prog.any fun x => x.num != 6) = true) ∧
    (let s := arrived (.marker 1 6 0) fun f => { f with ports := [{ up := true }] }
     let u := { s with spaces := [] }
     let v := arrived (.marker 1 6 0) fun f => { f with ports := [{ up := true }], jobs := [{ asn := 1, arm := some armed }] }
     ([s, u, v].all fun s => s.inOf 0 == [.marker 1 6 0] && (s.job 1).epoch == 0 && (s.job 1).prog.isNone && decide ((s.job 1).top < 6) && s.portUp 0 &&
       decide (1 < s.fab.outq.length)) = true ∧
     (s.spaceOf 1).isSome = true ∧ (s.job 1).arm.isNone = true ∧ (u.spaceOf 1).isNone = true ∧ (v.spaceOf 1).isSome = true ∧ (v.job 1).arm.isSome = true) := by
  decide +kernel

/-- Arming record of address space 1: key index 1, frames from 0x400000 and an area from 0x800000. -/
def armImage : List Byte :=
  leBytes 8 0x10001 ++ leBytes 8 0x400000 ++ leBytes 8 4 ++ leBytes 8 0x800000 ++ leBytes 8 16 ++ List.replicate 24 0

def sup (bs : List Byte) (l : List (BitVec 6 × DWord)) (j : List Job) : State :=
  let s := base bs fun h => xs l { h with status := { prv := true } }
  { s with fab := { s.fab with jobs := j } }

theorem witness_Snapshots :
    (let s := base [] id; s.cv.active = false ∧ s.h.status.prv = false) ∧
    (let s := sup armImage [(1, 0x10000)] []
     s.cv.active = false ∧ s.h.status.prv = true ∧ (s.h.getX 1).toNat % 64 = 0 ∧ recordAs s false (s.h.getX 1) 64 = some armImage ∧
     parseArm armImage = some (1, armed) ∧ s.h.arit = [] ∧ s.h.stbuf = [] ∧ (s.job 1).prog = none ∧
     (s.fab.jobs.filter (·.arm.isSome)).length < 16 ∧ (s.job 1).arm = none) ∧
    (let s := sup armImage [(1, 0x10000)] ((List.range 16).map fun k => { asn := 2 + k, arm := some armed })
     s.cv.active = false ∧ s.h.status.prv = true ∧ recordAs s false (s.h.getX 1) 64 = some armImage ∧ s.h.arit = [] ∧ s.h.stbuf = [] ∧
     (s.job 1).prog = none ∧ (s.job 1).arm = none ∧ 16 ≤ (s.fab.jobs.filter (·.arm.isSome)).length) ∧
    (let s := sup armImage [(1, 1), (2, 3)] [{ asn := 1, arm := some armed, prog := some { num := 4 }, done := some { num := 3 } }]
     s.h.status.prv = true ∧ (s.job 1).prog.isSome = true ∧ (s.job 1).arm.isSome = true ∧ ((s.job 1).prog.any fun x => decide (x.fcode < 16)) = true ∧
     (s.job 1).done.isSome = true) ∧
    (let s := sup armImage [(1, 1), (2, 3)] [{ asn := 1, arm := some armed }]
     s.h.status.prv = true ∧ (s.job 1).arm.isSome = true ∧ (s.job 1).prog = none ∧ (s.spaceOf 1).isSome = true ∧ s.h.arit = [] ∧ s.h.copies = [] ∧
     (s.job 1).done = none ∧ (s.job 1).last = none) ∧
    (let s := sup armImage [(1, 2), (2, 3)] [{ asn := 2, arm := some armed, done := some { num := 3 } }]
     (s.job 2).done.isSome = true ∧ s.h.asn ≠ 2 ∧ s.h.live = true ∧ s.h.park = none ∧ (s.gangs.all fun g => g.asn != 2) = true ∧ s.harts = []) ∧
    (let c : PendCopy := { block := 7, frame := 64, pte := 0x104008, key := 0 }
     let s := sup armImage [] [{ asn := 1, arm := some armed, prog := some { num := 4, shared := [7] }, pending := [c] }]
     ((s.job 1).pending.any fun c => c.block == 7) = true ∧ ((s.job 1).pending.all fun c => c.block != 8) = true) ∧
    (let s := sup armImage [] [{ asn := 1, arm := some armed, prog := some { num := 4, st := .sealing } }]
     ((s.job 1).prog.any fun x => x.st == .sealing) = true ∧ (s.job 1).pending = [] ∧ (s.job 1).arm.isSome = true) := by decide +kernel

/-- Rollbacks to another number, with a snapshot in progress, of one that cannot be restored, beside a node of another job; and one that restores
block 0x30 from frame 0x31, in another job than the hart's. -/
theorem witness_Snapshots_rollback :
    let job := fun (f : Job → Job) => f { asn := 2, arm := some armed, done := some { num := 3 } }
    let at' := fun (j : Job) => sup armImage [(1, 2), (2, 3), (3, 4)] [j]
    let number := fun (s : State) n => ((s.job 2).done.any fun x => x.num == (s.h.getX n).toNat % 2 ^ 32)
    (let s := at' (job id)
     s.h.status.prv = true ∧ number s 3 = false ∧ number s 2 = true ∧ (s.job 2).prog = none) ∧
    (let s := at' (job fun j => { j with prog := some { num := 4 } })
     number s 2 = true ∧ (s.job 2).prog.isSome = true) ∧
    (let s := at' (job fun j => { j with done := some { num := 3, nir := true } })
     number s 2 = true ∧ (s.job 2).prog = none ∧ ((s.job 2).done.any fun x => x.nir) = true) ∧
    (let s := at' (job fun j => { j with done := some { num := 3, nodes := [{ id := 16384, asn := 2 }] } })
     number s 2 = true ∧ (s.job 2).prog = none ∧ ((s.job 2).done.any fun x => !x.nir && x.nodes.any fun k =>
       s.nodes.any fun m => m.id % 8192 == k.id % 8192 && m.asn != 2) = true) ∧
    (let s := at' (job fun j => { j with done := some { num := 3, copies := [(0x30, 0x31)], nodes := [{ id := 8194, asn := 2 }],
                                                         chan := [(2, msg 0 0)], held := [(none, msg 0 0)] } })
     number s 2 = true ∧ (s.job 2).prog = none ∧ (s.gangs.all fun g => g.asn != 2 && g.fate == .runs) = true ∧
     (s.fab.jobs.all fun k => k.pending.isEmpty) = true ∧ s.h.stbuf = [] ∧ s.fab.inq.length = 24 ∧ (s.nodes.map (·.id)).Nodup ∧
     ((s.job 2).done.any fun x => decide (x.nodes.map (·.id % 8192)).Nodup && decide x.copies.Nodup && x.copies.all fun c => x.copies.all fun d =>
       d.2 != c.1 && (d.1 != c.1 || d == c)) = true ∧
     ((s.job 2).done.any fun x => (x.nodes.all fun k => s.nodes.all fun m => m.id % 8192 != k.id % 8192 || m.asn == 2) && !x.nir && x.leaves.isEmpty &&
       x.shared.isEmpty) = true ∧
     ((List.range 1024).all fun i => plainSector s (65536 * 0x31 + 64 * i) (s.region (16 * 0x31)).kidx &&
       plainSector s (65536 * 0x30 + 64 * i) 0) = true) := by decide +kernel

/-- A trace control block with a buffer of 4,096 bytes at 0x10000. -/
def traced (f : Tcb → Tcb) : State :=
  let s := base [] id
  let s := s.mapGang 1 fun g => { g with tcb := f { buf := 0x10000, blog := 12 } }
  { s with tlb := s.tlb ++ s.tlb.map (fun e => { e with core := 128 }), ctrs := [{ core := 0, part := 0 }] }

theorem witness_Tracing :
    (((base [] id).gangOf 1).any fun g => g.tcb.buf == 0 && !g.tcb.lock) = true ∧
    (let s := traced id; ((s.gangOf s.h.gang).any fun g => g.tcb.buf != 0) = true ∧ s.trace.length = 0 ∧ alone s = true) ∧
    (let s := traced fun t => { t with ev := [5, 0x41] }
     ((s.gangOf s.h.gang).any fun g => g.tcb.ev.getD (2 * (0 : BitVec 6).toNat) 0 == 5 && g.tcb.ev.getD (2 * ((16 : BitVec 6).toNat - 16) + 1) 0 == 0x41 &&
       !g.tcb.lock) = true ∧ alone s = true) ∧
    (let s := traced fun t => { t with lock := true }
     s.cv.active = false ∧ ((s.gangOf s.h.gang).any fun g => g.tcb.lock) = true ∧ s.h.status.prv = false) ∧
    (let s := { traced (fun t => { t with sper := 10, ev := [1, 2] }) with clk := 1023 }
     ((s.gangAt 0 0).any fun g => decide (s.clk < 0 + (0 + 1) * 2 ^ g.tcb.sper) && g.tcb.ev.getD (2 * 0 + 1) 0 != 0) = true ∧
     (s.ctrs.find? fun c => c.core == 0 && c.part == 0).isSome = true) ∧
    (let s := ({ traced (fun t => { t with sper := 10 }) with clk := 1024 }).mapH fun h => { h with park := some .wfe }
     ((s.gangAt 0 0).any fun g => g.tcb.sper != 0 && g.tcb.buf != 0 && decide (0 + (0 + 1) * 2 ^ g.tcb.sper ≤ s.clk)) = true ∧
     (((s.slotsOf 0 0)[0]?).any fun h => h.park == some .wfe && h.id == s.h.id) = true ∧ Park.wfe.reason = some 16 ∧ s.trace.length = 0) ∧
    (let r : TraceRec := { asn := 1, tcb := { buf := 0x10000, blog := 12 }, type := 2, eng := 0, queue := 0, task := 0, cseq := 0, hart := none, hartid := 0,
                           ts := 0, data := 0 }
     let s := { traced id with trace := [r] }
     let v := byDevice s 1
     s.trace.find? (·.asn == 1) = some r ∧ mapsStill v 0x10000 .write = some (0x200000, 0) ∧ leNat (cellsRead s.mem 0x200000 8) = 0 ∧
     mapsStill v (0x10000 + 64) .write = some (0x200040, 0) ∧ cleanSector v 0x10000 0x200000 0 = true ∧ cleanSector v 0x10040 0x200040 0 = true ∧ (s.dropsOf r).since = 0) ∧
    (let s := { (base [] fun h => { h with park := some .wfe, tcmp := 5 }) with tstamp := 5 }
     s.h.live = true ∧ s.h.park = some .wfe ∧ s.h.tcmp.toNat ≤ s.tstamp.toNat ∧ s.h.emask.getLsbD 5 = true) := by decide +kernel

theorem witness_SealEngine :
    (let s := base [] id; s.h.status.prv = false ∧ s.cv.active = false) ∧
    (let s := sup [] [(1, 0x10000), (2, 3), (3, 1)] []
     s.h.status.prv = true ∧ alone s = true ∧ (s.h.getX 1).toNat % 64 = 0 ∧ (∀ c ∈ [(0 : BitVec 6), 2, 3], (s.h.getX c).toNat < 256) ∧ s.h.stbuf = [] ∧
     mapsStill s (s.h.getX 1).toNat .write = some (0x200000, 0) ∧ cleanSector s (s.h.getX 1).toNat 0x200000 0 = true ∧ offTables s 0x200000 8 = true) ∧
    (let s := sup [] [(1, 0x10001), (2, 0x10000), (3, 0x40001)] []
     s.h.status.prv = true ∧ s.cv.active = false ∧ (s.h.getX 1).toNat % 8 ≠ 0 ∧ (s.h.getX 2).toNat % 8 = 0 ∧ (s.h.getX 3).toNat / 2 ^ 16 = 4 ∧
     mapsStill s (s.h.getX 2).toNat .write = some (0x200000, 0)) ∧
    (let s := sealedPage (sup [] [(1, 0x10000), (2, 0x40001), (3, 0x80001)] [])
     s.h.status.prv = true ∧ alone s = true ∧ (s.h.getX 1).toNat % 8 = 0 ∧ s.h.stbuf = [] ∧ mapsStill s (s.h.getX 1).toNat .write = some (0x200000, 1) ∧
     cleanSector s (s.h.getX 1).toNat 0x200000 1 = true ∧ offTables s 0x200000 8 = true ∧ s.isSram 0x200000 = false ∧
     (s.h.getX 2).toNat / 2 ^ 16 = 4 ∧ (s.h.getX 2).toNat % 2 ^ 16 ≠ 0 ∧ (s.h.getX 3).toNat / 2 ^ 8 = 2 ^ 11) ∧
    (let s := (locals fun h => { h with status := { prv := true } })
     s.h.status.prv = true ∧ alone s = true ∧ s.h.stbuf = [] ∧ (localWriteOf s (s.h.tcmSpace 0) 0 (leBytes 8 5) false).isSome = true ∧
     (localWriteOf s (s.spSpace s.h 0) 0 (leBytes 8 5) false).isSome = true) ∧
    (let s := base [] fun h => { h with async := [(0xF0, 64)] }
     s.h.live = true ∧ s.h.takeable = true ∧ s.h.preempt = none ∧ s.h.park ≠ some .away ∧ s.h.sv ≠ .saved) ∧
    (let s := { base [] id with firm := { (base [] id).firm with scrub := [3] }, regions := [{ idx := 0x200, kidx := 3 }] }
     (3 : Nat) ∈ s.firm.scrub ∧ (s.regions.map (·.idx)).Nodup) := by decide +kernel

/-- Errors in a word and in the tag of a sealed sector, in a counter line, in TCM and scratchpad, in vector and fibre storage, in the tile, its scales and
a slot, and in state without poison; for a hart and a gang, and for none. -/
theorem witness_SealEngine_strikes :
    let s := sealedPage (matState [] (fun h => h.setF 1 [⟨3, 5, false, false⟩]) id)
    let sec := 0x200000 / 64
    (s.populated (64 * sec) 64 = true ∧ s.isSram (64 * sec) = false ∧ (s.region (sec / 64)).kidx = 1 ∧ s.quar.contains (sec / 1024) = false) ∧
    ((4 + 12 * (9 * sec + 3)) % 12 ≤ 4 ∧ (4 + 12 * (9 * sec + 3)) / 12 / 9 = sec ∧ (4 + 12 * (9 * sec + 3)) / 12 % 9 ≠ 8 ∧
      (4 + 12 * (9 * sec + 8)) / 12 % 9 = 8) ∧
    (s.populated (4096 * 0x200) 4096 = true ∧ s.isSram (4096 * 0x200) = false) ∧
    s.h.live = true ∧ (s.gangAt s.h.id.core s.h.id.part).any (fun g => (s.gangOf g.key).isSome) = true ∧
    s.hartAt ⟨5, 0, 0⟩ = none ∧ s.gangAt 5 0 = none ∧ s.h.park ≠ some .away ∧ s.h.sv ≠ .saved ∧
    (let u := locals id
     (u.gangAt 0 0).any (fun g => localOff g.tcm.size (4 * 3) == some 12 && localOff g.sp.size (4 * 3) == some 12 && (u.gangOf g.key).isSome) = true) ∧
    (0xFFFF : DWord).getLsbD 16 = false ∧ (0x10000 : DWord).getLsbD 16 = true := by
  decide +kernel

/-- A queue of 16 entries of which `c` are consumed and `p` produced. -/
def ringState (p c : DWord) : State :=
  let s := base [] id
  { s with firm := { s.firm with queues := [{ q := 0, qb := 0x300000, qlog := 4, prio := 0, weight := 1, asn := 1, prod := p, cons := c }] } }

theorem witness_HostAccesses :
    (∀ k ∈ [0, 3], let s := { base [] id with regions := [{ idx := 0x300, kidx := k }] }
      s.inCtrl 0x300000 = false ∧ s.populated 0x300000 64 = true ∧ (s.region 0x300).kidx = k ∧ (k = 0 → plainSector s 0x300000 0 = true) ∧
      s.isSram 0x300000 = false ∧ s.quar.contains (0x300000 / 65536) = false) ∧
    (let s := ringState 3 2
     ((s.queueNo 0).any fun b => decide (b.prod.toNat ≤ (18 : DWord).toNat) && decide ((18 : DWord).toNat ≤ b.cons.toNat + 2 ^ b.qlog) &&
       decide ((2 : DWord).toNat < b.prod.toNat) && decide (b.cons.toNat + 2 ^ b.qlog < (19 : DWord).toNat) && decide (b.cons.toNat < b.prod.toNat)) = true ∧
     (s.reap.takeEntry 0).isSome = true) ∧
    (((ringState 2 2).queueNo 0).any fun b => decide (b.prod.toNat ≤ b.cons.toNat)) = true ∧
    (let s := base [] id; s.firm.st = 3 ∧ s.firm.unbind = none ∧ s.firm.mbox.length = 256) := by decide +kernel

/-- A launch entry of the ring and its descriptor at 0x10040; and an entry that is malformed, with its completion record at 0x10080. -/
theorem witness_HostAccesses_entries :
    let e := fun (crec last : Nat) => leBytes 8 0x10040 ++ leBytes 8 crec ++ List.replicate 239 0 ++ [BitVec.ofNat 8 last]
    let s := fun (crec last : Nat) =>
      let s := fabBase (List.replicate 64 0 ++ leBytes 8 0x10000 ++ leBytes 8 (2 ^ 32 + 2 ^ 20) ++ List.replicate 48 0) id id
      { s with mem := cellsWrite s.mem 0x300000 (e crec last), nodes := [],
               firm := { s.firm with queues := [{ q := 0, qb := 0x300000, qlog := 4, prio := 0, weight := 1, asn := 1, prod := 1, cons := 0 }] } }
    let r := leBytes 8 0x10000 ++ leBytes 8 (2 ^ 32 + 2 ^ 20) ++ List.replicate 48 0
    let well := fun (e : List Byte) => (parseLaunch e).isSome && (e.drop 144).all (· == 0)
    (∀ x ∈ [(0, 0), (0x10080, 1)], let s := s x.1 x.2
      ((s.queueNo 0).any fun b => b.cons == 0 && b.prod == 1 && b.qlog == 4) = true ∧ s.nodes.isEmpty = true ∧ s.shared.fresh < s.shared.last ∧
      0x300000 % 64 = 0 ∧ (∀ i < 4, plainSector s (0x300000 + 64 * i) 0 = true) ∧ plainSector s (0x300000 + 136) 0 = true ∧
      (s.reap.takeEntry 0).isSome = true ∧ cellsRead s.mem 0x300000 256 = e x.1 x.2) ∧
    (let s := s 0 0
     well (e 0 0) = true ∧ recordAs (byDevice s 1) false 0x10040 64 = some r ∧ launchCode (e 0 0) r = 0 ∧
     ((parseLaunch (e 0 0)).any fun p => p.preds.all (· == 0)) = true) ∧
    (let v := byDevice (s 0x10080 1) 1
     well (e 0x10080 1) = false ∧ mapsStill v 0x10080 .write = some (0x200080, 0) ∧ cleanSector v 0x10080 0x200080 0 = true ∧
     0x200080 / 64 ≠ (0x300000 + 136) / 64) ∧
    (let s := { s 0x10080 1 with psn := [0x300000 / 64 + 1] }
     (∀ i ∈ [0, 2, 3], plainSector s (0x300000 + 64 * i) 0 = true) ∧ s.psn.contains (0x300000 / 64 + 1) = true ∧
     (s.region ((0x300000 / 64 + 1) / 64)).kidx = 0 ∧ s.quar.contains ((0x300000 / 64 + 1) / 1024) = false ∧ plainSector s (0x300000 + 136) 0 = true) :=
  by decide +kernel

theorem witness_ManagementAndPower :
    (let s := base [] id
     s.firm.st = 3 ∧ s.firm.mbox.length = 256 ∧ s.firm.session = none ∧ (s.spaceOf 1).isSome = true ∧ (s.spaceOf 2).isSome = false ∧
     16 ≤ s.freeKeys.length ∧ s.inWindow 0x300000 (256 * 2 ^ 4) = true ∧ s.queueNo 0 = none ∧ s.quar.contains 7 = false ∧ s.firm.hot = false ∧
     ((s.teams.filter fun t => s.asnOfTask t.node == some 1 && !s.isBusy t).length = 1 ∧
       ((s.teams.filter fun t => s.asnOfTask t.node == some 1 && !s.isBusy t).all fun m => s.choice m 0 false == .drain) = true)) ∧
    (let s := { base [] id with spaces := [{ asn := 1, keys := (List.range 255).map (· + 1) }], quar := [7],
                                firm := { (base [] id).firm with session := some 5, attested := [7], hot := true } }
     s.firm.session = some 5 ∧ s.freeKeys.length < 1 ∧ s.quar.contains 7 = true ∧ s.firm.attested.contains 7 = true ∧ s.firm.hot = true) ∧
    (((ringState 3 2).queueNo 0).any fun b => b.cons != b.prod) = true := by decide +kernel

/-- An unbinding that waits, a device without firmware images, of which every one is accepted, one with an image that no key vouches for, and one whose
manifest is not signed. -/
theorem witness_ManagementAndPower_firmware :
    (let s := { base [] id with firm := { (base [] id).firm with unbind := some 0 } }
     s.firm.unbind = some 0) ∧ (base [] id).firm.unbind = none ∧
    (({ } : Manifest).signed = true ∧ ({ } : Manifest).images = []) ∧
    (let m := { ({ } : Manifest) with images := [{ bytes := [] }] }
     m.signed = true ∧ m.images[0]? = some { bytes := [] } ∧ (({ bytes := [] } : FwImage).keys = [])) ∧
    ({ ({ } : Manifest) with signed := false }).signed = false := by decide +kernel

/-- The tag of any command is the one that the session key gives it. -/
theorem witness_ManagementAndPower_tag : ∃ tag, (some (5 : BitVec 256) = some 5 ∧ tag = Config.kmac 5 3 [1]) := ⟨_, rfl, rfl⟩

/-! ## Decoding: the words that the manual works out, by chapter, and one word of every other row of the opcode table -/

/-- The instruction of a word in the base form. -/
def word (w : Nat) : Option Instr := decodeTableWord 32 w

def wordsScalar : List (Nat × Instr) := [
  (0x00A20604, Instr.add .base 3 4 5), (0x2BC09408, Instr.li .base 10 700), (0xFD400E0C, Instr.bLt .base 7 0 0xFD),
  (0x00140210, Instr.call .base 1 40), (0x1000FE10, Instr.ret .base 1), (0x10059414, Instr.setvl .base 10 11 2),
  (0x00000A18, Instr.mfs .base 5 0), (0x08028C18, Instr.mts .base 6 5), (0x00087A18, Instr.mfs .base 61 0x10),
  (0x0808FE18, Instr.mts .base 63 0x11), (0x00000008, Instr.addImm .base 0 0)]

theorem test_decode_Scalar : (wordsScalar.all fun p => word p.1 == some p.2) = true := by decide +kernel

def wordsMemory : List (Nat × Instr) := [
  (0x18E30A20, Instr.ldD .base 5 6 7 false), (0x10030A24, Instr.st .base 5 6 0 2 false),
  (0x88030A28, Instr.ldacq .base 5 6 0 true .dev), (0x98030A28, Instr.strel .base 5 6 0 true .dev),
  (0x0000002C, Instr.fenceSv .base), (0x0800002C, Instr.fenceVs .base), (0x6000002C, Instr.fence .base .dev),
  (0x7000002C, Instr.fence .base .sys), (0x08018630, Instr.vld .base 3 6 2 false false),
  (0x18718630, Instr.vlds .base 3 6 7 2 false false), (0x18818834, Instr.vldx .base 4 6 8 2 true false false false),
  (0x18804834, Instr.vldx .base 4 1 8 2 true false false false),
  (0x9881883C, Instr.vstx .base 4 6 8 2 true false false true false), (0x40718A38, Instr.vstu .base 5 6 7 false false)]

theorem test_decode_Memory : (wordsMemory.all fun p => word p.1 == some p.2) = true := by decide +kernel

def wordsVector : List (Nat × Instr) := [
  (0x00190A40, Instr.vadd .base 5 4 3 0 false), (0x01104944, Instr.vfma .base 4 1 2 1 true),
  (0x08104648, Instr.visub .base 3 1 2 0 false), (0x406A9E4C, Instr.vfshL .base 15 10 13 0 false),
  (0x42104C54, Instr.vredAddxProduct .base 6 1 2 2 false), (0x2028C858, Instr.vgred .base 4 3 5 0 .max false),
  (0x00408670, Instr.mand .base 3 1 2 false), (0x00008A74, Instr.mpopc .base 5 1 false),
  (0x008BA67C, Instr.vperm .base 19 14 17 false)]

theorem test_decode_Vector : (wordsVector.all fun p => word p.1 == some p.2) = true := by decide +kernel

def wordsBanks : List (Nat × Instr) := [
  (0x18030A80, Instr.ldDSp .base 5 6 0), (0x78603080, Instr.bstat .base 24 3), (0x98718280, Instr.vldsSp .base 1 6 7 2),
  (0xBC718280, Instr.vldpSp .base 1 6 7), (0x08818688, Instr.vamo .base 3 6 8 false true (.int .add)),
  (0xB8818688, Instr.vwait .base 3 6 8 false true .ge), (0xC0E30A84, Instr.amo .base 5 6 7 .add true true),
  (0x78E30A84, Instr.cas .base 5 6 7 true false), (0x00E30A8C, Instr.barArrive .base 5 6 7),
  (0x08A3008C, Instr.barWait .base 6 5), (0x10E30A8C, Instr.barSync .base 5 6 7), (0x1800008C, Instr.gbar .base),
  (0x2023128C, Instr.barRd .base 9 6 1)]

theorem test_decode_Banks : (wordsBanks.all fun p => word p.1 == some p.2) = true := by decide +kernel

def wordsStreamsAndFibres : List (Nat × Instr) := [
  (0x02830490, Instr.sbind .base 2 6 20 false), (0x08030690, Instr.sbindF .base 3 6 false), (0x10000490, Instr.sstop .base 2),
  (0x58030490, Instr.ssave .base 2 6 true), (0x60030490, Instr.srest .base 2 6 true), (0x00010A94, Instr.sopPop .base 5 2),
  (0x08E10094, Instr.sopSkip .base 2 7), (0x18011294, Instr.sopRem .base 9 2), (0x00010298, Instr.fld .base 1 2 0 false false),
  (0x11210898, Instr.fldQ .base 4 2 9 false), (0x20030498, Instr.fst .base 2 6 false false),
  (0x40018A98, Instr.fcount .base 5 3 false), (0x48000498, Instr.fclear .base 2 false),
  (0x2010469C, Instr.fisect .base 3 1 2 0 .first false), (0x40080A9C, Instr.funion .base 5 0 1 0 .add false),
  (0x80200A9C, Instr.fmerge .base 5 0 1 false), (0x010108A0, Instr.fsort .base 4 4 1 .add false),
  (0x50008EA0, Instr.fexpandC .base 7 1 false), (0x62104CA0, Instr.fpack .base 6 1 2 2 false),
  (0x00E28CA4, Instr.fwalk .base 6 5 7 false false)]

theorem test_decode_StreamsAndFibres : (wordsStreamsAndFibres.all fun p => word p.1 == some p.2) = true := by decide +kernel

def wordsEngines : List (Nat × Instr) := [
  (0x010200A8, Instr.mldb .base 1 0 1), (0x011A00A8, Instr.mldb .base 1 3 1), (0x08006CA8, Instr.mma .base 22 1 0),
  (0x10186CA8, Instr.mmaS24 .base 22 1 3 0), (0x18286CA8, Instr.mmaX .base 22 1 5 0), (0x0AC08AAC, Instr.mpeek .base 5 1 22),
  (0x12C08AAC, Instr.mstat .base 5 1 22), (0x014484B0, Instr.epiCfg .base 2 9 10), (0x080C00B0, Instr.epiGo .base 24),
  (0x100300B0, Instr.epiGoLd .base 6), (0x00030AB4, Instr.cpyGo .base 5 6 false), (0x08030AB4, Instr.cpyGo .base 5 6 true),
  (0x100280B4, Instr.cpyWait .base 5), (0x18028EB4, Instr.cpyWaitDrop .base 7 5), (0x20028EB4, Instr.cpyPoll .base 7 5),
  (0x00030AB8, Instr.launch .base 5 6), (0x08030AB8, Instr.launchTry .base 5 6), (0x00E30ABC, Instr.tdep .base 5 6 7),
  (0x08030ABC, Instr.twait .base 5 6), (0x100000BC, Instr.texit .base 0), (0x1FFEFCBC, Instr.texitSv .base 62 61 63)]

theorem test_decode_Engines : (wordsEngines.all fun p => word p.1 == some p.2) = true := by decide +kernel

def wordsDevice : List (Nat × Instr) := [
  (0x00C284C0, Instr.dsend .base 2 5 6), (0x08E302C0, Instr.drecv .base 1 6 7), (0x10E302C0, Instr.drecvTry .base 1 6 7),
  (0x000AA8C4, Instr.snap .base 20 21), (0x080328C4, Instr.snapArm .base 20 6), (0x100AA8C4, Instr.snapDrop .base 20 21),
  (0x180AACC4, Instr.snapPoll .base 22 21), (0x22EAA8C4, Instr.rollback .base 20 21 23), (0x000280C8, Instr.tmark .base 5),
  (0x08600AC8, Instr.pcntRd .base 5 3), (0x10008AC8, Instr.tstamp .base 5 1), (0x00E30ACC, Instr.diagSt .base 5 6 7 .global),
  (0x40E30ACC, Instr.sealLog .base 5 6 7)]

theorem test_decode_Device : (wordsDevice.all fun p => word p.1 == some p.2) = true := by decide +kernel

def wordsRow0 : List (Nat × Instr) := [
  (0x08E28604, Instr.sub .base 3 5 7), (0x10E28604, Instr.mul .base 3 5 7), (0x18E28604, Instr.mulh .base 3 5 7),
  (0x20E28604, Instr.mulhN .base 3 5 7), (0x28E28604, Instr.div .base 3 5 7), (0x30E28604, Instr.divN .base 3 5 7),
  (0x38E28604, Instr.rem .base 3 5 7), (0x40E28604, Instr.remN .base 3 5 7), (0x48E28604, Instr.and .base 3 5 7),
  (0x50E28604, Instr.or .base 3 5 7), (0x58E28604, Instr.xor .base 3 5 7), (0x60E28604, Instr.andn .base 3 5 7),
  (0x68E28604, Instr.shl .base 3 5 7), (0x70E28604, Instr.shr .base 3 5 7), (0x78E28604, Instr.sar .base 3 5 7),
  (0x80E28604, Instr.rol .base 3 5 7), (0x00510608, Instr.mov .base 3 5), (0x00518608, Instr.andImm .base 3 5),
  (0x00520608, Instr.orImm .base 3 5), (0x00528608, Instr.xorImm .base 3 5), (0x00530608, Instr.shlImm .base 3 5),
  (0x00538608, Instr.shrImm .base 3 5), (0x00540608, Instr.sarImm .base 3 5), (0x00548608, Instr.rolImm .base 3 5),
  (0x00550608, Instr.mulImm .base 3 5), (0x0002861C, Instr.clz .base 3 5), (0x0802861C, Instr.ctz .base 3 5),
  (0x1002861C, Instr.popc .base 3 5), (0x18E2861C, Instr.bext .base 3 5 7), (0x20E2861C, Instr.bins .base 3 5 7),
  (0x28E2861C, Instr.sel .base 3 5 7), (0x30E2861C, Instr.min .base 3 5 7), (0x38E2861C, Instr.max .base 3 5 7),
  (0x40E2861C, Instr.minN .base 3 5 7), (0x48E2861C, Instr.maxN .base 3 5 7), (0x0702860C, Instr.bEq .base 3 5 7),
  (0x0722860C, Instr.bNe .base 3 5 7), (0x0762860C, Instr.bGe .base 3 5 7), (0x0782860C, Instr.bLtn .base 3 5 7),
  (0x07A2860C, Instr.bGen .base 3 5 7)]

theorem test_decode_row0 : (wordsRow0.all fun p => word p.1 == some p.2) = true := by decide +kernel

def wordsRow1 : List (Nat × Instr) := [
  (0x00018010, Instr.jmp .base 3), (0x0001FE10, Instr.jmpReg .base 3), (0x08A1FE10, Instr.callReg .base 3 5),
  (0x28000014, Instr.vjoin .base true), (0x38000014, Instr.vsplit .base true), (0x10018018, Instr.trap .base 3),
  (0x18000018, Instr.eret .base), (0x20000018, Instr.yield .base), (0x28000018, Instr.wfe .base),
  (0x48E28620, Instr.lds .base 3 5 7 1 true), (0x68E28620, Instr.ldz .base 3 5 7 1 true), (0x80A1802C, Instr.pref .base 3 5 0),
  (0xC0A1802C, Instr.tlbinvVa .base 3 5), (0xC860002C, Instr.tlbinvAsn .base 3), (0xD000002C, Instr.tlbinvAll .base),
  (0x20014638, Instr.vst .base 3 5 0 true false), (0x34714638, Instr.vsts .base 3 5 7 1 true false),
  (0x09394640, Instr.vsub .base 3 5 7 1 false), (0x11394640, Instr.vmul .base 3 5 7 1 false),
  (0x19394640, Instr.vdiv .base 3 5 7 1 false), (0x21394640, Instr.vmin .base 3 5 7 1 false),
  (0x29394640, Instr.vmax .base 3 5 7 1 false), (0x09394644, Instr.vfms .base 3 5 7 1 false),
  (0x47014644, Instr.vsqrt .base 3 5 7 false), (0x4F014644, Instr.vrsqrt .base 3 5 7 false),
  (0x57014644, Instr.vabs .base 3 5 7 false), (0x5F014644, Instr.vneg .base 3 5 7 false),
  (0x01394648, Instr.viadd .base 3 5 7 1 false), (0x11394648, Instr.vimul .base 3 5 7 1 false),
  (0x19394648, Instr.vimulh .base 3 5 7 1 false), (0x21394648, Instr.vimin .base 3 5 7 1 false),
  (0x29394648, Instr.vimax .base 3 5 7 1 false), (0x47014648, Instr.vclz .base 3 5 7 false),
  (0x4F014648, Instr.vpopc .base 3 5 7 false), (0x0139464C, Instr.vand .base 3 5 7 1 false),
  (0x0939464C, Instr.vor .base 3 5 7 1 false), (0x1139464C, Instr.vxor .base 3 5 7 1 false),
  (0x2139464C, Instr.vshl .base 3 5 7 1 false), (0x2939464C, Instr.vshr .base 3 5 7 1 false),
  (0x3139464C, Instr.vsar .base 3 5 7 1 false)]

theorem test_decode_row1 : (wordsRow1.all fun p => word p.1 == some p.2) = true := by decide +kernel

def wordsRow2 : List (Nat × Instr) := [
  (0x4939464C, Instr.vfshR .base 3 5 7 1 false), (0x09394650, Instr.vcmp .base 3 5 7 1 .ne false),
  (0x0F014654, Instr.vred .base 3 5 7 .addo false), (0x2701465C, Instr.vscan .base 3 5 7 .max false),
  (0x01394660, Instr.vcvt .base 3 5 7 1 false), (0x08E28670, Instr.mor .base 3 5 7 false),
  (0x10E28670, Instr.mxor .base 3 5 7 false), (0x18E28670, Instr.mandn .base 3 5 7 false),
  (0x20028670, Instr.mnot .base 3 5 false), (0x08028674, Instr.mfirst .base 3 5 false),
  (0x00E28678, Instr.vslideUp .base 3 5 7 false), (0x08E28678, Instr.vslideDown .base 3 5 7 false),
  (0x10028678, Instr.vbcast .base 3 5 false), (0x18E28678, Instr.vbcastI .base 3 5 7 false),
  (0x0839467C, Instr.vcompress .base 3 5 7 false), (0x1039467C, Instr.vexpand .base 3 5 7 false),
  (0x08E28680, Instr.ldsSp .base 3 5 7 1), (0x28E28680, Instr.ldzSp .base 3 5 7 1), (0x48E28680, Instr.stSp .base 3 5 7 1),
  (0x80014680, Instr.vldSp .base 3 5 0), (0xA4714680, Instr.vldxSp .base 3 5 7 1), (0xC0014680, Instr.vstSp .base 3 5 0),
  (0xD4714680, Instr.vstsSp .base 3 5 7 1), (0xE4714680, Instr.vstxSp .base 3 5 7 1), (0xFC714680, Instr.vstpSp .base 3 5 7),
  (0x10028694, Instr.sopPos .base 3 5), (0x270146A0, Instr.fcompact .base 3 5 7 false),
  (0x470146A0, Instr.fexpandV .base 3 5 7 false), (0x4F0146A0, Instr.fexpandD .base 3 5 7 false),
  (0x6F0146A0, Instr.fpackD .base 3 5 7 false), (0x000006AC, Instr.mseal .base 3)]

theorem test_decode_row2 : (wordsRow2.all fun p => word p.1 == some p.2) = true := by decide +kernel

/-- Longer forms that the manual works out: `add x5, x6, 0x1_0000_0000`; `ld.d x6, [x1 + 64]`; `vcmp.eq m2, v9, 0, x9`; `vslide.up v2, v1, 1`;
`vadd v5, v4, 1.5, x40, ?!m2`; `amo.add.acq.i64.sp x5, [x6], x7`. -/
theorem test_decode_forms :
    decodeWords 0x00600A0B 0 0 0 1 = .ok (.addImm (.extLit (extOf 0 0) 0x100000000) 5 6) ∧
    decodeWords 0x18008C22 0x40000000 0x40 0 0 = .ok (.ldD (.ext { extOf 0 0 with ib := true, imm := 64 }) 6 1 0 false) ∧
    decodeWords 0x00024452 0x49000000 0 0 0 = .ok (.vcmp (.ext { extOf 0 0 with ib := true, fdx := 9 }) 2 9 0 0 .eq false) ∧
    decodeWords 0x0000847A 0x40000000 1 0 0 = .ok (.vslideUp (.ext { extOf 0 0 with ib := true, imm := 1 }) 2 1 0 false) ∧
    decodeWords 0x00010A42 0x6800000A 0x4800 0 0 =
      .ok (.vadd (.ext { extOf 0 0 with ib := true, fdx := 40, g1p := true, g1 := 2, imm := 0x4800 }) 5 4 0 0 false) ∧
    decodeWords 0xC0E30A86 0 0x14 0 0 = .ok (.amo (.ext { extOf 0 0 with imm := 0x14 }) 5 6 7 .add true true) := by decide +kernel

/-- Words that the manual gives to no instruction (R54, R55), and reserved bits that are not zero. -/
theorem test_decode_refused :
    decodeWords 0 0 0 0 0 = .error .illegal ∧ decodeWords 0x00A2061C 0 0 0 0 = .error .reserved ∧ decodeWords 0xFC 0 0 0 0 = .error .illegal ∧
    decodeWords 0xD800002C 0 0 0 0 = .error .illegal ∧ decodeWords 0x00010A42 0 0x01000000 0 0 = .error .reserved := by decide +kernel

/-! ## Well-formedness: a term that each check refuses -/

theorem test_refused :
    listed (.call .base 0 4) = false ∧ listed (.mfs .base 5 3) = false ∧ listed (.vgred .base 1 2 12 0 .max false) = false ∧
    literalOk (.add (.baseLit 1) 3 4 5) = false ∧ literalOk (.addImm (.baseLit 1) 3 0) = true ∧
    formFieldsOk (.addImm (.baseLit 1) 3 1) = false ∧
    extOk (capsOf (.add .base 3 4 5)) { extOf 0 0 with fdx := 1 } = false ∧ extOk (capsOf (.add .base 3 4 5)) { extOf 0 0 with pri := 3 } = false ∧
    extOk (capsOf (.add .base 3 4 5)) { extOf 0 0 with g1 := 1 } = false ∧
    extOk (capsOf (.vadd .base 3 4 5 0 false)) { extOf 0 0 with g1p := true } = false ∧
    immOk (.add (.ext { extOf 0 0 with imm := 1 }) 3 4 5) { extOf 0 0 with imm := 1 } = false ∧
    attrOk (.cas .base 5 6 7 false false) 0x84 = false ∧ attrOk (.amo .base 5 6 7 .add false false) 7 = false ∧
    selectorOk (.bstat .base 24 4) = false ∧ selectorOk (.tstamp .base 5 3) = false ∧ selectorOk (.pcntRd .base 5 32) = false ∧
    wellFormed (.call .base 0 4) = false ∧ wellFormed (.add (.baseLit 1) 3 4 5) = false ∧ wellFormed (.bstat .base 24 4) = false := by
  decide +kernel

/-! ## Single steps, with results that the manual works out or that follow from a rule by hand -/

/-- The state after an instruction. -/
def after (i : Instr) (s : State) : State := match exec i s with | .next t => t | _ => s

/-- A value of a scalar register, and an element of a vector register. -/
def xOf (r : BitVec 6) (s : State) : Nat := (s.h.getX r).toNat
def vOf (r : BitVec 5) (w e : Nat) (s : State) : Nat := (s.h.getV r).elt w e

/-- R90, R91, R93: wraps and corners. -/
theorem test_scalar :
    let s := base [] (xs [(1, 0x8000000000000000), (2, BitVec.allOnes 64), (3, 7)])
    xOf 5 (after (.add .base 5 2 3) s) = 6 ∧ xOf 5 (after (.div .base 5 1 2) s) = 0x8000000000000000 ∧ xOf 5 (after (.rem .base 5 1 2) s) = 0 ∧
    xOf 5 (after (.divN .base 5 3 0) s) = 2 ^ 64 - 1 ∧ xOf 5 (after (.remN .base 5 3 0) s) = 7 ∧ xOf 0 (after (.add .base 0 2 3) s) = 0 ∧
    xOf 5 (after (.sar .base 5 1 3) s) = 0xFF00000000000000 ∧ xOf 5 (after (.clz .base 5 3) s) = 61 ∧
    xOf 5 (after (.mulhN .base 5 2 2) s) = 2 ^ 64 - 2 ∧ xOf 5 (after (.mulh .base 5 1 2) s) = 0 := by decide +kernel

/-- R44, R94 to R96: three words back, and a call through its own link register. -/
theorem test_control :
    let s := base [] (xs [(1, 0x10103), (7, BitVec.allOnes 64)])
    (after (.bLt .base 7 0 0xFD) s).h.pc = 0xFFF4 ∧ (after (.bLt .base 0 7 0xFD) s).h.pc = 0x10004 ∧
    (after (.callReg .base 1 1) s).h.pc = 0x10100 ∧ xOf 1 (after (.callReg .base 1 1) s) = 0x10004 := by decide +kernel

/-- R97, R18: 512 elements of 32 bits in a hart that is not split, 128 in one of four. -/
theorem test_setvl :
    xOf 5 (after (.setvl .base 5 1 2) (base [] (xs [(1, 1000)]))) = 512 ∧
    xOf 5 (after (.setvl .base 5 1 2) (base [] fun h => xs [(1, 1000)] { h with split := 2, cur := 2 })) = 128 := by decide +kernel

/-- R112, R101, R31: the entry of a trap and of a privileged instruction in user mode, and the return. -/
theorem test_traps :
    (let t := after (.trap .base 9) (base [] id)
     t.h.pc = 0x10800 ∧ t.h.epc = 0x10004 ∧ t.h.tval = 9 ∧ t.h.cause = { code := 0xC0 } ∧ t.h.status = { prv := true }) ∧
    (let t := after (.eret .base) (base [] id)
     t.h.pc = 0x10800 ∧ t.h.epc = 0x10000 ∧ t.h.cause = { code := 3 } ∧ t.h.tval = 0x18000018) ∧
    (let t := after (.eret .base) (base [] fun h => { h with status := { prv := true, pie := true }, epc := 0x10040 })
     t.h.pc = 0x10040 ∧ t.h.status = { ie := true }) := by decide +kernel

/-- R120, R121: a negative byte, a word, a misaligned one, and a store that waits and then performs. -/
theorem test_memory :
    let s := base [1, 2, 3, 0x84] (xs [(1, 0x10000), (2, 0x1122)])
    xOf 5 (after (.ldz .base 5 1 0 2 false) s) = 0x84030201 ∧ xOf 5 (after (.lds .base 5 1 0 2 false) s) = 0xFFFFFFFF84030201 ∧
    (after (.ldz (.baseLit 1) 5 1 0 2 false) s).h.cause = { code := 0x30 } ∧ (after (.ldz (.baseLit 1) 5 1 0 2 false) s).h.tval = 0x10001 ∧
    (let t := after (.st .base 2 1 0 1 false) s
     t.rawRead 0x200000 4 = 0x84030201 ∧ (after (.fenceSv .base) t).rawRead 0x200000 4 = 0x84031122) := by decide +kernel

/-- The worked vector examples: a tie of tap16, a difference that wraps and one that saturates, a funnel shift, a scan. -/
theorem test_vectors :
    (let s := base [] fun h => xs [(8, 0x9249)] { (h.setV 4 { bits := 0x7DF4 }).setV 3 { bits := 0x4000 } with vl := 1 }
     vOf 5 16 0 (after (.vadd .base 5 4 3 0 false) s) = 0x7DF4) ∧
    (let s := fun (f : DWord) => base [] fun h => xs [(8, f)] { (h.setV 1 (v32 [5])).setV 2 (v32 [7]) with vl := 1 }
     vOf 3 32 0 (after (.visub .base 3 1 2 0 false) (s 0x269A6)) = 0xFFFFFFFE ∧ vOf 3 32 0 (after (.visub .base 3 1 2 0 false) (s 0x2269A6)) = 0) ∧
    (let s := fun (n : Nat) => base [] fun h => xs [(8, 0x269A6)] { (h.setV 10 (v32 [5])).setV 13 (v32 [n]) with vl := 1 }
     vOf 15 32 0 (after (.vfshL .base 15 10 13 0 false) (s 30)) = 1 ∧ vOf 15 32 0 (after (.vfshL .base 15 10 13 0 false) (s 0)) = 0) ∧
    (let s := base [] fun h => xs [(8, 0x269A6)] { h.setV 1 (v32 [3, 3, 5, 5]) with vl := 4 }
     (List.range 4).map (fun e => vOf 2 32 e (after (.vscan .base 2 1 0 .add false) s)) = [3, 6, 11, 16]) := by decide +kernel

/-- R74, R164: a NaN of f32 is unordered; not-a-real of tap16 is below zero and equal to itself. -/
theorem test_compare :
    let m := fun (s : State) c => ((after (.vcmp .base 2 1 2 0 c false) s).h.getM 2).toNat
    (let s := base [] fun h => { (h.setV 1 (v32 [0x7FC00000])).setV 2 (v32 [0]) with vl := 1 }
     m s .lt = 0 ∧ m s .un = 1 ∧ m s .ne = 1) ∧
    (let s := base [] fun h => xs [(8, 0x9249)] { (h.setV 1 (v32 [0x80008000])).setV 2 (v32 [0x80000000]) with vl := 2 }
     m s .lt = 1 ∧ m s .eq = 2 ∧ m s .un = 0) := by decide +kernel

/-- The worked `vstu`: x7 = 11 under m3 leaves byte 2 of memory. -/
theorem test_vstu :
    let s := base (List.replicate 16 0xEE) fun h => xs [(6, 0x10000), (7, 11)] ((h.setV 5 { bits := 0x0B0A090807060504030201 }).setM 3 0b11111111011)
    (after (.fenceVs .base) (after (.vstu (.ext { extOf 0 0 with g1 := 3 }) 5 6 7 false false) s)).rawRead 0x200000 12 = 0xEE0B0A090807060504EE0201 := by
  decide +kernel

/-- R137, R125: a load whose second element lies in a page that is not mapped loads the first and names the second. -/
theorem test_restart :
    let s := base [5] fun h => xs [(1, 0x10000), (2, 0x100000000)] { h with vl := 2 }
    let t := after (.vlds .base 3 1 2 0 false false) s
    vOf 3 8 0 t = 5 ∧ t.h.cause = { code := 0x20 } ∧ t.h.tval = 0x100010000 ∧ t.h.ves = { rst := true, cm := 0, idx := 1 } ∧ t.h.epc = 0x10000 := by
  decide +kernel

/-- The worked image of R234 under a limit of one pair: the pair, the status and `fprog`. -/
theorem test_fld :
    let s := base [2, 0, 0, 0, 9, 0, 0, 0, 3, 0, 0, 0, 0, 0x48, 0, 0, 9, 0, 0, 0, 0, 0xB0, 0, 0] (xs [(6, 0x10000), (9, 1)])
    let t := after (.fld .base 4 6 9 false false) s
    t.h.getF 4 = [⟨3, 0x4800, false, false⟩] ∧ xOf 9 t = 0x8000000000000001 ∧ t.h.fprog = 0x8000400000000001 ∧ t.h.pc = 0x10004 := by decide +kernel

/-- The worked `fsort.add` and `fwalk.p`. -/
theorem test_fibres :
    (let s := base [] fun h => xs [(9, 0x9249)] (h.setF 4 [⟨7, 0x4000, false, false⟩, ⟨2, 0x3000, false, false⟩, ⟨7, 0x5800, false, false⟩])
     ((after (.fsort .base 4 4 1 .add false) s).h.getF 4).map (fun p => (p.crd.toNat, p.val.toNat)) = [(2, 0x3000), (7, 0x6000)]) ∧
    (let bs := leBytes 8 0x10040 ++ leBytes 8 0x10080 ++ leBytes 8 0x100C0 ++ leBytes 8 3 ++ List.replicate 32 0 ++
       leBytes 4 0 ++ leBytes 4 2 ++ leBytes 4 2 ++ leBytes 4 5 ++ List.replicate 48 0 ++
       leBytes 4 1 ++ leBytes 4 6 ++ leBytes 4 0 ++ leBytes 4 3 ++ leBytes 4 9
     let s := base bs fun h => xs [(7, 0x10000)] (h.setF 5 [⟨0, 2, false, false⟩])
     ((after (.fwalk .base 6 5 7 false false) s).h.getF 6).map (fun p => (p.crd.toNat, p.val.toNat)) = [(0, 2), (3, 3), (9, 4)]) := by decide +kernel

/-- R192 to R194: an atomic addition to the scratchpad, and a comparison that fails. -/
theorem test_atomics :
    let s := locals (xs [(6, 64), (7, 5)])
    let t := after (.amo .base 5 6 7 .add false true) s
    xOf 5 t = 0 ∧ leNat ((localRead (t.localOf (.sp 1)) 64 4).map (·.1)) = 5 ∧
    (let u := after (.cas .base 7 6 7 false true) s
     xOf 7 u = 0 ∧ leNat ((localRead (u.localOf (.sp 1)) 64 4).map (·.1)) = 0) := by decide +kernel

/-- R201, R202: the last arrival completes the phase. -/
theorem test_barrier :
    let t := after (.barArrive .base 5 1 2) (barState 1 { phase := 7 })
    xOf 5 t = 7 ∧ ((t.gangOf 1).bind fun g => g.bars[1]?.map fun b => (b.phase.toNat, b.arr, b.mask.toNat)) = some (8, 0, 0) ∧ t.h.evtBar = true := by
  decide +kernel

/-- R39 and log 12: a placed word is fetched at the program counter and runs; the next one is fetched after it. -/
theorem test_fetch :
    (match step (State.reset.withFetchWord 32 0x00A20604) with | .next t => t.h.pc.toNat | _ => 0) = 0x10004 ∧
    (match step (State.reset.withFetchWord 32 0x2BC09408) with | .next t => (t.h.getX 10).toNat | _ => 0) = 700 := by decide +kernel

end Sys2Proof.Tests
end

section
/-! # The engines together: what each proof of the family rests on -/

namespace Sys2Proof.Together
open Sys2Proof Sys2Proof.Machine Sys2Proof.Claims

/-! ## The execution monad -/
section
variable {α β : Type} {s t : State}

theorem bind_ok {m : M α} {f : α → M β} {a : α} (h : m s = (.ok a, t)) : (m >>= f) s = f a t := by
  show (match m s with | (x, u) => ExceptT.bindCont f x u) = f a t
  rw [h]; rfl

theorem bind_error {m : M α} {f : α → M β} {e : Exc} (h : m s = (.error e, t)) : (m >>= f) s = (.error e, t) := by
  show (match m s with | (x, u) => ExceptT.bindCont f x u) = _
  rw [h]; rfl
end

/-! ## How a convoy of one member begins and ends -/

theorem begin_eq (i : Instr) (s : State) : s.begin i = { s with cv := (s.begin i).cv, h0 := (s.begin i).h0 } := by
  unfold State.begin; split <;> rfl

/-- The hart after a member that retired as the last of its convoy, one that an `eret` resumed or not (R109, R111). -/
def retiredAs (i : Instr) (resumed : Bool) (h : Hart) : Hart :=
  { h with pc := h.pc + BitVec.ofNat 64 (instrLen i), park := none, ves := if resumed then { } else h.ves,
           vcm := if resumed then 0 else h.vcm }

theorem begin_cv_of_alone {s : State} (i : Instr) (h : alone s = true) :
    (s.begin i).cv.active = true ∧ (s.begin i).cv.pend = false ∧ (s.begin i).cv.popped = 0 ∧ (s.begin i).cv.marks = [] ∧
      (s.begin i).cv.resumed = resumedNow s := by
  unfold alone at h
  unfold resumedNow
  cases hc : s.cv.active
  · rw [State.begin_of_idle hc]
    exact ⟨rfl, rfl, rfl, rfl, rfl⟩
  · rw [State.begin_of_active hc]
    simp [hc] at h
    exact ⟨hc, h.1.1, h.2, h.1.2, rfl⟩

/-- A member that begins its convoy and ends it retires, whatever accesses it made: those are marked when it ends. -/
theorem run_retires {i : Instr} {body : M Unit} {s u : State} {ms : List (TlbEntry × Bool)} (ha : alone s = true)
    (hk : isChained i = false) (hb : body (s.begin i) = (.ok (), u)) (hcv : u.cv = { (s.begin i).cv with marks := ms }) :
    run i body s = (ms.foldl (fun (s : State) m => s.setAccDrt m.1 m.2)
      { u with h := retiredAs i (resumedNow s) u.h, ended := .retired }).idle := by
  obtain ⟨hact, hp, hpop, -, hres⟩ := begin_cv_of_alone i ha
  rw [run_ok hb, State.retireMember_last (by rw [hcv]; exact hp) hk,
    State.countPops_of_none (by rw [State.pass_cv, hcv]; exact hpop)]
  have h1 : u.cv.active = true := by rw [hcv]; exact hact
  have h2 : u.cv.resumed = resumedNow s := by rw [hcv]; exact hres
  have h3 : u.cv.marks = ms := by rw [hcv]
  unfold State.finish
  rw [if_pos (by simpa using h1)]
  unfold State.close State.retireConvoy
  cases hr : resumedNow s
  all_goals
    simp [h1, h2, h3, hr, retiredAs, State.pass, State.mapH]

/-- The same for a member that made no access and changed nothing but its hart. -/
theorem run_retires_unmarked {i : Instr} {body : M Unit} {s : State} {h : Hart} (ha : alone s = true) (hk : isChained i = false)
    (hb : body (s.begin i) = (.ok (), { s.begin i with h := h })) :
    (run i body s).h = retiredAs i (resumedNow s) h ∧ RestSame s (run i body s) := by
  have hm : (s.begin i).cv.marks = [] := (begin_cv_of_alone i ha).2.2.2.1
  have hr := run_retires (ms := []) ha hk hb (by rw [← hm])
  rw [hr, begin_eq]
  exact ⟨rfl, fun _ => rfl, rfl⟩

/-- A cause before effect of a member that begins its convoy (R110, R112). -/
theorem run_before {i : Instr} {body : M Unit} {s : State} {code : Nat} {tval : DWord} (ha : s.cv.active = false)
    (hb : body (s.begin i) = (.error (.trap { kind := .before, code := code, tval := tval }), s.begin i)) :
    Entered code tval s.h.pc s (run i body s) := by
  rw [run_error hb]
  show Entered code tval s.h.pc s ((s.begin i).endExc i (.trap _) id)
  rw [State.endExc_before rfl, State.begin_of_idle ha]
  exact ⟨rfl, fun _ => rfl, rfl⟩

/-- The chain bit is bit 8 of word 0 (R41): a word whose low nine bits are below it has none. -/
theorem unchained {i : Instr} (h : encodeWord0 i % 512 < 256) : isChained i = false := by
  simp only [isChained, flag, beq_eq_false_iff_ne]
  omega

/-- A plain instruction leaves at the hart what `f` does and the next pc, and `ves` and `vcm` as retirement leaves them. -/
theorem plain_h (fm : Form) (f : Hart → Hart) (s : State) :
    ∃ v c, (plain fm f s).h = { f s.h with pc := (f s.h).pc + BitVec.ofNat 64 fm.len, ves := v, vcm := c } := by
  rw [plain_eq_jump, jump_h]
  split
  · exact ⟨_, _, rfl⟩
  · exact ⟨_, _, rfl⟩

/-! ## Each instruction answers -/

/-- Each meaning answers a next state in every state: none faults, none is refused. -/
theorem exec_next (i : Instr) (s : State) : ∃ t, exec i s = .next t := by
  cases i with
  | vwaitReevaluation h =>
    show ∃ t, execVwaitReevaluation h s = .next t
    unfold execVwaitReevaluation
    split <;> exact ⟨_, rfl⟩
  | gangStart node core parts =>
    show ∃ t, execGangStart node core parts s = .next t
    unfold execGangStart
    simp only []
    repeat' split
    all_goals exact ⟨_, rfl⟩
  | teamRestore node gang core parts =>
    show ∃ t, execTeamRestore node gang core parts s = .next t
    unfold execTeamRestore
    repeat' split
    all_goals exact ⟨_, rfl⟩
  | messageDelivery ch =>
    show ∃ t, execMessageDelivery ch s = .next t
    unfold execMessageDelivery
    split <;> exact ⟨_, rfl⟩
  | bindq tag q bind qb qlog prio weight asn =>
    show ∃ t, execBindq tag q bind qb qlog prio weight asn s = .next t
    unfold execBindq
    simp only []
    repeat' split
    all_goals exact ⟨_, rfl⟩
  | _ => exact ⟨_, rfl⟩

end Sys2Proof.Together
end

section
/-! # Reset, `setvl` and `mts` -/

namespace Sys2Proof.Together
open Sys2Proof Sys2Proof.Machine Sys2Proof.Claims

/-- Settles O1: each part is the field of `State.reset` that it names. -/
theorem resetState : Obligations.ResetState := by
  have hup : ∀ p, State.reset.portUp p = false := fun p => by
    show ((List.replicate 12 ({ } : Port)).getD p { }).up = false
    rw [List.getD_eq_getElem?_getD, List.getElem?_replicate]
    split <;> rfl
  exact ⟨rfl, rfl, fun _ => rfl, fun _ => ⟨rfl, rfl, fun _ => rfl⟩, rfl, rfl, rfl, rfl, rfl, rfl, rfl, rfl, hup, rfl, rfl, rfl⟩

/-! ## `setvl` (R97) -/

theorem grant_le (h : Hart) {w : Nat} (hw : 8 ≤ w) : h.grant w ≤ 2048 := by
  unfold Hart.grant Hart.vbits
  calc 16384 / 2 ^ h.split.toNat / w / (if h.prot then 2 else 1)
      ≤ 16384 / 2 ^ h.split.toNat / w := Nat.div_le_self ..
    _ ≤ 16384 / 2 ^ h.split.toNat / 8 := Nat.div_le_div_left hw (by decide)
    _ ≤ 16384 / 8 := Nat.div_le_div_right (Nat.div_le_self ..)

theorem ewBits_ge (w : BitVec 2) : 8 ≤ ewBits w := Nat.le_mul_of_pos_right 8 (Nat.two_pow_pos _)

/-- Settles O13: `setvl` is plain, and the grant of no width is above what `vl` holds. -/
theorem setvlGrants : Obligations.SetvlGrants := by
  intro fm d a w s g n
  let f : Hart → Hart := fun h => (h.setVl w n).setX d (BitVec.ofNat 64 n)
  have hn : n < 2 ^ 12 := by
    have : g ≤ 2048 := grant_le s.h (ewBits_ge w)
    omega
  obtain ⟨v, c, hh⟩ := plain_h fm f s
  have hv : VesKept s (plain fm f s) := jump_vesKept _ _ (Hart.setX_ves ..) (Hart.setX_vcm ..)
  obtain ⟨x, hx⟩ : ∃ x, f s.h = { s.h.setVl w n with x := x } := ⟨_, Hart.setX_eq ..⟩
  have hr : ∀ r, (f s.h).getX r = if r = 0 then 0 else if r = d then BitVec.ofNat 64 n else s.h.getX r :=
    fun r => Hart.getX_setX (s.h.setVl w n) d r _
  refine ⟨plain fm f s, rfl, ?_, ?_, ?_, fun r => ?_, ?_, hv, jump_restSame _ _, ?_⟩
  · rw [hh, hx]; exact (BitVec.toNat_ofNat ..).trans (Nat.mod_eq_of_lt hn)
  · rw [hh, hx]; rfl
  · rw [hh, hx]; rfl
  · rw [← hr, hh]; rfl
  · show (plain fm f s).h.pc = _
    rw [hh, hx]; rfl
  · rw [hh, hx]; rfl

end Sys2Proof.Together
end

section
/-! ## `mts` (R100, R106 to R108) -/

namespace Sys2Proof.Together
open Sys2Proof Sys2Proof.Machine Sys2Proof.Claims

/-- What a write of a system register does, field by field. -/
theorem sysWrite_eq (h : Hart) (n : BitVec 12) (d : DWord) :
    sysWrite h n.toNat d = { h with
      ew := if n = 0 then d.extractLsb' 12 2 else h.ew
      vl := if n = 0 then BitVec.ofNat 12 (d.toNat % 4096) else h.vl
      strip := if n = 0 then h.strip + 1 else h.strip
      ves := if n = 2 ∧ h.status.prv then { rst := d.getLsbD 63, cm := d.extractLsb' 12 2, idx := d.extractLsb' 0 12 } else h.ves
      vcm := if (0x20 ≤ n.toNat ∧ n.toNat < 0x40) ∧ h.status.prv then setBits h.vcm (64 * (n.toNat - 0x20)) 64 d.toNat else h.vcm
      sseed := if n = 4 then d else h.sseed
      sbase := if n = 5 then d else h.sbase
      fprog := if n = 8 then d else h.fprog
      vdirty := if n = 0x10 ∧ h.status.prv then h.vdirty &&& ~~~(d &&& h.rangeMask) else h.vdirty
      vlive := if n = 0x11 then (h.vlive &&& ~~~h.rangeMask) ||| (d &&& h.rangeMask) else h.vlive
      status := if n = 0x100 ∧ h.status.prv then { h.status with nest := h.status.nest && !d.getLsbD 11, pie := d.getLsbD 3,
                                                                 ie := d.getLsbD 2, pprv := d.getLsbD 1 } else h.status
      cause := if n = 0x101 then { int := d.getLsbD 63, acode := d.extractLsb' 8 8, code := d.extractLsb' 0 8 } else h.cause
      epc := if n = 0x102 then d &&& 0x01FFFFFFFFFFFFFC#64 else h.epc
      tval := if n = 0x103 then d else h.tval
      tvec := if n = 0x104 then d &&& 0x01FFFFFFFFFFFFC0#64 else h.tvec
      sscr := if n = 0x105 then d else h.sscr
      evtCpy := h.evtCpy && !(n == 0x106 && d.getLsbD 1)
      evtMsg := h.evtMsg && !(n == 0x106 && d.getLsbD 2)
      evtChld := h.evtChld && !(n == 0x106 && d.getLsbD 3)
      evtBar := h.evtBar && !(n == 0x106 && d.getLsbD 4)
      emask := if n = 0x107 then d.setWidth 6 else h.emask
      tcmp := if n = 0x108 then d else h.tcmp } := by
  have beq : ∀ k : BitVec 12, (n == k) = decide (n.toNat = k.toNat) := fun k => by
    rw [Bool.beq_eq_decide_eq]; simp [BitVec.toNat_inj]
  simp only [beq, ← BitVec.toNat_inj (x := n), BitVec.reduceToNat]
  generalize n.toNat = k
  by_cases hm : 0x20 ≤ k ∧ k < 0x40
  · obtain ⟨lo, hi⟩ := hm
    have ne : ∀ j, j < 0x20 ∨ 0x40 ≤ j → ¬k = j := fun j hj => by omega
    cases hp : h.status.prv <;> simp [sysWrite, lo, hi, ne, hp]
  · unfold sysWrite
    simp only [hm, if_false, false_and]
    split
    case h_17 => simp_all
    all_goals cases hp : h.status.prv <;> simp_all [Hart.setVl]

theorem mtsBody_write {i : Instr} {a : BitVec 6} {n : Nat} {s : State} (hp : (supervisorOnly n && !s.h.status.prv) = false)
    (hg : ¬(n = 0 ∧ s.h.grant (ewBits ((s.h.getX a).extractLsb' 12 2)) < (s.h.getX a).toNat % 4096)) :
    mtsBody i a n s = (.ok (), { s with h := sysWrite s.h n (s.h.getX a) }) := by
  unfold mtsBody
  rw [bind_ok (show getH s = (.ok s.h, s) from rfl)]
  simp only [hp, hg, if_false, Bool.false_eq_true]
  rfl

theorem mtsBody_privileged {i : Instr} {a : BitVec 6} {n : Nat} {s : State} (hp : (supervisorOnly n && !s.h.status.prv) = true) :
    mtsBody i a n s = (.error (.trap { kind := .before, code := 3, tval := word0 i }), s) := by
  unfold mtsBody
  rw [bind_ok (show getH s = (.ok s.h, s) from rfl)]
  simp only [hp, if_true]
  rfl

theorem mtsBody_grant {i : Instr} {a : BitVec 6} {s : State} 
    (hg : s.h.grant (ewBits ((s.h.getX a).extractLsb' 12 2)) < (s.h.getX a).toNat % 4096) :
    mtsBody i a 0 s = (.error (.trap { kind := .before, code := 0x11, tval := s.h.getX a }), s) := by
  unfold mtsBody
  rw [bind_ok (show getH s = (.ok s.h, s) from rfl)]
  simp only [hg, show supervisorOnly 0 = false from rfl, Bool.false_and, and_self, if_true, if_false, Bool.false_eq_true]
  rfl

theorem supervisorOnly_iff (n : Nat) : supervisorOnly n = true ↔ n = 0x11 ∨ (0x101 ≤ n ∧ n ≤ 0x105) := by
  simp [supervisorOnly]

theorem isChained_mts (fm : Form) (a : BitVec 6) (n : BitVec 12) : isChained (.mts fm a n) = false :=
  unchained (by
    have := Laws.formCode_lt fm
    show (fm.code + 0x8000018 + a.toNat * 0x200 + n.toNat * 0x8000) % 512 < 256
    omega)

theorem getLsbD_rangeMask (h : Hart) {i : Nat} (hi : i < 64) :
    h.rangeMask.getLsbD i = decide (i < 56 + 8 / 2 ^ h.split.toNat) := by
  rw [Hart.rangeMask, BitVec.getLsbD_ofNat, Nat.testBit_two_pow_sub_one]
  simp [hi]

theorem getLsbD_clear_rangeMask (h : Hart) (x : DWord) {i : Nat} (hi : i < 64) :
    (h.vdirty &&& ~~~(x &&& h.rangeMask)).getLsbD i =
      (h.vdirty.getLsbD i && !(x.getLsbD i && decide (i < 56 + 8 / 2 ^ h.split.toNat))) := by
  rw [BitVec.getLsbD_and, BitVec.getLsbD_not, BitVec.getLsbD_and, getLsbD_rangeMask h hi, decide_eq_true hi, Bool.true_and]

theorem getLsbD_put_rangeMask (h : Hart) (x : DWord) {i : Nat} (hi : i < 64) :
    ((h.vlive &&& ~~~h.rangeMask) ||| (x &&& h.rangeMask)).getLsbD i =
      if i < 56 + 8 / 2 ^ h.split.toNat then x.getLsbD i else h.vlive.getLsbD i := by
  rw [BitVec.getLsbD_or, BitVec.getLsbD_and, BitVec.getLsbD_and, BitVec.getLsbD_not, getLsbD_rangeMask h hi, decide_eq_true hi]
  split <;> simp [*]

/-- The 64 bits of `vcm` that register 0x20 + k shows are its bits from 64k on (R106). -/
theorem getLsbD_setBits_vcm (b : BitVec 2048) (x : DWord) {n i : Nat} (hn : 0x20 ≤ n) (hi : i < 2048) :
    (setBits b (64 * (n - 0x20)) 64 x.toNat).getLsbD i = if n = 0x20 + i / 64 then x.getLsbD (i % 64) else b.getLsbD i := by
  rw [getLsbD_setBits]
  by_cases hq : n = 0x20 + i / 64
  · rw [if_pos (by omega), if_pos hq, BitVec.getLsbD, show i - 64 * (n - 0x20) = i % 64 by omega]
  · rw [if_neg (by omega), if_neg hq]

/-- A mask over a field of consecutive bits keeps the field and clears the rest. -/
theorem toNat_and_field (x m : DWord) (lo w : Nat) (hm : m.toNat = (2 ^ w - 1) * 2 ^ lo) :
    (x &&& m).toNat = x.toNat % 2 ^ (lo + w) / 2 ^ lo * 2 ^ lo := by
  rw [BitVec.toNat_and, hm]
  refine Nat.eq_of_testBit_eq fun i => ?_
  rw [Nat.testBit_and, Nat.testBit_mul_two_pow, Nat.testBit_mul_two_pow, Nat.testBit_two_pow_sub_one, Nat.testBit_div_two_pow,
    Nat.testBit_mod_two_pow]
  by_cases h1 : lo ≤ i
  · by_cases h2 : i < lo + w
    · simp [h1, h2, Nat.sub_add_cancel h1, show i - lo < w by omega]
    · simp [h1, h2, Nat.sub_add_cancel h1, show ¬i - lo < w by omega]
  · simp [h1]

theorem grant_ewBits (h : Hart) (x : DWord) : h.grant (ewBits (x.extractLsb' 12 2)) =
    16384 / 2 ^ h.split.toNat / (8 * 2 ^ (x.toNat / 4096 % 4)) / (if h.prot then 2 else 1) := by
  simp [Hart.grant, Hart.vbits, ewBits, Nat.shiftRight_eq_div_pow]

/-- Settles O16: the body writes by `sysWrite_eq` or raises its cause, and each field is read off that. -/
theorem mtsWrites : Obligations.MtsWrites := by
  refine ⟨?_, ?_, ?_⟩
  · intro fm a n s x only p here ha hs hg
    have hn : ∀ k, k < 4096 → (n = BitVec.ofNat 12 k ↔ n.toNat = k) := fun k hk => by
      constructor
      · rintro rfl; simpa using hk
      · intro h; rw [← h]; simp
    have hpriv : (supervisorOnly n.toNat && !s.h.status.prv) = false := by
      cases hq : s.h.status.prv
      · have : ¬ (supervisorOnly n.toNat = true) := fun h => by
          have := hs ((supervisorOnly_iff _).1 h)
          simp [p, hq] at this
        simpa using this
      · simp
    have hgr : ¬(n.toNat = 0 ∧ s.h.grant (ewBits (x.extractLsb' 12 2)) < x.toNat % 4096) := fun ⟨h0, hlt⟩ => by
      rw [grant_ewBits] at hlt
      exact absurd (hg ((hn 0 (by decide)).2 h0)) (by omega)
    have hb : mtsBody (.mts fm a n) a n.toNat (s.begin (.mts fm a n)) = (.ok (), { s.begin (.mts fm a n) with h := sysWrite s.h n.toNat x }) := by
      rw [mtsBody_write (by rw [State.begin_h]; exact hpriv) (by rw [State.begin_h]; exact hgr), State.begin_h]
    obtain ⟨hh, hrest⟩ := run_retires_unmarked ha (isChained_mts fm a n) hb
    rw [sysWrite_eq] at hh
    refine ⟨run _ _ s, rfl, ?_, hrest, ?_⟩
    · show (run _ _ s).h.pc = _
      rw [hh]; rfl
    rw [hh]
    refine ⟨rfl, ?vl, ?ew, rfl, rfl, rfl, ?vdirty, ?vlive, rfl, ?vcm, ?status, rfl, ?epc, rfl, ?tvec, rfl, rfl, rfl, rfl, rfl, ?emask,
      rfl, rfl⟩
    case vl =>
      refine (apply_ite BitVec.toNat ..).trans (if_congr Iff.rfl ?_ rfl)
      simp
    case ew =>
      refine (apply_ite BitVec.toNat ..).trans (if_congr Iff.rfl ?_ rfl)
      simp [Nat.shiftRight_eq_div_pow]
    case epc => exact (apply_ite BitVec.toNat ..).trans (if_congr Iff.rfl (toNat_and_field x _ 2 55 rfl) rfl)
    case tvec => exact (apply_ite BitVec.toNat ..).trans (if_congr Iff.rfl (toNat_and_field x _ 6 51 rfl) rfl)
    case emask =>
      refine (apply_ite BitVec.toNat ..).trans (if_congr Iff.rfl ?_ rfl)
      simp
    case vdirty =>
      intro i hi
      refine (apply_ite (BitVec.getLsbD · i) ..).trans ?_
      rw [getLsbD_clear_rangeMask s.h x hi]
      by_cases hq : n = 0x10 ∧ p
      · rw [if_pos hq, decide_eq_true hq, Bool.true_and]
      · rw [if_neg hq, decide_eq_false hq, Bool.false_and, Bool.false_and, Bool.not_false, Bool.and_true]
    case vlive =>
      intro i hi
      refine (apply_ite (BitVec.getLsbD · i) ..).trans ?_
      rw [getLsbD_put_rangeMask s.h x hi]
      by_cases hq : n = 0x11
      · rw [if_pos hq]
        exact if_congr (by simp [hq, here]) rfl rfl
      · rw [if_neg hq, if_neg fun h => hq h.1]
    case vcm =>
      intro i hi
      refine (apply_ite (BitVec.getLsbD · i) ..).trans ?_
      cases resumedNow s
      case true => exact BitVec.getLsbD_zero
      case false =>
        refine (apply_ite (BitVec.getLsbD · i) ..).trans ?_
        by_cases hq : (0x20 ≤ n.toNat ∧ n.toNat < 0x40) ∧ s.h.status.prv = true
        · rw [if_pos hq, getLsbD_setBits_vcm _ _ hq.1.1 hi]
          exact if_congr (and_iff_right hq.2).symm rfl rfl
        · rw [if_neg hq]
          exact (if_neg fun ⟨h1, h2⟩ => hq ⟨by omega, h1⟩).symm
    case status =>
      refine if_ctx_congr Iff.rfl (fun ⟨_, hp⟩ => ?_) (fun _ => rfl)
      have hprv : s.h.status.prv = true := hp
      simp only [hprv]
  · intro fm a n s hn hp hc
    refine ⟨_, rfl, run_before hc (mtsBody_privileged ?_)⟩
    rw [State.begin_h, hp, (supervisorOnly_iff _).2 hn]; rfl
  · intro fm a s x hg hc
    refine ⟨_, rfl, run_before hc ?_⟩
    show mtsBody _ a 0 _ = _
    rw [mtsBody_grant (by rw [State.begin_h, grant_ewBits]; exact hg), State.begin_h]
end Sys2Proof.Together
end

section
/-! # Three statements that do not hold -/

namespace Sys2Proof.Together
open Sys2Proof Sys2Proof.Machine Sys2Proof.Claims

/-! ## The framing of a convoy -/

/-- The page of address space 0 at 0 as a translation cache holds it: at physical 0, readable, writable and executable. -/
def pageEntry : TlbEntry := { core := 0, asn := 0, va := 0, size := 65536, leaf := 0x1D, pte := 0x1000 }

/-- The pc stands two bytes before the end of a sector: the word there has its upper half in the next sector. The page's accessed bit is
set. -/
def straddling : State :=
  { State.reset with h := { State.reset.h with pc := 62 }, mem := [(64, 1), (0x1000, 0x80)], tlb := [pageEntry] }

def framedMembers (s : State) : List (List Nat) := match s.frame.1 with | .ok f => f.members | .error _ => []

theorem straddling_holdsWords : holdsWords straddling straddling.h.pc [0x10000] :=
  ⟨⟨62, 0, by decide +kernel, by decide +kernel, by decide +kernel⟩, trivial⟩

theorem framedMembers_straddling : framedMembers straddling = [[0]] := by decide +kernel

/-- Refutes O18: its framing part holds of every pc, and where the pc stands two bytes before the end of a sector the word fetched ends with
the sector, so that the convoy that the bytes hold is not the one framed. -/
theorem not_trapEntryAndReturn : ¬ Obligations.TrapEntryAndReturn := by
  intro ⟨_, _, hframe, _⟩
  obtain ⟨hwords, _⟩ := hframe straddling none [[0x10000]] 0 0 0 { members := [], bad := none }
  obtain ⟨hgood, _⟩ := hwords rfl straddling_holdsWords (by decide)
  have h := hgood ⟨rfl, by decide, fun i hi => absurd hi (by omega), by decide, fun hi => absurd hi (by decide)⟩
  have hm := framedMembers_straddling
  rw [framedMembers, h] at hm
  exact absurd hm (by decide)

/-! ## A store of `diag.st` -/

/-- A hart in supervisor mode that stores to address 0. The table entry has its accessed and dirty bits set, and the list that memory is
names the byte at 0 twice: what stands first is what is read. -/
def doubledByte : State :=
  { State.reset with
    h := { State.reset.h with status := { State.reset.h.status with prv := true } }
    mem := [(0, 1), (0, 2), (0x1000, 0x80), (0x1001, 1)], tlb := [pageEntry] }

def storeZero : Instr := .diagSt .base 0 0 0 .global

/-- The store of zeros takes the first of the two away, and the other shows. -/
theorem doubledByte_stored : (match exec storeZero doubledByte with | .next u => cellsGet u.mem 0 | _ => 0) = 2 := by decide +kernel

/-- Refutes O58: it speaks of every list that memory may be, and one that lists a byte twice does not read zero after `diag.st` has stored a
zero there. -/
theorem not_sealEngine : ¬ Obligations.SealEngine := by
  intro ⟨hins, _⟩
  obtain ⟨_, _, _, hstored, _⟩ := hins .base 0 0 0 0 .global doubledByte
  obtain ⟨hflip, _⟩ := hstored 0 0 (by decide +kernel) (by decide +kernel) (by decide +kernel) rfl (by decide +kernel) (by decide +kernel)
    (by decide +kernel)
  obtain ⟨u, hu, ⟨_, _, _, hmem⟩, _⟩ := hflip (by decide +kernel) (by decide +kernel)
  have h2 := doubledByte_stored
  rw [storeZero, hu] at h2
  have h0 := hmem 0
  rw [if_pos ⟨le_rfl, by decide⟩] at h0
  exact absurd (h0.symm.trans h2) (by decide +kernel)

/-! ## Rollback of a block whose bytes are zero -/

/-- The convoy in execution is `c`, memory is `m`, no region is sealed, and nothing of it has an error. -/
structure Bare (m : List Host.Cell) (c : Convoy) (s : State) : Prop where
  cv : s.cv = c
  mem : s.mem = m
  regions : s.regions = []
  psn : s.psn = []
  ecc : s.ecc = []
  eccTag : s.eccTag = []
  eccMeta : s.eccMeta = []
  badTag : s.badTag = []
  badMeta : s.badMeta = []
  badTree : s.badTree = []
  tagXor : s.tagXor = []
  raw : s.raw = []
  quar : s.quar = []

/-- Zeros from address `b` on leave the list as it is. -/
def KeepsZeros (m : List Host.Cell) (b : Nat) : Prop := ∀ a < b, cellsSet m a 0 = m

section
variable {m : List Host.Cell} {c : Convoy} {s : State}

theorem Bare.region (hs : Bare m c s) (r : Nat) : (s.region r).kidx = 0 := by simp [State.region, hs.regions]

theorem Bare.isLost (hs : Bare m c s) (sec : Nat) : s.isLost sec = false := by
  simp [State.isLost, State.eccOf, State.tagErr, hs.psn, hs.ecc, hs.eccTag]

theorem Bare.correct (hs : Bare m c s) (w : Who) (sec loc key va : Nat) : s.correct w sec loc key va = s := by
  simp [State.correct, State.eccOf, State.tagErr, hs.ecc, hs.eccTag]

theorem Bare.fetchCtr (hs : Bare m c s) (w : Who) (r key va : Nat) : s.fetchCtr w r key va = s := by
  simp [State.fetchCtr, hs.eccMeta]

theorem Bare.readSector (hs : Bare m c s) (w : Who) (sec va : Nat) : s.readSector w sec 0 va = (.data, s) := by
  unfold State.readSector
  simp [hs.region, hs.isLost, hs.correct, hs.fetchCtr, hs.quar, hs.badMeta, hs.badTree]

theorem cellsWrite_zeros {b a : Nat} (hm : KeepsZeros m b) (n : Nat) (h : a + n ≤ b) :
    cellsWrite m a (List.replicate n 0) = m := by
  induction n generalizing a with
  | zero => rfl
  | succ n ih =>
    show cellsWrite (cellsSet m a 0) (a + 1) (List.replicate n 0) = m
    rw [hm a (by omega)]
    exact ih (by omega)

theorem Bare.storeSector (hs : Bare m c s) {b pa : Nat} (hm : KeepsZeros m b) (h : pa + 64 ≤ b) :
    Bare m c (s.storeSector pa (List.replicate 64 0) false) := by
  have hw := cellsWrite_zeros hm 64 h
  have hl : (List.replicate 64 (0 : Byte)).length = 64 := List.length_replicate
  generalize List.replicate 64 (0 : Byte) = bs at hw hl
  constructor <;> simp [State.storeSector, hs.cv, hs.mem, hw, hl, hs.regions, hs.psn, hs.ecc, hs.eccTag, hs.eccMeta, hs.badTag, hs.badMeta, hs.badTree,
    hs.tagXor, hs.raw, hs.quar, natErase]

theorem Bare.writeSector (hs : Bare m c s) {b pa : Nat} (hm : KeepsZeros m b) (h : pa + 64 ≤ b) (w : Who) (va : DWord) :
    Bare m c (s.writeSector w pa 0 va (List.replicate 64 0) false) := by
  have heq : s.writeSector w pa 0 va (List.replicate 64 0) false = s.storeSector pa (List.replicate 64 0) false := by
    unfold State.writeSector
    simp [hs.region, hs.fetchCtr, hs.quar, hs.badMeta, hs.badTree]
  rw [heq]
  exact hs.storeSector hm h

theorem Bare.withFab (hs : Bare m c s) (f : Fabric) : Bare m c { s with fab := f } :=
  ⟨hs.cv, hs.mem, hs.regions, hs.psn, hs.ecc, hs.eccTag, hs.eccMeta, hs.badTag, hs.badMeta, hs.badTree, hs.tagXor, hs.raw, hs.quar⟩

/-- A copy of a block that reads zero leaves such a memory. -/
theorem Bare.copyBlock (hs : Bare m c s) {b src dst : Nat} (hm : KeepsZeros m b) (hdst : 65536 * (dst + 1) ≤ b)
    (hsrc : ∀ a, 65536 * src ≤ a → a < 65536 * (src + 1) → cellsGet m a = 0) : Bare m c (s.copyBlock src 0 dst 0) := by
  have hread : ∀ i < 1024, cellsRead m (64 * (1024 * src + i)) 64 = List.replicate 64 0 := fun i hi =>
    List.eq_replicate_iff.2 ⟨cellsRead_length .., fun x hx => by
      obtain ⟨k, hk, rfl⟩ := List.mem_map.1 hx
      have := List.mem_range.1 hk
      exact hsrc _ (by omega) (by omega)⟩
  have hstep : ∀ s, Bare m c s → ∀ i ∈ List.range 1024,
      Bare m c (s.writeSector { } (64 * (1024 * dst + i)) 0 0 (cellsRead s.mem (64 * (1024 * src + i)) 64) false) := fun s hs i hi => by
    have := List.mem_range.1 hi
    rw [hs.mem, hread i this]
    exact hs.writeSector hm (by omega) _ _
  unfold State.copyBlock
  refine Bare.withFab (List.foldlRecOn (List.range 1024) _ hs fun s hs i hi => ?_) _
  rw [hs.readSector]
  exact hstep s hs i hi

theorem Bare.plainSector (hs : Bare m c s) (k : Nat) : plainSector s (64 * k) 0 = true := by
  unfold Claims.plainSector
  simp [hs.region, hs.psn, hs.ecc, hs.eccTag, hs.eccMeta, hs.badMeta, hs.badTree, hs.tagXor, hs.quar, hs.badTag, hs.raw, State.tagFails]
end

/-- A complete snapshot of job 0 that holds block 2 in frame 1, and nothing else. -/
def oneCopy : Snap := { num := 0, st := .complete, copies := [(2, 1)] }

/-- The list does not rise: a zero written below the first address leaves it, and byte 0x20000 stands behind that. -/
def fallingMem : List Host.Cell := [(2 ^ 40, 1), (0x20000, 1)]

/-- A supervisor of another job. -/
def rollsBack : State :=
  { State.reset with
    h := { State.reset.h with live := true, asn := 1, status := { State.reset.h.status with prv := true } }
    mem := fallingMem
    fab := { State.reset.fab with jobs := [{ asn := 0, done := some oneCopy }] } }

def rollBack : Instr := .rollback .base 0 0 0

theorem fallingMem_keepsZeros : KeepsZeros fallingMem (2 ^ 40) := fun a ha => by
  show (if a < 2 ^ 40 then _ else _) = _
  rw [if_pos ha]; rfl

theorem bare_restored {c : Convoy} {s : State} (hs : Bare fallingMem c s) : Bare fallingMem c (s.restoreBlocks oneCopy) := by
  have h := hs.copyBlock (src := 1) (dst := 2) fallingMem_keepsZeros (by decide) (fun a h1 h2 => by
    rw [fallingMem, cellsGet_cons, if_neg (by omega), cellsGet_cons, if_neg (by omega), cellsGet_nil])
  have heq : s.restoreBlocks oneCopy = s.copyBlock 1 0 2 0 := by
    unfold State.restoreBlocks
    rw [show oneCopy.copies.filter (fun c => !oneCopy.shared.contains c.1) = [(2, 1)] from rfl, List.foldl_cons, List.foldl_nil, hs.region]
    rfl
  rw [heq]; exact h

theorem Bare.reinject {m : List Host.Cell} {c : Convoy} {s : State} (hs : Bare m c s) (x : Snap) (e : Nat) : Bare m c (s.reinject x e) := by
  unfold State.reinject
  exact List.foldlRecOn (motive := Bare m c) (List.range 24) _ (hs.withFab _) fun t h ch _ => h.withFab _

theorem Bare.setJob {m : List Host.Cell} {c : Convoy} {s : State} (hs : Bare m c s) (j : Job) : Bare m c (s.setJob j) := hs.withFab _

theorem Bare.restoreRx {m : List Host.Cell} {c : Convoy} {s : State} (hs : Bare m c s) (asn : Nat) (x : Snap) :
    Bare m c (s.restoreRx asn x) := hs.withFab _

theorem recreate_none (s : State) {x : Snap} (h : x.nodes = []) : s.recreate x [] = s := by
  unfold State.recreate
  simp [h]

theorem bare_rollback {c : Convoy} {s : State} (hs : Bare fallingMem c s) (hend : s.allCopiesDone.endSpace 0 = s) (hforget : s.forgetNodes 0 = s)
    (hout : s.outEdges 0 = []) (hdone : (s.job 0).done = some oneCopy) : Bare fallingMem c (s.rollback 0) := by
  unfold State.rollback
  rw [hdone]
  simp only [hend, hforget, hout, hdone]
  rw [Option.getD_some, recreate_none _ rfl]
  exact ((bare_restored (hs.setJob _)).restoreRx _ _).reinject _ _

theorem rollsBack_done : ∃ t, exec rollBack rollsBack = .next t ∧ t.mem = fallingMem := by
  have hs : Bare fallingMem (rollsBack.begin rollBack).cv (rollsBack.begin rollBack) := by constructor <;> rfl
  have hu := bare_rollback hs rfl rfl rfl rfl
  obtain ⟨r, hr⟩ : ∃ r, (rollsBack.begin rollBack).rollback 0 = r := ⟨_, rfl⟩
  rw [hr] at hu
  have hcv : r.cv = { (rollsBack.begin rollBack).cv with marks := [] } := hu.cv
  refine ⟨_, rfl, (congrArg State.mem (run_retires (i := rollBack) (s := rollsBack) (u := { r with h := r.h.setX 0 0 }) rfl (by decide) ?_ hcv)).trans
    hu.mem⟩
  refine (bind_ok (a := ()) (t := rollsBack.begin rollBack) ?_).trans
    ((bind_ok (a := rollsBack.begin rollBack) (t := rollsBack.begin rollBack) ?_).trans ?_)
  · rfl
  · rfl
  rw [if_neg (by decide), if_neg (by decide)]
  refine (bind_ok (a := ()) (t := rollsBack.begin rollBack) ?_).trans ((bind_ok (a := ()) (t := r) ?_).trans ?_)
  · rfl
  · rw [← hr]; rfl
  · rfl

/-- Refutes O56: it speaks of every list that memory may be, and where the list does not rise a rollback that restores a zero byte leaves the
byte that stood there. -/
theorem not_snapshots : ¬ Obligations.Snapshots := by
  intro ⟨hins, _⟩
  obtain ⟨_, _, _, _, _, _, _, _, _, hroll⟩ := hins .base 0 0 0 rollsBack rfl
  obtain ⟨_, _, _, _, hgo⟩ := hroll oneCopy rfl rfl
  obtain ⟨_, hback⟩ := hgo rfl rfl rfl (fun k hk => absurd hk (by simp [oneCopy])) (by decide) rfl rfl
  have hs : Bare fallingMem rollsBack.cv rollsBack := by constructor <;> rfl
  obtain ⟨t, ht, _, hmem, _⟩ := hback (fun g hg => absurd hg (by simp [rollsBack, State.reset])) (by decide) rfl (by decide) (by decide) (by decide)
    (fun c hc _ => by
      obtain rfl : c = (2, 1) := by simpa [oneCopy] using hc
      refine ⟨by decide, fun i _ => ⟨?_, ?_⟩⟩
      · rw [show 65536 * 1 + 64 * i = 64 * (1024 + i) by omega]; exact hs.plainSector _
      · rw [show 65536 * 2 + 64 * i = 64 * (2048 + i) by omega]; exact hs.plainSector _) (by decide)
  obtain ⟨u, hu, humem⟩ := rollsBack_done
  obtain rfl : t = u := by
    have := ht.symm.trans hu
    injection this
  have h := hmem (2, 1) (by decide) (by decide) 0 (by decide)
  rw [humem] at h
  exact absurd h (by decide)

end Sys2Proof.Together
end

section
/-! # Memory and translation without an event -/

namespace Sys2Proof.Together
open Sys2Proof Sys2Proof.Machine Sys2Proof.Claims

/-! ## Bytes of any list -/

/-- What a write of a byte leaves, in a list of any form. -/
theorem cellsGet_cellsSet_ne (l : List Host.Cell) {x z : Nat} (y : Byte) (h : x ≠ z) : cellsGet (cellsSet l x y) z = cellsGet l z := by
  induction l with
  | nil =>
    unfold cellsSet
    split
    · rfl
    · rw [cellsGet_cons, if_neg h]
  | cons c l ih =>
    obtain ⟨a, b⟩ := c
    unfold cellsSet
    split
    · split
      · rfl
      · rw [cellsGet_cons, if_neg h]
    · split
      · rename_i _ hx
        subst hx
        split
        · rw [cellsGet_cons, if_neg h]
        · rw [cellsGet_cons, cellsGet_cons, if_neg h, if_neg h]
      · rw [cellsGet_cons, cellsGet_cons, ih]

theorem cellsGet_cellsWrite_outside (l : List Host.Cell) (a : Nat) (bs : List Byte) {z : Nat} (h : z < a ∨ a + bs.length ≤ z) :
    cellsGet (cellsWrite l a bs) z = cellsGet l z := by
  induction bs generalizing l a with
  | nil => rfl
  | cons b bs ih =>
    rw [List.length_cons] at h
    show cellsGet (cellsWrite (cellsSet l a b) (a + 1) bs) z = _
    rw [ih _ _ (by omega), cellsGet_cellsSet_ne _ _ (by omega)]

/-! ## Sectors that read and are written without an event -/

section
variable {s : State} {pa key : Nat}

/-- What `plainSector` says of a sector, part by part. -/
structure Plain (s : State) (pa key : Nat) : Prop where
  key_eq : (s.region (pa / 4096)).kidx = key
  psn : s.psn.contains (pa / 64) = false
  ecc : ∀ e ∈ s.ecc, e.word / 64 ≠ pa / 64
  eccTag : ∀ e ∈ s.eccTag, e.word ≠ pa / 64
  sram : s.isSram pa = s.isSram (64 * (pa / 64))
  tag : s.tagFails (pa / 64) = false
  tagXor : ∀ x ∈ s.tagXor, x.1 ≠ pa / 64
  hbm : s.isSram pa = false → s.quar.contains (pa / 65536) = false ∧ (∀ e ∈ s.eccMeta, e.word ≠ pa / 4096) ∧
    s.badMeta.contains (pa / 4096) = false ∧ s.badTree.contains (pa / 4096) = false

theorem plain_of (h : plainSector s pa key = true) : Plain s pa key := by
  unfold plainSector at h
  simp only [Bool.and_eq_true, Bool.or_eq_true, Bool.not_eq_true', beq_iff_eq, List.all_eq_true, bne_iff_ne, Nat.div_div_eq_div_mul,
    Nat.reduceMul] at h
  obtain ⟨⟨⟨⟨⟨⟨⟨hk, hp⟩, he⟩, ht⟩, hs⟩, hf⟩, hx⟩, hh⟩ := h
  refine ⟨hk, hp, he, ht, hs, hf, hx, fun h0 => ?_⟩
  rcases hh with h1 | ⟨⟨⟨hq, hm⟩, hb⟩, hr⟩
  · rw [h0] at h1; cases h1
  · exact ⟨hq, hm, hb, hr⟩

theorem Plain.isLost (h : Plain s pa key) : s.isLost (pa / 64) = false := by
  unfold State.isLost State.eccOf State.tagErr
  rw [h.psn, List.filter_eq_nil_iff.2 fun e he => by simpa using h.ecc e he, List.find?_eq_none.2 fun e he => by simpa using h.eccTag e he]
  rfl

theorem Plain.correct (h : Plain s pa key) (w : Who) (loc k va : Nat) : s.correct w (pa / 64) loc k va = s := by
  unfold State.correct State.eccOf State.tagErr
  rw [List.filter_eq_nil_iff.2 fun e he => by simpa using h.ecc e he, List.find?_eq_none.2 fun e he => by simpa using h.eccTag e he]
  rfl

theorem fetchCtr_none {r : Nat} (h : ∀ e ∈ s.eccMeta, e.word ≠ r) (w : Who) (k va : Nat) : s.fetchCtr w r k va = s := by
  unfold State.fetchCtr
  rw [List.find?_eq_none.2 fun e he => by simp [h e he]]

/-- The sector reads as its data, and nothing comes of it. -/
theorem Plain.readSector (h : Plain s pa key) (w : Who) (va : Nat) : s.readSector w (pa / 64) key va = (.data, s) := by
  unfold State.readSector
  simp only [← h.sram, h.isLost, h.correct, Nat.div_div_eq_div_mul, Nat.reduceMul, h.key_eq]
  cases hs : s.isSram pa
  case true => simp
  case false =>
    obtain ⟨hq, hm, hb, hr⟩ := h.hbm hs
    simp only [fetchCtr_none hm, hq, hb, hr, h.tag, h.key_eq, bne_self_eq_false, Bool.and_false, Bool.false_eq_true, if_false]

theorem filter_ne_self {α : Type} {l : List α} {p : α → Bool} (h : ∀ x ∈ l, p x = true) : l.filter p = l := List.filter_eq_self.2 h

/-- A write to part of the sector changes the bytes written, and says so. -/
theorem Plain.storeSector (h : Plain s pa key) {bs : List Byte} (hl : bs.length ≠ 64) :
    s.storeSector pa bs false =
      { s with mem := cellsWrite s.mem pa bs, changed := (s.storeSector pa bs false).changed } := by
  have htag := h.tag
  simp only [State.tagFails, Bool.or_eq_false_iff] at htag
  obtain ⟨⟨hbad, -⟩, hraw⟩ := htag
  have h1 : natErase s.badTag (pa / 64) = s.badTag := filter_ne_self fun x hx => by
    simp only [List.contains_eq_mem, decide_eq_false_iff_not] at hbad
    simp only [bne_iff_ne]
    rintro rfl
    exact hbad hx
  have h2 : (s.tagXor.filter fun x => x.1 != pa / 64) = s.tagXor := filter_ne_self fun x hx => by simpa using h.tagXor x hx
  have h3 : (s.raw.filter fun c => c.1 / 64 != pa / 64) = s.raw := filter_ne_self fun x hx => by
    simpa using (List.any_eq_false.1 hraw) x hx
  have h4 : (s.ecc.filter fun e => e.word / 64 != pa / 64) = s.ecc := filter_ne_self fun x hx => by simpa using h.ecc x hx
  have h5 : (s.eccTag.filter fun e => e.word != pa / 64) = s.eccTag := filter_ne_self fun x hx => by simpa using h.eccTag x hx
  unfold State.storeSector
  simp only [h.isLost, hl, h1, h2, h3, h4, h5, if_false, Bool.false_eq_true]

theorem Plain.writeSector (h : Plain s pa 0) {bs : List Byte} (hl : bs.length ≠ 64) (w : Who) (va : DWord) :
    s.writeSector w pa 0 va bs false = s.storeSector pa bs false := by
  unfold State.writeSector
  simp only [h.isLost, h.correct, hl, h.key_eq, if_false, Bool.false_eq_true, bne_self_eq_false, Bool.and_false, Bool.false_and]
  cases hs : s.isSram pa
  case true => rfl
  case false =>
    obtain ⟨hq, hm, hb, hr⟩ := h.hbm hs
    simp only [fetchCtr_none hm, hq, hb, hr, h.isLost, h.correct, h.key_eq, bne_self_eq_false, Bool.false_eq_true, if_false, ite_self]
end

/-! ## The accessed and dirty bits of a table entry (R135) -/

section
variable {s : State} {e : TlbEntry}

theorem readEntry_plain {pte : Nat} (h : Plain s pte 0) (w : Who) (va : Nat) : s.readEntry w pte va = (.ok (s.rawRead pte 8), s) := by
  unfold State.readEntry
  rw [h.key_eq, h.readSector]

/-- Only bytes of the entry change. -/
theorem setAccDrt_frame (h : Plain s e.pte 0) (wr : Bool) : ∃ m ch, s.setAccDrt e wr = { s with mem := m, changed := ch } ∧
    ∀ a, a < e.pte ∨ e.pte + 8 ≤ a → cellsGet m a = cellsGet s.mem a := by
  unfold State.setAccDrt
  rw [readEntry_plain h]
  dsimp only
  generalize (if wr then 0x180 else 0x80) = b
  split
  · split
    · exact ⟨_, _, rfl, fun _ _ => rfl⟩
    · unfold State.writeEntry
      rw [h.key_eq, h.writeSector (by simp), h.storeSector (by simp)]
      exact ⟨_, _, rfl, fun a ha => cellsGet_cellsWrite_outside _ _ _ (by simpa using ha)⟩
  · exact ⟨_, _, rfl, fun _ _ => rfl⟩

/-- Bits that stand already change nothing. -/
theorem setAccDrt_still (h : Plain s e.pte 0) {wr : Bool}
    (hp : s.rawRead e.pte 8 ||| (if wr then 0x180 else 0x80) = s.rawRead e.pte 8) : s.setAccDrt e wr = s := by
  unfold State.setAccDrt
  rw [readEntry_plain h]
  dsimp only
  rw [if_pos hp, ite_self]
end

end Sys2Proof.Together
end

section
/-! # Translation, for a convoy in execution -/

namespace Sys2Proof.Together
open Sys2Proof Sys2Proof.Machine Sys2Proof.Claims

/-! ## What a convoy carries is no part of memory -/

/-- The same machine with another convoy in execution. -/
def carrying (c : Convoy) (g : Hart) (s : State) : State := { s with cv := c, h0 := g }

section
variable (c : Convoy) (g : Hart) (s : State) (w : Who)

theorem correct_carrying (sec loc key va : Nat) :
    (carrying c g s).correct w sec loc key va = carrying c g (s.correct w sec loc key va) := by
  unfold State.correct
  rw [apply_ite (carrying c g)]
  rfl

theorem fetchCtr_carrying (r key va : Nat) : (carrying c g s).fetchCtr w r key va = carrying c g (s.fetchCtr w r key va) := by
  unfold State.fetchCtr
  rw [show (carrying c g s).eccMeta = s.eccMeta from rfl]
  cases s.eccMeta.find? fun e => e.word == r && !e.lost <;> rfl

theorem quarantine_carrying (kind pa va key : Nat) :
    (carrying c g s).quarantine w kind pa va key = carrying c g (s.quarantine w kind pa va key) := by
  unfold State.quarantine
  rw [apply_ite (carrying c g)]
  rfl

theorem logLost_carrying (cause sec loc key va : Nat) :
    (carrying c g s).logLost w cause sec loc key va = carrying c g (s.logLost w cause sec loc key va) := rfl

theorem poisonRegion_carrying (r key va cause : Nat) :
    (carrying c g s).poisonRegion w r key va cause = carrying c g (s.poisonRegion w r key va cause) := by
  unfold State.poisonRegion
  generalize List.range 64 = l
  rfl

theorem carrying_isSram : (carrying c g s).isSram = s.isSram := rfl
theorem carrying_region : (carrying c g s).region = s.region := rfl
theorem carrying_isLost : (carrying c g s).isLost = s.isLost := rfl
theorem carrying_tagFails : (carrying c g s).tagFails = s.tagFails := rfl
theorem carrying_quar : (carrying c g s).quar = s.quar := rfl
theorem carrying_badMeta : (carrying c g s).badMeta = s.badMeta := rfl
theorem carrying_badTree : (carrying c g s).badTree = s.badTree := rfl

theorem readSector_carrying (sec key va : Nat) :
    (carrying c g s).readSector w sec key va = Prod.map id (carrying c g) (s.readSector w sec key va) := by
  unfold State.readSector
  simp only [correct_carrying, fetchCtr_carrying, quarantine_carrying, logLost_carrying, poisonRegion_carrying, carrying_isSram,
    carrying_region, carrying_isLost, carrying_tagFails, carrying_quar, carrying_badMeta, carrying_badTree,
    apply_ite (Prod.map id (carrying c g)), Prod.map_apply, id]

theorem readEntry_carrying (pte va : Nat) :
    (carrying c g s).readEntry w pte va = Prod.map id (carrying c g) (s.readEntry w pte va) := by
  unfold State.readEntry
  rw [readSector_carrying, show (carrying c g s).region = s.region from rfl]
  obtain ⟨r, t⟩ := s.readSector w.walker (pte / 64) (s.region (pte / 4096)).kidx va
  cases r <;> rfl

theorem walk_carrying (va : Nat) (ls : List Nat) (t : Nat) :
    (carrying c g s).walk w va ls t = Prod.map id (carrying c g) (s.walk w va ls t) := by
  induction ls generalizing s t with
  | nil => rfl
  | cons lvl ls ih =>
    unfold State.walk
    dsimp only
    rw [readEntry_carrying]
    obtain ⟨r, u⟩ := s.readEntry w (t + 8 * vaIndex va lvl) va
    cases r with
    | error d => rfl
    | ok p =>
      simp only [Prod.map_apply, id, ih, apply_ite (Prod.map id (carrying c g))]
      rfl

theorem lookup_carrying (va : Nat) : (carrying c g s).lookup w va = Prod.map id (carrying c g) (s.lookup w va) := by
  unfold State.lookup
  rw [show (carrying c g s).tlb = s.tlb from rfl, show (carrying c g s).spaceOf = s.spaceOf from rfl]
  cases s.tlb.find? fun e => e.core == w.core && e.asn == w.asn && e.va ≤ va && va < e.va + e.size with
  | some e => rfl
  | none =>
    cases s.spaceOf w.asn with
    | none => rfl
    | some sp =>
      dsimp only
      rw [walk_carrying]
      obtain ⟨r, u⟩ := s.walk w va [4, 3, 2, 1, 0] sp.root
      cases r <;> rfl
end

end Sys2Proof.Together
end

section
/-! # Accesses of the hart in focus that meet no event -/

namespace Sys2Proof.Together
open Sys2Proof Sys2Proof.Machine Sys2Proof.Claims

/-! ## A translation that is allowed (R134, R135) -/

theorem walk_psnCause (s : State) (w : Who) (p va : Nat) (ls : List Nat) (t : Nat) :
    s.walk { w with psnCause := p } va ls t = s.walk w va ls t := by
  induction ls generalizing s t with
  | nil => rfl
  | cons lvl ls ih =>
    unfold State.walk
    simp only [ih]
    rfl

theorem lookup_psnCause (s : State) (w : Who) (p va : Nat) : s.lookup { w with psnCause := p } va = s.lookup w va := by
  unfold State.lookup
  simp only [walk_psnCause]

/-- What `mapsBy` says, with the translations that the caches hold afterwards. -/
structure Maps (s : State) (va : Nat) (k : Acc) (e : TlbEntry) (T : List TlbEntry) : Prop where
  lookup : s.lookup (s.who s.h) va = (.ok e, { s with tlb := T })
  below : va < 2 ^ 57
  pte : Plain s e.pte 0
  perm : permCause e.leaf.toNat s.h.status.prv
    (match s.spaceOf s.h.asn with | some sp => sp.keys.contains (leafKey e.leaf.toNat) | none => false) k = 0

theorem maps_of {s : State} {va : Nat} {k : Acc} {e : TlbEntry} (h : mapsBy s va k e = true) : ∃ T, Maps s va k e T := by
  unfold mapsBy at h
  simp only [Bool.and_eq_true, decide_eq_true_eq, beq_iff_eq] at h
  obtain ⟨⟨⟨⟨⟨hb, he⟩, hs⟩, hp⟩, -⟩, hperm⟩ := h
  refine ⟨(s.lookup (s.who s.h) va).2.tlb, ?_, hb, plain_of hp, hperm⟩
  generalize s.lookup (s.who s.h) va = r at he hs ⊢
  obtain ⟨r, t⟩ := r
  cases r with
  | error d => exact absurd he (by simp)
  | ok e' => exact Prod.ext (congrArg Except.ok (by simpa using he)) hs

section
variable {s : State} {va : Nat} {k : Acc} {e : TlbEntry} {T : List TlbEntry}

theorem cowCheck_unshared (h : unshared s e = true) (asn pte pa : Nat) : s.cowCheck asn e.leaf.toNat pte pa = (none, s) := by
  unfold unshared at h
  simp only [Bool.and_eq_true, beq_iff_eq, List.isEmpty_iff] at h
  obtain ⟨hj, hl⟩ := h
  unfold State.cowCheck State.job
  simp [hj, hl, Job.leaves, Job.snaps]

theorem Maps.find (h : Maps s va k e T) (hw : k.writes = true → unshared s e = true) (c : Convoy) (g : Hart) (p : Nat) :
    (carrying c g s).find { s.who s.h with psnCause := p } va k =
      (.ok (e, paBy e va, leafKey e.leaf.toNat), carrying c g { s with tlb := T }) := by
  unfold State.find
  rw [if_neg (Nat.not_le.2 h.below), lookup_psnCause, lookup_carrying, h.lookup]
  dsimp only [Prod.map_apply, id]
  generalize hq : permCause _ _ _ _ = q
  obtain rfl : q = 0 := hq.symm.trans h.perm
  cases hk : k.writes
  · rfl
  · have hcow := cowCheck_unshared (s := carrying c g { s with tlb := T }) (e := e) (hw hk) s.h.asn e.pte (paBy e va)
    rw [if_pos rfl]
    exact congrArg (fun r : Option Denied × State => match r with
      | (some d, s) => (Except.error d, s)
      | (none, s) => (Except.ok (e, paBy e va, leafKey e.leaf.toNat), s)) hcow

/-- The convoy has made one access more. -/
def marking (e : TlbEntry) (wr : Bool) (c : Convoy) : Convoy := { c with marks := c.marks ++ [(e, wr)] }

theorem Maps.findM (h : Maps s va k e T) (hw : k.writes = true → unshared s e = true) (c : Convoy) (g : Hart) (p : Nat) :
    findM { s.who s.h with psnCause := p } va k (carrying c g s) =
      (.ok (.ok (paBy e va, leafKey e.leaf.toNat)), carrying (marking e k.writes c) g { s with tlb := T }) := by
  unfold Machine.findM
  refine (bind_ok (a := carrying c g s) (t := carrying c g s) rfl).trans ?_
  rw [h.find hw]
  rfl

theorem piecesOf_one {a n : Nat} (hn : 0 < n) (h : a % 64 + n ≤ 64) : piecesOf a n = [(a, n)] := by
  obtain ⟨m, rfl⟩ := Nat.exists_eq_succ_of_ne_zero hn.ne'
  unfold piecesOf
  show (if m + 1 = 0 then [] else (a, min (m + 1) (64 - a % 64)) :: pieces (a + min (m + 1) (64 - a % 64)) m (m + 1 - min (m + 1) (64 - a % 64))) = _
  rw [if_neg (by omega), Nat.min_eq_left (by omega), Nat.sub_self]
  cases m <;> rfl

theorem Maps.findAll {a n : Nat} (h : Maps s a k e T) (hw : k.writes = true → unshared s e = true) (c : Convoy) (g : Hart)
    (p : Nat) : findAll { s.who s.h with psnCause := p } k [(a, n)] (carrying c g s) =
      (.ok (.ok [(paBy e a, leafKey e.leaf.toNat, n)]), carrying (marking e k.writes c) g { s with tlb := T }) := by
  have ha : a % 2 ^ 64 = a := Nat.mod_eq_of_lt (h.below.trans (by decide))
  have hf := h.findM hw c g p
  unfold Machine.findAll
  rw [ha]
  refine (bind_ok hf).trans ?_
  dsimp only
  refine (bind_ok (a := .ok []) (t := carrying (marking e k.writes c) g { s with tlb := T }) ?_).trans ?_
  · unfold Machine.findAll; rfl
  · rfl

theorem whoM_carrying (c : Convoy) (g : Hart) : whoM (carrying c g s) = (.ok (s.who s.h), carrying c g s) := rfl

theorem get_carrying (c : Convoy) (g : Hart) : (get : M State) (carrying c g s) = (.ok (carrying c g s), carrying c g s) := rfl

theorem Maps.translateM {x : DWord} {n : Nat} (h : Maps s x.toNat k e T) (hw : k.writes = true → unshared s e = true) (hn : 0 < n)
    (hx : x.toNat % 64 + n ≤ 64) (c : Convoy) (g : Hart) {w : Option Who} {p : Nat} (idx : Nat) (kind : Kind)
    (hwho : w.getD (s.who s.h) = { s.who s.h with psnCause := p }) : translateM x n k kind idx w (carrying c g s) =
      (.ok [(paBy e x.toNat, leafKey e.leaf.toNat, n)], carrying (marking e k.writes c) g { s with tlb := T }) := by
  have hf := h.findAll hw c g p (n := n)
  unfold Machine.translateM
  rw [piecesOf_one hn hx]
  refine (bind_ok (whoM_carrying c g)).trans ?_
  rw [hwho]
  refine (bind_ok (get_carrying c g)).trans ?_
  refine (bind_ok hf).trans ?_
  rfl

/-! ## Loads of global memory (R121) -/

theorem overlay_nil (sp : Space) (b u : Nat) (img : List Byte × Bool) : overlay [] sp b u img = img := rfl

theorem loadSector_clean {t : State} {w : Who} {pa key n va : Nat} (h : Plain t pa key) (hrx : t.inRx w.asn pa va = false)
    (hn : pa % 64 + n ≤ 64) : t.loadSector w [] pa n key va = (some ((cellsRead t.mem pa n).map fun b => (b, false)), t) := by
  have hcut : ((List.range n).map fun i => ((cellsRead t.mem (64 * (pa / 64)) 64).getD (pa % 64 + i) 0, false)) =
      (cellsRead t.mem pa n).map fun b => (b, false) := by
    unfold cellsRead
    rw [List.map_map]
    refine List.map_congr_left fun i hi => ?_
    have hi := List.mem_range.1 hi
    have := cellsRead_getD t.mem (64 * (pa / 64)) 64 (pa % 64 + i) (by omega)
    unfold cellsRead at this
    rw [this, show 64 * (pa / 64) + (pa % 64 + i) = pa + i by omega]
    rfl
  unfold State.loadSector State.loadPlain
  dsimp only
  rw [h.readSector]
  dsimp only
  rw [if_neg (by rw [hrx]; exact Bool.false_ne_true), overlay_nil, hcut]

theorem getH_carrying (c : Convoy) (g : Hart) : getH (carrying c g s) = (.ok s.h, carrying c g s) := rfl

theorem takeEarly_none {t : State} (h : t.h.early = []) (cl : Cls) (sp : Space) (locs : List Nat) :
    takeEarly cl sp locs t = (.ok none, t) := by
  unfold takeEarly
  refine (bind_ok (show getH t = (.ok t.h, t) from rfl)).trans ?_
  rw [h]
  rfl

theorem readPiece_clean {t : State} {w : Who} {x : DWord} {pa key n : Nat} (h : Plain t pa key) (hrx : t.inRx w.asn pa x.toNat = false)
    (hn : pa % 64 + n ≤ 64) (hearly : t.h.early = []) (hpend : t.h.pendingOf .scalar = []) :
    readPiece .scalar w x (pa, key, n) t = (.ok ((cellsRead t.mem pa n).map fun b => (b, false)), t) := by
  unfold readPiece
  refine (bind_ok (takeEarly_none hearly ..)).trans ?_
  dsimp only
  refine (bind_ok (show getH t = (.ok t.h, t) from rfl)).trans ?_
  refine (bind_ok (show (get : M State) t = (.ok t, t) from rfl)).trans ?_
  rw [hpend, loadSector_clean h hrx hn]
  rfl

theorem Maps.loadGlob {x : DWord} {n : Nat} (h : Maps s x.toNat .read e T) (hn : 0 < n) (hx : x.toNat % 64 + n ≤ 64)
    (hclean : cleanSector s x.toNat (paBy e x.toNat) (leafKey e.leaf.toNat) = true) (hpa : paBy e x.toNat % 64 + n ≤ 64)
    (hearly : s.h.early = []) (hpend : s.h.pendingOf .scalar = []) (c : Convoy) (g : Hart) (p : Nat) (kind : Kind) :
    loadGlob .scalar x n kind 0 (some { s.who s.h with psnCause := p }) (carrying c g s) =
      (.ok ((cellsRead s.mem (paBy e x.toNat) n).map fun b => (b, false)), carrying (marking e false c) g { s with tlb := T }) := by
  unfold cleanSector at hclean
  simp only [Bool.and_eq_true, Bool.not_eq_true'] at hclean
  obtain ⟨hplain, hrx⟩ := hclean
  let t := carrying (marking e false c) g { s with tlb := T }
  have ht := h.translateM (fun h => absurd h Bool.false_ne_true) hn hx c g (w := some { s.who s.h with psnCause := p }) 0 kind rfl
  have hr := readPiece_clean (t := t) (w := { s.who s.h with psnCause := p }) (plain_of (show plainSector t _ _ = true from hplain)) hrx hpa
    hearly hpend
  unfold Machine.loadGlob
  refine (bind_ok (whoM_carrying c g)).trans ?_
  refine (bind_ok ht).trans ?_
  have hps : ([(paBy e x.toNat, leafKey e.leaf.toNat, n)].mapM (readPiece .scalar { s.who s.h with psnCause := p } x)) t =
      (.ok [(cellsRead s.mem (paBy e x.toNat) n).map fun b => (b, false)], t) := by
    rw [List.mapM_cons, List.mapM_nil]
    refine (bind_ok hr).trans ?_
    rfl
  refine (bind_ok hps).trans ?_
  rw [List.flatten_singleton]
  rfl

theorem anyPsn_clean (bs : List Byte) : anyPsn (bs.map fun b => (b, false)) = false := by simp [anyPsn]

theorem bytesVal_clean (bs : List Byte) : bytesVal (bs.map fun b => (b, false)) = leNat bs := by
  simp [bytesVal, Function.comp_def]

theorem Maps.loadScalar {x : DWord} {n : Nat} (h : Maps s x.toNat .read e T) (hn : 0 < n) (hx : x.toNat % 64 + n ≤ 64)
    (hal : x.toNat % n = 0) (hclean : cleanSector s x.toNat (paBy e x.toNat) (leafKey e.leaf.toNat) = true)
    (hpa : paBy e x.toNat % 64 + n ≤ 64) (hearly : s.h.early = []) (hpend : s.h.pendingOf .scalar = []) (c : Convoy) (g : Hart) (p : Nat) :
    loadScalar false x n p (carrying c g s) =
      (.ok (leNat (cellsRead s.mem (paBy e x.toNat) n)), carrying (marking e false c) g { s with tlb := T }) := by
  have hl := h.loadGlob hn hx hclean hpa hearly hpend c g p .before
  unfold Machine.loadScalar
  rw [if_neg (by simpa using hal)]
  dsimp only
  rw [if_neg Bool.false_ne_true]
  refine (bind_ok (whoM_carrying c g)).trans ?_
  refine (bind_ok hl).trans ?_
  rw [anyPsn_clean, bytesVal_clean, if_neg Bool.false_ne_true]
  rfl
end

end Sys2Proof.Together
end

section
/-! # Scalar loads (R118 to R122) -/

namespace Sys2Proof.Together
open Sys2Proof Sys2Proof.Machine Sys2Proof.Claims

/-! ## A load that retires -/

/-- Whether a sector is plain does not depend on what executes, nor on the translations held. -/
theorem Plain.same {s : State} {pa key : Nat} (h : Plain s pa key) {c : Convoy} {g k : Hart} {T : List TlbEntry} {x : Ended} :
    Plain { carrying c g { s with tlb := T } with h := k, ended := x } pa key :=
  ⟨h.key_eq, h.psn, h.ecc, h.eccTag, h.sram, h.tag, h.tagXor, h.hbm⟩

theorem begin_carrying (i : Instr) (s : State) : s.begin i = carrying (s.begin i).cv (s.begin i).h0 s := begin_eq i s

theorem vesKept_retiredAs {i : Instr} {s t : State} {h : Hart} (ht : t.h = retiredAs i (resumedNow s) h) (hv : h.ves = s.h.ves)
    (hc : h.vcm = s.h.vcm) : VesKept s t := by
  unfold VesKept
  rw [ht]
  cases hr : resumedNow s
  · exact .inl ⟨hv, hc⟩
  · exact .inr ⟨rfl, rfl, rfl⟩

section
variable {s : State} {i : Instr} {fm : Form} {body : M Unit} {e : TlbEntry} {T : List TlbEntry} {d : BitVec 6} {v : DWord}

/-- A load whose one access used the entry `e`: its accessed bit is set as it retires (R135). -/
theorem loadDone_of {va : Nat} {k : Acc} (h : Maps s va k e T) (ha : alone s = true) (hk : isChained i = false) (hlen : instrLen i = fm.len)
    (hb : body (s.begin i) =
      (.ok (), { carrying (marking e false (s.begin i).cv) (s.begin i).h0 { s with tlb := T } with h := s.h.setX d v })) :
    LoadDone fm d v e s (run i body s) := by
  have hm : (s.begin i).cv.marks = [] := (begin_cv_of_alone i ha).2.2.2.1
  have hrun := run_retires (ms := [(e, false)]) ha hk hb (by
    show marking e false (s.begin i).cv = _
    rw [marking, hm]; rfl)
  rw [List.foldl_cons, List.foldl_nil] at hrun
  obtain ⟨m, ch, hset, hmem⟩ := setAccDrt_frame (e := e) (s := { carrying (marking e false (s.begin i).cv) (s.begin i).h0
    { s with tlb := T } with h := retiredAs i (resumedNow s) (s.h.setX d v), ended := .retired }) h.pte.same false
  rw [hset] at hrun
  obtain ⟨x, hx⟩ : ∃ x, s.h.setX d v = { s.h with x := x } := ⟨_, Hart.setX_eq ..⟩
  have hget : ∀ r, (s.h.setX d v).getX r = _ := fun r => Hart.getX_setX s.h d r v
  rw [hrun]
  refine ⟨hget, ?_, vesKept_retiredAs rfl (Hart.setX_ves ..) (Hart.setX_vcm ..), hmem, rfl, ?_⟩
  · show (s.h.setX d v).pc + BitVec.ofNat 64 (instrLen i) = _
    rw [hx, hlen]
  · show retiredAs i (resumedNow s) (s.h.setX d v) = _
    rw [hx]; rfl


/-- A load that made no access to global memory. -/
theorem writeX_of (ha : alone s = true) (hk : isChained i = false) (hlen : instrLen i = fm.len)
    (hb : body (s.begin i) = (.ok (), { s.begin i with h := s.h.setX d v })) : WriteX fm d v s (run i body s) := by
  obtain ⟨hh, hrest⟩ := run_retires_unmarked ha hk hb
  obtain ⟨x, hx⟩ : ∃ x, s.h.setX d v = { s.h with x := x } := ⟨_, Hart.setX_eq ..⟩
  have hget : ∀ r, (s.h.setX d v).getX r = _ := fun r => Hart.getX_setX s.h d r v
  refine ⟨fun r => ?_, ?_, vesKept_retiredAs hh (Hart.setX_ves ..) (Hart.setX_vcm ..), hrest, ?_⟩
  · rw [hh]; exact hget r
  · show (run i body s).h.pc = _
    rw [hh, hx, ← hlen]; rfl
  · rw [hh, hx]; rfl
end

/-! ## Bytes of local storage (R33, R118) -/

section
variable {s : State}

theorem readEcc_clean {w : Who} {sp : Space} {off n : Nat} (h : (s.localOf sp).ecc = []) : s.readEcc w sp off n = s := by
  unfold State.readEcc
  simp [h]

theorem loadLocal_clean {sp : Space} {off : Nat} (h : (s.localOf sp).psn = []) :
    s.loadLocal [] sp off 1 = [(localByte (s.localOf sp) off, false)] := by
  unfold State.loadLocal localByte
  simp only [overlay_nil, List.range_one, List.map_cons, List.map_nil, Nat.add_zero, h, List.contains_nil]
  cases localOff (s.localOf sp).size off with
  | none => rfl
  | some o =>
    dsimp only
    rw [if_neg Bool.false_ne_true, cellsRead_getD _ _ _ _ (Nat.mod_lt o (by decide)), Nat.div_add_mod']

theorem readSpace_clean {sp : Space} {off n cause : Nat} (hclean : cleanLocal (s.localOf sp) = true) (hpend : s.h.pendingOf .scalar = []) :
    readSpace .scalar sp off n cause s =
      (.ok (((List.range n).map fun k => localByte (s.localOf sp) (spaceOff sp off k)).map fun b => (b, false)), s) := by
  unfold cleanLocal at hclean
  simp only [Bool.and_eq_true, List.isEmpty_iff] at hclean
  obtain ⟨hpsn, hecc⟩ := hclean
  unfold readSpace
  refine (bind_ok (show whoM s = (.ok (s.who s.h), s) from rfl)).trans ?_
  refine (bind_ok (a := ()) (t := s) (congrArg (Prod.mk (Except.ok ())) (readEcc_clean hecc))).trans ?_
  refine (bind_ok (show (get : M State) s = (.ok s, s) from rfl)).trans ?_
  rw [hpend]
  simp only [loadLocal_clean hpsn, List.map_map, Function.comp_def, ← List.flatMap_def, ← List.map_eq_flatMap]
  rfl

theorem loadSpace_clean {sp : Space} {off n cause : Nat} (hclean : cleanLocal (s.localOf sp) = true) (hpend : s.h.pendingOf .scalar = [])
    (hearly : s.h.early = []) : loadSpace .scalar sp off n cause s =
      (.ok (((List.range n).map fun k => localByte (s.localOf sp) (spaceOff sp off k)).map fun b => (b, false)), s) := by
  unfold loadSpace
  refine (bind_ok (show (get : M State) s = (.ok s, s) from rfl)).trans ?_
  refine (bind_ok (takeEarly_none hearly ..)).trans ?_
  exact readSpace_clean hclean hpend
end

/-! ## The bodies of the loads -/

section
variable {s u : State} {fm : Form} {d b i : BitVec 6} {t sg : Bool} {n v : Nat}

theorem loadBody_of (h : loadScalar t (addrB fm b i s.h) n 0x40 s = (.ok v, u)) :
    loadBody fm d b i t sg n s = (.ok (), { u with h := u.h.setX d (extendTo sg n v) }) := by
  unfold loadBody
  refine (bind_ok (show getH s = (.ok s.h, s) from rfl)).trans ?_
  exact (bind_ok h).trans rfl

theorem ldacqBody_of {w : Bool} (h : loadScalar false (addrB fm b i s.h) (if w then 8 else 4) 0x41 s = (.ok v, u)) :
    ldacqBody fm d b i w s = (.ok (), { u with h := u.h.setX d (BitVec.ofNat 64 v) }) := by
  unfold ldacqBody
  refine (bind_ok (show getH s = (.ok s.h, s) from rfl)).trans ?_
  exact (bind_ok h).trans rfl

/-- The little-endian value of the bytes that a load of a local space reads. -/
def localVal (s : State) (x : Space × Nat) (n : Nat) : Nat :=
  leNat ((List.range n).map fun k => localByte (s.localOf x.1) (spaceOff x.1 x.2 k))

theorem loadScalar_tcm {va : DWord} {p : Nat} (hal : va.toNat % n = 0) (hclean : cleanLocal (s.localOf (s.h.tcmSpace va).1) = true)
    (hpend : s.h.pendingOf .scalar = []) (hearly : s.h.early = []) :
    loadScalar true va n p s = (.ok (localVal s (s.h.tcmSpace va) n), s) := by
  unfold loadScalar
  rw [if_neg (by simpa using hal)]
  dsimp only
  rw [if_pos rfl]
  refine (bind_ok (show getH s = (.ok s.h, s) from rfl)).trans ?_
  refine (bind_ok (loadSpace_clean hclean hpend hearly)).trans ?_
  rw [anyPsn_clean, bytesVal_clean, if_neg Bool.false_ne_true]
  rfl

theorem loadSpBody_of (hal : (addrB fm b i s.h).toNat % n = 0)
    (hclean : cleanLocal (s.localOf (s.spSpace s.h (addrB fm b i s.h)).1) = true) (hpend : s.h.pendingOf .scalar = []) (hearly : s.h.early = []) :
    loadSpBody fm d b i sg n s =
      (.ok (), { s with h := s.h.setX d (extendTo sg n (localVal s (s.spSpace s.h (addrB fm b i s.h)) n)) }) := by
  unfold loadSpBody
  refine (bind_ok (show getH s = (.ok s.h, s) from rfl)).trans ?_
  rw [if_neg (by simpa using hal)]
  dsimp only
  refine (bind_ok (show (get : M State) s = (.ok s, s) from rfl)).trans ?_
  refine (bind_ok (loadSpace_clean hclean hpend hearly)).trans ?_
  rw [anyPsn_clean, bytesVal_clean, if_neg Bool.false_ne_true]
  rfl
end

/-! ## A load that performed early (R122, R143) -/

section
variable {s : State} {va : DWord} {pa key : Nat} {l : List (Byte × Bool)}

theorem lookup_cached {a : Nat} {e : TlbEntry} (h : cachedAs s a = some e) : s.lookup (s.who s.h) a = (.ok e, s) := by
  unfold State.lookup
  rw [show (s.tlb.find? fun x => x.core == (s.who s.h).core && x.asn == (s.who s.h).asn && x.va ≤ a && a < x.va + x.size) = some e from h]

/-- The access that a cached translation allows and whose accessed bit stands. -/
theorem mapsStill_maps {a : Nat} {k : Acc} (h : mapsStill s a k = some (pa, key)) : ∃ e, cachedAs s a = some e ∧ Maps s a k e s.tlb ∧ pa = paBy e a ∧
    key = leafKey e.leaf.toNat ∧ pa % 64 = a % 64 ∧ s.rawRead e.pte 8 ||| (if k.writes then 0x180 else 0x80) = s.rawRead e.pte 8 ∧
    (k.writes = true → unshared s e = true) := by
  unfold mapsStill at h
  cases hc : cachedAs s a with
  | none => rw [hc] at h; cases h
  | some e =>
    rw [hc] at h
    dsimp only at h
    obtain ⟨hq, h⟩ := Option.ite_none_right_eq_some.1 h
    simp only [Bool.and_eq_true, Bool.or_eq_true, beq_iff_eq, Bool.not_eq_true'] at hq
    obtain ⟨⟨⟨hm, hal⟩, hbits⟩, hsh⟩ := hq
    obtain ⟨rfl, rfl⟩ := Prod.mk.inj (Option.some.inj h)
    obtain ⟨T, hmaps⟩ := maps_of hm
    refine ⟨e, rfl, ⟨lookup_cached hc, hmaps.below, hmaps.pte, hmaps.perm⟩, rfl, rfl, hal, hbits, fun hw => ?_⟩
    rw [hw] at hsh
    simpa using hsh

/-- The load that performed early. -/
def earlyRead (pa : Nat) (l : List (Byte × Bool)) : EarlyRead := { cls := .scalar, space := .glob, addr := pa, bytes := l }

theorem takeEarly_this {t : State} (h : t.h.early = [earlyRead pa l]) (hl : 0 < l.length) :
    takeEarly .scalar .glob ((List.range l.length).map (· + pa)) t = (.ok (some l), { t with h := { t.h with early := [] } }) := by
  have hmeets : (earlyRead pa l).meets .scalar .glob ((List.range l.length).map (· + pa)) = true := by
    simp only [EarlyRead.meets, earlyRead, BEq.rfl, Bool.true_and, List.any_eq_true]
    exact ⟨0 + pa, List.mem_map.2 ⟨0, List.mem_range.2 hl, rfl⟩, by simp; omega⟩
  unfold takeEarly
  refine (bind_ok (show getH t = (.ok t.h, t) from rfl)).trans ?_
  rw [h]
  have hdrop : dropEarly .scalar .glob ((List.range l.length).map (· + pa)) t = (.ok (), { t with h := { t.h with early := [] } }) := by
    show (Except.ok (), { t with h := { t.h with early := t.h.early.filter _ } }) = _
    rw [h, List.filter_cons_of_neg (by rw [hmeets]; simp)]
    rfl
  dsimp only [List.isEmpty_cons]
  rw [if_neg Bool.false_ne_true]
  refine (bind_ok hdrop).trans ?_
  rw [List.find?_cons_of_pos (by simp [earlyRead])]
  rfl

theorem loadScalar_early {e : TlbEntry} {T : List TlbEntry} (h : Maps s va.toNat .read e T) (hal : va.toNat % 8 = 0) (hl : l.length = 8)
    (hclean : ∀ x ∈ l, x.2 = false) (hearly : s.h.early = [earlyRead (paBy e va.toNat) l]) (c : Convoy) (g : Hart) (p : Nat) :
    loadScalar false va 8 p (carrying c g s) = (.ok (leNat (l.map (·.1))),
      { carrying (marking e false c) g { s with tlb := T } with h := { s.h with early := [] } }) := by
  let t := carrying (marking e false c) g { s with tlb := T }
  let u := { t with h := { s.h with early := [] } }
  have ht := h.translateM (n := 8) (fun h => absurd h Bool.false_ne_true) (by decide) (by omega) c g (w := some { s.who s.h with psnCause := p }) 0
    .before rfl
  have hread : readPiece .scalar { s.who s.h with psnCause := p } va (paBy e va.toNat, leafKey e.leaf.toNat, 8) t = (.ok l, u) := by
    have := takeEarly_this (t := t) hearly (by omega)
    rw [hl] at this
    unfold readPiece
    exact (bind_ok this).trans rfl
  have hps : ([(paBy e va.toNat, leafKey e.leaf.toNat, 8)].mapM (readPiece .scalar { s.who s.h with psnCause := p } va)) t = (.ok [l], u) := by
    rw [List.mapM_cons, List.mapM_nil]
    exact (bind_ok hread).trans rfl
  have hload : loadGlob .scalar va 8 .before 0 (some { s.who s.h with psnCause := p }) (carrying c g s) = (.ok l, u) := by
    unfold loadGlob
    refine (bind_ok (whoM_carrying c g)).trans ((bind_ok ht).trans ((bind_ok hps).trans ?_))
    rw [List.flatten_singleton]
    rfl
  have hpsn : anyPsn l = false := by
    unfold anyPsn
    exact List.any_eq_false.2 fun x hx => by simp [hclean x hx]
  unfold loadScalar
  rw [if_neg (by simpa using hal)]
  dsimp only
  rw [if_neg Bool.false_ne_true]
  refine (bind_ok (whoM_carrying c g)).trans ((bind_ok hload).trans ?_)
  rw [hpsn, if_neg Bool.false_ne_true]
  rfl
end

end Sys2Proof.Together
end

section
/-! # The statement on scalar loads -/

namespace Sys2Proof.Together
open Sys2Proof Sys2Proof.Machine Sys2Proof.Claims

/-- The scalar loads carry no chain bit (R41): what is above the form in the low nine bits of word 0 is the major. -/
theorem isChained_loads (fm : Form) (d b i : BitVec 6) (w : BitVec 2) (t : Bool) (c : Scope) :
    isChained (.lds fm d b i w t) = false ∧ isChained (.ldz fm d b i w t) = false ∧ isChained (.ldD fm d b i t) = false ∧
    isChained (.ldacq fm d b i t c) = false ∧ isChained (.ldsSp fm d b i w) = false ∧ isChained (.ldzSp fm d b i w) = false ∧
    isChained (.ldDSp fm d b i) = false := by
  have hfm := Laws.formCode_lt fm
  refine ⟨unchained ?_, unchained ?_, unchained ?_, unchained ?_, unchained ?_, unchained ?_, unchained ?_⟩
  · show (fm.code + 0x20 + _ * 0x200 + _ * 0x8000 + _ * 0x200000 + _ * 0x8000000 + _ * 0x40000000) % 512 < 256; omega
  · show (fm.code + 0x20000020 + _ * 0x200 + _ * 0x8000 + _ * 0x200000 + _ * 0x8000000 + _ * 0x40000000) % 512 < 256; omega
  · show (fm.code + 0x18000020 + _ * 0x200 + _ * 0x8000 + _ * 0x200000 + _ * 0x40000000) % 512 < 256; omega
  · show (fm.code + 0x28 + _ * 0x200 + _ * 0x8000 + _ * 0x200000 + _ * 0x8000000 + _ * 0x20000000) % 512 < 256; omega
  · show (fm.code + 0x80 + _ * 0x200 + _ * 0x8000 + _ * 0x200000 + _ * 0x8000000) % 512 < 256; omega
  · show (fm.code + 0x20000080 + _ * 0x200 + _ * 0x8000 + _ * 0x200000 + _ * 0x8000000) % 512 < 256; omega
  · show (fm.code + 0x18000080 + _ * 0x200 + _ * 0x8000 + _ * 0x200000) % 512 < 256; omega

/-- An aligned access of at most 8 bytes lies in one sector, and so does its physical address when that agrees in its low bits. -/
theorem aligned_fits {a pa n : Nat} (hn : n ∣ 8) (h : a % n = 0) (hpa : pa % 8 = a % 8) : 0 < n ∧ a % 64 + n ≤ 64 ∧ pa % 64 + n ≤ 64 := by
  have hle := Nat.le_of_dvd (by decide) hn
  interval_cases n <;> omega

theorem width_dvd (w : BitVec 2) : 2 ^ w.toNat ∣ 8 := Nat.pow_dvd_pow 2 (show w.toNat ≤ 3 by omega)

section
variable {s : State} {e : TlbEntry} {fm : Form} {d b i : BitVec 6}

/-- What a scalar load reads of global memory, as its convoy begins. -/
theorem loadScalar_begun (j : Instr) {n : Nat} (p : Nat) (hn : n ∣ 8) (hmap : mapsBy s (addrB fm b i s.h).toNat .read e = true)
    (hclean : cleanSector s (addrB fm b i s.h).toNat (paBy e (addrB fm b i s.h).toNat) (leafKey e.leaf.toNat) = true)
    (hpa : paBy e (addrB fm b i s.h).toNat % 8 = (addrB fm b i s.h).toNat % 8) (hpend : s.h.pendingOf .scalar = []) (hearly : s.h.early = [])
    (hal : (addrB fm b i s.h).toNat % n = 0) : ∃ T, Maps s (addrB fm b i s.h).toNat .read e T ∧
      loadScalar false (addrB fm b i (s.begin j).h) n p (s.begin j) =
        (.ok (leNat (cellsRead s.mem (paBy e (addrB fm b i s.h).toNat) n)),
          carrying (marking e false (s.begin j).cv) (s.begin j).h0 { s with tlb := T }) := by
  obtain ⟨T, hT⟩ := maps_of hmap
  obtain ⟨h0, h1, h2⟩ := aligned_fits hn hal hpa
  refine ⟨T, hT, ?_⟩
  rw [State.begin_h]
  have := hT.loadScalar h0 h1 hal hclean h2 hearly hpend (s.begin j).cv (s.begin j).h0 p
  rwa [← begin_carrying] at this
end

section
variable {s : State} {fm : Form} {d b i : BitVec 6} {sg : Bool} {n : Nat}

theorem loadBody_begun (j : Instr) (hal : (addrB fm b i s.h).toNat % n = 0)
    (hclean : cleanLocal (s.localOf (s.h.tcmSpace (addrB fm b i s.h)).1) = true) (hpend : s.h.pendingOf .scalar = []) (hearly : s.h.early = []) :
    loadBody fm d b i true sg n (s.begin j) =
      (.ok (), { s.begin j with h := s.h.setX d (extendTo sg n (localVal s (s.h.tcmSpace (addrB fm b i s.h)) n)) }) := by
  rw [begin_carrying]
  exact loadBody_of (s := carrying (s.begin j).cv (s.begin j).h0 s) (loadScalar_tcm hal hclean hpend hearly)

theorem loadSpBody_begun (j : Instr) (hal : (addrB fm b i s.h).toNat % n = 0)
    (hclean : cleanLocal (s.localOf (s.spSpace s.h (addrB fm b i s.h)).1) = true) (hpend : s.h.pendingOf .scalar = []) (hearly : s.h.early = []) :
    loadSpBody fm d b i sg n (s.begin j) =
      (.ok (), { s.begin j with h := s.h.setX d (extendTo sg n (localVal s (s.spSpace s.h (addrB fm b i s.h)) n)) }) := by
  rw [begin_carrying]
  exact loadSpBody_of (s := carrying (s.begin j).cv (s.begin j).h0 s) hal hclean hpend hearly
end

/-- A load that performed early, of a page whose accessed bit stands: nothing changes but the hart. -/
theorem earlyLoad_done {s : State} {j : Instr} {fm : Form} {body : M Unit} {e : TlbEntry} {d : BitVec 6} {v : DWord} {va : Nat}
    (h : Maps s va .read e s.tlb) (hbits : s.rawRead e.pte 8 ||| (if Acc.read.writes then 0x180 else 0x80) = s.rawRead e.pte 8)
    (ha : alone s = true) (hk : isChained j = false) (hlen : instrLen j = fm.len)
    (hb : body (s.begin j) = (.ok (), { carrying (marking e false (s.begin j).cv) (s.begin j).h0 { s with tlb := s.tlb } with
      h := ({ s.h with early := [] } : Hart).setX d v })) :
    Passed fm s (run j body s) ∧ VesKept s (run j body s) ∧ RestSame s (run j body s) ∧ (run j body s).h.early = [] ∧
      ∀ r, (run j body s).h.getX r = if r = 0 then 0 else if r = d then v else s.h.getX r := by
  have hm : (s.begin j).cv.marks = [] := (begin_cv_of_alone j ha).2.2.2.1
  have hrun := run_retires (ms := [(e, false)]) ha hk hb (by
    show marking e false (s.begin j).cv = _
    rw [marking, hm]; rfl)
  have hstill := setAccDrt_still (e := e) (wr := false) (s := { carrying (marking e false (s.begin j).cv) (s.begin j).h0 { s with tlb := s.tlb } with
    h := retiredAs j (resumedNow s) (({ s.h with early := [] } : Hart).setX d v), ended := .retired }) h.pte.same hbits
  rw [List.foldl_cons, List.foldl_nil, hstill] at hrun
  obtain ⟨x, hx⟩ : ∃ x, ({ s.h with early := [] } : Hart).setX d v = { s.h with early := [], x := x } := ⟨_, Hart.setX_eq ..⟩
  have hget : ∀ r, (({ s.h with early := [] } : Hart).setX d v).getX r = _ := fun r => Hart.getX_setX { s.h with early := [] } d r v
  rw [hrun]
  refine ⟨?_, vesKept_retiredAs rfl (Hart.setX_ves ..) (Hart.setX_vcm ..), ⟨fun _ => rfl, rfl⟩, Hart.setX_early .., hget⟩
  show (({ s.h with early := [] } : Hart).setX d v).pc + BitVec.ofNat 64 (instrLen j) = _
  rw [hx, hlen]

/-- Settles O20: each form reads its bytes by `loadScalar_begun`, `loadScalar_tcm`, `loadSpBody_of` or `loadScalar_early`, and retires. -/
theorem scalarLoads : Obligations.ScalarLoads := by
  refine ⟨?_, ?_, ?_⟩
  · intro fm d b i w l c s e va bytes ready ha hmap hclean hpa hpend hearly
    obtain ⟨klds, kldz, kldD, -, -⟩ := isChained_loads fm d b i w false c
    obtain ⟨-, -, -, kacq, -⟩ := isChained_loads fm d b i w l c
    refine ⟨fun hal => ⟨⟨_, rfl, ?_⟩, ⟨_, rfl, ?_⟩⟩, fun hal => ⟨_, rfl, ?_⟩, fun hal => ⟨_, rfl, ?_⟩⟩
    · obtain ⟨T, hT, hl⟩ := loadScalar_begun (.lds fm d b i w false) 0x40 (width_dvd w) hmap hclean hpa hpend hearly hal
      exact loadDone_of hT ha klds rfl (loadBody_of hl)
    · obtain ⟨T, hT, hl⟩ := loadScalar_begun (.ldz fm d b i w false) 0x40 (width_dvd w) hmap hclean hpa hpend hearly hal
      exact loadDone_of hT ha kldz rfl (loadBody_of hl)
    · obtain ⟨T, hT, hl⟩ := loadScalar_begun (.ldD fm d b i false) 0x40 (by decide) hmap hclean hpa hpend hearly hal
      exact loadDone_of hT ha kldD rfl (loadBody_of hl)
    · obtain ⟨T, hT, hl⟩ := loadScalar_begun (.ldacq fm d b i l c) 0x41 (by cases l <;> decide) hmap hclean hpa hpend hearly hal
      exact loadDone_of hT ha kacq rfl (ldacqBody_of hl)
  · intro fm d b i w s va val tcm sp sx ha hpend hearly hal
    obtain ⟨klds, kldz, kldD, -, kldsSp, kldzSp, kldDSp⟩ := isChained_loads fm d b i w true .core
    refine ⟨fun hclean => ⟨⟨_, rfl, ?_⟩, ⟨_, rfl, ?_⟩, fun hal => ⟨_, rfl, ?_⟩⟩, fun hclean => ⟨⟨_, rfl, ?_⟩, ⟨_, rfl, ?_⟩, fun hal => ⟨_, rfl, ?_⟩⟩⟩
    · exact writeX_of ha klds rfl (loadBody_begun _ hal hclean hpend hearly)
    · exact writeX_of ha kldz rfl (loadBody_begun _ hal hclean hpend hearly)
    · exact writeX_of ha kldD rfl (loadBody_begun _ hal hclean hpend hearly)
    · exact writeX_of ha kldsSp rfl (loadSpBody_begun _ hal hclean hpend hearly)
    · exact writeX_of ha kldzSp rfl (loadSpBody_begun _ hal hclean hpend hearly)
    · exact writeX_of ha kldDSp rfl (loadSpBody_begun _ hal hclean hpend hearly)
  · intro fm d b i s pa key l va ha hal hmap hlen hclean hearly
    obtain ⟨-, -, kldD, -⟩ := isChained_loads fm d b i 0 false .core
    obtain ⟨e, -, hT, rfl, rfl, -, hbits, -⟩ := mapsStill_maps hmap
    have hl := loadScalar_early hT hal hlen hclean hearly (s.begin (.ldD fm d b i false)).cv (s.begin (.ldD fm d b i false)).h0 0x40
    rw [← begin_carrying] at hl
    exact ⟨_, rfl, earlyLoad_done hT hbits ha kldD rfl (loadBody_of (by rw [State.begin_h]; exact hl))⟩

end Sys2Proof.Together
end

section
/-! # Scalar stores (R118, R121, R122) -/

namespace Sys2Proof.Together
open Sys2Proof Sys2Proof.Machine Sys2Proof.Claims

/-! ## Writes that join those on their way -/

/-- The hart with writes more on their way: loads of their class that performed early and share a byte are no longer good (R142). -/
def pushed (ws : List PWrite) (h : Hart) : Hart :=
  { h with stbuf := h.stbuf ++ ws
           early := h.early.filter fun e => ws.all fun w => !e.meets w.cls w.space ((List.range w.bytes.length).map (· + w.addr)) }

theorem pushWrites_eq (ws : List PWrite) (s : State) : pushWrites ws s = (.ok (), { s with h := pushed ws s.h }) := rfl

section
variable {s : State} {i : Instr} {fm : Form} {body : M Unit} {e : TlbEntry} {T : List TlbEntry}

/-- A store whose one access used the entry `e`: its accessed and dirty bits are set as it retires (R135). -/
theorem storeMade_of {va : Nat} {k : Acc} {w : PWrite} (h : Maps s va k e T) (ha : alone s = true) (hk : isChained i = false)
    (hlen : instrLen i = fm.len)
    (hb : body (s.begin i) =
      (.ok (), { carrying (marking e true (s.begin i).cv) (s.begin i).h0 { s with tlb := T } with h := pushed [w] s.h })) :
    StoreMade fm w e s (run i body s) := by
  have hm : (s.begin i).cv.marks = [] := (begin_cv_of_alone i ha).2.2.2.1
  have hrun := run_retires (ms := [(e, true)]) ha hk hb (by
    show marking e true (s.begin i).cv = _
    rw [marking, hm]; rfl)
  obtain ⟨m, ch, hset, hmem⟩ := setAccDrt_frame (e := e) (s := { carrying (marking e true (s.begin i).cv) (s.begin i).h0
    { s with tlb := T } with h := retiredAs i (resumedNow s) (pushed [w] s.h), ended := .retired }) h.pte.same true
  rw [List.foldl_cons, List.foldl_nil, hset] at hrun
  rw [hrun]
  refine ⟨rfl, ?_, vesKept_retiredAs rfl rfl rfl, hmem, rfl, List.filter_sublist, rfl⟩
  show s.h.pc + BitVec.ofNat 64 (instrLen i) = _
  rw [hlen]

/-- The write of bytes that lie in one piece of global memory. -/
def globWrite (h : Hart) (pa key : Nat) (va : DWord) (bs : List Byte) : PWrite :=
  { cls := .scalar, strip := h.strip, space := .glob, addr := pa, key := key, va := va, bytes := bs, psn := false }

theorem globWrites_one (h : Hart) (va : DWord) (bs : List Byte) (pa key : Nat) :
    globWrites h .scalar va bs false [(pa, key, bs.length)] = [globWrite h pa key va bs] := by
  unfold globWrites globWrite
  simp

theorem Maps.storeGlob {x : DWord} {bs : List Byte} (h : Maps s x.toNat .write e T) (hsh : unshared s e = true) (hn : 0 < bs.length)
    (hx : x.toNat % 64 + bs.length ≤ 64) (c : Convoy) (g : Hart) : storeGlob .scalar x bs false .before 0 (carrying c g s) =
      (.ok (), { carrying (marking e true c) g { s with tlb := T } with
        h := pushed [globWrite s.h (paBy e x.toNat) (leafKey e.leaf.toNat) x bs] s.h }) := by
  have ht := h.translateM (fun _ => hsh) hn hx c g (w := none) (p := 0x40) 0 .before rfl
  unfold Machine.storeGlob
  refine (bind_ok ht).trans ?_
  refine (bind_ok (getH_carrying _ _)).trans ?_
  rw [globWrites_one]
  rfl
end

/-! ## Writes to local storage (R33) -/

section
variable {s : State} {sp : Space} {off o : Nat} {va : DWord} {bs : List Byte}

/-- The one write of bytes that follow one another in an allocation. -/
def localPut (s : State) (sp : Space) (o : Nat) (va : DWord) (bs : List Byte) : PWrite :=
  { cls := .scalar, strip := s.h.strip, space := sp, addr := o, key := 0, va := va, bytes := bs, psn := false }

theorem localWrites_none (h : ∀ i < bs.length, localOff (s.localOf sp).size (spaceOff sp off i) = none) :
    s.localWrites .scalar sp off va bs false = [] := by
  unfold State.localWrites
  refine List.foldlRecOn (motive := fun l => l = []) _ _ rfl fun acc hacc i hi => ?_
  dsimp only
  rw [h i (List.mem_range.1 hi)]
  exact hacc

theorem localWrites_one (hn : 0 < bs.length) (h : ∀ i < bs.length, localOff (s.localOf sp).size (spaceOff sp off i) = some (o + i))
    (ho : o % 64 + bs.length ≤ 64) : s.localWrites .scalar sp off va bs false = [localPut s sp o va bs] := by
  unfold State.localWrites
  dsimp only
  have hfold : ∀ k, k ≤ bs.length → (List.range k).foldl (fun (acc : List PWrite) i =>
      match localOff (s.localOf sp).size (spaceOff sp off i) with
      | none => acc
      | some o =>
        match acc.getLast? with
        | some l =>
          if l.addr + l.bytes.length = o && o % 64 != 0 then acc.dropLast ++ [{ l with bytes := l.bytes ++ [bs.getD i 0] }]
          else acc ++ [localPut s sp o va [bs.getD i 0]]
        | none => [localPut s sp o va [bs.getD i 0]]) [] = if k = 0 then [] else [localPut s sp o va (bs.take k)] := by
    intro k hk
    induction k with
    | zero => rfl
    | succ k ih =>
      rw [List.range_succ, List.foldl_append, ih (by omega), List.foldl_cons, List.foldl_nil, h k (by omega), if_neg (Nat.succ_ne_zero k),
        List.take_succ_eq_append_getElem (by omega), List.getD_eq_getElem _ _ (by omega)]
      by_cases h0 : k = 0
      · subst h0
        rfl
      · rw [if_neg h0]
        simp only [List.getLast?_singleton, localPut, List.length_take, Nat.min_eq_left (show k ≤ bs.length by omega)]
        rw [if_pos (by simp; omega)]
        rfl
  have hall := hfold bs.length (Nat.le_refl _)
  rw [if_neg hn.ne', List.take_length] at hall
  exact hall
end

theorem eight_dvd_ceilPow2 {n : Nat} (h : 8 ≤ n) : 8 ∣ ceilPow2 n := by
  unfold ceilPow2
  rw [if_neg (by omega)]
  have : 2 ≤ (n - 1).log2 := (Nat.le_log2 (by omega)).2 (by omega)
  exact Nat.pow_dvd_pow 2 (show 3 ≤ _ by omega)

theorem ceilPow2_pos {n : Nat} (h : 0 < n) : 0 < ceilPow2 n := by
  unfold ceilPow2
  split
  · exact h
  · exact Nat.two_pow_pos _

theorem spaceOff_aligned (sp : Space) {off n i : Nat} (hn : n ∣ 8) (hoff : off % n = 0) (hi : i < n) : spaceOff sp off i = off + i := by
  have hle := Nat.le_of_dvd (by decide) hn
  unfold spaceOff
  split
  · interval_cases n <;> omega
  · rfl

theorem wrapped_aligned {size off n : Nat} (hn : n ∣ 8) (h8 : 8 ≤ size) (hoff : off % n = 0) : off % ceilPow2 size % n = 0 := by
  rw [Nat.mod_mod_of_dvd _ (hn.trans (eight_dvd_ceilPow2 h8))]; exact hoff

theorem localOff_fits {size off n : Nat} (hn : n ∣ 8) (h8 : 8 ≤ size) (hoff : off % n = 0) : off % ceilPow2 size % 64 + n ≤ 64 := by
  have ho := wrapped_aligned hn h8 hoff
  have hle := Nat.le_of_dvd (by decide) hn
  generalize off % ceilPow2 size = o at ho ⊢
  interval_cases n <;> omega

/-- The bytes of an aligned access lie in an allocation together or not at all, one after another. -/
theorem localOff_aligned {size off n i : Nat} (hn : n ∣ 8) (h8 : 8 ≤ size) (hsize : size % 8 = 0) (hoff : off % n = 0) (hi : i < n) :
    localOff size (off + i) = if off % ceilPow2 size + n ≤ size then some (off % ceilPow2 size + i) else none := by
  obtain ⟨q, hq⟩ := eight_dvd_ceilPow2 h8
  have hle := Nat.le_of_dvd (by decide) hn
  have ho := wrapped_aligned hn h8 hoff
  have hlt : off % ceilPow2 size < ceilPow2 size := Nat.mod_lt _ (ceilPow2_pos (by omega))
  generalize hp : off % ceilPow2 size = o at ho hlt ⊢
  have hfit : o + n ≤ ceilPow2 size ∧ (o + i < size ↔ o + n ≤ size) := by
    interval_cases n <;> omega
  unfold localOff
  rw [if_neg (by omega), Nat.add_mod, hp, Nat.mod_eq_of_lt (show i < ceilPow2 size by omega), Nat.mod_eq_of_lt (by omega)]
  exact if_congr hfit.2 rfl rfl

/-- The same write, or none. -/
theorem localWrites_aligned {s : State} {x : Space × Nat} {va : DWord} {bs : List Byte} (hn : bs.length ∣ 8)
    (hwhole : (s.localOf x.1).size % 8 = 0 ∧ x.2 % 8 = va.toNat % 8 ∧ 8 ≤ (s.localOf x.1).size) (hal : va.toNat % bs.length = 0) :
    s.localWrites .scalar x.1 x.2 va bs false =
      if x.2 % ceilPow2 (s.localOf x.1).size + bs.length ≤ (s.localOf x.1).size then
        [localPut s x.1 (x.2 % ceilPow2 (s.localOf x.1).size) va bs] else [] := by
  obtain ⟨hsize, hmod, h8⟩ := hwhole
  obtain ⟨h0, -, hoff⟩ := aligned_fits hn hal hmod
  have hx : x.2 % bs.length = 0 := by rw [← Nat.mod_mod_of_dvd _ hn, hmod, Nat.mod_mod_of_dvd _ hn]; exact hal
  have hat : ∀ i < bs.length, localOff (s.localOf x.1).size (spaceOff x.1 x.2 i) =
      if x.2 % ceilPow2 (s.localOf x.1).size + bs.length ≤ (s.localOf x.1).size then some (x.2 % ceilPow2 (s.localOf x.1).size + i) else none :=
    fun i hi => by rw [spaceOff_aligned x.1 hn hx hi, localOff_aligned hn h8 hsize hx hi]
  split
  next hin => exact localWrites_one h0 (fun i hi => (hat i hi).trans (if_pos hin)) (localOff_fits hn h8 hx)
  next hout => exact localWrites_none fun i hi => (hat i hi).trans (if_neg hout)

/-! ## The statement on scalar stores -/

/-- The scalar stores carry no chain bit (R41). -/
theorem isChained_stores (fm : Form) (v b i : BitVec 6) (w : BitVec 2) (t : Bool) :
    isChained (.st fm v b i w t) = false ∧ isChained (.stSp fm v b i w) = false := by
  have hfm := Laws.formCode_lt fm
  refine ⟨unchained ?_, unchained ?_⟩
  · show (fm.code + 0x24 + _ * 0x200 + _ * 0x8000 + _ * 0x200000 + _ * 0x8000000 + _ * 0x40000000) % 512 < 256; omega
  · show (fm.code + 0x40000080 + _ * 0x200 + _ * 0x8000 + _ * 0x200000 + _ * 0x8000000) % 512 < 256; omega

/-- A store to local storage has put these writes on their way, and nothing else. -/
def LocalMade (fm : Form) (ws : List PWrite) (s t : State) : Prop :=
  t.h.stbuf = s.h.stbuf ++ ws ∧ Passed fm s t ∧ VesKept s t ∧ RestSame s t ∧ t.h.early.Sublist s.h.early ∧
  t.h = { s.h with stbuf := t.h.stbuf, early := t.h.early, pc := t.h.pc, park := none, ves := t.h.ves, vcm := t.h.vcm }

theorem localMade_of {s : State} {i : Instr} {fm : Form} {body : M Unit} {ws : List PWrite} (ha : alone s = true) (hk : isChained i = false)
    (hlen : instrLen i = fm.len) (hb : body (s.begin i) = (.ok (), { s.begin i with h := pushed ws s.h })) :
    LocalMade fm ws s (run i body s) := by
  obtain ⟨hh, hrest⟩ := run_retires_unmarked ha hk hb
  refine ⟨?_, ?_, vesKept_retiredAs hh rfl rfl, hrest, ?_, ?_⟩
  · rw [hh]; rfl
  · show (run i body s).h.pc = _
    rw [hh, ← hlen]; rfl
  · rw [hh]; exact List.filter_sublist
  · rw [hh]; rfl

theorem storeBody_begun_tcm {s : State} {fm : Form} {v b i : BitVec 6} {w : BitVec 2} (j : Instr)
    (hal : (addrB fm b i s.h).toNat % 2 ^ w.toNat = 0) : storeBody fm v b i w true (s.begin j) =
      (.ok (), { s.begin j with h := pushed (s.localWrites .scalar (s.h.tcmSpace (addrB fm b i s.h)).1 (s.h.tcmSpace (addrB fm b i s.h)).2
        (addrB fm b i s.h) (leBytes (2 ^ w.toNat) (s.h.getX v).toNat) false) s.h }) := by
  rw [begin_carrying]
  unfold storeBody
  refine (bind_ok (getH_carrying _ _)).trans ?_
  unfold storeScalar
  rw [if_neg (by simpa using hal)]
  rfl

theorem storeSpBody_begun {s : State} {fm : Form} {v b i : BitVec 6} {n : Nat} (j : Instr) (hal : (addrB fm b i s.h).toNat % n = 0) :
    storeSpBody fm v b i n (s.begin j) =
      (.ok (), { s.begin j with h := pushed (s.localWrites .scalar (s.spSpace s.h (addrB fm b i s.h)).1 (s.spSpace s.h (addrB fm b i s.h)).2
        (addrB fm b i s.h) (leBytes n (s.h.getX v).toNat) false) s.h }) := by
  rw [begin_carrying]
  unfold storeSpBody
  refine (bind_ok (getH_carrying _ _)).trans ?_
  rw [if_neg (by simpa using hal)]
  rfl

/-- Settles O21: a global store is one write by `Maps.storeGlob`, a local one is one write or none by `localWrites_aligned`. -/
theorem scalarStores : Obligations.ScalarStores := by
  refine ⟨?_, ?_⟩
  · intro fm v b i w s e va n ha hmap hsh hal
    obtain ⟨kst, -⟩ := isChained_stores fm v b i w false
    obtain ⟨T, hT⟩ := maps_of hmap
    have hl : (leBytes n (s.h.getX v).toNat).length = n := leBytes_length ..
    obtain ⟨h0, h1, -⟩ := aligned_fits (width_dvd w) hal (rfl : va.toNat % 8 = _)
    refine ⟨_, rfl, storeMade_of hT ha kst rfl ?_⟩
    have hstore := hT.storeGlob (bs := leBytes n (s.h.getX v).toNat) hsh (by rw [hl]; exact h0) (by rw [hl]; exact h1)
      (s.begin (.st fm v b i w false)).cv (s.begin (.st fm v b i w false)).h0
    rw [begin_carrying]
    unfold storeBody
    refine (bind_ok (getH_carrying _ _)).trans ?_
    unfold storeScalar
    rw [if_neg (by simpa using hal)]
    dsimp only
    rw [if_neg Bool.false_ne_true]
    exact hstore
  · intro fm v b i w s va n made whole ha hal
    obtain ⟨kst, kstSp⟩ := isChained_stores fm v b i w true
    have hl : (leBytes n (s.h.getX v).toNat).length = n := leBytes_length ..
    have hput : ∀ x, whole x → s.localWrites .scalar x.1 x.2 va (leBytes n (s.h.getX v).toNat) false = _ := fun x hx =>
      localWrites_aligned (by rw [hl]; exact width_dvd w) hx (by rw [hl]; exact hal)
    rw [hl] at hput
    refine ⟨fun hx => ⟨_, rfl, ?_⟩, fun hx => ⟨_, rfl, ?_⟩⟩
    · have h := localMade_of ha kst rfl (storeBody_begun_tcm (v := v) _ hal)
      rw [hput _ hx] at h
      exact h
    · have h := localMade_of ha kstSp rfl (storeSpBody_begun (v := v) _ hal)
      rw [hput _ hx] at h
      exact h

end Sys2Proof.Together
end

section
/-! # A step runs what the bytes at the pc decode to (R57, R58) -/

namespace Sys2Proof.Together
open Sys2Proof Sys2Proof.Machine Sys2Proof.Claims

/-! ## Fetch without an event -/

/-- A word at an address that is fetched without an event: the page is cached with its accessed bit set, and the sector is clean. -/
def fetches (s : State) (va : DWord) (x : Nat × Nat) : Prop :=
  mapsStill s va.toNat .fetch = some x ∧ cleanSector s va.toNat x.1 x.2 = true ∧ va.toNat % 4 = 0

/-- The same machine about to issue: with other counts and turns, and a hart of the same address space and privilege in focus. -/
def issuing (h : Hart) (n : Nat) (ts : List Turn) (s : State) : State := { s with h := h, issued := n, turns := ts, ended := .open }

section
variable {s : State} {h : Hart} {n : Nat} {ts : List Turn}

theorem Plain.issuing {pa key : Nat} (hp : Plain s pa key) : Plain (issuing h n ts s) pa key :=
  ⟨hp.key_eq, hp.psn, hp.ecc, hp.eccTag, hp.sram, hp.tag, hp.tagXor, hp.hbm⟩

theorem fetchWord_still {va : DWord} {x : Nat × Nat} (hf : fetches s va x) (hid : h.id = s.h.id) (hasn : h.asn = s.h.asn)
    (hst : h.status = s.h.status) :
    (issuing h n ts s).fetchWord va = (.ok (leNat (cellsRead s.mem x.1 4)), issuing h n ts s) := by
  obtain ⟨hmap, hclean, hal⟩ := hf
  obtain ⟨pa, key⟩ := x
  obtain ⟨e, hc, hm, rfl, rfl, h64, hbits, -⟩ := mapsStill_maps hmap
  unfold cleanSector at hclean
  simp only [Bool.and_eq_true, Bool.not_eq_true'] at hclean
  obtain ⟨hplain, hrx⟩ := hclean
  let t := issuing h n ts s
  have hct : cachedAs t va.toNat = some e := by
    unfold cachedAs at hc ⊢
    show (s.tlb.find? fun e => e.core == h.id.core && e.asn == h.asn && e.va ≤ va.toNat && va.toNat < e.va + e.size) = _
    rw [hid, hasn]; exact hc
  have hmt : Maps t va.toNat .fetch e t.tlb := ⟨lookup_cached hct, hm.below, hm.pte.issuing, by
    show permCause e.leaf.toNat h.status.prv
      (match s.spaceOf h.asn with | some sp => sp.keys.contains (leafKey e.leaf.toNat) | none => false) .fetch = 0
    rw [hst, hasn]; exact hm.perm⟩
  have hfind : t.find (t.who t.h) va.toNat .fetch = (.ok (e, paBy e va.toNat, leafKey e.leaf.toNat), t) :=
    hmt.find (fun hw => absurd hw Bool.false_ne_true) t.cv t.h0 0x40
  have htr : t.translate (t.who t.h) va.toNat .fetch = (.ok (paBy e va.toNat, leafKey e.leaf.toNat), t) := by
    unfold State.translate
    rw [hfind]
    exact congrArg (Prod.mk _) (setAccDrt_still hmt.pte hbits)
  have hload : t.loadSector (t.who t.h) [] (paBy e va.toNat) 4 (leafKey e.leaf.toNat) va.toNat = _ :=
    loadSector_clean (plain_of hplain).issuing (by show s.inRx h.asn _ _ = false; rw [hasn]; exact hrx) (by omega)
  show t.fetchWord va = _
  unfold State.fetchWord
  dsimp only
  rw [htr]
  dsimp only
  rw [hload]
  dsimp only
  rw [if_neg (by simp), List.map_map]
  exact congrArg (fun l => (Except.ok (leNat l), t)) (List.map_id _)

section
variable {pc : DWord} {place : Nat → Nat × Nat}

/-- The word that stands at a place. -/
def wordAt (s : State) (x : Nat × Nat) : Nat := leNat (cellsRead s.mem x.1 4)

theorem fetchWords_still (hid : h.id = s.h.id) (hasn : h.asn = s.h.asn) (hst : h.status = s.h.status) (m k : Nat)
    (hf : ∀ j, j < m → fetches s (pc + BitVec.ofNat 64 (4 * (k + j))) (place (k + j))) :
    (issuing h n ts s).fetchWords (pc + BitVec.ofNat 64 (4 * k)) m =
      (.ok ((List.range m).map fun j => wordAt s (place (k + j))), issuing h n ts s) := by
  induction m generalizing k with
  | zero => rfl
  | succ m ih =>
    have h0 := fetchWord_still (n := n) (ts := ts) (hf 0 (Nat.succ_pos m)) hid hasn hst
    have hnext : pc + BitVec.ofNat 64 (4 * k) + 4 = pc + BitVec.ofNat 64 (4 * (k + 1)) := by
      rw [Nat.mul_succ, BitVec.ofNat_add, BitVec.add_assoc]
      rfl
    have hrest := ih (k + 1) fun j hj => by
      rw [show k + 1 + j = k + (j + 1) by omega]
      exact hf (j + 1) (by omega)
    rw [Nat.add_zero] at h0
    unfold State.fetchWords
    rw [h0]
    dsimp only
    rw [hnext, hrest, List.range_succ_eq_map, List.map_cons, List.map_map]
    refine congrArg (fun l => (Except.ok (_ :: l), _)) (List.map_congr_left fun j _ => ?_)
    show wordAt s (place (k + 1 + j)) = wordAt s (place (k + (j + 1)))
    rw [show k + 1 + j = k + (j + 1) by omega]

theorem lenOfL_cases (l : Nat) : lenOfL l = 4 ∨ lenOfL l = 12 ∨ lenOfL l = 20 := by
  unfold lenOfL; split <;> simp

theorem lenOfL_pos (l : Nat) : 0 < lenOfL l := by have := lenOfL_cases l; omega

/-- An instruction whose words are all fetched without an event, and whose word 0 carries no chain bit, is framed alone. -/
theorem frame_alone (hid : h.id = s.h.id) (hasn : h.asn = s.h.asn) (hst : h.status = s.h.status) (hpc : h.pc = pc) (hahead : h.ahead = [])
    (hf : ∀ j, 4 * j < lenOfL (wordAt s (place 0) % 4) → fetches s (pc + BitVec.ofNat 64 (4 * j)) (place j))
    (hchain : flag (wordAt s (place 0)) 8 = false) : (issuing h n ts s).frame =
      (.ok { members := [(List.range (lenOfL (wordAt s (place 0) % 4) / 4)).map fun j => wordAt s (place j)], bad := none }, issuing h n ts s) := by
  have hlen := lenOfL_cases (wordAt s (place 0) % 4)
  have h0 := fetchWord_still (n := n) (ts := ts) (hf 0 (by omega)) hid hasn hst
  rw [Nat.mul_zero, BitVec.add_zero] at h0
  have hrest := fetchWords_still (n := n) (ts := ts) (pc := pc) (place := place) hid hasn hst (lenOfL (wordAt s (place 0) % 4) / 4 - 1) 1
    fun j hj => hf (1 + j) (by omega)
  unfold State.frame
  rw [show (issuing h n ts s).h.ahead = [] from hahead, List.find?_nil]
  show (issuing h n ts s).frameFrom none h.pc 4 = _
  rw [hpc]
  generalize hw : wordAt s (place 0) = w at *
  have hbits : bits w 0 2 = w % 4 := by simp [bits]
  unfold State.frameFrom
  rw [h0, show leNat (cellsRead s.mem (place 0).1 4) = w from hw]
  dsimp only
  rw [hbits, show pc + 4 = pc + BitVec.ofNat 64 (4 * 1) from rfl, hrest]
  dsimp only
  rw [if_neg (by simp), if_pos (by rw [hchain]; rfl)]
  obtain ⟨q, hq⟩ : ∃ q, lenOfL (w % 4) / 4 = q + 1 := ⟨lenOfL (w % 4) / 4 - 1, by omega⟩
  rw [hq, Nat.add_sub_cancel, List.range_succ_eq_map, List.map_cons, List.map_map, hw]
  refine congrArg (fun l => (Except.ok ({ members := [w :: l], bad := none } : Framed), _)) (List.map_congr_left fun j _ => ?_)
  show wordAt s (place (1 + j)) = wordAt s (place (j + 1))
  rw [Nat.add_comm]
end
end

/-! ## Decoding and issue -/

theorem decodeAll_one {prv : Bool} {ws : List Nat} {i : Instr}
    (h : decodeWords (ws.getD 0 0) (ws.getD 1 0) (ws.getD 2 0) (ws.getD 3 0) (ws.getD 4 0) = .ok i) (hp : privileged i = true → prv = true) :
    decodeAll prv [ws] = .ok [i] := by
  have hm : decodeMember prv ws = .ok i := by
    unfold decodeMember
    dsimp only
    rw [h]
    dsimp only
    rw [if_neg]
    cases hpi : privileged i
    · simp
    · simp [hp hpi]
  unfold decodeAll
  rw [hm]
  rfl

theorem getD_words (f : Nat → Nat) (len k : Nat) (hlen : len = 4 ∨ len = 12 ∨ len = 20) :
    ((List.range (len / 4)).map f).getD k 0 = if 4 * k < len then f k else 0 := by
  rw [List.getD_eq_getElem?_getD, List.getElem?_map]
  split
  next h => rw [List.getElem?_range (by omega)]; rfl
  next h => rw [List.getElem?_eq_none (by rw [List.length_range]; omega)]; rfl

theorem breakActs_none {s : State} (h : ∀ b ∈ (s.tcbOf s.h).bp, b.toNat % 4 = 0) (skip : Bool) : s.breakActs skip = [] := by
  unfold State.breakActs
  split
  · rfl
  · rw [List.filter_eq_nil_iff.2 fun b hb => by simp [h b hb]]
    rfl

/-- The hart as a convoy of its own begins to issue. -/
def asIssued (h : Hart) : Hart := { h with fromEret := false, brkSkip := false, park := none, resumed := false, stall := 0 }

/-- A convoy of one that is framed and decodes, and that nothing stops before it issues, is executed. -/
theorem issueConvoy_one {s : State} {ws : List Nat} {i : Instr} {t : State} (hres : (s.h.fromEret && s.h.ves.rst) = false)
    (hframe : ({ s with h := asIssued s.h } : State).frame = (.ok { members := [ws], bad := none }, { s with h := asIssued s.h }))
    (hdec : decodeAll s.h.status.prv [ws] = .ok [i]) (hbp : ∀ b ∈ (s.tcbOf s.h).bp, b.toNat % 4 = 0)
    (hexec : exec i { s with h := asIssued s.h } = .next t) :
    issueConvoy exec none s = .next (t.mapH fun h => h.again s.h) := by
  have hbrk : ({ s with h := asIssued s.h } : State).breakActs s.h.brkSkip = [] := breakActs_none hbp _
  unfold issueConvoy
  dsimp only
  rw [show (s.mapH fun h => { h with fromEret := false, brkSkip := false, park := none, resumed := false, stall := 0 }) =
    { s with h := asIssued s.h } from rfl, hframe]
  dsimp only
  rw [hres, Bool.false_and, if_neg Bool.false_ne_true, show decodeAll (asIssued s.h).status.prv [ws] = .ok [i] from hdec]
  dsimp only
  rw [hbrk]
  rw [List.contains_nil, Bool.false_and, if_neg Bool.false_ne_true, show issueDecoded exec none false [i] { s with h := asIssued s.h } = .next t from hexec]
  dsimp only
  exact congrArg _ (ite_self _)

/-- Settles O7: nothing stops the convoy before it issues (`issueConvoy_one`), and its words are fetched without an event (`frame_alone`). -/
theorem stepRunsDecoded : Obligations.StepRunsDecoded := by
  intro s core part busy slot ts i place s0 s1 old s' word len w hturns hfirm hchoose hlive htake hheld hres hahead hal hbp hf hdec hchain hpriv
  obtain ⟨t, ht⟩ := exec_next i s'
  refine ⟨t, ht, ?_⟩
  have hlen : len = 4 ∨ len = 12 ∨ len = 20 := lenOfL_cases _
  have hw0 : w 0 = wordAt s (place 0) := if_pos (by omega)
  rw [hw0] at hchain hheld ⊢
  have hfetch : ∀ j, 4 * j < lenOfL (wordAt s (place 0) % 4) → fetches s (s.h.pc + BitVec.ofNat 64 (4 * j)) (place j) := fun j hj => by
    obtain ⟨hm, hc⟩ := hf j hj
    refine ⟨hm, hc, ?_⟩
    rw [BitVec.toNat_add, BitVec.toNat_ofNat]
    omega
  have hw : ∀ k, ((List.range (len / 4)).map fun j => wordAt s (place j)).getD k 0 = w k := fun k => getD_words _ len k hlen
  have hnext : s1.nextWord s1.h = some (wordAt s (place 0)) := by
    have h0 := hfetch 0 (Nat.mul_zero 4 ▸ lenOfL_pos _)
    rw [Nat.mul_zero, BitVec.add_zero] at h0
    have hword := fetchWord_still (h := s.h) (n := s.issued + 1) (ts := ts) h0 rfl rfl rfl
    unfold State.nextWord
    rw [show s1.h.ahead = [] from hahead, List.find?_nil]
    dsimp only
    rw [show ({ s1 with h := s1.h } : State).fetchWord s1.h.pc = _ from hword]
    rfl
  have hissue : issueConvoy exec none { s1 with h := old } = .next (t.mapH fun h => h.again old) := by
    refine issueConvoy_one (ws := (List.range (len / 4)).map fun j => wordAt s (place j)) (i := i) hres ?_ ?_ hbp ht
    · exact frame_alone (s := s) (h := asIssued old) (n := s.issued + 1) (ts := ts) rfl rfl rfl rfl hahead hfetch hchain
    · exact decodeAll_one (by simpa only [hw] using hdec) hpriv
  have hfocus : issueFocus exec none slot s0 = .next ((t.mapH fun h => h.again old).afterIssue s1.h slot (wordAt s (place 0))) := by
    unfold issueFocus
    show (if s.h.takeable && _ then _ else if State.heldBack exec s1 slot ((s1.nextWord s1.h).getD 0) ≠ 0 then _ else
      match issueConvoy exec (if s.h.takeable then none else none) { s1 with h := old } with | .next t => _ | r => r) = _
    rw [htake, Bool.false_and, if_neg Bool.false_ne_true, hnext, Option.getD_some, hheld, if_neg (not_not.2 rfl), ite_self, hissue]
  have hat : issueAt exec none core part slot busy s0 = issueFocus exec none slot s0 := by
    unfold issueAt
    rw [hchoose]
    dsimp only
    unfold State.focus
    rw [if_pos (by simp [s0, hlive])]
  unfold step stepWith State.nextTurn
  rw [hturns]
  unfold turnWith
  dsimp only
  rw [if_neg (by simp [hfirm]), show issueAt exec none core part slot busy { s with turns := ts, ended := .open } = _ from hat.trans hfocus]

end Sys2Proof.Together
end

section
/-! # What accesses of hardware leave of the device's tables -/

namespace Sys2Proof.Together
open Sys2Proof Sys2Proof.Machine Sys2Proof.Claims

/-- What no access to memory changes: the harts, the gangs, the nodes, the pool's entries and the clock. -/
def tables (s : State) : Hart × List Hart × List Gang × List Node × List Entry × Nat :=
  (s.h, s.harts, s.gangs, s.nodes, s.entries, s.clk)

theorem tables_iff {s t : State} : tables t = tables s ↔
    t.h = s.h ∧ t.harts = s.harts ∧ t.gangs = s.gangs ∧ t.nodes = s.nodes ∧ t.entries = s.entries ∧ t.clk = s.clk := by
  simp only [tables, Prod.mk.injEq]

/-- What each step of a fold keeps, the fold keeps. -/
theorem foldl_keeps {α β γ : Type} (p : γ → β) {f : γ → α → γ} (hf : ∀ s x, p (f s x) = p s) (l : List α) (s : γ) :
    p (l.foldl f s) = p s := by
  induction l generalizing s with
  | nil => rfl
  | cons x l ih => rw [List.foldl_cons, ih, hf]

section
variable (s : State) (w : Who)

/-! ## Reads -/

@[simp] theorem tables_logAt (kind cause loc pa va key synd : Nat) : tables (s.logAt w kind cause loc pa va key synd) = tables s := rfl

@[simp] theorem tables_setRegion (x : Region) : tables (s.setRegion x) = tables s := rfl

@[simp] theorem tables_setJob (j : Job) : tables (s.setJob j) = tables s := rfl

theorem tables_fab (f : Fabric) : tables { s with fab := f } = tables s := rfl

@[simp] theorem tables_takeFree : tables s.takeFree.2 = tables s := rfl

@[simp] theorem tables_quarantine (kind pa va key : Nat) : tables (s.quarantine w kind pa va key) = tables s := by
  unfold State.quarantine
  split <;> rfl

@[simp] theorem tables_poisonRegion (r key va cause : Nat) : tables (s.poisonRegion w r key va cause) = tables s := by
  unfold State.poisonRegion
  exact (tables_logAt ..).trans (tables_iff.2 ⟨rfl, rfl, rfl, rfl, rfl, rfl⟩)

@[simp] theorem tables_rekey (r key : Nat) : tables (s.rekey r key) = tables s := rfl

@[simp] theorem tables_correct (sec loc key va : Nat) : tables (s.correct w sec loc key va) = tables s := by
  unfold State.correct
  split <;> rfl

@[simp] theorem tables_fetchCtr (r key va : Nat) : tables (s.fetchCtr w r key va) = tables s := by
  unfold State.fetchCtr
  split <;> rfl

@[simp] theorem tables_logLost (cause sec loc key va : Nat) : tables (s.logLost w cause sec loc key va) = tables s := rfl

@[simp] theorem tables_readSector (sec key va : Nat) : tables (s.readSector w sec key va).2 = tables s := by
  unfold State.readSector
  dsimp only
  split_ifs <;> simp

@[simp] theorem tables_loadPlain (ws : List PWrite) (pa n key va : Nat) : tables (s.loadPlain w ws pa n key va).2 = tables s := by
  have h := tables_readSector s w (pa / 64) key va
  unfold State.loadPlain
  dsimp only
  split
  next _ t he => simpa [he] using h
  next _ t he => simpa [he] using h
  next _ t he => simpa [he] using h
  next _ t he => simpa [he] using h

@[simp] theorem tables_loadSector (ws : List PWrite) (pa n key va : Nat) : tables (s.loadSector w ws pa n key va).2 = tables s := by
  unfold State.loadSector
  dsimp only
  split_ifs <;> simp

@[simp] theorem tables_readEntry (pte va : Nat) : tables (s.readEntry w pte va).2 = tables s := by
  have h := tables_readSector s w.walker (pte / 64) (s.region (pte / 4096)).kidx va
  unfold State.readEntry
  split <;> simpa [*] using h

@[simp] theorem tables_spoil (asn pa va : Nat) : tables (s.spoil asn pa va) = tables s := by
  unfold State.spoil
  split <;> rfl

/-! ## Writes of nobody's: an error in one is posted to no hart -/

/-- The access is of no hart and of no task. -/
def Calm (w : Who) : Prop := w.hart = none ∧ w.task = 0

theorem post_calm {w : Who} (hw : Calm w) (code : Nat) (tval : DWord) : tables (s.post w code tval) = tables s := by
  obtain ⟨hh, ht⟩ := hw
  have hown : ∀ h, s.ownHart w h = false := fun h => by simp [State.ownHart, hh]
  have hteam : ∀ h, s.teamHart w h = false := fun h => by simp [State.teamHart, ht]
  unfold State.post
  simp only [hown, hteam, List.any_eq_true, Bool.false_eq_true, and_false, exists_false, if_false,
    List.find?_eq_none.2 fun _ _ => Bool.false_ne_true]
  split <;> rfl

@[simp] theorem tables_storeSector (pa : Nat) (bs : List Byte) (p : Bool) : tables (s.storeSector pa bs p) = tables s := rfl

/-- What neither an access of nobody's nor the report of an error changes, no write of a sector changes. -/
theorem writeSector_keeps {β : Type} {p : State → β} {w : Who} (ht : ∀ s t, tables t = tables s → p t = p s)
    (hpost : ∀ s c v, p (State.post s w c v) = p s) (pa key : Nat) (va : DWord) (bs : List Byte) (psn : Bool) :
    p (s.writeSector w pa key va bs psn) = p s := by
  unfold State.writeSector
  dsimp only
  split
  · refine ht _ _ ?_
    rw [tables_storeSector]
    split_ifs <;> simp
  split
  · exact ht _ _ (tables_logAt ..)
  split
  · exact (hpost ..).trans (ht _ _ (tables_poisonRegion ..))
  split
  · exact (hpost ..).trans (ht _ _ (tables_quarantine ..))
  generalize hu : (if (((s.fetchCtr w (pa / 4096) key va.toNat).region (pa / 4096)).kidx != key) = true
    then (s.fetchCtr w (pa / 4096) key va.toNat).rekey (pa / 4096) key else s.fetchCtr w (pa / 4096) key va.toNat) = u
  have htu : tables u = tables s := by
    rw [← hu]
    split_ifs <;> simp
  split
  · exact (hpost ..).trans (ht _ _ ((tables_quarantine ..).trans htu))
  · refine ht _ _ (Eq.trans ?_ htu)
    split_ifs <;> simp

theorem writeSector_calm {w : Who} (hw : Calm w) (pa key : Nat) (va : DWord) (bs : List Byte) (p : Bool) :
    tables (s.writeSector w pa key va bs p) = tables s :=
  writeSector_keeps s (fun _ _ h => h) (fun t c v => post_calm t hw c v) ..

@[simp] theorem tables_writeEntry (pte va v : Nat) : tables (s.writeEntry w pte va v) = tables s :=
  writeSector_calm s ⟨rfl, rfl⟩ ..

/-! ## Translation -/

@[simp] theorem tables_setSnp (pte v : Nat) : tables (s.setSnp pte v) = tables s := by
  have h := tables_readEntry s {} pte 0
  unfold State.setSnp
  split
  next _ _ he => simpa [he] using h
  next _ t he =>
    have ht : tables t = tables s := by simpa [he] using h
    dsimp only
    split_ifs
    · exact ht
    · exact ht
    · rw [tables_writeEntry]; exact ht

@[simp] theorem tables_refreshSnp (asn : Nat) (ls : List JobLeaf) : tables (s.refreshSnp asn ls) = tables s :=
  foldl_keeps tables (fun _ _ => tables_setSnp ..) _ _

@[simp] theorem tables_unshare (asn b : Nat) : tables (s.unshare asn b) = tables s := by simp [State.unshare]

@[simp] theorem tables_startCopy (asn b : Nat) (l : JobLeaf) : tables (s.startCopy asn b l).2 = tables s := by
  unfold State.startCopy
  dsimp only
  split <;> simp

@[simp] theorem tables_cowCheck (asn leaf pte pa : Nat) : tables (s.cowCheck asn leaf pte pa).2 = tables s := by
  unfold State.cowCheck
  dsimp only
  split
  · split_ifs
    · rfl
    · split <;> simp
    · simp
  · split_ifs <;> simp

@[simp] theorem tables_setAccDrt (e : TlbEntry) (wr : Bool) : tables (s.setAccDrt e wr) = tables s := by
  have h := tables_readEntry s { asn := e.asn } e.pte e.va
  unfold State.setAccDrt
  split
  next _ _ he => simpa [he] using h
  next _ t he =>
    have ht : tables t = tables s := by simpa [he] using h
    dsimp only
    split_ifs <;> simp [ht]

@[simp] theorem tables_walk (va : Nat) (ls : List Nat) (t : Nat) : tables (s.walk w va ls t).2 = tables s := by
  induction ls generalizing s t with
  | nil => rfl
  | cons lvl ls ih =>
    have h := tables_readEntry s w (t + 8 * vaIndex va lvl) va
    unfold State.walk
    dsimp only
    split
    next _ _ he => simpa [he] using h
    next _ t he =>
      have ht : tables t = tables s := by simpa [he] using h
      split_ifs
      · exact ht
      · exact ht
      · rw [ih, ht]

@[simp] theorem tables_lookup (va : Nat) : tables (s.lookup w va).2 = tables s := by
  unfold State.lookup
  split
  · rfl
  split
  · rfl
  next sp _ =>
    have h := tables_walk s w va [4, 3, 2, 1, 0] sp.root
    split
    next _ _ he => simpa [he] using h
    next _ _ _ t he =>
      have ht : tables t = tables s := by simpa [he] using h
      exact ht

@[simp] theorem tables_find (va : Nat) (k : Acc) : tables (s.find w va k).2 = tables s := by
  have h := tables_lookup s w va
  unfold State.find
  split
  · rfl
  split
  next _ _ he => simpa [he] using h
  next e t he =>
    have ht : tables t = tables s := by simpa [he] using h
    dsimp only
    split
    · split
      next _ u hc =>
        have hu := tables_cowCheck t w.asn e.leaf.toNat e.pte (leafFrame e.leaf.toNat + va % e.size)
        split at hc
        · rw [hc] at hu; exact hu.trans ht
        · cases hc
      next u hc =>
        have hu := tables_cowCheck t w.asn e.leaf.toNat e.pte (leafFrame e.leaf.toNat + va % e.size)
        split at hc
        · rw [hc] at hu; exact hu.trans ht
        · cases hc; exact ht
    · exact ht

@[simp] theorem tables_translate (va : Nat) (k : Acc) : tables (s.translate w va k).2 = tables s := by
  have h := tables_find s w va k
  unfold State.translate
  split
  next _ _ he => simpa [he] using h
  next _ _ _ t he =>
    have ht : tables t = tables s := by simpa [he] using h
    simp [ht]

@[simp] theorem tables_discardSnapshots (asn : Nat) : tables (s.discardSnapshots asn) = tables s := by
  unfold State.discardSnapshots
  dsimp only
  split <;> simp

@[simp] theorem tables_copyBlock (src skey dst dkey : Nat) : tables (s.copyBlock src skey dst dkey) = tables s := by
  unfold State.copyBlock
  generalize List.range 1024 = l
  refine (tables_fab _ _).trans ?_
  refine foldl_keeps tables (fun t i => ?_) _ _
  rw [writeSector_calm _ ⟨rfl, rfl⟩, tables_readSector]

@[simp] theorem tables_copyDone (asn b : Nat) : tables (s.copyDone asn b) = tables s := by
  unfold State.copyDone
  extract_lets j
  split
  · rfl
  · rw [tables_refreshSnp, tables_setSnp, tables_setJob, tables_copyBlock]

@[simp] theorem tables_allCopiesDone : tables s.allCopiesDone = tables s :=
  foldl_keeps tables (fun _ _ => foldl_keeps tables (fun _ _ => tables_copyDone ..) _ _) _ _

@[simp] theorem tables_translateHw (va : Nat) : tables (s.translateHw w va).2 = tables s := by
  have h := tables_translate s w va .write
  unfold State.translateHw
  split
  next _ t he =>
    have ht : tables t = tables s := by simpa [he] using h
    split_ifs <;> simp [ht]
  · exact h

@[simp] theorem tables_translateNow (va : Nat) : tables (s.translateNow w va).2 = tables s := by
  have h := tables_translateHw s w va
  unfold State.translateNow
  split
  next t he =>
    have ht : tables t = tables s := by simpa [he] using h
    simp [ht]
  · exact h

end

end Sys2Proof.Together
end

section
/-! # What the launch engine starts next (R14 to R16, R34, R311, R312, R37) -/

namespace Sys2Proof.Together
open Sys2Proof Sys2Proof.Machine Sys2Proof.Claims

section
variable {s : State}

/-! ## Placement -/

theorem powered_iff : s.powered = true ↔ s.firm.st = 3 ∧ s.firm.pst ≤ 1 ∧ s.firm.ask = none := by
  unfold State.powered
  simp [and_assoc]

theorem startable_iff {n : Node} : s.startable n = true ↔ n.task = true ∧ n.toStart ≠ [] ∧
    (n.st = .running ∨ (n.st = .ready ∧ s.stoppedAs n.asn = false ∧ s.launchHeld n = false)) := by
  unfold State.startable
  simp [and_assoc]

/-- A partition can take a gang (R15, R16). -/
def freePart (s : State) (c p : Nat) : Bool :=
  !s.partQuar.contains (c, p) && !s.man.off.contains (c, p) && s.gangs.all fun g => g.core != c || !g.parts.contains p

theorem freeParts_nil (c : Nat) : s.freeParts [] c = (List.range 8).filter (freePart s c) := by
  unfold State.freeParts freePart
  simp only [List.contains_nil, Bool.false_or]

theorem mem_freeParts {c p : Nat} : (s.freeParts [] c).contains p = true ↔ p < 8 ∧ freePart s c p = true := by
  simp [freeParts_nil]

theorem fits_iff {d : TaskDesc} {c : Nat} : s.fits d [] c = true ↔ c < 128 ∧ d.parts ≤ (List.range 8).countP (freePart s c) ∧
    ((s.gangs.filter (·.core == c)).map (·.tcm.size)).sum + granules d.tcmb ≤ 393216 ∧
    ((s.gangs.filter (·.core / 4 == c / 4)).map (·.sp.size)).sum + granules d.spb ≤ 4194304 ∧
    (d.mat = true → ∀ g ∈ s.gangs, g.core = c → g.desc.mat = false) := by
  unfold State.fits
  simp only [List.contains_nil, Bool.not_false, List.filter_true, freeParts_nil, List.countP_eq_length_filter, Bool.and_eq_true,
    decide_eq_true_eq, Bool.not_eq_true', Bool.and_eq_false_iff, List.any_eq_false, List.mem_filter, beq_iff_eq, and_assoc, and_imp]
  refine and_congr_right fun _ => and_congr_right fun _ => and_congr_right fun _ => and_congr_right fun _ => ?_
  cases d.mat <;> simp

theorem placeable_iff {d : TaskDesc} : s.placeable d [] = true ↔ ∃ c, s.fits d [] c = true := by
  unfold State.placeable
  simp only [List.any_eq_true, List.mem_range]
  exact ⟨fun ⟨c, _, h⟩ => ⟨c, h⟩, fun ⟨c, h⟩ => ⟨c, (fits_iff.1 h).1, h⟩⟩

/-! ## The oldest task of a queue -/

/-- The fold of `oldest` gives a member of its list that no other is older than. -/
theorem foldl_older (l : List Node) (a : Node) :
    let m := l.foldl (fun a b => if b.readyNo < a.readyNo then b else a) a
    m ∈ a :: l ∧ ∀ b ∈ a :: l, m.readyNo ≤ b.readyNo := by
  induction l generalizing a with
  | nil => simp
  | cons x l ih =>
    simp only [List.foldl_cons]
    by_cases hx : x.readyNo < a.readyNo
    · obtain ⟨hmem, hle⟩ := ih x
      rw [if_pos hx]
      refine ⟨List.mem_cons_of_mem _ hmem, fun b hb => ?_⟩
      rcases List.mem_cons.1 hb with rfl | hb
      · exact (hle x List.mem_cons_self).trans hx.le
      · exact hle b hb
    · obtain ⟨hmem, hle⟩ := ih a
      rw [if_neg hx]
      have ha := hle a List.mem_cons_self
      refine ⟨?_, fun b hb => ?_⟩
      · rcases List.mem_cons.1 hmem with h | h
        · rw [h]; exact List.mem_cons_self
        · exact List.mem_cons_of_mem _ (List.mem_cons_of_mem _ h)
      · rcases List.mem_cons.1 hb with rfl | hb
        · exact ha
        · rcases List.mem_cons.1 hb with rfl | hb
          · exact ha.trans (not_lt.1 hx)
          · exact hle b (List.mem_cons_of_mem _ hb)

/-- The tasks that `oldest` chooses from. -/
theorem mem_queued {n : Node} {p q : Nat} : n ∈ s.nodes.filter (fun n => s.startable n && n.prio == p && n.queue.getD 0 == q) ↔
    n ∈ s.nodes ∧ s.startable n = true ∧ n.prio = p ∧ n.queue.getD 0 = q := by
  simp [and_assoc]

theorem oldest_spec {n : Node} {p q : Nat} (h : s.oldest p q = some n) :
    (n ∈ s.nodes ∧ s.startable n = true ∧ n.prio = p ∧ n.queue.getD 0 = q) ∧
      ∀ m ∈ s.nodes, s.startable m = true → m.prio = p → m.queue.getD 0 = q → n.readyNo ≤ m.readyNo := by
  unfold State.oldest at h
  split at h
  · cases h
  next a l hl =>
    obtain ⟨hmem, hle⟩ := foldl_older l a
    cases h
    rw [← hl] at hmem hle
    exact ⟨mem_queued.1 hmem, fun m hm hs hp hq => hle m (mem_queued.2 ⟨hm, hs, hp, hq⟩)⟩

theorem oldest_none {p q : Nat} (h : ∀ m ∈ s.nodes, s.startable m = true → m.prio = p → m.queue.getD 0 ≠ q) : s.oldest p q = none := by
  unfold State.oldest
  rw [List.filter_eq_nil_iff.2 fun m hm => ?_]
  simpa [and_assoc] using h m hm

/-- The only startable task is the oldest of its queue. -/
theorem oldest_only {n : Node} (hn : n ∈ s.nodes) (hs : s.startable n = true) (hu : ∀ m ∈ s.nodes, s.startable m = true → m = n) :
    s.oldest n.prio (n.queue.getD 0) = some n := by
  have hmem := mem_queued.2 ⟨hn, hs, rfl, rfl⟩
  cases ho : s.oldest n.prio (n.queue.getD 0) with
  | none =>
    unfold State.oldest at ho
    split at ho
    next h => rw [h] at hmem; cases hmem
    · cases ho
  | some m =>
    obtain ⟨⟨hm, hms, -, -⟩, -⟩ := oldest_spec ho
    rw [hu m hm hms]

/-! ## Deficit round-robin -/

theorem Rota.get_put (l : List (Nat × Nat)) (k v : Nat) : Rota.get (Rota.put l k v) k = v := by simp [Rota.get, Rota.put]

theorem Rota.get_lt {l : List (Nat × Nat)} (h : ∀ c ∈ l, c.2 < 64) (k : Nat) : Rota.get l k < 64 := by
  unfold Rota.get
  split
  next x hx => exact h x (List.mem_of_find?_eq_some hx)
  · omega

/-- The rota serves the oldest task of some queue, which can be placed. -/
theorem serve_spec {p fuel : Nat} {r r' : Rota} {n : Node} (h : s.serve p fuel r = some (n, r')) :
    s.placeable n.desc [] = true ∧ ∃ q, s.oldest p q = some n := by
  induction fuel generalizing r with
  | zero => cases h
  | succ fuel ih =>
    unfold State.serve at h
    dsimp only at h
    split at h
    · exact ih h
    next m hm =>
      split at h
      next hp =>
        cases h
        exact ⟨(Bool.and_eq_true _ _ ▸ hp).1, _, hm⟩
      · exact ih h

section
variable {n : Node} {p : Nat}

/-- The task of the queue that is visited, whose deficit covers its harts, is served. -/
theorem serve_here (r : Rota) (fuel : Nat) (hp : s.placeable n.desc [] = true) (ho : s.oldest p (Rota.get r.cur p) = some n)
    (hd : n.desc.harts ≤ Rota.get r.deficit (64 * p + Rota.get r.cur p)) : (s.serve p (fuel + 1) r).map (·.1) = some n := by
  unfold State.serve
  simp only [ho, hp, hd, decide_true, Bool.and_self, if_true, Option.map_some]

/-- A queue that has nothing to serve is passed over, and the next one gains its quantum (R312). -/
theorem serve_pass (r : Rota) (fuel : Nat) (h : ∀ m, s.oldest p (Rota.get r.cur p) = some m →
      ¬ m.desc.harts ≤ Rota.get r.deficit (64 * p + Rota.get r.cur p)) :
    ∃ r', s.serve p (fuel + 1) r = s.serve p fuel r' ∧ Rota.get r'.cur p = (Rota.get r.cur p + 1) % 64 ∧
      32 * s.weightOf ((Rota.get r.cur p + 1) % 64) ≤ Rota.get r'.deficit (64 * p + (Rota.get r.cur p + 1) % 64) := by
  rw [State.serve]
  dsimp only
  split
  · exact ⟨_, rfl, Rota.get_put .., by rw [Rota.get_put]; omega⟩
  next m hm =>
    rw [if_neg (by simp [h m hm])]
    exact ⟨_, rfl, Rota.get_put .., by rw [Rota.get_put]; omega⟩

/-- The rota reaches the only queue with a task, `k` visits on, and serves it. -/
theorem serve_reaches {q : Nat} (hp : s.placeable n.desc [] = true) (ho : s.oldest p q = some n) (hq : q < 64)
    (hnone : ∀ q', q' ≠ q → s.oldest p q' = none) (hw : n.desc.harts ≤ 32 * s.weightOf q) (k : Nat) (hk : k < 64) :
    ∀ (r : Rota) (fuel : Nat), k < fuel → Rota.get r.cur p < 64 → (Rota.get r.cur p + k) % 64 = q →
      (k = 0 → n.desc.harts ≤ Rota.get r.deficit (64 * p + q)) → (s.serve p fuel r).map (·.1) = some n := by
  induction k with
  | zero =>
    intro r fuel hf hc he hd
    obtain ⟨fuel, rfl⟩ : ∃ f, fuel = f + 1 := ⟨fuel - 1, by omega⟩
    have hcur : Rota.get r.cur p = q := by omega
    exact serve_here r fuel hp (hcur ▸ ho) (hcur ▸ hd rfl)
  | succ k ih =>
    intro r fuel hf hc he _
    obtain ⟨fuel, rfl⟩ : ∃ f, fuel = f + 1 := ⟨fuel - 1, by omega⟩
    have hcur : Rota.get r.cur p ≠ q := by omega
    obtain ⟨r', hs, hc', hd'⟩ := serve_pass r fuel fun m hm => by rw [hnone _ hcur] at hm; cases hm
    rw [hs]
    refine ih (by omega) r' fuel (by omega) (by omega) (by omega) fun h0 => ?_
    have : (Rota.get r.cur p + 1) % 64 = q := by omega
    rw [this] at hd'
    omega

/-- The only queue with a task is served within two rounds. -/
theorem serve_only {q : Nat} (r : Rota) (hp : s.placeable n.desc [] = true) (ho : s.oldest p q = some n) (hq : q < 64)
    (hnone : ∀ q', q' ≠ q → s.oldest p q' = none) (hw : n.desc.harts ≤ 32 * s.weightOf q) (hc : Rota.get r.cur p < 64) :
    (s.serve p 192 r).map (·.1) = some n := by
  by_cases hcur : Rota.get r.cur p = q
  · by_cases hd : n.desc.harts ≤ Rota.get r.deficit (64 * p + q)
    · exact serve_here r 191 hp (hcur ▸ ho) (hcur ▸ hd)
    · obtain ⟨r', hs, hc', -⟩ := serve_pass (s := s) (p := p) r 191 fun m hm => by
        rw [hcur, ho] at hm
        cases hm
        rwa [hcur]
      rw [hs]
      exact serve_reaches hp ho hq hnone hw 63 (by omega) r' 191 (by omega) (by omega) (by omega) (by omega)
  · exact serve_reaches hp ho hq hnone hw ((q + 64 - Rota.get r.cur p) % 64) (by omega) r 192 (by omega) hc (by omega) (by omega)

end

/-! ## The start that is next -/

theorem nextStart_spec {n : Node} {r : Rota} (h : s.nextStart = some (n, r)) :
    n ∈ s.nodes ∧ s.startable n = true ∧ ∀ m ∈ s.nodes, s.startable m = true →
      (s.placeable m.desc [] = true → n.prio ≤ m.prio) ∧
      (m.prio = n.prio → m.queue.getD 0 = n.queue.getD 0 → n.readyNo ≤ m.readyNo) := by
  unfold State.nextStart at h
  split at h
  · cases h
  next p hp =>
    obtain ⟨-, q, hq⟩ := serve_spec h
    obtain ⟨⟨hn, hs, rfl, rfl⟩, hle⟩ := oldest_spec hq
    refine ⟨hn, hs, fun m hm hms => ⟨fun hpl => ?_, fun h1 h2 => hle m hm hms h1 h2⟩⟩
    by_contra hlt
    have hlt4 : n.prio < 4 := List.mem_range.1 (List.mem_of_find?_eq_some hp)
    obtain ⟨-, as, bs, hrange, has⟩ := List.find?_eq_some_iff_append.1 hp
    have hmem : m.prio ∈ as := by
      have hm4 : m.prio ∈ List.range 4 := List.mem_range.2 (by omega)
      have hsorted : (List.range 4).Pairwise (· < ·) := List.pairwise_lt_range
      rw [hrange] at hm4 hsorted
      rcases List.mem_append.1 hm4 with h' | h'
      · exact h'
      · rcases List.mem_cons.1 h' with h' | h'
        · omega
        · have := (List.pairwise_cons.1 (List.pairwise_append.1 hsorted).2.1).1 _ h'
          omega
    have := has _ hmem
    simp only [Bool.not_eq_true', List.any_eq_false, Bool.and_eq_true, beq_iff_eq] at this
    exact this m hm ⟨⟨hms, rfl⟩, hpl⟩

/-- The only startable task starts next when it can be placed. -/
theorem nextStart_only {n : Node} (hn : n ∈ s.nodes) (hs : s.startable n = true) (hu : ∀ m ∈ s.nodes, s.startable m = true → m = n)
    (hp : s.placeable n.desc [] = true) (hprio : n.prio < 4) (hq : n.queue.getD 0 < 64)
    (hw : n.desc.harts ≤ 32 * s.weightOf (n.queue.getD 0)) (hc : ∀ c ∈ s.rota.cur, c.2 < 64) : s.nextStart.map (·.1) = some n := by
  have hany : ∀ p, (s.nodes.any fun m => s.startable m && m.prio == p && s.placeable m.desc []) = true ↔ p = n.prio := fun p => by
    simp only [List.any_eq_true, Bool.and_eq_true, beq_iff_eq]
    constructor
    · rintro ⟨m, hm, ⟨hms, rfl⟩, -⟩
      rw [hu m hm hms]
    · rintro rfl
      exact ⟨n, hn, ⟨hs, rfl⟩, hp⟩
  have hfind : ((List.range 4).find? fun p => s.nodes.any fun m => s.startable m && m.prio == p && s.placeable m.desc []) =
      some n.prio := by
    cases hf : (List.range 4).find? fun p => s.nodes.any fun m => s.startable m && m.prio == p && s.placeable m.desc [] with
    | none => exact absurd ((hany n.prio).2 rfl) (by simpa using List.find?_eq_none.1 hf n.prio (List.mem_range.2 hprio))
    | some p =>
      have hp' := List.find?_some hf
      rw [(hany p).1 hp']
  unfold State.nextStart
  rw [hfind]
  exact serve_only s.rota hp (oldest_only hn hs hu) hq
    (fun q' hne => oldest_none fun m hm hms _ h => hne (by rw [← h, hu m hm hms])) hw (Rota.get_lt hc _)

theorem mayStart_iff {node gidx core : Nat} {ps : List Nat} {n : Node} {r : Rota} : s.mayStart node gidx core ps = some (n, r) ↔
    s.nextStart = some (n, r) ∧ s.powered = true ∧ n.id = node ∧ n.toStart.head? = some gidx ∧ s.fits n.desc [] core = true ∧
      ps.length = n.desc.parts ∧ ∀ p ∈ ps, p < 8 ∧ freePart s core p = true := by
  unfold State.mayStart
  split
  next h => simp [h]
  next m r' h =>
    simp only [h, Option.some.injEq, Prod.mk.injEq]
    constructor
    · intro hif
      split at hif
      next hc =>
        cases hif
        simpa [and_assoc, mem_freeParts, freeParts_nil] using hc
      · cases hif
    · rintro ⟨⟨rfl, rfl⟩, hc⟩
      rw [if_pos]
      simpa [and_assoc, mem_freeParts, freeParts_nil] using hc

end

end Sys2Proof.Together
end

section
/-! # Starts, aging and the requests of a save (R37, R310, R311, R324) -/

namespace Sys2Proof.Together
open Sys2Proof Sys2Proof.Machine Sys2Proof.Claims

section
variable {s : State}

/-- A core takes a gang of a task. -/
def Takes (s : State) (d : TaskDesc) (c : Nat) : Prop :=
  c < 128 ∧ d.parts ≤ (List.range 8).countP (freePart s c) ∧
    ((s.gangs.filter (·.core == c)).map (·.tcm.size)).sum + granules d.tcmb ≤ 393216 ∧
    ((s.gangs.filter (·.core / 4 == c / 4)).map (·.sp.size)).sum + granules d.spb ≤ 4194304 ∧
    (d.mat = true → ∀ g ∈ s.gangs, g.core = c → g.desc.mat = false)

/-- A task that has a gang to start and is held back by nothing. -/
def Wants (s : State) (m : Node) : Prop :=
  m ∈ s.nodes ∧ m.task = true ∧ m.toStart ≠ [] ∧
    (m.st = .running ∨ (m.st = .ready ∧ s.stoppedAs m.asn = false ∧ s.launchHeld m = false))

theorem wants_iff {m : Node} : Wants s m ↔ m ∈ s.nodes ∧ s.startable m = true := and_congr_right fun _ => startable_iff.symm

theorem takes_iff {d : TaskDesc} {c : Nat} : Takes s d c ↔ s.fits d [] c = true := fits_iff.symm

/-- The gang of the node may be placed on the partitions of the core. -/
def MayPlace (s : State) (node gidx core : Nat) (ps : List Nat) (n : Node) : Prop :=
  (s.firm.st = 3 ∧ s.firm.pst ≤ 1 ∧ s.firm.ask = none) ∧ n.id = node ∧ Wants s n ∧ n.toStart.head? = some gidx ∧ Takes s n.desc core ∧
    ps.length = n.desc.parts ∧ ∀ p ∈ ps, p < 8 ∧ freePart s core p = true

section
variable {node gidx core : Nat} {ps : List Nat} {n : Node} {r : Rota}

/-- What starts may be placed, and is first in the order of R311 and R312. -/
theorem mayStart_sound (h : s.mayStart node gidx core ps = some (n, r)) : MayPlace s node gidx core ps n ∧ ∀ m, Wants s m →
    ((∃ c, Takes s m.desc c) → n.prio ≤ m.prio) ∧ (m.prio = n.prio → m.queue.getD 0 = n.queue.getD 0 → n.readyNo ≤ m.readyNo) := by
  obtain ⟨hnext, hpow, hid, hhead, hfits, hlen, hall⟩ := mayStart_iff.1 h
  obtain ⟨hn, hs, hle⟩ := nextStart_spec hnext
  refine ⟨⟨powered_iff.1 hpow, hid, wants_iff.2 ⟨hn, hs⟩, hhead, takes_iff.2 hfits, hlen, hall⟩, fun m hm => ?_⟩
  obtain ⟨hm, hms⟩ := wants_iff.1 hm
  obtain ⟨hprio, hage⟩ := hle m hm hms
  exact ⟨fun ⟨c, hc⟩ => hprio (placeable_iff.2 ⟨c, takes_iff.1 hc⟩), hage⟩

/-- The only task that wants to start does. -/
theorem mayStart_only (h : MayPlace s node gidx core ps n) (hu : ∀ m, Wants s m → m = n) (hprio : n.prio < 4) (hq : n.queue.getD 0 < 64)
    (hh : n.desc.harts ≤ 32) (hw : 1 ≤ s.weightOf (n.queue.getD 0)) (hc : ∀ c ∈ s.rota.cur, c.2 < 64) :
    (s.mayStart node gidx core ps).map (·.1) = some n := by
  obtain ⟨hpow, hid, hwn, hhead, htakes, hlen, hall⟩ := h
  obtain ⟨hn, hs⟩ := wants_iff.1 hwn
  have hfits := takes_iff.1 htakes
  obtain ⟨⟨m, r⟩, hnext, rfl⟩ := Option.map_eq_some_iff.1 (nextStart_only hn hs (fun m hm hms => hu m (wants_iff.2 ⟨hm, hms⟩))
    (placeable_iff.2 ⟨core, hfits⟩) hprio hq (by omega) hc)
  rw [mayStart_iff.2 ⟨hnext, powered_iff.2 hpow, hid, hhead, hfits, hlen, hall⟩]
  rfl

/-- A gang that may not start does not. -/
theorem gangStart_not (mask : Nat) (h : ∀ k, s.node node = some k → s.mayStart node (k.toStart.headD 0) core (maskParts mask) = none)
    (h0 : s.mayStart node 0 core (maskParts mask) = none) : exec (.gangStart node core mask) s = .next s := by
  show execGangStart node core mask s = _
  unfold execGangStart
  cases hn : s.node node with
  | none => simp only [h0]
  | some k => simp only [h k hn]

end

/-! ## Aging -/

theorem taskAging_eq (node : Nat) : ∃ t, exec (.taskAging node) s = .next t ∧ t = { s with nodes := t.nodes } ∧
    t.nodes = s.nodes.map fun m =>
      if m.id = node ∧ m.task = true ∧ m.st = .ready ∧ 0 < m.prio ∧ m.since.toNat + 2000000 ≤ s.tstamp.toNat then
        { m with prio := m.prio - 1, since := s.tstamp } else m := by
  refine ⟨_, rfl, rfl, List.map_congr_left fun m _ => ?_⟩
  by_cases hid : m.id = node
  · simp only [hid, true_and, if_true, Bool.and_eq_true, beq_iff_eq, decide_eq_true_eq, and_assoc]
  · simp only [hid, false_and, if_false]

/-! ## The request for a hart of a team that is saved -/

/-- The save that a core works on is the first of its team. -/
theorem save_of_core {op : SaveOp} {c : Nat} {l : List SaveOp} (h : l.find? (·.team.core == c) = some op) :
    l.find? (·.team == op.team) = some op := by
  obtain ⟨hc, as, bs, hl, has⟩ := List.find?_eq_some_iff_append.1 h
  refine List.find?_eq_some_iff_append.2 ⟨beq_self_eq_true _, as, bs, hl, fun a ha => ?_⟩
  have := has a ha
  simp only [Bool.not_eq_true', beq_eq_false_iff_ne, beq_iff_eq] at this hc ⊢
  rintro heq
  exact this (by rw [heq, hc])

theorem saves_mapSave (t u : Team) (f : SaveOp → SaveOp) (hf : ∀ o, (f o).team = o.team) :
    (s.mapSave t f).saves.find? (·.team == u) = (s.saves.find? (·.team == u)).map fun o => if o.team = t then f o else o := by
  show (s.saves.map _).find? _ = _
  rw [List.find?_map]
  congr 2
  funext o
  simp only [Function.comp_apply]
  split
  · rw [hf]
  · rfl

/-- With every hart that is still to be asked in the team, the save's order stands. -/
theorem checkSave_asks {op : SaveOp} {i : HartId} {rest : List HartId} (hop : s.saves.find? (·.team == op.team) = some op)
    (ho : op.order = i :: rest) (hall : ∀ i ∈ op.order, ∃ h ∈ s.teamHarts op.team, h.id = i) :
    s.checkSave op.team = s.mapSave op.team fun o => { o with order := op.order } := by
  have hkeep : (op.order.filter fun i => (s.teamHarts op.team).any (·.id == i)) = op.order :=
    List.filter_eq_self.2 fun i hi => by simpa using hall i hi
  obtain ⟨h, hh, -⟩ := hall i (by simp [ho])
  have hne : (s.teamHarts op.team).isEmpty = false := by
    cases hl : s.teamHarts op.team with
    | nil => rw [hl] at hh; cases hh
    | cons _ _ => rfl
  unfold State.checkSave
  simp only [hop, hkeep, hne, Bool.false_eq_true, if_false]
  rw [if_neg (by simp [ho])]

/-- The hart that comes next in the save that its core works on is asked (R324). -/
theorem askNext_asks {op : SaveOp} {rest : List HartId} (hop : s.saves.find? (·.team.core == s.h.id.core) = some op)
    (ho : op.order = s.h.id :: rest) (hl : s.h.live = true) (hall : ∀ i ∈ op.order, ∃ h ∈ s.teamHarts op.team, h.id = i)
    (hidle : ∀ h ∈ s.allHarts, h.id.core = s.h.id.core → h.sv ≠ .asked ∧ h.sv ≠ .lent) :
    (s.askNext s.h.id).h = { s.h with sv := .asked, preempt := some op.deadline } := by
  have hteam := save_of_core hop
  have hfind : (s.mapSave op.team fun o => { o with order := op.order }).saves.find? (·.team == op.team) = some op := by
    rw [saves_mapSave op.team op.team (fun o => { o with order := op.order }) (fun _ => rfl), hteam]
    simp
  have hfree : ((s.mapSave op.team fun o => { o with order := op.order }).allHarts.any fun h =>
      h.id.core == s.h.id.core && (h.sv == .asked || h.sv == .lent)) = false := by
    rw [List.any_eq_false]
    intro h hh
    have := hidle h hh
    simpa using this
  unfold State.askNext
  simp only [hop, checkSave_asks hteam ho hall, hfind, hfree]
  rw [if_neg (by simp [ho])]
  show (if _ then _ else _) = _
  rw [if_pos (by simpa [State.mapSave] using hl)]
  rfl

end

end Sys2Proof.Together
end

section
/-! # Gangs that start, drains and restores (R310, R325, R326) -/

namespace Sys2Proof.Together
open Sys2Proof Sys2Proof.Machine Sys2Proof.Claims

section
variable (s : State)

/-! ## Blocks of the device's own -/

@[simp] theorem tables_readBlock (w : Who) (va : DWord) : tables (s.readBlock w va).2 = tables s := by
  have h := tables_translate s w va.toNat .read
  unfold State.readBlock
  split
  next _ t he => simpa [he] using h
  next pa key t he =>
    have ht : tables t = tables s := by simpa [he] using h
    have hl := tables_loadSector t w [] pa 64 key va.toNat
    split
    next u hu => rw [hu] at hl; exact hl.trans ht
    next l u hu => rw [hu] at hl; exact hl.trans ht

@[simp] theorem tables_readTcb (asn core : Nat) : tables (s.readTcb asn core).2 = tables s := by
  unfold State.readTcb
  split
  · rfl
  next sp _ =>
    split
    · rfl
    have h := tables_readBlock s { core := core, asn := asn, prv := true } sp.tcb
    split
    next u hu => rw [hu] at h; exact h
    next l u hu => rw [hu] at h; exact h

@[simp] theorem tables_dropRec (r : TraceRec) (hr : r.hart = none) : tables (s.dropRec r) = tables s := by
  unfold State.dropRec
  rw [hr]
  rfl

/-- A record that names no hart. -/
@[simp] theorem tables_emit (tcb : Tcb) (node type eng : Nat) (data : DWord) : tables (s.emit tcb node none type eng data) = tables s := by
  unfold State.emit State.queueRec
  split_ifs
  · rfl
  · exact tables_dropRec _ _ rfl
  · rfl

@[simp] theorem tables_saveBytes (n : Node) (core : Nat) (l : List (Nat × Nat)) (bs : List (Byte × Bool)) :
    tables (State.saveBytes (saveWho n core) l bs s).2 = tables s := by
  induction l generalizing s bs with
  | nil => rfl
  | cons x l ih =>
    obtain ⟨a, len⟩ := x
    have hfirst : ∀ t, t = (match s.translate (saveWho n core) a .write with | (.error .wait, s) => s.allCopiesDone | (_, s) => s) →
        tables t = tables s := by
      rintro t rfl
      have h := tables_translate s (saveWho n core) a .write
      split
      next u hu => rw [hu] at h; exact (tables_allCopiesDone u).trans h
      next u _ hu => rw [hu] at h; exact h
    unfold State.saveBytes
    extract_lets t
    have ht := hfirst t rfl
    have h := tables_translate t (saveWho n core) a .write
    split
    next u hu => rw [hu] at h; exact h.trans ht
    next pa key u hu =>
      rw [hu] at h
      rw [ih, writeSector_calm _ ⟨rfl, rfl⟩, tables_spoil]
      exact h.trans ht

@[simp] theorem tables_saveWrite (n : Node) (core : Nat) (va : DWord) (bs : List (Byte × Bool)) :
    tables (s.saveWrite n core va bs).2 = tables s := tables_saveBytes ..

/-- A read of the save window changes no gang. -/
@[simp] theorem tables_readEcc_win (w : Who) (off n : Nat) : tables (s.readEcc w .win off n) = tables s := by
  unfold State.readEcc
  dsimp only
  split
  · rfl
  · rfl

@[simp] theorem tables_drainTo (n : Node) (core : Nat) (base : DWord) (l : List Nat) : tables (s.drainTo n core base l).2 = tables s := by
  induction l generalizing s with
  | nil => rfl
  | cons i l ih =>
    unfold State.drainTo
    dsimp only
    split_ifs
    · simp
    · simp [ih]
    · simp

@[simp] theorem tables_loadBytes (w : Who) (l : List (Nat × Nat)) : tables (State.loadBytes w l s).2 = tables s := by
  induction l generalizing s with
  | nil => rfl
  | cons x l ih =>
    obtain ⟨a, len⟩ := x
    have h := tables_translate s w a .read
    unfold State.loadBytes
    split
    next u hu => rw [hu] at h; exact h
    next pa key t he =>
      rw [he] at h
      have hl := tables_loadSector t w [] pa len key a
      split
      next u hu => rw [hu] at hl; exact hl.trans h
      next bs u hu =>
        rw [hu] at hl
        split
        · exact hl.trans h
        have hr := ih u
        split
        next v hv => rw [hv] at hr; exact hr.trans (hl.trans h)
        next r v hv => rw [hv] at hr; exact hr.trans (hl.trans h)

@[simp] theorem tables_readBack (n : Node) (core : Nat) (b : SaveBlock) : tables (s.readBack n core b).2 = tables s := by
  have h := tables_loadBytes s (saveWho n core) (piecesOf b.va.toNat b.len)
  unfold State.readBack
  split
  next u hu => rw [hu] at h; exact h
  next bs u hu => rw [hu] at h; exact h

@[simp] theorem tables_readBlocks (n : Node) (core : Nat) (l : List SaveBlock) : tables (s.readBlocks n core l).2 = tables s := by
  induction l generalizing s with
  | nil => rfl
  | cons b l ih =>
    have h := tables_readBack s n core b
    unfold State.readBlocks
    split
    next u hu => rw [hu] at h; exact h
    next r u _ hu =>
      rw [hu] at h
      have hr := ih u
      split
      next v hv => rw [hv] at hr; exact hr.trans h
      next q v _ hv => rw [hv] at hr; exact hr.trans h

@[simp] theorem tables_count (core part ev n : Nat) : tables (s.count core part ev n) = tables s := by
  unfold State.count
  split <;> rfl

end

end Sys2Proof.Together
end

section
/-! # Gangs that start or are restored, and drains that end (R310, R325, R326) -/

namespace Sys2Proof.Together
open Sys2Proof Sys2Proof.Machine Sys2Proof.Claims

section
variable {s : State} {node gidx core mask : Nat} {n : Node} {r : Rota}

/-! ## Starts -/

/-- A start adds the gang and its harts, and no other. -/
theorem startGang_adds (s : State) (n : Node) (gidx core : Nat) (ps : List Nat) : ∃ key tvec tcb now,
    (s.startGang n gidx core ps).harts = s.harts ++ (List.range n.desc.harts).map (newHart n core ps key tvec) ∧
      (s.startGang n gidx core ps).gangs = s.gangs ++ [newGang n key gidx core ps tcb now] := by
  obtain ⟨-, hharts, hgangs, -⟩ := tables_iff.1 (tables_readTcb s n.asn core)
  refine ⟨(s.readTcb n.asn core).2.startCount + 1,
    (match (s.readTcb n.asn core).2.spaceOf n.asn with | some sp => sp.trap | none => 0), (s.readTcb n.asn core).1,
    (s.readTcb n.asn core).2.tstamp, ?_⟩
  rw [← hharts, ← hgangs]
  unfold State.startGang
  dsimp only
  split
  · obtain ⟨-, h1, h2, -⟩ := tables_iff.1 (tables_emit _ _ _ _ _ _)
    rw [h1, h2]
    exact ⟨rfl, rfl⟩
  · exact ⟨rfl, rfl⟩

theorem getX_newHart (n : Node) (core : Nat) (ps : List Nat) (key : Nat) (tvec : DWord) (gh : Nat) (q : BitVec 6) :
    (newHart n core ps key tvec gh).getX q =
      if 1 ≤ q.toNat ∧ q.toNat ≤ 8 then n.args.getD (q.toNat - 1) 0 else if q = 9 then n.rolled.getD 0 else 0 := by
  have h9 : q = 9 ↔ q.toNat = 9 := by bv_omega
  have h0 : q = 0 ↔ q.toNat = 0 := by bv_omega
  unfold Hart.getX newHart
  simp only [Vector.get_ofFn, BitVec.val_toFin, h9, h0]
  split
  next hz => simp [hz]
  · cases n.rolled <;> rfl

theorem granules_bounds (b : Nat) : b ≤ granules b ∧ granules b < b + 4096 ∧ granules b % 4096 = 0 := by
  unfold granules
  omega

/-- A gang that may start does (R310). -/
theorem gangStart_starts (hn : s.node node = some n) (hm : s.mayStart node (n.toStart.headD 0) core (maskParts mask) = some (n, r))
    (hsaved : s.isSaved node (n.toStart.headD 0) = false) :
    ∃ key tvec tcb now t, exec (.gangStart node core mask) s = .next t ∧
      t.harts = s.harts ++ (List.range n.desc.harts).map (newHart n core (maskParts mask) key tvec) ∧
      t.gangs = s.gangs ++ [newGang n key (n.toStart.headD 0) core (maskParts mask) tcb now] := by
  obtain ⟨key, tvec, tcb, now, hharts, hgangs⟩ :=
    startGang_adds { s with rota := r } n (n.toStart.headD 0) core (maskParts mask)
  refine ⟨key, tvec, tcb, now, _, ?_, hharts, hgangs⟩
  show execGangStart node core mask s = _
  unfold execGangStart
  simp only [hn, hm, hsaved, Bool.false_eq_true, if_false]

/-! ## Drains -/

/-- The hart whose slots are drained goes on with 1 (R325). -/
theorem drainDone_goesOn {fm : Form} {d a x : BitVec 6} {why : Nat} {arr : Option (Option Nat)} {seen : BitVec 2048} (hl : s.h.live = true)
    (hp : s.h.park = some (.wait (.texitSv fm d a x) why arr seen)) (hsv : s.h.sv = .lent) (hn : s.node (s.taskOf s.h) = some n)
    (hctl : (s.h.getX x).getLsbD 0 = false)
    (hdone : (s.drainTo n s.h.id.core (if (s.h.getX x).getLsbD 8 then n.hartArea (s.gangidOf s.h) s.h.gh + 131072
      else n.hartArea (s.gangidOf s.h) s.h.gh) (drainSlots (s.h.getX a) (s.h.getX x))).1 = .done) :
    (s.drainDone s.h.id).h = s.h.drained fm d 1 := by
  have hat : s.hartAt s.h.id = some s.h := by
    unfold State.hartAt State.allHarts
    rw [List.filter_cons_of_pos hl]
    exact List.find?_cons_of_pos (beq_self_eq_true s.h.id)
  obtain ⟨t, heq⟩ : ∃ t, s.drainTo n s.h.id.core (if (s.h.getX x).getLsbD 8 then n.hartArea (s.gangidOf s.h) s.h.gh + 131072
      else n.hartArea (s.gangidOf s.h) s.h.gh) (drainSlots (s.h.getX a) (s.h.getX x)) = (.done, t) := ⟨_, Prod.ext hdone rfl⟩
  have ht : tables t = tables s := by
    have h := tables_drainTo s n s.h.id.core (if (s.h.getX x).getLsbD 8 then n.hartArea (s.gangidOf s.h) s.h.gh + 131072
      else n.hartArea (s.gangidOf s.h) s.h.gh) (drainSlots (s.h.getX a) (s.h.getX x))
    rwa [heq] at h
  obtain ⟨hh, -⟩ := tables_iff.1 ((tables_count t s.h.id.core s.h.id.part 2 1).trans ht)
  unfold State.drainDone
  rw [hat]
  simp only []
  split
  next fm' d' a' x' _ _ _ hp' =>
    rw [hp] at hp'
    cases hp'
    rw [if_neg (not_not.2 hsv), show s.node (s.teamOf s.h).node = some n from hn]
    simp only [heq, hctl, Bool.not_false, if_true]
    show (if _ then _ else _) = _
    rw [hh, if_pos (by simp [hl])]
  next hne => exact absurd hp (hne _ _ _ _ _ _ _)

/-! ## Restores -/

/-- The barriers of a gang that is placed again count on from the clk waited (R205). -/
def waitedOn (clk : Nat) (b : Bar) : Bar := { b with firstClk := clk - b.firstClk }

/-- A restore adds the gang with what was saved of it, and its harts over fresh ones (R326). -/
theorem placeSaved_adds (s : State) (n : Node) (sg : SavedGang) (core : Nat) (ps : List Nat) : ∃ tcb now no tvec,
    { sg.gang.turnBars s.clk with core := core, parts := ps, tcb := tcb, start := now, order := no } ∈
        (s.placeSaved n sg core ps none).gangs ∧
      ∀ h ∈ sg.harts, (newHart n core ps sg.gang.key tvec h.gh).restored h (n.hartArea sg.gang.gidx h.gh) ∈
        (s.placeSaved n sg core ps none).harts := by
  obtain ⟨-, -, -, -, -, hclk⟩ := tables_iff.1 (tables_readTcb s n.asn core)
  refine ⟨(s.readTcb n.asn core).1, (s.readTcb n.asn core).2.tstamp, (s.readTcb n.asn core).2.startCount + 1,
    (match (s.readTcb n.asn core).2.spaceOf n.asn with | some sp => sp.trap | none => 0), ?_⟩
  rw [← hclk]
  unfold State.placeSaved
  dsimp only
  have hk : ∀ (tcb : Tcb) (t : State), tables (ps.foldl (fun s p =>
      s.emit tcb n.id none 0xA 9 (BitVec.ofNat 64 (core * 8 + p))) t) = tables t :=
    fun tcb t => foldl_keeps tables (fun _ _ => tables_emit ..) ps t
  obtain ⟨-, h1, h2, -⟩ := tables_iff.1 (hk (s.readTcb n.asn core).1 _)
  rw [h1, h2]
  exact ⟨List.mem_append_right _ List.mem_cons_self, fun h hh => List.mem_append_right _ (List.mem_map_of_mem hh)⟩

section
variable (fresh h : Hart) (area : DWord)

theorem restored_kept : (fresh.restored h area).gh = fresh.gh ∧ (fresh.restored h area).status.prv = true ∧
    (fresh.restored h area).epc = h.epc ∧ (fresh.restored h area).sscr = h.sscr := ⟨rfl, rfl, rfl, rfl⟩

/-- A restored hart goes on after its `texit.sv`, which gives the address of its area (R326). -/
theorem restored_goesOn {h : Hart} {fm : Form} {d a x : BitVec 6} {why : Nat} {arr : Option (Option Nat)} {seen : BitVec 2048}
    (hp : h.park = some (.wait (.texitSv fm d a x) why arr seen)) : (fresh.restored h area).pc = h.pc + BitVec.ofNat 64 fm.len ∧
      ∀ q, (fresh.restored h area).getX q = if q = 0 then 0 else if q = d then area else h.getX q := by
  simp only [Hart.restored, hp]
  exact ⟨trivial, fun q => Hart.getX_setX h d q area⟩

end

/-- A saved gang whose blocks read back as they were written is placed (R326). -/
theorem teamRestore_places {sg : SavedGang} {u : State} (hm : s.mayStart node gidx core (maskParts mask) = some (n, r))
    (hf : (s.saved.find? fun g => g.gang.node == node && g.gang.gidx == gidx) = some sg)
    (hr : { s with rota := r }.readBlocks n core sg.blocks = (.same, u)) :
    u.clk = s.clk ∧ exec (.teamRestore node gidx core mask) s = .next (u.placeSaved n sg core (maskParts mask) none) := by
  have ht := tables_readBlocks { s with rota := r } n core sg.blocks
  rw [hr] at ht
  obtain ⟨-, -, -, -, -, hclk⟩ := tables_iff.1 ht
  refine ⟨hclk, ?_⟩
  show execTeamRestore node gidx core mask s = _
  unfold execTeamRestore
  simp only [hm, hf, hr]

end

end Sys2Proof.Together
end

section
/-! # What accesses of harts and engines leave of the graph -/

namespace Sys2Proof.Together
open Sys2Proof Sys2Proof.Machine Sys2Proof.Claims

/-- A node without its checksum, which every write of its task changes (R390). -/
def unsummed (n : Node) : Node := { n with chk := 0 }

/-- What no access changes: the nodes but for their checksums, and what happens to each gang. -/
def standing (s : State) : List Node × List Fate := (s.nodes.map unsummed, s.gangs.map (·.fate))

theorem standing_of_tables {s t : State} (h : tables t = tables s) : standing t = standing s := by
  obtain ⟨-, -, hg, hn, -⟩ := tables_iff.1 h
  rw [standing, hg, hn, standing]

theorem standing_mapGang (s : State) (key : Nat) (f : Gang → Gang) (hf : ∀ g, (f g).fate = g.fate) :
    standing (s.mapGang key f) = standing s := by
  simp only [standing, State.mapGang, List.map_map, Prod.mk.injEq, true_and]
  refine List.map_congr_left fun g _ => ?_
  simp only [Function.comp_apply]
  split <;> simp [hf]

theorem standing_mapNode (s : State) (id : Nat) (f : Node → Node) (hf : ∀ n, unsummed (f n) = unsummed n) :
    standing (s.mapNode id f) = standing s := by
  simp only [standing, State.mapNode, List.map_map, Prod.mk.injEq, and_true]
  refine List.map_congr_left fun n _ => ?_
  simp only [Function.comp_apply]
  split <;> simp [hf]

section
variable (s : State) (w : Who)

@[simp] theorem standing_mapHarts (p : Hart → Bool) (f : Hart → Hart) : standing (s.mapHarts p f) = standing s := rfl

@[simp] theorem standing_mapH (f : Hart → Hart) : standing (s.mapH f) = standing s := rfl

@[simp] theorem standing_takeFree : standing s.takeFree.2 = standing s := rfl

@[simp] theorem standing_logAt (kind cause loc pa va key synd : Nat) : standing (s.logAt w kind cause loc pa va key synd) = standing s := rfl

@[simp] theorem standing_spoil (asn pa va : Nat) : standing (s.spoil asn pa va) = standing s := standing_of_tables (tables_spoil ..)

@[simp] theorem standing_find (va : Nat) (k : Acc) : standing (s.find w va k).2 = standing s := standing_of_tables (tables_find ..)

@[simp] theorem standing_translate (va : Nat) (k : Acc) : standing (s.translate w va k).2 = standing s :=
  standing_of_tables (tables_translate ..)

@[simp] theorem standing_translateHw (va : Nat) : standing (s.translateHw w va).2 = standing s := standing_of_tables (tables_translateHw ..)

@[simp] theorem standing_translateNow (va : Nat) : standing (s.translateNow w va).2 = standing s :=
  standing_of_tables (tables_translateNow ..)

@[simp] theorem standing_loadSector (ws : List PWrite) (pa n key va : Nat) : standing (s.loadSector w ws pa n key va).2 = standing s :=
  standing_of_tables (tables_loadSector ..)

@[simp] theorem standing_setAccDrt (e : TlbEntry) (wr : Bool) : standing (s.setAccDrt e wr) = standing s :=
  standing_of_tables (tables_setAccDrt ..)

@[simp] theorem standing_count (core part ev n : Nat) : standing (s.count core part ev n) = standing s :=
  standing_of_tables (tables_count ..)

@[simp] theorem standing_post (code : Nat) (tval : DWord) : standing (s.post w code tval) = standing s := by
  unfold State.post
  dsimp only
  split
  · rfl
  split
  · rfl
  split <;> rfl

@[simp] theorem standing_writeSector (pa key : Nat) (va : DWord) (bs : List Byte) (p : Bool) :
    standing (s.writeSector w pa key va bs p) = standing s :=
  writeSector_keeps s (fun _ _ => standing_of_tables) (fun t c v => standing_post t w c v) ..

@[simp] theorem standing_checksum (task : Nat) (va : DWord) (bs : List Byte) : standing (s.checksum task va bs) = standing s :=
  standing_mapNode _ _ _ (by intro; rfl)

@[simp] theorem standing_apply (p : PWrite) : standing (s.apply w p) = standing s := by
  unfold State.apply
  dsimp only
  split
  · simp
  · show standing (s.mapGang _ _) = _
    exact standing_mapGang _ _ _ (by intro; rfl)
  · show standing (s.mapGang _ _) = _
    exact standing_mapGang _ _ _ (by intro; rfl)
  · rfl
  · rfl

@[simp] theorem standing_applies (l : List PWrite) : standing (l.foldl (fun s x => s.apply w x) s) = standing s :=
  foldl_keeps standing (fun _ _ => standing_apply ..) _ _

@[simp] theorem standing_readEcc (sp : Space) (off n : Nat) : standing (s.readEcc w sp off n) = standing s := by
  unfold State.readEcc
  dsimp only
  split
  · rfl
  split
  · exact (standing_mapGang _ _ _ (by intro; rfl)).trans rfl
  · exact (standing_mapGang _ _ _ (by intro; rfl)).trans rfl
  · rfl
  · rfl
  · rfl

end

/-! ## Bodies that leave the graph -/

/-- However it ends, the body leaves the graph as it was. -/
structure Stands {ε α : Type} (m : ExceptT ε (StateM State) α) : Prop where
  keeps : ∀ s, standing (m s).2 = standing s

namespace Stands
variable {ε α β : Type}

theorem pure (a : α) : Stands (Pure.pure a : ExceptT ε (StateM State) α) := ⟨fun _ => rfl⟩

theorem throw (e : ε) : Stands (MonadExcept.throw e : ExceptT ε (StateM State) α) := ⟨fun _ => rfl⟩

theorem get : Stands (MonadState.get : ExceptT ε (StateM State) State) := ⟨fun _ => rfl⟩

theorem modifies {f : State → State} (hf : ∀ s, standing (f s) = standing s) : Stands (modify f : ExceptT ε (StateM State) Unit) := ⟨hf⟩

theorem bind {m : ExceptT ε (StateM State) α} {f : α → ExceptT ε (StateM State) β} (hm : Stands m) (hf : ∀ a, Stands (f a)) :
    Stands (m >>= f) := by
  refine ⟨fun s => ?_⟩
  have h := hm.keeps s
  show standing (match m s with | (x, u) => ExceptT.bindCont f x u).2 = standing s
  rcases hr : m s with ⟨e | a, t⟩
  · rw [hr] at h; exact h
  · rw [hr] at h; exact ((hf a).keeps t).trans h

/-- The state that is read is the one at hand. -/
theorem bind_get {f : State → ExceptT ε (StateM State) β} (hf : ∀ s, standing (f s s).2 = standing s) :
    Stands (MonadState.get >>= f) := ⟨hf⟩

theorem ite {c : Prop} [Decidable c] {a b : ExceptT ε (StateM State) α} (ha : Stands a) (hb : Stands b) : Stands (if c then a else b) := by
  split
  · exact ha
  · exact hb

end Stands

end Sys2Proof.Together
end

section
/-! # Transfers of copy engines leave the graph as it was -/

namespace Sys2Proof.Together
open Sys2Proof Sys2Proof.Machine Sys2Proof.Claims

namespace Stands
variable {ε α β : Type}

theorem mapM {f : α → ExceptT ε (StateM State) β} (hf : ∀ a, Stands (f a)) (l : List α) : Stands (l.mapM f) := by
  induction l with
  | nil => rw [List.mapM_nil]; exact .pure _
  | cons a l ih => rw [List.mapM_cons]; exact .bind (hf a) fun _ => .bind ih fun _ => .pure _

theorem forM {f : α → ExceptT ε (StateM State) PUnit} (hf : ∀ a, Stands (f a)) (l : List α) : Stands (l.forM f) := by
  induction l with
  | nil => exact .pure _
  | cons a l ih => exact .bind (hf a) fun _ => ih

end Stands

section
variable (w : Who) (h : Hart)

/-- A state that leaves the graph may be put in place. -/
theorem standing_set_bind {ε β : Type} {f : PUnit → ExceptT ε (StateM State) β} {s t u : State} (h : standing (f ⟨⟩ t).2 = standing u) :
    standing ((set t >>= f) s).2 = standing u := h

theorem stands_engineTarget (va : DWord) (n : Nat) : Stands (engineTarget w va n) := by
  refine .mapM (fun x => .bind_get fun s => ?_) _
  have ht := standing_translate s w (x.1 % 2 ^ 64) .write
  rcases hr : s.translate w (x.1 % 2 ^ 64) .write with ⟨(_ | _) | _, t⟩ <;> rw [hr] at ht <;> exact ht

theorem stands_engineGlob (va : DWord) (n : Nat) : Stands (engineGlob w va n) := by
  refine .bind (.mapM (fun x => .bind_get fun s => ?_) _) fun _ => .pure _
  have ht := standing_translate s w (x.1 % 2 ^ 64) .read
  rcases hr : s.translate w (x.1 % 2 ^ 64) .read with ⟨(_ | _) | ⟨pa, key⟩, t⟩ <;> rw [hr] at ht
  · exact ht
  · exact ht
  · refine standing_set_bind (((Stands.bind_get fun u => ?_).keeps t).trans ht)
    have hl := standing_loadSector u w [] pa x.2 key (x.1 % 2 ^ 64)
    rcases hr : u.loadSector w [] pa x.2 key (x.1 % 2 ^ 64) with ⟨_ | _, v⟩ <;> rw [hr] at hl <;> exact hl

theorem stands_engineRead (space : Nat) (va : DWord) (n : Nat) : Stands (engineRead w h space va n) := by
  refine .ite (stands_engineGlob ..) (.bind_get fun s => ?_)
  exact standing_readEcc ..

theorem stands_engineWrites (space : Nat) (va : DWord) (bs : List Byte) (p : Bool) : Stands (engineWrites w h space va bs p) := by
  refine .ite (.bind (stands_engineTarget ..) fun _ => .pure _) (.bind_get fun s => rfl)

theorem stands_engineWrite (space : Nat) (va : DWord) (bs : List Byte) (p : Bool) : Stands (engineWrite w h space va bs p) :=
  .bind (stands_engineWrites ..) fun _ => .modifies fun _ => standing_applies ..

end

section
variable (c : CopyJob)

theorem stands_read (e : CopyElem) : Stands (c.read e) :=
  .bind (stands_engineRead ..) fun _ =>
    .ite (.bind (stands_engineRead ..) fun _ => .pure _) (.bind (.pure _) fun _ => .pure _)

theorem stands_putRaw (da : DWord) (bs : List (Byte × Bool)) : Stands (c.putRaw da bs) :=
  .forM (fun _ => stands_engineWrite ..) _

theorem stands_put (es : List (CopyElem × List (Byte × Bool) × Bool)) : Stands (c.put es) :=
  .ite (.forM (fun _ => stands_putRaw ..) _)
    (.ite (.forM (fun _ => .bind (.forM (fun _ => stands_engineWrite ..) _) fun _ => stands_engineWrite ..) _)
      (.forM (fun _ => stands_engineWrite ..) _))

theorem stands_transfer : Stands c.transfer := by
  refine .bind (.mapM (fun _ => .bind (stands_read ..) fun _ => .pure _) _) fun es => .bind_get fun s => ?_
  split
  · exact (stands_put c _).keeps s.takeFree.2
  · exact (stands_put c es).keeps s

theorem standing_attempt {α : Type} {f : F α} (hf : Stands f) (s : State) : standing (attempt f s).2 = standing s := by
  have h := hf.keeps s
  unfold attempt
  split
  next e t hr => rw [hr] at h; exact h
  next a t hr => rw [hr] at h; exact h

theorem standing_attempts {l : List (F Unit)} (hl : ∀ f ∈ l, Stands f) (s : State) : standing (attempts l s).2 = standing s := by
  unfold attempts
  exact List.foldlRecOn (motive := fun a : List (Nat × DWord) × State => standing a.2 = standing s) l _ rfl fun a ha f hf =>
    (standing_attempt (hl f hf) a.2).trans ha

@[simp] theorem standing_failures (s : State) : standing (c.failures s).2 = standing s := by
  unfold CopyJob.failures
  dsimp only
  rw [standing_attempts, standing_attempts]
  · simp only [List.mem_map, forall_exists_index, and_imp, forall_apply_eq_imp_iff₂]
    exact fun e _ => .bind (stands_read ..) fun _ => .pure _
  · split
    · simp only [List.mem_map, forall_exists_index, and_imp, forall_apply_eq_imp_iff₂]
      exact fun e _ => .bind (stands_engineTarget ..) fun _ => .pure _
    · simp

@[simp] theorem standing_scramble (w : Who) (s : State) : standing (c.scramble w s) = standing s :=
  foldl_keeps standing (fun t _ => (standing_attempt (stands_engineWrite ..) _).trans (standing_takeFree t)) _ _

@[simp] theorem standing_run (s : State) : standing (c.run s).2 = standing s := by
  unfold CopyJob.run
  dsimp only
  split
  · simp
  split <;> simp

/-- A transfer, however it ends, leaves the graph as it was. -/
theorem standing_finish (bad : Bool) (s : State) : standing (c.finish bad s).2 = standing s := by
  have h := standing_run c s
  unfold CopyJob.finish
  dsimp only
  split
  next t hr =>
    rw [hr] at h
    split
    · exact (standing_scramble ..).trans h
    · exact (standing_attempt (stands_transfer c) t).trans h
  · exact h

end

end Sys2Proof.Together
end

section
/-! # Nodes that finish (R304, R306, R308) -/

namespace Sys2Proof.Together
open Sys2Proof Sys2Proof.Machine Sys2Proof.Claims

/-! ## The completion record leaves the graph -/

/-- The nodes and what the pool's entries remember. -/
def graph (s : State) : List Node × List Entry := (s.nodes, s.entries)

theorem graph_of_tables {s t : State} (h : tables t = tables s) : graph t = graph s := by
  obtain ⟨-, -, -, hn, he, -⟩ := tables_iff.1 h
  rw [graph, hn, he, graph]

section
variable (s : State)

theorem graph_post (w : Who) (code : Nat) (tval : DWord) : graph (s.post w code tval) = graph s := by
  unfold State.post
  dsimp only
  split
  · rfl
  split
  · rfl
  split <;> rfl

theorem graph_writeCompletion (asn task : Nat) (va : DWord) (ws : List DWord) : graph (s.writeCompletion asn task va ws) = graph s := by
  unfold State.writeCompletion
  split
  · rfl
  dsimp only
  have h := tables_translateNow s { core := noCore, asn := asn, task := task } va.toNat
  split
  next t ht => rw [ht] at h; exact graph_of_tables h
  next pa key t ht =>
    rw [ht] at h
    have hw : ∀ bs, graph ((t.spoil asn pa va.toNat).writeSector { core := noCore, asn := asn, task := task } pa key va bs false) =
        graph s := fun bs =>
      (writeSector_keeps _ (fun _ _ => graph_of_tables) (fun u c v => graph_post u _ c v) ..).trans
        (graph_of_tables ((tables_spoil ..).trans h))
    split
    · exact (graph_of_tables (tables_logAt ..)).trans (hw _)
    · exact hw _

theorem graph_tcbAtEnd (n : Node) : graph (s.tcbAtEnd n).2 = graph s := by
  unfold State.tcbAtEnd
  split
  · rfl
  · exact graph_of_tables (tables_readTcb ..)

/-- Word +0 of the record of a node that ends. -/
def endWord (e : Ending) (n : Node) : DWord :=
  completionWord e.out.status (match e.out with | .lost => 0xF1 | _ => if n.task then n.abnCause else e.code) n.nabn n.exit

/-- A node that finishes has its word, and its entry its outcome; the rest of the graph stands. -/
theorem finishNode_eq (e : Ending) (n : Node) : ∃ u, graph u = graph s ∧
    s.finishNode e n = (u.mapNode n.id fun n' => { n' with st := .finished, word := endWord e n }).setEntry n.id (some e.out) := by
  unfold State.finishNode
  extract_lets code word s1 mine s2 s3
  have h3 : graph s3 = graph s := graph_writeCompletion ..
  have ht := graph_tcbAtEnd s3 n
  split
  next tcb s4 h4 =>
  rw [h4] at ht
  extract_lets s5 s6
  have h5 : graph s5 = graph s4 := by
    show graph (if _ then _ else _) = _
    split
    · exact graph_of_tables (tables_emit ..)
    · rfl
  have h6 : graph s6 = graph s5 := by
    show graph (if _ then _ else _) = _
    split
    · exact graph_of_tables (tables_emit ..)
    · rfl
  exact ⟨s6, h6.trans (h5.trans (ht.trans h3)), rfl⟩

end

end Sys2Proof.Together
end

section
/-! # The order in which nodes finish (R306, R308, R318) -/

namespace Sys2Proof.Together
open Sys2Proof Sys2Proof.Machine Sys2Proof.Claims

section
variable {s : State}

/-! ## Looking a node up -/

theorem node_mem {i : Nat} {n : Node} (h : s.node i = some n) : n ∈ s.nodes ∧ n.id = i :=
  ⟨List.mem_of_find?_eq_some h, by simpa using List.find?_some h⟩

/-- With identifiers that differ, a node is found under its own. -/
theorem node_of_mem {n : Node} (hnd : (s.nodes.map (·.id)).Nodup) (hn : n ∈ s.nodes) : s.node n.id = some n := by
  cases h : s.node n.id with
  | none => simpa using List.find?_eq_none.1 h n hn
  | some m =>
    obtain ⟨hm, hid⟩ := node_mem h
    rw [List.inj_on_of_nodup_map hnd hm hn hid]

theorem node_mapNode_ne {i q : Nat} (f : Node → Node) (hf : ∀ n, (f n).id = n.id) (h : i ≠ q) : (s.mapNode i f).node q = s.node q := by
  unfold State.node State.mapNode
  rw [List.find?_map]
  have : ((fun n : Node => n.id == q) ∘ fun n => if n.id = i then f n else n) = fun n => n.id == q := by
    funext n
    simp only [Function.comp_apply]
    split <;> simp [hf]
  rw [this]
  cases hq : s.nodes.find? (fun n => n.id == q) with
  | none => rfl
  | some n =>
    have hid : n.id = q := by simpa using List.find?_some hq
    simp only [Option.map_some, if_neg (show ¬ n.id = i by omega)]

theorem node_mapNode_self {i : Nat} {n : Node} (f : Node → Node) (hf : ∀ n, (f n).id = n.id) (h : s.node i = some n) :
    (s.mapNode i f).node i = some (f n) := by
  unfold State.node State.mapNode at *
  rw [List.find?_map]
  have : ((fun n : Node => n.id == i) ∘ fun n => if n.id = i then f n else n) = fun n => n.id == i := by
    funext n
    simp only [Function.comp_apply]
    split <;> simp [hf]
  have hid : n.id = i := by simpa using List.find?_some h
  rw [this, h]
  simp only [Option.map_some, if_pos hid]

theorem ids_mapNode (s : State) (i : Nat) (f : Node → Node) (hf : ∀ n, (f n).id = n.id) :
    (s.mapNode i f).nodes.map (·.id) = s.nodes.map (·.id) := by
  unfold State.mapNode
  rw [List.map_map]
  refine List.map_congr_left fun n _ => ?_
  simp only [Function.comp_apply]
  split <;> simp [hf]

/-! ## Nodes that are done, and nodes that are not -/

/-- Every node of the identifier is as `Q` says. -/
def Closed (s : State) (id : Nat) (Q : Node → Prop) : Prop := ∀ m ∈ s.nodes, m.id = id → Q m

/-- The identifier names an unfinished node. -/
def Open (s : State) (q : Nat) : Prop := ∃ m, s.node q = some m ∧ m.st ≠ .finished

/-- `Q` holds of finished nodes only, whatever they still counted. -/
def Final (Q : Node → Prop) : Prop := (∀ m, Q m → m.st = .finished) ∧ ∀ m k, Q m → Q { m with count := k }

theorem closed_mapNode_ne {id i : Nat} {Q : Node → Prop} (f : Node → Node) (hf : ∀ n, (f n).id = n.id) (hne : i ≠ id)
    (h : Closed s id Q) : Closed (s.mapNode i f) id Q := by
  intro m hm hid
  obtain ⟨m0, hm0, rfl⟩ := List.mem_map.1 hm
  split at hid
  next hi => exact absurd (hi.symm.trans ((hf m0).symm.trans hid)) hne
  next hi =>
    rw [if_neg hi]
    exact h m0 hm0 hid

theorem closed_congr {t : State} {id : Nat} {Q : Node → Prop} (ht : t.nodes = s.nodes) (h : Closed s id Q) : Closed t id Q := by
  unfold Closed
  rwa [ht]

theorem not_open_closed {id : Nat} {Q : Node → Prop} (hQ : Final Q) (h : Closed s id Q) : ¬ Open s id := by
  rintro ⟨m, hm, hst⟩
  obtain ⟨hmem, hid⟩ := node_mem hm
  exact hst (hQ.1 m (h m hmem hid))

theorem outcomeOf_congr {t : State} (h : t.entries = s.entries) (id : Nat) : t.outcomeOf id = s.outcomeOf id := by
  unfold State.outcomeOf
  rw [h]

theorem outcomeOf_setEntry_self (s : State) (id : Nat) (o : NodeEnd) : (s.setEntry id (some o)).outcomeOf id = some o := by
  simp [State.outcomeOf, State.setEntry]

theorem outcomeOf_setEntry_ne {id i : Nat} (h : i % 8192 ≠ id % 8192) (o : Option NodeEnd) :
    (s.setEntry i o).outcomeOf id = s.outcomeOf id := by
  unfold State.outcomeOf State.setEntry
  rw [List.find?_cons_of_neg (by simp [h]), List.find?_filter]
  congr 2
  funext e
  by_cases he : e.idx = id % 8192
  · simp [he, Ne.symm h]
    rfl
  · simp [he]

/-! ## A hold is released, a predecessor has completed -/

/-- What a release does to the nodes: nothing, or it marks the held node of the identifier as waiting or ready. -/
theorem release_cases (s : State) (i : Nat) : s.release i = s ∨ ∃ (n : Node) (f : Node → Node) (c : Nat), s.node i = some n ∧ n.st = .held ∧
    (∀ m, (f m).id = m.id ∧ (f m).succs = m.succs ∧ (f m).st ≠ .finished) ∧ s.release i = { s.mapNode i f with readyCount := c } := by
  unfold State.release
  split
  · exact .inl rfl
  next n hn =>
    split
    · exact .inl rfl
    next hst =>
      have hheld : n.st = .held := not_not.1 hst
      split
      · exact .inr ⟨n, fun m => { m with st := .ready, readyNo := s.readyCount, since := s.tstamp }, s.readyCount + 1, hn, hheld,
          fun m => ⟨rfl, rfl, by simp⟩, rfl⟩
      · exact .inr ⟨n, fun m => { m with st := .waiting }, s.readyCount, hn, hheld, fun m => ⟨rfl, rfl, by simp⟩, rfl⟩

theorem entries_release (s : State) (i : Nat) : (s.release i).entries = s.entries := by
  rcases release_cases s i with h | ⟨_, _, _, _, _, _, h⟩
  · rw [h]
  · rw [h]; rfl

theorem ids_release (s : State) (i : Nat) : (s.release i).nodes.map (·.id) = s.nodes.map (·.id) := by
  rcases release_cases s i with h | ⟨_, f, _, _, _, hf, h⟩
  · rw [h]
  · rw [h]; exact ids_mapNode s i f fun m => (hf m).1

theorem closed_release {id i : Nat} {Q : Node → Prop} (hQ : Final Q) (h : Closed s id Q) : Closed (s.release i) id Q := by
  rcases release_cases s i with he | ⟨n, f, c, hn, hheld, hf, he⟩
  · rwa [he]
  · rw [he]
    have hne : i ≠ id := by
      rintro rfl
      exact not_open_closed hQ h ⟨n, hn, by simp [hheld]⟩
    exact closed_congr rfl (closed_mapNode_ne f (fun m => (hf m).1) hne h)

theorem open_release {q i : Nat} (h : Open s q) : Open (s.release i) q := by
  rcases release_cases s i with he | ⟨n, f, c, hn, -, hf, he⟩
  · rwa [he]
  · rw [he]
    obtain ⟨m, hm, hst⟩ := h
    by_cases hi : i = q
    · subst hi
      exact ⟨f n, node_mapNode_self f (fun m => (hf m).1) hn, (hf n).2.2⟩
    · exact ⟨m, (node_mapNode_ne f (fun m => (hf m).1) hi).trans hm, hst⟩

theorem decrement_closed {id i : Nat} {Q : Node → Prop} (hQ : Final Q) (h : Closed s id Q) : Closed (s.decrement i) id Q := by
  unfold State.decrement
  split
  · exact h
  next n hn =>
    extract_lets t
    by_cases hi : i = id
    · subst hi
      have hfin : n.st = .finished := hQ.1 n (h n (node_mem hn).1 (node_mem hn).2)
      rw [if_neg (by simp [hfin])]
      intro m hm hid
      obtain ⟨m0, hm0, rfl⟩ := List.mem_map.1 hm
      by_cases hm0i : m0.id = i
      · rw [if_pos hm0i]
        exact hQ.2 _ _ (h m0 hm0 hm0i)
      · rw [if_neg hm0i] at hid
        exact absurd hid hm0i
    · have ht : Closed t id Q := closed_mapNode_ne _ (fun _ => rfl) hi h
      split
      · exact closed_congr rfl (closed_mapNode_ne (s := t)
          (fun n => { n with st := .ready, readyNo := t.readyCount, since := t.tstamp }) (fun _ => rfl) hi ht)
      · exact ht

theorem entries_decrement (s : State) (i : Nat) : (s.decrement i).entries = s.entries := by
  unfold State.decrement
  split
  · rfl
  · dsimp only
    split <;> rfl

/-! ## One node finishes -/

section
variable {e : Ending} {n : Node}

/-- The nodes and entries after `finishNode`. -/
theorem finishNode_graph (s : State) (e : Ending) (n : Node) :
    (s.finishNode e n).nodes =
        (s.mapNode n.id fun n' => { n' with st := .finished, word := endWord e n }).nodes ∧
      (s.finishNode e n).entries = (s.setEntry n.id (some e.out)).entries := by
  obtain ⟨u, hu, h⟩ := finishNode_eq s e n
  simp only [graph, Prod.mk.injEq] at hu
  rw [h]
  simp only [State.setEntry, State.mapNode, hu.1, hu.2, and_self]

/-- Finished, with its word. -/
def EndedWith (w : DWord) (m : Node) : Prop := m.st = .finished ∧ m.word = w

theorem final_endedWith (w : DWord) : Final (EndedWith w) := ⟨fun _ h => h.1, fun _ _ h => h⟩

theorem closed_finishNode_self (s : State) (e : Ending) (n : Node) : Closed (s.finishNode e n) n.id (EndedWith (endWord e n)) := by
  refine closed_congr (finishNode_graph s e n).1 fun m hm hid => ?_
  obtain ⟨m0, _, rfl⟩ := List.mem_map.1 hm
  by_cases h : m0.id = n.id
  · rw [if_pos h]; exact ⟨rfl, rfl⟩
  · rw [if_neg h] at hid; exact absurd hid h

theorem closed_finishNode_ne {id : Nat} {Q : Node → Prop} (hne : n.id ≠ id) (h : Closed s id Q) : Closed (s.finishNode e n) id Q :=
  closed_congr (finishNode_graph s e n).1 (closed_mapNode_ne (s := s)
    (fun n' => { n' with st := .finished, word := endWord e n }) (fun _ => rfl) hne h)

theorem open_finishNode_ne {q : Nat} (hne : n.id ≠ q) (h : Open s q) : Open (s.finishNode e n) q := by
  obtain ⟨m, hm, hst⟩ := h
  refine ⟨m, ?_, hst⟩
  rw [← hm, ← node_mapNode_ne (s := s) (fun n' => { n' with st := .finished, word := endWord e n }) (fun _ => rfl) hne]
  unfold State.node
  rw [(finishNode_graph s e n).1]

theorem ids_finishNode (s : State) (e : Ending) (n : Node) : (s.finishNode e n).nodes.map (·.id) = s.nodes.map (·.id) := by
  rw [(finishNode_graph s e n).1]
  exact ids_mapNode s n.id _ fun _ => rfl

end

end

end Sys2Proof.Together
end

section
/-! # Everything that follows from the end of a node -/

namespace Sys2Proof.Together
open Sys2Proof Sys2Proof.Machine Sys2Proof.Claims

/-! ## How many endings are still to come -/

/-- Successors that an unfinished node has still to pass its end on to. -/
def weight (m : Node) : Nat := if m.st = .finished then 0 else m.succs.length

def pending (s : State) : Nat := (s.nodes.map weight).sum

theorem sum_map_add_le {α : Type} {g g' : α → Nat} {k : Nat} {l : List α} {a : α} (ha : a ∈ l) (hle : ∀ x, g' x ≤ g x) (hk : g' a + k ≤ g a) :
    (l.map g').sum + k ≤ (l.map g).sum := by
  induction l with
  | nil => cases ha
  | cons x l ih =>
    simp only [List.map_cons, List.sum_cons]
    rcases List.mem_cons.1 ha with rfl | ha
    · have := List.sum_le_sum (l := l) (fun x _ => hle x)
      omega
    · have := ih ha
      have := hle x
      omega

section
variable {s : State}

theorem pending_finishNode {e : Ending} {n : Node} (hn : n ∈ s.nodes) (hst : n.st ≠ .finished) :
    pending (s.finishNode e n) + n.succs.length ≤ pending s := by
  unfold pending
  rw [(finishNode_graph s e n).1, State.mapNode, List.map_map]
  refine sum_map_add_le hn (fun x => ?_) ?_
  · simp only [Function.comp_apply]
    split
    · simp [weight]
    · exact le_rfl
  · simp [weight, hst]

theorem pending_release (hnd : (s.nodes.map (·.id)).Nodup) (i : Nat) : pending (s.release i) = pending s := by
  rcases release_cases s i with he | ⟨n, f, c, hn, hheld, hf, he⟩
  · rw [he]
  · rw [he]
    show ((s.mapNode i f).nodes.map weight).sum = _
    unfold pending State.mapNode
    rw [List.map_map]
    congr 1
    refine List.map_congr_left fun m hm => ?_
    simp only [Function.comp_apply]
    split
    next hi =>
      have hmn : m = n := Option.some.inj ((node_of_mem hnd hm).symm.trans (hi ▸ hn))
      subst hmn
      simp [weight, hheld, hf m]
    · rfl

/-! ## The held nodes of a task that finishes -/

/-- What releases keep: identifiers, entries, what is still to come, finished nodes and unfinished ones. -/
structure Released (s t : State) : Prop where
  ids : t.nodes.map (·.id) = s.nodes.map (·.id)
  entries : t.entries = s.entries
  pending : (s.nodes.map (·.id)).Nodup → pending t = pending s
  closed : ∀ id Q, Final Q → Closed s id Q → Closed t id Q
  opened : ∀ q, Open s q → Open t q

theorem released_foldl (l : List Node) : Released s (l.foldl (fun s c => s.release c.id) s) := by
  refine List.foldlRecOn (motive := Released s) l _ ⟨rfl, rfl, fun _ => rfl, fun _ _ _ h => h, fun _ h => h⟩ fun t ht c _ => ?_
  exact ⟨(ids_release t c.id).trans ht.ids, (entries_release t c.id).trans ht.entries,
    fun hnd => (pending_release (ht.ids ▸ hnd) c.id).trans (ht.pending hnd),
    fun id Q hQ h => closed_release hQ (ht.closed id Q hQ h), fun q h => open_release (ht.opened q h)⟩

/-- A node finishes and the held nodes that it launched are released. -/
def ends (s : State) (e : Ending) (n : Node) : State :=
  ((s.finishNode e n).nodes.filter fun c => c.parent == n.id && c.st == .held).foldl (fun s c => s.release c.id) (s.finishNode e n)

theorem released_ends (s : State) (e : Ending) (n : Node) : Released (s.finishNode e n) (ends s e n) := released_foldl _

theorem ends_ids (s : State) (e : Ending) (n : Node) : (ends s e n).nodes.map (·.id) = s.nodes.map (·.id) :=
  (released_ends s e n).ids.trans (ids_finishNode s e n)

section
variable {e : Ending} {n : Node} (hn : s.node e.id = some n)
include hn

theorem finishAll_cons (hst : n.st ≠ .finished) (fuel : Nat) (l : List Ending) : State.finishAll (fuel + 1) (e :: l) s =
    match e.out with
    | .complete => State.finishAll fuel l (n.succs.foldl State.decrement (ends s e n))
    | _ => State.finishAll fuel ((n.succs.map fun i => { id := i, out := .cancelled }) ++ l) (ends s e n) := by
  rw [State.finishAll]
  simp only [hn, if_neg hst]
  rfl

theorem ends_self : Closed (ends s e n) e.id (EndedWith (endWord e n)) ∧ (ends s e n).outcomeOf e.id = some e.out := by
  obtain ⟨-, hid⟩ := node_mem hn
  refine ⟨hid ▸ (released_ends s e n).closed _ _ (final_endedWith _) (closed_finishNode_self s e n), ?_⟩
  rw [outcomeOf_congr ((released_ends s e n).entries.trans (finishNode_graph s e n).2), ← hid]
  exact outcomeOf_setEntry_self s n.id e.out

theorem ends_closed {id : Nat} {Q : Node → Prop} (hQ : Final Q) (hne : e.id ≠ id) (h : Closed s id Q) : Closed (ends s e n) id Q :=
  (released_ends s e n).closed id Q hQ (closed_finishNode_ne ((node_mem hn).2.symm ▸ hne) h)

theorem ends_open {q : Nat} (hne : e.id ≠ q) (h : Open s q) : Open (ends s e n) q :=
  (released_ends s e n).opened q (open_finishNode_ne ((node_mem hn).2.symm ▸ hne) h)

theorem ends_outcome {id : Nat} (hne : e.id % 8192 ≠ id % 8192) : (ends s e n).outcomeOf id = s.outcomeOf id := by
  rw [outcomeOf_congr ((released_ends s e n).entries.trans (finishNode_graph s e n).2)]
  exact outcomeOf_setEntry_ne ((node_mem hn).2.symm ▸ hne) _

theorem ends_pending (hnd : (s.nodes.map (·.id)).Nodup) (hst : n.st ≠ .finished) :
    pending (ends s e n) + n.succs.length ≤ pending s := by
  rw [(released_ends s e n).pending (by rwa [ids_finishNode])]
  exact pending_finishNode (node_mem hn).1 hst

end

/-! ## Entries of the pool that differ -/

/-- No two nodes have one entry (R300). -/
def Spread (s : State) : Prop := (s.nodes.map (·.id % 8192)).Nodup

theorem spread_iff : Spread s ↔ ((s.nodes.map (·.id)).map (· % 8192)).Nodup := by
  rw [List.map_map]
  rfl

theorem spread_ids (h : Spread s) : (s.nodes.map (·.id)).Nodup := (spread_iff.1 h).of_map _

theorem spread_congr {t : State} (h : t.nodes.map (·.id) = s.nodes.map (·.id)) (hs : Spread s) : Spread t := by
  rw [spread_iff, h]
  exact spread_iff.1 hs

theorem spread_ne (h : Spread s) {a b : Nat} (ha : a ∈ s.nodes.map (·.id)) (hb : b ∈ s.nodes.map (·.id)) (hne : a ≠ b) :
    a % 8192 ≠ b % 8192 := fun heq => hne (List.inj_on_of_nodup_map (spread_iff.1 h) ha hb heq)

theorem open_mem {q : Nat} (h : Open s q) : q ∈ s.nodes.map (·.id) := by
  obtain ⟨m, hm, -⟩ := h
  obtain ⟨hmem, hid⟩ := node_mem hm
  exact List.mem_map.2 ⟨m, hmem, hid⟩

/-! ## Cancellation in turn -/

/-- With fuel for every ending that follows, nodes that are finished stay as they are, and those on the list that are not are cancelled. -/
theorem finishAll_cancels (fuel : Nat) (l : List Ending) (s : State) (hl : ∀ e ∈ l, e.out = .cancelled) (hs : Spread s)
    (hf : l.length + pending s ≤ fuel) :
    (∀ id Q, Final Q → id ∈ s.nodes.map (·.id) → Closed s id Q →
      Closed (State.finishAll fuel l s) id Q ∧ (State.finishAll fuel l s).outcomeOf id = s.outcomeOf id) ∧
    ∀ e ∈ l, Open s e.id → (State.finishAll fuel l s).outcomeOf e.id = some .cancelled := by
  induction fuel generalizing l s with
  | zero =>
    obtain rfl : l = [] := List.eq_nil_of_length_eq_zero (by omega)
    exact ⟨fun _ _ _ _ h => ⟨h, rfl⟩, fun _ h => by cases h⟩
  | succ fuel ih =>
    cases l with
    | nil => exact ⟨fun _ _ _ _ h => ⟨h, rfl⟩, fun _ h => by cases h⟩
    | cons e l =>
      have hl' : ∀ e ∈ l, e.out = .cancelled := fun e' he' => hl e' (List.mem_cons_of_mem _ he')
      rw [List.length_cons] at hf
      by_cases ho : Open s e.id
      · obtain ⟨n, hn, hst⟩ := ho
        have hout := hl e List.mem_cons_self
        have heq := finishAll_cons hn hst fuel l
        simp only [hout] at heq
        have hids := ends_ids s e n
        have hpend := ends_pending hn (spread_ids hs) hst
        obtain ⟨hclosed, hcancel⟩ := ih ((n.succs.map fun i => { id := i, out := .cancelled }) ++ l) (ends s e n)
          (fun e' he' => by
            rcases List.mem_append.1 he' with h | h
            · obtain ⟨i, -, rfl⟩ := List.mem_map.1 h
              rfl
            · exact hl' e' h)
          (spread_congr hids hs) (by rw [List.length_append, List.length_map]; omega)
        have hmem : e.id ∈ s.nodes.map (·.id) := open_mem ⟨n, hn, hst⟩
        rw [heq]
        refine ⟨fun id Q hQ hid h => ?_, fun e' he' ho' => ?_⟩
        · have hne : e.id ≠ id := by
            rintro rfl
            exact not_open_closed hQ h ⟨n, hn, hst⟩
          obtain ⟨h1, h2⟩ := hclosed id Q hQ (hids ▸ hid) (ends_closed hn hQ hne h)
          exact ⟨h1, h2.trans (ends_outcome hn (spread_ne hs hmem hid hne))⟩
        · by_cases hsame : e.id = e'.id
          · obtain ⟨hself, hso⟩ := ends_self hn
            rw [← hsame, (hclosed e.id _ (final_endedWith _) (hids ▸ hmem) hself).2, hso, hout]
          · rcases List.mem_cons.1 he' with rfl | he'
            · exact absurd rfl hsame
            · exact hcancel e' (List.mem_append_right _ he') (ends_open hn hsame ho')
      · have heq : State.finishAll (fuel + 1) (e :: l) s = State.finishAll fuel l s := by
          rw [State.finishAll]
          cases hn : s.node e.id with
          | none => rfl
          | some n =>
            have hst : n.st = .finished := by
              by_contra h
              exact ho ⟨n, hn, h⟩
            simp only [if_pos hst]
        obtain ⟨hclosed, hcancel⟩ := ih l s hl' hs (by omega)
        rw [heq]
        refine ⟨hclosed, fun e' he' ho' => ?_⟩
        rcases List.mem_cons.1 he' with rfl | he'
        · exact absurd ho' ho
        · exact hcancel e' he' ho'

/-! ## The pool after it all -/

/-- Reaping removes finished nodes and remembers every outcome. -/
theorem reap_keeps (s : State) : s.reap.entries = s.entries ∧ ∀ m ∈ s.reap.nodes, m ∈ s.nodes := by
  unfold State.reap
  refine List.foldlRecOn (motive := fun t : State => t.entries = s.entries ∧ ∀ m ∈ t.nodes, m ∈ s.nodes) _ _ ⟨rfl, fun _ h => h⟩
    fun t ht n _ => ?_
  have hfree : ∀ (u : State) i f, (u.mapFree i f).entries = u.entries ∧ (u.mapFree i f).nodes = u.nodes := fun u i f => by
    unfold State.mapFree
    split
    · exact ⟨rfl, rfl⟩
    · exact ⟨rfl, rfl⟩
  obtain ⟨h1, h2⟩ := hfree { t with nodes := t.nodes.filter (·.id != n.id) } (n.id % 8192) fun l => { l with freed := l.freed ++ [n.id % 8192] }
  exact ⟨h1.trans ht.1, fun m hm => ht.2 m (List.mem_of_mem_filter (h2 ▸ hm))⟩

end

end Sys2Proof.Together
end

section
/-! # Copy nodes that their engine finishes (R304, R306, R309) -/

namespace Sys2Proof.Together
open Sys2Proof Sys2Proof.Machine Sys2Proof.Claims

section
variable {s : State} {i : Nat} {n : Node}

theorem finishAll_nil (fuel : Nat) (s : State) : State.finishAll fuel [] s = s := by cases fuel <;> rfl

/-- One node finishes: what follows has fuel for every successor. -/
theorem finishNodes_one (e : Ending) (s : State) : s.finishNodes [e] =
    (State.finishAll (s.nodes.length + (s.nodes.map (·.succs.length)).sum + 1) [e] s).reap := by
  unfold State.finishNodes
  rw [List.length_singleton, Nat.add_comm 1, Nat.add_right_comm]

theorem decrements_keep {Q : Node → Prop} (hQ : Final Q) (l : List Nat) (h : Closed s i Q) :
    Closed (l.foldl State.decrement s) i Q ∧ (l.foldl State.decrement s).entries = s.entries :=
  List.foldlRecOn (motive := fun t : State => Closed t i Q ∧ t.entries = s.entries) l _ ⟨h, rfl⟩ fun t ht j _ =>
    ⟨decrement_closed hQ ht.1, (entries_decrement t j).trans ht.2⟩

theorem finishNodes_complete (hn : s.node i = some n) (hst : n.st ≠ .finished) :
    (s.finishNodes [{ id := i, out := .complete }]).outcomeOf i = some .complete ∧
      ∀ m, (s.finishNodes [{ id := i, out := .complete }]).node i = some m → m.st = .finished := by
  obtain ⟨hclosed, hout⟩ := ends_self (e := { id := i, out := .complete }) hn
  obtain ⟨hdec, hent⟩ := decrements_keep (final_endedWith _) n.succs hclosed
  rw [finishNodes_one, finishAll_cons hn hst, finishAll_nil]
  obtain ⟨hre, hrn⟩ := reap_keeps (n.succs.foldl State.decrement (ends s { id := i, out := .complete } n))
  refine ⟨(outcomeOf_congr (hre.trans hent) i).trans hout, fun m hm => ?_⟩
  obtain ⟨hmem, hid⟩ := node_mem hm
  exact (hdec m (hrn m hmem) hid).1

theorem weight_le (l : List Node) : (l.map weight).sum ≤ (l.map (·.succs.length)).sum :=
  List.sum_le_sum fun m _ => by unfold weight; split <;> omega

/-- A node that fails has its cause in its word, and its successors are cancelled. -/
theorem finishNodes_failed (hn : s.node i = some n) (hst : n.st ≠ .finished) (hs : Spread s) (c : Nat) (a : DWord) :
    let e : Ending := { id := i, out := .failed, code := c, addr := a }
    (s.finishNodes [e]).outcomeOf i = some .failed ∧ (∀ m, (s.finishNodes [e]).node i = some m → EndedWith (endWord e n) m) ∧
      ∀ q ∈ n.succs, q ≠ i → Open s q → (s.finishNodes [e]).outcomeOf q = some .cancelled := by
  intro e
  obtain ⟨hclosed, hout⟩ := ends_self (e := e) hn
  have hids := ends_ids s e n
  have hpend := ends_pending (e := e) hn (spread_ids hs) hst
  have hmem : i ∈ s.nodes.map (·.id) := open_mem ⟨n, hn, hst⟩
  have hfuel : pending s ≤ (s.nodes.map (·.succs.length)).sum := weight_le s.nodes
  obtain ⟨hkeep, hcancel⟩ := finishAll_cancels (s.nodes.length + (s.nodes.map (·.succs.length)).sum)
    ((n.succs.map fun i => { id := i, out := .cancelled }) ++ []) (ends s e n)
    (fun e' he' => by
      rw [List.append_nil] at he'
      obtain ⟨j, -, rfl⟩ := List.mem_map.1 he'
      rfl)
    (spread_congr hids hs) (by rw [List.append_nil, List.length_map]; omega)
  obtain ⟨hclosed', hout'⟩ := hkeep i _ (final_endedWith _) (hids ▸ hmem) hclosed
  rw [finishNodes_one, finishAll_cons hn hst]
  obtain ⟨hre, hrn⟩ := reap_keeps (State.finishAll (s.nodes.length + (s.nodes.map (·.succs.length)).sum)
    ((n.succs.map fun i => { id := i, out := .cancelled }) ++ []) (ends s e n))
  refine ⟨(outcomeOf_congr hre i).trans (hout'.trans hout), fun m hm => ?_, fun q hq hne ho => ?_⟩
  · obtain ⟨hm, hid⟩ := node_mem hm
    exact hclosed' m (hrn m hm) hid
  · refine (outcomeOf_congr hre q).trans (hcancel { id := q, out := .cancelled } ?_ (ends_open (e := e) hn (Ne.symm hne) ho))
    rw [List.append_nil]
    exact List.mem_map.2 ⟨q, hq, rfl⟩

/-! ## The transfer before it -/

/-- Nodes of which a part is the same are found under the same identifiers. -/
theorem node_of_map {g : Node → Node} (hg : ∀ n, (g n).id = n.id) {t : State} (h : t.nodes.map g = s.nodes.map g) (hn : s.node i = some n) :
    ∃ n', t.node i = some n' ∧ g n' = g n := by
  have hfind : ∀ u : State, (u.node i).map g = (u.nodes.map g).find? (·.id == i) := fun u => by
    rw [List.find?_map]
    simp only [Function.comp_def, hg]
    rfl
  have hmap : (t.node i).map g = some (g n) := by
    rw [hfind, h, ← hfind, hn]
    rfl
  exact Option.map_eq_some_iff.1 hmap

/-- The nodes are the same but for their checksums. -/
def SameNodes (s t : State) : Prop := t.nodes.map unsummed = s.nodes.map unsummed

section
variable {t : State} (h : SameNodes s t)
include h

theorem SameNodes.node (hn : s.node i = some n) : ∃ n', t.node i = some n' ∧ unsummed n' = unsummed n :=
  node_of_map (g := unsummed) (fun _ => rfl) h hn

theorem SameNodes.isOpen {q : Nat} (ho : Open s q) : Open t q := by
  obtain ⟨m, hm, hst⟩ := ho
  obtain ⟨m', hm', heq⟩ := h.node hm
  refine ⟨m', hm', ?_⟩
  rwa [show m'.st = (unsummed m').st from rfl, heq]

theorem SameNodes.spread (hs : Spread s) : Spread t := by
  have hids : ∀ u : State, u.nodes.map (·.id) = (u.nodes.map unsummed).map (·.id) := fun u => by
    rw [List.map_map]
    rfl
  refine spread_congr ?_ hs
  rw [hids, hids, show t.nodes.map unsummed = s.nodes.map unsummed from h]

end

/-- The nodes after a transfer for the gang of a node are those before it, but for checksums. -/
theorem sameNodes_transfer {j : CopyJob} {r : Option (Option (Nat × DWord))} {u : State} (h : j.finish false (s.withGhost n) = (r, u)) :
    SameNodes s u.withoutGhost := by
  have hu := standing_finish j false (s.withGhost n)
  rw [h] at hu
  refine (Prod.mk.inj hu).1.trans ?_
  unfold State.withGhost
  split <;> rfl

/-! ## The run of a copy node -/

section
variable {j : CopyJob} {u : State} (hn : s.node i = some n) (htask : n.task = false) (hst : n.st = .ready)
  (hstop : s.stoppedAs n.asn = false) (hheld : s.launchHeld n = false) (hpow : s.powered = true) (hj : n.copyJob = some j)
include hn htask hst hstop hheld hpow hj

theorem runCopyNode_eq {r : Option (Nat × DWord)} (hr : j.finish false (s.withGhost n) = (some r, u)) :
    exec (.copyNodeRun i) s = .next (u.withoutGhost.finishNodes [match r with
      | none => { id := i, out := .complete }
      | some (c, a) => { id := i, out := .failed, code := c, addr := a }]) := by
  show Host.Outcome.next (s.runCopyNode i) = _
  unfold State.runCopyNode
  simp only [hn, htask, hst, hstop, hheld, hpow, hj, hr]
  rcases r with _ | ⟨c, a⟩ <;> rfl

/-- A copy node whose transfer is done is complete (R309). -/
theorem copyNode_completes (hr : j.finish false (s.withGhost n) = (some none, u)) :
    ∃ t, exec (.copyNodeRun i) s = .next t ∧ t.outcomeOf i = some .complete ∧ ∀ m, t.node i = some m → m.st = .finished := by
  obtain ⟨n', hn', heq⟩ := (sameNodes_transfer hr).node hn
  have hst' : n'.st ≠ .finished := by
    rw [show n'.st = (unsummed n').st from rfl, heq, show (unsummed n).st = n.st from rfl, hst]
    decide
  exact ⟨_, runCopyNode_eq hn htask hst hstop hheld hpow hj hr, finishNodes_complete hn' hst'⟩

/-- A copy node whose transfer fails has failed, and its successors are cancelled (R304, R306, R309). -/
theorem copyNode_fails {c : Nat} {a : DWord} (hr : j.finish false (s.withGhost n) = (some (some (c, a)), u)) (hab : n.nabn = 0)
    (hex : n.exit = 0) (hs : Spread s) : ∃ t, exec (.copyNodeRun i) s = .next t ∧ t.outcomeOf i = some .failed ∧
      (∀ m, t.node i = some m → m.st = .finished ∧ m.word = BitVec.ofNat 64 (2 ^ 63 + 2 ^ 60 + c % 256 * 2 ^ 40)) ∧
      ∀ q ∈ n.succs, q ≠ i → ∀ m, s.node q = some m → m.st ≠ .finished → t.outcomeOf q = some .cancelled := by
  have hsame := sameNodes_transfer hr
  obtain ⟨n', hn', heq⟩ := hsame.node hn
  have hst' : n'.st ≠ .finished := by
    rw [show n'.st = (unsummed n').st from rfl, heq, show (unsummed n).st = n.st from rfl, hst]
    decide
  have hword : endWord { id := i, out := .failed, code := c, addr := a } n' = BitVec.ofNat 64 (2 ^ 63 + 2 ^ 60 + c % 256 * 2 ^ 40) := by
    rw [show endWord { id := i, out := .failed, code := c, addr := a } n' = endWord { id := i, out := .failed, code := c, addr := a }
      (unsummed n') from rfl, heq]
    simp [endWord, completionWord, unsummed, htask, hab, hex, NodeEnd.status]
  obtain ⟨hout, hended, hcancel⟩ := finishNodes_failed hn' hst' (hsame.spread hs) c a
  refine ⟨_, runCopyNode_eq hn htask hst hstop hheld hpow hj hr, hout, fun m hm => hword ▸ hended m hm, fun q hq hne m hm hm' => ?_⟩
  exact hcancel q (by rwa [show n'.succs = (unsummed n').succs from rfl, heq]) hne (hsame.isOpen ⟨m, hm, hm'⟩)

end

end

end Sys2Proof.Together
end

section
/-! # The end of a convoy leaves the graph as it was -/

namespace Sys2Proof.Together
open Sys2Proof Sys2Proof.Machine Sys2Proof.Claims

section
variable (s : State)

@[simp] theorem standing_close : standing s.close = standing s :=
  foldl_keeps standing (fun _ _ => standing_setAccDrt ..) s.cv.marks s

@[simp] theorem standing_void : standing s.void = standing s := rfl

@[simp] theorem standing_pass (i : Instr) : standing (s.pass i) = standing s := rfl

@[simp] theorem standing_nextMember : standing s.nextMember = standing s := rfl

@[simp] theorem standing_begin (i : Instr) : standing (s.begin i) = standing s := by
  unfold State.begin
  split <;> rfl

@[simp] theorem standing_countPops : standing s.countPops = standing s := by
  unfold State.countPops
  split
  · rfl
  · exact standing_count ..

@[simp] theorem standing_retireConvoy : standing s.retireConvoy = standing s := by
  unfold State.retireConvoy
  dsimp only
  split <;> rfl

@[simp] theorem standing_finish_convoy : standing s.finish = standing s := by
  unfold State.finish
  split <;> simp

@[simp] theorem standing_checkedMember (i : Instr) : standing (s.checkedMember i) = standing s := by
  unfold State.checkedMember
  split
  · rfl
  · dsimp only
    split
    · exact standing_close _
    · rfl

@[simp] theorem standing_retireMember (i : Instr) : standing (s.retireMember i) = standing s := by
  unfold State.retireMember
  split
  · simp
  · dsimp only
    split <;> simp

@[simp] theorem standing_trapConvoy (t : Trap) : standing (s.trapConvoy t) = standing s := by
  unfold State.trapConvoy
  dsimp only
  split
  · rfl
  · rfl
  · exact standing_close _
  · exact standing_close _

@[simp] theorem standing_waitConvoy (r : Nat) : standing (s.waitConvoy r) = standing s := rfl

@[simp] theorem standing_endMember (i : Instr) {f : State → State} (hf : standing (f s) = standing s) :
    standing (s.endMember i f) = standing s := by
  unfold State.endMember
  split
  · rfl
  · exact hf

@[simp] theorem standing_endExc (i : Instr) (e : Exc) (undo : Hart → Hart) : standing (s.endExc i e undo) = standing s := by
  unfold State.endExc
  split
  next t =>
    split
    · simp
    split
    · simp
    split
    · simp
    · exact standing_endMember _ _ (by simp)
  next r =>
    split
    · simp
    split
    · simp
    · exact standing_endMember _ _ (by simp)
  next e _ _ =>
    split
    · simp
    split
    · exact standing_close _
    · exact standing_close _
    · exact standing_close _
    · simp

/-- What a body leaves alone, the whole instruction leaves alone. -/
theorem standing_run_body {body : M Unit} (hb : Stands body) (i : Instr) : standing (run i body s) = standing s := by
  have h := hb.keeps (s.begin i)
  rw [standing_begin] at h
  unfold run
  split
  next t hr => rw [hr] at h; exact (standing_retireMember ..).trans h
  next e t hr => rw [hr] at h; exact (standing_endExc ..).trans h

@[simp] theorem standing_focus (id : HartId) : standing (s.focus id) = standing s := by
  unfold State.focus
  split
  · rfl
  split <;> rfl

theorem standing_aside {f : State → State} (hf : ∀ t, standing (f t) = standing t) (id : HartId) : standing (s.aside id f) = standing s := by
  unfold State.aside
  exact (standing_focus ..).trans ((hf _).trans (standing_focus s id))

end

end Sys2Proof.Together
end

section
/-! # What the steps of an atomic leave of the graph (R192 to R198) -/

namespace Sys2Proof.Together
open Sys2Proof Sys2Proof.Machine Sys2Proof.Claims

namespace Stands
variable {ε α β : Type}

/-- A branch that goes on where the other ends up too. -/
theorem iteThen {c : Prop} [Decidable c] {a : ExceptT ε (StateM State) α} {f : α → ExceptT ε (StateM State) β} {u : α} (ha : Stands a)
    (hf : ∀ x, Stands (f x)) : Stands (if c then a >>= f else f u) := by
  split
  · exact .bind ha hf
  · exact hf u

end Stands

section
variable {α : Type}

/-! ## The hart and its state -/

theorem stands_modH (f : Hart → Hart) : Stands (modH f) := .modifies fun _ => rfl

theorem stands_keepH (f : Hart → Hart) : Stands (keepH f) := .modifies fun _ => rfl

theorem stands_getH : Stands getH := .bind .get fun _ => .pure _

/-- The hart that is read is the one in focus. -/
theorem standing_getH_bind {f : Hart → M α} {s u : State} (h : standing (f s.h s).2 = standing u) :
    standing ((getH >>= f) s).2 = standing u := h

theorem stands_whoM : Stands whoM := .bind .get fun _ => .pure _

theorem stands_takeFreeM : Stands takeFreeM := .bind_get fun _ => rfl

theorem stands_rctx (d : DWord) : Stands (rctx d) := .bind stands_getH fun _ => .pure _

theorem stands_throwTrap (kind : Kind) (code : Nat) (tval : DWord) (idx : Nat) : Stands (throwTrap kind code tval idx : M α) := .throw _

theorem stands_before (code : Nat) (tval : DWord) : Stands (before code tval : M α) := .throw _

theorem stands_squash (code : Nat) (tval : DWord) : Stands (squash code tval : M α) := .throw _

theorem stands_denied (kind : Kind) (idx : Nat) (va : DWord) (d : Denied) : Stands (denied kind idx va d : M α) := by
  cases d with
  | cause c => exact .throw _
  | wait => exact .throw _

theorem stands_deniedKeeping (keep : Bool) (idx : Nat) (va : DWord) (d : Denied) : Stands (deniedKeeping keep idx va d : M α) := by
  cases d with
  | cause c => exact .ite (stands_denied ..) (.throw _)
  | wait => exact .throw _

theorem stands_dropEarly (c : Cls) (sp : Space) (l : List Nat) : Stands (dropEarly c sp l) := stands_modH _

theorem stands_writeElts (d : BitVec 5) (w : Nat) (l : List (Nat × Nat)) : Stands (writeElts d w l) := stands_modH _

theorem stands_acquireAttr (fm : Form) : Stands (acquireAttr fm) := .ite (stands_modH _) (.pure _)

/-! ## Writes on their way -/

theorem standing_flushFor (s : State) (hit : PWrite → Bool) : standing (s.flushFor hit) = standing s :=
  foldl_keeps standing (fun _ _ => standing_apply ..) _ s

theorem standing_flush (s : State) (p : Cls → Bool) : standing (s.flush p) = standing s :=
  foldl_keeps standing (fun _ _ => standing_apply ..) _ s

theorem stands_settleAtom (c : Cls) (n : Nat) (l : AtomLoc) : Stands (settleAtom c n l) := .bind_get fun s => standing_flushFor s _

/-! ## What an access waits for -/

theorem stands_waitCopiesBy (sel : CopyCmd → Bool) (how : Exc) : Stands (waitCopiesBy sel how) := by
  refine .bind stands_getH fun h => ?_
  dsimp only
  split
  · exact .bind (stands_keepH _) fun _ => stands_before ..
  · exact .ite (.bind (stands_keepH _) fun _ => .throw _) (.pure _)

theorem stands_waitCopies (sel : CopyCmd → Bool) (r : Nat) : Stands (waitCopies sel r) := stands_waitCopiesBy ..

theorem stands_waitEarlier : Stands waitEarlier :=
  .bind stands_getH fun _ => .bind (stands_waitCopies ..) fun _ => .ite (.throw _) (.pure _)

theorem stands_waitLocks (rs : List ((Space × Nat × Nat) × Bool)) : Stands (waitLocks rs) :=
  .bind stands_getH fun _ => .bind (stands_waitCopies ..) fun _ => .ite (.throw _) (.pure _)

theorem stands_interlock (t : Bool) (as : List DWord) (n : Nat) (write : Bool) : Stands (interlock t as n write) :=
  .bind .get fun _ => stands_waitLocks _

theorem stands_interlockSp (l : List SpElt) (n : Nat) (write : Bool) : Stands (interlockSp l n write) :=
  .bind .get fun _ => stands_waitLocks _

theorem stands_settleAll : Stands settleAll :=
  .bind (.modifies fun s => standing_flush s _) fun _ => .bind stands_getH fun _ => .ite stands_waitEarlier (.pure _)

theorem stands_waitTransfers (r : Nat) : Stands (waitTransfers r) :=
  .bind (stands_waitCopies ..) fun _ => .bind stands_getH fun _ => .ite (.throw _) (.pure _)

theorem stands_releaseAt (c : Scope) : Stands (releaseAt c) :=
  .bind (stands_waitTransfers _) fun _ => .bind stands_getH fun _ => .iteThen (u := ()) (.throw _) fun _ => stands_settleAll

theorem stands_releaseAttr (fm : Form) : Stands (releaseAttr fm) := .ite (stands_releaseAt _) (.pure _)

/-! ## Checks -/

theorem stands_noteNames (bs : List Nat) : Stands (noteNames bs) := .modifies fun s => by
  dsimp only
  split <;> rfl

theorem stands_checkLives (bs : List Nat) : Stands (checkLives bs) := by
  refine .bind .get fun s => ?_
  split
  · exact .pure _
  · exact stands_before ..

theorem stands_checkNamed (i : Instr) (more : List Nat) : Stands (checkNamed i more) :=
  .bind stands_getH fun _ => .iteThen (u := ()) (stands_before ..) fun _ => .bind (stands_noteNames _) fun _ => stands_checkLives _

theorem stands_checkGrant (w : Nat) : Stands (checkGrant w) := .bind stands_getH fun _ => .ite (stands_before ..) (.pure _)

theorem stands_noSlot (r : BitVec 5) : Stands (noSlot r) := .bind stands_getH fun _ => .ite (stands_before ..) (.pure _)

theorem stands_checkFd (d : DWord) (ok : Bool) : Stands (checkFd d ok) := .ite (stands_before ..) (.pure _)

theorem stands_vamoElts (fm : Form) (v vi : BitVec 5) (dw : Bool) : Stands (vamoElts fm v vi dw) :=
  .bind (stands_checkGrant _) fun _ => .bind (stands_noSlot _) fun _ => .bind (stands_noSlot _) fun _ => .bind stands_getH fun _ =>
    .iteThen (u := ()) (stands_squash ..) fun _ => .pure _

/-! ## Locations -/

theorem stands_findM (w : Who) (va : Nat) (k : Acc) : Stands (findM w va k) := by
  refine .bind_get fun s => ?_
  have h := standing_find s w va k
  rcases hr : s.find w va k with ⟨_ | ⟨e, pa, key⟩, t⟩ <;> rw [hr] at h <;> exact h

theorem stands_atomLoc (sp : Bool) (va : DWord) (k : Acc) : Stands (atomLoc sp va k) :=
  .ite (.bind .get fun _ => .pure _) (.bind stands_whoM fun _ => .bind (stands_findM ..) fun _ => .pure _)

theorem stands_atomLocs (sp : Bool) (k : Acc) (l : List (Nat × DWord)) : Stands (atomLocs sp k l) := by
  induction l with
  | nil => exact .pure _
  | cons x l ih =>
    refine .bind (stands_atomLoc ..) fun r => ?_
    cases r with
    | error d => exact stands_deniedKeeping ..
    | ok y => exact .bind ih fun _ => .pure _

theorem stands_readSpace (c : Cls) (sp : Space) (off n cause : Nat) : Stands (readSpace c sp off n cause) :=
  .bind stands_whoM fun _ => .bind (.modifies fun _ => standing_readEcc ..) fun _ => .bind .get fun _ => .pure _

theorem stands_readAtom (c : Cls) (va : DWord) (n cause : Nat) (l : AtomLoc) : Stands (readAtom c va n cause l) := by
  cases l with
  | loc x off => exact .bind .get fun _ => .bind (stands_dropEarly ..) fun _ => stands_readSpace ..
  | glob pa key =>
    refine .bind (stands_dropEarly ..) fun _ => .bind stands_whoM fun w => .bind_get fun s => standing_getH_bind ?_
    have h := standing_loadSector s { w with psnCause := cause } (s.h.pendingOf c) pa n key va.toNat
    rcases hr : s.loadSector { w with psnCause := cause } (s.h.pendingOf c) pa n key va.toNat with ⟨_ | _, t⟩ <;> rw [hr] at h <;> exact h

theorem stands_writeAtom (va : DWord) (bs : List Byte) (l : AtomLoc) : Stands (writeAtom va bs l) := by
  refine .bind stands_whoM fun w => ?_
  cases l with
  | glob pa key => exact .modifies fun s => standing_apply ..
  | loc x off => exact .modifies fun s => standing_apply ..

theorem stands_cleanLocs (n : Nat) (l : List (Nat × DWord × AtomLoc)) : Stands (cleanLocs n l) := by
  induction l with
  | nil => exact .pure _
  | cons x l ih => exact .bind (stands_readAtom ..) fun _ => .iteThen (u := ()) (stands_squash ..) fun _ => ih

theorem stands_vamoRun (i : Instr) (n : Nat) (f : Nat → Nat → Nat) (stop : Option Nat) (l : List (Nat × DWord × AtomLoc))
    (olds : List (Nat × Nat)) : Stands (vamoRun i n f stop l olds) := by
  induction l generalizing stop olds with
  | nil =>
    unfold vamoRun
    exact .pure _
  | cons x l ih =>
    have hnext : ∀ stop' : Option Nat, Stands (do
        let old := bytesVal (← readAtom .vector x.2.1 n 0x41 x.2.2)
        writeAtom x.2.1 (leBytes n (f x.1 old)) x.2.2
        vamoRun i n f (stop'.map (· - 1)) l (olds ++ [(x.1, old)]) : M (List (Nat × Nat))) := fun _ =>
      .bind (stands_readAtom ..) fun _ => .bind (stands_writeAtom ..) fun _ => ih ..
    rcases stop with _ | _ | k
    · exact hnext none
    · exact .throw _
    · exact hnext (some (k + 1))

theorem stands_vamoBegin (fm : Form) (v : BitVec 5) (b : BitVec 6) (vi : BitVec 5) (dw sp : Bool) (o : VamoOp) :
    Stands (vamoBegin fm v b vi dw sp o) := by
  refine .bind (stands_vamoElts ..) fun es => .bind stands_getH fun h => ?_
  have hrest : Stands (do
      waitEarlier
      releaseAttr fm
      let ls ← atomLocs sp .rmw (es.map fun e => (e, vamoAddr b h (h.getV vi) (if dw then 8 else 4) e))
      let free := match o with | .fadd => attrRA fm | .int _ => true
      if free && shareByte (if dw then 8 else 4) (ls.map (·.2.1.toNat)) then do
        let m ← takeFreeM
        return shuffle m ls
      else return ls : M (List (Nat × DWord × AtomLoc))) :=
    .bind stands_waitEarlier fun _ => .bind (stands_releaseAttr _) fun _ => .bind (stands_atomLocs ..) fun _ =>
      .ite (.bind stands_takeFreeM fun _ => .pure _) (.pure _)
  exact .ite (.bind .get fun _ => .bind (stands_interlockSp ..) fun _ => hrest) (.bind (stands_interlock ..) fun _ => hrest)

/-- The part of a vector atomic that performs. -/
theorem stands_vamoTail (i : Instr) (fm : Form) (v : BitVec 5) (n w : Nat) (d : DWord) (f : RCtx → Nat → Nat → Nat) (stop : Option Nat)
    (ls : List (Nat × DWord × AtomLoc)) (olds : List (Nat × Nat)) : Stands (do
      ls.forM fun x => settleAtom .vector n x.2.2
      cleanLocs n ls
      let r ← rctx d
      let olds ← vamoRun i n (f r) stop ls olds
      acquireAttr fm
      if !attrNF fm then writeElts v w olds : M Unit) :=
  .bind (.forM (fun _ => stands_settleAtom ..) _) fun _ => .bind (stands_cleanLocs ..) fun _ => .bind (stands_rctx _) fun _ =>
    .bind (stands_vamoRun ..) fun _ => .bind (stands_acquireAttr _) fun _ => .ite (stands_writeElts ..) (.pure _)

/-- A vector atomic, or what is left of one. -/
theorem stands_vamoBody (i : Instr) (fm : Form) (v : BitVec 5) (b : BitVec 6) (vi : BitVec 5) (dw sp : Bool) (o : VamoOp)
    (stop : Option Nat) : Stands (vamoBody i fm v b vi dw sp o stop) := by
  refine .bind stands_getH fun h => ?_
  dsimp only
  split
  · exact stands_vamoTail ..
  · refine .bind (stands_checkNamed ..) fun _ => ?_
    cases o with
    | fadd => exact .bind (stands_checkFd ..) fun _ => .bind (stands_vamoBegin ..) fun _ => .bind (.pure _) fun _ => stands_vamoTail ..
    | int op => exact .bind (stands_vamoBegin ..) fun _ => .bind (.pure _) fun _ => stands_vamoTail ..

end

end Sys2Proof.Together
end

section
/-! # Gangs that are ended for others (R321, R323) -/

namespace Sys2Proof.Together
open Sys2Proof Sys2Proof.Machine Sys2Proof.Claims

section
variable (s : State)

theorem standing_finishVamo (id : HartId) : standing (s.finishVamo id) = standing s := by
  unfold State.finishVamo
  split
  · exact standing_aside s (fun t => standing_run_body t (stands_vamoBody ..) _) id
  · rfl

theorem standing_joinRecheck (id : HartId) : standing (s.joinRecheck id) = standing s := by
  refine foldl_keeps standing (fun t k => ?_) _ s
  unfold State.joinResolve
  split
  · exact (standing_count ..).trans (standing_mapHarts ..)
  · rfl

theorem standing_removeHart (h : Hart) : standing (s.removeHart h) = standing s := by
  unfold State.removeHart
  extract_lets w t here t1 t2
  have ht2 : standing t2 = standing t1 := by
    show standing (if _ then _ else _) = _
    split <;> rfl
  exact (standing_joinRecheck ..).trans (ht2.trans (standing_applies s w h.stbuf))

/-! ## Accepted epilogue commands -/

theorem standing_drainTarget (w : Who) (now : Bool) (l : List (Nat × Nat)) : standing (s.drainTarget w now l).2 = standing s := by
  induction l generalizing s with
  | nil => rfl
  | cons x l ih =>
    have hr : standing (if now then s.translateNow w (x.1 % 2 ^ 64) else s.translateHw w (x.1 % 2 ^ 64)).2 = standing s := by
      split <;> simp
    unfold State.drainTarget
    split
    next t ht => rw [ht] at hr; exact hr
    next c t ht => rw [ht] at hr; exact (ih t).trans hr
    next y t ht => rw [ht] at hr; exact (ih t).trans hr

theorem standing_drainTargets (w : Who) (now : Bool) (l : List (DWord × List Byte × Bool)) :
    standing (s.drainTargets w now l).2 = standing s := by
  induction l generalizing s with
  | nil => rfl
  | cons x l ih =>
    have hr := standing_drainTarget s w now (piecesOf x.1.toNat x.2.1.length)
    unfold State.drainTargets
    split
    next t ht => rw [ht] at hr; exact hr
    next y t ht => rw [ht] at hr; exact (ih t).trans hr

theorem standing_drainWrite (w : Who) (va : DWord) (p : Bool) (bs : List Byte) (l : List DrainPiece) :
    standing (s.drainWrite w va p bs l).2 = standing s := by
  induction l generalizing s va bs with
  | nil => rfl
  | cons x l ih =>
    obtain ⟨len, x⟩ := x
    unfold State.drainWrite
    dsimp only
    rw [ih]
    cases x with
    | none => rfl
    | some y => exact standing_apply ..

theorem standing_epilogueDrain (core : Nat) (now : Bool) : standing (s.epilogueDrain core now) = standing s := by
  unfold State.epilogueDrain
  split
  · rfl
  next g _ =>
    split
    · rfl
    next c _ _ =>
      extract_lets x hart w ws
      split
      · rfl
      have hr := standing_drainTargets s w now ws
      split
      next t ht => rw [ht] at hr; exact hr
      next ts t ht =>
        rw [ht] at hr
        have hfold := foldl_keeps (fun a : Option DWord × State => standing a.2) (f := fun a e =>
            match a.2.drainWrite w e.1.1 e.1.2.2 e.1.2.1 e.2 with
            | (b, t) => (if a.1.isNone && b then some e.1.1 else a.1, t))
          (fun a e => standing_drainWrite a.2 w e.1.1 e.1.2.2 e.1.2.1 e.2) (ws.zip ts) (none, t)
        split
        next lost u hu =>
          rw [hu] at hfold
          refine (standing_mapGang _ _ _ (by intro; rfl)).trans (Eq.trans ?_ (hfold.trans hr))
          cases lost <;> rfl

theorem standing_slotFree (core : Nat) : standing (s.slotFree core) = standing s := by
  unfold State.slotFree
  split
  · rfl
  split
  · rfl
  split
  · rfl
  · extract_lets m
    exact (standing_mapHarts ..).trans (standing_mapGang _ _ _ (by intro; rfl))

theorem standing_finishEpilogue (key : Nat) : standing (s.finishEpilogue key) = standing s := by
  unfold State.finishEpilogue
  split
  · rfl
  · refine (standing_mapGang _ _ _ (by intro; rfl)).trans ?_
    exact foldl_keeps standing (fun t _ => (standing_slotFree ..).trans (standing_epilogueDrain t ..)) _ s

end

end Sys2Proof.Together
end

section
/-! # Requests to the Dealer (R321 to R323) -/

namespace Sys2Proof.Together
open Sys2Proof Sys2Proof.Machine Sys2Proof.Claims

/-! ## Gangs that start again keep the requests -/

/-- A node's identifier and request alone. -/
def askedOnly (n : Node) : Node := { id := n.id, req := n.req }

/-- The same requests stand, and no gang is on its way to its end. -/
structure Asks (s t : State) : Prop where
  nodes : t.nodes.map askedOnly = s.nodes.map askedOnly
  fates : (∀ g ∈ s.gangs, g.fate = .runs ∨ g.fate = .again) → ∀ g ∈ t.gangs, g.fate = .runs ∨ g.fate = .again

section
variable {s t u : State}

theorem Asks.trans (h : Asks s t) (h' : Asks t u) : Asks s u := ⟨h'.nodes.trans h.nodes, fun hf => h'.fates (h.fates hf)⟩

theorem asks_refl (s : State) : Asks s s := ⟨rfl, fun h => h⟩

theorem asks_of_standing (h : standing t = standing s) : Asks s t := by
  obtain ⟨hn, hf⟩ := Prod.mk.inj h
  have hnodes : ∀ v : State, v.nodes.map askedOnly = (v.nodes.map unsummed).map askedOnly := fun v => by
    rw [List.map_map]
    rfl
  refine ⟨by rw [hnodes, hn, ← hnodes], fun hs g hg => ?_⟩
  have hmem : g.fate ∈ s.gangs.map (·.fate) := hf ▸ List.mem_map_of_mem hg
  obtain ⟨g', hg', heq⟩ := List.mem_map.1 hmem
  exact heq ▸ hs g' hg'

theorem asks_foldl {α : Type} {f : State → α → State} (hf : ∀ s x, Asks s (f s x)) (l : List α) (s : State) : Asks s (l.foldl f s) :=
  List.foldlRecOn (motive := Asks s) l f (asks_refl s) fun t ht x _ => ht.trans (hf t x)

theorem nodes_mapNode_map {g : Node → Node} (s : State) (i : Nat) (f : Node → Node) (hf : ∀ n, g (f n) = g n) :
    (s.mapNode i f).nodes.map g = s.nodes.map g := by
  unfold State.mapNode
  rw [List.map_map]
  refine List.map_congr_left fun n _ => ?_
  simp only [Function.comp_apply]
  split <;> simp [hf]

theorem asks_again (s : State) (key : Nat) : Asks s (s.mapGang key fun g => { g with fate := .again }) := by
  refine ⟨rfl, fun hs g hg => ?_⟩
  obtain ⟨g', hg', rfl⟩ := List.mem_map.1 hg
  split
  · exact .inr rfl
  · exact hs g' hg'

/-- A gang that starts again goes back to what its node has to start (R323). -/
theorem asks_endGang {g : Gang} (hg : g.fate = .runs ∨ g.fate = .again) (s : State) : Asks s (s.endGang g) := by
  have hdrop : Asks s (s.dropGang g.key) := ⟨rfl, fun hs g' hg' => hs g' (List.mem_of_mem_filter hg')⟩
  unfold State.endGang
  rcases hg with hg | hg
  · rw [hg]; exact hdrop
  · rw [hg]
    exact hdrop.trans ⟨nodes_mapNode_map _ _ _ (by intro; rfl), fun hs => hs⟩

theorem asks_sweep (hs : ∀ g ∈ s.gangs, g.fate = .runs ∨ g.fate = .again) : Asks s s.sweep :=
  List.foldlRecOn (motive := Asks s) _ _ (asks_refl s) fun t ht g hg => ht.trans (asks_endGang (hs g (List.mem_of_mem_filter hg)) t)

/-- Gangs whose harts are ended, to start again, leave every request. -/
theorem asks_killGangs (hs : ∀ g ∈ s.gangs, g.fate = .runs ∨ g.fate = .again) (keys : List Nat) : Asks s (s.killGangs keys .again) := by
  unfold State.killGangs
  extract_lets t1 t2 t3
  have h1 : Asks s t1 := asks_foldl (fun u id => asks_of_standing (standing_finishVamo u id)) _ s
  have h2 : Asks t1 t2 := asks_foldl (fun u h => asks_of_standing (standing_removeHart u h)) _ t1
  have h3 : Asks t2 t3 := asks_foldl (fun u k => (asks_of_standing (standing_finishEpilogue u k)).trans (asks_again _ k)) _ t2
  have h := h1.trans (h2.trans h3)
  exact h.trans (asks_sweep (h.fates hs))

theorem asks_giveWay (hs : ∀ g ∈ s.gangs, g.fate = .runs ∨ g.fate = .again) (tm : Team) (deadline : DWord) (waiter : Nat) (barred : Bool) :
    Asks s (s.giveWay tm deadline waiter barred) := by
  unfold State.giveWay
  split
  · exact ⟨rfl, fun h => h⟩
  · exact asks_killGangs hs _
  · exact ⟨rfl, fun h => h⟩

/-! ## Victims are added to a request -/

/-- The node of the identifier has a request like `r`, with victims when `r` has some or `some` says so. -/
def HasRequest (s : State) (id : Nat) (deadline : DWord) (some_ : Prop) : Prop :=
  ∃ m q, s.node id = some m ∧ m.req = some q ∧ q.deadline = deadline ∧ (some_ → q.taken ≠ [])

theorem node_mapNode_req {id : Nat} {n : Node} (hn : s.node id = some n) (r : Request) :
    (s.mapNode id fun n => { n with req := some r }).node id = some { n with req := some r } :=
  node_mapNode_self (fun n => { n with req := some r }) (fun _ => rfl) hn

/-- What one victim of a request leaves. -/
theorem takeVictim_req {id : Nat} {n : Node} {r : Request} (hs : ∀ g ∈ s.gangs, g.fate = .runs ∨ g.fate = .again) (hn : s.node id = some n)
    (tm : Team) :
    let v := s.mapNode id fun n => { n with req := some { r with taken := r.taken ++ [tm] } }
    let u := if v.isBusy tm then v else v.giveWay tm r.deadline id (r.barred.contains tm)
    (∀ g ∈ u.gangs, g.fate = .runs ∨ g.fate = .again) ∧
      ∃ m, u.node id = some m ∧ m.req = some { r with taken := r.taken ++ [tm] } := by
  intro v u
  have hu : Asks v u := by
    show Asks v (if _ then _ else _)
    split
    · exact asks_refl v
    · exact asks_giveWay (s := v) hs _ _ _ _
  obtain ⟨m, hm, heq⟩ := node_of_map (g := askedOnly) (fun _ => rfl) hu.nodes (node_mapNode_req hn { r with taken := r.taken ++ [tm] })
  refine ⟨hu.fates hs, m, hm, ?_⟩
  rw [show m.req = (askedOnly m).req from rfl, heq]
  rfl

theorem takeVictims_req {id : Nat} (l : List Team) (s : State) {n : Node} {r : Request}
    (hs : ∀ g ∈ s.gangs, g.fate = .runs ∨ g.fate = .again) (hn : s.node id = some n) (hr : n.req = some r) :
    HasRequest (s.takeVictims id l) id r.deadline
      (r.taken ≠ [] ∨ (l ≠ [] ∧ s.placeable n.desc (s.teamKeys r.taken) = false)) := by
  induction l generalizing s n r with
  | nil => exact ⟨n, r, hn, hr, rfl, fun h => h.resolve_right fun h => h.1 rfl⟩
  | cons tm l ih =>
    unfold State.takeVictims
    simp only [hn, hr]
    split
    next hp => exact ⟨n, r, hn, hr, rfl, fun h => h.resolve_right fun h => by simp [hp] at h⟩
    · obtain ⟨hfates, m, hm, hreq⟩ := takeVictim_req (r := r) hs hn tm
      obtain ⟨m', q, hm', hq, hdead, hsome⟩ := ih _ hfates hm hreq
      exact ⟨m', q, hm', hq, hdead, fun _ => hsome (.inl (by simp))⟩

/-! ## A request of a node -/

theorem insertBy_ne_nil {α : Type} (lt : α → α → Bool) (x : α) (l : List α) : insertBy lt x l ≠ [] := by
  cases l with
  | nil => simp [insertBy]
  | cons y l =>
    unfold insertBy
    split <;> simp

theorem sortBy_ne_nil {α : Type} (lt : α → α → Bool) {l : List α} (h : l ≠ []) : sortBy lt l ≠ [] := by
  cases l with
  | nil => exact absurd rfl h
  | cons x l => exact insertBy_ne_nil lt x _

/-- A node's identifier and priority alone. -/
def rankOnly (n : Node) : Node := { id := n.id, prio := n.prio }

/-- A request of the node changes none of its candidates. -/
theorem candidates_mapNode_req {id : Nat} {n : Node} (r : Request) :
    (s.mapNode id fun n => { n with req := some r }).candidates { n with req := some r } = s.candidates n := by
  have hprio : (s.mapNode id fun n => { n with req := some r }).prioOfTask = s.prioOfTask := by
    funext i
    unfold State.prioOfTask
    have hmap := nodes_mapNode_map (g := rankOnly) s id (fun n => { n with req := some r }) (by intro; rfl)
    cases h : s.node i with
    | some m =>
      obtain ⟨m', hm', heq⟩ := node_of_map (g := rankOnly) (fun _ => rfl) hmap h
      simp only [hm']
      rw [show m'.prio = (rankOnly m').prio from rfl, heq]
      rfl
    | none =>
      cases h' : (s.mapNode id fun n => { n with req := some r }).node i with
      | none => rfl
      | some m' =>
        obtain ⟨m, hm, -⟩ := node_of_map (g := rankOnly) (fun _ => rfl) hmap.symm h'
        rw [h] at hm
        cases hm
  unfold State.candidates
  rw [hprio]
  rfl

theorem dealFor_req {id : Nat} {n : Node} (deadline : DWord) (hs : ∀ g ∈ s.gangs, g.fate = .runs) (hn : s.node id = some n)
    (hp : s.placeable n.desc [] = false) (hc : s.candidates n ≠ []) :
    HasRequest ((s.mapNode id fun n => { n with req := some { deadline := deadline } }).dealFor id) id deadline True := by
  have hnode := node_mapNode_req hn { deadline := deadline }
  unfold State.dealFor
  have hnil : ∀ l : List Team, l.filter ([] : List Team).contains = [] := fun l => List.filter_eq_nil_iff.2 (by simp)
  simp only [hnode, candidates_mapNode_req, List.contains_nil, Bool.not_false, List.filter_true, hnil, List.append_nil]
  obtain ⟨m, q, hm, hq, hdead, hsome⟩ := takeVictims_req
    (sortBy (s.mapNode id fun n => { n with req := some { deadline := deadline } }).before (s.candidates n))
    (s.mapNode id fun n => { n with req := some { deadline := deadline } }) (fun g hg => .inl (hs g hg)) hnode rfl
  exact ⟨m, q, hm, hq, hdead, fun _ => hsome (.inr ⟨sortBy_ne_nil _ hc, hp⟩)⟩

/-- The deadline of a request by priority (R321). -/
theorem deadlineNs_eq (p : Nat) : deadlineNs p = if p = 0 then 10000 else if p = 1 then 50000 else if p = 2 then 250000 else 1000000 := by
  match p with
  | 0 => rfl
  | 1 => rfl
  | 2 => rfl
  | 3 => rfl
  | p + 4 => simp [deadlineNs]

/-- A task whose gang cannot be placed asks for victims, with the deadline of its priority (R321). -/
theorem request_takes {id : Nat} {n : Node} (hn : s.node id = some n) (hst : s.startable n = true) (hpow : s.powered = true)
    (hp : s.placeable n.desc [] = false) (hreq : n.req = none) (hs : ∀ g ∈ s.gangs, g.fate = .runs) (hc : s.candidates n ≠ []) :
    HasRequest (s.request id) id (s.tstamp + BitVec.ofNat 64 (deadlineNs n.prio)) True := by
  have hc' : (s.candidates n).isEmpty = false := by simpa using hc
  unfold State.request
  simp only [hn, hst, hpow, hp, hreq, hc', Bool.not_true, Bool.or_self, Bool.false_eq_true, if_false]
  exact dealFor_req _ hs hn hp hc

end

end Sys2Proof.Together
end

section
/-! # The launch engine and the Dealer (O53) -/

namespace Sys2Proof.Together
open Sys2Proof Sys2Proof.Machine Sys2Proof.Claims

section
variable {s : State} {node gidx core mask : Nat} {n : Node} {r : Rota}

/-- The harts and the gang of a start, one by one (R310, R355). -/
theorem gangStart_each (hn : s.node node = some n) (hm : s.mayStart node (n.toStart.headD 0) core (maskParts mask) = some (n, r))
    (hsaved : s.isSaved node (n.toStart.headD 0) = false) :
    ∃ t, ∃ hs : List Hart, exec (.gangStart node core mask) s = .next t ∧ t.harts = s.harts ++ hs ∧ hs.length = n.desc.harts ∧
      (∃ g, t.gangs = s.gangs ++ [g] ∧ g.core = core ∧ g.parts = maskParts mask ∧ g.node = node ∧ g.gidx = n.toStart.headD 0 ∧
        g.tcm.cells = [] ∧ n.desc.tcmb ≤ g.tcm.size ∧ g.tcm.size < n.desc.tcmb + 4096 ∧ g.tcm.size % 4096 = 0) ∧
      ∀ (k : Nat) (h : Hart), hs[k]? = some h → h.live = true ∧ h.gh = k ∧ h.asn = n.asn ∧ h.pc = n.desc.entry ∧ h.status = { } ∧
        h.vl = 0 ∧ h.split = n.desc.split ∧ h.cur = n.desc.split ∧ h.prot = n.desc.prot ∧
        (∀ q : BitVec 6, h.getX q =
          if 1 ≤ q.toNat ∧ q.toNat ≤ 8 then n.args.getD (q.toNat - 1) 0 else if q = 9 then n.rolled.getD 0 else 0) := by
  obtain ⟨key, tvec, tcb, now, t, ht, hharts, hgangs⟩ := gangStart_starts hn hm hsaved
  obtain ⟨hlow, hhigh, hmod⟩ := granules_bounds n.desc.tcmb
  refine ⟨t, _, ht, hharts, by simp, ⟨_, hgangs, rfl, rfl, (node_mem hn).2, rfl, rfl, hlow, hhigh, hmod⟩, fun k h hk => ?_⟩
  rw [List.getElem?_map, Option.map_eq_some_iff] at hk
  obtain ⟨k', hk', rfl⟩ := hk
  obtain ⟨-, rfl⟩ : k < n.desc.harts ∧ k = k' := by simpa [List.getElem?_range, List.getElem?_eq_some_iff] using hk'
  exact ⟨rfl, rfl, rfl, rfl, rfl, rfl, rfl, rfl, rfl, getX_newHart n core (maskParts mask) key tvec k⟩

end

/-- Settles O53: what may start is what `nextStart` serves; accesses of engines and harts leave the tables and the graph, so that a start, a
drain, a restore, the end of a copy node and a request to the Dealer change only what they are about. -/
theorem launchEngine : Obligations.LaunchEngine := by
  unfold Obligations.LaunchEngine
  intro s node gidx core mask n r ps goesOn need grains free takes wants runs placed rate
  refine ⟨mayStart_sound, mayStart_only, gangStart_each, gangStart_not mask, ?_, ?_, taskAging_eq node, ?_, ?_, ?_, ?_⟩
  · exact fun j u hn ht hst hstop hheld hpow hj hr => copyNode_completes hn ht hst hstop hheld hpow hj hr
  · exact fun j u c a hn ht hst hstop hheld hpow hj hr hab hex hs => copyNode_fails hn ht hst hstop hheld hpow hj hr hab hex hs
  · intro hn hst hpow hp hreq hs hc
    obtain ⟨m, q, hm, hq, hdead, hsome⟩ := request_takes hn hst hpow hp hreq hs hc
    exact ⟨_, m, q, rfl, hm, hq, by rw [hdead, deadlineNs_eq], hsome trivial⟩
  · exact fun op rest hop ho hl hall hidle => ⟨_, rfl, askNext_asks hop ho hl hall hidle⟩
  · intro fm d a x why arr seen hl hp hsv hn hctl hdone
    refine ⟨_, rfl, ?_⟩
    rw [Passed, drainDone_goesOn hl hp hsv hn hctl hdone]
    exact ⟨rfl, rfl, fun k => Hart.getX_setX s.h d k 1⟩
  · intro sg u hm hf hr
    obtain ⟨hclk, ht⟩ := teamRestore_places hm hf hr
    obtain ⟨tcb, now, no, tvec, hg, hh⟩ := placeSaved_adds u n sg core ps
    refine ⟨_, ht, ⟨_, hg, rfl, rfl, rfl, rfl, rfl, ?_, ?_, rfl⟩, fun h hmem => ⟨_, hh h hmem, ?_⟩⟩
    · rw [hclk]; rfl
    · rw [hclk]; rfl
    · obtain ⟨hgh, hprv, hepc, hsscr⟩ := restored_kept (newHart n core ps sg.gang.key tvec h.gh) h (n.hartArea sg.gang.gidx h.gh)
      exact ⟨hgh, hprv, hepc, hsscr, fun fm d a x why arr seen hp => restored_goesOn _ _ hp⟩

end Sys2Proof.Together
end

section
/-! # Word 0 as a row of fields (R39 to R43)

Word 0 of every row is its fields laid end to end in the format of its entry. Read back at the places where the decoder reads, the fields
give the row again. -/

namespace Sys2Proof.Words
open Sys2Proof Sys2Proof.Machine Sys2Proof.Laws

/-! ## Runs of bits -/

theorem fld_eq_iff {n lo len : Nat} {x : BitVec len} : fld n lo len = x ↔ bits n lo len = x.toNat := by
  rw [← BitVec.toNat_inj]; rfl

theorem bits_toNat_self {w : Nat} (x : BitVec w) : bits x.toNat 0 w = x.toNat := by
  simp [bits, Nat.mod_eq_of_lt x.isLt]

theorem bits_of_lt {v lo : Nat} (len : Nat) (h : v < 2 ^ lo) : bits v lo len = 0 := by
  simp [bits, Nat.div_eq_of_lt h]

theorem bits_toNat_above {w lo : Nat} (len : Nat) (x : BitVec w) (h : w ≤ lo) : bits x.toNat lo len = 0 :=
  bits_of_lt len (Nat.lt_of_lt_of_le x.isLt (Nat.pow_le_pow_right (by decide) h))

theorem bits_zero (lo len : Nat) : bits 0 lo len = 0 := by simp [bits]

theorem bits_add_above {v w r lo len : Nat} (h : lo + len ≤ w) : bits (v + 2 ^ w * r) lo len = bits v lo len := by
  obtain ⟨k, rfl⟩ := Nat.exists_eq_add_of_le h
  unfold bits
  rw [Nat.pow_add, Nat.pow_add, Nat.mul_assoc, Nat.mul_assoc, Nat.add_mul_div_left _ _ (Nat.two_pow_pos lo), Nat.add_mul_mod_self_left]

theorem bits_add_below {v w r lo len : Nat} (hv : v < 2 ^ w) (h : w ≤ lo) : bits (v + 2 ^ w * r) lo len = bits r (lo - w) len := by
  obtain ⟨k, rfl⟩ := Nat.exists_eq_add_of_le h
  unfold bits
  rw [Nat.pow_add, ← Nat.div_div_eq_div_mul, Nat.add_mul_div_left _ _ (Nat.two_pow_pos w), Nat.div_eq_of_lt hv, Nat.zero_add,
    Nat.add_sub_cancel_left]

/-- A run of bits is its low part and its high part. -/
theorem bits_split (n lo a b : Nat) : bits n lo (a + b) = bits n lo a + 2 ^ a * bits n (lo + a) b := by
  unfold bits
  rw [Nat.pow_add, Nat.mod_mul, Nat.pow_add, ← Nat.div_div_eq_div_mul]

/-! ## Fields laid end to end -/

/-- The number whose binary digits are the given fields, each a width and a value, the lowest first. -/
def pack : List (Nat × Nat) → Nat
  | [] => 0
  | (w, v) :: fs => v + 2 ^ w * pack fs

/-- Each value is within its width. -/
def Fits (fs : List (Nat × Nat)) : Prop := ∀ f ∈ fs, f.2 < 2 ^ f.1

/-- Bits [lo + len - 1 : lo] of packed fields, field by field. -/
def slice : List (Nat × Nat) → Nat → Nat → Nat
  | [], _, _ => 0
  | (w, v) :: fs, lo, len =>
    if w ≤ lo then slice fs (lo - w) len
    else if lo + len ≤ w then (if lo = 0 ∧ len = w then v else bits v lo len)
    else bits v lo (w - lo) + 2 ^ (w - lo) * slice fs 0 (len - (w - lo))

theorem bits_pack {fs : List (Nat × Nat)} (h : Fits fs) (lo len : Nat) : bits (pack fs) lo len = slice fs lo len := by
  induction fs generalizing lo len with
  | nil => simp [pack, slice, bits]
  | cons f fs ih =>
    obtain ⟨w, v⟩ := f
    have hv : v < 2 ^ w := h (w, v) (List.mem_cons_self ..)
    have ih := ih fun f hf => h f (List.mem_cons_of_mem _ hf)
    unfold pack slice
    split
    · next hlo => rw [bits_add_below hv hlo, ih]
    · next hlo =>
      split
      · next hl =>
        rw [bits_add_above hl]
        split
        · next he => rw [he.1, he.2]; simp [bits, Nat.mod_eq_of_lt hv]
        · rfl
      · next hl =>
        obtain ⟨k, hk⟩ : ∃ k, len = w - lo + k := ⟨len - (w - lo), by omega⟩
        rw [hk, bits_split, bits_add_above (by omega), bits_add_below hv (by omega), ih, Nat.add_sub_cancel_left,
          show lo + (w - lo) - w = 0 by omega]

theorem slice_lt {fs : List (Nat × Nat)} (h : Fits fs) (lo len : Nat) : slice fs lo len < 2 ^ len := by
  rw [← bits_pack h]; exact Nat.mod_lt _ (Nat.two_pow_pos _)

theorem fld_pack {fs : List (Nat × Nat)} (h : Fits fs) (lo len : Nat) : fld (pack fs) lo len = BitVec.ofNat len (slice fs lo len) := by
  rw [fld_eq_iff, bits_pack h, BitVec.toNat_ofNat, Nat.mod_eq_of_lt (slice_lt h lo len)]

theorem flag_pack {fs : List (Nat × Nat)} (h : Fits fs) (lo : Nat) : flag (pack fs) lo = (slice fs lo 1 == 1) := by
  rw [← bits_pack h]; rfl

theorem toNat_beq_one (b : Bool) : (b.toNat == 1) = b := by cases b <;> rfl

theorem fits_cons {w v : Nat} {fs : List (Nat × Nat)} : Fits ((w, v) :: fs) ↔ v < 2 ^ w ∧ Fits fs := List.forall_mem_cons
theorem fits_nil : Fits [] := by simp [Fits]
theorem toNat_lt_of_le {w k : Nat} (x : BitVec w) (h : 2 ^ w ≤ k) : x.toNat < k := Nat.lt_of_lt_of_le x.isLt h

/-! ## The formats of R41, from the length field up -/

def formatA (fm : Form) (major k d a b fd func : Nat) : List (Nat × Nat) :=
  [(2, fm.code), (6, major), (1, k), (5, d), (5, a), (5, b), (3, fd), (5, func)]
def formatB (fm : Form) (major k p q s func : Nat) : List (Nat × Nat) :=
  [(2, fm.code), (6, major), (1, k), (6, p), (6, q), (6, s), (5, func)]
def formatI (fm : Form) (major k d func imm : Nat) : List (Nat × Nat) :=
  [(2, fm.code), (6, major), (1, k), (6, d), (5, func), (12, imm)]
def formatJ (fm : Form) (major k xa xb cond disp : Nat) : List (Nat × Nat) :=
  [(2, fm.code), (6, major), (1, k), (6, xa), (6, xb), (3, cond), (8, disp)]
def formatK (fm : Form) (major k d disp : Nat) : List (Nat × Nat) :=
  [(2, fm.code), (6, major), (1, k), (6, d), (17, disp)]
def formatV (fm : Form) (major k v xb c func : Nat) : List (Nat × Nat) :=
  [(2, fm.code), (6, major), (1, k), (5, v), (6, xb), (6, c), (6, func)]
def formatS (fm : Form) (major k x sys func : Nat) : List (Nat × Nat) :=
  [(2, fm.code), (6, major), (1, k), (6, x), (12, sys), (5, func)]

/-- The fields of word 0 of each row, lowest first; bit 8 is the chain bit of a row that has one (R39, R41). -/
def fields : Instr → List (Nat × Nat)
  | .add fm d a b => formatB fm 1 0 d.toNat a.toNat b.toNat 0
  | .sub fm d a b => formatB fm 1 0 d.toNat a.toNat b.toNat 1
  | .mul fm d a b => formatB fm 1 0 d.toNat a.toNat b.toNat 2
  | .mulh fm d a b => formatB fm 1 0 d.toNat a.toNat b.toNat 3
  | .mulhN fm d a b => formatB fm 1 0 d.toNat a.toNat b.toNat 4
  | .div fm d a b => formatB fm 1 0 d.toNat a.toNat b.toNat 5
  | .divN fm d a b => formatB fm 1 0 d.toNat a.toNat b.toNat 6
  | .rem fm d a b => formatB fm 1 0 d.toNat a.toNat b.toNat 7
  | .remN fm d a b => formatB fm 1 0 d.toNat a.toNat b.toNat 8
  | .and fm d a b => formatB fm 1 0 d.toNat a.toNat b.toNat 9
  | .or fm d a b => formatB fm 1 0 d.toNat a.toNat b.toNat 10
  | .xor fm d a b => formatB fm 1 0 d.toNat a.toNat b.toNat 11
  | .andn fm d a b => formatB fm 1 0 d.toNat a.toNat b.toNat 12
  | .shl fm d a b => formatB fm 1 0 d.toNat a.toNat b.toNat 13
  | .shr fm d a b => formatB fm 1 0 d.toNat a.toNat b.toNat 14
  | .sar fm d a b => formatB fm 1 0 d.toNat a.toNat b.toNat 15
  | .rol fm d a b => formatB fm 1 0 d.toNat a.toNat b.toNat 16
  | .addImm fm d i => formatI fm 2 0 d.toNat 0 i.toNat
  | .li fm d i => formatI fm 2 0 d.toNat 1 i.toNat
  | .mov fm d s => formatI fm 2 0 d.toNat 2 s.toNat
  | .andImm fm d i => formatI fm 2 0 d.toNat 3 i.toNat
  | .orImm fm d i => formatI fm 2 0 d.toNat 4 i.toNat
  | .xorImm fm d i => formatI fm 2 0 d.toNat 5 i.toNat
  | .shlImm fm d i => formatI fm 2 0 d.toNat 6 i.toNat
  | .shrImm fm d i => formatI fm 2 0 d.toNat 7 i.toNat
  | .sarImm fm d i => formatI fm 2 0 d.toNat 8 i.toNat
  | .rolImm fm d i => formatI fm 2 0 d.toNat 9 i.toNat
  | .mulImm fm d i => formatI fm 2 0 d.toNat 10 i.toNat
  | .clz fm d a => formatB fm 7 0 d.toNat a.toNat 0 0
  | .ctz fm d a => formatB fm 7 0 d.toNat a.toNat 0 1
  | .popc fm d a => formatB fm 7 0 d.toNat a.toNat 0 2
  | .bext fm d a b => formatB fm 7 0 d.toNat a.toNat b.toNat 3
  | .bins fm d a b => formatB fm 7 0 d.toNat a.toNat b.toNat 4
  | .sel fm d a b => formatB fm 7 0 d.toNat a.toNat b.toNat 5
  | .min fm d a b => formatB fm 7 0 d.toNat a.toNat b.toNat 6
  | .max fm d a b => formatB fm 7 0 d.toNat a.toNat b.toNat 7
  | .minN fm d a b => formatB fm 7 0 d.toNat a.toNat b.toNat 8
  | .maxN fm d a b => formatB fm 7 0 d.toNat a.toNat b.toNat 9
  | .bEq fm a b p => formatJ fm 3 0 a.toNat b.toNat 0 p.toNat
  | .bNe fm a b p => formatJ fm 3 0 a.toNat b.toNat 1 p.toNat
  | .bLt fm a b p => formatJ fm 3 0 a.toNat b.toNat 2 p.toNat
  | .bGe fm a b p => formatJ fm 3 0 a.toNat b.toNat 3 p.toNat
  | .bLtn fm a b p => formatJ fm 3 0 a.toNat b.toNat 4 p.toNat
  | .bGen fm a b p => formatJ fm 3 0 a.toNat b.toNat 5 p.toNat
  | .jmp fm p => formatK fm 4 0 0 p.toNat
  | .call fm d p => formatK fm 4 0 d.toNat p.toNat
  | .jmpReg fm q => formatB fm 4 0 63 q.toNat 0 0
  | .callReg fm q s => formatB fm 4 0 63 q.toNat s.toNat 1
  | .ret fm q => formatB fm 4 0 63 q.toNat 0 2
  | .setvl fm d a w => formatB fm 5 0 d.toNat a.toNat 0 w.toNat
  | .vjoin fm two => formatB fm 5 0 0 0 0 (4 + two.toNat)
  | .vsplit fm four => formatB fm 5 0 0 0 0 (6 + four.toNat)
  | .mfs fm d sys => formatS fm 6 0 d.toNat sys.toNat 0
  | .mts fm a sys => formatS fm 6 0 a.toNat sys.toNat 1
  | .trap fm n => formatS fm 6 0 0 n.toNat 2
  | .eret fm => formatS fm 6 0 0 0 3
  | .yield fm => formatS fm 6 0 0 0 4
  | .wfe fm => formatS fm 6 0 0 0 5
  | .lds fm d b i w t => formatB fm 8 0 d.toNat b.toNat i.toNat (w.toNat + 8 * t.toNat)
  | .ldD fm d b i t => formatB fm 8 0 d.toNat b.toNat i.toNat (3 + 8 * t.toNat)
  | .ldz fm d b i w t => formatB fm 8 0 d.toNat b.toNat i.toNat (4 + w.toNat + 8 * t.toNat)
  | .st fm v b i w t => formatB fm 9 0 v.toNat b.toNat i.toNat (w.toNat + 8 * t.toNat)
  | .ldacq fm d b i w c => formatB fm 10 0 d.toNat b.toNat i.toNat (w.toNat + 4 * c.code)
  | .strel fm v b i w c => formatB fm 10 0 v.toNat b.toNat i.toNat (2 + w.toNat + 4 * c.code)
  | .fenceSv fm => formatB fm 11 0 0 0 0 0
  | .fenceVs fm => formatB fm 11 0 0 0 0 1
  | .fence fm c => formatB fm 11 0 0 0 0 (8 + c.code)
  | .pref fm b i l => formatB fm 11 0 0 b.toNat i.toNat (16 + l.toNat)
  | .tlbinvVa fm a s => formatB fm 11 0 0 a.toNat s.toNat 24
  | .tlbinvAsn fm s => formatB fm 11 0 0 0 s.toNat 25
  | .tlbinvAll fm => formatB fm 11 0 0 0 0 26
  | .vld fm v b w t k => formatV fm 12 k.toNat v.toNat b.toNat 0 (w.toNat + 8 * t.toNat)
  | .vlds fm v b c w t k => formatV fm 12 k.toNat v.toNat b.toNat c.toNat (4 + w.toNat + 8 * t.toNat)
  | .vldx fm v b c w s t i k => formatV fm 13 k.toNat v.toNat b.toNat c.toNat (w.toNat + 4 * s.toNat + 8 * t.toNat + 16 * i.toNat)
  | .vst fm v b w t k => formatV fm 14 k.toNat v.toNat b.toNat 0 (w.toNat + 8 * t.toNat)
  | .vsts fm v b c w t k => formatV fm 14 k.toNat v.toNat b.toNat c.toNat (4 + w.toNat + 8 * t.toNat)
  | .vstu fm v b c t k => formatV fm 14 k.toNat v.toNat b.toNat c.toNat (16 + 8 * t.toNat)
  | .vstx fm v b c w s t i o k => formatV fm 15 k.toNat v.toNat b.toNat c.toNat (w.toNat + 4 * s.toNat + 8 * t.toNat + 16 * i.toNat + 32 * o.toNat)
  | .vadd fm d a b f k => formatA fm 16 k.toNat d.toNat a.toNat b.toNat f.toNat 0
  | .vsub fm d a b f k => formatA fm 16 k.toNat d.toNat a.toNat b.toNat f.toNat 1
  | .vmul fm d a b f k => formatA fm 16 k.toNat d.toNat a.toNat b.toNat f.toNat 2
  | .vdiv fm d a b f k => formatA fm 16 k.toNat d.toNat a.toNat b.toNat f.toNat 3
  | .vmin fm d a b f k => formatA fm 16 k.toNat d.toNat a.toNat b.toNat f.toNat 4
  | .vmax fm d a b f k => formatA fm 16 k.toNat d.toNat a.toNat b.toNat f.toNat 5
  | .vfma fm d a b f k => formatA fm 17 k.toNat d.toNat a.toNat b.toNat f.toNat 0
  | .vfms fm d a b f k => formatA fm 17 k.toNat d.toNat a.toNat b.toNat f.toNat 1
  | .vsqrt fm d a f k => formatA fm 17 k.toNat d.toNat a.toNat 0 f.toNat 8
  | .vrsqrt fm d a f k => formatA fm 17 k.toNat d.toNat a.toNat 0 f.toNat 9
  | .vabs fm d a f k => formatA fm 17 k.toNat d.toNat a.toNat 0 f.toNat 10
  | .vneg fm d a f k => formatA fm 17 k.toNat d.toNat a.toNat 0 f.toNat 11
  | .viadd fm d a b f k => formatA fm 18 k.toNat d.toNat a.toNat b.toNat f.toNat 0
  | .visub fm d a b f k => formatA fm 18 k.toNat d.toNat a.toNat b.toNat f.toNat 1
  | .vimul fm d a b f k => formatA fm 18 k.toNat d.toNat a.toNat b.toNat f.toNat 2
  | .vimulh fm d a b f k => formatA fm 18 k.toNat d.toNat a.toNat b.toNat f.toNat 3
  | .vimin fm d a b f k => formatA fm 18 k.toNat d.toNat a.toNat b.toNat f.toNat 4
  | .vimax fm d a b f k => formatA fm 18 k.toNat d.toNat a.toNat b.toNat f.toNat 5
  | .vclz fm d a f k => formatA fm 18 k.toNat d.toNat a.toNat 0 f.toNat 8
  | .vpopc fm d a f k => formatA fm 18 k.toNat d.toNat a.toNat 0 f.toNat 9
  | .vand fm d a b f k => formatA fm 19 k.toNat d.toNat a.toNat b.toNat f.toNat 0
  | .vor fm d a b f k => formatA fm 19 k.toNat d.toNat a.toNat b.toNat f.toNat 1
  | .vxor fm d a b f k => formatA fm 19 k.toNat d.toNat a.toNat b.toNat f.toNat 2
  | .vshl fm d a b f k => formatA fm 19 k.toNat d.toNat a.toNat b.toNat f.toNat 4
  | .vshr fm d a b f k => formatA fm 19 k.toNat d.toNat a.toNat b.toNat f.toNat 5
  | .vsar fm d a b f k => formatA fm 19 k.toNat d.toNat a.toNat b.toNat f.toNat 6
  | .vfshL fm d a b f k => formatA fm 19 k.toNat d.toNat a.toNat b.toNat f.toNat 8
  | .vfshR fm d a b f k => formatA fm 19 k.toNat d.toNat a.toNat b.toNat f.toNat 9
  | .vcmp fm m a b f c k => formatA fm 20 k.toNat m.toNat a.toNat b.toNat f.toNat c.code
  | .vred fm d a f o k => formatA fm 21 k.toNat d.toNat a.toNat 0 f.toNat o.code
  | .vredAddxProduct fm d a b f k => formatA fm 21 k.toNat d.toNat a.toNat b.toNat f.toNat 8
  | .vgred fm d a n f o k => formatA fm 22 k.toNat d.toNat a.toNat n.toNat f.toNat o.code
  | .vscan fm d a f o k => formatA fm 23 k.toNat d.toNat a.toNat 0 f.toNat o.code
  | .vcvt fm d a b f k => formatA fm 24 k.toNat d.toNat a.toNat b.toNat f.toNat 0
  | .mand fm d a b k => formatB fm 28 k.toNat d.toNat a.toNat b.toNat 0
  | .mor fm d a b k => formatB fm 28 k.toNat d.toNat a.toNat b.toNat 1
  | .mxor fm d a b k => formatB fm 28 k.toNat d.toNat a.toNat b.toNat 2
  | .mandn fm d a b k => formatB fm 28 k.toNat d.toNat a.toNat b.toNat 3
  | .mnot fm d a k => formatB fm 28 k.toNat d.toNat a.toNat 0 4
  | .mpopc fm d a k => formatB fm 29 k.toNat d.toNat a.toNat 0 0
  | .mfirst fm d a k => formatB fm 29 k.toNat d.toNat a.toNat 0 1
  | .vslideUp fm d a n k => formatB fm 30 k.toNat d.toNat a.toNat n.toNat 0
  | .vslideDown fm d a n k => formatB fm 30 k.toNat d.toNat a.toNat n.toNat 1
  | .vbcast fm d s k => formatB fm 30 k.toNat d.toNat s.toNat 0 2
  | .vbcastI fm d s t k => formatB fm 30 k.toNat d.toNat s.toNat t.toNat 3
  | .vperm fm d a i k => formatA fm 31 k.toNat d.toNat a.toNat i.toNat 0 0
  | .vcompress fm d a m k => formatA fm 31 k.toNat d.toNat a.toNat m.toNat 0 1
  | .vexpand fm d a m k => formatA fm 31 k.toNat d.toNat a.toNat m.toNat 0 2
  | .ldsSp fm d b i w => formatB fm 32 0 d.toNat b.toNat i.toNat w.toNat
  | .ldDSp fm d b i => formatB fm 32 0 d.toNat b.toNat i.toNat 3
  | .ldzSp fm d b i w => formatB fm 32 0 d.toNat b.toNat i.toNat (4 + w.toNat)
  | .stSp fm v b i w => formatB fm 32 0 v.toNat b.toNat i.toNat (8 + w.toNat)
  | .bstat fm d sel => formatB fm 32 0 d.toNat 0 sel.toNat 15
  | .vldSp fm v b w => formatV fm 32 0 v.toNat b.toNat 0 (32 + w.toNat)
  | .vldsSp fm v b c w => formatV fm 32 0 v.toNat b.toNat c.toNat (36 + w.toNat)
  | .vldxSp fm v b c w => formatV fm 32 0 v.toNat b.toNat c.toNat (40 + w.toNat)
  | .vldpSp fm v b c => formatV fm 32 0 v.toNat b.toNat c.toNat 47
  | .vstSp fm v b w => formatV fm 32 0 v.toNat b.toNat 0 (48 + w.toNat)
  | .vstsSp fm v b c w => formatV fm 32 0 v.toNat b.toNat c.toNat (52 + w.toNat)
  | .vstxSp fm v b c w => formatV fm 32 0 v.toNat b.toNat c.toNat (56 + w.toNat)
  | .vstpSp fm v b c => formatV fm 32 0 v.toNat b.toNat c.toNat 63
  | .amo fm xd b s o dw sp => formatB fm 33 0 xd.toNat b.toNat s.toNat (o.code + 8 * dw.toNat + 16 * sp.toNat)
  | .cas fm xd b s dw sp => formatB fm 33 0 xd.toNat b.toNat s.toNat (7 + 8 * dw.toNat + 16 * sp.toNat)
  | .vamo fm v b c dw sp o => formatV fm 34 0 v.toNat b.toNat c.toNat (dw.toNat + 2 * sp.toNat + 4 * o.code)
  | .vwait fm v b i dw sp c => formatV fm 34 0 v.toNat b.toNat i.toNat (32 + dw.toNat + 2 * sp.toNat + 4 * c.code)
  | .barArrive fm d b c => formatB fm 35 0 d.toNat b.toNat c.toNat 0
  | .barWait fm b t => formatB fm 35 0 0 b.toNat t.toNat 1
  | .barSync fm d b c => formatB fm 35 0 d.toNat b.toNat c.toNat 2
  | .gbar fm => formatB fm 35 0 0 0 0 3
  | .barRd fm d b sel => formatB fm 35 0 d.toNat b.toNat sel.toNat 4
  | .sbind fm q b v t => formatB fm 36 0 q.toNat b.toNat v.toNat (8 * t.toNat)
  | .sbindF fm q b t => formatB fm 36 0 q.toNat b.toNat 0 (1 + 8 * t.toNat)
  | .sstop fm q => formatB fm 36 0 q.toNat 0 0 2
  | .ssave fm q b t => formatB fm 36 0 q.toNat b.toNat 0 (3 + 8 * t.toNat)
  | .srest fm q b t => formatB fm 36 0 q.toNat b.toNat 0 (4 + 8 * t.toNat)
  | .sopPop fm d q => formatB fm 37 0 d.toNat q.toNat 0 0
  | .sopSkip fm q n => formatB fm 37 0 0 q.toNat n.toNat 1
  | .sopPos fm d q => formatB fm 37 0 d.toNat q.toNat 0 2
  | .sopRem fm d q => formatB fm 37 0 d.toNat q.toNat 0 3
  | .fld fm f b s t k => formatB fm 38 k.toNat f.toNat b.toNat s.toNat t.toNat
  | .fldQ fm f q s k => formatB fm 38 k.toNat f.toNat q.toNat s.toNat 2
  | .fst fm f b t k => formatB fm 38 k.toNat f.toNat b.toNat 0 (4 + t.toNat)
  | .fcount fm d f k => formatB fm 38 k.toNat d.toNat f.toNat 0 8
  | .fclear fm f k => formatB fm 38 k.toNat f.toNat 0 0 9
  | .fisect fm d a b f o k => formatA fm 39 k.toNat d.toNat a.toNat b.toNat f.toNat o.code
  | .funion fm d a b f o k => formatA fm 39 k.toNat d.toNat a.toNat b.toNat f.toNat (8 + o.code)
  | .fmerge fm d a b k => formatB fm 39 k.toNat d.toNat a.toNat b.toNat 16
  | .fsort fm d a f o k => formatA fm 40 k.toNat d.toNat a.toNat 0 f.toNat o.code
  | .fcompact fm d a f k => formatA fm 40 k.toNat d.toNat a.toNat 0 f.toNat 4
  | .fexpandV fm d a f k => formatA fm 40 k.toNat d.toNat a.toNat 0 f.toNat 8
  | .fexpandD fm d a f k => formatA fm 40 k.toNat d.toNat a.toNat 0 f.toNat 9
  | .fexpandC fm d f k => formatB fm 40 k.toNat d.toNat f.toNat 0 10
  | .fpack fm d c b f k => formatA fm 40 k.toNat d.toNat c.toNat b.toNat f.toNat 12
  | .fpackD fm d a f k => formatA fm 40 k.toNat d.toNat a.toNat 0 f.toNat 13
  | .fwalk fm d s b v k => formatB fm 41 k.toNat d.toNat s.toNat b.toNat v.toNat
  | .mldb fm g s f => formatA fm 42 0 0 (8 * g.toNat) s.toNat f.toNat 0
  | .mma fm r a f => formatA fm 42 0 r.toNat a.toNat 0 f.toNat 1
  | .mmaS24 fm r a m f => formatA fm 42 0 r.toNat a.toNat m.toNat f.toNat 2
  | .mmaX fm r a i f => formatA fm 42 0 r.toNat a.toNat i.toNat f.toNat 3
  | .mseal fm d => formatB fm 43 0 d.toNat 0 0 0
  | .mpeek fm d a r => formatB fm 43 0 d.toNat a.toNat r.toNat 1
  | .mstat fm d a r => formatB fm 43 0 d.toNat a.toNat r.toNat 2
  | .epiCfg fm a f s => formatB fm 44 0 a.toNat f.toNat s.toNat 0
  | .epiGo fm b => formatB fm 44 0 0 b.toNat 0 1
  | .epiGoLd fm b => formatB fm 44 0 0 b.toNat 0 2
  | .cpyGo fm d b t => formatB fm 45 0 d.toNat b.toNat 0 t.toNat
  | .cpyWait fm t => formatB fm 45 0 0 t.toNat 0 2
  | .cpyWaitDrop fm d t => formatB fm 45 0 d.toNat t.toNat 0 3
  | .cpyPoll fm d t => formatB fm 45 0 d.toNat t.toNat 0 4
  | .launch fm d b => formatB fm 46 0 d.toNat b.toNat 0 0
  | .launchTry fm d b => formatB fm 46 0 d.toNat b.toNat 0 1
  | .tdep fm d s p => formatB fm 47 0 d.toNat s.toNat p.toNat 0
  | .twait fm d t => formatB fm 47 0 d.toNat t.toNat 0 1
  | .texit fm a => formatB fm 47 0 0 a.toNat 0 2
  | .texitSv fm d a s => formatB fm 47 0 d.toNat a.toNat s.toNat 3
  | .dsend fm f v m => formatB fm 48 0 f.toNat v.toNat m.toNat 0
  | .drecv fm f m d => formatB fm 48 0 f.toNat m.toNat d.toNat 1
  | .drecvTry fm f m d => formatB fm 48 0 f.toNat m.toNat d.toNat 2
  | .snap fm d j => formatB fm 49 0 d.toNat j.toNat 0 0
  | .snapArm fm d b => formatB fm 49 0 d.toNat b.toNat 0 1
  | .snapDrop fm d j => formatB fm 49 0 d.toNat j.toNat 0 2
  | .snapPoll fm d j => formatB fm 49 0 d.toNat j.toNat 0 3
  | .rollback fm d j n => formatB fm 49 0 d.toNat j.toNat n.toNat 4
  | .tmark fm a => formatB fm 50 0 0 a.toNat 0 0
  | .pcntRd fm d n => formatB fm 50 0 d.toNat 0 n.toNat 1
  | .tstamp fm d sel => formatS fm 50 0 d.toNat sel.toNat 2
  | .diagSt fm v b c space => formatB fm 51 0 v.toNat b.toNat c.toNat space.code
  | .sealLog fm d b a => formatB fm 51 0 d.toNat b.toNat a.toNat 8
  | _ => []

theorem encodeWord0_eq_pack (i : Instr) : encodeWord0 i = pack (fields i) := by
  cases i <;> dsimp only [encodeWord0, fields, formatA, formatB, formatI, formatJ, formatK, formatS, formatV, pack] <;> ring

theorem fields_fit (i : Instr) : Fits (fields i) := by
  cases i
  case' ldacq c | strel c | fence c => cases c
  case' vcmp c k | vred c k | vgred c k | vscan c k | fisect c k | funion c k | fsort c k => cases c
  case' amo c dw sp => cases c
  case' vamo c => rcases c with c | _; cases c
  case' vwait c => cases c
  case' diagSt c => cases c
  all_goals
    dsimp only [fields, formatA, formatB, formatI, formatJ, formatK, formatS, formatV, CmpOp.code, WaitOp.code, RedOp.code, IsectOp.code,
      UnionOp.code, SortOp.code, AmoOp.code, VamoOp.code, DiagSpace.code, Scope.code]
    simp only [fits_cons, fits_nil, Nat.reducePow, formCode_lt, ← BitVec.toNat_ofBool, toNat_lt_of_le, Nat.reduceLeDiff, Nat.reduceLT, and_true,
      true_and]
  all_goals omega

/-- The first field is the length field. -/
theorem fields_head {i : Instr} {fm : Form} (hf : formOf i = some fm) : ∃ fs, fields i = (2, fm.code) :: fs := by
  cases i <;> cases hf <;> exact ⟨_, rfl⟩

theorem bits_encodeWord0_form {i : Instr} {fm : Form} (hf : formOf i = some fm) : bits (encodeWord0 i) 0 2 = fm.code := by
  obtain ⟨fs, h⟩ := fields_head hf
  rw [encodeWord0_eq_pack, bits_pack (fields_fit i), h]
  rfl

end Sys2Proof.Words
end

section
/-! # Each row decodes from its word 0 (R54) -/

namespace Sys2Proof.Words
open Sys2Proof Sys2Proof.Machine Sys2Proof.Laws

/-! ## Majors whose function field holds operands -/

theorem bitVec2_cases (w : BitVec 2) : w = 0 ∨ w = 1 ∨ w = 2 ∨ w = 3 := by revert w; decide
theorem bitVec2_ne_three {w : BitVec 2} (h : (w != 3) = true) : w = 0 ∨ w = 1 ∨ w = 2 := by revert w; decide

theorem decodeMajor0D_eq {fm : Form} {n : Nat} (h : bits n 31 1 = 0) : decodeMajor0D fm n = some (.vldx fm (fld n 9 5) (fld n 14 6) (fld n 20 5)
    (fld n 26 2) (flag n 28) (flag n 29) (flag n 30) (flag n 8), bits n 25 1 == 0) := by
  have hx : bits n 26 6 < 32 := by unfold bits at *; omega
  unfold decodeMajor0D
  generalize bits n 26 6 = x at hx
  interval_cases x <;> rfl

/-- The rows of major 0x20 in format B, by their function. -/
def scratchRow (fm : Form) (d b i : BitVec 6) (w : BitVec 2) (spare : Bool) : Nat → Option (Instr × Bool)
  | 0 | 1 | 2 => some (.ldsSp fm d b i w, spare)
  | 3 => some (.ldDSp fm d b i, spare)
  | 4 | 5 | 6 => some (.ldzSp fm d b i w, spare)
  | 8 | 9 | 10 | 11 => some (.stSp fm d b i w, spare)
  | 15 => some (.bstat fm d i, spare && b.toNat == 0)
  | _ => none

theorem decodeMajor20_scratchRow {fm : Form} {n : Nat} (h : bits n 31 1 = 0) :
    decodeMajor20 fm n = scratchRow fm (fld n 9 6) (fld n 15 6) (fld n 21 6) (fld n 27 2) (bits n 8 1 == 0) (bits n 27 5) := by
  have hf : bits n 27 5 = bits n 26 6 / 2 := by unfold bits; omega
  have hx : bits n 26 6 < 32 := by unfold bits at *; omega
  rw [hf]
  unfold decodeMajor20
  generalize bits n 26 6 = x at hx
  interval_cases x <;> rfl

theorem decodeMajor21_amo {fm : Form} {n : Nat} (h : bits n 27 3 < 7) : decodeMajor21 fm n = some (.amo fm (fld n 9 6) (fld n 15 6) (fld n 21 6)
    (AmoOp.ofCode (bits n 27 3)) (flag n 30) (flag n 31), bits n 8 1 == 0) := by
  have hx : bits n 27 5 < 32 := by unfold bits; omega
  have hf : bits n 27 5 % 8 < 7 := by unfold bits at *; omega
  unfold decodeMajor21
  generalize bits n 27 5 = x at hx hf
  obtain ⟨q, r, hq, hr, rfl⟩ : ∃ q r, q < 4 ∧ r < 7 ∧ x = 8 * q + r := ⟨x / 8, x % 8, by omega, hf, by omega⟩
  interval_cases q <;> interval_cases r <;> rfl

theorem decodeMajor21_cas {fm : Form} {n : Nat} (h : bits n 27 3 = 7) : decodeMajor21 fm n = some (.cas fm (fld n 9 6) (fld n 15 6) (fld n 21 6)
    (flag n 30) (flag n 31), bits n 8 1 == 0) := by
  have hx : bits n 27 5 = 7 ∨ bits n 27 5 = 15 ∨ bits n 27 5 = 23 ∨ bits n 27 5 = 31 := by unfold bits at *; omega
  unfold decodeMajor21
  rcases hx with hx | hx | hx | hx <;> rw [hx] <;> rfl

theorem decodeMajor22_vamo {fm : Form} {n : Nat} (h : bits n 31 1 = 0) : decodeMajor22 fm n = some (.vamo fm (fld n 9 5) (fld n 14 6) (fld n 20 5)
    (flag n 26) (flag n 27) (VamoOp.ofCode (bits n 28 3)), bits n 8 1 == 0 && bits n 25 1 == 0) := by
  have hx : bits n 26 6 < 32 := by unfold bits at *; omega
  unfold decodeMajor22
  generalize bits n 26 6 = x at hx
  interval_cases x <;> rfl

theorem decodeMajor22_vwait {fm : Form} {n : Nat} (h : bits n 31 1 = 1) (hc : bits n 28 3 < 6) : decodeMajor22 fm n = some (.vwait fm (fld n 9 5)
    (fld n 14 6) (fld n 20 5) (flag n 26) (flag n 27) (WaitOp.ofCode (bits n 28 3)), bits n 8 1 == 0 && bits n 25 1 == 0) := by
  have hx : 32 ≤ bits n 26 6 ∧ bits n 26 6 < 56 := by unfold bits at *; omega
  obtain ⟨hx, hy⟩ := hx
  unfold decodeMajor22
  generalize bits n 26 6 = x at hx hy
  interval_cases x <;> rfl

/-! ## Rows whose function field holds several operands -/

theorem link_listed : ∀ {d : BitVec 6}, (d != 0 && d != 63) = true → d.toNat ≠ 0 ∧ d.toNat ≠ 63 := by decide

theorem decodeWord0_scratchRow {fm : Form} {d b i : BitVec 6} {f : Nat} (h : Fits (formatB fm 32 0 d.toNat b.toNat i.toNat f))
    (hf : f < 2 ^ 4) : decodeWord0 fm (pack (formatB fm 32 0 d.toNat b.toNat i.toNat f)) =
      scratchRow fm d b i (BitVec.ofNat 2 (bits f 0 2)) true f := by
  dsimp only [formatB] at h ⊢
  simp only [decodeWord0, decodeMajor20_scratchRow, bits_of_lt _ hf, bits_pack h, fld_pack h, slice, ↓reduceIte, Nat.reduceLeDiff, Nat.reduceEqDiff,
    Nat.reduceSub, Nat.reduceAdd, Nat.zero_add, and_self, and_false, BitVec.ofNat_toNat, BitVec.setWidth_eq, beq_self_eq_true]

theorem decodeWord0_call {fm : Form} {d : BitVec 6} {p : BitVec 17} (hl : listed (.call fm d p) = true) (h : Fits (fields (.call fm d p))) :
    decodeWord0 fm (pack (fields (.call fm d p))) = some (.call fm d p, true) := by
  obtain ⟨h0, h63⟩ : d.toNat ≠ 0 ∧ d.toNat ≠ 63 := link_listed hl
  dsimp only [fields, formatK] at h ⊢
  simp only [decodeWord0, decodeMajor04, if_neg h0, if_neg h63, bits_pack h, fld_pack h, slice, ↓reduceIte, Nat.reduceLeDiff, Nat.reduceEqDiff,
    Nat.reduceSub, Nat.reduceAdd, Nat.zero_add, and_self, and_false, BitVec.ofNat_toNat, BitVec.setWidth_eq, beq_self_eq_true]

theorem decodeWord0_vldx {fm : Form} {v : BitVec 5} {b : BitVec 6} {c : BitVec 5} {w : BitVec 2} {s t i k : Bool}
    (h : Fits (fields (.vldx fm v b c w s t i k))) :
    decodeWord0 fm (pack (fields (.vldx fm v b c w s t i k))) = some (.vldx fm v b c w s t i k, true) := by
  have hx : w.toNat + 4 * s.toNat + 8 * t.toNat + 16 * i.toNat < 2 ^ 5 := by
    have := w.isLt
    cases s <;> cases t <;> cases i <;> simp <;> omega
  dsimp only [fields, formatV] at h ⊢
  simp only [decodeWord0, decodeMajor0D_eq, bits_of_lt _ hx, bits_pack h, fld_pack h, flag_pack h, slice, bits_toNat_self, bits_toNat_above,
    toNat_beq_one, ↓reduceIte, Nat.reduceLeDiff, Nat.reduceEqDiff, Nat.reduceSub, Nat.reduceAdd, Nat.zero_add, and_self, and_false,
    BitVec.ofNat_toNat, BitVec.setWidth_eq, beq_self_eq_true]
  rcases bitVec2_cases w with rfl | rfl | rfl | rfl <;> cases s <;> cases t <;> cases i <;> rfl

theorem decodeWord0_vstx {fm : Form} {v : BitVec 5} {b : BitVec 6} {c : BitVec 5} {w : BitVec 2} {s t i o k : Bool}
    (h : Fits (fields (.vstx fm v b c w s t i o k))) :
    decodeWord0 fm (pack (fields (.vstx fm v b c w s t i o k))) = some (.vstx fm v b c w s t i o k, true) := by
  dsimp only [fields, formatV] at h ⊢
  simp only [decodeWord0, decodeMajor0F, bits_pack h, fld_pack h, flag_pack h, slice, bits_toNat_self, bits_toNat_above, toNat_beq_one, ↓reduceIte,
    Nat.reduceLeDiff, Nat.reduceEqDiff, Nat.reduceSub, Nat.reduceAdd, Nat.zero_add, and_self, and_false, BitVec.ofNat_toNat, BitVec.setWidth_eq,
    beq_self_eq_true]
  rcases bitVec2_cases w with rfl | rfl | rfl | rfl <;> cases s <;> cases t <;> cases i <;> cases o <;> rfl

theorem decodeWord0_amo {fm : Form} {d b s : BitVec 6} {o : AmoOp} {dw sp : Bool} (h : Fits (fields (.amo fm d b s o dw sp))) :
    decodeWord0 fm (pack (fields (.amo fm d b s o dw sp))) = some (.amo fm d b s o dw sp, true) := by
  have hx : bits (o.code + 8 * dw.toNat + 16 * sp.toNat) 0 3 = o.code ∧ o.code < 7 := by cases o <;> cases dw <;> cases sp <;> decide
  dsimp only [fields, formatB] at h ⊢
  simp only [decodeWord0, decodeMajor21_amo, hx, bits_pack h, fld_pack h, flag_pack h, slice, ↓reduceIte, Nat.reduceLeDiff, Nat.reduceEqDiff,
    Nat.reduceSub, Nat.reduceAdd, Nat.zero_add, and_self, and_false, BitVec.ofNat_toNat, BitVec.setWidth_eq, beq_self_eq_true]
  cases o <;> cases dw <;> cases sp <;> rfl

theorem decodeWord0_cas {fm : Form} {d b s : BitVec 6} {dw sp : Bool} (h : Fits (fields (.cas fm d b s dw sp))) :
    decodeWord0 fm (pack (fields (.cas fm d b s dw sp))) = some (.cas fm d b s dw sp, true) := by
  have hx : bits (7 + 8 * dw.toNat + 16 * sp.toNat) 0 3 = 7 := by cases dw <;> cases sp <;> decide
  dsimp only [fields, formatB] at h ⊢
  simp only [decodeWord0, decodeMajor21_cas, hx, bits_pack h, fld_pack h, flag_pack h, slice, ↓reduceIte, Nat.reduceLeDiff, Nat.reduceEqDiff,
    Nat.reduceSub, Nat.reduceAdd, Nat.zero_add, and_self, and_false, BitVec.ofNat_toNat, BitVec.setWidth_eq, beq_self_eq_true]
  cases dw <;> cases sp <;> rfl

theorem decodeWord0_vamo {fm : Form} {v : BitVec 5} {b : BitVec 6} {c : BitVec 5} {dw sp : Bool} {o : VamoOp}
    (h : Fits (fields (.vamo fm v b c dw sp o))) : decodeWord0 fm (pack (fields (.vamo fm v b c dw sp o))) = some (.vamo fm v b c dw sp o, true) := by
  have hx : dw.toNat + 2 * sp.toNat + 4 * o.code < 2 ^ 5 := by
    have := vamoOpCode_lt o
    cases dw <;> cases sp <;> simp <;> omega
  dsimp only [fields, formatV] at h ⊢
  simp only [decodeWord0, decodeMajor22_vamo, bits_of_lt _ hx, bits_pack h, fld_pack h, flag_pack h, slice, bits_toNat_self, bits_toNat_above,
    ↓reduceIte, Nat.reduceLeDiff, Nat.reduceEqDiff, Nat.reduceSub, Nat.reduceAdd, Nat.zero_add, and_self, and_false, BitVec.ofNat_toNat,
    BitVec.setWidth_eq, beq_self_eq_true, Bool.and_self]
  rcases o with o | _
  · cases dw <;> cases sp <;> cases o <;> rfl
  · cases dw <;> cases sp <;> rfl

theorem decodeWord0_vwait {fm : Form} {v : BitVec 5} {b : BitVec 6} {i : BitVec 5} {dw sp : Bool} {o : WaitOp}
    (h : Fits (fields (.vwait fm v b i dw sp o))) :
    decodeWord0 fm (pack (fields (.vwait fm v b i dw sp o))) = some (.vwait fm v b i dw sp o, true) := by
  have hx : bits (32 + dw.toNat + 2 * sp.toNat + 4 * o.code) 5 1 = 1 ∧ bits (32 + dw.toNat + 2 * sp.toNat + 4 * o.code) 2 3 = o.code ∧ o.code < 6 := by
    cases o <;> cases dw <;> cases sp <;> decide
  dsimp only [fields, formatV] at h ⊢
  simp only [decodeWord0, decodeMajor22_vwait, hx, bits_pack h, fld_pack h, flag_pack h, slice, bits_toNat_self, bits_toNat_above, ↓reduceIte,
    Nat.reduceLeDiff, Nat.reduceEqDiff, Nat.reduceSub, Nat.reduceAdd, Nat.zero_add, and_self, and_false, BitVec.ofNat_toNat, BitVec.setWidth_eq,
    beq_self_eq_true, Bool.and_self]
  cases o <;> cases dw <;> cases sp <;> rfl

/-! ## The others, by their majors -/

/-- The major of a row, bits [7:2] of its word 0 (R39), is between two numbers. -/
def majorWithin (lo hi : Nat) (i : Instr) : Bool := Nat.ble lo (slice (fields i) 2 6) && Nat.ble (slice (fields i) 2 6) hi

/-- Scalar arithmetic, control, system registers, loads and stores. -/
theorem decodeWord0_scalar {i : Instr} {fm : Form} (hf : formOf i = some fm) (hl : listed i = true) (hm : majorWithin 0 9 i = true)
    (h : Fits (fields i)) : decodeWord0 fm (pack (fields i)) = some (i, true) := by
  cases i
  all_goals try exact absurd hm Bool.false_ne_true
  all_goals cases hf
  case call => exact decodeWord0_call hl h
  case' setvl w => rcases bitVec2_cases w with rfl | rfl | rfl | rfl
  case' vjoin t | vsplit t => cases t
  case' lds w t | ldz w t => rcases bitVec2_ne_three hl with rfl | rfl | rfl <;> cases t
  case' st w t => rcases bitVec2_cases w with rfl | rfl | rfl | rfl <;> cases t
  case' ldD t => cases t
  all_goals
    dsimp only [fields, formatA, formatB, formatI, formatJ, formatK, formatS, formatV, Bool.toNat_true, Bool.toNat_false, BitVec.ofNat_eq_ofNat,
      BitVec.reduceToNat, Nat.reduceAdd, Nat.reduceMul, CmpOp.code, RedOp.code, IsectOp.code, UnionOp.code, SortOp.code, DiagSpace.code, Scope.code]
      at h ⊢
    simp only [decodeWord0, decodeMajor01, decodeMajor02, decodeMajor03, decodeMajor04, decodeMajor05, decodeMajor06, decodeMajor07, decodeMajor08,
      decodeMajor09, bits_pack h, fld_pack h, flag_pack h, slice, bits_zero, bits_toNat_self, bits_toNat_above, ↓reduceIte, Nat.reduceLeDiff,
      Nat.reduceEqDiff, Nat.reduceSub, Nat.reduceAdd, Nat.mul_zero, Nat.add_zero, Nat.zero_add, and_self, and_false, BitVec.ofNat_toNat,
      BitVec.setWidth_eq, beq_self_eq_true, Bool.and_self]
  all_goals rfl

/-- Acquires, releases, fences and vector memory. -/
theorem decodeWord0_memory {i : Instr} {fm : Form} (hf : formOf i = some fm) (hl : listed i = true) (hm : majorWithin 10 15 i = true)
    (h : Fits (fields i)) : decodeWord0 fm (pack (fields i)) = some (i, true) := by
  cases i
  all_goals try exact absurd hm Bool.false_ne_true
  all_goals cases hf
  case vldx => exact decodeWord0_vldx h
  case vstx => exact decodeWord0_vstx h
  case' ldacq w c | strel w c => cases c <;> cases w
  case' fence c => cases c
  case' pref w => rcases bitVec2_ne_three hl with rfl | rfl | rfl
  case' vld w t k | vlds w t k | vst w t k | vsts w t k => rcases bitVec2_cases w with rfl | rfl | rfl | rfl <;> cases t
  case' vstu t k => cases t
  all_goals
    dsimp only [fields, formatA, formatB, formatI, formatJ, formatK, formatS, formatV, Bool.toNat_true, Bool.toNat_false, BitVec.ofNat_eq_ofNat,
      BitVec.reduceToNat, Nat.reduceAdd, Nat.reduceMul, CmpOp.code, RedOp.code, IsectOp.code, UnionOp.code, SortOp.code, DiagSpace.code, Scope.code]
      at h ⊢
    simp only [decodeWord0, decodeMajor0A, decodeMajor0B, decodeMajor0C, decodeMajor0E, bits_pack h, fld_pack h, flag_pack h, slice, bits_zero,
      toNat_beq_one, ↓reduceIte, Nat.reduceLeDiff, Nat.reduceEqDiff, Nat.reduceSub, Nat.reduceAdd, Nat.mul_zero, Nat.add_zero, Nat.zero_add, and_self,
      and_false, BitVec.ofNat_toNat, BitVec.setWidth_eq, beq_self_eq_true]
  all_goals rfl

/-- Vector and mask arithmetic. -/
theorem decodeWord0_vector {i : Instr} {fm : Form} (hf : formOf i = some fm) (hl : listed i = true) (hm : majorWithin 16 31 i = true)
    (h : Fits (fields i)) : decodeWord0 fm (pack (fields i)) = some (i, true) := by
  cases i
  all_goals try exact absurd hm Bool.false_ne_true
  all_goals cases hf
  case' vcmp c k | vred c k | vgred c k => cases c
  case' vscan o k =>
    cases o
    case addo | addx => exact absurd hl Bool.false_ne_true
  all_goals
    dsimp only [fields, formatA, formatB, formatI, formatJ, formatK, formatS, formatV, Bool.toNat_true, Bool.toNat_false, BitVec.ofNat_eq_ofNat,
      BitVec.reduceToNat, Nat.reduceAdd, Nat.reduceMul, CmpOp.code, RedOp.code, IsectOp.code, UnionOp.code, SortOp.code, DiagSpace.code, Scope.code]
      at h ⊢
    simp only [decodeWord0, decodeMajor10, decodeMajor11, decodeMajor12, decodeMajor13, decodeMajor14, decodeMajor15, decodeMajor16, decodeMajor17,
      decodeMajor18, decodeMajor1C, decodeMajor1D, decodeMajor1E, decodeMajor1F, bits_pack h, fld_pack h, flag_pack h, slice, bits_zero,
      bits_toNat_self, bits_toNat_above, toNat_beq_one, ↓reduceIte, Nat.reduceLeDiff, Nat.reduceEqDiff, Nat.reduceSub, Nat.reduceAdd, Nat.mul_zero,
      Nat.add_zero, Nat.zero_add, and_self, and_false, BitVec.ofNat_toNat, BitVec.setWidth_eq, beq_self_eq_true, Bool.and_self]
  all_goals rfl

/-- Scratchpad and atomics. -/
theorem decodeWord0_bank {i : Instr} {fm : Form} (hf : formOf i = some fm) (hl : listed i = true) (hm : majorWithin 32 34 i = true)
    (h : Fits (fields i)) : decodeWord0 fm (pack (fields i)) = some (i, true) := by
  cases i
  all_goals try exact absurd hm Bool.false_ne_true
  all_goals cases hf
  case amo => exact decodeWord0_amo h
  case cas => exact decodeWord0_cas h
  case vamo => exact decodeWord0_vamo h
  case vwait => exact decodeWord0_vwait h
  case ldsSp w | ldzSp w => rcases bitVec2_ne_three hl with rfl | rfl | rfl <;> exact decodeWord0_scratchRow h (by decide)
  case stSp w => rcases bitVec2_cases w with rfl | rfl | rfl | rfl <;> exact decodeWord0_scratchRow h (by decide)
  case ldDSp => exact decodeWord0_scratchRow h (by decide)
  case bstat => exact decodeWord0_scratchRow (b := 0) h (by decide)
  case' vldSp w | vldsSp w | vldxSp w | vstSp w | vstsSp w | vstxSp w => rcases bitVec2_cases w with rfl | rfl | rfl | rfl
  all_goals
    dsimp only [fields, formatA, formatB, formatI, formatJ, formatK, formatS, formatV, Bool.toNat_true, Bool.toNat_false, BitVec.ofNat_eq_ofNat,
      BitVec.reduceToNat, Nat.reduceAdd, Nat.reduceMul, CmpOp.code, RedOp.code, IsectOp.code, UnionOp.code, SortOp.code, DiagSpace.code, Scope.code]
      at h ⊢
    simp only [decodeWord0, decodeMajor20, bits_pack h, fld_pack h, slice, bits_toNat_self, bits_toNat_above, ↓reduceIte, Nat.reduceLeDiff,
      Nat.reduceEqDiff, Nat.reduceSub, Nat.reduceAdd, Nat.zero_add, and_self, and_false, BitVec.ofNat_toNat, BitVec.setWidth_eq, beq_self_eq_true,
      Bool.and_self]
  all_goals rfl

/-- Barriers, streams, fibre loads and set operations. -/
theorem decodeWord0_stream {i : Instr} {fm : Form} (hf : formOf i = some fm) (hl : listed i = true) (hm : majorWithin 35 39 i = true)
    (h : Fits (fields i)) : decodeWord0 fm (pack (fields i)) = some (i, true) := by
  cases i
  all_goals try exact absurd hm Bool.false_ne_true
  all_goals cases hf
  case' sbind t | sbindF t | ssave t | srest t => cases t
  case' fld t k | fst t k => cases t
  case' fisect o k | funion o k => cases o
  all_goals
    dsimp only [fields, formatA, formatB, formatI, formatJ, formatK, formatS, formatV, Bool.toNat_true, Bool.toNat_false, BitVec.ofNat_eq_ofNat,
      BitVec.reduceToNat, Nat.reduceAdd, Nat.reduceMul, CmpOp.code, RedOp.code, IsectOp.code, UnionOp.code, SortOp.code, DiagSpace.code, Scope.code]
      at h ⊢
    simp only [decodeWord0, decodeMajor23, decodeMajor24, decodeMajor25, decodeMajor26, decodeMajor27, bits_pack h, fld_pack h, flag_pack h, slice,
      bits_zero, bits_toNat_self, bits_toNat_above, toNat_beq_one, ↓reduceIte, Nat.reduceLeDiff, Nat.reduceEqDiff, Nat.reduceSub, Nat.reduceAdd,
      Nat.mul_zero, Nat.add_zero, Nat.zero_add, and_self, and_false, BitVec.ofNat_toNat, BitVec.setWidth_eq, beq_self_eq_true, Bool.and_self]
  all_goals rfl

/-- The other fibre rows and the rows of the other engines. -/
theorem decodeWord0_engine {i : Instr} {fm : Form} (hf : formOf i = some fm) (hl : listed i = true) (hm : majorWithin 40 63 i = true)
    (h : Fits (fields i)) : decodeWord0 fm (pack (fields i)) = some (i, true) := by
  cases i
  all_goals try exact absurd hm Bool.false_ne_true
  all_goals cases hf
  case' fwalk t k => cases t
  case' fsort o k => cases o
  case' cpyGo t => cases t
  case' mldb g s f => rcases bitVec2_cases g with rfl | rfl | rfl | rfl
  case' diagSt c => cases c
  all_goals
    dsimp only [fields, formatA, formatB, formatI, formatJ, formatK, formatS, formatV, Bool.toNat_true, Bool.toNat_false, BitVec.ofNat_eq_ofNat,
      BitVec.reduceToNat, Nat.reduceAdd, Nat.reduceMul, CmpOp.code, RedOp.code, IsectOp.code, UnionOp.code, SortOp.code, DiagSpace.code, Scope.code]
      at h ⊢
    simp only [decodeWord0, decodeMajor28, decodeMajor29, decodeMajor2A, decodeMajor2B, decodeMajor2C, decodeMajor2D, decodeMajor2E, decodeMajor2F,
      decodeMajor30, decodeMajor31, decodeMajor32, decodeMajor33, bits_pack h, fld_pack h, flag_pack h, slice, bits_zero, bits_toNat_self,
      bits_toNat_above, toNat_beq_one, ↓reduceIte, Nat.reduceLeDiff, Nat.reduceEqDiff, Nat.reduceSub, Nat.reduceAdd, Nat.mul_zero, Nat.add_zero,
      Nat.zero_add, and_self, and_false, BitVec.ofNat_toNat, BitVec.setWidth_eq, beq_self_eq_true, Bool.and_self]
  all_goals rfl

theorem majorWithin_iff {lo hi : Nat} {i : Instr} :
    majorWithin lo hi i = true ↔ lo ≤ slice (fields i) 2 6 ∧ slice (fields i) 2 6 ≤ hi := by
  simp only [majorWithin, Bool.and_eq_true, Nat.ble_eq]

/-- Word 0 of a row whose function is listed decodes to the row, and leaves no reserved bit set. -/
theorem decodeWord0_encodeWord0 {i : Instr} {fm : Form} (hf : formOf i = some fm) (hl : listed i = true) :
    decodeWord0 fm (encodeWord0 i) = some (i, true) := by
  have h := fields_fit i
  have hm : slice (fields i) 2 6 < 64 := slice_lt h 2 6
  rw [encodeWord0_eq_pack]
  obtain hm | hm | hm | hm | hm | hm : majorWithin 0 9 i = true ∨ majorWithin 10 15 i = true ∨ majorWithin 16 31 i = true ∨
      majorWithin 32 34 i = true ∨ majorWithin 35 39 i = true ∨ majorWithin 40 63 i = true := by
    simp only [majorWithin_iff]; omega
  · exact decodeWord0_scalar hf hl hm h
  · exact decodeWord0_memory hf hl hm h
  · exact decodeWord0_vector hf hl hm h
  · exact decodeWord0_bank hf hl hm h
  · exact decodeWord0_stream hf hl hm h
  · exact decodeWord0_engine hf hl hm h

end Sys2Proof.Words
end

section
/-! # Words and instructions (R39 to R55) -/

namespace Sys2Proof.Words
open Sys2Proof Sys2Proof.Machine Sys2Proof.Laws

/-! ## Words 1 to 4 -/

/-- The fields of word 1, lowest first (R45). -/
def extFields (e : ExtFields) : List (Nat × Nat) :=
  [(3, e.g1.toNat), (1, e.g1p.toNat), (3, e.g2.toNat), (1, e.g2p.toNat), (2, e.cls.toNat), (2, e.alc.toNat), (2, e.pri.toNat),
    (1, e.yld.toNat), (3, e.ru.toNat), (6, e.e5.toNat), (6, e.fdx.toNat), (1, e.ib.toNat), (1, e.lt.toNat)]

theorem encodeWord1_eq_pack (e : ExtFields) : encodeWord1 e = pack (extFields e) := by
  simp only [encodeWord1, extFields, pack]; ring

theorem extFields_fit (e : ExtFields) : Fits (extFields e) := by
  simp [extFields, fits_cons, fits_nil, toNat_lt_of_le, Bool.toNat_le]

theorem extOf_encode (e : ExtFields) : extOf (encodeWord1 e) e.imm.toNat = e := by
  have h := extFields_fit e
  have hi : fld e.imm.toNat 0 24 = e.imm := by rw [fld_eq_iff, bits_toNat_self]
  rw [encodeWord1_eq_pack]
  simp only [extOf, hi, fld_pack h, flag_pack h]
  simp [extFields, slice]

theorem literal_encode (l : DWord) : BitVec.ofNat 64 (l.toNat % 2 ^ 32 + l.toNat / 2 ^ 32 * 2 ^ 32) = l := by
  rw [Nat.mul_comm, Nat.mod_add_div, BitVec.ofNat_toNat, BitVec.setWidth_eq]

/-- The words of an instruction give back its form (R40, R45). -/
theorem readForm_encode {i : Instr} {fm : Form} (hf : formOf i = some fm) :
    readForm fm.code ((encode i).getD 1 0) ((encode i).getD 2 0) ((encode i).getD 3 0) ((encode i).getD 4 0) = fm := by
  cases fm <;> simp [encode, hf, Form.code, readForm, extOf_encode, literal_encode, -Nat.reducePow]

/-- Bits [31:24] of word 2 are zero in every extended form (R45). -/
theorem encode_word2 {i : Instr} {fm : Form} (hf : formOf i = some fm) :
    (decide (fm.code < 2) || bits ((encode i).getD 2 0) 24 8 == 0) = true := by
  cases fm <;> simp [encode, hf, Form.code, bits_toNat_above]

theorem encode_word0 {i : Instr} {fm : Form} (hf : formOf i = some fm) : (encode i).getD 0 0 = encodeWord0 i := by
  cases fm <;> simp [encode, hf]

/-- Settles O4: the words are fields laid end to end, and the decoder reads each of them back at its place. -/
theorem decodeOfEncode : Obligations.DecodeOfEncode := by
  unfold Obligations.DecodeOfEncode
  intro i hw hf w
  obtain ⟨fm, hf⟩ := Option.isSome_iff_exists.1 hf
  obtain ⟨hl, hfd⟩ := Bool.and_eq_true_iff.1 hw
  have hd := decodeWord0_encodeWord0 hf (Bool.and_eq_true_iff.1 hl).1
  unfold decodeWords
  simp only [w, encode_word0 hf, bits_encodeWord0_form hf, readForm_encode hf, hd, encode_word2 hf, hl, hfd]
  rfl
theorem decodeWord0_form {fm : Form} {n : Nat} {i : Instr} {b : Bool} (h : decodeWord0 fm n = some (i, b)) : formOf i = some fm := by
  unfold decodeWord0 at h
  split at h
  all_goals simp only [decodeMajor01, decodeMajor02, decodeMajor03, decodeMajor04, decodeMajor05, decodeMajor06, decodeMajor07, decodeMajor08,
    decodeMajor09, decodeMajor0A, decodeMajor0B, decodeMajor0C, decodeMajor0D, decodeMajor0E, decodeMajor0F, decodeMajor10, decodeMajor11,
    decodeMajor12, decodeMajor13, decodeMajor14, decodeMajor15, decodeMajor16, decodeMajor17, decodeMajor18, decodeMajor1C, decodeMajor1D,
    decodeMajor1E, decodeMajor1F, decodeMajor20, decodeMajor21, decodeMajor22, decodeMajor23, decodeMajor24, decodeMajor25, decodeMajor26,
    decodeMajor27, decodeMajor28, decodeMajor29, decodeMajor2A, decodeMajor2B, decodeMajor2C, decodeMajor2D, decodeMajor2E, decodeMajor2F,
    decodeMajor30, decodeMajor31, decodeMajor32, decodeMajor33, reduceCtorEq] at h
  all_goals repeat' split at h
  all_goals cases h <;> rfl


theorem readForm_len (l w1 w2 w3 w4 : Nat) : (readForm l w1 w2 w3 w4).len = lenOfL l := by
  unfold readForm
  split <;> simp [Form.len, Form.code, lenOfL]

theorem decodeWords_ok {w0 w1 w2 w3 w4 : Nat} {i : Instr} (h : decodeWords w0 w1 w2 w3 w4 = .ok i) :
    ∃ b, decodeWord0 (readForm (bits w0 0 2) w1 w2 w3 w4) w0 = some (i, b) ∧ wellFormed i = true := by
  unfold decodeWords at h
  simp only [] at h
  split at h
  · cases h
  · next j spare hd =>
    split at h
    · cases h
    · next hl =>
      split at h
      · cases h
      · next hs =>
        cases h
        simp only [Bool.not_eq_true, Bool.not_eq_false', Bool.and_eq_true] at hl hs
        exact ⟨spare, hd, by simp [wellFormed, hl, hs]⟩

/-- Settles O5: the decoder accepts a row only where it is listed and leaves no reserved bit set. -/
theorem decodedIsWellFormed : Obligations.DecodedIsWellFormed := by
  unfold Obligations.DecodedIsWellFormed
  intro w0 w1 w2 w3 w4 i h
  obtain ⟨b, hd, hw⟩ := decodeWords_ok h
  refine ⟨hw, _, decodeWord0_form hd, ?_⟩
  rw [readForm_len, bits, Nat.pow_zero, Nat.div_one]
  rfl

/-- Settles O6: the decoder computes on each word. -/
theorem decodedWords : Obligations.DecodedWords := by
  unfold Obligations.DecodedWords
  decide

end Sys2Proof.Words
end

section
/-! # A release store -/

namespace Sys2Proof.Words
open Sys2Proof Sys2Proof.Machine Sys2Proof.Claims Sys2Proof.Together

/-- The word at 0, where the list that memory is names the byte at 0 twice, is zeroed by a release. -/
def releaseZero : Instr := .strel .base 0 0 0 false .core

theorem doubledByte_released : (match exec releaseZero doubledByte with | .next u => cellsGet u.mem 0 | _ => 0) = 2 := by decide +kernel

/-- Refutes O24: it speaks of every list that memory may be, and one that lists a byte twice does not read zero after a release store has
performed a zero there. -/
theorem not_fencesAndReleases : ¬ Obligations.FencesAndReleases := by
  intro ⟨_, hrel⟩
  obtain ⟨t, ht, _, _, _, hmem, _⟩ := hrel .base 0 0 0 false .core doubledByte pageEntry (by decide +kernel) rfl (by decide +kernel)
    (by decide +kernel) (by decide +kernel) (by decide +kernel) (by decide +kernel) (by decide +kernel) (by decide +kernel)
    (by decide +kernel)
  have h2 := doubledByte_released
  rw [releaseZero, ht] at h2
  exact absurd ((hmem 0 (by decide)).symm.trans h2) (by decide +kernel)

end Sys2Proof.Words
end

section
/-! # Vector members: what they check, what they write, and how they retire -/

namespace Sys2Proof.Words
open Sys2Proof Sys2Proof.Machine Sys2Proof.Claims Sys2Proof.Laws Sys2Proof.Together

/-! ## Elements of a vector register (R6, R155) -/

theorem getLsbD_setBit {n : Nat} (b : BitVec n) (i j : Nat) (v : Bool) :
    (setBit b i v).getLsbD j = if j < n ∧ j = i then v else b.getLsbD j := by
  unfold setBit
  rw [getLsbD_setBits]
  by_cases h : j = i
  · subst h
    by_cases hn : j < n
    · rw [if_pos ⟨hn, by omega, by omega⟩, if_pos ⟨hn, rfl⟩, Nat.sub_self]
      cases v <;> rfl
    · rw [if_neg (fun c => hn c.1), if_neg fun c => hn c.1]
  · rw [if_neg (fun c => h (by omega)), if_neg fun c => h c.2]

theorem getLsbD_setAll {n : Nat} (l : List Nat) (p : Bool) (b : BitVec n) (j : Nat) :
    (l.foldl (fun t i => setBit t i p) b).getLsbD j = if j < n ∧ j ∈ l then p else b.getLsbD j := by
  induction l generalizing b with
  | nil => simp
  | cons x l ih =>
    rw [List.foldl_cons, ih, getLsbD_setBit]
    by_cases h1 : j < n ∧ j ∈ l
    · rw [if_pos h1, if_pos ⟨h1.1, List.mem_cons_of_mem _ h1.2⟩]
    · rw [if_neg h1]
      by_cases h2 : j < n ∧ j = x
      · rw [if_pos h2, if_pos ⟨h2.1, h2.2 ▸ List.mem_cons_self⟩]
      · rw [if_neg h2, if_neg fun ⟨hn, hm⟩ => (List.mem_cons.1 hm).elim (fun h => h2 ⟨hn, h⟩) fun h => h1 ⟨hn, h⟩]

/-- A width whose elements are whole bytes. -/
def wholeBytes (w : Nat) : Prop := ∃ k, w = 8 * (k + 1)

theorem mem_eltBytes {w : Nat} (hw : wholeBytes w) (e j : Nat) : j ∈ eltBytes w e ↔ e * w ≤ 8 * j ∧ 8 * j < (e + 1) * w := by
  obtain ⟨k, rfl⟩ := hw
  unfold eltBytes
  rw [if_neg (by omega), Nat.mul_div_cancel_left _ (by decide), List.mem_map]
  have h1 : e * (8 * (k + 1)) = 8 * (e * (k + 1)) := by ring
  have h2 : (e + 1) * (8 * (k + 1)) = 8 * (e * (k + 1) + (k + 1)) := by ring
  rw [h1, h2]
  constructor
  · rintro ⟨a, ha, rfl⟩
    have := List.mem_range.1 ha
    omega
  · rintro ⟨hlo, hhi⟩
    exact ⟨j - e * (k + 1), List.mem_range.2 (by omega), by omega⟩

/-- Elements of one width do not share a bit. -/
theorem elts_apart {w e f : Nat} (h : f ≠ e) : (f + 1) * w ≤ e * w ∨ (e + 1) * w ≤ f * w := by
  rcases Nat.lt_or_gt_of_ne h with h | h
  · exact .inl (Nat.mul_le_mul_right w h)
  · exact .inr (Nat.mul_le_mul_right w h)

theorem eltPsn_eq_of {w : Nat} {r r' : VReg} {e : Nat} (h : ∀ j ∈ eltBytes w e, r'.psn.getLsbD j = r.psn.getLsbD j) :
    r'.eltPsn w e = r.eltPsn w e := by
  unfold VReg.eltPsn
  rw [Bool.eq_iff_iff, List.any_eq_true, List.any_eq_true]
  exact exists_congr fun j => and_congr_right fun hj => by rw [h j hj]

section
variable {w : Nat} (hw : wholeBytes w) (r : VReg)
include hw

theorem eltPsn_setElt_same (e v : Nat) (p : Bool) (h : (e + 1) * w ≤ 16384) : (r.setElt w e v p).eltPsn w e = p := by
  have hall : ∀ j ∈ eltBytes w e, (r.setElt w e v p).psn.getLsbD j = p := fun j hj => by
    have hb := (mem_eltBytes hw e j).1 hj
    show ((eltBytes w e).foldl _ r.psn).getLsbD j = p
    rw [getLsbD_setAll, if_pos ⟨by omega, hj⟩]
  obtain ⟨j, hj⟩ : ∃ j, j ∈ eltBytes w e := by
    obtain ⟨k, rfl⟩ := hw
    refine ⟨e * (k + 1), (mem_eltBytes ⟨k, rfl⟩ _ _).2 ⟨by rw [Nat.mul_left_comm], ?_⟩⟩
    rw [← Nat.mul_left_comm, Nat.add_mul, Nat.mul_add]
    omega
  unfold VReg.eltPsn
  cases p
  · exact List.any_eq_false.2 fun i hi => by rw [hall i hi]; exact Bool.false_ne_true
  · exact List.any_eq_true.2 ⟨j, hj, hall j hj⟩

theorem eltPsn_setElt_other {e f : Nat} (v : Nat) (p : Bool) (h : f ≠ e) : (r.setElt w e v p).eltPsn w f = r.eltPsn w f := by
  refine eltPsn_eq_of fun j hj => ?_
  have hb := (mem_eltBytes hw f j).1 hj
  show ((eltBytes w e).foldl _ r.psn).getLsbD j = _
  rw [getLsbD_setAll, if_neg]
  rintro ⟨-, hm⟩
  have he := (mem_eltBytes hw e j).1 hm
  rcases elts_apart (w := w) h with h | h <;> omega
end

/-- Elements written one after the other, none with poison. -/
def putElts (w : Nat) (l : List (Nat × Nat)) (r : VReg) : VReg := l.foldl (fun r x => r.setElt w x.1 x.2 false) r

theorem putElts_cons (w : Nat) (x : Nat × Nat) (l : List (Nat × Nat)) (r : VReg) :
    putElts w (x :: l) r = putElts w l (r.setElt w x.1 x.2 false) := rfl

section
variable {w : Nat} (hw : wholeBytes w)
include hw

theorem putElts_other {e : Nat} (l : List (Nat × Nat)) (r : VReg) (h : ∀ x ∈ l, x.1 ≠ e) :
    (putElts w l r).elt w e = r.elt w e ∧ (putElts w l r).eltPsn w e = r.eltPsn w e := by
  induction l generalizing r with
  | nil => exact ⟨rfl, rfl⟩
  | cons x l ih =>
    have hx := (h x List.mem_cons_self).symm
    obtain ⟨h1, h2⟩ := ih (r.setElt w x.1 x.2 false) fun y hy => h y (List.mem_cons_of_mem _ hy)
    rw [putElts_cons, h1, h2, VReg.elt_setElt_other r w x.1 e x.2 false hx, eltPsn_setElt_other hw r x.2 false hx]
    exact ⟨rfl, rfl⟩

theorem putElts_mem {e v : Nat} (l : List (Nat × Nat)) (r : VReg) (hd : (l.map (·.1)).Nodup) (hb : ∀ x ∈ l, (x.1 + 1) * w ≤ 16384)
    (h : (e, v) ∈ l) : (putElts w l r).elt w e = v % 2 ^ w ∧ (putElts w l r).eltPsn w e = false := by
  induction l generalizing r with
  | nil => cases h
  | cons x l ih =>
    rw [List.map_cons, List.nodup_cons] at hd
    rw [putElts_cons]
    rcases List.mem_cons.1 h with rfl | h
    · have hne : ∀ y ∈ l, y.1 ≠ e := fun y hy he => hd.1 (he ▸ List.mem_map_of_mem (f := (·.1)) hy)
      obtain ⟨h1, h2⟩ := putElts_other hw l (r.setElt w e v false) hne
      have hbe := hb _ List.mem_cons_self
      rw [h1, h2, VReg.elt_setElt_same r w e v false hbe, eltPsn_setElt_same hw r e v false hbe]
      exact ⟨rfl, rfl⟩
    · exact ih _ hd.2 (fun y hy => hb y (List.mem_cons_of_mem _ hy)) h

/-- Every bit and every tag outside the elements is as it was. -/
theorem putElts_outside (l : List (Nat × Nat)) (r : VReg) :
    (∀ j, (∀ x ∈ l, j < x.1 * w ∨ (x.1 + 1) * w ≤ j) → (putElts w l r).bits.getLsbD j = r.bits.getLsbD j) ∧
    (∀ j, (∀ x ∈ l, 8 * j < x.1 * w ∨ (x.1 + 1) * w ≤ 8 * j) → (putElts w l r).psn.getLsbD j = r.psn.getLsbD j) := by
  induction l generalizing r with
  | nil => exact ⟨fun _ _ => rfl, fun _ _ => rfl⟩
  | cons x l ih =>
    obtain ⟨hbits, hpsn⟩ := ih (r.setElt w x.1 x.2 false)
    rw [putElts_cons]
    constructor
    · intro j hj
      have hx := hj x List.mem_cons_self
      rw [hbits j fun y hy => hj y (List.mem_cons_of_mem _ hy), VReg.setElt_bits, getLsbD_setBits,
        if_neg fun c => by rw [Nat.add_mul] at hx; omega]
    · intro j hj
      have hx := hj x List.mem_cons_self
      rw [hpsn j fun y hy => hj y (List.mem_cons_of_mem _ hy)]
      show ((eltBytes w x.1).foldl _ r.psn).getLsbD j = _
      rw [getLsbD_setAll, if_neg]
      rintro ⟨-, hm⟩
      have := (mem_eltBytes hw x.1 j).1 hm
      omega

/-- The register after the writes holds exactly these elements. -/
theorem gotElts_putElts {g : Nat → Option (Nat × Bool)} {l : List (Nat × Nat)} (r : VReg) (hd : (l.map (·.1)).Nodup)
    (hb : ∀ x ∈ l, (x.1 + 1) * w ≤ 16384) (hg : ∀ e v p, g e = some (v, p) ↔ p = false ∧ (e, v) ∈ l) :
    GotElts w g r (putElts w l r) := by
  have hsome : ∀ x ∈ l, (g x.1).isSome := fun x hx => by rw [(hg x.1 x.2 false).2 ⟨rfl, hx⟩]; rfl
  obtain ⟨hbits, hpsn⟩ := putElts_outside hw l r
  refine ⟨fun e v p h => ?_, fun j hj => hbits j fun x hx => hj _ (hsome x hx), fun j hj => hpsn j fun x hx => hj _ (hsome x hx)⟩
  obtain ⟨rfl, hm⟩ := (hg e v p).1 h
  exact putElts_mem hw l r hd hb hm
end

/-! ## The register file -/

/-- The hart after writes of elements of vector register d (R117, R155). -/
def wrote (d : BitVec 5) (w : Nat) (l : List (Nat × Nat)) (h : Hart) : Hart :=
  if l.isEmpty then h else (h.setV d (putElts w l (h.getV d))).dirty (vBit d)

theorem wrote_cons (d : BitVec 5) (w : Nat) (x : Nat × Nat) (l : List (Nat × Nat)) (h : Hart) :
    wrote d w (x :: l) h = (h.setV d (putElts w (x :: l) (h.getV d))).dirty (vBit d) := rfl

theorem wrote_eq (d : BitVec 5) (w : Nat) (l : List (Nat × Nat)) (h : Hart) :
    wrote d w l h = { h with v := (wrote d w l h).v, vdirty := (wrote d w l h).vdirty, vlive := (wrote d w l h).vlive } := by
  cases l <;> rfl

theorem getV_wrote (d : BitVec 5) (w : Nat) (l : List (Nat × Nat)) (h : Hart) (r : BitVec 5) :
    (wrote d w l h).getV r = if r = d then putElts w l (h.getV d) else h.getV r := by
  cases l with
  | nil =>
    show h.getV r = if r = d then h.getV d else h.getV r
    split
    · next hr => rw [hr]
    · rfl
  | cons x l => rw [wrote_cons, Hart.getV_dirty, Hart.getV_setV]

theorem getLsbD_setBit_true {n : Nat} (b : BitVec n) {i j : Nat} (hj : j < n) :
    (setBit b i true).getLsbD j = true ↔ b.getLsbD j = true ∨ j = i := by
  rw [getLsbD_setBit]
  by_cases h : j = i
  · simp [h, h ▸ hj]
  · simp [h]

theorem dirtied_wrote {d : BitVec 5} {w : Nat} {l : List (Nat × Nat)} {any : Prop} {s t : State} (hany : any ↔ l ≠ [])
    (hd : t.h.vdirty = (wrote d w l s.h).vdirty) (hl : t.h.vlive = (wrote d w l s.h).vlive) : Dirtied (vBit d) any s t := by
  intro j hj
  rw [hd, hl]
  cases l with
  | nil => simp [wrote, hany]
  | cons x l =>
    have hany : any := hany.2 (List.cons_ne_nil _ _)
    simp only [hany, true_and, and_true]
    constructor
    · exact getLsbD_setBit_true _ hj
    · show (if s.h.status.prv = true then setBit s.h.vlive (vBit d) true else s.h.vlive).getLsbD j = true ↔ _
      split
      · next hp => rw [getLsbD_setBit_true _ hj]; simp [hp]
      · next hp => simp [hp]

/-! ## How a member begins and retires -/

/-- A state in which a member executes, and nothing has been done for it yet. -/
structure Begun (s u : State) : Prop where
  eq : u = { s with cv := u.cv, h0 := u.h0 }
  pend : u.cv.pend = false
  done : u.cv.done = 0
  popped : u.cv.popped = 0
  cut : u.cv.cut = none

theorem begun_of_fresh {i : Instr} {s : State} (h : fresh i s = true) : Begun s (s.begin i) := by
  unfold fresh at h
  cases hc : s.cv.active
  · rw [State.begin_of_idle hc]
    exact ⟨rfl, rfl, rfl, rfl, rfl⟩
  · simp only [hc, Bool.not_true, Bool.false_or, Bool.and_eq_true, Bool.not_eq_true', beq_iff_eq, Option.isNone_iff_eq_none] at h
    obtain ⟨⟨⟨⟨hp, hd⟩, hpop⟩, hcut⟩, -⟩ := h
    rw [State.begin_of_active hc]
    exact ⟨rfl, hp, hd, hpop, hcut⟩

theorem fresh_marks {i : Instr} {s : State} (h : fresh i s = true) (hk : isChained i = false) : (s.begin i).cv.marks = [] := by
  unfold fresh at h
  cases hc : s.cv.active
  · rw [State.begin_of_idle hc]
  · simp only [hc, hk, Bool.not_true, Bool.false_or, Bool.and_eq_true, Bool.or_false, List.isEmpty_iff] at h
    rw [State.begin_of_active hc]
    exact h.2

theorem begin_active (i : Instr) (s : State) : (s.begin i).cv.active = true ∧ (s.begin i).cv.resumed = resumedNow s := by
  unfold resumedNow
  cases hc : s.cv.active
  · rw [State.begin_of_idle hc]; exact ⟨rfl, rfl⟩
  · rw [State.begin_of_active hc]; exact ⟨hc, rfl⟩

theorem alone_of_fresh {i : Instr} {s : State} (h : fresh i s = true) (hk : isChained i = false) : alone s = true := by
  unfold fresh at h
  unfold alone
  cases hc : s.cv.active
  · rfl
  · simp only [hc, hk, Bool.not_true, Bool.false_or, Bool.and_eq_true, Bool.or_false] at h
    obtain ⟨⟨⟨⟨hp, -⟩, hpop⟩, -⟩, hm⟩ := h
    simp [hp, hpop, hm]

theorem Begun.h_eq {s u : State} (h : Begun s u) : u.h = s.h := by rw [h.eq]

theorem retireMember_chained_popless {i : Instr} {t : State} (hp : t.cv.pend = false) (hpop : t.cv.popped = 0)
    (hk : isChained i = true) : t.retireMember i = ((t.pass i).mapH fun h => { h with park := none }).nextMember := by
  rw [State.retireMember_chained hp hk, State.countPops_of_none (by rw [State.pass_cv]; exact hpop)]

/-- A member that changed nothing but its hart and the counters retires: as the last of its convoy, or before the next. -/
theorem run_member {i : Instr} {body : M Unit} {s : State} {h : Hart} {c : List PartCtr} (hf : fresh i s = true)
    (hb : body (s.begin i) = (.ok (), { s.begin i with h := h, ctrs := c })) :
    ∃ r, (r = true → resumedNow s = true) ∧ (run i body s).h = retiredAs i r h ∧ RestSameC s (run i body s) := by
  have hbeg := begun_of_fresh hf
  cases hk : isChained i
  · have hm := fresh_marks hf hk
    have hr := run_retires (ms := []) (alone_of_fresh hf hk) hk hb (by rw [← hm])
    refine ⟨resumedNow s, id, ?_⟩
    rw [hr, begin_eq]
    exact ⟨rfl, fun _ => rfl, rfl⟩
  · refine ⟨false, fun h => absurd h Bool.false_ne_true, ?_⟩
    rw [run_ok hb, retireMember_chained_popless (t := { s.begin i with h := h, ctrs := c }) hbeg.pend hbeg.popped hk, begin_eq]
    exact ⟨rfl, fun _ => rfl, rfl⟩

theorem vesKept_of {i : Instr} {s t : State} {h : Hart} {r : Bool} (hr : r = true → resumedNow s = true) (ht : t.h = retiredAs i r h)
    (hv : h.ves = s.h.ves) (hc : h.vcm = s.h.vcm) : VesKept s t := by
  unfold VesKept
  rw [ht]
  cases r
  · exact .inl ⟨hv, hc⟩
  · exact .inr ⟨hr rfl, rfl, rfl⟩

/-- A member that wrote elements and counted what it did. -/
theorem vDone_of {i : Instr} {body : M Unit} {s : State} {fm : Form} {d : BitVec 5} {w : Nat} {l : List (Nat × Nat)} {c : List PartCtr}
    {g : Nat → Option (Nat × Bool)} (hf : fresh i s = true) (hlen : instrLen i = fm.len) (hw : wholeBytes w)
    (hd : (l.map (·.1)).Nodup) (hbound : ∀ x ∈ l, (x.1 + 1) * w ≤ 16384) (hg : ∀ e v p, g e = some (v, p) ↔ p = false ∧ (e, v) ∈ l)
    (hb : body (s.begin i) = (.ok (), { s.begin i with h := wrote d w l s.h, ctrs := c })) :
    VDone fm d w g s (run i body s) := by
  obtain ⟨r, hr, hh, hrest⟩ := run_member hf hb
  have hv : ∀ k, (run i body s).h.getV k = (wrote d w l s.h).getV k := fun k => by rw [hh]; rfl
  have hany : (∃ e, (g e).isSome) ↔ l ≠ [] := by
    constructor
    · rintro ⟨e, he⟩ rfl
      obtain ⟨⟨v, p⟩, hgv⟩ := Option.isSome_iff_exists.1 he
      exact absurd ((hg e v p).1 hgv).2 (List.not_mem_nil)
    · intro hne
      obtain ⟨x, l', rfl⟩ := List.exists_cons_of_ne_nil hne
      exact ⟨x.1, by rw [(hg x.1 x.2 false).2 ⟨rfl, List.mem_cons_self⟩]; rfl⟩
  obtain ⟨v, vd, vl, hwr⟩ : ∃ v vd vl, wrote d w l s.h = { s.h with v := v, vdirty := vd, vlive := vl } := ⟨_, _, _, wrote_eq ..⟩
  refine ⟨?_, fun k hk => ?_, dirtied_wrote (w := w) hany ?_ ?_, ?_, vesKept_of hr hh ?_ ?_, hrest, ?_⟩
  · rw [hv, getV_wrote, if_pos rfl]
    exact gotElts_putElts hw _ hd hbound hg
  · rw [hv, getV_wrote, if_neg hk]
  · rw [hh]; rfl
  · rw [hh]; rfl
  · show (run i body s).h.pc = _
    rw [hh, hwr, ← hlen]; rfl
  · rw [hwr]
  · rw [hwr]
  · rw [hh, hwr]; rfl

/-! ## The checks at dispatch (R113) -/

section
variable {s u : State} (hu : Begun s u)
include hu

theorem checkNamed_named {i : Instr} (h : named i s = true) : checkNamed i [] u = (.ok (), u) := by
  unfold named at h
  simp only [Bool.and_eq_true, List.all_eq_true] at h
  obtain ⟨-, hall⟩ := h
  have hdead : (namedBits i).filter u.h.deadBit = [] := List.filter_eq_nil_iff.2 fun b hb => by
    have := (hall b hb).2
    rw [hu.h_eq]
    simpa using this
  have hlow : u.h.lowDead (namedBits i) = none := by unfold Hart.lowDead; rw [hdead]; rfl
  have hrange : ((namedBits i).any fun b => 56 ≤ b && u.h.streams ≤ b - 56) = false := List.any_eq_false.2 fun b hb => by
    have := (hall b hb).1
    rw [hu.h_eq]
    simp only [Bool.or_eq_true, decide_eq_true_eq] at this
    simp only [Bool.and_eq_true, decide_eq_true_eq, not_and, not_le]
    omega
  unfold checkNamed
  refine (bind_ok (show getH u = (.ok u.h, u) from rfl)).trans ?_
  rw [hrange, if_neg Bool.false_ne_true]
  refine (bind_ok (show noteNames [] u = (.ok (), u) from rfl)).trans ?_
  unfold checkLives
  refine (bind_ok (show (get : M State) u = (.ok u, u) from rfl)).trans ?_
  rw [hlow]
  rfl

theorem checkGrant_ok {w : Nat} (h : s.h.vl.toNat ≤ s.h.grant w) : checkGrant w u = (.ok (), u) := by
  unfold checkGrant
  refine (bind_ok (show getH u = (.ok u.h, u) from rfl)).trans ?_
  rw [hu.h_eq, if_neg (Nat.not_lt.2 h)]
  rfl

theorem noSlot_ok {r : BitVec 5} (h : (s.h.slotOf r).isNone = true) : noSlot r u = (.ok (), u) := by
  unfold noSlot
  refine (bind_ok (show getH u = (.ok u.h, u) from rfl)).trans ?_
  rw [hu.h_eq, if_neg (by rw [Option.isNone_iff_eq_none.1 h]; exact Bool.false_ne_true)]
  rfl

theorem atDispatch_ok : atDispatch u = (.ok (), u) := by
  unfold atDispatch
  refine (bind_ok (show (get : M State) u = (.ok u, u) from rfl)).trans ?_
  rw [hu.pend, if_neg Bool.false_ne_true]
  rfl

/-- Registers that are no slots give what they hold. -/
theorem readSources_ok (n : Nat) (l : List (BitVec 5 × Nat)) (seen : List (BitVec 5 × VReg))
    (hl : noSlots (l.map (·.1)) s.h = true) (hs : ∀ x ∈ seen, x.2 = s.h.getV x.1) :
    readSources n l seen u = (.ok (l.map fun x => s.h.getV x.1), u) := by
  induction l generalizing seen with
  | nil => rfl
  | cons x l ih =>
    obtain ⟨r, w⟩ := x
    unfold noSlots at hl
    rw [List.map_cons, List.all_cons, Bool.and_eq_true] at hl
    obtain ⟨hr, hl⟩ := hl
    have hslot : s.h.slotOf r = none := Option.isNone_iff_eq_none.1 hr
    unfold readSources
    cases hfind : seen.find? (·.1 == r) with
    | some x =>
      obtain ⟨r', v⟩ := x
      have hv : v = s.h.getV r := by
        have he : r' = r := by simpa using List.find?_some hfind
        exact (hs _ (List.mem_of_find?_eq_some hfind)).trans (by rw [he])
      refine (bind_ok (show getH u = (.ok u.h, u) from rfl)).trans ?_
      rw [hu.h_eq, hslot]
      refine (bind_ok (ih seen hl hs)).trans ?_
      rw [hv]
      rfl
    | none =>
      have hsrc : readSource r w n u = (.ok (s.h.getV r), u) := by
        unfold readSource
        refine (bind_ok (show getH u = (.ok u.h, u) from rfl)).trans ?_
        rw [hu.h_eq, hslot]
        rfl
      refine (bind_ok hsrc).trans ?_
      refine (bind_ok (ih _ hl fun x hx => ?_)).trans rfl
      rcases List.mem_cons.1 hx with rfl | hx
      · rfl
      · exact hs x hx

/-- The active elements of a member, lowest first. -/
theorem todo_ok (fm : Form) (n : Nat) : todo fm n u = (.ok ((List.range n).filter (activeAt fm s.h)), u) := by
  unfold todo
  refine (bind_ok (show (get : M State) u = (.ok u, u) from rfl)).trans ?_
  rw [hu.h_eq, hu.done]
  simp only [BitVec.ofNat_eq_ofNat, BitVec.getLsbD_zero, Bool.not_false, Bool.and_true]
  rfl
end

end Sys2Proof.Words
end

section
/-! # Floating members (R152 to R161) -/

namespace Sys2Proof.Words
open Sys2Proof Sys2Proof.Machine Sys2Proof.Claims Sys2Proof.Laws Sys2Proof.Together

/-! ## The elements of a member and their results -/

/-- The active elements, lowest first. -/
def eltsOf (fm : Form) (h : Hart) : List Nat := (List.range h.vl.toNat).filter (activeAt fm h)

theorem mem_eltsOf {fm : Form} {h : Hart} {e : Nat} : e ∈ eltsOf fm h ↔ act fm h e = true := by
  rw [eltsOf, List.mem_filter, List.mem_range, act, Bool.and_eq_true, decide_eq_true_eq]

/-- The elements that have a result, each with it. -/
def results (l : List Nat) (f : Nat → Option Nat) : List (Nat × Nat) := l.filterMap fun e => (f e).map (e, ·)

theorem mem_results {l : List Nat} {f : Nat → Option Nat} {e v : Nat} : (e, v) ∈ results l f ↔ e ∈ l ∧ f e = some v := by
  simp only [results, List.mem_filterMap, Option.map_eq_some_iff, Prod.mk.injEq]
  constructor
  · rintro ⟨x, hx, y, hy, rfl, rfl⟩
    exact ⟨hx, hy⟩
  · rintro ⟨he, hv⟩
    exact ⟨e, he, v, hv, rfl, rfl⟩

theorem fst_results (l : List Nat) (f : Nat → Option Nat) : (results l f).map (·.1) = l.filter fun e => (f e).isSome := by
  induction l with
  | nil => rfl
  | cons e l ih =>
    unfold results at ih ⊢
    rw [List.filterMap_cons, List.filter_cons]
    cases f e with
    | none => exact ih
    | some v => exact congrArg (e :: ·) ih

theorem nodup_results {l : List Nat} (h : l.Nodup) (f : Nat → Option Nat) : ((results l f).map (·.1)).Nodup := by
  rw [fst_results]; exact h.filter _

theorem nodup_eltsOf (fm : Form) (h : Hart) : (eltsOf fm h).Nodup := List.nodup_range.filter _

/-- Elements within the grant of a width lie in the register at every width below it (R98). -/
theorem elt_fits {h : Hart} {w W e : Nat} (hg : h.vl.toNat ≤ h.grant W) (hw : w ≤ W) (he : e < h.vl.toNat) : (e + 1) * w ≤ 16384 := by
  have hgr : h.grant W ≤ 16384 / W := by
    unfold Hart.grant Hart.vbits
    exact (Nat.div_le_self ..).trans (Nat.div_le_div_right (Nat.div_le_self ..))
  calc (e + 1) * w ≤ 16384 / W * W := Nat.mul_le_mul (by omega) hw
    _ ≤ 16384 := Nat.div_mul_le_self ..

/-! ## The frame of element-wise members -/

theorem checkFd_ok {u : State} {fd : DWord} {ok : Bool} (h : ok = true) : checkFd fd ok u = (.ok (), u) := by rw [h]; rfl

theorem checkUnused_ok {u : State} {i : Instr} {bad : Bool} (h : bad = false) : checkUnused i bad u = (.ok (), u) := by rw [h]; rfl

theorem cleanElts_ok {u : State} {os : List Opd} {es : List Nat} (h : ∀ e ∈ es, ∀ o ∈ os, o.psn e = false) : cleanElts os es u = (.ok (), u) := by
  have hany : (es.any fun e => os.any (·.psn e)) = false := List.any_eq_false.2 fun e he => by
    rw [Bool.not_eq_true]
    exact List.any_eq_false.2 fun o ho => by rw [h e he o ho]; exact Bool.false_ne_true
  unfold cleanElts
  rw [hany, if_neg Bool.false_ne_true]
  rfl

section
variable {s u : State} (hu : Begun s u)
include hu

theorem finishElts_all {d : BitVec 5} {w : Nat} {l : List Nat} {f : Nat → Option Nat} (h : ∀ e ∈ l, (f e).isSome = true) :
    finishElts d w (l.map fun e => (e, f e)) u = (.ok (), { u with h := wrote d w (results l f) s.h }) := by
  have hfind : (l.map fun e => (e, f e)).find? (·.2.isNone) = none := List.find?_eq_none.2 fun x hx => by
    obtain ⟨e, he, rfl⟩ := List.mem_map.1 hx
    have hs := h e he
    simp [Option.isSome_iff_ne_none.1 hs]
  unfold finishElts
  rw [hfind]
  show writeElts d w ((l.map fun e => (e, f e)).filterMap fun x => x.2.map (x.1, ·)) u = _
  rw [List.filterMap_map]
  show (Except.ok (), { u with h := wrote d w (results l f) u.h }) = _
  rw [hu.h_eq]

theorem elementwise_ok {fm : Form} {d : BitVec 5} {w : Nat} {os : List Opd} {f : Nat → Option Nat}
    (hc : ∀ e, act fm s.h e = true → ∀ o ∈ os, o.psn e = false) (hf : ∀ e, act fm s.h e = true → (f e).isSome = true) :
    elementwise fm d w os f u = (.ok (), { u with h := wrote d w (results (eltsOf fm s.h) f) s.h }) := by
  unfold elementwise
  refine (bind_ok (show getH u = (.ok u.h, u) from rfl)).trans ?_
  rw [hu.h_eq]
  refine (bind_ok (todo_ok hu fm _)).trans ?_
  refine (bind_ok (cleanElts_ok fun e he => hc e (mem_eltsOf.1 he))).trans ?_
  exact finishElts_all hu fun e he => hf e (mem_eltsOf.1 he)
end

theorem countGroups_eq (w : Nat) (u : State) : ∃ c, countGroups w u = (.ok (), { u with ctrs := c }) := by
  exact ⟨_, congrArg (fun t => (Except.ok (), t)) (State.count_eq u u.h.id.core u.h.id.part 3 ((u.h.vl.toNat * w + 2047) / 2048))⟩

/-- A member whose body, once its checks are over, computes its elements and counts them. -/
theorem elementwise_vDone {i : Instr} {body : M Unit} {s : State} {fm : Form} {d : BitVec 5} {w W : Nat} {os : List Opd}
    {f : Nat → Option Nat} (hready : ready i W s = true) (hlen : instrLen i = fm.len) (hw : wholeBytes w) (hW : w ≤ W)
    (hc : ∀ e, act fm s.h e = true → ∀ o ∈ os, o.psn e = false) (hf : ∀ e, act fm s.h e = true → (f e).isSome = true)
    (hb : body (s.begin i) = (do elementwise fm d w os f; countGroups W : M Unit) (s.begin i)) :
    VDone fm d w (fun e => if act fm s.h e then (f e).map (·, false) else none) s (run i body s) := by
  unfold ready named at hready
  simp only [Bool.and_eq_true, decide_eq_true_eq] at hready
  obtain ⟨⟨hfresh, -⟩, hgrant⟩ := hready
  obtain ⟨c, hcount⟩ := countGroups_eq W { s.begin i with h := wrote d w (results (eltsOf fm s.h) f) s.h }
  refine vDone_of (l := results (eltsOf fm s.h) f) hfresh hlen hw (nodup_results (nodup_eltsOf ..) f) (fun x hx => ?_) (fun e v p => ?_)
    (hb.trans ((bind_ok (elementwise_ok (begun_of_fresh hfresh) hc hf)).trans hcount))
  · have hact := mem_eltsOf.1 (mem_results.1 hx).1
    rw [act, Bool.and_eq_true, decide_eq_true_eq] at hact
    exact elt_fits hgrant hW hact.1
  · rw [mem_results, mem_eltsOf]
    by_cases ha : act fm s.h e = true
    · rw [if_pos ha, Option.map_eq_some_iff]
      constructor
      · rintro ⟨a, ha', hp⟩
        cases hp
        exact ⟨rfl, ha, ha'⟩
      · rintro ⟨rfl, -, hv⟩
        exact ⟨v, hv, rfl⟩
    · rw [if_neg ha]
      exact ⟨fun h => (nomatch h), fun h => absurd h.2.1 ha⟩

/-! ## Members with one and with two sources -/

/-- Source b of a member: a register, or the immediate that takes its place (R159). -/
def opB (fm : Form) (fd : DWord) (b : BitVec 5) (h : Hart) : Opd :=
  if immForm fm then .imm (immPat fm fd) else .reg (h.getV b) (fmtWidth (fdFB fd))

theorem opB_at (fm : Form) (fd : DWord) (b : BitVec 5) (h : Hart) (e : Nat) : (opB fm fd b h).at e = srcB fm fd b h e := by
  unfold opB srcB
  cases immForm fm <;> rfl

theorem oldOf_at (fused : Bool) (d : BitVec 5) (w : Nat) (h : Hart) (e : Nat) :
    (oldOf fused d w h).at e = if fused then (h.getV d).elt w e else 0 := by
  cases fused <;> rfl

theorem cleanAt_iff {fm : Form} {h : Hart} {rs : List (BitVec 5 × Nat)} (hc : cleanAt fm h rs = true) {e : Nat}
    (he : act fm h e = true) : ∀ r ∈ rs, (h.getV r.1).eltPsn r.2 e = false := by
  rw [act, Bool.and_eq_true, decide_eq_true_eq] at he
  have h1 := List.all_eq_true.1 hc e (List.mem_range.2 he.1)
  rw [he.2, Bool.not_true, Bool.false_or] at h1
  exact fun r hr => by simpa using List.all_eq_true.1 h1 r hr

/-- Sources without poison, as the member's operands. -/
theorem opds_clean {fm : Form} {fd : DWord} {d a b : BitVec 5} {fused : Bool} {wd wa : Nat} {h : Hart}
    (hc : cleanAt fm h ((if fused then [(d, wd)] else []) ++ (a, wa) :: if immForm fm then [] else [(b, fmtWidth (fdFB fd))]) = true)
    {e : Nat} (he : act fm h e = true) : ∀ o ∈ [Opd.reg (h.getV a) wa, opB fm fd b h, oldOf fused d wd h], o.psn e = false := by
  have hall := cleanAt_iff hc he
  intro o ho
  simp only [List.mem_cons, List.not_mem_nil, or_false] at ho
  rcases ho with rfl | rfl | rfl
  · exact hall (a, wa) (by simp)
  · unfold opB
    cases hi : immForm fm
    · exact hall (b, fmtWidth (fdFB fd)) (by simp [hi])
    · rfl
  · cases fused
    · rfl
    · exact hall (d, wd) (by simp)

section
variable {s u : State} (hu : Begun s u)
include hu

theorem readAB_ok {fm : Form} {fd : DWord} {a b : BitVec 5} (h : noSlots (abOf fm a b) s.h = true) :
    readAB fm fd a b u = (.ok (.reg (s.h.getV a) (fmtWidth (fdFA fd)), opB fm fd b s.h), u) := by
  unfold readAB opB
  unfold abOf at h
  refine (bind_ok (show getH u = (.ok u.h, u) from rfl)).trans ?_
  cases hi : immForm fm
  · rw [hi] at h
    exact bind_ok (readSources_ok hu _ [(a, fmtWidth (fdFA fd)), (b, fmtWidth (fdFB fd))] [] h fun x hx => absurd hx List.not_mem_nil)
  · rw [hi] at h
    exact bind_ok (readSources_ok hu _ [(a, fmtWidth (fdFA fd))] [] h fun x hx => absurd hx List.not_mem_nil)

end

theorem noSlots_cons {r : BitVec 5} {l : List (BitVec 5)} {h : Hart} (hs : noSlots (r :: l) h = true) :
    (h.slotOf r).isNone = true ∧ noSlots l h = true := by
  unfold noSlots at hs ⊢
  rwa [List.all_cons, Bool.and_eq_true] at hs

section
variable {s : State} {i : Instr} {fm : Form} {d a b : BitVec 5} {f : BitVec 3}

/-- A floating member with two sources, once its checks are over. -/
theorem floatBody_begun {fused : Bool} {op : FOp}
    (hr : ready i (max (max (fmtWidth (fdFA (fdValue fm f s.h))) (fmtWidth (fdFB (fdValue fm f s.h)))) (fmtWidth (fdDst (fdValue fm f s.h)))) s = true)
    (hs : noSlots (d :: abOf fm a b) s.h = true)
    (hfd : fdOk { fa := some isFloating, fb := some isFloating, dst := some isFloating, rounds := true } (fdValue fm f s.h) = true)
    (himm : immReserved fm (fdValue fm f s.h) = false) :
    floatBody i fm d a b f fused op (s.begin i) = (do
      let fd := fdValue fm f s.h
      let oa : Opd := .reg (s.h.getV a) (fmtWidth (fdFA fd))
      let ob := opB fm fd b s.h
      let od := oldOf fused d (fmtWidth (fdDst fd)) s.h
      elementwise fm d (fmtWidth (fdDst fd)) [oa, ob, od] fun e =>
        floatElt ⟨fd, s.h.sseed, s.h.sbase⟩ op e (oa.at e) (ob.at e) (od.at e)
      countGroups (max (max (fmtWidth (fdFA fd)) (fmtWidth (fdFB fd))) (fmtWidth (fdDst fd))) : M Unit) (s.begin i) := by
  unfold ready at hr
  rw [Bool.and_eq_true, decide_eq_true_eq] at hr
  obtain ⟨hn, hgrant⟩ := hr
  have hu := begun_of_fresh (i := i) (s := s) (by unfold named at hn; exact (Bool.and_eq_true _ _ ▸ hn).1)
  obtain ⟨hd, hab⟩ := noSlots_cons hs
  unfold floatBody
  refine (bind_ok (checkNamed_named hu hn)).trans ?_
  refine (bind_ok (show getH (s.begin i) = (.ok s.h, s.begin i) from congrArg (fun h => (Except.ok h, s.begin i)) hu.h_eq)).trans ?_
  refine (bind_ok (checkFd_ok hfd)).trans ?_
  refine (bind_ok (checkUnused_ok himm)).trans ?_
  refine (bind_ok (checkGrant_ok hu hgrant)).trans ?_
  refine (bind_ok (noSlot_ok hu hd)).trans ?_
  refine (bind_ok (readAB_ok hu hab)).trans ?_
  refine (bind_ok (atDispatch_ok hu)).trans ?_
  refine (bind_ok (show getH (s.begin i) = (.ok s.h, s.begin i) from congrArg (fun h => (Except.ok h, s.begin i)) hu.h_eq)).trans ?_
  have hctx : rctx (fdValue fm f s.h) (s.begin i) = (.ok ⟨fdValue fm f s.h, s.h.sseed, s.h.sbase⟩, s.begin i) :=
    congrArg (fun h : Hart => (Except.ok (RCtx.mk (fdValue fm f s.h) h.sseed h.sbase), s.begin i)) hu.h_eq
  exact bind_ok hctx
end

/-! ## Floating members -/

theorem wholeBytes_float {c : Nat} (h : isFloating c = true) : wholeBytes (fmtWidth c) := by
  unfold isFloating isIeee isTap at h
  simp only [Bool.or_eq_true, Bool.and_eq_true, decide_eq_true_eq] at h
  obtain rfl | rfl | rfl | rfl | rfl | rfl : c = 0 ∨ c = 1 ∨ c = 2 ∨ c = 8 ∨ c = 9 ∨ c = 10 := by omega
  exacts [⟨3, rfl⟩, ⟨1, rfl⟩, ⟨7, rfl⟩, ⟨0, rfl⟩, ⟨1, rfl⟩, ⟨3, rfl⟩]

theorem fdOk_dst {u : FdUse} {p : Nat → Bool} {d : DWord} (hu : u.dst = some p) (h : fdOk u d = true) : p (fdDst d) = true := by
  unfold fdOk at h
  rw [hu] at h
  simp only [Bool.and_eq_true] at h
  obtain ⟨⟨⟨⟨-, -, hp⟩, -⟩, -⟩, -⟩ := h
  exact hp

/-- What an element of a floating member with two sources comes to, or none where it needs the assist. -/
def floatRes (fm : Form) (fd : DWord) (d a b : BitVec 5) (fused : Bool) (op : Val → Val → Val → Val) (h : Hart) (e : Nat) : Option Nat :=
  match sourceVal fd (fdDst fd) (fdFA fd) ((h.getV a).elt (fmtWidth (fdFA fd)) e), sourceVal fd (fdDst fd) (fdFB fd) (srcB fm fd b h e),
    sourceVal fd (fdDst fd) (fdDst fd) (if fused then (h.getV d).elt (fmtWidth (fdDst fd)) e else 0) with
  | some x, some y, some z => (RCtx.mk fd h.sseed h.sbase).round (fdDst fd) e (op x y z)
  | _, _, _ => none

theorem floatElt_eq (r : RCtx) (op : FOp) (e pa pb pd : Nat) : floatElt r op e pa pb pd =
    match sourceVal r.d (fdDst r.d) (fdFA r.d) pa, sourceVal r.d (fdDst r.d) (fdFB r.d) pb, sourceVal r.d (fdDst r.d) (fdDst r.d) pd with
    | some x, some y, some z => r.round (fdDst r.d) e (op (isIeee (fdFA r.d)) (fdRM r.d == 3) x y z)
    | _, _, _ => none := by
  unfold floatElt
  dsimp only
  generalize sourceVal r.d (fdDst r.d) (fdFA r.d) pa = x
  generalize sourceVal r.d (fdDst r.d) (fdFB r.d) pb = y
  generalize sourceVal r.d (fdDst r.d) (fdDst r.d) pd = z
  cases x <;> cases y <;> cases z <;> rfl

section
variable {s : State} {i : Instr} {fm : Form} {d a b : BitVec 5} {f : BitVec 3}

theorem floatMember_vDone {fused : Bool} {fop : FOp} {op : Val → Val → Val → Val}
    (hfd : fdOk { fa := some isFloating, fb := some isFloating, dst := some isFloating, rounds := true } (fdValue fm f s.h) = true)
    (himm : immReserved fm (fdValue fm f s.h) = false)
    (hop : fop (isIeee (fdFA (fdValue fm f s.h))) (fdRM (fdValue fm f s.h) == 3) = op) (hlen : instrLen i = fm.len)
    (hr : ready i (max (max (fmtWidth (fdFA (fdValue fm f s.h))) (fmtWidth (fdFB (fdValue fm f s.h)))) (fmtWidth (fdDst (fdValue fm f s.h)))) s = true)
    (hs : noSlots (d :: abOf fm a b) s.h = true)
    (hclean : cleanAt fm s.h ((if fused then [(d, fmtWidth (fdDst (fdValue fm f s.h)))] else []) ++
      (a, fmtWidth (fdFA (fdValue fm f s.h))) :: if immForm fm then [] else [(b, fmtWidth (fdFB (fdValue fm f s.h)))]) = true)
    (hres : ∀ e, act fm s.h e = true → (floatRes fm (fdValue fm f s.h) d a b fused op s.h e).isSome = true) :
    VDone fm d (fmtWidth (fdDst (fdValue fm f s.h)))
      (fun e => if act fm s.h e then (floatRes fm (fdValue fm f s.h) d a b fused op s.h e).map (·, false) else none)
      s (run i (floatBody i fm d a b f fused fop) s) := by
  have hb := floatBody_begun (fused := fused) (op := fop) hr hs hfd himm
  dsimp only at hb
  generalize fdValue fm f s.h = fd at *
  have helt : (fun e => floatElt ⟨fd, s.h.sseed, s.h.sbase⟩ fop e ((Opd.reg (s.h.getV a) (fmtWidth (fdFA fd))).at e)
      ((opB fm fd b s.h).at e) ((oldOf fused d (fmtWidth (fdDst fd)) s.h).at e)) = floatRes fm fd d a b fused op s.h := by
    funext e
    rw [floatElt_eq, opB_at, oldOf_at, hop]
    rfl
  rw [helt] at hb
  exact elementwise_vDone hr hlen (wholeBytes_float (fdOk_dst rfl hfd)) (le_max_right _ _) (fun e he => opds_clean hclean he) hres hb

/-- What an element of a floating member with one source comes to. -/
def unaryRes (fd : DWord) (a : BitVec 5) (op : Val → Val) (h : Hart) (e : Nat) : Option Nat :=
  match sourceVal fd (fdDst fd) (fdFA fd) ((h.getV a).elt (fmtWidth (fdFA fd)) e) with
  | some x => (RCtx.mk fd h.sseed h.sbase).round (fdDst fd) e (op x)
  | none => none

/-- A floating member with one source, once its checks are over. -/
theorem unaryBody_begun {op : Val → Val}
    (hr : ready i (max (fmtWidth (fdFA (fdValue fm f s.h))) (fmtWidth (fdDst (fdValue fm f s.h)))) s = true)
    (hs : noSlots [d, a] s.h = true)
    (hfd : fdOk { fa := some isFloating, dst := some isFloating, rounds := true } (fdValue fm f s.h) = true) :
    unaryBody i fm d a f op (s.begin i) = (do
      let fd := fdValue fm f s.h
      elementwise fm d (fmtWidth (fdDst fd)) [.reg (s.h.getV a) (fmtWidth (fdFA fd))] (unaryRes fd a op s.h)
      countGroups (max (fmtWidth (fdFA fd)) (fmtWidth (fdDst fd))) : M Unit) (s.begin i) := by
  unfold ready at hr
  rw [Bool.and_eq_true, decide_eq_true_eq] at hr
  obtain ⟨hn, hgrant⟩ := hr
  have hu := begun_of_fresh (i := i) (s := s) (by unfold named at hn; exact (Bool.and_eq_true _ _ ▸ hn).1)
  have hget : getH (s.begin i) = (.ok s.h, s.begin i) := congrArg (fun h => (Except.ok h, s.begin i)) hu.h_eq
  obtain ⟨hd, ha⟩ := noSlots_cons hs
  unfold unaryBody
  refine (bind_ok (checkNamed_named hu hn)).trans ?_
  refine (bind_ok hget).trans ?_
  refine (bind_ok (checkFd_ok hfd)).trans ?_
  refine (bind_ok (checkGrant_ok hu hgrant)).trans ?_
  refine (bind_ok (noSlot_ok hu hd)).trans ?_
  refine (bind_ok hget).trans ?_
  refine (bind_ok (readSources_ok hu _ [(a, _)] [] ha fun x hx => absurd hx List.not_mem_nil)).trans ?_
  refine (bind_ok (atDispatch_ok hu)).trans ?_
  have hctx : rctx (fdValue fm f s.h) (s.begin i) = (.ok ⟨fdValue fm f s.h, s.h.sseed, s.h.sbase⟩, s.begin i) :=
    congrArg (fun h : Hart => (Except.ok (RCtx.mk (fdValue fm f s.h) h.sseed h.sbase), s.begin i)) hu.h_eq
  refine (bind_ok hctx).trans ?_
  generalize fdValue fm f s.h = fd
  have helt : (fun e => (sourceVal fd (fdDst fd) (fdFA fd) ((s.h.getV a).elt (fmtWidth (fdFA fd)) e)).bind fun v =>
      (RCtx.mk fd s.h.sseed s.h.sbase).round (fdDst fd) e (op v)) = unaryRes fd a op s.h := by
    funext e
    unfold unaryRes
    cases sourceVal fd (fdDst fd) (fdFA fd) ((s.h.getV a).elt (fmtWidth (fdFA fd)) e) <;> rfl
  exact congrArg (fun g => (do
    elementwise fm d (fmtWidth (fdDst fd)) [.reg (s.h.getV a) (fmtWidth (fdFA fd))] g
    countGroups (max (fmtWidth (fdFA fd)) (fmtWidth (fdDst fd))) : M Unit) (s.begin i)) helt

theorem unaryMember_vDone {op : Val → Val}
    (hfd : fdOk { fa := some isFloating, dst := some isFloating, rounds := true } (fdValue fm f s.h) = true) (hlen : instrLen i = fm.len)
    (hr : ready i (max (fmtWidth (fdFA (fdValue fm f s.h))) (fmtWidth (fdDst (fdValue fm f s.h)))) s = true)
    (hs : noSlots [d, a] s.h = true) (hclean : cleanAt fm s.h [(a, fmtWidth (fdFA (fdValue fm f s.h)))] = true)
    (hres : ∀ e, act fm s.h e = true → (unaryRes (fdValue fm f s.h) a op s.h e).isSome = true) :
    VDone fm d (fmtWidth (fdDst (fdValue fm f s.h)))
      (fun e => if act fm s.h e then (unaryRes (fdValue fm f s.h) a op s.h e).map (·, false) else none)
      s (run i (unaryBody i fm d a f op) s) := by
  refine elementwise_vDone hr hlen (wholeBytes_float (fdOk_dst rfl hfd)) (le_max_right _ _) (fun e he o ho => ?_) hres
    (unaryBody_begun (op := op) hr hs hfd)
  rw [List.mem_singleton.1 ho]
  exact cleanAt_iff hclean he _ List.mem_cons_self
end

end Sys2Proof.Words
end

section
/-! # The exact operations (R73) -/

namespace Sys2Proof.Words
open Sys2Proof Sys2Proof.Machine Sys2Proof.Claims

/-! ## Reals -/

/-- The sign of a value as a factor. -/
def signOf (n : Bool) : ℚ := if n then -1 else 1

theorem signOf_true : signOf true = -1 := rfl
theorem signOf_false : signOf false = 1 := rfl

theorem signOf_not (n : Bool) : signOf (!n) = -signOf n := by cases n <;> simp [signOf]

theorem signOf_xor (n n' : Bool) : signOf (n != n') = signOf n * signOf n' := by cases n <;> cases n' <;> simp [signOf]

theorem abs_signOf (n : Bool) : |signOf n| = 1 := by cases n <;> simp [signOf]

theorem ratOf_num (n : Bool) (m : Nat) (e : Int) : ratOf (.num n m e) = some (signOf n * m * 2 ^ e) := rfl

/-- A real value is a zero or a number. -/
theorem ratOf_cases {x : Val} {a : ℚ} (h : ratOf x = some a) :
    (∃ n, x = .zero n ∧ a = 0) ∨ ∃ n m e, x = .num n m e ∧ a = signOf n * m * 2 ^ e := by
  cases x with
  | zero n => exact .inl ⟨n, rfl, (Option.some.inj h).symm⟩
  | num n m e => exact .inr ⟨n, m, e, rfl, (Option.some.inj h).symm⟩
  | nar => cases h
  | inf n => cases h
  | divz n => cases h

/-- One that is not zero is a number with a digit. -/
theorem ratOf_ne_zero {x : Val} {a : ℚ} (h : ratOf x = some a) (ha : a ≠ 0) :
    ∃ n m e, x = .num n m e ∧ a = signOf n * m * 2 ^ e ∧ 0 < m := by
  obtain ⟨n, -, h0⟩ | ⟨n, m, e, hx, h0⟩ := ratOf_cases h
  · exact absurd h0 ha
  · refine ⟨n, m, e, hx, h0, Nat.pos_of_ne_zero ?_⟩
    rintro rfl
    exact ha (by simp [h0])

theorem abs_num (n : Bool) (m : Nat) (e : Int) : |signOf n * m * 2 ^ e| = m * (2 : ℚ) ^ e := by
  rw [abs_mul, abs_mul, abs_signOf, one_mul, abs_of_nonneg (by positivity), abs_of_nonneg (by positivity)]

theorem num_neg_iff {n : Bool} {m : Nat} {e : Int} (hm : 0 < m) : signOf n * m * 2 ^ e < 0 ↔ n = true := by
  have hp : (0 : ℚ) < m * 2 ^ e := by positivity
  cases n
  · simp only [signOf, mul_assoc]; simpa using hp.le
  · simp only [signOf, mul_assoc]; simpa using hp

/-! ## Sums and products -/

theorem scaled_eq {n : Bool} {m : Nat} {e k : Int} (h : k ≤ e) : (scaled n m e k : ℚ) * 2 ^ k = signOf n * m * 2 ^ e := by
  have hp : (2 : ℚ) ^ e = 2 ^ (e - k).toNat * 2 ^ k := by
    rw [← zpow_natCast, ← zpow_add₀ (by norm_num), Int.toNat_of_nonneg (by omega), Int.sub_add_cancel]
  unfold scaled signOf
  rw [hp]
  cases n <;> push_cast <;> simp <;> ring

theorem ratOf_sum (down : Bool) (n n' : Bool) (m m' : Nat) (e e' : Int) :
    ratOf ((Val.num n m e).add down (.num n' m' e')) = some (signOf n * m * 2 ^ e + signOf n' * m' * 2 ^ e') := by
  rw [← scaled_eq (min_le_left e e'), ← scaled_eq (min_le_right e e'), ← add_mul, ← Int.cast_add]
  unfold Val.add
  dsimp only
  generalize scaled n m e (min e e') + scaled n' m' e' (min e e') = z
  split
  · next h => rw [h]; simp [ratOf]
  · rw [ratOf_num, signOf, Nat.cast_natAbs]
    rcases lt_or_ge z 0 with h | h
    · simp [h, abs_of_neg h]
    · simp [not_lt.2 h, abs_of_nonneg h]

theorem ratOf_add {x y : Val} {a b : ℚ} (hx : ratOf x = some a) (hy : ratOf y = some b) (down : Bool) :
    ratOf (x.add down y) = some (a + b) := by
  obtain ⟨n, rfl, rfl⟩ | ⟨n, m, e, rfl, rfl⟩ := ratOf_cases hx <;> obtain ⟨n', rfl, rfl⟩ | ⟨n', m', e', rfl, rfl⟩ := ratOf_cases hy
  · rw [add_zero]; rfl
  · rw [zero_add]; rfl
  · rw [add_zero]; rfl
  · exact ratOf_sum ..

theorem ratOf_mul {x y : Val} {a b : ℚ} (hx : ratOf x = some a) (hy : ratOf y = some b) : ratOf (x.mul y) = some (a * b) := by
  obtain ⟨n, rfl, rfl⟩ | ⟨n, m, e, rfl, rfl⟩ := ratOf_cases hx <;> obtain ⟨n', rfl, rfl⟩ | ⟨n', m', e', rfl, rfl⟩ := ratOf_cases hy
  · rw [mul_zero]; rfl
  · rw [zero_mul]; rfl
  · rw [mul_zero]; rfl
  · show ratOf (.num (n != n') (m * m') (e + e')) = _
    rw [ratOf_num, signOf_xor, zpow_add₀ (by norm_num)]
    push_cast
    congr 1
    ring

theorem ratOf_neg {x : Val} {a : ℚ} (hx : ratOf x = some a) : ratOf x.neg = some (-a) := by
  obtain ⟨n, rfl, rfl⟩ | ⟨n, m, e, rfl, rfl⟩ := ratOf_cases hx
  · rw [neg_zero]; rfl
  · show ratOf (.num (!n) m e) = _
    rw [ratOf_num, signOf_not, neg_mul, neg_mul]

theorem ratOf_abs {x : Val} {a : ℚ} (hx : ratOf x = some a) : ratOf x.abs = some |a| := by
  obtain ⟨n, rfl, rfl⟩ | ⟨n, m, e, rfl, rfl⟩ := ratOf_cases hx
  · rw [abs_zero]; rfl
  · show ratOf (.num false m e) = _
    rw [ratOf_num, abs_num, signOf_false, one_mul]

/-- A sum that is zero where its terms are not is the zero of the direction. -/
theorem add_cancels {x y : Val} {a b : ℚ} (hx : ratOf x = some a) (hy : ratOf y = some b) (down : Bool) (h : a + b = 0) (ha : a ≠ 0) :
    x.add down y = .zero down := by
  obtain ⟨n, m, e, rfl, rfl, -⟩ := ratOf_ne_zero hx ha
  obtain ⟨n', m', e', rfl, rfl, -⟩ := ratOf_ne_zero hy (by rintro rfl; exact ha (by simpa using h))
  rw [← scaled_eq (min_le_left e e'), ← scaled_eq (min_le_right e e'), ← add_mul, ← Int.cast_add] at h
  have hz : scaled n m e (min e e') + scaled n' m' e' (min e e') = 0 := by
    have h2 : (2 : ℚ) ^ min e e' ≠ 0 := by positivity
    exact_mod_cast (mul_eq_zero.1 h).resolve_right h2
  unfold Val.add
  dsimp only
  rw [if_pos hz]

/-! ## Quotients and roots -/

/-- Digits with a last one that tells whether they are all stand for the power they were taken of. -/
theorem standsFor_sticky {r n : Nat} {k : Int} {a : ℚ} {exact : Prop} [Decidable exact] (hr : 2 ^ 255 ≤ r)
    (hex : exact → ((r : ℚ) * 2 ^ k) ^ n = a) (hin : ¬ exact → ((r : ℚ) * 2 ^ k) ^ n < a ∧ a < ((r + 1 : ℚ) * 2 ^ k) ^ n) :
    standsFor (if exact then 2 * r else 2 * r + 1) (k - 1) n a := by
  have hk : ∀ x : ℚ, 2 * x * 2 ^ (k - 1) = x * 2 ^ k := fun x => by
    rw [zpow_sub_one₀ (by norm_num)]; ring
  unfold standsFor
  split
  · next h =>
    refine ⟨by omega, ?_⟩
    rw [if_pos (by omega)]
    push_cast
    rw [hk]
    exact hex h
  · next h =>
    refine ⟨by omega, ?_⟩
    rw [if_neg (by omega)]
    push_cast
    rw [show (2 * r + 1 - 1 : ℚ) = 2 * r by ring, show (2 * r + 1 + 1 : ℚ) = 2 * (r + 1) by ring, hk, hk]
    exact hin h

theorem stickyDiv_eq (a b : Nat) : stickyDiv a b = if a % b = 0 then 2 * (a / b) else 2 * (a / b) + 1 := rfl

/-- The digits taken of a quotient, and what is left between two of them. -/
theorem standsFor_div {m m' : Nat} (hm : 0 < m) (hm' : 0 < m') (e e' : Int) :
    standsFor (stickyDiv (m * 2 ^ (256 + Nat.log2 m')) m') (e - e' - (256 + Nat.log2 m' : Nat) - 1) 1
      (m * 2 ^ e / (m' * 2 ^ e')) := by
  generalize hs : 256 + Nat.log2 m' = s
  have hlog : m' < 2 ^ (Nat.log2 m' + 1) := Nat.lt_log2_self
  have hp : (0 : ℚ) < 2 ^ (e - e' - s) := by positivity
  have ha : (m * 2 ^ e / (m' * 2 ^ e') : ℚ) = (m * 2 ^ s : Nat) / m' * 2 ^ (e - e' - s) := by
    push_cast
    rw [zpow_sub₀ (by norm_num), zpow_sub₀ (by norm_num), zpow_natCast]
    field_simp
  have hm0 : (0 : ℚ) < m' := by exact_mod_cast hm'
  rw [stickyDiv_eq, ha]
  generalize hN : m * 2 ^ s = N
  have hdiv := Nat.div_add_mod N m'
  have hlt := Nat.mod_lt N hm'
  refine standsFor_sticky ?_ (fun h => ?_) fun h => ?_
  · rw [Nat.le_div_iff_mul_le hm']
    calc 2 ^ 255 * m' ≤ 2 ^ 255 * 2 ^ (Nat.log2 m' + 1) := Nat.mul_le_mul_left _ hlog.le
      _ = 1 * 2 ^ s := by rw [← Nat.pow_add, one_mul, ← hs]; congr 1; omega
      _ ≤ N := by rw [← hN]; exact Nat.mul_le_mul_right _ hm
  · rw [pow_one, Nat.cast_div (Nat.dvd_of_mod_eq_zero h) hm0.ne']
  · rw [pow_one, pow_one, mul_lt_mul_iff_left₀ hp, mul_lt_mul_iff_left₀ hp, lt_div_iff₀ hm0, div_lt_iff₀ hm0]
    generalize N / m' = q at hdiv
    generalize N % m' = t at h hdiv hlt
    constructor
    · norm_cast
      calc q * m' < q * m' + t := by omega
        _ = N := by rw [Nat.mul_comm]; exact hdiv
    · norm_cast
      calc N = m' * q + t := hdiv.symm
        _ < m' * q + m' := by omega
        _ = (q + 1) * m' := by ring

theorem isqrtFrom_spec (n k r : Nat) (hlo : r ^ 2 ≤ n) (hhi : n < (r + 2 ^ k) ^ 2) :
    isqrtFrom n k r ^ 2 ≤ n ∧ n < (isqrtFrom n k r + 1) ^ 2 := by
  induction k generalizing r with
  | zero => exact ⟨hlo, hhi⟩
  | succ k ih =>
    unfold isqrtFrom
    split
    · next h => exact ih _ h (by rw [show r + 2 ^ k + 2 ^ k = r + 2 ^ (k + 1) by ring]; exact hhi)
    · next h => exact ih _ hlo (Nat.lt_of_not_le h)

/-- The integer square root is the greatest number whose square is no greater. -/
theorem isqrt_spec (n : Nat) : isqrt n ^ 2 ≤ n ∧ n < (isqrt n + 1) ^ 2 := by
  refine isqrtFrom_spec _ _ _ (Nat.zero_le _) ?_
  rw [Nat.zero_add, ← Nat.pow_mul]
  exact Nat.lt_log2_self.trans_le (Nat.pow_le_pow_right (by decide) (by omega))

theorem isqrt_large {n k : Nat} (h : 2 ^ (2 * k) ≤ n) : 2 ^ k ≤ isqrt n := by
  have hlt := (isqrt_spec n).2
  rw [Nat.mul_comm, Nat.pow_mul] at h
  exact Nat.lt_succ_iff.1 (lt_of_pow_lt_pow_left₀ 2 (Nat.zero_le _) (h.trans_lt hlt))

theorem sq_zpow_half {k : Int} (h : k % 2 = 0) : ((2 : ℚ) ^ (k / 2)) ^ 2 = 2 ^ k := by
  rw [← zpow_natCast, ← zpow_mul]
  congr 1
  push_cast
  omega

/-- Digits of a square root: `N` is the argument scaled by an even power of two, cut to an integer. -/
theorem standsFor_root {N : Nat} {k : Int} {a : ℚ} {exact : Prop} [Decidable exact] {t : Nat} (hk : k % 2 = 0) (ht : 255 ≤ t)
    (hN : 2 ^ (2 * t) ≤ N)
    (hex : exact → ((isqrt N ^ 2 : Nat) : ℚ) * 2 ^ k = a) (hne : ¬ exact → ((isqrt N ^ 2 : Nat) : ℚ) * 2 ^ k < a)
    (hlt : a < ((N + 1 : Nat) : ℚ) * 2 ^ k) :
    standsFor (if exact then 2 * isqrt N else 2 * isqrt N + 1) (k / 2 - 1) 2 a := by
  have hsq : ∀ x : ℚ, (x * 2 ^ (k / 2)) ^ 2 = x ^ 2 * 2 ^ k := fun x => by rw [mul_pow, sq_zpow_half hk]
  refine standsFor_sticky ((Nat.pow_le_pow_right (by decide) ht).trans (isqrt_large hN)) (fun h => ?_) fun h => ⟨?_, ?_⟩
  · rw [hsq]; exact_mod_cast hex h
  · rw [hsq]; exact_mod_cast hne h
  · rw [hsq]
    refine hlt.trans_le (mul_le_mul_of_nonneg_right ?_ (by positivity))
    exact_mod_cast (isqrt_spec N).2

theorem standsFor_rootNum {m : Nat} (hm : 0 < m) (e : Int) : ∃ q k, rootNum m e = .num false q k ∧ standsFor q k 2 (m * 2 ^ e) := by
  unfold rootNum
  generalize hs : (if e % 2 = 0 then 512 else 513 : Nat) = s
  have hs2 : 512 ≤ s ∧ (e - s) % 2 = 0 := by split at hs <;> omega
  have ha : (m * 2 ^ e : ℚ) = ((m * 2 ^ s : Nat) : ℚ) * 2 ^ (e - s) := by
    push_cast
    rw [zpow_sub₀ (by norm_num), zpow_natCast]
    field_simp
  have hp : (0 : ℚ) < 2 ^ (e - s) := by positivity
  refine ⟨_, _, rfl, ?_⟩
  rw [ha]
  refine standsFor_root (t := s / 2) hs2.2 (by omega) ?_ (fun h => ?_) (fun h => ?_) ?_
  · exact (Nat.pow_le_pow_right (by decide) (by omega)).trans (Nat.le_mul_of_pos_left _ hm)
  · rw [sq, h]
  · rw [mul_lt_mul_iff_left₀ hp, sq]
    exact_mod_cast lt_of_le_of_ne (by rw [← sq]; exact (isqrt_spec _).1) h
  · rw [mul_lt_mul_iff_left₀ hp]
    exact_mod_cast Nat.lt_succ_self _

theorem standsFor_rsqrt {m : Nat} (hm : 0 < m) (e : Int) :
    ∃ q k, (Val.num false m e).rsqrt = .num false q k ∧ standsFor q k 2 (m * 2 ^ e : ℚ)⁻¹ := by
  unfold Val.rsqrt
  dsimp only
  generalize hs : 1024 + 2 * Nat.log2 m + (if e % 2 = 0 then 0 else 1) = s
  have hs2 : 1024 + 2 * Nat.log2 m ≤ s ∧ (-e - s) % 2 = 0 := by split at hs <;> omega
  have hm0 : (0 : ℚ) < m := by exact_mod_cast hm
  have hlog : m < 2 ^ (Nat.log2 m + 1) := Nat.lt_log2_self
  have hp : (0 : ℚ) < 2 ^ (-e - s) := by positivity
  have ha : (m * 2 ^ e : ℚ)⁻¹ = ((2 ^ s : Nat) : ℚ) / m * 2 ^ (-e - s) := by
    push_cast
    rw [zpow_sub₀ (by norm_num), zpow_neg, zpow_natCast]
    field_simp
  refine ⟨_, _, rfl, ?_⟩
  rw [ha]
  have hle : isqrt (2 ^ s / m) * isqrt (2 ^ s / m) * m ≤ 2 ^ s := by
    rw [← sq]
    exact (Nat.mul_le_mul_right _ (isqrt_spec _).1).trans (Nat.div_mul_le_self _ _)
  refine standsFor_root (t := 255) hs2.2 le_rfl ?_ (fun h => ?_) (fun h => ?_) ?_
  · rw [Nat.le_div_iff_mul_le hm]
    calc 2 ^ (2 * 255) * m ≤ 2 ^ (2 * 255) * 2 ^ (Nat.log2 m + 1) := Nat.mul_le_mul_left _ hlog.le
      _ ≤ 2 ^ s := by rw [← Nat.pow_add]; exact Nat.pow_le_pow_right (by decide) (by omega)
  · rw [sq]
    congr 1
    rw [eq_div_iff hm0.ne']
    exact_mod_cast h
  · rw [mul_lt_mul_iff_left₀ hp, lt_div_iff₀ hm0, sq]
    exact_mod_cast lt_of_le_of_ne hle h
  · rw [mul_lt_mul_iff_left₀ hp, div_lt_iff₀ hm0]
    have := Nat.lt_div_mul_add (a := 2 ^ s) hm
    norm_cast
    rw [Nat.add_mul, one_mul]
    exact this

theorem div_standsFor {x y : Val} {a b : ℚ} (hx : ratOf x = some a) (hy : ratOf y = some b) (ha : a ≠ 0) (hb : b ≠ 0) :
    ∃ q k, x.div y = .num (x.isNeg != y.isNeg) q k ∧ standsFor q k 1 |a / b| := by
  obtain ⟨n, m, e, rfl, rfl, hm⟩ := ratOf_ne_zero hx ha
  obtain ⟨n', m', e', rfl, rfl, hm'⟩ := ratOf_ne_zero hy hb
  refine ⟨_, _, rfl, ?_⟩
  rw [abs_div, abs_num, abs_num]
  exact standsFor_div hm hm' e e'

/-- A positive value is a number without a sign. -/
theorem ratOf_pos {x : Val} {a : ℚ} (h : ratOf x = some a) (ha : 0 < a) : ∃ m e, x = .num false m e ∧ a = m * 2 ^ e ∧ 0 < m := by
  obtain ⟨n, m, e, rfl, rfl, hm⟩ := ratOf_ne_zero h ha.ne'
  cases n
  · exact ⟨m, e, rfl, by rw [signOf_false, one_mul], hm⟩
  · exact absurd ((num_neg_iff hm).2 rfl) (not_lt.2 ha.le)

/-- What R73 says of reals. -/
theorem exact_reals (x y : Val) (a b : ℚ) (down : Bool) (hx : ratOf x = some a) (hy : ratOf y = some b) :
    ratOf (x.add down y) = some (a + b) ∧ ratOf (x.mul y) = some (a * b) ∧ ratOf x.neg = some (-a) ∧ ratOf x.abs = some |a| ∧
    (a + b = 0 → a ≠ 0 → x.add down y = .zero down) ∧
    (a ≠ 0 → b ≠ 0 → ∃ q k, x.div y = .num (x.isNeg != y.isNeg) q k ∧ standsFor q k 1 |a / b|) ∧
    (0 < a → ∃ q k, x.sqrt = .num false q k ∧ standsFor q k 2 a) ∧ (0 < a → ∃ q k, x.rsqrt = .num false q k ∧ standsFor q k 2 a⁻¹) ∧
    (a < 0 → x.sqrt = .nar ∧ x.rsqrt = .nar) := by
  refine ⟨ratOf_add hx hy down, ratOf_mul hx hy, ratOf_neg hx, ratOf_abs hx, add_cancels hx hy down, div_standsFor hx hy, fun ha => ?_,
    fun ha => ?_, fun ha => ?_⟩
  · obtain ⟨m, e, rfl, rfl, hm⟩ := ratOf_pos hx ha
    exact standsFor_rootNum hm e
  · obtain ⟨m, e, rfl, rfl, hm⟩ := ratOf_pos hx ha
    exact standsFor_rsqrt hm e
  · obtain ⟨n, m, e, rfl, rfl, hm⟩ := ratOf_ne_zero hx ha.ne
    obtain rfl := (num_neg_iff hm).1 ha
    exact ⟨rfl, rfl⟩

/-! ## Special cases -/

theorem add_nar (down : Bool) (x : Val) : x.add down .nar = .nar := by cases x <;> rfl
theorem mul_nar (x : Val) : x.mul .nar = .nar := by cases x <;> rfl
theorem div_nar (x : Val) : x.div .nar = .nar := by cases x <;> rfl

/-- What R73 says of infinities and of a zero divisor where the other operand is real. -/
theorem special_reals {x : Val} {a : ℚ} (h : ratOf x = some a) (m down : Bool) :
    (Val.inf m).add down x = .inf m ∧ x.add down (.inf m) = .inf m ∧ x.div (.inf m) = .zero (x.isNeg != m) ∧
    (a ≠ 0 → (Val.inf m).mul x = .inf (m != x.isNeg) ∧ x.mul (.inf m) = .inf (x.isNeg != m) ∧ x.div (.zero m) = .divz (x.isNeg != m) ∧
      (Val.inf m).div x = .inf (m != x.isNeg) ∧ (Val.zero m).div x = .zero (m != x.isNeg) ∧ (Val.zero m).add down x = x) := by
  obtain ⟨n, rfl, rfl⟩ | ⟨n, k, e, rfl, rfl⟩ := ratOf_cases h
  · exact ⟨rfl, rfl, rfl, fun h => absurd rfl h⟩
  · exact ⟨rfl, rfl, rfl, fun _ => ⟨rfl, rfl, rfl, rfl, rfl, rfl⟩⟩

end Sys2Proof.Words
end

section
/-! # Floating arithmetic -/
namespace Sys2Proof.Words
open Sys2Proof Sys2Proof.Machine Sys2Proof.Claims

/-- Settles O26: the members compute `floatElt` on each active element, and what R73 says of the operations is `exact_reals` and
`special_reals`. -/
theorem floatArithmetic : Obligations.FloatArithmetic := by
  refine ⟨fun fm d a b f k s => ?_, fun fm d a f k s => ?_, exact_reals, fun x m n down a => ?_⟩
  · intro fd wa wb wd down ieee get round does hfd himm
    have hdoes : ∀ i fused (fop : FOp) (op : Val → Val → Val → Val), exec i s = .next (run i (floatBody i fm d a b f fused fop) s) →
        instrLen i = fm.len → fop ieee down = op → does i fused op := fun i fused fop op hexec hlen hop hr hs hclean hres =>
      ⟨_, hexec, floatMember_vDone hfd himm hop hlen hr hs hclean hres⟩
    exact ⟨hdoes _ false fadd _ rfl rfl rfl, hdoes _ false fsub _ rfl rfl rfl, hdoes _ false fmul _ rfl rfl rfl,
      hdoes _ false fdiv _ rfl rfl rfl, hdoes _ false fmin _ rfl rfl rfl, hdoes _ false fmax _ rfl rfl rfl,
      hdoes _ true ffma _ rfl rfl rfl, hdoes _ true ffms _ rfl rfl rfl⟩
  · intro fd wa wd does hfd
    have hdoes : ∀ i (op : Val → Val), exec i s = .next (run i (unaryBody i fm d a f op) s) → instrLen i = fm.len → does i op :=
      fun i op hexec hlen hr hs hclean hres => ⟨_, hexec, unaryMember_vDone hfd hlen hr hs hclean hres⟩
    exact ⟨hdoes _ _ rfl rfl, hdoes _ _ rfl rfl, hdoes _ _ rfl rfl, hdoes _ _ rfl rfl⟩
  · refine ⟨⟨add_nar down x, mul_nar x, div_nar x, rfl, rfl, rfl⟩, rfl, rfl, rfl, rfl, rfl, rfl, rfl, ⟨rfl, rfl, rfl, rfl, rfl, rfl⟩,
      fun h => special_reals h m down⟩

end Sys2Proof.Words
end

section
/-! # Accesses that are denied before they are made -/

namespace Sys2Proof.Words
open Sys2Proof Sys2Proof.Machine Sys2Proof.Claims Sys2Proof.Laws Sys2Proof.Together

/-! ## What the walk of a table does not look at -/

/-- The same machine with another convoy in execution, another hart in focus, and other open values used. -/
def aside (c : Convoy) (g k : Hart) (n : Nat) (s : State) : State := { s with cv := c, h0 := g, h := k, free := n }

section
variable (c : Convoy) (g k : Hart) (n : Nat) (s : State) {w : Who} (hw : w.hart = none)

theorem aside_isSram : (aside c g k n s).isSram = s.isSram := rfl
theorem aside_region : (aside c g k n s).region = s.region := rfl
theorem aside_isLost : (aside c g k n s).isLost = s.isLost := rfl
theorem aside_tagFails : (aside c g k n s).tagFails = s.tagFails := rfl
theorem aside_quar : (aside c g k n s).quar = s.quar := rfl
theorem aside_badMeta : (aside c g k n s).badMeta = s.badMeta := rfl
theorem aside_badTree : (aside c g k n s).badTree = s.badTree := rfl

include hw

theorem logAt_aside (kind cause loc pa va key synd : Nat) :
    (aside c g k n s).logAt w kind cause loc pa va key synd = aside c g k n (s.logAt w kind cause loc pa va key synd) := by
  unfold State.logAt State.hartidOf
  rw [hw]
  rfl

theorem correct_aside (sec loc key va : Nat) : (aside c g k n s).correct w sec loc key va = aside c g k n (s.correct w sec loc key va) := by
  unfold State.correct
  rw [apply_ite (aside c g k n)]
  exact congrArg (ite _ _) (logAt_aside c g k n (s.eccClean sec) hw ..)

theorem fetchCtr_aside (r key va : Nat) : (aside c g k n s).fetchCtr w r key va = aside c g k n (s.fetchCtr w r key va) := by
  unfold State.fetchCtr
  rw [show (aside c g k n s).eccMeta = s.eccMeta from rfl]
  cases s.eccMeta.find? fun e => e.word == r && !e.lost with
  | none => rfl
  | some e => exact logAt_aside c g k n { s with eccMeta := s.eccMeta.filter (·.word != r) } hw ..

theorem quarantine_aside (kind pa va key : Nat) :
    (aside c g k n s).quarantine w kind pa va key = aside c g k n (s.quarantine w kind pa va key) := by
  have h := logAt_aside c g k n { s with quar := natInsert s.quar (pa / 65536) } hw kind w.intCause 0 pa va key 0
  unfold State.quarantine
  rw [apply_ite (aside c g k n)]
  exact congrArg₂ (ite _) (congrArg (·.raiseAlarm 0) h) h

theorem logLost_aside (cause sec loc key va : Nat) :
    (aside c g k n s).logLost w cause sec loc key va = aside c g k n (s.logLost w cause sec loc key va) :=
  logAt_aside c g k n s hw ..

theorem poisonRegion_aside (r key va cause : Nat) :
    (aside c g k n s).poisonRegion w r key va cause = aside c g k n (s.poisonRegion w r key va cause) := by
  unfold State.poisonRegion
  generalize List.range 64 = l
  unfold State.logAt State.hartidOf
  rw [hw]
  rfl

theorem readSector_aside (sec key va : Nat) :
    (aside c g k n s).readSector w sec key va = Prod.map id (aside c g k n) (s.readSector w sec key va) := by
  unfold State.readSector
  simp only [correct_aside _ _ _ _ _ hw, fetchCtr_aside _ _ _ _ _ hw, quarantine_aside _ _ _ _ _ hw, logLost_aside _ _ _ _ _ hw,
    poisonRegion_aside _ _ _ _ _ hw, aside_isSram, aside_region, aside_isLost, aside_tagFails, aside_quar, aside_badMeta, aside_badTree,
    apply_ite (Prod.map id (aside c g k n)), Prod.map_apply, id]

omit hw
variable (w)

theorem readEntry_aside (pte va : Nat) : (aside c g k n s).readEntry w pte va = Prod.map id (aside c g k n) (s.readEntry w pte va) := by
  unfold State.readEntry
  rw [readSector_aside c g k n s (w := w.walker) rfl, aside_region]
  obtain ⟨r, t⟩ := s.readSector w.walker (pte / 64) (s.region (pte / 4096)).kidx va
  cases r <;> rfl

theorem walk_aside (va : Nat) (ls : List Nat) (t : Nat) :
    (aside c g k n s).walk w va ls t = Prod.map id (aside c g k n) (s.walk w va ls t) := by
  induction ls generalizing s t with
  | nil => rfl
  | cons lvl ls ih =>
    unfold State.walk
    dsimp only
    rw [readEntry_aside]
    obtain ⟨r, u⟩ := s.readEntry w (t + 8 * vaIndex va lvl) va
    cases r with
    | error d => rfl
    | ok p =>
      simp only [Prod.map_apply, id, ih, apply_ite (Prod.map id (aside c g k n))]
      rfl

theorem lookup_aside (va : Nat) : (aside c g k n s).lookup w va = Prod.map id (aside c g k n) (s.lookup w va) := by
  unfold State.lookup
  rw [show (aside c g k n s).tlb = s.tlb from rfl, show (aside c g k n s).spaceOf = s.spaceOf from rfl]
  cases s.tlb.find? fun e => e.core == w.core && e.asn == w.asn && e.va ≤ va && va < e.va + e.size with
  | some e => rfl
  | none =>
    cases s.spaceOf w.asn with
    | none => rfl
    | some sp =>
      dsimp only
      rw [walk_aside]
      obtain ⟨r, u⟩ := s.walk w va [4, 3, 2, 1, 0] sp.root
      cases r <;> rfl
end

/-! ## What denies an access (R119, R134, R135, R359) -/

theorem flag_toNat {w : Nat} (x : BitVec w) (k : Nat) : flag x.toNat k = x.getLsbD k := by
  unfold flag BitVec.getLsbD
  rw [Nat.testBit_eq_decide_div_mod_eq]
  rfl

theorem leafKey_toNat (x : DWord) : leafKey x.toNat = (x.extractLsb' 48 8).toNat := by
  unfold leafKey bits
  rw [BitVec.extractLsb'_toNat, Nat.shiftRight_eq_div_pow]

section
variable {s : State} {va : Nat} {k : Acc} {c : Nat}

theorem find_denied (h : deniedBy s va k = some c) (p : Nat) :
    s.find { s.who s.h with psnCause := p } va k = (.error (.cause c), s) := by
  unfold deniedBy at h
  unfold State.find
  by_cases hb : 2 ^ 57 ≤ va
  · rw [if_pos hb] at h ⊢
    rw [Option.some.inj h]
  · rw [if_neg hb] at h ⊢
    rw [lookup_psnCause]
    cases hc : cachedAs s va with
    | some e =>
      rw [hc] at h
      dsimp only at h
      obtain ⟨h0, h⟩ := Option.ite_none_left_eq_some.1 h
      rw [lookup_cached hc]
      dsimp only
      generalize hq : permCause _ _ _ _ = q
      obtain rfl : q = c := hq.symm.trans (Option.some.inj h)
      have hq0 : q ≠ 0 := fun hz => h0 (hq.trans hz)
      cases q with
      | zero => exact absurd rfl hq0
      | succ q => rfl
    | none =>
      rw [hc] at h
      dsimp only at h
      obtain ⟨hl, h⟩ := Option.ite_none_right_eq_some.1 h
      rw [hl, Option.some.inj h]

/-- What denies an access does not depend on what executes. -/
theorem deniedBy_aside (h : deniedBy s va k = some c) (cv : Convoy) (g j : Hart) (n : Nat)
    (hwho : (aside cv g j n s).who j = s.who s.h) : deniedBy (aside cv g j n s) va k = some c := by
  have hcore : j.id.core = s.h.id.core := congrArg Who.core hwho
  have hasn : j.asn = s.h.asn := congrArg Who.asn hwho
  have hprv : j.status.prv = s.h.status.prv := congrArg Who.prv hwho
  have hcached : cachedAs (aside cv g j n s) va = cachedAs s va := by
    show (s.tlb.find? fun e => e.core == j.id.core && e.asn == j.asn && e.va ≤ va && va < e.va + e.size) = _
    rw [hcore, hasn]
    rfl
  unfold deniedBy at h ⊢
  rw [hcached]
  show (if 2 ^ 57 ≤ va then some 0x20
    else match cachedAs s va with
      | some e =>
        let c := permCause e.leaf.toNat j.status.prv
          (match s.spaceOf j.asn with | some sp => sp.keys.contains (leafKey e.leaf.toNat) | none => false) k
        if c = 0 then none else some c
      | none => if (aside cv g j n s).lookup ((aside cv g j n s).who j) va = (.error (.cause 0x20), aside cv g j n s) then some 0x20 else none) = _
  rw [hprv, hasn, hwho]
  split at h
  · next hb => rw [if_pos hb]; exact h
  · next hb =>
    rw [if_neg hb]
    cases hc : cachedAs s va with
    | some e => rw [hc] at h; exact h
    | none =>
      rw [hc] at h
      dsimp only at h ⊢
      obtain ⟨hl, h⟩ := Option.ite_none_right_eq_some.1 h
      rw [lookup_aside, hl]
      exact (if_pos rfl).trans h

theorem permCause_lt (p : Nat) (prv owns : Bool) (k : Acc) : permCause p prv owns k < 0x26 := by
  unfold permCause
  cases k <;> dsimp only <;> split_ifs <;> decide

/-- None of the causes is one that squashes. -/
theorem deniedBy_lt (h : deniedBy s va k = some c) : c < 0x26 := by
  unfold deniedBy at h
  split at h
  · cases h; decide
  split at h
  · obtain ⟨-, h⟩ := Option.ite_none_left_eq_some.1 h
    rw [← Option.some.inj h]
    exact permCause_lt ..
  · obtain ⟨-, h⟩ := Option.ite_none_right_eq_some.1 h
    cases h; decide

/-- An entry whose valid bit is clear, of a table in a plain sector, ends the walk. -/
theorem walk_invalid {w : Who} {t : Nat} {lvl : Nat} {ls : List Nat} (hv : (cellsGet s.mem (t + 8 * vaIndex va lvl)).getLsbD 0 = false)
    (hp : Plain s (t + 8 * vaIndex va lvl) (s.region ((t + 8 * vaIndex va lvl) / 4096)).kidx) :
    s.walk w va (lvl :: ls) t = (.error (.cause 0x20), s) := by
  have hread : s.readEntry w (t + 8 * vaIndex va lvl) va = (.ok (s.rawRead (t + 8 * vaIndex va lvl) 8), s) := by
    unfold State.readEntry
    rw [hp.readSector]
  have hbit : pteV (s.rawRead (t + 8 * vaIndex va lvl) 8) = false := by
    have hlow : ∀ (b : Byte) (l : List Byte), leNat (b :: l) % 2 = b.toNat % 2 := fun b l => by
      show (b.toNat + 256 * leNat l) % 2 = _
      omega
    unfold pteV flag State.rawRead
    rw [Nat.pow_zero, Nat.div_one, show cellsRead s.mem (t + 8 * vaIndex va lvl) 8 = cellsGet s.mem (t + 8 * vaIndex va lvl + 0) :: _ from rfl,
      hlow, Nat.add_zero]
    rw [BitVec.getLsbD, Nat.testBit_zero, decide_eq_false_iff_not] at hv
    exact beq_false_of_ne hv
  unfold State.walk
  dsimp only
  rw [hread]
  dsimp only
  rw [hbit]
  rfl

/-- Beyond 57 bits, or not translated: its first table entry is not valid. -/
theorem deniedBy_absent {a : DWord} (k : Acc) (h : 2 ^ 57 ≤ a.toNat ∨
      (cachedAs s a.toNat = none ∧ ∃ p, s.spaceOf s.h.asn = some p ∧ (cellsGet s.mem (p.root + 8 * (a.toNat / 2 ^ 48 % 512))).getLsbD 0 = false ∧
        plainSector s (p.root + 8 * (a.toNat / 2 ^ 48 % 512)) (s.region ((p.root + 8 * (a.toNat / 2 ^ 48 % 512)) / 4096)).kidx = true)) :
    deniedBy s a.toNat k = some 0x20 := by
  unfold deniedBy
  by_cases hb : 2 ^ 57 ≤ a.toNat
  · rw [if_pos hb]
  · rw [if_neg hb]
    obtain ⟨hc, p, hsp, hv, hp⟩ := h.resolve_left hb
    have hl : s.lookup (s.who s.h) a.toNat = (.error (.cause 0x20), s) := by
      have hw : s.walk (s.who s.h) a.toNat [4, 3, 2, 1, 0] p.root = (.error (.cause 0x20), s) := walk_invalid hv (plain_of hp)
      have hcn : (s.tlb.find? fun e => e.core == (s.who s.h).core && e.asn == (s.who s.h).asn && e.va ≤ a.toNat && a.toNat < e.va + e.size) =
        none := hc
      have hspn : s.spaceOf (s.who s.h).asn = some p := hsp
      unfold State.lookup
      rw [hcn, hspn]
      dsimp only
      rw [hw]
    rw [hc]
    exact if_pos hl

/-- The privilege or the key of a page keeps the hart out. -/
def barred (s : State) (e : TlbEntry) : Prop :=
  (e.leaf.getLsbD 6 = true ∧ s.h.status.prv = false) ∨
    (e.leaf.extractLsb' 48 8 ≠ 0 ∧ ∀ p, s.spaceOf s.h.asn = some p → (e.leaf.extractLsb' 48 8).toNat ∉ p.keys)

/-- The cause of the permission check of an entry for the hart in focus, 0 when it passes. -/
def causeOf (s : State) (e : TlbEntry) (k : Acc) : Nat := permCause e.leaf.toNat s.h.status.prv
  (match s.spaceOf s.h.asn with | some sp => sp.keys.contains (leafKey e.leaf.toNat) | none => false) k

theorem causeOf_barred {e : TlbEntry} (h : barred s e) (k : Acc) : causeOf s e k = 0x25 := by
  unfold causeOf permCause
  rw [flag_toNat, leafKey_toNat]
  rcases h with ⟨h1, h2⟩ | ⟨h1, h2⟩
  · rw [h1, h2]; rfl
  · split
    · rfl
    · rw [if_pos]
      rw [Bool.and_eq_true, bne_iff_ne]
      refine ⟨fun h0 => h1 (BitVec.eq_of_toNat_eq h0), ?_⟩
      cases hs : s.spaceOf s.h.asn with
      | none => rfl
      | some p => simpa using h2 p hs

/-- Past both, the permissions of the page decide. -/
theorem causeOf_unbarred {e : TlbEntry} (h : ¬ barred s e) (k : Acc) : causeOf s e k = match k with
      | .read => if e.leaf.getLsbD 2 then 0 else 0x21
      | .write => if e.leaf.getLsbD 3 then 0 else 0x22
      | .rmw => if !e.leaf.getLsbD 2 then 0x21 else if !e.leaf.getLsbD 3 then 0x22 else if e.leaf.getLsbD 5 then 0 else 0x24
      | .fetch => if e.leaf.getLsbD 4 then 0 else 0x23 := by
  unfold barred at h
  rw [not_or] at h
  obtain ⟨h1, h2⟩ := h
  unfold causeOf permCause
  simp only [flag_toNat, leafKey_toNat]
  refine (if_neg ?_).trans ((if_neg ?_).trans ?_)
  · rw [Bool.and_eq_true, Bool.not_eq_true']
    exact h1
  · rw [Bool.and_eq_true, bne_iff_ne]
    rintro ⟨hk, ho⟩
    refine h2 ⟨fun h0 => hk (congrArg BitVec.toNat h0), fun p hp => ?_⟩
    rw [hp] at ho
    simpa using ho
  · cases k <;> rfl

theorem deniedBy_cached {e : TlbEntry} (hb : va < 2 ^ 57) (hc : cachedAs s va = some e) (h : causeOf s e k = c) (h0 : c ≠ 0) :
    deniedBy s va k = some c := by
  unfold deniedBy
  rw [if_neg (Nat.not_le.2 hb), hc]
  show (if causeOf s e k = 0 then none else some (causeOf s e k)) = _
  rw [h, if_neg h0]
end

/-! ## A denied access of the hart -/

section
variable {u : State} {x : DWord} {k : Acc} {c : Nat}

theorem findM_denied {va : Nat} (h : deniedBy u va k = some c) (p : Nat) :
    findM { u.who u.h with psnCause := p } va k u = (.ok (.error (.cause c)), u) := by
  unfold findM
  refine (bind_ok (show (get : M State) u = (.ok u, u) from rfl)).trans ?_
  rw [find_denied h]
  rfl

theorem piecesOf_cons {a n : Nat} (hn : 0 < n) : ∃ len l, piecesOf a n = (a, len) :: l := by
  obtain ⟨m, rfl⟩ := Nat.exists_eq_succ_of_ne_zero hn.ne'
  unfold piecesOf pieces
  rw [if_neg (Nat.succ_ne_zero m)]
  exact ⟨_, _, rfl⟩

theorem findAll_denied {n : Nat} (h : deniedBy u x.toNat k = some c) (hn : 0 < n) (p : Nat) :
    findAll { u.who u.h with psnCause := p } k (piecesOf x.toNat n) u = (.ok (.error (.cause c)), u) := by
  obtain ⟨len, l, hp⟩ := piecesOf_cons (a := x.toNat) hn
  rw [hp]
  unfold findAll
  rw [Nat.mod_eq_of_lt x.isLt]
  exact bind_ok (findM_denied h p)

theorem denied_eq {α : Type} {kind : Kind} {idx : Nat} {va : DWord} (h : c < 0x26) :
    (denied kind idx va (.cause c) : M α) = throwTrap kind c va idx := by
  unfold denied
  dsimp only
  rw [if_neg (by omega)]

/-- The trap of a cause found before effect. -/
def early (c : Nat) (x : DWord) : Exc := .trap { kind := .before, code := c, tval := x }

theorem translateM_denied {n : Nat} {w : Option Who} {p : Nat} (h : deniedBy u x.toNat k = some c) (hn : 0 < n)
    (hw : w.getD (u.who u.h) = { u.who u.h with psnCause := p }) :
    translateM x n k .before 0 w u = (.error (early c x), u) := by
  unfold translateM
  refine (bind_ok (show whoM u = (.ok (u.who u.h), u) from rfl)).trans ?_
  rw [hw]
  refine (bind_ok (show (get : M State) u = (.ok u, u) from rfl)).trans ?_
  refine (bind_ok (findAll_denied h hn p)).trans ?_
  dsimp only
  rw [denied_eq (deniedBy_lt h)]
  rfl

theorem loadScalar_denied {n : Nat} (h : deniedBy u x.toNat .read = some c) (hn : 0 < n) (hal : x.toNat % n = 0) (p : Nat) :
    loadScalar false x n p u = (.error (early c x), u) := by
  have hload : loadGlob .scalar x n .before 0 (some { u.who u.h with psnCause := p }) u = (.error (early c x), u) := by
    unfold loadGlob
    refine (bind_ok (show whoM u = (.ok (u.who u.h), u) from rfl)).trans ?_
    exact bind_error (translateM_denied h hn rfl)
  unfold loadScalar
  rw [if_neg (by simpa using hal)]
  dsimp only
  rw [if_neg Bool.false_ne_true]
  refine (bind_ok (show whoM u = (.ok (u.who u.h), u) from rfl)).trans ?_
  exact bind_error hload

theorem storeGlob_denied {bs : List Byte} (h : deniedBy u x.toNat .write = some c) (hn : 0 < bs.length) :
    storeGlob .scalar x bs false .before 0 u = (.error (early c x), u) :=
  bind_error (translateM_denied (w := none) h hn rfl)

/-! ### A release with nothing left to wait for (R145, R146) -/

/-- No write of the hart is on its way, and no transfer. -/
def settled (u : State) (c : Scope) : Prop := u.h.stbuf = [] ∧ u.h0.stbuf = [] ∧ quietAt u.h c = true

theorem flush_empty (h : u.h.stbuf = []) (h0 : u.h0.stbuf = []) (p : Cls → Bool) : u.flush p = u := by
  have e1 : ({ u.h with stbuf := [] } : Hart) = u.h := by rw [← h]
  have e0 : ({ u.h0 with stbuf := [] } : Hart) = u.h0 := by rw [← h0]
  unfold State.flush
  rw [h]
  show { u with h := { u.h with stbuf := [] }, h0 := { u.h0 with stbuf := [] } } = u
  rw [e1, e0]

theorem waitTransfers_quiet {c : Scope} (h : quietAt u.h c = true) (r : Nat) : waitTransfers r u = (.ok (), u) := by
  unfold quietAt at h
  simp only [Bool.and_eq_true, List.isEmpty_iff] at h
  obtain ⟨⟨hc, ha⟩, -⟩ := h
  have hcopies : waitCopies (fun _ => true) r u = (.ok (), u) := by
    unfold waitCopies waitCopiesBy
    refine (bind_ok (show getH u = (.ok u.h, u) from rfl)).trans ?_
    rw [hc]
    rfl
  unfold waitTransfers
  refine (bind_ok hcopies).trans ?_
  refine (bind_ok (show getH u = (.ok u.h, u) from rfl)).trans ?_
  rw [if_neg]
  · rfl
  · rw [Bool.not_eq_true]
    refine List.any_eq_false.2 fun l hl => ?_
    have hq := List.all_eq_true.1 ha l hl
    cases ho : l.own <;> simp_all

theorem releaseAt_settled {c : Scope} (h : settled u c) : releaseAt c u = (.ok (), u) := by
  obtain ⟨hs, hs0, hq⟩ := h
  have hmsg : (c == .fab && u.h.undelivered != 0) = false := by
    unfold quietAt at hq
    simp only [Bool.and_eq_true, Bool.or_eq_true, bne_iff_ne, beq_iff_eq] at hq
    obtain ⟨-, hc | hd⟩ := hq
    · simp [hc]
    · simp [hd]
  unfold releaseAt
  refine (bind_ok (waitTransfers_quiet hq _)).trans ?_
  refine (bind_ok (show getH u = (.ok u.h, u) from rfl)).trans ?_
  rw [hmsg, if_neg Bool.false_ne_true]
  unfold settleAll
  have hflush : flushM (fun _ => true) u = (.ok (), u) := congrArg (Prod.mk (Except.ok ())) (flush_empty hs hs0 _)
  refine (bind_ok hflush).trans ?_
  refine (bind_ok (show getH u = (.ok u.h, u) from rfl)).trans ?_
  rw [hs]
  rfl

theorem quietAt_of_fab {h : Hart} (hq : quietAt h .fab = true) (c : Scope) : quietAt h c = true := by
  unfold quietAt at hq ⊢
  simp only [Bool.and_eq_true, Bool.or_eq_true] at hq ⊢
  obtain ⟨hl, hd⟩ := hq
  exact ⟨hl, .inr (by simpa using hd)⟩
end

/-! ## The instructions that make one -/

theorem begin_aside {i : Instr} {s : State} (ha : s.cv.active = false) :
    s.begin i = aside (s.begin i).cv s.h s.h s.free s := by
  rw [State.begin_of_idle ha]; rfl

section
variable {s : State} {c : Nat}

/-- What the body finds before effect, its convoy raises. -/
theorem traps_of {i : Instr} {body : M Unit} {x : DWord} (hexec : exec i s = .next (run i body s)) (ha : s.cv.active = false)
    (hb : body (s.begin i) = (.error (early c x), s.begin i)) : ∃ u, exec i s = .next u ∧ Entered c x s.h.pc s u :=
  ⟨_, hexec, run_before ha hb⟩

theorem deniedBy_begin {i : Instr} {va : Nat} {k : Acc} (ha : s.cv.active = false) (h : deniedBy s va k = some c) :
    deniedBy (s.begin i) va k = some c := by
  rw [begin_aside ha]
  exact deniedBy_aside h _ _ _ _ rfl

theorem mod_of_dvd {n a : Nat} (hn : n ∣ 8) (h : a % 8 = 0) : a % n = 0 :=
  Nat.mod_eq_zero_of_dvd (hn.trans (Nat.dvd_of_mod_eq_zero h))

theorem half_dvd (l : Bool) : (if l then 8 else 4) ∣ 8 := by cases l <;> decide

theorem pos_of_dvd {n : Nat} (h : n ∣ 8) : 0 < n := Nat.pos_of_dvd_of_pos h (by decide)

theorem loadBody_denied {u : State} {fm : Form} {d b i : BitVec 6} {sg : Bool} {n : Nat} (hn : n ∣ 8) (hal : (addrB fm b i u.h).toNat % 8 = 0)
    (h : deniedBy u (addrB fm b i u.h).toNat .read = some c) :
    loadBody fm d b i false sg n u = (.error (early c (addrB fm b i u.h)), u) := by
  unfold loadBody
  refine (bind_ok (show getH u = (.ok u.h, u) from rfl)).trans ?_
  exact bind_error (loadScalar_denied h (pos_of_dvd hn) (mod_of_dvd hn hal) _)

/-- The scalar loads of global memory. -/
theorem loads_denied (fm : Form) (d b i : BitVec 6) (w : BitVec 2) (l : Bool) (sc : Scope) (ha : s.cv.active = false)
    (hal : (addrB fm b i s.h).toNat % 8 = 0) (h : deniedBy s (addrB fm b i s.h).toNat .read = some c) :
    ∀ j ∈ [Instr.lds fm d b i w false, .ldz fm d b i w false, .ldD fm d b i false, .ldacq fm d b i l sc],
      ∃ u, exec j s = .next u ∧ Entered c (addrB fm b i s.h) s.h.pc s u := by
  have hload : ∀ (j : Instr) (sg : Bool) (n : Nat), n ∣ 8 →
      loadBody fm d b i false sg n (s.begin j) = (.error (early c (addrB fm b i s.h)), s.begin j) := fun j sg n hn => by
    have hb := loadBody_denied (u := s.begin j) (fm := fm) (d := d) (b := b) (i := i) (sg := sg) (c := c) hn (by rw [State.begin_h]; exact hal)
      (by rw [State.begin_h]; exact deniedBy_begin ha h)
    rwa [State.begin_h] at hb
  intro j hj
  simp only [List.mem_cons, List.not_mem_nil, or_false] at hj
  rcases hj with rfl | rfl | rfl | rfl
  · exact traps_of rfl ha (hload _ _ _ (width_dvd w))
  · exact traps_of rfl ha (hload _ _ _ (width_dvd w))
  · exact traps_of rfl ha (hload _ _ _ (dvd_refl 8))
  · refine traps_of rfl ha ?_
    unfold ldacqBody
    refine (bind_ok (show getH (s.begin _) = (.ok (s.begin _).h, s.begin _) from rfl)).trans ?_
    rw [State.begin_h]
    exact bind_error (loadScalar_denied (deniedBy_begin ha h) (pos_of_dvd (half_dvd l)) (mod_of_dvd (half_dvd l) hal) _)

/-- Nothing is on its way as the convoy begins, where nothing was. -/
theorem settled_begin {i : Instr} {sc : Scope} (ha : s.cv.active = false) (hs : s.h.stbuf = []) (hq : quietAt s.h sc = true) :
    settled (s.begin i) sc := by
  rw [begin_aside ha]; exact ⟨hs, hs, hq⟩

/-- A scalar store to global memory. -/
theorem st_denied (fm : Form) (d b i : BitVec 6) (w : BitVec 2) (ha : s.cv.active = false)
    (hal : (addrB fm b i s.h).toNat % 8 = 0) (h : deniedBy s (addrB fm b i s.h).toNat .write = some c) :
    ∃ u, exec (.st fm d b i w false) s = .next u ∧ Entered c (addrB fm b i s.h) s.h.pc s u := by
  refine traps_of rfl ha ?_
  unfold storeBody storeScalar
  refine (bind_ok (show getH (s.begin _) = (.ok (s.begin _).h, s.begin _) from rfl)).trans ?_
  rw [State.begin_h, if_neg (by simpa using mod_of_dvd (width_dvd w) hal)]
  exact storeGlob_denied (deniedBy_begin ha h) (by rw [leBytes_length]; exact pos_of_dvd (width_dvd w))

/-- A release store that waits for nothing. -/
theorem strel_denied (fm : Form) (d b i : BitVec 6) (l : Bool) (sc : Scope) (ha : s.cv.active = false) (hs : s.h.stbuf = [])
    (hq : quietAt s.h sc = true) (hal : (addrB fm b i s.h).toNat % 8 = 0) (h : deniedBy s (addrB fm b i s.h).toNat .write = some c) :
    ∃ u, exec (.strel fm d b i l sc) s = .next u ∧ Entered c (addrB fm b i s.h) s.h.pc s u := by
  refine traps_of rfl ha ?_
  unfold strelBody
  refine (bind_ok (show getH (s.begin _) = (.ok (s.begin _).h, s.begin _) from rfl)).trans ?_
  rw [State.begin_h, if_neg (by simpa using mod_of_dvd (half_dvd l) hal)]
  refine (bind_ok (releaseAt_settled (settled_begin ha hs hq))).trans ?_
  exact bind_error (storeGlob_denied (deniedBy_begin ha h) (by rw [leBytes_length]; exact pos_of_dvd (half_dvd l)))

/-- An atomic step on global memory, of a release one that waits for nothing. -/
theorem amoBody_denied {u : State} {fm : Form} {d b : BitVec 6} {dw : Bool} {f : Hart → Nat → Nat} (hal : (u.h.getX b).toNat % 8 = 0)
    (hrel : attrRel fm = true → settled u .fab) (h : deniedBy u (u.h.getX b).toNat .rmw = some c) :
    amoBody fm d b dw false f u = (.error (early c (u.h.getX b)), u) := by
  have hattr : releaseAttr fm u = (.ok (), u) := by
    unfold releaseAttr
    cases hr : attrRel fm
    · rfl
    · obtain ⟨h1, h2, hq⟩ := hrel hr
      exact releaseAt_settled ⟨h1, h2, quietAt_of_fab hq _⟩
  have hloc : atomLoc false (u.h.getX b) .rmw u = (.ok (.error (.cause c)), u) := by
    unfold atomLoc
    rw [if_neg Bool.false_ne_true]
    refine (bind_ok (show whoM u = (.ok (u.who u.h), u) from rfl)).trans ?_
    exact bind_ok (findM_denied h 0x40)
  unfold amoBody
  refine (bind_ok (show getH u = (.ok u.h, u) from rfl)).trans ?_
  rw [if_neg (by simpa using mod_of_dvd (half_dvd dw) hal)]
  refine (bind_ok hattr).trans ?_
  refine (bind_ok hloc).trans ?_
  dsimp only
  rw [denied_eq (deniedBy_lt h)]
  rfl

theorem amos_denied (fm : Form) (d b y : BitVec 6) (dw : Bool) (o : AmoOp) (ha : s.cv.active = false)
    (hrel : attrRel fm = true → s.h.stbuf = [] ∧ quietAt s.h .fab = true) (hal : (s.h.getX b).toNat % 8 = 0)
    (h : deniedBy s (s.h.getX b).toNat .rmw = some c) :
    ∀ j ∈ [Instr.amo fm d b y o dw false, .cas fm d b y dw false], ∃ u, exec j s = .next u ∧ Entered c (s.h.getX b) s.h.pc s u := by
  have hamo : ∀ (j : Instr) (f : Hart → Nat → Nat),
      amoBody fm d b dw false f (s.begin j) = (.error (early c (s.h.getX b)), s.begin j) := fun j f => by
    have hb := amoBody_denied (u := s.begin j) (fm := fm) (d := d) (b := b) (dw := dw) (f := f) (c := c) (by rw [State.begin_h]; exact hal)
      (fun hr => settled_begin ha (hrel hr).1 (hrel hr).2) (by rw [State.begin_h]; exact deniedBy_begin ha h)
    rwa [State.begin_h] at hb
  intro j hj
  simp only [List.mem_cons, List.not_mem_nil, or_false] at hj
  rcases hj with rfl | rfl
  · exact traps_of rfl ha (hamo _ _)
  · exact traps_of rfl ha (hamo _ _)

/-- The fetch of the next instruction (R58). -/
theorem fetch_denied (hahead : s.h.ahead = []) (h : deniedBy s s.h.pc.toNat .fetch = some c) :
    ∃ u, issueConvoy exec none s = .next u ∧ Entered c s.h.pc s.h.pc s u := by
  let t := aside s.cv s.h0 (asIssued s.h) s.free s
  have ht : deniedBy t s.h.pc.toNat .fetch = some c := deniedBy_aside h _ _ _ _ rfl
  have hword : t.fetchWord s.h.pc = (.error { kind := .before, code := c, addr := s.h.pc }, t) := by
    have htr : t.translate (t.who t.h) s.h.pc.toNat .fetch = (.error (.cause c), t) := by
      have hfind : t.find (t.who t.h) s.h.pc.toNat .fetch = (.error (.cause c), t) := find_denied ht 0x40
      unfold State.translate
      rw [hfind]
    unfold State.fetchWord
    dsimp only
    rw [htr]
  have hframe : t.frame = (.error { kind := .before, code := c, addr := s.h.pc }, t) := by
    unfold State.frame
    rw [show t.h.ahead = [] from hahead, List.find?_nil]
    show t.frameFrom none s.h.pc 4 = _
    unfold State.frameFrom
    rw [hword]
  refine ⟨t.trapAt .before c s.h.pc, ?_, rfl, fun _ => rfl, rfl⟩
  unfold issueConvoy
  dsimp only
  rw [show (s.mapH fun h => { h with fromEret := false, brkSkip := false, park := none, resumed := false, stall := 0 }) = t from rfl, hframe]
end

/-! ## Misaligned accesses (R121) -/

theorem misaligned (fm : Form) (d b i : BitVec 6) (w : BitVec 2) (t : Bool) (s : State) (ha : s.cv.active = false) :
     let va := addrB fm b i s.h
     let traps := fun (j : Instr) => ∃ u, exec j s = .next u ∧ Entered 0x30 va s.h.pc s u
     (va.toNat % 2 ^ w.toNat ≠ 0 →
       traps (.lds fm d b i w t) ∧ traps (.ldz fm d b i w t) ∧ traps (.st fm d b i w t) ∧ traps (.ldsSp fm d b i w) ∧
       traps (.ldzSp fm d b i w) ∧ traps (.stSp fm d b i w)) ∧
     (va.toNat % 8 ≠ 0 → traps (.ldD fm d b i t) ∧ traps (.ldDSp fm d b i)) ∧
     (∀ l c, va.toNat % (if l then 8 else 4) ≠ 0 → traps (.ldacq fm d b i l c) ∧ traps (.strel fm d b i l c)) := by
  intro va traps
  have hva : ∀ j : Instr, addrB fm b i (s.begin j).h = va := fun j => by rw [State.begin_h]
  have hload : ∀ (j : Instr) (t sg : Bool) (n : Nat), va.toNat % n ≠ 0 →
      loadBody fm d b i t sg n (s.begin j) = (.error (early 0x30 va), s.begin j) := fun j t sg n hn => by
    unfold loadBody loadScalar
    refine (bind_ok (show getH (s.begin j) = (.ok (s.begin j).h, s.begin j) from rfl)).trans (bind_error ?_)
    rw [hva, if_pos hn]
    rfl
  have hloadSp : ∀ (j : Instr) (sg : Bool) (n : Nat), va.toNat % n ≠ 0 →
      loadSpBody fm d b i sg n (s.begin j) = (.error (early 0x30 va), s.begin j) := fun j sg n hn => by
    unfold loadSpBody
    refine (bind_ok (show getH (s.begin j) = (.ok (s.begin j).h, s.begin j) from rfl)).trans ?_
    rw [hva, if_pos hn]
    rfl
  refine ⟨fun hn => ⟨traps_of rfl ha (hload _ _ _ _ hn), traps_of rfl ha (hload _ _ _ _ hn), traps_of rfl ha ?_,
    traps_of rfl ha (hloadSp _ _ _ hn), traps_of rfl ha (hloadSp _ _ _ hn), traps_of rfl ha ?_⟩,
    fun hn => ⟨traps_of rfl ha (hload _ _ _ _ hn), traps_of rfl ha (hloadSp _ _ _ hn)⟩,
    fun l c hn => ⟨traps_of rfl ha ?_, traps_of rfl ha ?_⟩⟩
  · unfold storeBody storeScalar
    refine (bind_ok (show getH (s.begin _) = (.ok (s.begin _).h, s.begin _) from rfl)).trans ?_
    rw [hva, if_pos hn]
    rfl
  · unfold storeSpBody
    refine (bind_ok (show getH (s.begin _) = (.ok (s.begin _).h, s.begin _) from rfl)).trans ?_
    rw [hva, if_pos hn]
    rfl
  · unfold ldacqBody loadScalar
    refine (bind_ok (show getH (s.begin _) = (.ok (s.begin _).h, s.begin _) from rfl)).trans (bind_error ?_)
    rw [hva, if_pos hn]
    rfl
  · unfold strelBody
    refine (bind_ok (show getH (s.begin _) = (.ok (s.begin _).h, s.begin _) from rfl)).trans ?_
    rw [hva, if_pos hn]
    rfl

/-! ## Denied accesses -/

/-- The order of the causes of an access that is denied before effect, over the instructions that make one. -/
theorem denials (fm : Form) (d b i y : BitVec 6) (w : BitVec 2) (l dw : Bool) (c : Scope) (o : AmoOp) (s : State) :
     let va := addrB fm b i s.h
     let vb := s.h.getX b
     let loads := [Instr.lds fm d b i w false, .ldz fm d b i w false, .ldD fm d b i false, .ldacq fm d b i l c]
     let settled := fun (c : Scope) => s.h.stbuf.isEmpty && quietAt s.h c
     let stores := Instr.st fm d b i w false :: if settled c then [Instr.strel fm d b i l c] else []
     let steps := if !attrRel fm || settled .fab then [Instr.amo fm d b y o dw false, .cas fm d b y dw false] else []
     let trap := fun (code : Nat) (va : DWord) (j : Instr) => ∃ u, exec j s = .next u ∧ Entered code va s.h.pc s u
     s.cv.active = false → va.toNat % 8 = 0 → vb.toNat % 8 = 0 →
     (∀ code, deniedBy s va.toNat .read = some code → ∀ j ∈ loads, trap code va j) ∧
     (∀ code, deniedBy s va.toNat .write = some code → ∀ j ∈ stores, trap code va j) ∧
     (∀ code, deniedBy s vb.toNat .rmw = some code → ∀ j ∈ steps, trap code vb j) := by
  intro va vb loads settled stores steps trap ha hal hbl
  refine ⟨fun code h => loads_denied fm d b i w l c ha hal h, fun code h j hj => ?_, fun code h j hj => ?_⟩
  · rcases List.mem_cons.1 hj with rfl | hj
    · exact st_denied fm d b i w ha hal h
    · obtain ⟨hset, hj⟩ := List.mem_ite_nil_right.1 hj
      obtain ⟨hs, hq⟩ := (Bool.and_eq_true _ _).mp hset
      rw [List.mem_singleton.1 hj]
      exact strel_denied fm d b i l c ha (List.isEmpty_iff.1 hs) hq hal h
  · obtain ⟨hset, hj⟩ := List.mem_ite_nil_right.1 hj
    refine amos_denied fm d b y dw o ha (fun hr => ?_) hbl h j hj
    rw [hr, Bool.not_true, Bool.false_or] at hset
    obtain ⟨hs, hq⟩ := (Bool.and_eq_true _ _).mp hset
    exact ⟨List.isEmpty_iff.1 hs, hq⟩

end Sys2Proof.Words
end

section
/-! # Members that are squashed or stopped part-way (R110, R116, R155, R249) -/

namespace Sys2Proof.Words
open Sys2Proof Sys2Proof.Machine Sys2Proof.Claims Sys2Proof.Laws Sys2Proof.Together

/-- The chain bit stands at bit 8 of the fields of word 0 (R41). -/
theorem isChained_eq (i : Instr) : isChained i = (slice (fields i) 8 1 == 1) := by
  unfold isChained
  rw [encodeWord0_eq_pack, flag_pack (fields_fit i)]

/-! ## A squash -/

/-- A squash leaves the hart as it was before the convoy, whatever its members did (R110). -/
theorem run_squash {i : Instr} {body : M Unit} {s : State} {k : Hart} {cv : Convoy} {code : Nat} {tval : DWord}
    (hk : isChained i = false) (hp : cv.pend = false) (hbase : cv.base = s.h.pc) (hctrs : cv.ctrs = s.ctrs) (hasync : k.async = s.h.async)
    (hb : body (s.begin i) = (.error (.trap { kind := .squash, code := code, tval := tval }), { s with h := k, cv := cv, h0 := s.h })) :
    Entered code tval s.h.pc s (run i body s) := by
  have hvoid : State.trapConvoy { s with h := k, cv := cv, h0 := s.h } { kind := .squash, code := code, tval := tval } =
      State.idle { s with h := ({ s.h with ves := { }, vcm := 0, async := k.async } : Hart).enter false 0 code tval cv.base, cv := cv, h0 := s.h,
                          ended := .trapped .squash, ctrs := cv.ctrs } := rfl
  rw [hctrs, hbase, hasync] at hvoid
  rw [run_error hb]
  show Entered code tval s.h.pc s (State.endExc i { s with h := k, cv := cv, h0 := s.h } (.trap _) id)
  rw [State.endExc_last (s := { s with h := k, cv := cv, h0 := s.h }) hp hk, hvoid]
  exact ⟨rfl, fun _ => rfl, rfl⟩

/-- The same of a member that has changed nothing. -/
theorem run_squash_begun {i : Instr} {body : M Unit} {s : State} {code : Nat} {tval : DWord} (ha : s.cv.active = false)
    (hk : isChained i = false) (hb : body (s.begin i) = (.error (.trap { kind := .squash, code := code, tval := tval }), s.begin i)) :
    Entered code tval s.h.pc s (run i body s) := by
  have hbeg := State.begin_of_idle (i := i) ha
  refine run_squash (k := s.h) (cv := (s.begin i).cv) hk ?_ ?_ ?_ rfl (hb.trans ?_)
  · rw [hbeg]
  · rw [hbeg]
  · rw [hbeg]
  · rw [hbeg]

/-! ## Poisoned sources (R155) -/

theorem cleanElts_poisoned {u : State} {os : List Opd} {es : List Nat} {e : Nat} {o : Opd} (he : e ∈ es) (ho : o ∈ os) (hp : o.psn e = true) :
    cleanElts os es u = (.error (.trap { kind := .squash, code := 0x40, tval := 0 }), u) := by
  have hany : (es.any fun e => os.any (·.psn e)) = true := List.any_eq_true.2 ⟨e, he, List.any_eq_true.2 ⟨o, ho, hp⟩⟩
  unfold cleanElts
  rw [hany]
  rfl

theorem elementwise_poisoned {s u : State} (hu : Begun s u) {fm : Form} {d : BitVec 5} {w : Nat} {os : List Opd} {f : Nat → Option Nat}
    {e : Nat} {o : Opd} (he : act fm s.h e = true) (ho : o ∈ os) (hp : o.psn e = true) :
    elementwise fm d w os f u = (.error (.trap { kind := .squash, code := 0x40, tval := 0 }), u) := by
  unfold elementwise
  refine (bind_ok (show getH u = (.ok u.h, u) from rfl)).trans ?_
  rw [hu.h_eq]
  refine (bind_ok (todo_ok hu fm _)).trans ?_
  exact bind_error (cleanElts_poisoned (mem_eltsOf.2 he) ho hp)

section
variable {s : State} {i : Instr} {fm : Form} {d a b : BitVec 5} {f : BitVec 3}

theorem fresh_of_ready {W : Nat} (h : ready i W s = true) : fresh i s = true := by
  unfold ready named at h
  simp only [Bool.and_eq_true] at h
  exact h.1.1

/-- An integer member with two sources, once its checks are over. -/
theorem intBody_begun {reads : Bool} {same : SameW} {op : IOp}
    (hr : ready i (max (max (fmtWidth (fdFA (fdValue fm f s.h))) (fmtWidth (fdFB (fdValue fm f s.h)))) (fmtWidth (fdDst (fdValue fm f s.h)))) s = true)
    (hs : noSlots (d :: abOf fm a b) s.h = true)
    (hfd : (fdOk { fa := some isInt, fb := some isInt, dst := some isInt } (fdValue fm f s.h) && same.ok (fdValue fm f s.h)) = true)
    (himm : immReserved fm (fdValue fm f s.h) = false) :
    intBody i fm d a b f reads same op (s.begin i) = (do
      let fd := fdValue fm f s.h
      let oa : Opd := .reg (s.h.getV a) (fmtWidth (fdFA fd))
      let ob := opB fm fd b s.h
      let od := oldOf reads d (fmtWidth (fdDst fd)) s.h
      elementwise fm d (fmtWidth (fdDst fd)) [oa, ob, od] fun e => some (op fd (oa.at e) (ob.at e) (od.at e))
      countGroups (max (max (fmtWidth (fdFA fd)) (fmtWidth (fdFB fd))) (fmtWidth (fdDst fd))) : M Unit) (s.begin i) := by
  have hu := begun_of_fresh (fresh_of_ready hr)
  have hget : getH (s.begin i) = (.ok s.h, s.begin i) := congrArg (fun h => (Except.ok h, s.begin i)) hu.h_eq
  unfold ready at hr
  rw [Bool.and_eq_true, decide_eq_true_eq] at hr
  obtain ⟨hn, hgrant⟩ := hr
  obtain ⟨hd, hab⟩ := noSlots_cons hs
  unfold intBody
  refine (bind_ok (checkNamed_named hu hn)).trans ?_
  refine (bind_ok hget).trans ?_
  refine (bind_ok (checkFd_ok hfd)).trans ?_
  refine (bind_ok (checkUnused_ok himm)).trans ?_
  refine (bind_ok (checkGrant_ok hu hgrant)).trans ?_
  refine (bind_ok (noSlot_ok hu hd)).trans ?_
  refine (bind_ok (readAB_ok hu hab)).trans ?_
  refine (bind_ok (atDispatch_ok hu)).trans ?_
  exact bind_ok hget

/-- A member whose body computes its elements, where an active one has a poisoned source. -/
theorem poisoned_squashes {body : M Unit} {W w : Nat} {os : List Opd} {g : Nat → Option Nat} {e : Nat} {o : Opd}
    (hr : ready i W s = true) (ha : s.cv.active = false) (hk : isChained i = false) (he : act fm s.h e = true) (ho : o ∈ os)
    (hp : o.psn e = true) (hb : body (s.begin i) = (do elementwise fm d w os g; countGroups W : M Unit) (s.begin i)) :
    Entered 0x40 0 s.h.pc s (run i body s) :=
  run_squash_begun ha hk (hb.trans (bind_error (elementwise_poisoned (begun_of_fresh (fresh_of_ready hr)) he ho hp)))
end

/-- A poisoned source a of an active element. -/
theorem poisoned (fm : Form) (d a b : BitVec 5) (f : BitVec 3) (s : State) (e : Nat) :
     let fd := fdValue fm f s.h
     let wa := fmtWidth (fdFA fd)
     let w := max (max wa (fmtWidth (fdFB fd))) (fmtWidth (fdDst fd))
     let squashed := fun (i : Instr) => ready i w s = true → ∃ t, exec i s = .next t ∧ Entered 0x40 0 s.h.pc s t
     noSlots (d :: abOf fm a b) s.h = true → immReserved fm fd = false → s.cv.active = false → act fm s.h e = true →
     (s.h.getV a).eltPsn wa e = true →
     (fdOk { fa := some isFloating, fb := some isFloating, dst := some isFloating, rounds := true } fd = true →
       squashed (.vadd fm d a b f false) ∧ squashed (.vfma fm d a b f false)) ∧
     (fdOk { fa := some isInt, fb := some isInt, dst := some isInt } fd = true → squashed (.viadd fm d a b f false)) := by
  intro fd wa w squashed hs himm ha he hp
  have hchain : isChained (.vadd fm d a b f false) = false ∧ isChained (.vfma fm d a b f false) = false ∧
      isChained (.viadd fm d a b f false) = false := ⟨by rw [isChained_eq]; rfl, by rw [isChained_eq]; rfl, by rw [isChained_eq]; rfl⟩
  obtain ⟨hadd, hfma, hiadd⟩ := hchain
  refine ⟨fun hfd => ⟨fun hr => ⟨_, rfl, ?_⟩, fun hr => ⟨_, rfl, ?_⟩⟩, fun hfd hr => ⟨_, rfl, ?_⟩⟩
  · exact poisoned_squashes (o := .reg (s.h.getV a) wa) hr ha hadd he List.mem_cons_self hp (floatBody_begun hr hs hfd himm)
  · exact poisoned_squashes (o := .reg (s.h.getV a) wa) hr ha hfma he List.mem_cons_self hp (floatBody_begun hr hs hfd himm)
  · exact poisoned_squashes (o := .reg (s.h.getV a) wa) hr ha hiadd he List.mem_cons_self hp (intBody_begun hr hs (by rw [hfd]; rfl) himm)

/-! ## Inputs that are not sorted (R249) -/

/-- An exception of the machine within a body of a continuable member is its exception. -/
theorem lift_error {α : Type} {m : M α} {v t : State} {e : Exc} (h : m v = (.error e, t)) : (liftM m : B α).run v = (.error e, t) := by
  show (do let a ← m; pure (Except.ok a) : M (Except _ α)) v = _
  exact bind_error h

/-- A continuable member that starts afresh and whose inputs squash. -/
theorem continuable_squashed {α : Type} {key : Nat} {d : BitVec 4} {xs : BitVec 6} {prep : Nat × Nat → B α}
    {body : α → Nat × Nat → B (Option Emit)} {fin : M Unit} {u : State} {e : Exc} (hfp : flag u.h.fprog.toNat 63 = false)
    (hprep : ∀ v : State, v.h = u.h.putF d [] → (prep (0, 0)).run v = (.error e, v)) :
    continuable key d xs prep body fin u = (.error e, { u with h := u.h.putF d [], cv := { u.cv with kids := none } }) := by
  unfold continuable
  refine (bind_ok (show getH u = (.ok u.h, u) from rfl)).trans ?_
  rw [hfp]
  refine (bind_ok (show modH (fun h => h.putF d []) u = (.ok (), { u with h := u.h.putF d [] }) from rfl)).trans ?_
  refine (bind_ok (show (modify (fun s : State => { s with cv := { s.cv with kids := none } }) : M PUnit) { u with h := u.h.putF d [] } =
    (Except.ok ⟨⟩, { u with h := u.h.putF d [], cv := { u.cv with kids := none } }) from rfl)).trans ?_
  exact bind_error (bind_error (hprep { u with h := u.h.putF d [], cv := { u.cv with kids := none } } rfl))

theorem getF_putF_other {h : Hart} {d a : BitVec 4} (l : List Pair) (hne : a ≠ d) : (h.putF d l).getF a = h.getF a := by
  unfold Hart.putF
  split
  · rfl
  · show (h.setF d l).getF a = _
    rw [Hart.getF_setF, if_neg hne]

theorem unsorted (fm : Form) (d a b : BitVec 4) (s : State) :
     d ≠ a → d ≠ b → startsAfresh s = true → s.cv.active = false → named (.fmerge fm d a b false) s = true →
     sortedPairs (s.h.getF a) = false →
     ∃ t, exec (.fmerge fm d a b false) s = .next t ∧ Entered 0x68 (BitVec.ofNat 64 a.toNat) s.h.pc s t := by
  intro hda hdb hstart ha hn hsort
  refine ⟨_, rfl, ?_⟩
  generalize hi : Instr.fmerge fm d a b false = i at hn ⊢
  have hk : isChained i = false := by rw [← hi, isChained_eq]; rfl
  have hu := begun_of_fresh (i := i) (s := s) (by unfold named at hn; exact (Bool.and_eq_true _ _ ▸ hn).1)
  have hfp : flag s.h.fprog.toNat 63 = false := by
    unfold startsAfresh at hstart
    rw [flag_toNat]
    simpa using ((Bool.and_eq_true _ _).mp hstart).1
  refine run_squash (k := s.h.putF d []) (cv := { (s.begin i).cv with cont := true, kids := none }) hk hu.pend ?_ ?_ ?_ ?_
  · rw [State.begin_of_idle ha]
  · rw [State.begin_of_idle ha]
  · unfold Hart.putF; split <;> rfl
  · have hcont : Begun s { s.begin i with cv := { (s.begin i).cv with cont := true } } :=
      ⟨by rw [State.begin_of_idle ha], hu.pend, hu.done, hu.popped, hu.cut⟩
    have hsecond : checkSecond i (s.begin i) = (.ok (), { s.begin i with cv := { (s.begin i).cv with cont := true } }) := by
      unfold checkSecond
      refine (bind_ok (show (get : M State) (s.begin i) = (.ok (s.begin i), s.begin i) from rfl)).trans ?_
      rw [State.begin_of_idle ha]
      rfl
    have hcheck : setOpCheck i 0x30 d a b (fun _ => true) 0 (s.begin i) =
        (.ok (), { s.begin i with cv := { (s.begin i).cv with cont := true } }) := by
      unfold setOpCheck
      refine (bind_ok (checkNamed_named hu hn)).trans ?_
      refine (bind_ok (checkFd_ok rfl)).trans ?_
      refine (bind_ok hsecond).trans ?_
      rw [decide_eq_false hda, decide_eq_false hdb, Bool.or_self, if_neg Bool.false_ne_true]
      unfold checkKey
      refine (bind_ok (show getH _ = (.ok (s.begin i).h, { s.begin i with cv := { (s.begin i).cv with cont := true } }) from rfl)).trans ?_
      rw [hu.h_eq, hfp]
      rfl
    unfold fmergeBody
    refine (bind_ok hcheck).trans ?_
    unfold setOpBody
    refine (bind_ok (atDispatch_ok hcont)).trans ?_
    refine (bind_ok (show getH _ = (.ok (s.begin i).h, { s.begin i with cv := { (s.begin i).cv with cont := true } }) from rfl)).trans ?_
    refine (continuable_squashed (e := .trap { kind := .squash, code := 0x68, tval := BitVec.ofNat 64 a.toNat }) (by rw [hu.h_eq]; exact hfp) fun v hv => ?_).trans ?_
    · refine bind_error (lift_error (m := checkSorted a) ?_)
      unfold checkSorted
      refine (bind_ok (show getH v = (.ok v.h, v) from rfl)).trans ?_
      rw [hv, hu.h_eq, getF_putF_other [] hda.symm, hsort]
      rfl
    · rw [hu.h_eq, State.begin_of_idle ha]

end Sys2Proof.Words
end

section
/-! # Members that stop part-way (R110, R116, R137) -/

namespace Sys2Proof.Words
open Sys2Proof Sys2Proof.Machine Sys2Proof.Claims Sys2Proof.Laws Sys2Proof.Together

/-! ## Lists in rising order -/

theorem rising_eltsOf (fm : Form) (h : Hart) : (eltsOf fm h).Pairwise (· < ·) := List.pairwise_lt_range.filter _

theorem rising_split {l : List Nat} {n : Nat} (hl : l.Pairwise (· < ·)) (hn : n ∈ l) :
    ∃ below above, l = below ++ n :: above ∧ (∀ e ∈ below, e < n) ∧ ∀ e ∈ above, n < e := by
  obtain ⟨below, above, rfl⟩ := List.append_of_mem hn
  obtain ⟨-, habove, hbelow⟩ := List.pairwise_append.1 hl
  exact ⟨below, above, rfl, fun e he => hbelow e he n List.mem_cons_self, (List.pairwise_cons.1 habove).1⟩

/-! ## A member under way -/

/-- An access whose entry shows it already: that it is made changes no byte (R135). -/
def Still (s : State) (m : TlbEntry × Bool) : Prop :=
  Plain s m.1.pte 0 ∧ s.rawRead m.1.pte 8 ||| (if m.2 then 0x180 else 0x80) = s.rawRead m.1.pte 8

/-- A state in which a member executes that has changed nothing yet but vector registers and what the convoy carries of it. -/
structure Amid (i : Instr) (s u : State) : Prop where
  eq : u = aside u.cv u.h0 u.h u.free s
  hart : u.h = { s.h with v := u.h.v, vdirty := u.h.vdirty, vlive := u.h.vlive }
  cv : u.cv = { (s.begin i).cv with marks := u.cv.marks, done := u.cv.done }
  marks : ∀ m ∈ u.cv.marks, Still s m

theorem amid_begin {i : Instr} {s : State} (hf : fresh i s = true) (hk : isChained i = false) : Amid i s (s.begin i) where
  eq := by unfold State.begin; split <;> rfl
  hart := by rw [State.begin_h]
  cv := rfl
  marks m hm := by rw [fresh_marks hf hk] at hm; exact absurd hm List.not_mem_nil

theorem marks_still {s : State} {l : List (TlbEntry × Bool)} (h : ∀ m ∈ l, Still s m) : l.foldl (fun s m => s.setAccDrt m.1 m.2) s = s := by
  induction l with
  | nil => rfl
  | cons m l ih =>
    obtain ⟨hp, hbits⟩ := h m List.mem_cons_self
    rw [List.foldl_cons, setAccDrt_still hp hbits]
    exact ih fun x hx => h x (List.mem_cons_of_mem _ hx)

/-- A member has stopped with a trap at element `n` that its convoy resumes from, and `done` says what is finished (R110). -/
structure Stopped (i : Instr) (s u : State) (code : Nat) (tval : DWord) (n : Nat) (t : State) : Prop where
  cause : t.h.cause = { int := false, acode := 0, code := BitVec.ofNat 8 code }
  tval : t.h.tval = tval
  epc : t.h.epc.toNat = (s.begin i).cv.base.toNat % 2 ^ 57 / 4 * 4
  pc : t.h.pc = s.h.tvec
  ves : t.h.ves = { rst := true, cm := BitVec.ofNat 2 (s.begin i).cv.idx, idx := BitVec.ofNat 12 n }
  vcm : t.h.vcm = u.cv.done
  rest : RestSameC s t
  getV : ∀ r, t.h.getV r = u.h.getV r
  getX : ∀ r, t.h.getX r = s.h.getX r

theorem run_stopped {i : Instr} {body : M Unit} {s u : State} {code n : Nat} {tval : DWord} (hf : fresh i s = true)
    (hk : isChained i = false) (hu : Amid i s u)
    (hb : body (s.begin i) = (.error (.trap { kind := .restartable, code := code, tval := tval, idx := n }), u)) :
    Stopped i s u code tval n (run i body s) := by
  have hpend : u.cv.pend = false := by rw [hu.cv]; exact (begun_of_fresh hf).pend
  have hbase : u.cv.base = (s.begin i).cv.base := by rw [hu.cv]
  have hidx : u.cv.idx = (s.begin i).cv.idx := by rw [hu.cv]
  let k : Hart := { u.h.undoPops (s.begin i).h with
    ves := { rst := true, cm := BitVec.ofNat 2 u.cv.idx, idx := BitVec.ofNat 12 n }, vcm := u.cv.done }
  have hclose : State.endExc i u (.trap { kind := .restartable, code := code, tval := tval, idx := n }) (·.undoPops (s.begin i).h) =
      State.close { u with ended := .trapped .restartable, h := k.enter false 0 code tval u.cv.base } := by
    unfold State.endExc State.endMember
    simp only [hpend, hk, reduceCtorEq, Bool.false_eq_true, if_false]
    rfl
  have hmarks : u.cv.marks.foldl (fun s m => s.setAccDrt m.1 m.2)
      { u with ended := .trapped .restartable, h := k.enter false 0 code tval u.cv.base } = _ :=
    marks_still fun m hm => by
      obtain ⟨hp, hbits⟩ := hu.marks m hm
      rw [hu.eq]
      exact ⟨⟨hp.key_eq, hp.psn, hp.ecc, hp.eccTag, hp.sram, hp.tag, hp.tagXor, hp.hbm⟩, hbits⟩
  have hrun : run i body s = State.idle { u with ended := .trapped .restartable, h := k.enter false 0 code tval u.cv.base } := by
    rw [run_error hb, ← hmarks]
    exact hclose
  rw [hrun]
  refine ⟨rfl, rfl, ?_, ?_, ?_, rfl, ?_, fun _ => rfl, fun r => ?_⟩
  · rw [← hbase]
    exact toNat_and_field u.cv.base _ 2 55 rfl
  · show u.h.tvec = _
    rw [hu.hart]
  · rw [← hidx]; rfl
  · rw [hu.eq]
    exact ⟨fun _ => rfl, rfl⟩
  · show u.h.getX r = _
    rw [hu.hart]
    rfl

/-! ## An element that needs the assist (R116, R158) -/

/-- The elements that are finished when element `n` needs the assist: those below it, and of the others an open choice. -/
def finishedAt (n pick : Nat) (l : List Nat) : List Nat := l.filter fun e => decide (e < n) || pick.testBit e

/-- The state in which a member stops for the assist. -/
def assisted (d : BitVec 5) (w : Nat) (l : List (Nat × Nat)) (u : State) : State :=
  { u with h := wrote d w l u.h, free := u.free + 1, cv := { u.cv with done := l.foldl (fun b x => setBit b x.1 true) u.cv.done } }

section
variable {n : Nat} {l : List Nat} {f : Nat → Option Nat}

theorem find_lowest (hl : l.Pairwise (· < ·)) (hn : n ∈ l) (hnone : (f n).isNone = true) (hlow : ∀ e < n, e ∈ l → (f e).isSome = true) :
    (l.map fun e => (e, f e)).find? (·.2.isNone) = some (n, f n) := by
  obtain ⟨below, above, rfl, hbelow, -⟩ := rising_split hl hn
  rw [List.map_append, List.map_cons, List.find?_append, List.find?_eq_none.2]
  · exact List.find?_cons_of_pos (p := fun x : Nat × Option Nat => x.2.isNone) hnone
  · intro x hx
    obtain ⟨e, he, rfl⟩ := List.mem_map.1 hx
    have hs := hlow e (hbelow e he) (List.mem_append_left _ he)
    simp [Option.isSome_iff_ne_none.1 hs]

theorem finishElts_assist {d : BitVec 5} {w : Nat} (u : State) (hl : l.Pairwise (· < ·)) (hn : n ∈ l) (hnone : (f n).isNone = true)
    (hlow : ∀ e < n, e ∈ l → (f e).isSome = true) : ∃ pick, finishElts d w (l.map fun e => (e, f e)) u =
      (.error (.trap { kind := .restartable, code := 0x50, tval := u.h.pc, idx := n }), assisted d w (results (finishedAt n pick l) f) u) := by
  refine ⟨Config.freeNat u.free, ?_⟩
  have hdone : ((l.map fun e => (e, f e)).filter fun x => decide (x.1 < n) || (Config.freeNat u.free).testBit x.1).filterMap
      (fun x => x.2.map (x.1, ·)) = results (finishedAt n (Config.freeNat u.free) l) f := by
    rw [List.filter_map, List.filterMap_map]
    rfl
  have hpc : (wrote d w (results (finishedAt n (Config.freeNat u.free) l) f) u.h).pc = u.h.pc := by rw [wrote_eq]
  unfold finishElts
  rw [find_lowest hl hn hnone hlow]
  dsimp only
  rw [← hpc, ← hdone]
  rfl

theorem getLsbD_assisted {pick e : Nat} : ((results (finishedAt n pick l) f).foldl (fun b x => setBit b x.1 true) (0 : BitVec 2048)).getLsbD e = true ↔
    e < 2048 ∧ e ∈ l ∧ (f e).isSome = true ∧ (e < n ∨ pick.testBit e = true) := by
  have hmap := List.foldl_map (f := (·.1)) (g := fun (b : BitVec 2048) j => setBit b j true) (l := results (finishedAt n pick l) f) (init := 0)
  have hzero : (0 : BitVec 2048).getLsbD e = false := BitVec.getLsbD_zero
  rw [← hmap, getLsbD_setAll, fst_results, hzero, ite_eq_iff]
  simp only [finishedAt, List.filter_filter, List.mem_filter, Bool.and_eq_true, Bool.or_eq_true, decide_eq_true_eq, Bool.false_eq_true,
    and_false, or_false, and_true]
end

/-- A member of which an active element needs the assist, the lowest at `n`. -/
theorem elementwise_assist {i : Instr} {s : State} {fm : Form} {d : BitVec 5} {w W n : Nat} {os : List Opd} {f : Nat → Option Nat}
    {body : M Unit} (hready : ready i W s = true) (hk : isChained i = false) (hw : wholeBytes w) (hW : w ≤ W)
    (hc : ∀ e, act fm s.h e = true → ∀ o ∈ os, o.psn e = false) (hn : act fm s.h n = true) (hnone : (f n).isNone = true)
    (hlow : ∀ e < n, act fm s.h e = true → (f e).isSome = true)
    (hb : body (s.begin i) = (do elementwise fm d w os f; countGroups W : M Unit) (s.begin i)) :
    ∃ u, Stopped i s u 0x50 s.h.pc n (run i body s) ∧ u.cv.done.getLsbD n = false ∧ (∀ r, r ≠ d → u.h.getV r = s.h.getV r) ∧
      ∀ e < n, act fm s.h e = true → u.cv.done.getLsbD e = true ∧ (f e).map (· % 2 ^ w) = some ((u.h.getV d).elt w e) := by
  unfold ready named at hready
  simp only [Bool.and_eq_true, decide_eq_true_eq] at hready
  obtain ⟨⟨hf, -⟩, hgrant⟩ := hready
  have hu := begun_of_fresh hf
  obtain ⟨pick, hfin⟩ := finishElts_assist (d := d) (w := w) (f := f) (s.begin i) (rising_eltsOf fm s.h) (mem_eltsOf.2 hn) hnone
    fun e he hm => hlow e he (mem_eltsOf.1 hm)
  generalize hL : finishedAt n pick (eltsOf fm s.h) = L at hfin
  rw [hu.h_eq] at hfin
  have hrun : body (s.begin i) = (.error (.trap { kind := .restartable, code := 0x50, tval := s.h.pc, idx := n }),
      assisted d w (results L f) (s.begin i)) := by
    refine hb.trans (bind_error ?_)
    unfold elementwise
    refine (bind_ok (show getH (s.begin i) = (.ok (s.begin i).h, s.begin i) from rfl)).trans ?_
    rw [hu.h_eq]
    refine (bind_ok (todo_ok hu fm _)).trans ?_
    exact (bind_ok (cleanElts_ok fun e he => hc e (mem_eltsOf.1 he))).trans hfin
  have hamid : Amid i s (assisted d w (results L f) (s.begin i)) := by
    obtain ⟨-, hhart, -, hmarks⟩ := amid_begin hf hk
    refine ⟨?_, ?_, rfl, hmarks⟩
    · unfold assisted; rw [begin_eq i s]; rfl
    · unfold assisted
      rw [← hu.h_eq]
      exact wrote_eq d w _ (s.begin i).h
  have hdone : ∀ e, (assisted d w (results L f) (s.begin i)).cv.done.getLsbD e = true ↔
      e < 2048 ∧ e ∈ eltsOf fm s.h ∧ (f e).isSome = true ∧ (e < n ∨ pick.testBit e = true) := fun e => by
    rw [← getLsbD_assisted, hL]
    show ((results L f).foldl (fun b x => setBit b x.1 true) (s.begin i).cv.done).getLsbD e = true ↔ _
    rw [hu.done]
  have hgetV : ∀ r, (assisted d w (results L f) (s.begin i)).h.getV r = if r = d then putElts w (results L f) (s.h.getV d) else s.h.getV r :=
    fun r => by rw [← hu.h_eq]; exact getV_wrote ..
  refine ⟨_, run_stopped hf hk hamid hrun, ?_, fun r hr => (hgetV r).trans (if_neg hr), fun e he hact => ?_⟩
  · rw [Bool.eq_false_iff, Ne, hdone]
    rintro ⟨-, -, hsome, -⟩
    rw [Option.isNone_iff_eq_none.1 hnone] at hsome
    cases hsome
  · have hsome := hlow e he hact
    have hvl : e < s.h.vl.toNat := by rw [act, Bool.and_eq_true, decide_eq_true_eq] at hact; exact hact.1
    have h8 : 8 ≤ W := by obtain ⟨k, rfl⟩ := hw; omega
    have := grant_le s.h h8
    refine ⟨(hdone e).2 ⟨by omega, mem_eltsOf.2 hact, hsome, .inl he⟩, ?_⟩
    obtain ⟨x, hx⟩ := Option.isSome_iff_exists.1 hsome
    have hL' : ∀ a ∈ L, a ∈ eltsOf fm s.h := fun a ha => by rw [← hL] at ha; exact (List.mem_filter.1 ha).1
    have hmem : (e, x) ∈ results L f := mem_results.2 ⟨by rw [← hL]; exact List.mem_filter.2 ⟨mem_eltsOf.2 hact, by simp [he]⟩, hx⟩
    have hnd : ((results L f).map (·.1)).Nodup := nodup_results (by rw [← hL]; exact (nodup_eltsOf fm s.h).filter _) f
    have hput := putElts_mem hw (results L f) (s.h.getV d) hnd (fun y hy => ?_) hmem
    · rw [hgetV, if_pos rfl, hput.1, hx]; rfl
    · have hya := mem_eltsOf.1 (hL' _ (mem_results.1 hy).1)
      rw [act, Bool.and_eq_true, decide_eq_true_eq] at hya
      exact elt_fits hgrant hW hya.1

/-- A square root that needs the assist. -/
theorem assists (fm : Form) (d a : BitVec 5) (f : BitVec 3) (s : State) (n : Nat) :
     let fd := fdValue fm f s.h
     let wa := fmtWidth (fdFA fd)
     let wd := fmtWidth (fdDst fd)
     let res := fun e => match sourceVal fd (fdDst fd) (fdFA fd) ((s.h.getV a).elt wa e) with
       | some x => (RCtx.mk fd s.h.sseed s.h.sbase).round (fdDst fd) e x.sqrt
       | none => none
     fdOk { fa := some isFloating, dst := some isFloating, rounds := true } fd = true →
     ready (.vsqrt fm d a f false) (max wa wd) s = true → noSlots [d, a] s.h = true → cleanAt fm s.h [(a, wa)] = true →
     s.cv.active = false → act fm s.h n = true → (res n).isNone = true →
     (∀ e < n, act fm s.h e = true → (res e).isSome = true) →
     ∃ t, exec (.vsqrt fm d a f false) s = .next t ∧ t.h.cause = { int := false, acode := 0, code := 0x50 } ∧ t.h.tval = s.h.pc ∧
       t.h.epc.toNat = s.h.pc.toNat % 2 ^ 57 / 4 * 4 ∧ t.h.pc = s.h.tvec ∧
       t.h.ves = { rst := true, cm := 0, idx := BitVec.ofNat 12 n } ∧ t.h.vcm.getLsbD n = false ∧ RestSameC s t ∧
       (∀ r, r ≠ d → t.h.getV r = s.h.getV r) ∧
       ∀ e < n, act fm s.h e = true → t.h.vcm.getLsbD e = true ∧ (res e).map (· % 2 ^ wd) = some ((t.h.getV d).elt wd e) := by
  intro fd wa wd res hfd hr hs hclean ha hn hnone hlow
  have hres : res = unaryRes fd a Val.sqrt s.h := by
    funext e
    show (match sourceVal fd (fdDst fd) (fdFA fd) ((s.h.getV a).elt wa e) with | some x => _ | none => _) = _
    unfold unaryRes
    cases sourceVal fd (fdDst fd) (fdFA fd) ((s.h.getV a).elt (fmtWidth (fdFA fd)) e) <;> rfl
  rw [hres] at hnone hlow ⊢
  obtain ⟨u, hstop, hdn, hother, hbelow⟩ := elementwise_assist (os := [.reg (s.h.getV a) wa]) hr (by rw [isChained_eq]; rfl)
    (wholeBytes_float (fdOk_dst rfl hfd)) (le_max_right _ _)
    (fun e he o ho => by rw [List.mem_singleton.1 ho]; exact cleanAt_iff hclean he _ List.mem_cons_self) hn hnone hlow
    (unaryBody_begun (op := Val.sqrt) hr hs hfd)
  have hbeg := State.begin_of_idle (i := .vsqrt fm d a f false) ha
  refine ⟨_, rfl, hstop.cause, hstop.tval, ?_, hstop.pc, ?_, ?_, hstop.rest, fun r hr => (hstop.getV r).trans (hother r hr), fun e he hact => ?_⟩
  · rw [hstop.epc, hbeg]
  · rw [hstop.ves, hbeg]; rfl
  · rw [hstop.vcm]; exact hdn
  · rw [hstop.vcm, hstop.getV]; exact hbelow e he hact

end Sys2Proof.Words
end

section
/-! # Loads of which an element is denied (R125, R137) -/

namespace Sys2Proof.Words
open Sys2Proof Sys2Proof.Machine Sys2Proof.Claims Sys2Proof.Laws Sys2Proof.Together

/-! ## One element -/

theorem leNat_lt (l : List Byte) : leNat l < 256 ^ l.length := by
  induction l with
  | nil => exact Nat.one_pos
  | cons b l ih =>
    show b.toNat + 256 * leNat l < 256 ^ (l.length + 1)
    rw [Nat.pow_succ]
    have := b.isLt
    omega

theorem elt_setBytes_same {r : VReg} {w e : Nat} (bs : List (Byte × Bool)) (h : (e + 1) * w ≤ 16384) :
    (r.setBytes w e bs).elt w e = leNat (bs.map (·.1)) % 2 ^ w := VReg.elt_setElt_same r w e _ false h

theorem elt_setBytes_other {r : VReg} {w e f : Nat} (bs : List (Byte × Bool)) (h : f ≠ e) : (r.setBytes w e bs).elt w f = r.elt w f :=
  VReg.elt_setElt_other r w e f _ false h

theorem readPiece_vector {t : State} {w : Who} {x : DWord} {pa key n : Nat} (h : Plain t pa key) (hrx : t.inRx w.asn pa x.toNat = false)
    (hn : pa % 64 + n ≤ 64) (hearly : t.h.early = []) (hpend : t.h.pendingOf .vector = []) :
    readPiece .vector w x (pa, key, n) t = (.ok ((cellsRead t.mem pa n).map fun b => (b, false)), t) := by
  unfold readPiece
  refine (bind_ok (takeEarly_none hearly ..)).trans ?_
  dsimp only
  refine (bind_ok (show getH t = (.ok t.h, t) from rfl)).trans ?_
  refine (bind_ok (show (get : M State) t = (.ok t, t) from rfl)).trans ?_
  rw [hpend, loadSector_clean h hrx hn]
  rfl

/-- What an access that reads without an event is: its translation, and what stands there. -/
theorem readsAs_some {s : State} {va : DWord} {n x : Nat} (h : readsAs s false va n = some x) :
    ∃ e, s.h.early = [] ∧ cachedAs s va.toNat = some e ∧ Maps s va.toNat .read e s.tlb ∧ Still s (e, false) ∧
      va.toNat % 64 + n ≤ 64 ∧ paBy e va.toNat % 64 = va.toNat % 64 ∧ cleanSector s va.toNat (paBy e va.toNat) (leafKey e.leaf.toNat) = true ∧
      leNat (cellsRead s.mem (paBy e va.toNat) n) = x := by
  unfold readsAs at h
  obtain ⟨he, h⟩ := Option.ite_none_left_eq_some.1 h
  rw [if_neg Bool.false_ne_true] at h
  cases hm : mapsStill s va.toNat .read with
  | none => rw [hm] at h; cases h
  | some p =>
    obtain ⟨pa, key⟩ := p
    rw [hm] at h
    dsimp only at h
    obtain ⟨hq, hval⟩ := Option.ite_none_right_eq_some.1 h
    rw [Bool.and_eq_true, decide_eq_true_eq] at hq
    obtain ⟨e, hc, hmaps, rfl, rfl, hal, hbits, -⟩ := mapsStill_maps hm
    exact ⟨e, by simpa using he, hc, hmaps, ⟨hmaps.pte, hbits⟩, hq.1, hal, hq.2, Option.some.inj hval⟩

/-- The hart with an element of a register loaded. -/
def loadedAt (v : BitVec 5) (w e : Nat) (bs : List (Byte × Bool)) (h : Hart) : Hart := (h.setV v ((h.getV v).setBytes w e bs)).dirty (vBit v)

/-- A member under way has loaded the elements `L` of register `v`. -/
structure Loading (i : Instr) (s : State) (v : BitVec 5) (w : Nat) (reads : Nat → Option Nat) (L : List Nat) (u : State) : Prop
    extends Amid i s u where
  done : ∀ e < 2048, u.cv.done.getLsbD e = true ↔ e ∈ L
  here : ∀ e ∈ L, reads e = some ((u.h.getV v).elt w e)
  there : ∀ e, e ∉ L → (u.h.getV v).elt w e = (s.h.getV v).elt w e
  other : ∀ r, r ≠ v → u.h.getV r = s.h.getV r

section
variable {i : Instr} {s u : State} {v : BitVec 5} {n : Nat} {addr : Nat → DWord} {L : List Nat}

theorem plain_aside {pa key : Nat} (h : Plain s pa key) {c : Convoy} {g k : Hart} {m : Nat} : Plain (aside c g k m s) pa key :=
  ⟨h.key_eq, h.psn, h.ecc, h.eccTag, h.sram, h.tag, h.tagXor, h.hbm⟩

theorem Amid.who (hu : Amid i s u) : u.who u.h = s.who s.h := by
  rw [hu.eq]
  show s.who u.h = _
  rw [hu.hart]
  rfl

/-- What a translation cache gives is not changed by a member under way. -/
theorem Amid.maps (hu : Amid i s u) {va : Nat} {k : Acc} {e : TlbEntry} (hc : cachedAs s va = some e) (h : Maps s va k e s.tlb) :
    Maps u va k e u.tlb := by
  have hcu : cachedAs u va = some e := by
    rw [← hc, hu.eq]
    show (s.tlb.find? fun x => x.core == u.h.id.core && x.asn == u.h.asn && x.va ≤ va && va < x.va + x.size) = _
    rw [hu.hart]
    rfl
  refine ⟨lookup_cached hcu, h.below, ?_, ?_⟩
  · rw [hu.eq]
    exact plain_aside h.pte
  · have hprv : u.h.status = s.h.status := by rw [hu.hart]
    have hasn : u.h.asn = s.h.asn := by rw [hu.hart]
    have hperm := h.perm
    rw [← hprv, ← hasn] at hperm
    rw [hu.eq]
    exact hperm

/-- The member makes an access that changes no byte. -/
theorem Amid.marking (hu : Amid i s u) {e : TlbEntry} (h : Still s (e, false)) :
    Amid i s (carrying (marking e false u.cv) u.h0 u) := by
  refine ⟨?_, hu.hart, ?_, fun m hm => ?_⟩
  · rw [hu.eq]; rfl
  · unfold carrying Together.marking
    rw [hu.cv]
  · rcases List.mem_append.1 hm with hm | hm
    · exact hu.marks m hm
    · rw [List.mem_singleton.1 hm]; exact h

theorem Amid.find (hu : Amid i s u) {va : DWord} {e : TlbEntry} (hc : cachedAs s va.toNat = some e) (h : Maps s va.toNat .read e s.tlb)
    (hn : 0 < n) (h64 : va.toNat % 64 + n ≤ 64) : targetOf false va n .read u =
      (.ok (.ok (.glob [(paBy e va.toNat, leafKey e.leaf.toNat, n)])), carrying (Together.marking e false u.cv) u.h0 u) := by
  have hfind : findAll (u.who u.h) .read [(va.toNat, n)] u = (.ok (.ok [(paBy e va.toNat, leafKey e.leaf.toNat, n)]), _) :=
    (hu.maps hc h).findAll (fun h => absurd h Bool.false_ne_true) u.cv u.h0 0x40
  unfold targetOf
  rw [if_neg Bool.false_ne_true]
  refine (bind_ok (show whoM u = (.ok (u.who u.h), u) from rfl)).trans ?_
  rw [piecesOf_one hn h64]
  exact bind_ok hfind

/-- One piece in a sector that reads without an event. -/
theorem Amid.loadTarget (hu : Amid i s u) {va : DWord} {m pa key : Nat} (hearly : s.h.early = []) (hpend : s.h.pendingOf .vector = [])
    (hclean : cleanSector s va.toNat pa key = true) (hn : pa % 64 + n ≤ 64) :
    loadTarget va m (.glob [(pa, key, n)]) 0 u = (.ok ((cellsRead s.mem pa n).map fun b => (b, false)), u) := by
  unfold cleanSector at hclean
  rw [Bool.and_eq_true, Bool.not_eq_true'] at hclean
  obtain ⟨hplain, hrx⟩ := hclean
  have hearlyU : u.h.early = [] := by rw [hu.hart]; exact hearly
  have hread : readPiece .vector { u.who u.h with psnCause := 0 } va (pa, key, n) u = (.ok ((cellsRead u.mem pa n).map fun b => (b, false)), u) := by
    refine readPiece_vector ?_ ?_ hn hearlyU (by rw [hu.hart]; exact hpend)
    · rw [hu.eq]; exact plain_aside (plain_of hplain)
    · rw [← hrx, hu.eq]
      show s.inRx u.h.asn _ _ = _
      rw [hu.hart]
  have hmem : u.mem = s.mem := by rw [hu.eq]; rfl
  rw [hmem] at hread
  unfold Machine.loadTarget
  refine (bind_ok (show getH u = (.ok u.h, u) from rfl)).trans ?_
  dsimp only
  refine (bind_ok (show whoM u = (.ok (u.who u.h), u) from rfl)).trans ?_
  rw [if_neg (by rw [hearlyU, List.isEmpty_nil, Bool.not_true, Bool.and_false]; exact Bool.false_ne_true), List.mapM_cons, List.mapM_nil]
  refine (bind_ok ((bind_ok hread).trans rfl)).trans ?_
  rw [List.flatten_singleton]
  rfl

/-- The state after an element is loaded and marked as finished. -/
def stepped (v : BitVec 5) (w e : Nat) (bs : List (Byte × Bool)) (t : State) : State :=
  { t with h := loadedAt v w e bs t.h, cv := { t.cv with done := setBit t.cv.done e true } }

theorem getV_loadedAt {w e : Nat} {bs : List (Byte × Bool)} {h : Hart} (r : BitVec 5) :
    (loadedAt v w e bs h).getV r = if r = v then (h.getV v).setBytes w e bs else h.getV r := by
  unfold loadedAt
  rw [Hart.getV_dirty, Hart.getV_setV]

theorem Amid.stepped (hu : Amid i s u) {w e : Nat} {bs : List (Byte × Bool)} : Amid i s (stepped v w e bs u) := by
  refine ⟨?_, ?_, ?_, hu.marks⟩
  · unfold Words.stepped; rw [hu.eq]; rfl
  · unfold Words.stepped loadedAt; rw [hu.hart]; rfl
  · unfold Words.stepped; rw [hu.cv]

/-- An element more is loaded. -/
theorem Loading.stepped {w e x : Nat} {reads : Nat → Option Nat} {bs : List (Byte × Bool)} {t : State} (hu : Loading i s v w reads L u)
    (ht : Amid i s t) (hh : t.h = u.h) (hd : t.cv.done = u.cv.done) (hfit : (e + 1) * w ≤ 16384) (hx : reads e = some x)
    (hbs : leNat (bs.map (·.1)) % 2 ^ w = x) : Loading i s v w reads (e :: L) (stepped v w e bs t) := by
  have hgv : (Words.stepped v w e bs t).h.getV v = (u.h.getV v).setBytes w e bs := by
    rw [← hh]; exact (getV_loadedAt v).trans (if_pos rfl)
  refine ⟨ht.stepped, fun f hf => ?_, fun f hf => ?_, fun f hf => ?_, fun r hr => ?_⟩
  · show (setBit t.cv.done e true).getLsbD f = true ↔ _
    rw [getLsbD_setBit_true _ hf, hd, List.mem_cons, or_comm]
    exact or_congr Iff.rfl (hu.done f hf)
  · rw [hgv]
    by_cases hfe : f = e
    · rw [hfe, elt_setBytes_same bs hfit, hbs, hx]
    · rw [elt_setBytes_other bs hfe]
      exact hu.here f ((List.mem_cons.1 hf).resolve_left hfe)
  · rw [List.mem_cons, not_or] at hf
    rw [hgv, elt_setBytes_other bs hf.1]
    exact hu.there f hf.2
  · rw [← hu.other r hr, ← hh]
    exact (getV_loadedAt r).trans (if_neg hr)

/-- An element that reads without an event is found, read and loaded. -/
theorem Loading.step (hu : Loading i s v (8 * n) (fun e => readsAs s false (addr e) n) L u) {e : Nat}
    (hpend : s.h.pendingOf .vector = []) (hn : 0 < n) (hfit : (e + 1) * (8 * n) ≤ 16384)
    (hr : (readsAs s false (addr e) n).isSome = true) :
    ∃ tgt t u', targetOf false (addr e) n .read u = (.ok (.ok tgt), t) ∧ loadElem v (8 * n) e (addr e) tgt t = (.ok (), u') ∧
      Loading i s v (8 * n) (fun e => readsAs s false (addr e) n) (e :: L) u' := by
  obtain ⟨x, hx⟩ := Option.isSome_iff_exists.1 hr
  obtain ⟨p, hearly, hcached, hmaps, hstill, h64, hal, hclean, hval⟩ := readsAs_some hx
  have ht := hu.toAmid.marking hstill
  have hload := ht.loadTarget (m := 8 * n / 8) hearly hpend hclean (n := n) (by omega)
  have hbs : leNat (((cellsRead s.mem (paBy p (addr e).toNat) n).map fun b => (b, false)).map (·.1)) % 2 ^ (8 * n) = x := by
    have hlen : (cellsRead s.mem (paBy p (addr e).toNat) n).length = n := by simp [cellsRead]
    have hlt := leNat_lt (cellsRead s.mem (paBy p (addr e).toNat) n)
    rw [hlen, show 256 ^ n = 2 ^ (8 * n) from by rw [Nat.pow_mul]] at hlt
    rw [List.map_map, ← hval]
    exact (congrArg (leNat · % _) (List.map_id _)).trans (Nat.mod_eq_of_lt hlt)
  refine ⟨_, _, _, hu.toAmid.find hcached hmaps hn h64, ?_, hu.stepped ht rfl rfl hfit hx hbs⟩
  unfold loadElem
  exact bind_ok hload

/-- A denied element is found to be, and nothing changes. -/
theorem Amid.denied (hu : Amid i s u) {va : DWord} {c : Nat} (hn : 0 < n) (h : deniedBy s va.toNat .read = some c) :
    targetOf false va n .read u = (.ok (.error (.cause c)), u) := by
  have hd : deniedBy u va.toNat .read = some c := by
    have hw : (aside u.cv u.h0 u.h u.free s).who u.h = s.who s.h := by rw [← hu.eq]; exact hu.who
    have := deniedBy_aside h u.cv u.h0 u.h u.free hw
    rwa [← hu.eq] at this
  unfold targetOf
  rw [if_neg Bool.false_ne_true]
  refine (bind_ok (show whoM u = (.ok (u.who u.h), u) from rfl)).trans ?_
  exact bind_ok (findAll_denied hd hn 0x40)

/-! ## All of them -/

/-- What the elements above a denied one come to: some of those that can be read are loaded. -/
theorem Loading.above (hu : Loading i s v (8 * n) (fun e => readsAs s false (addr e) n) L u) (hpend : s.h.pendingOf .vector = [])
    (hn : 0 < n) (pick : Nat) (l : List Nat) (hfit : ∀ e ∈ l, (e + 1) * (8 * n) ≤ 16384)
    (hl : ∀ e ∈ l, (readsAs s false (addr e) n).isSome = true ∨ (deniedBy s (addr e).toNat .read).isSome = true) :
    ∃ L' u', loadAbove false v (8 * n) pick (l.map fun e => (e, addr e)) u = (.ok (), u') ∧
      Loading i s v (8 * n) (fun e => readsAs s false (addr e) n) L' u' ∧ L ⊆ L' ∧ ∀ e ∈ L', e ∈ L ∨ e ∈ l := by
  induction l generalizing L u with
  | nil => exact ⟨L, u, rfl, hu, fun _ h => h, fun _ h => .inl h⟩
  | cons e l ih =>
    have hfit' := fun f hf => hfit f (List.mem_cons_of_mem e hf)
    have hl' := fun f hf => hl f (List.mem_cons_of_mem e hf)
    rw [List.map_cons]
    unfold loadAbove
    rw [Nat.mul_div_cancel_left n (by decide : 0 < 8)]
    have hskip : ∃ L' u', loadAbove false v (8 * n) pick (l.map fun e => (e, addr e)) u = (.ok (), u') ∧
        Loading i s v (8 * n) (fun e => readsAs s false (addr e) n) L' u' ∧ L ⊆ L' ∧ ∀ f ∈ L', f ∈ L ∨ f ∈ e :: l := by
      obtain ⟨L', u', hrun, hload, hsub, hmem⟩ := ih hu hfit' hl'
      exact ⟨L', u', hrun, hload, hsub, fun f hf => (hmem f hf).imp_right (List.mem_cons_of_mem e)⟩
    cases hpick : pick.testBit e with
    | false => exact hskip
    | true =>
      rcases hl e List.mem_cons_self with hr | hd
      · obtain ⟨tgt, t, u1, htgt, hload, hu1⟩ := hu.step hpend hn (hfit e List.mem_cons_self) hr
        obtain ⟨L', u', hrun, hload', hsub, hmem⟩ := ih hu1 hfit' hl'
        refine ⟨L', u', ?_, hload', fun f hf => hsub (List.mem_cons_of_mem e hf), fun f hf => ?_⟩
        · rw [if_pos rfl]
          exact (bind_ok htgt).trans ((bind_ok hload).trans hrun)
        · rcases hmem f hf with hf | hf
          · exact (List.mem_cons.1 hf).elim (fun h => .inr (h ▸ List.mem_cons_self)) .inl
          · exact .inr (List.mem_cons_of_mem e hf)
      · obtain ⟨c, hc⟩ := Option.isSome_iff_exists.1 hd
        obtain ⟨L', u', hrun, hrest⟩ := hskip
        refine ⟨L', u', ?_, hrest⟩
        rw [if_pos rfl]
        exact (bind_ok (hu.toAmid.denied hn hc)).trans hrun

theorem Amid.cutHere (hu : Amid i s u) (hf : fresh i s = true) (e : Nat) : cutHere e u = (.ok false, u) := by
  have hcut : u.cv.cut = none := by rw [hu.cv]; exact (begun_of_fresh hf).cut
  unfold Machine.cutHere
  refine (bind_ok (show (get : M State) u = (.ok u, u) from rfl)).trans ?_
  rw [hcut]
  rfl

/-- The elements of a load, the lowest that cannot be read at `m`. -/
theorem Loading.elems (hu : Loading i s v (8 * n) (fun e => readsAs s false (addr e) n) L u) (hf : fresh i s = true)
    (hpend : s.h.pendingOf .vector = []) (hn : 0 < n) {m c : Nat} (hc : deniedBy s (addr m).toNat .read = some c) (below above : List Nat)
    (hfit : ∀ e ∈ below ++ above, (e + 1) * (8 * n) ≤ 16384) (hbelow : ∀ e ∈ below, (readsAs s false (addr e) n).isSome = true)
    (habove : ∀ e ∈ above, (readsAs s false (addr e) n).isSome = true ∨ (deniedBy s (addr e).toNat .read).isSome = true) :
    ∃ L' u', loadElems false v (8 * n) ((below ++ m :: above).map fun e => (e, addr e)) u =
        (.error (.trap { kind := .restartable, code := c, tval := addr m, idx := m }), u') ∧
      Loading i s v (8 * n) (fun e => readsAs s false (addr e) n) L' u' ∧ L ⊆ L' ∧ (∀ e ∈ below, e ∈ L') ∧
      ∀ e ∈ L', e ∈ L ∨ e ∈ below ∨ e ∈ above := by
  induction below generalizing L u with
  | nil =>
    have hfree : Loading i s v (8 * n) (fun e => readsAs s false (addr e) n) L { u with free := u.free + 1 } := by
      refine ⟨⟨?_, hu.hart, hu.cv, hu.marks⟩, hu.done, hu.here, hu.there, hu.other⟩
      rw [hu.eq]; rfl
    obtain ⟨L', u', hrun, hload, hsub, hmem⟩ := hfree.above hpend hn (Config.freeNat u.free) above hfit habove
    refine ⟨L', u', ?_, hload, hsub, fun e he => absurd he List.not_mem_nil, fun e he => (hmem e he).imp_right .inr⟩
    rw [List.nil_append, List.map_cons]
    unfold loadElems
    rw [Nat.mul_div_cancel_left n (by decide : 0 < 8)]
    refine (bind_ok (hu.toAmid.cutHere hf m)).trans ?_
    rw [if_neg Bool.false_ne_true]
    refine (bind_ok (hu.toAmid.denied hn hc)).trans ?_
    dsimp only
    refine (bind_ok (show takeFreeM u = (.ok (Config.freeNat u.free), { u with free := u.free + 1 }) from rfl)).trans ?_
    refine (bind_ok hrun).trans ?_
    rw [denied_eq (deniedBy_lt hc)]
    rfl
  | cons e below ih =>
    obtain ⟨tgt, t, u1, htgt, hload, hu1⟩ := hu.step hpend hn (hfit e List.mem_cons_self) (hbelow e List.mem_cons_self)
    obtain ⟨L', u', hrun, hload', hsub, hall, hmem⟩ := ih hu1 (fun f hf => hfit f (List.mem_cons_of_mem e hf))
      (fun f hf => hbelow f (List.mem_cons_of_mem e hf))
    refine ⟨L', u', ?_, hload', fun f hf => hsub (List.mem_cons_of_mem e hf), fun f hf => ?_, fun f hf => ?_⟩
    · rw [List.cons_append, List.map_cons]
      unfold loadElems
      rw [Nat.mul_div_cancel_left n (by decide : 0 < 8)]
      refine (bind_ok (hu.toAmid.cutHere hf e)).trans ?_
      rw [if_neg Bool.false_ne_true]
      refine (bind_ok htgt).trans ?_
      exact (bind_ok hload).trans hrun
    · rcases List.mem_cons.1 hf with rfl | hf
      · exact hsub List.mem_cons_self
      · exact hall f hf
    · rcases hmem f hf with hf | hf | hf
      · exact (List.mem_cons.1 hf).elim (fun h => .inr (.inl (h ▸ List.mem_cons_self))) .inl
      · exact .inr (.inl (List.mem_cons_of_mem e hf))
      · exact .inr (.inr hf)
end

end Sys2Proof.Words
end

section
/-! # A load that stops at a denied element -/

namespace Sys2Proof.Words
open Sys2Proof Sys2Proof.Machine Sys2Proof.Claims Sys2Proof.Laws Sys2Proof.Together

/-- With no entry held there is nothing to wait for. -/
theorem interlock_free {u : State} (t : Bool) (as : List DWord) (n : Nat) (write : Bool) (h : u.h.arit = []) :
    interlock t as n write u = (.ok (), u) := by
  unfold interlock
  refine (bind_ok (show (get : M State) u = (.ok u, u) from rfl)).trans ?_
  unfold waitLocks
  refine (bind_ok (show getH u = (.ok u.h, u) from rfl)).trans ?_
  rw [h]
  dsimp only [List.filter_nil, List.any_nil]
  have hwait : waitCopies (fun _ => false) 4 u = (.ok (), u) := by
    unfold waitCopies waitCopiesBy
    refine (bind_ok (show getH u = (.ok u.h, u) from rfl)).trans ?_
    rw [List.filter_false]
    rfl
  exact (bind_ok hwait).trans rfl

section
variable {i : Instr} {s : State} {fm : Form} {v : BitVec 5} {b : BitVec 6} {w : BitVec 2}

/-- A load of consecutive elements, once its checks are over. -/
theorem vloadBody_begun (hr : ready i (8 * 2 ^ w.toNat) s = true) (harit : s.h.arit = []) (hs : noSlots [v] s.h = true) :
    vloadBody i fm v b w false .unit (s.begin i) = (do
      loadElems false v (8 * 2 ^ w.toNat) ((eltsOf fm s.h).map fun e => (e, s.h.getX b + offsetOf fm + BitVec.ofNat 64 (e * 2 ^ w.toNat)))
      countGroups (8 * 2 ^ w.toNat) : M Unit) (s.begin i) := by
  unfold ready at hr
  rw [Bool.and_eq_true, decide_eq_true_eq] at hr
  obtain ⟨hn, hgrant⟩ := hr
  have hu := begun_of_fresh (i := i) (s := s) (by unfold named at hn; exact (Bool.and_eq_true _ _ ▸ hn).1)
  have hw : max (ewBits w) Pattern3.unit.width = 8 * 2 ^ w.toNat := Nat.max_eq_left (Nat.zero_le _)
  unfold vloadBody
  dsimp only
  rw [hw]
  refine (bind_ok (checkNamed_named hu hn)).trans ?_
  refine (bind_ok (checkGrant_ok hu hgrant)).trans ?_
  refine (bind_ok (noSlot_ok hu (noSlots_cons hs).1)).trans ?_
  refine (bind_ok (show getH (s.begin i) = (.ok s.h, s.begin i) from congrArg (fun h => (Except.ok h, s.begin i)) hu.h_eq)).trans ?_
  refine (bind_ok (show readSources _ Pattern3.unit.source [] (s.begin i) = (.ok [], s.begin i) from rfl)).trans ?_
  refine (bind_ok (atDispatch_ok hu)).trans ?_
  refine (bind_ok (todo_ok hu fm _)).trans ?_
  refine (bind_ok (interlock_free false _ _ false (by rw [hu.h_eq]; exact harit))).trans ?_
  have hbytes : ewBits w / 8 = 2 ^ w.toNat := Nat.mul_div_cancel_left _ (by decide : 0 < 8)
  unfold Pattern3.addr
  rw [hbytes]
  rfl
end

/-- A load of which the lowest element that cannot be read is denied. -/
theorem loadStops (fm : Form) (v : BitVec 5) (b : BitVec 6) (w : BitVec 2) (s : State) (m c : Nat) :
     let n : Nat := 2 ^ w.toNat
     let at' := fun (e : Nat) => s.h.getX b + offsetOf fm + BitVec.ofNat 64 (e * n)
     let reads := fun e => readsAs s false (at' e) n
     ready (.vld fm v b w false false) (8 * n) s = true → s.h.arit = [] → s.h.pendingOf .vector = [] → noSlots [v] s.h = true →
     act fm s.h m = true → deniedBy s (at' m).toNat .read = some c → (∀ e < m, act fm s.h e = true → (reads e).isSome = true) →
     (∀ e, m < e → act fm s.h e = true → (reads e).isSome = true ∨ (deniedBy s (at' e).toNat .read).isSome = true) →
     ∃ t, exec (.vld fm v b w false false) s = .next t ∧ t.h.cause = { int := false, acode := 0, code := BitVec.ofNat 8 c } ∧
       t.h.tval = at' m ∧ t.h.epc.toNat = (if s.cv.active then s.cv.base else s.h.pc).toNat % 2 ^ 57 / 4 * 4 ∧
       t.h.ves = { rst := true, cm := if s.cv.active then BitVec.ofNat 2 s.cv.idx else 0, idx := BitVec.ofNat 12 m } ∧
       t.h.vcm.getLsbD m = false ∧ RestSameC s t ∧ (∀ r, r ≠ v → t.h.getV r = s.h.getV r) ∧ (∀ r, t.h.getX r = s.h.getX r) ∧
       (∀ e < m, act fm s.h e = true → t.h.vcm.getLsbD e = true) ∧ (∀ e < 2048, t.h.vcm.getLsbD e = true → act fm s.h e = true) ∧
       ∀ e, if t.h.vcm.getLsbD e = true then some ((t.h.getV v).elt (8 * n) e) = reads e
         else (t.h.getV v).elt (8 * n) e = (s.h.getV v).elt (8 * n) e := by
  intro n at' reads hr harit hpend hs hm hc hlow hhigh
  have hk : isChained (.vld fm v b w false false) = false := by rw [isChained_eq]; rfl
  have hbody := vloadBody_begun (fm := fm) (b := b) hr harit hs
  generalize hi : Instr.vld fm v b w false false = i at hr hk hbody
  have hn : 0 < n := Nat.two_pow_pos _
  have hf := fresh_of_ready hr
  obtain ⟨below, above, hsplit, hbelow, habove⟩ := rising_split (rising_eltsOf fm s.h) (mem_eltsOf.2 hm)
  have hact : ∀ e, e ∈ below ++ above → act fm s.h e = true := fun e he => by
    refine mem_eltsOf.1 ?_
    rw [hsplit]
    exact (List.mem_append.1 he).elim (List.mem_append_left _) fun h => List.mem_append_right _ (List.mem_cons_of_mem m h)
  have hvl : ∀ e, act fm s.h e = true → e < s.h.vl.toNat := fun e he => by
    rw [act, Bool.and_eq_true, decide_eq_true_eq] at he; exact he.1
  have hgrant : s.h.vl.toNat ≤ s.h.grant (8 * n) := by
    unfold ready at hr
    rw [Bool.and_eq_true, decide_eq_true_eq] at hr
    exact hr.2
  have hvl2048 := grant_le s.h (w := 8 * n) (by omega)
  have hstart : Loading i s v (8 * n) reads [] (s.begin i) := by
    have hu := begun_of_fresh hf
    refine ⟨amid_begin hf hk, fun e _ => ?_, fun e he => absurd he List.not_mem_nil, fun e _ => by rw [hu.h_eq], fun r _ => by rw [hu.h_eq]⟩
    rw [hu.done]
    simp
  obtain ⟨L, u, hrun, hload, -, hall, hmem⟩ := hstart.elems hf hpend hn hc below above (fun e he => elt_fits hgrant le_rfl (hvl e (hact e he)))
    (fun e he => hlow e (hbelow e he) (hact e (List.mem_append_left _ he)))
    (fun e he => hhigh e (habove e he) (hact e (List.mem_append_right _ he)))
  rw [← hsplit] at hrun
  have hstop := run_stopped hf hk hload.toAmid (hbody.trans (bind_error hrun))
  have hL : ∀ e ∈ L, e ∈ below ++ above := fun e he =>
    (hmem e he).elim (fun h => absurd h List.not_mem_nil) List.mem_append.2
  have hL2048 : ∀ e ∈ L, e < 2048 := fun e he => by
    have := hvl e (hact e (hL e he))
    omega
  have hdone : ∀ e, (run i (vloadBody i fm v b w false .unit) s).h.vcm.getLsbD e = true ↔ e ∈ L := fun e => by
    rw [hstop.vcm]
    by_cases he : e < 2048
    · exact hload.done e he
    · rw [BitVec.getLsbD_of_ge _ _ (by omega)]
      exact ⟨fun h => absurd h Bool.false_ne_true, fun h => absurd (hL2048 e h) he⟩
  have hmL : m ∉ L := fun h => (List.mem_append.1 (hL m h)).elim (fun h => lt_irrefl m (hbelow m h)) fun h => lt_irrefl m (habove m h)
  have hbelowL : ∀ e < m, act fm s.h e = true → e ∈ L := fun e he ha => by
    have hin := mem_eltsOf.2 ha
    rw [hsplit] at hin
    rcases List.mem_append.1 hin with h | h
    · exact hall e h
    · rcases List.mem_cons.1 h with rfl | h
      · exact absurd he (lt_irrefl e)
      · exact absurd (habove e h) (Nat.lt_asymm he)
  refine ⟨run i (vloadBody i fm v b w false .unit) s, by rw [← hi]; rfl, hstop.cause, hstop.tval, ?_, ?_, ?_, hstop.rest,
    fun r hr => (hstop.getV r).trans (hload.other r hr), hstop.getX, fun e he ha => (hdone e).2 (hbelowL e he ha),
    fun e _ he => hact e (hL e ((hdone e).1 he)), fun e => ?_⟩
  · rw [hstop.epc]
    cases hact : s.cv.active
    · rw [State.begin_of_idle hact]; rfl
    · rw [State.begin_of_active hact]; rfl
  · rw [hstop.ves]
    cases hact : s.cv.active
    · rw [State.begin_of_idle hact]; rfl
    · rw [State.begin_of_active hact]; rfl
  · rw [Bool.eq_false_iff, Ne, hdone]
    exact hmL
  · rw [hstop.getV]
    by_cases he : e ∈ L
    · rw [if_pos ((hdone e).2 he)]
      exact (hload.here e he).symm
    · rw [if_neg fun h => he ((hdone e).1 h)]
      exact hload.there e he

end Sys2Proof.Words
end

section
/-! # Traps of operands (R116, R121, R134, R137, R155, R249) -/

namespace Sys2Proof.Words
open Sys2Proof Sys2Proof.Machine Sys2Proof.Claims Sys2Proof.Laws Sys2Proof.Together

/-- Settles O22: an access that is denied traps before effect (`misaligned`, `denials`); poison and unsorted inputs squash (`poisoned`,
`unsorted`); the assist and a denied element stop a member part-way (`assists`, `loadStops`). -/
theorem operandTraps : Obligations.OperandTraps := by
  refine ⟨misaligned, fun fm d b i y w l dw c o s => ?_, poisoned, assists, loadStops, unsorted⟩
  intro va vb loads settled stores steps trap fetch barred' at' absent ha hal hbl
  obtain ⟨hloads, hstores, hsteps⟩ := denials fm d b i y w l dw c o s ha hal hbl
  have hfetch : ∀ code, deniedBy s s.h.pc.toNat .fetch = some code → fetch code := fun code h hahead => fetch_denied hahead h
  have hboth : ∀ code, deniedBy s va.toNat .read = some code → deniedBy s va.toNat .write = some code →
      ∀ j ∈ loads ++ stores, trap code va j := fun code hr hw j hj => (List.mem_append.1 hj).elim (hloads code hr j) (hstores code hw j)
  refine ⟨fun h => hboth _ (deniedBy_absent _ h) (deniedBy_absent _ h), fun h => hsteps _ (deniedBy_absent _ h),
    fun h => hfetch _ (deniedBy_absent _ h), fun e hb hc => ⟨fun h => ?_, fun h h2 => ?_, fun h h3 => ?_⟩,
    fun e hb hc => ⟨fun h => ?_, fun h h2 => ?_, fun h h2 h3 => ?_, fun h h2 h3 h5 => ?_⟩, fun e hb hc => ⟨fun h => ?_, fun h h4 => ?_⟩⟩
  · exact hboth _ (deniedBy_cached hb hc (causeOf_barred h _) (by decide)) (deniedBy_cached hb hc (causeOf_barred h _) (by decide))
  · exact hloads _ (deniedBy_cached hb hc ((causeOf_unbarred h _).trans (by rw [h2]; rfl)) (by decide))
  · exact hstores _ (deniedBy_cached hb hc ((causeOf_unbarred h _).trans (by rw [h3]; rfl)) (by decide))
  · exact hsteps _ (deniedBy_cached hb hc (causeOf_barred h _) (by decide))
  · exact hsteps _ (deniedBy_cached hb hc ((causeOf_unbarred h _).trans (by rw [h2]; rfl)) (by decide))
  · exact hsteps _ (deniedBy_cached hb hc ((causeOf_unbarred h _).trans (by rw [h2, h3]; rfl)) (by decide))
  · exact hsteps _ (deniedBy_cached hb hc ((causeOf_unbarred h _).trans (by rw [h2, h3, h5]; rfl)) (by decide))
  · exact hfetch _ (deniedBy_cached hb hc (causeOf_barred h _) (by decide))
  · exact hfetch _ (deniedBy_cached hb hc ((causeOf_unbarred h _).trans (by rw [h4]; rfl)) (by decide))

end Sys2Proof.Words
end

section
/-! # A reduction that an assist routine has finished (R176) -/

namespace Sys2Proof.Words
open Sys2Proof Sys2Proof.Machine Sys2Proof.Claims Sys2Proof.Tests

/-- The sum of the two elements of v1 into v3. -/
def sumV1 : Instr := .vred .base 3 1 0 .add false

/-- An `eret` has resumed the hart in it, and DONE bit 0 is set. -/
def assistedSum : State := vecs fun h => { h with park := some (.wait sumV1 0 none 0), resumed := true, vcm := 1 }

theorem assistedSum_skipped : (match exec sumV1 assistedSum with | .next t => (t.h.getV 3).elt 32 0 | _ => 0) = 0 := by decide +kernel

/-- Refutes O29: no hypothesis excludes a hart that resumes with DONE bit 0 set, and its reduction is passed over (R176), so that element 0
keeps its 0 where the sum of 1 and 2 is 3. -/
theorem not_reductions : ¬ Obligations.Reductions := by
  intro ⟨hmembers, _⟩
  obtain ⟨hred, _⟩ := hmembers .base 3 1 0 0 .add false assistedSum (by decide +kernel)
  obtain ⟨t, ht, ⟨hgot, _⟩, _⟩ := hred (by decide +kernel) (by decide +kernel) (by decide +kernel) fun e he => by
    rw [beq_iff_eq.1 he]; decide +kernel
  obtain ⟨hsum, -⟩ := hgot 0 0x40400000 false (by decide +kernel)
  have hskip := assistedSum_skipped
  rw [sumV1, ht] at hskip
  exact absurd (hsum.symm.trans hskip) (by decide +kernel)

end Sys2Proof.Words
end

section
/-! # Members that write mask bits (R153, R164) -/

namespace Sys2Proof.Words
open Sys2Proof Sys2Proof.Machine Sys2Proof.Claims Sys2Proof.Laws Sys2Proof.Together

theorem ready_parts {i : Instr} {w : Nat} {s : State} (h : ready i w s = true) :
    named i s = true ∧ Begun s (s.begin i) ∧ s.h.vl.toNat ≤ s.h.grant w := by
  unfold ready at h
  rw [Bool.and_eq_true, decide_eq_true_eq] at h
  obtain ⟨hn, hgrant⟩ := h
  refine ⟨hn, begun_of_fresh ?_, hgrant⟩
  unfold named at hn
  exact (Bool.and_eq_true _ _ ▸ hn).1

theorem Begun.getH {s u : State} (h : Begun s u) : getH u = (.ok s.h, u) := congrArg (fun h => (Except.ok h, u)) h.h_eq

/-- A register written or not, with its dirty and its live bit (R117). -/
theorem dirtied_of {bit : Nat} {any : Prop} {s t : State} (h0 : ¬ any → t.h.vdirty = s.h.vdirty ∧ t.h.vlive = s.h.vlive)
    (h1 : any → t.h.vdirty = (s.h.dirty bit).vdirty ∧ t.h.vlive = (s.h.dirty bit).vlive) : Dirtied bit any s t := by
  intro j hj
  by_cases ha : any
  · obtain ⟨hd, hl⟩ := h1 ha
    rw [hd, hl]
    simp only [ha, true_and, and_true]
    refine ⟨getLsbD_setBit_true _ hj, ?_⟩
    show (if s.h.status.prv = true then setBit s.h.vlive bit true else s.h.vlive).getLsbD j = true ↔ _
    split
    · next hp => rw [getLsbD_setBit_true _ hj]; simp [hp]
    · next hp => simp [hp]
  · obtain ⟨hd, hl⟩ := h0 ha
    simp [hd, hl, ha]

theorem getLsbD_setEach {n : Nat} (l : List Nat) (f : Nat → Bool) (b : BitVec n) (j : Nat) :
    ((l.map fun e => (e, f e)).foldl (fun b x => setBit b x.1 x.2) b).getLsbD j = if j < n ∧ j ∈ l then f j else b.getLsbD j := by
  induction l generalizing b with
  | nil => simp
  | cons e l ih =>
    rw [List.map_cons, List.foldl_cons, ih, getLsbD_setBit]
    by_cases h1 : j < n ∧ j ∈ l
    · rw [if_pos h1, if_pos ⟨h1.1, List.mem_cons_of_mem _ h1.2⟩]
    · rw [if_neg h1]
      by_cases h2 : j < n ∧ j = e
      · rw [if_pos h2, if_pos ⟨h2.1, h2.2 ▸ List.mem_cons_self⟩, h2.2]
      · rw [if_neg h2, if_neg fun ⟨hn, hm⟩ => (List.mem_cons.1 hm).elim (fun h => h2 ⟨hn, h⟩) fun h => h1 ⟨hn, h⟩]

/-- The hart after a member that gives each of these elements its mask bit. -/
def masked (m : BitVec 3) (l : List Nat) (f : Nat → Bool) (h : Hart) : Hart :=
  if l.isEmpty then h else (h.setM m ((l.map fun e => (e, f e)).foldl (fun b x => setBit b x.1 x.2) (h.getM m))).dirty (mBit m)

theorem masked_eq (m : BitVec 3) (l : List Nat) (f : Nat → Bool) (h : Hart) :
    masked m l f h = { h with m := (masked m l f h).m, vdirty := (masked m l f h).vdirty, vlive := (masked m l f h).vlive } := by
  cases l <;> rfl

theorem getM_masked (m : BitVec 3) (l : List Nat) (f : Nat → Bool) (h : Hart) (r : BitVec 3) :
    (masked m l f h).getM r =
      if r = m then (l.map fun e => (e, f e)).foldl (fun b x => setBit b x.1 x.2) (h.getM m) else h.getM r := by
  cases l with
  | nil =>
    show h.getM r = if r = m then h.getM m else h.getM r
    split
    · next hr => rw [hr]
    · rfl
  | cons e l =>
    show (Hart.dirty _ _).getM r = _
    rw [Hart.getM_dirty, Hart.getM_setM]

theorem writeMask_eq (m : BitVec 3) (l : List Nat) (f : Nat → Bool) (u : State) :
    writeMask m (l.map fun e => (e, f e)) u = (.ok (), { u with h := masked m l f u.h }) := by
  cases l <;> rfl

/-- A member that wrote a mask bit for each active element and counted what it did. -/
theorem mDone_of {i : Instr} {body : M Unit} {s : State} {fm : Form} {m : BitVec 3} {f g : Nat → Bool} {c : List PartCtr}
    (hf : fresh i s = true) (hlen : instrLen i = fm.len) (hg : ∀ e, f e = g e)
    (hb : body (s.begin i) = (.ok (), { s.begin i with h := masked m (eltsOf fm s.h) f s.h, ctrs := c })) :
    MDone fm m (fun e => if act fm s.h e then some (g e) else none) s (run i body s) := by
  obtain rfl : f = g := funext hg
  obtain ⟨r, hr, hh, hrest⟩ := run_member hf hb
  have hany : (∃ e, (if act fm s.h e then some (f e) else none).isSome) ↔ eltsOf fm s.h ≠ [] := by
    constructor
    · rintro ⟨e, he⟩ hnil
      by_cases ha : act fm s.h e = true
      · have hm := mem_eltsOf.2 ha
        rw [hnil] at hm
        exact List.not_mem_nil hm
      · rw [if_neg ha] at he
        exact absurd he (by decide)
    · intro hne
      obtain ⟨e, l, hl⟩ := List.exists_cons_of_ne_nil hne
      exact ⟨e, by rw [if_pos (mem_eltsOf.1 (hl ▸ List.mem_cons_self))]; rfl⟩
  have hm : ∀ k, (run i body s).h.getM k = (masked m (eltsOf fm s.h) f s.h).getM k := fun k => by rw [hh]; rfl
  have hd : (run i body s).h.vdirty = (masked m (eltsOf fm s.h) f s.h).vdirty := by rw [hh]; rfl
  have hl : (run i body s).h.vlive = (masked m (eltsOf fm s.h) f s.h).vlive := by rw [hh]; rfl
  obtain ⟨v, vd, vl, hwr⟩ : ∃ v vd vl, masked m (eltsOf fm s.h) f s.h = { s.h with m := v, vdirty := vd, vlive := vl } :=
    ⟨_, _, _, masked_eq ..⟩
  refine ⟨fun e he => ?_, fun k hk => ?_, dirtied_of (fun hn => ?_) (fun ha => ?_), ?_, vesKept_of hr hh ?_ ?_, hrest, ?_⟩
  · rw [hm, getM_masked, if_pos rfl, getLsbD_setEach]
    dsimp only
    by_cases ha : act fm s.h e = true
    · rw [if_pos ⟨he, mem_eltsOf.2 ha⟩, if_pos ha, Option.getD_some]
    · rw [if_neg fun h => ha (mem_eltsOf.1 h.2), if_neg ha, Option.getD_none]
  · rw [hm, getM_masked, if_neg hk]
  · rw [hd, hl, not_not.1 (mt hany.2 hn)]
    exact ⟨rfl, rfl⟩
  · obtain ⟨e, l, hel⟩ := List.exists_cons_of_ne_nil (hany.1 ha)
    rw [hd, hl, hel]
    exact ⟨rfl, rfl⟩
  · show (run i body s).h.pc = _
    rw [hh, hwr, ← hlen]; rfl
  · rw [hwr]
  · rw [hwr]
  · rw [hh, hwr]; rfl

section
variable {s : State} {i : Instr} {fm : Form} {m : BitVec 3} {a b : BitVec 5} {f : BitVec 3}

/-- A comparison, once its checks are over. -/
theorem vcmpBody_ok {c : CmpOp}
    (hfd : fdOk { fa := some fun x => isFloating x || isInt x,
                  fb := some (if isInt (fdFA (fdValue fm f s.h)) then isInt else isFloating) } (fdValue fm f s.h) = true)
    (himm : immReserved fm (fdValue fm f s.h) = false)
    (hr : ready i (max (fmtWidth (fdFA (fdValue fm f s.h))) (fmtWidth (fdFB (fdValue fm f s.h)))) s = true)
    (hs : noSlots (abOf fm a b) s.h = true)
    (hclean : cleanAt fm s.h ((a, fmtWidth (fdFA (fdValue fm f s.h))) ::
      if immForm fm then [] else [(b, fmtWidth (fdFB (fdValue fm f s.h)))]) = true) :
    ∃ ctrs, vcmpBody i fm m a b f c (s.begin i) = (.ok (), { s.begin i with
      h := masked m (eltsOf fm s.h) (fun e => cmpHolds c (orderOf (fdFA (fdValue fm f s.h)) (fdFB (fdValue fm f s.h))
        ((s.h.getV a).elt (fmtWidth (fdFA (fdValue fm f s.h))) e) (srcB fm (fdValue fm f s.h) b s.h e))) s.h
      ctrs := ctrs }) := by
  obtain ⟨hn, hu, hgrant⟩ := ready_parts hr
  obtain ⟨ctrs, hcount⟩ := countGroups_eq (max (fmtWidth (fdFA (fdValue fm f s.h))) (fmtWidth (fdFB (fdValue fm f s.h))))
    { s.begin i with h := masked m (eltsOf fm s.h) (fun e => cmpHolds c (orderOf (fdFA (fdValue fm f s.h)) (fdFB (fdValue fm f s.h))
        ((s.h.getV a).elt (fmtWidth (fdFA (fdValue fm f s.h))) e) (srcB fm (fdValue fm f s.h) b s.h e))) s.h }
  refine ⟨ctrs, ?_⟩
  unfold vcmpBody
  refine (bind_ok (checkNamed_named hu hn)).trans ?_
  refine (bind_ok hu.getH).trans ?_
  refine (bind_ok (checkFd_ok hfd)).trans ?_
  refine (bind_ok (checkUnused_ok himm)).trans ?_
  refine (bind_ok (checkGrant_ok hu hgrant)).trans ?_
  refine (bind_ok (readAB_ok hu hs)).trans ?_
  refine (bind_ok (atDispatch_ok hu)).trans ?_
  refine (bind_ok hu.getH).trans ?_
  refine (bind_ok (todo_ok hu fm _)).trans ?_
  refine (bind_ok (cleanElts_ok fun e he o ho => opds_clean (d := 0) (wd := 0) (fused := false) hclean (mem_eltsOf.1 he) o ?_)).trans ?_
  · exact List.mem_cons.2 ((List.mem_cons.1 ho).imp_right fun h => List.mem_cons.2 (.inl (List.mem_singleton.1 h)))
  · simp only [opB_at]
    refine (bind_ok (writeMask_eq m _ _ _)).trans ?_
    rw [hu.h_eq]
    exact hcount
end

/-! ## The order of values (R74) -/

theorem compare_mul_pos {c : ℚ} (hc : 0 < c) (x y : Int) : compare ((x : ℚ) * c) (y * c) = compare x y := by
  rcases lt_trichotomy x y with h | rfl | h
  · rw [compare_lt_iff_lt.2 h, compare_lt_iff_lt]
    exact mul_lt_mul_of_pos_right (by exact_mod_cast h) hc
  · rw [compare_eq_iff_eq.2 rfl, compare_eq_iff_eq.2 rfl]
  · rw [compare_gt_iff_gt.2 h, compare_gt_iff_gt]
    exact mul_lt_mul_of_pos_right (by exact_mod_cast h) hc

theorem num_pos_iff {n : Bool} {m : Nat} {e : Int} (hm : 0 < m) : 0 < signOf n * m * 2 ^ e ↔ n = false := by
  have hp : (0 : ℚ) < m * 2 ^ e := by positivity
  cases n
  · simp only [signOf, mul_assoc]; simpa using hp
  · simp only [signOf, mul_assoc]; simpa using hp.le

theorem compare_zero_num {n : Bool} {m : Nat} {e : Int} (hm : 0 < m) :
    compare (0 : ℚ) (signOf n * m * 2 ^ e) = if n then .gt else .lt := by
  cases n
  · exact compare_lt_iff_lt.2 ((num_pos_iff hm).2 rfl)
  · exact compare_gt_iff_gt.2 ((num_neg_iff hm).2 rfl)

theorem compare_num_zero {n : Bool} {m : Nat} {e : Int} (hm : 0 < m) :
    compare (signOf n * m * 2 ^ e) (0 : ℚ) = if n then .lt else .gt := by
  cases n
  · exact compare_gt_iff_gt.2 ((num_pos_iff hm).2 rfl)
  · exact compare_lt_iff_lt.2 ((num_neg_iff hm).2 rfl)

/-- A real value other than a zero has a digit, where only zeros are zero. -/
theorem digit_of_isZero {n : Bool} {m : Nat} {e : Int} (h : (Val.num n m e).isZero = true ↔ signOf n * m * 2 ^ e = 0) : 0 < m := by
  refine Nat.pos_of_ne_zero fun hm => ?_
  rw [hm] at h
  exact absurd (h.2 (by simp)) Bool.false_ne_true

section
variable {x y : Val} {a b : ℚ} (hx : ratOf x = some a) (hy : ratOf y = some b) (hx0 : x.isZero = true ↔ a = 0)
  (hy0 : y.isZero = true ↔ b = 0)
include hx hy hx0 hy0

/-- The order of two reals is that of the numbers. -/
theorem cmp_eq_compare_ratOf : x.cmp y = compare a b := by
  obtain ⟨n, rfl, rfl⟩ | ⟨n, m, e, rfl, rfl⟩ := ratOf_cases hx <;> obtain ⟨n', rfl, rfl⟩ | ⟨n', m', e', rfl, rfl⟩ := ratOf_cases hy
  · exact (compare_eq_iff_eq.2 rfl).symm
  · exact (compare_zero_num (digit_of_isZero hy0)).symm
  · exact (compare_num_zero (digit_of_isZero hx0)).symm
  · show compare (scaled n m e (min e e')) (scaled n' m' e' (min e e')) = _
    rw [← scaled_eq (min_le_left e e'), ← scaled_eq (min_le_right e e'), compare_mul_pos (by positivity)]

/-- The pick of two reals is the lesser or the greater, as a number. -/
theorem ratOf_pickVals (ieee larger : Bool) : ratOf (pickVals ieee larger x y) = some (if larger then max a b else min a b) := by
  have hcmp := cmp_eq_compare_ratOf hx hy hx0 hy0
  have hpick : ratOf (match x.cmp y with | .lt => if larger then y else x | .gt => if larger then x else y | .eq => x) =
      some (if larger then max a b else min a b) := by
    rw [hcmp]
    rcases lt_trichotomy a b with h | h | h
    · rw [compare_lt_iff_lt.2 h, max_eq_right h.le, min_eq_left h.le]
      cases larger
      exacts [hx, hy]
    · rw [compare_eq_iff_eq.2 h, h, max_self, min_self, ite_self]
      exact h ▸ hx
    · rw [compare_gt_iff_gt.2 h, max_eq_left h.le, min_eq_right h.le]
      cases larger
      exacts [hy, hx]
  obtain ⟨n, rfl, rfl⟩ | ⟨n, m, e, rfl, rfl⟩ := ratOf_cases hx <;> obtain ⟨n', rfl, rfl⟩ | ⟨n', m', e', rfl, rfl⟩ := ratOf_cases hy
  · rw [max_self, min_self, ite_self]
    show ratOf (if ieee = true then .zero (if larger = true then n && n' else n || n') else .zero n) = _
    split <;> rfl
  all_goals exact hpick
end

theorem inf_cmp_real {y : Val} {b : ℚ} (hy : ratOf y = some b) (m : Bool) : (Val.inf m).cmp y = if m then .lt else .gt := by
  obtain ⟨n, rfl, rfl⟩ | ⟨n, k, e, rfl, rfl⟩ := ratOf_cases hy <;> rfl

theorem real_cmp_inf {x : Val} {a : ℚ} (hx : ratOf x = some a) (m : Bool) : x.cmp (.inf m) = if m then .gt else .lt := by
  obtain ⟨n, rfl, rfl⟩ | ⟨n, k, e, rfl, rfl⟩ := ratOf_cases hx <;> rfl

theorem pickVals_nar (ieee larger : Bool) (x : Val) : pickVals ieee larger x .nar = .nar := by cases x <;> rfl

/-- The condition of a comparison on an order, unordered being none (R164). -/
theorem cmpHolds_eq (c : CmpOp) (o : Option Ordering) : cmpHolds c o = match c with
    | .eq => o == some .eq
    | .ne => o != some .eq
    | .lt => o == some .lt
    | .le => o == some .lt || o == some .eq
    | .gt => o == some .gt
    | .ge => o == some .gt || o == some .eq
    | .un => o == none := by
  rcases o with _ | _ | _ | _ <;> cases c <;> rfl

/-- Settles O28: `vcmp` writes `cmpHolds` of the order of its sources (`vcmpBody_ok`), and the order of values is that of the reals
(`cmp_eq_compare_ratOf`). -/
theorem comparisons : Obligations.Comparisons := by
  refine ⟨fun fm m a b f c k s => ?_, fun x y a b m n i hx hy hx0 hy0 => ⟨cmp_eq_compare_ratOf hx hy hx0 hy0, inf_cmp_real hy m,
    real_cmp_inf hx m, rfl, ratOf_pickVals hx hy hx0 hy0 i false, ratOf_pickVals hx hy hx0 hy0 i true, ⟨pickVals_nar i m x, rfl⟩, rfl, rfl⟩⟩
  intro fd wa wb order holds hfd himm hr hs hclean
  obtain ⟨ctrs, hb⟩ := vcmpBody_ok (m := m) (c := c) hfd himm hr hs hclean
  have hfresh : fresh (.vcmp fm m a b f c k) s = true := (Bool.and_eq_true _ _ ▸ (ready_parts hr).1).1
  exact ⟨_, rfl, mDone_of hfresh rfl (fun e => (cmpHolds_eq c _).trans rfl) hb⟩

end Sys2Proof.Words
end

section
/-! # Rounding to an integer (R72, R80) -/

namespace Sys2Proof.Words
open Sys2Proof Sys2Proof.Machine Sys2Proof.Claims

/-- The mode rounds up what leaves the rest `r` of the divisor `h`. -/
def roundsUp (md : Rnd) (neg odd : Bool) (r h : Nat) : Prop :=
  match md with
  | .rne => h < 2 * r ∨ (2 * r = h ∧ odd = true)
  | .rtz => False
  | .up => r ≠ 0 ∧ neg = false
  | .down => r ≠ 0 ∧ neg = true
  | .away => h ≤ 2 * r
  | .sr n => n * h < r * 2 ^ 32

/-- What is exact is not rounded. -/
theorem not_roundsUp_zero (md : Rnd) (neg odd : Bool) {h : Nat} (hh : 0 < h) : ¬ roundsUp md neg odd 0 h := by
  cases md <;> simp [roundsUp] <;> omega

/-- A quotient is rounded to one of its two neighbours. -/
theorem roundShift_cases (md : Rnd) (neg : Bool) (m s : Nat) :
    (roundsUp md neg (m / 2 ^ s % 2 == 1) (m % 2 ^ s) (2 ^ s) → roundShift md neg m s = m / 2 ^ s + 1) ∧
    (¬ roundsUp md neg (m / 2 ^ s % 2 == 1) (m % 2 ^ s) (2 ^ s) → roundShift md neg m s = m / 2 ^ s) := by
  by_cases hs : s = 0
  · subst hs
    have hz : m % 2 ^ 0 = 0 := Nat.mod_one m
    rw [hz]
    exact ⟨fun h => absurd h (not_roundsUp_zero md neg _ (by decide)), fun _ => by simp [roundShift]⟩
  · unfold roundShift
    rw [if_neg hs]
    generalize m / 2 ^ s = q
    generalize m % 2 ^ s = r
    cases md <;> simp only [roundsUp] <;> constructor <;> intro h <;> simp_all

/-- Of two neighbours `d` apart, RM takes the upper one as R80 says. -/
theorem roundsUp_rmOf {rm : Nat} (hrm : rm ≤ 4) (neg odd : Bool) (r h : Nat) {lo d : ℚ} (hd : 0 < d) :
    roundsUp (rmOf rm) neg odd r h ↔ goesUp rm neg odd lo (lo + h * d / 2) (lo + r * d) := by
  have hlt : lo + h * d / 2 < lo + r * d ↔ h < 2 * r := by
    rw [add_lt_add_iff_left, div_lt_iff₀ (by norm_num), mul_assoc, mul_comm d, ← mul_assoc, mul_lt_mul_iff_left₀ hd]
    rw [mul_comm (r : ℚ)]
    exact_mod_cast Iff.rfl
  have heq : lo + h * d / 2 = lo + r * d ↔ 2 * r = h := by
    rw [add_right_inj, div_eq_iff (by norm_num), mul_assoc, mul_comm d, ← mul_assoc, mul_left_inj' hd.ne', eq_comm, mul_comm (r : ℚ)]
    exact_mod_cast Iff.rfl
  have hpos : lo < lo + r * d ↔ r ≠ 0 := by
    rw [lt_add_iff_pos_right, mul_pos_iff_of_pos_right hd, Nat.cast_pos, Nat.pos_iff_ne_zero]
  unfold goesUp
  rw [le_iff_lt_or_eq, hlt, heq, hpos]
  obtain rfl | rfl | rfl | rfl | rfl : rm = 0 ∨ rm = 1 ∨ rm = 2 ∨ rm = 3 ∨ rm = 4 := by omega
  all_goals simp [rmOf, roundsUp]
  omega

/-! ## To nearest even -/

/-- `q` is an integer nearest to z ÷ M, the even one of two. -/
def nearest (z M q : Int) : Prop := |z - q * M| * 2 ≤ M ∧ (|z - q * M| * 2 = M → q % 2 = 0)

theorem nearest_unique {z M p q : Int} (hM : 0 < M) (hp : nearest z M p) (hq : nearest z M q) : p = q := by
  wlog h : p ≤ q generalizing p q
  · exact (this hq hp (by omega)).symm
  obtain ⟨hp, hp2⟩ := hp
  obtain ⟨hq, hq2⟩ := hq
  have h1 : z - p * M ≤ |z - p * M| := le_abs_self _
  have h2 : -(z - q * M) ≤ |z - q * M| := neg_le_abs _
  by_contra hne
  have hpq : p + 1 ≤ q := by omega
  have hmul : (p + 1) * M ≤ q * M := mul_le_mul_of_nonneg_right hpq hM.le
  have hqp : q = p + 1 := by
    by_contra h3
    have : (p + 2) * M ≤ q * M := mul_le_mul_of_nonneg_right (by omega) hM.le
    rw [add_mul] at this
    omega
  subst hqp
  rw [add_mul, one_mul] at *
  have := hp2 (by omega)
  have := hq2 (by omega)
  omega

theorem nearest_neg {z M q : Int} (h : nearest z M q) : nearest (-z) M (-q) := by
  obtain ⟨h1, h2⟩ := h
  have hz : |-z - -q * M| = |z - q * M| := by rw [← abs_neg]; congr 1; ring
  exact ⟨hz ▸ h1, fun h => by have := h2 (hz ▸ h); omega⟩

theorem roundShift_nearest (neg : Bool) (m s : Nat) : nearest m (2 ^ s) (roundShift .rne neg m s) := by
  obtain ⟨hup, hdown⟩ := roundShift_cases .rne neg m s
  have hdiv := Nat.div_add_mod m (2 ^ s)
  have hlt := Nat.mod_lt m (Nat.two_pow_pos s)
  simp only [roundsUp] at hup hdown
  generalize m / 2 ^ s = q at *
  generalize m % 2 ^ s = r at *
  have hcast : ((2 ^ s : Nat) : Int) = 2 ^ s := by push_cast; rfl
  rw [← hcast]
  generalize 2 ^ s = M at *
  unfold nearest
  by_cases h : M < 2 * r ∨ (2 * r = M ∧ (q % 2 == 1) = true)
  · rw [hup h]
    have : (m : Int) - ((q + 1 : Nat) : Int) * M = -(M - r : Int) := by rw [← hdiv]; push_cast; ring
    rw [this, abs_neg, abs_of_nonneg (by omega)]
    simp only [beq_iff_eq] at h
    omega
  · rw [hdown h]
    have : (m : Int) - (q : Int) * M = r := by rw [← hdiv]; push_cast; ring
    rw [this, abs_of_nonneg (by omega)]
    simp only [beq_iff_eq] at h
    omega

/-- An integer rounded to a multiple is the nearest one. -/
theorem rneInt_eq {z q : Int} {s : Nat} (h : nearest z (2 ^ s) q) : rneInt z s = q := by
  refine nearest_unique (by positivity) ?_ h
  unfold rneInt
  have hn := roundShift_nearest (decide (z < 0)) z.natAbs s
  dsimp only
  split
  · next hz =>
    have := nearest_neg hn
    rwa [Int.natCast_natAbs, abs_of_neg hz, neg_neg] at this
  · next hz => rwa [Int.natCast_natAbs, abs_of_nonneg (not_lt.1 hz)] at hn

end Sys2Proof.Words
end

section
/-! # Exact sums of products (R83, R84, R267) -/

namespace Sys2Proof.Words
open Sys2Proof Sys2Proof.Machine Sys2Proof.Claims

/-! ## Accumulators -/

/-- A term t × 2^e as a number. -/
def termRat (t : Int × Int) : ℚ := t.1 * 2 ^ t.2

/-- The exponent at which terms are added: the least of theirs and of the unit. -/
def leastExp (unit : Int) (ts : List (Int × Int)) : Int := ts.foldl (fun e t => min e t.2) unit

theorem leastExp_le (unit : Int) (ts : List (Int × Int)) : leastExp unit ts ≤ unit ∧ ∀ t ∈ ts, leastExp unit ts ≤ t.2 := by
  induction ts generalizing unit with
  | nil => exact ⟨le_rfl, fun t ht => absurd ht List.not_mem_nil⟩
  | cons x l ih =>
    obtain ⟨h1, h2⟩ := ih (min unit x.2)
    refine ⟨h1.trans (min_le_left _ _), fun t ht => ?_⟩
    rcases List.mem_cons.1 ht with rfl | ht
    · exact h1.trans (min_le_right _ _)
    · exact h2 t ht

theorem zpow_sub_toNat {e k : Int} (h : k ≤ e) : (2 : ℚ) ^ (e - k).toNat * 2 ^ k = 2 ^ e := by
  rw [← zpow_natCast, ← zpow_add₀ (by norm_num), Int.toNat_of_nonneg (by omega), Int.sub_add_cancel]

theorem foldl_terms {k : Int} (ts : List (Int × Int)) (z : Int) (h : ∀ t ∈ ts, k ≤ t.2) :
    ((ts.foldl (fun z t => z + t.1 * 2 ^ (t.2 - k).toNat) z : Int) : ℚ) * 2 ^ k = z * 2 ^ k + (ts.map termRat).sum := by
  induction ts generalizing z with
  | nil => simp
  | cons x l ih =>
    have hx := zpow_sub_toNat (h x List.mem_cons_self)
    rw [List.foldl_cons, ih _ fun t ht => h t (List.mem_cons_of_mem _ ht), List.map_cons, List.sum_cons, termRat, ← hx]
    push_cast
    ring

/-- Nearness of an integer in units of `k` is nearness of the number. -/
theorem nearest_of_rat {z q : Int} {k unit : Int} {total : ℚ} (hk : k ≤ unit) (hz : (z : ℚ) * 2 ^ k = total)
    (hq : |total - q * 2 ^ unit| * 2 ≤ 2 ^ unit) (htie : |total - q * 2 ^ unit| * 2 = 2 ^ unit → q % 2 = 0) :
    nearest z (2 ^ (unit - k).toNat) q := by
  have hp : (0 : ℚ) < 2 ^ k := by positivity
  have hu := zpow_sub_toNat hk
  have habs : |total - q * 2 ^ unit| * 2 = ((|z - q * 2 ^ (unit - k).toNat| * 2 : Int) : ℚ) * 2 ^ k := by
    rw [← hz, ← hu, ← mul_assoc, ← sub_mul, abs_mul, abs_of_pos hp]
    push_cast
    ring
  have hM : (2 : ℚ) ^ unit = ((2 ^ (unit - k).toNat : Int) : ℚ) * 2 ^ k := by rw [← hu]; push_cast; rfl
  rw [habs, hM] at hq htie
  exact ⟨by exact_mod_cast le_of_mul_le_mul_right hq hp, fun h => htie (by rw [h])⟩

/-- An accumulator takes the exact total, rounded once to its unit, or the sign of its overflow. -/
theorem Accum.add_eq {a : Accum} {unit : Int} {top : Nat} {ts : List (Int × Int)} (hn : a.nar = false) (ho : a.ovf = none) {q : Int}
    (hq : |a.v * 2 ^ unit + (ts.map termRat).sum - q * 2 ^ unit| * 2 ≤ 2 ^ unit)
    (htie : |a.v * 2 ^ unit + (ts.map termRat).sum - q * 2 ^ unit| * 2 = 2 ^ unit → q % 2 = 0) :
    (a.add unit top ts).1 = if -2 ^ top ≤ q ∧ q < 2 ^ top then { a with v := q } else { a with ovf := some (decide (q < 0)) } := by
  obtain ⟨hu, hts⟩ := leastExp_le unit ts
  have hsum := foldl_terms (k := leastExp unit ts) ts (a.v * 2 ^ (unit - leastExp unit ts).toNat) hts
  push_cast at hsum
  rw [mul_assoc, zpow_sub_toNat hu] at hsum
  have hround := rneInt_eq (nearest_of_rat hu hsum hq htie)
  unfold Accum.add
  rw [hn, ho, if_neg (by decide)]
  dsimp only
  unfold leastExp at hround
  rw [hround]
  by_cases hover : -2 ^ top ≤ q ∧ q < 2 ^ top
  · rw [if_pos hover, if_neg (by simp; omega)]
  · rw [if_neg hover, if_pos (by simp; omega)]

theorem Accum.add_held {a : Accum} (h : a.nar = true ∨ a.ovf.isSome = true) (unit : Int) (top : Nat) (ts : List (Int × Int)) :
    (a.add unit top ts).1 = a := by
  unfold Accum.add
  rw [if_pos (by simpa using h)]

/-! ## Tapered values in units -/

theorem runDown_le (c : Nat) (b : Bool) (i : Nat) : runDown c b i ≤ i := by
  induction i with
  | zero => exact le_rfl
  | succ i ih => unfold runDown; split <;> omega

theorem runDown_testBit {c : Nat} {b : Bool} {i j : Nat} (h : i - runDown c b i ≤ j) (hj : j < i) : c.testBit j = b := by
  induction i with
  | zero => omega
  | succ i ih =>
    unfold runDown at h
    split at h
    · next hb =>
      by_cases hji : j = i
      · rw [hji]; simpa using hb
      · exact ih (by omega) (by omega)
    · omega

/-- A tapered value is not-a-real at one code alone; else it is a zero, or a number whose last digit weighs minpos or more (R70). -/
theorem tapVal_cases (n es : Nat) (hn : 3 ≤ n) (c : Nat) (hc : c < 2 ^ n) :
    (tapVal n es c = .nar ∧ c = 2 ^ (n - 1)) ∨ tapVal n es c = .zero false ∨
      ∃ s m x, tapVal n es c = .num s m x ∧ -((n - 2 : Nat) * 2 ^ es : Int) ≤ x := by
  unfold tapVal
  by_cases h0 : c = 0
  · rw [if_pos h0]; exact .inr (.inl rfl)
  by_cases h1 : c = 2 ^ (n - 1)
  · rw [if_neg h0, if_pos h1]; exact .inl ⟨rfl, h1⟩
  rw [if_neg h0, if_neg h1]
  refine .inr (.inr ⟨_, _, _, rfl, ?_⟩)
  have hpow : 2 ^ n = 2 ^ (n - 1) + 2 ^ (n - 1) := by rw [← two_mul, ← pow_succ']; congr 1; omega
  have hmag : 0 < (if c.testBit (n - 1) = true then 2 ^ n - c else c) ∧ (if c.testBit (n - 1) = true then 2 ^ n - c else c) < 2 ^ (n - 1) := by
    split
    · next hs =>
      have := Nat.ge_two_pow_of_testBit hs
      omega
    · next hs =>
      refine ⟨Nat.pos_of_ne_zero h0, Nat.lt_of_not_le fun hle => hs ?_⟩
      have : c / 2 ^ (n - 1) = 1 := by
        rw [Nat.div_eq_iff (Nat.two_pow_pos _)]; omega
      rw [Nat.testBit_eq_decide_div_mod_eq, this]
      rfl
  generalize (if c.testBit (n - 1) = true then 2 ^ n - c else c) = p at hmag
  obtain ⟨hp0, hp1⟩ := hmag
  generalize hm : runDown p (p.testBit (n - 2)) (n - 1) = m
  have hes : (1 : Int) ≤ 2 ^ es := one_le_pow₀ (by norm_num)
  have he : (0 : Int) ≤ (bits p (n - 2 - m - min es (n - 2 - m)) (min es (n - 2 - m)) * 2 ^ (es - min es (n - 2 - m)) : Nat) := Int.natCast_nonneg _
  generalize (bits p (n - 2 - m - min es (n - 2 - m)) (min es (n - 2 - m)) * 2 ^ (es - min es (n - 2 - m)) : Nat) = e at he
  have hmle := hm ▸ runDown_le p (p.testBit (n - 2)) (n - 1)
  have hk : -((m : Int) * 2 ^ es) ≤ (if p.testBit (n - 2) = true then (m : Int) - 1 else -m) * 2 ^ es ∧
      (m ≤ n - 2 ∨ 0 ≤ (if p.testBit (n - 2) = true then (m : Int) - 1 else -m) * 2 ^ es) := by
    cases hb : p.testBit (n - 2)
    · refine ⟨by simp, .inl ?_⟩
      by_contra hmn
      refine absurd (Nat.zero_of_testBit_eq_false fun j => ?_) hp0.ne'
      by_cases hj : j < n - 1
      · rw [hb] at hm
        exact runDown_testBit (i := n - 1) (by omega) hj
      · exact Nat.testBit_lt_two_pow (hp1.trans_le (Nat.pow_le_pow_right (by decide) (by omega)))
    · have hm1 : 1 ≤ m := by
        rw [← hm, show n - 1 = (n - 2) + 1 by omega]
        unfold runDown
        rw [if_pos (by simp)]
        omega
      simp only [if_true]
      constructor
      · nlinarith
      · right; exact mul_nonneg (by omega) (by positivity)
  generalize (if p.testBit (n - 2) = true then (m : Int) - 1 else -m) * 2 ^ es = k at hk
  obtain ⟨hk1, hk2⟩ := hk
  have hnf : ((n - 2 - m - min es (n - 2 - m) : Nat) : Int) ≤ ((n - 2 - m : Nat) : Int) := by omega
  have hrest : ((n - 2 : Nat) : Int) ≤ (n - 2 : Nat) * 2 ^ es := by nlinarith
  rcases hk2 with hmn | hk0
  · have h2 : ((n - 2 - m : Nat) : Int) ≤ (n - 2 - m : Nat) * 2 ^ es := by nlinarith
    have h3 : ((n - 2 : Nat) * 2 ^ es : Int) = m * 2 ^ es + (n - 2 - m : Nat) * 2 ^ es := by
      rw [← add_mul]; congr 1; omega
    omega
  · omega

end Sys2Proof.Words
end

section
/-! # What a column of the tile adds (R266, R267) -/

namespace Sys2Proof.Words
open Sys2Proof Sys2Proof.Machine Sys2Proof.Claims

theorem matFmt_cases {c : Nat} (h : matFmt c = true) : c = 8 ∨ c = 9 ∨ c = 0xB := by
  simpa [matFmt, isTb8, or_assoc] using h

/-- Weight of the last digit of an element of A or of the tile, as a power of two. -/
def digitOf (c : Nat) : Int := if c = 9 then -28 else -12

/-- The number that a pattern is, 0 where it is none. -/
def realOf (c p : Nat) : ℚ := (ratOf (valueOf c p)).getD 0

theorem scaled_digit {s : Bool} {m : Nat} {x k : Int} (h : k ≤ x) : (scaled s m x k : ℚ) * 2 ^ k = (ratOf (.num s m x)).getD 0 :=
  scaled_eq h

/-- A pattern of the matrix path is an integer in units of its digit, or not-a-real. -/
theorem tapInt_cases {c : Nat} (hc : matFmt c = true) (p : Nat) :
    (valueOf c p = .nar ∧ tapInt c (digitOf c) p = none) ∨
    (valueOf c p ≠ .nar ∧ ∃ z, tapInt c (digitOf c) p = some z ∧ (z : ℚ) * 2 ^ digitOf c = realOf c p) := by
  have hval : ∃ n es, valueOf c p = tapVal n es (p % 2 ^ n) ∧ 3 ≤ n ∧ -((n - 2 : Nat) * 2 ^ es : Int) = digitOf c := by
    obtain rfl | rfl | rfl := matFmt_cases hc
    exacts [⟨8, 1, rfl, by decide, rfl⟩, ⟨16, 1, rfl, by decide, rfl⟩, ⟨8, 1, rfl, by decide, rfl⟩]
  obtain ⟨n, es, hv, hn, hd⟩ := hval
  have hcases := tapVal_cases n es hn (p % 2 ^ n) (Nat.mod_lt _ (Nat.two_pow_pos n))
  rw [← hv, hd] at hcases
  unfold tapInt realOf
  obtain ⟨h, -⟩ | h | ⟨s, m, x, h, hx⟩ := hcases <;> rw [h]
  · exact .inl ⟨rfl, rfl⟩
  · exact .inr ⟨by simp, 0, rfl, by simp [ratOf]⟩
  · exact .inr ⟨by simp, _, rfl, scaled_digit hx⟩

/-- What a term adds to a column, in integers and powers of two; none where something of it is not-a-real. -/
def columnTerm (m : Mat) (c cols n : Nat) (sa : Nat → Nat) (t : Term) : Option (Int × Int) :=
  (tapInt c (digitOf c) t.a).bind fun x => (tapInt c (digitOf c) (m.elt (fmtWidth c) cols t.k n)).bind fun y =>
    if isTb8 c then
      if sa t.k = 255 || m.scaleAt cols (t.k / 32) n = 255 then none
      else some (x * y, 2 * digitOf c + sa t.k + m.scaleAt cols (t.k / 32) n - 254)
    else some (x * y, 2 * digitOf c)

theorem columnSum_eq (m : Mat) (c cols n : Nat) (sa : Nat → Nat) (ts : List Term) :
    columnSum m c cols n sa ts = ts.mapM (columnTerm m c cols n sa) := rfl

/-- Something of a term is not-a-real. -/
def badTerm (m : Mat) (c cols n : Nat) (sa : Nat → Nat) (t : Term) : Prop :=
  valueOf c t.a = .nar ∨ valueOf c (m.elt (fmtWidth c) cols t.k n) = .nar ∨
    (isTb8 c = true ∧ (sa t.k = 255 ∨ m.scaleAt cols (t.k / 32) n = 255))

/-- The product of a term, with the scales of its blocks. -/
def termValue (m : Mat) (c cols n : Nat) (sa : Nat → Nat) (t : Term) : ℚ :=
  realOf c t.a * realOf c (m.elt (fmtWidth c) cols t.k n) *
    (if isTb8 c then 2 ^ ((sa t.k : Int) + m.scaleAt cols (t.k / 32) n - 254) else 1)

section
variable {c : Nat} (hc : matFmt c = true) (m : Mat) (cols n : Nat) (sa : Nat → Nat)
include hc

theorem columnTerm_bad {t : Term} (h : badTerm m c cols n sa t) : columnTerm m c cols n sa t = none := by
  unfold columnTerm
  obtain ⟨-, ha⟩ | ⟨hna, x, ha, -⟩ := tapInt_cases hc t.a <;> rw [ha]
  · rfl
  obtain ⟨-, hb⟩ | ⟨hnb, y, hb, -⟩ := tapInt_cases hc (m.elt (fmtWidth c) cols t.k n) <;> rw [hb]
  · rfl
  obtain h | h | ⟨htb, h⟩ := h
  · exact absurd h hna
  · exact absurd h hnb
  · show (if isTb8 c = true then _ else _) = _
    rw [if_pos htb, if_pos (by simpa using h)]

theorem columnTerm_good {t : Term} (h : ¬ badTerm m c cols n sa t) :
    ∃ x, columnTerm m c cols n sa t = some x ∧ termRat x = termValue m c cols n sa t := by
  unfold columnTerm termRat termValue
  unfold badTerm at h
  push Not at h
  obtain ⟨h1, h2, h3⟩ := h
  obtain ⟨hna, -⟩ | ⟨-, x, ha, hx⟩ := tapInt_cases hc t.a
  · exact absurd hna h1
  obtain ⟨hnb, -⟩ | ⟨-, y, hb, hy⟩ := tapInt_cases hc (m.elt (fmtWidth c) cols t.k n)
  · exact absurd hnb h2
  rw [ha, hb, ← hx, ← hy]
  simp only [Option.bind_some]
  cases htb : isTb8 c
  · refine ⟨_, rfl, ?_⟩
    rw [if_neg Bool.false_ne_true, two_mul, zpow_add₀ (by norm_num)]
    push_cast
    ring
  · obtain ⟨h4, h5⟩ := h3 htb
    rw [if_pos rfl, if_pos rfl, if_neg (by simp [h4, h5])]
    refine ⟨_, rfl, ?_⟩
    rw [show 2 * digitOf c + (sa t.k : Int) + m.scaleAt cols (t.k / 32) n - 254 =
      digitOf c + digitOf c + ((sa t.k : Int) + m.scaleAt cols (t.k / 32) n - 254) by ring,
      zpow_add₀ (by norm_num), zpow_add₀ (by norm_num)]
    push_cast
    ring

theorem columnSum_bad {ts : List Term} (h : ∃ t ∈ ts, badTerm m c cols n sa t) : columnSum m c cols n sa ts = none := by
  rw [columnSum_eq]
  induction ts with
  | nil => obtain ⟨t, ht, -⟩ := h; cases ht
  | cons t ts ih =>
    rw [List.mapM_cons]
    by_cases ht : badTerm m c cols n sa t
    · rw [columnTerm_bad hc m cols n sa ht]; rfl
    · obtain ⟨x, hx, -⟩ := columnTerm_good hc m cols n sa ht
      obtain ⟨u, hu, hbad⟩ := h
      rcases List.mem_cons.1 hu with rfl | hu
      · exact absurd hbad ht
      · rw [hx, ih ⟨u, hu, hbad⟩]; rfl

theorem columnSum_good {ts : List Term} (h : ¬ ∃ t ∈ ts, badTerm m c cols n sa t) :
    ∃ l, columnSum m c cols n sa ts = some l ∧ (l.map termRat).sum = (ts.map (termValue m c cols n sa)).sum := by
  rw [columnSum_eq]
  induction ts with
  | nil => exact ⟨[], rfl, rfl⟩
  | cons t ts ih =>
    obtain ⟨l, hl, hsum⟩ := ih fun ⟨u, hu, hb⟩ => h ⟨u, List.mem_cons_of_mem _ hu, hb⟩
    obtain ⟨x, hx, hval⟩ := columnTerm_good hc m cols n sa fun hb => h ⟨t, List.mem_cons_self, hb⟩
    refine ⟨x :: l, by rw [List.mapM_cons, hx, hl]; rfl, ?_⟩
    rw [List.map_cons, List.sum_cons, List.map_cons, List.sum_cons, hval, hsum]
end

end Sys2Proof.Words
end

section
/-! # The matrix engine: rows and slots, and how an `mma` executes (R260 to R267) -/

namespace Sys2Proof.Words
open Sys2Proof Sys2Proof.Machine Sys2Proof.Claims Sys2Proof.Laws Sys2Proof.Together

/-! ## Rows and slots -/

/-- An entry of a list by its number, after those with some numbers were kept. -/
theorem find_filter_key {β : Type} (l : List (Nat × β)) (keep : Nat → Bool) (j : Nat) :
    (l.filter fun p => keep p.1).find? (·.1 == j) = if keep j then l.find? (·.1 == j) else none := by
  rw [List.find?_filter]
  cases hk : keep j
  · rw [if_neg Bool.false_ne_true, List.find?_eq_none]
    intro p _ hp
    rw [decide_eq_true_eq, beq_iff_eq] at hp
    rw [hp.2, hk] at hp
    exact Bool.false_ne_true hp.1
  · rw [if_pos rfl]
    congr 1
    funext p
    by_cases hp : p.1 = j
    · simp [hp, hk]
    · simp [hp]

theorem row_setRow (x : MSlot) (n r : Nat) (y : MRow) (j : Nat) : (x.setRow r y).row n j = if j = r then y else x.row n j := by
  unfold MSlot.row MSlot.setRow
  dsimp only
  rw [List.find?_append, List.find?_cons, find_filter_key x.rows (fun a => decide (a < r)),
    find_filter_key x.rows fun a => decide (r < a)]
  rcases Nat.lt_trichotomy j r with h | rfl | h
  · simp only [h, decide_true, if_true, Nat.lt_asymm h, decide_false, Bool.false_eq_true, if_false, (beq_false_of_ne h.ne' : (r == j) = false),
      h.ne, Option.or_none]
  · simp
  · simp only [h, decide_true, if_true, Nat.lt_asymm h, decide_false, Bool.false_eq_true, if_false, (beq_false_of_ne h.ne : (r == j) = false),
      h.ne', Option.none_or]

theorem openIt_row (x : MSlot) (n j : Nat) : x.openIt.row n j = x.row n j := by unfold MSlot.openIt; split <;> rfl
theorem openIt_kind (x : MSlot) : x.openIt.kind = x.kind := by unfold MSlot.openIt; split <;> rfl
theorem openIt_unit (x : MSlot) : x.openIt.unit = x.unit := by unfold MSlot.openIt; split <;> rfl
theorem openIt_top (x : MSlot) : x.openIt.top = x.top := by unfold MSlot.openIt; split <;> rfl

theorem openIt_st {x : MSlot} (h : x.st = .free ∨ x.st = .opened) : x.openIt.st = .opened := by
  unfold MSlot.openIt
  split
  · rfl
  · next hf => exact h.resolve_left hf

theorem slot_setSlot (m : Mat) (a b : BitVec 3) (x : MSlot) : (m.setSlot a x).slot b = if b = a then x else m.slot b :=
  regs_get_set (n := 3) m.slots a b x

theorem gangOf_mapGang {s : State} {k : Nat} {g : Gang} {f : Gang → Gang} (hg : s.gangOf k = some g) (hf : ∀ g, (f g).key = g.key) :
    (s.mapGang k f).gangOf k = some (f g) := by
  have hk : g.key = k := by simpa using List.find?_some hg
  unfold State.gangOf at hg ⊢
  have hkey : ((fun g : Gang => g.key == k) ∘ fun g => if g.key = k then f g else g) = fun g => g.key == k := by
    funext x
    show ((if x.key = k then f x else x).key == k) = (x.key == k)
    split
    · rw [hf]
    · rfl
  show (s.gangs.map _).find? _ = _
  rw [List.find?_map, hkey, hg, Option.map_some, if_pos hk]

/-! ## How a member that changes its gang executes -/

/-- A member that changed nothing but its hart, the gangs and the counters retires. -/
theorem run_member_gangs {i : Instr} {body : M Unit} {s : State} {h : Hart} {gs : List Gang} {c : List PartCtr} (hf : fresh i s = true)
    (hb : body (s.begin i) = (.ok (), { s.begin i with h := h, gangs := gs, ctrs := c })) :
    ∃ r, (r = true → resumedNow s = true) ∧ (run i body s).h = retiredAs i r h ∧ RestSameC { s with gangs := gs } (run i body s) := by
  have hbeg : ({ s with gangs := gs } : State).begin i = { s.begin i with gangs := gs } := by unfold State.begin; dsimp only; split <;> rfl
  have hrun := run_member (s := { s with gangs := gs }) (i := i) (h := h) (c := c)
    (body := fun _ => (.ok (), { s.begin i with h := h, gangs := gs, ctrs := c })) hf (by rw [hbeg])
  rw [run_ok (t := { s.begin i with h := h, gangs := gs, ctrs := c }) rfl] at hrun
  rw [run_ok hb]
  exact hrun

section
variable {s u : State} (hu : Begun s u)
include hu

theorem holdM_ok {i : Instr} {g : Gang} (hg : s.gangOf s.h.gang = some g) (hm : g.desc.mat = true) : holdM i u = (.ok g, u) := by
  have hgang : gangM u = (.ok g, u) := by
    unfold gangM
    refine (bind_ok (show (get : M State) u = (.ok u, u) from rfl)).trans ?_
    rw [hu.h_eq, show u.gangOf s.h.gang = some g by rw [hu.eq]; exact hg]
    rfl
  unfold holdM
  refine (bind_ok hgang).trans ?_
  rw [hm]
  rfl

theorem lowDead_live {bs : List Nat} (h : ∀ b ∈ bs, s.h.deadBit b = false) : u.h.lowDead bs = none := by
  unfold Hart.lowDead
  rw [hu.h_eq, List.filter_eq_nil_iff.2 fun b hb => by simp [h b hb]]
  rfl

theorem checkLives_ok {bs : List Nat} (h : ∀ b ∈ bs, s.h.deadBit b = false) : checkLives bs u = (.ok (), u) := by
  unfold checkLives
  refine (bind_ok (show (get : M State) u = (.ok u, u) from rfl)).trans ?_
  rw [lowDead_live hu h]
  rfl

/-- The check of names with live registers that a descriptor adds (R117). -/
theorem checkNamed_more {i : Instr} {more : List Nat} (h : named i s = true) (hm : ∀ b ∈ more, s.h.deadBit b = false) :
    checkNamed i more u = (.ok (), u) := by
  have hnote : noteNames more u = (.ok (), u) := by
    show (Except.ok (), _) = (Except.ok (), u)
    dsimp only
    rw [lowDead_live hu hm]
  have hnamed := checkNamed_named hu h
  unfold checkNamed at hnamed ⊢
  rw [bind_ok (show getH u = (.ok u.h, u) from rfl)] at hnamed ⊢
  by_cases hc : ((namedBits i).any fun b => 56 ≤ b && u.h.streams ≤ b - 56) = true
  · rw [if_pos hc] at hnamed ⊢
    exact hnamed
  · rw [if_neg hc] at hnamed ⊢
    refine (bind_ok hnote).trans ?_
    exact (bind_ok (show noteNames [] u = (.ok (), u) from rfl)).symm.trans hnamed
end

theorem waitHead_ok {m : Mat} {u : State} (h : (m.slot m.head).st = .free ∨ (m.slot m.head).st = .opened) : waitHead m u = (.ok (), u) := by
  unfold waitHead
  obtain h | h := h <;> rw [h] <;> rfl

theorem eltPsn_zero {r : VReg} (h : r.psn = 0) (w e : Nat) : r.eltPsn w e = false := by
  unfold VReg.eltPsn
  rw [h]
  simp

theorem matEltPsn_zero {m : Mat} (h : m.tilePsn = 0) (w cols k n : Nat) : m.eltPsn w cols k n = false := by
  unfold Mat.eltPsn
  rw [h]
  simp

/-! ## An `mma` (R264, R266, R267) -/

/-- The register of the scales of A (R266). -/
def scaleReg (fm : Form) : BitVec 5 := (e5Of fm).setWidth 5

/-- The fields of an `mma`: its row word, SEL′ and the terms of the row. -/
def mmaWord (r : BitVec 5) (h : Hart) : Nat := (h.getX (r.setWidth 6)).toNat
def mmaPick (fd : DWord) (r a : BitVec 5) (k : MmaForm) (h : Hart) (g : Gang) : Nat × List Term :=
  mmaTerms h g.rb (depthOf fd) (fmtWidth (fdFA fd)) (bits (mmaWord r h) 0 8) a k

/-- The row of slot H that it adds to. -/
def mmaRowNo (r : BitVec 5) (h : Hart) (g : Gang) : Nat := bits (mmaWord r h) 16 7 % matRows (g.mat.slot g.mat.head).kind

/-- The scale byte of A for index t. -/
def mmaScaleA (fm : Form) (fd : DWord) (r a : BitVec 5) (k : MmaForm) (h : Hart) (g : Gang) (t : Nat) : Nat :=
  (h.getV (scaleReg fm)).elt 8 (((mmaPick fd r a k h g).1 * depthOf fd + t) / 32)

/-- The terms whose index the tile has. -/
def mmaUsed (fd : DWord) (r a : BitVec 5) (k : MmaForm) (h : Hart) (g : Gang) : List Term :=
  (mmaPick fd r a k h g).2.filter fun t => t.k < depthOf fd

/-- The row after it, where format and depth agree with the tag and the kind. -/
def mmaSums (fm : Form) (fd : DWord) (r a : BitVec 5) (k : MmaForm) (h : Hart) (g : Gang) : MRow :=
  mmaRow g.mat (g.mat.slot g.mat.head).openIt false (fdFA fd) (g.cols (fdFA fd)) (mmaScaleA fm fd r a k h g) (mmaUsed fd r a k h g)
    ((g.mat.slot g.mat.head).row (g.cols (fdFA fd)) (mmaRowNo r h g))

/-- Slot H after it. -/
def mmaSlot (fm : Form) (fd : DWord) (r a : BitVec 5) (k : MmaForm) (h : Hart) (g : Gang) : MSlot :=
  (g.mat.slot g.mat.head).openIt.setRow (mmaRowNo r h g) (mmaSums fm fd r a k h g)

/-- The registers that its form reads. -/
def mmaRegs (a : BitVec 5) : MmaForm → List (BitVec 5)
  | .indexed v => [a, v]
  | _ => [a]

/-- The conditions of the statement: slot H takes the command, and format and depth agree with the tile's tag and the slot's kind. -/
structure MmaReady (fm : Form) (f : BitVec 3) (k : MmaForm) (s : State) (g : Gang) : Prop where
  gang : s.gangOf s.h.gang = some g
  mat : g.desc.mat = true
  st : (g.mat.slot g.mat.head).st = .free ∨ (g.mat.slot g.mat.head).st = .opened
  kind : (g.mat.slot g.mat.head).kind = fdFA (fdValue fm f s.h)
  fmt : g.mat.fmt = fdFA (fdValue fm f s.h)
  depth : g.mat.k = depthOf (fdValue fm f s.h)
  fd : fdOk { fa := some matFmt, fb := some matFmt, dst := some matFmt, kdep := true, noBlock := true } (fdValue fm f s.h) = true
  fb : fdFB (fdValue fm f s.h) = fdFA (fdValue fm f s.h)
  dst : fdDst (fdValue fm f s.h) = fdFA (fdValue fm f s.h)
  tilePsn : g.mat.tilePsn = 0
  scalePsn : g.mat.scalePsn = 0
  scales : if isTb8 (fdFA (fdValue fm f s.h)) then (∃ e l, fm = .ext e ∨ fm = .extLit e l) ∧ s.h.deadBit (vBit (scaleReg fm)) = false ∧
    (s.h.getV (scaleReg fm)).psn = 0 else e5Of fm = 0
  indexed : ∀ v, k = .indexed v → isTb8 (fdFA (fdValue fm f s.h)) = false

end Sys2Proof.Words
end

section
/-! # What an `mma` leaves (R264, R266, R267) -/

namespace Sys2Proof.Words
open Sys2Proof Sys2Proof.Machine Sys2Proof.Claims Sys2Proof.Laws Sys2Proof.Together

theorem named_fresh {i : Instr} {s : State} (h : named i s = true) : fresh i s = true := by
  unfold named at h
  exact (Bool.and_eq_true _ _ ▸ h).1

theorem noSlots_append {l l' : List (BitVec 5)} {h : Hart} (hs : noSlots (l ++ l') h = true) :
    noSlots l h = true ∧ noSlots l' h = true := by
  unfold noSlots at hs ⊢
  rwa [List.all_append, Bool.and_eq_true] at hs

/-- A check that is made only where it applies. -/
theorem check_if_ok {β : Type} {c : Prop} [Decidable c] {m : M Unit} {next : Unit → M β} {u : State} (h : c → m u = (.ok (), u)) :
    (if c then m >>= next else next ()) u = next () u := by
  split
  · next hc => exact bind_ok (h hc)
  · rfl

/-- The form has the fifth operand. -/
def hasE5 : Form → Bool
  | .ext _ | .extLit _ _ => true
  | _ => false

/-- The index of a term is an element of a register. -/
def isIndexed : MmaForm → Bool
  | .indexed _ => true
  | _ => false

/-- The check of the register of indexes, where the form has one. -/
theorem noSlot_form_ok {β : Type} {s u : State} (hu : Begun s u) {a : BitVec 5} {k : MmaForm} {next : Unit → M β}
    (h : noSlots (mmaRegs a k) s.h = true) :
    (match (generalizing := false) k with | .indexed v => noSlot v >>= next | _ => next ()) u = next () u := by
  cases k with
  | indexed v => exact bind_ok (noSlot_ok hu (noSlots_cons (noSlots_cons h).2).1)
  | plain => rfl
  | s24 m => rfl

section
variable {fm : Form} {r a : BitVec 5} {f : BitVec 3} {k : MmaForm} {s : State} {g : Gang} {i : Instr}

theorem MmaReady.fdOk (h : MmaReady fm f k s g) :
    (fdOk { fa := some matFmt, fb := some matFmt, dst := some matFmt, kdep := true, noBlock := true } (fdValue fm f s.h) &&
      fdFB (fdValue fm f s.h) == fdFA (fdValue fm f s.h) && fdDst (fdValue fm f s.h) == fdFA (fdValue fm f s.h) &&
      (!isTb8 (fdFA (fdValue fm f s.h)) || (hasE5 fm && !isIndexed k))) = true := by
  rw [h.fd, h.fb, h.dst]
  have hscales := h.scales
  cases htb : isTb8 (fdFA (fdValue fm f s.h))
  · simp
  · rw [htb, if_pos rfl] at hscales
    have hk : isIndexed k = false := by
      cases k with
      | indexed v => exact absurd (h.indexed v rfl) (by simp [htb])
      | plain => rfl
      | s24 m => rfl
    obtain ⟨⟨e, l, rfl | rfl⟩, -⟩ := hscales <;> simp [hasE5, hk]

theorem MmaReady.live (h : MmaReady fm f k s g) (hc : isTb8 (fdFA (fdValue fm f s.h)) = true) :
    s.h.deadBit (vBit (scaleReg fm)) = false ∧ (s.h.getV (scaleReg fm)).psn = 0 := by
  have hscales := h.scales
  rw [if_pos hc] at hscales
  exact hscales.2

theorem mmaSlot_eq {sel : Nat} {ts : List Term} (h : MmaReady fm f k s g) (hpick : mmaPick (fdValue fm f s.h) r a k s.h g = (sel, ts)) :
    let fd := fdValue fm f s.h
    let x := (g.mat.slot g.mat.head).openIt
    let row := bits (mmaWord r s.h) 16 7 % matRows x.kind
    mmaSlot fm fd r a k s.h g = x.setRow row (mmaRow g.mat x
      (x.kind != fdFA fd || !(decide (g.mat.fmt = fdFA fd) && decide (g.mat.k = depthOf fd))) (fdFA fd) (g.cols (fdFA fd))
      (fun t => (s.h.getV (scaleReg fm)).elt 8 ((sel * depthOf fd + t) / 32)) (ts.filter fun t => t.k < depthOf fd)
      (x.row (g.cols x.kind) row)) := by
  intro fd x row
  have hmis : (x.kind != fdFA fd || !(decide (g.mat.fmt = fdFA fd) && decide (g.mat.k = depthOf fd))) = false := by
    rw [openIt_kind, h.kind, h.fmt, h.depth]
    simp [fd]
  have hrow : row = mmaRowNo r s.h g := by unfold row mmaRowNo; rw [openIt_kind]
  have hscale : mmaScaleA fm fd r a k s.h g = fun t => (s.h.getV (scaleReg fm)).elt 8 ((sel * depthOf fd + t) / 32) := by
    unfold mmaScaleA; rw [hpick]
  have hused : mmaUsed fd r a k s.h g = ts.filter fun t => t.k < depthOf fd := by unfold mmaUsed; rw [hpick]
  rw [hmis, hrow, openIt_kind, openIt_row, h.kind, ← hscale, ← hused]
  rfl

theorem modMat_ok {u : State} (hu : Begun s u) {F G : Mat → Mat} (h : F = G) :
    modMat F u = (.ok (), { u with h := s.h, gangs := (s.mapGang s.h.gang fun x => { x with mat := G x.mat }).gangs }) := by
  subst h
  show (Except.ok (), u.mapGang u.h.gang _) = _
  rw [hu.eq]
  rfl

/-- An `mma`, once its checks are over. -/
theorem mmaBody_ok (h : MmaReady fm f k s g) (hn : named i s = true)
    (hs : noSlots (mmaRegs a k ++ if isTb8 (fdFA (fdValue fm f s.h)) then [scaleReg fm] else []) s.h = true)
    (hp : (mmaPick (fdValue fm f s.h) r a k s.h g).2.all (fun t => !t.p) = true) :
    ∃ c, mmaBody i fm r a f k (s.begin i) = (.ok (), { s.begin i with
      h := s.h
      gangs := (s.mapGang s.h.gang fun x => { x with mat := x.mat.setSlot x.mat.head (mmaSlot fm (fdValue fm f s.h) r a k s.h g) }).gangs
      ctrs := c }) := by
  have hu := begun_of_fresh (named_fresh hn)
  have hok := h.fdOk
  have hlives : isTb8 (fdFA (fdValue fm f s.h)) = true → ∀ b ∈ [vBit (scaleReg fm)], s.h.deadBit b = false := fun hc b hb => by
    rw [List.mem_singleton.1 hb]; exact (h.live hc).1
  have hmore : ∀ b ∈ (if (fdOk { fa := some matFmt, fb := some matFmt, dst := some matFmt, kdep := true, noBlock := true } (fdValue fm f s.h) &&
      fdFB (fdValue fm f s.h) == fdFA (fdValue fm f s.h) && fdDst (fdValue fm f s.h) == fdFA (fdValue fm f s.h) &&
      (!isTb8 (fdFA (fdValue fm f s.h)) || (hasE5 fm && !isIndexed k)) && isTb8 (fdFA (fdValue fm f s.h))) then [vBit (scaleReg fm)] else []),
      s.h.deadBit b = false := fun b hb => by
    rw [hok, Bool.true_and] at hb
    split at hb
    · next hc => exact hlives hc b hb
    · cases hb
  have hunused : (!isTb8 (fdFA (fdValue fm f s.h)) && e5Of fm != 0) = false := by
    have hscales := h.scales
    cases htb : isTb8 (fdFA (fdValue fm f s.h))
    · rw [htb, if_neg Bool.false_ne_true] at hscales
      simp [hscales]
    · rfl
  obtain ⟨hregs, hz⟩ := noSlots_append hs
  have ha : (s.h.slotOf a).isNone = true := by cases k <;> exact (noSlots_cons hregs).1
  have hzs : isTb8 (fdFA (fdValue fm f s.h)) = true → noSlot (scaleReg fm) (s.begin i) = (.ok (), s.begin i) := fun hc => by
    rw [if_pos hc] at hz
    exact noSlot_ok hu (noSlots_cons hz).1
  let u : State := { s.begin i with
    h := s.h
    gangs := (s.mapGang s.h.gang fun x => { x with mat := x.mat.setSlot x.mat.head (mmaSlot fm (fdValue fm f s.h) r a k s.h g) }).gangs }
  suffices hb : mmaBody i fm r a f k (s.begin i) = (.ok (), u.count s.h.id.core s.h.id.part 4 1) from
    ⟨_, hb.trans (congrArg (Prod.mk _) (State.count_eq ..))⟩
  unfold mmaBody
  refine (bind_ok (holdM_ok hu h.gang h.mat)).trans ?_
  refine (bind_ok (waitHead_ok h.st)).trans ?_
  refine (bind_ok hu.getH).trans ?_
  refine (bind_ok (checkNamed_more hu hn hmore)).trans ?_
  refine (bind_ok (checkFd_ok hok)).trans ?_
  refine (bind_ok (checkUnused_ok hunused)).trans ?_
  refine (check_if_ok fun hc => checkLives_ok hu (hlives hc)).trans ?_
  refine (bind_ok (noSlot_ok hu ha)).trans ?_
  refine (noSlot_form_ok hu hregs).trans ?_
  refine (check_if_ok hzs).trans ?_
  rcases hpick : mmaPick (fdValue fm f s.h) r a k s.h g with ⟨sel, ts⟩
  have hterms : (ts.any fun t => t.p) = false := List.any_eq_false.2 fun t ht => by
    rw [hpick] at hp
    simpa using List.all_eq_true.1 hp t ht
  unfold mmaPick mmaWord at hpick
  dsimp only
  rw [hpick]
  refine (check_if_ok fun hc => absurd hc ?_).trans ?_
  · cases htb : isTb8 (fdFA (fdValue fm f s.h))
    · simp
    · have hpsn : (s.h.getV (BitVec.setWidth 5 (e5Of fm))).psn = 0 := (h.live htb).2
      simp [eltPsn_zero hpsn, h.scalePsn]
  refine (check_if_ok fun hc => absurd hc ?_).trans ?_
  · simp [hterms, matEltPsn_zero h.tilePsn]
  refine (bind_ok (modMat_ok hu (G := fun m => m.setSlot m.head (mmaSlot fm (fdValue fm f s.h) r a k s.h g)) ?_)).trans rfl
  exact congrArg (fun X => fun m : Mat => m.setSlot m.head X) (mmaSlot_eq h hpick).symm
end

end Sys2Proof.Words
end

section
/-! # The forms of `mma` (R264, R266, R267) -/

namespace Sys2Proof.Words
open Sys2Proof Sys2Proof.Machine Sys2Proof.Claims Sys2Proof.Laws Sys2Proof.Together

/-- An accumulator after the terms of its column. -/
def addColumn (m : Mat) (x : MSlot) (c cols : Nat) (sa : Nat → Nat) (ts : List Term) (j : Nat) (e : Accum) : Accum :=
  match columnSum m c cols j sa ts with
  | none => { e with nar := true }
  | some l => (e.add x.unit x.top l).1

section
variable (m : Mat) (x : MSlot) (c cols : Nat) (sa : Nat → Nat) (ts : List Term) (row : MRow)

theorem mmaRow_elts : (mmaRow m x false c cols sa ts row).elts =
    ((List.range row.elts.length).zip row.elts).map fun p => addColumn m x c cols sa ts p.1 p.2 := by
  show (List.map _ _).map _ = _
  rw [List.map_map]
  refine List.map_congr_left fun p _ => ?_
  unfold addColumn
  dsimp only [Function.comp]
  cases columnSum m c cols p.1 sa ts <;> rfl

theorem mmaRow_length : (mmaRow m x false c cols sa ts row).elts.length = row.elts.length := by
  rw [mmaRow_elts, List.length_map, List.length_zip, List.length_range, min_self]

theorem mmaRow_getElem? {j : Nat} {e : Accum} (h : row.elts[j]? = some e) :
    (mmaRow m x false c cols sa ts row).elts[j]? = some (addColumn m x c cols sa ts j e) := by
  have hj : j < row.elts.length := (List.getElem?_eq_some_iff.1 h).1
  have hzip : ((List.range row.elts.length).zip row.elts)[j]? = some (j, e) :=
    List.getElem?_zip_eq_some.2 ⟨by rw [List.getElem?_range hj], h⟩
  rw [mmaRow_elts, List.getElem?_map, hzip]
  rfl

variable {c} (hc : matFmt c = true) (j : Nat) (e : Accum)
include hc

theorem addColumn_bad (h : ∃ t ∈ ts, badTerm m c cols j sa t) : addColumn m x c cols sa ts j e = { e with nar := true } := by
  unfold addColumn
  rw [columnSum_bad hc m cols j sa h]

theorem addColumn_held (h : ¬ ∃ t ∈ ts, badTerm m c cols j sa t) (he : e.nar = true ∨ e.ovf.isSome = true) :
    addColumn m x c cols sa ts j e = e := by
  unfold addColumn
  obtain ⟨l, hl, -⟩ := columnSum_good hc m cols j sa h
  rw [hl]
  exact Accum.add_held he ..

theorem addColumn_sum (h : ¬ ∃ t ∈ ts, badTerm m c cols j sa t) (hn : e.nar = false) (ho : e.ovf = none) {q : Int} {total : ℚ}
    (ht : total = e.v * 2 ^ x.unit + (ts.map (termValue m c cols j sa)).sum) (hq : |total - q * 2 ^ x.unit| * 2 ≤ 2 ^ x.unit)
    (htie : |total - q * 2 ^ x.unit| * 2 = 2 ^ x.unit → q % 2 = 0) :
    addColumn m x c cols sa ts j e =
      if -2 ^ x.top ≤ q ∧ q < 2 ^ x.top then { e with v := q } else { e with ovf := some (decide (q < 0)) } := by
  unfold addColumn
  obtain ⟨l, hl, hsum⟩ := columnSum_good hc m cols j sa h
  rw [hl]
  rw [ht, ← hsum] at hq htie
  exact Accum.add_eq hn ho hq htie
end

theorem bits_two {n : Nat} (x : BitVec n) (lo : Nat) : bits x.toNat lo 2 = (x.getLsbD lo).toNat + 2 * (x.getLsbD (lo + 1)).toNat := by
  have h := bits_split x.toNat lo 1 1
  have hbit : ∀ i, bits x.toNat i 1 = (x.getLsbD i).toNat := fun i => (Nat.toNat_testBit ..).symm
  rwa [hbit, hbit] at h

section
variable {fm : Form} {r a : BitVec 5} {f : BitVec 3} {k : MmaForm} {s : State} {g : Gang} {i : Instr}

/-- What an `mma` leaves: the row with its sums in slot H, which is open, and everything else as it was. -/
theorem mma_done (h : MmaReady fm f k s g) (hexec : exec i s = .next (run i (mmaBody i fm r a f k) s)) (hlen : instrLen i = fm.len)
    (hn : named i s = true) (hs : noSlots (mmaRegs a k ++ if isTb8 (fdFA (fdValue fm f s.h)) then [scaleReg fm] else []) s.h = true)
    (hp : (mmaPick (fdValue fm f s.h) r a k s.h g).2.all (fun t => !t.p) = true) :
    ∃ t mat, exec i s = .next t ∧ (t.gangOf s.h.gang).map (·.mat) = some mat ∧ (mat.slot g.mat.head).st = .opened ∧
      (∀ n j, (mat.slot g.mat.head).row n j =
        if j = mmaRowNo r s.h g then mmaSums fm (fdValue fm f s.h) r a k s.h g else (g.mat.slot g.mat.head).row n j) ∧
      (∀ b, b ≠ g.mat.head → mat.slot b = g.mat.slot b) ∧ mat.tile = g.mat.tile ∧ mat.head = g.mat.head ∧ mat.tail = g.mat.tail ∧
      Passed fm s t ∧ VesKept s t ∧ RestSameC { s with gangs := t.gangs } t ∧
      t.h = { s.h with pc := t.h.pc, park := none, ves := t.h.ves, vcm := t.h.vcm } := by
  obtain ⟨c, hb⟩ := mmaBody_ok h hn hs hp
  obtain ⟨z, hz, hh, hrest⟩ := run_member_gangs (named_fresh hn) hb
  have hgangs := congrArg State.gangs hrest.2
  refine ⟨_, g.mat.setSlot g.mat.head (mmaSlot fm (fdValue fm f s.h) r a k s.h g), hexec, ?_, ?_, fun n j => ?_, fun b hb => ?_, rfl, rfl, rfl,
    ?_, vesKept_of hz hh rfl rfl, ?_, ?_⟩
  · have hg := gangOf_mapGang (f := fun x => { x with mat := x.mat.setSlot x.mat.head (mmaSlot fm (fdValue fm f s.h) r a k s.h g) })
      h.gang fun _ => rfl
    unfold State.gangOf at hg ⊢
    rw [hgangs]
    exact congrArg (Option.map _) hg
  · rw [slot_setSlot, if_pos rfl]
    exact openIt_st h.st
  · rw [slot_setSlot, if_pos rfl, mmaSlot, row_setRow, openIt_row]
  · rw [slot_setSlot, if_neg hb]
  · show (run i _ s).h.pc = _
    rw [hh, ← hlen]; rfl
  · rw [hgangs]; exact hrest
  · rw [hh]; rfl

theorem mmaPick_picked (fd : DWord) (h : Hart) :
    let kd := depthOf fd
    let elt := fun e => (h.getV a).elt (fmtWidth (fdFA fd)) e
    let sel := (mmaPick fd r a k h g).1
    (mmaPick fd r a k h g).2.map (fun t => (t.a, t.k)) = match k with
      | .plain => (List.range kd).map fun j => (elt (sel * kd + j), j)
      | .s24 m => (List.range (kd / 2)).map fun j =>
          let b := sel * kd % h.grant 8 + 2 * j
          (elt (sel * (kd / 2) + j), 4 * (j / 2) + ((h.getM m).getLsbD b).toNat + 2 * ((h.getM m).getLsbD (b + 1)).toNat)
      | .indexed v => (List.range kd).map fun j => (elt (sel * kd + j), (h.getV v).elt 8 (sel * kd + j)) := by
  intro kd elt sel
  cases k with
  | plain => exact List.map_map
  | indexed v => exact List.map_map
  | s24 m =>
    refine List.map_map.trans (List.map_congr_left fun j _ => ?_)
    show (_, 4 * (j / 2) + bits (h.getM m).toNat _ 2) = _
    rw [bits_two, ← Nat.add_assoc]
    rfl
end

end Sys2Proof.Words
end

section
/-! # Elements read out with one poison tag: `mpeek` (R155, R270, R276) -/

namespace Sys2Proof.Words
open Sys2Proof Sys2Proof.Machine Sys2Proof.Claims Sys2Proof.Laws Sys2Proof.Together

/-- Elements written one after the other, all with the same poison tag. -/
def tagElts (w : Nat) (p : Bool) (l : List (Nat × Nat)) (r : VReg) : VReg := l.foldl (fun r x => r.setElt w x.1 x.2 p) r

theorem tagElts_cons (w : Nat) (p : Bool) (x : Nat × Nat) (l : List (Nat × Nat)) (r : VReg) :
    tagElts w p (x :: l) r = tagElts w p l (r.setElt w x.1 x.2 p) := rfl

/-- The tag makes no difference to the bits. -/
theorem tagElts_bits (w : Nat) (p : Bool) (l : List (Nat × Nat)) {r r' : VReg} (h : r.bits = r'.bits) :
    (tagElts w p l r).bits = (putElts w l r').bits := by
  induction l generalizing r r' with
  | nil => exact h
  | cons x l ih =>
    rw [tagElts_cons, putElts_cons]
    exact ih (by rw [VReg.setElt_bits, VReg.setElt_bits, h])

theorem tagElts_psn (w : Nat) (p : Bool) (l : List (Nat × Nat)) (r : VReg) :
    (tagElts w p l r).psn = (l.flatMap fun x => eltBytes w x.1).foldl (fun t i => setBit t i p) r.psn := by
  induction l generalizing r with
  | nil => rfl
  | cons x l ih => rw [tagElts_cons, ih, List.flatMap_cons, List.foldl_append]; rfl

theorem getLsbD_tagElts_psn (w : Nat) (p : Bool) (l : List (Nat × Nat)) (r : VReg) (j : Nat) :
    (tagElts w p l r).psn.getLsbD j = if j < 2048 ∧ ∃ x ∈ l, j ∈ eltBytes w x.1 then p else r.psn.getLsbD j := by
  rw [tagElts_psn, getLsbD_setAll]
  simp only [List.mem_flatMap]

section
variable {w : Nat} (hw : wholeBytes w)
include hw

/-- The register after the writes holds exactly these elements, each with the tag. -/
theorem gotElts_tagElts {g : Nat → Option (Nat × Bool)} {p : Bool} {l : List (Nat × Nat)} (r : VReg) (hd : (l.map (·.1)).Nodup)
    (hb : ∀ x ∈ l, (x.1 + 1) * w ≤ 16384) (hg : ∀ e v q, g e = some (v, q) ↔ q = p ∧ (e, v) ∈ l) : GotElts w g r (tagElts w p l r) := by
  have hbits := tagElts_bits w p l (r := r) rfl
  have hsome : ∀ x ∈ l, (g x.1).isSome := fun x hx => by rw [(hg x.1 x.2 p).2 ⟨rfl, hx⟩]; rfl
  refine ⟨fun e v q h => ?_, fun j hj => ?_, fun j hj => ?_⟩
  · obtain ⟨rfl, hm⟩ := (hg e v q).1 h
    have hbe : (e + 1) * w ≤ 16384 := hb _ hm
    have helt : (tagElts w q l r).elt w e = (putElts w l r).elt w e := by unfold VReg.elt; rw [hbits]
    refine ⟨helt.trans (putElts_mem hw l r hd hb hm).1, ?_⟩
    refine Eq.trans (eltPsn_eq_of fun j hj => ?_) (eltPsn_setElt_same hw (tagElts w q l r) e v q hbe)
    have hlt := (mem_eltBytes hw e j).1 hj
    show _ = ((eltBytes w e).foldl (fun t i => setBit t i q) (tagElts w q l r).psn).getLsbD j
    rw [getLsbD_setAll, getLsbD_tagElts_psn, if_pos ⟨by omega, _, hm, hj⟩, if_pos ⟨by omega, hj⟩]
  · rw [hbits]
    exact (putElts_outside hw l r).1 j fun x hx => hj _ (hsome x hx)
  · rw [getLsbD_tagElts_psn, if_neg]
    rintro ⟨-, x, hx, hmem⟩
    have := (mem_eltBytes hw x.1 j).1 hmem
    have := hj _ (hsome x hx)
    omega
end

/-- The hart after elements with one tag are placed in vector register d. -/
def tagged (d : BitVec 5) (w : Nat) (p : Bool) (l : List (Nat × Nat)) (h : Hart) : Hart :=
  if l.isEmpty then h else (h.setV d (tagElts w p l (h.getV d))).dirty (vBit d)

theorem tagged_eq (d : BitVec 5) (w : Nat) (p : Bool) (l : List (Nat × Nat)) (h : Hart) : tagged d w p l h =
    { h with v := (tagged d w p l h).v, vdirty := (tagged d w p l h).vdirty, vlive := (tagged d w p l h).vlive } := by
  cases l <;> rfl

theorem getV_tagged (d : BitVec 5) (w : Nat) (p : Bool) (l : List (Nat × Nat)) (h : Hart) (r : BitVec 5) :
    (tagged d w p l h).getV r = if r = d then tagElts w p l (h.getV d) else h.getV r := by
  cases l with
  | nil =>
    show h.getV r = if r = d then h.getV d else h.getV r
    split
    · next hr => rw [hr]
    · rfl
  | cons x l =>
    show (Hart.dirty _ _).getV r = _
    rw [Hart.getV_dirty, Hart.getV_setV]

theorem placeElts_eq (d : BitVec 5) (w : Nat) (p : Bool) (l : List (Nat × Nat)) (u : State) :
    placeElts d w (l.map fun x => (x.1, x.2, p)) u = (.ok (), { u with h := tagged d w p l u.h }) := by
  show (Except.ok (), { u with h := if (l.map _).isEmpty then u.h else _ }) = _
  rw [List.isEmpty_map, List.foldl_map]
  rfl

/-- A member that placed elements with one tag. -/
theorem vDone_of_tagged {i : Instr} {body : M Unit} {s : State} {fm : Form} {d : BitVec 5} {w : Nat} {p : Bool} {l : List (Nat × Nat)}
    {g : Nat → Option (Nat × Bool)} (hf : fresh i s = true) (hlen : instrLen i = fm.len) (hw : wholeBytes w)
    (hd : (l.map (·.1)).Nodup) (hbound : ∀ x ∈ l, (x.1 + 1) * w ≤ 16384) (hg : ∀ e v q, g e = some (v, q) ↔ q = p ∧ (e, v) ∈ l)
    (hb : body (s.begin i) = (.ok (), { s.begin i with h := tagged d w p l s.h })) : VDone fm d w g s (run i body s) := by
  obtain ⟨r, hr, hh, hrest⟩ := run_member (c := (s.begin i).ctrs) hf hb
  have hany : (∃ e, (g e).isSome) ↔ l ≠ [] := by
    constructor
    · rintro ⟨e, he⟩ rfl
      obtain ⟨⟨v, q⟩, hgv⟩ := Option.isSome_iff_exists.1 he
      exact absurd ((hg e v q).1 hgv).2 (List.not_mem_nil)
    · intro hne
      obtain ⟨x, l', rfl⟩ := List.exists_cons_of_ne_nil hne
      exact ⟨x.1, by rw [(hg x.1 x.2 p).2 ⟨rfl, List.mem_cons_self⟩]; rfl⟩
  have hv : ∀ k, (run i body s).h.getV k = (tagged d w p l s.h).getV k := fun k => by rw [hh]; rfl
  have hvd : (run i body s).h.vdirty = (tagged d w p l s.h).vdirty := by rw [hh]; rfl
  have hvl : (run i body s).h.vlive = (tagged d w p l s.h).vlive := by rw [hh]; rfl
  obtain ⟨v, vd, vl, hwr⟩ : ∃ v vd vl, tagged d w p l s.h = { s.h with v := v, vdirty := vd, vlive := vl } := ⟨_, _, _, tagged_eq ..⟩
  refine ⟨?_, fun k hk => ?_, dirtied_of (fun hn => ?_) (fun ha => ?_), ?_, vesKept_of hr hh ?_ ?_, hrest, ?_⟩
  · rw [hv, getV_tagged, if_pos rfl]
    exact gotElts_tagElts hw _ hd hbound hg
  · rw [hv, getV_tagged, if_neg hk]
  · rw [hvd, hvl, not_not.1 (mt hany.2 hn)]
    exact ⟨rfl, rfl⟩
  · obtain ⟨x, l', rfl⟩ := List.exists_cons_of_ne_nil (hany.1 ha)
    rw [hvd, hvl]
    exact ⟨rfl, rfl⟩
  · show (run i body s).h.pc = _
    rw [hh, hwr, ← hlen]; rfl
  · rw [hwr]
  · rw [hwr]
  · rw [hh, hwr]; rfl

/-! ## `mpeek` -/

/-- What an accumulator reads out as: its value, not-a-real, or its overflow in the format of the result. -/
def peekValue (fd : DWord) (unit : Int) (e : Accum) : Val :=
  if e.nar then .nar
  else match e.ovf with
    | some neg => if fdDst fd ≤ 2 && !fdSat fd then .inf neg else .num neg 1 5000
    | none => if e.v = 0 then .zero false else .num (e.v < 0) e.v.natAbs unit

theorem read_peekValue (fd : DWord) (unit : Int) (e : Accum) :
    (if (e.read unit).2 then overflowVal fd (e.read unit).1 else (e.read unit).1) = peekValue fd unit e := by
  unfold Accum.read peekValue
  cases e.nar
  · cases e.ovf <;> rfl
  · rfl

/-- The row that an `mpeek` reads. -/
def peekRow (a : BitVec 3) (r : BitVec 6) (h : Hart) (g : Gang) : MRow :=
  (g.mat.slot a).row (g.cols (g.mat.slot a).kind) (bits (h.getX r).toNat 16 7 % matRows (g.mat.slot a).kind)

/-- The patterns that it places. -/
def peekPats (fm : Form) (a : BitVec 3) (r : BitVec 6) (h : Hart) (g : Gang) : List (Nat × Nat) :=
  let row := peekRow a r h g
  ((List.range row.elts.length).zip row.elts).map fun x =>
    (x.1, (RCtx.mk (fdxValue fm h) h.sseed h.sbase).roundNoSub (fdDst (fdxValue fm h)) x.1
      (peekValue (fdxValue fm h) (g.mat.slot a).unit x.2))

theorem fst_peekPats (fm : Form) (a : BitVec 3) (r : BitVec 6) (h : Hart) (g : Gang) :
    (peekPats fm a r h g).map (·.1) = List.range (peekRow a r h g).elts.length := by
  unfold peekPats
  rw [List.map_map]
  exact List.map_fst_zip (by rw [List.length_range])

theorem mem_peekPats {fm : Form} {a : BitVec 3} {r : BitVec 6} {h : Hart} {g : Gang} {e v : Nat} :
    (e, v) ∈ peekPats fm a r h g ↔ ∃ x, (peekRow a r h g).elts[e]? = some x ∧
      (RCtx.mk (fdxValue fm h) h.sseed h.sbase).roundNoSub (fdDst (fdxValue fm h)) e (peekValue (fdxValue fm h) (g.mat.slot a).unit x) = v := by
  unfold peekPats
  simp only [List.mem_map, Prod.mk.injEq, Prod.exists]
  constructor
  · rintro ⟨n, x, hm, rfl, hv⟩
    obtain ⟨i, hi⟩ := List.mem_iff_getElem?.1 hm
    obtain ⟨hn, hx⟩ := List.getElem?_zip_eq_some.1 hi
    obtain ⟨hlt, rfl⟩ := List.getElem?_eq_some_iff.1 hn
    rw [List.getElem_range] at hv ⊢
    exact ⟨x, hx, hv⟩
  · rintro ⟨x, hx, hv⟩
    have hlt := (List.getElem?_eq_some_iff.1 hx).1
    exact ⟨e, x, List.mem_iff_getElem?.2 ⟨e, List.getElem?_zip_eq_some.2 ⟨List.getElem?_range hlt, hx⟩⟩, rfl, hv⟩

section
variable {i : Instr} {fm : Form} {d : BitVec 5} {a : BitVec 3} {r : BitVec 6} {s : State} {g : Gang}

theorem mpeekBody_ok (hg : s.gangOf s.h.gang = some g) (hm : g.desc.mat = true) (hn : named i s = true)
    (hs : (s.h.slotOf d).isNone = true) (hfd : fdOk { dst := some isFloating, rounds := true } (fdxValue fm s.h) = true)
    (hsub : fdSub (fdxValue fm s.h) = false) :
    mpeekBody i fm d a r (s.begin i) = (.ok (), { s.begin i with
      h := tagged d (fmtWidth (fdDst (fdxValue fm s.h))) (peekRow a r s.h g).psn (peekPats fm a r s.h g) s.h }) := by
  have hu := begun_of_fresh (named_fresh hn)
  have hctx : rctx (fdxValue fm s.h) (s.begin i) = (.ok ⟨fdxValue fm s.h, s.h.sseed, s.h.sbase⟩, s.begin i) :=
    congrArg (fun h : Hart => (Except.ok (RCtx.mk (fdxValue fm s.h) h.sseed h.sbase), s.begin i)) hu.h_eq
  have hpats : (((List.range (peekRow a r s.h g).elts.length).zip (peekRow a r s.h g).elts).map fun x =>
      (x.1, (RCtx.mk (fdxValue fm s.h) s.h.sseed s.h.sbase).roundNoSub (fdDst (fdxValue fm s.h)) x.1
        (if (x.2.read (g.mat.slot a).unit).2 then overflowVal (fdxValue fm s.h) (x.2.read (g.mat.slot a).unit).1
          else (x.2.read (g.mat.slot a).unit).1), (peekRow a r s.h g).psn)) =
      (peekPats fm a r s.h g).map fun x => (x.1, x.2, (peekRow a r s.h g).psn) := by
    unfold peekPats
    rw [List.map_map]
    exact List.map_congr_left fun x _ => by rw [read_peekValue]; rfl
  unfold mpeekBody
  refine (bind_ok (holdM_ok hu hg hm)).trans ?_
  refine (bind_ok (checkNamed_named hu hn)).trans ?_
  refine (bind_ok hu.getH).trans ?_
  refine (bind_ok (checkFd_ok (by rw [hsub, Bool.not_false, Bool.and_true]; exact hfd))).trans ?_
  refine (bind_ok (noSlot_ok hu hs)).trans ?_
  refine (bind_ok hctx).trans ?_
  refine (congrArg (fun l => placeElts d _ l (s.begin i)) hpats).trans ?_
  rw [placeElts_eq, hu.h_eq]

theorem mpeek_vDone (hg : s.gangOf s.h.gang = some g) (hm : g.desc.mat = true) (hn : named i s = true) (hlen : instrLen i = fm.len)
    (hs : (s.h.slotOf d).isNone = true) (hfd : fdOk { dst := some isFloating, rounds := true } (fdxValue fm s.h) = true)
    (hsub : fdSub (fdxValue fm s.h) = false) (hrow : (peekRow a r s.h g).elts.length ≤ 128) :
    VDone fm d (fmtWidth (fdDst (fdxValue fm s.h))) (fun n => ((peekRow a r s.h g).elts[n]?).map fun e =>
      ((RCtx.mk (fdxValue fm s.h) s.h.sseed s.h.sbase).roundNoSub (fdDst (fdxValue fm s.h)) n
        (peekValue (fdxValue fm s.h) (g.mat.slot a).unit e), (peekRow a r s.h g).psn)) s (run i (mpeekBody i fm d a r) s) := by
  have hdst := fdOk_dst rfl hfd
  have hwidth : fmtWidth (fdDst (fdxValue fm s.h)) ≤ 64 := by
    unfold isFloating isIeee isTap at hdst
    simp only [Bool.or_eq_true, Bool.and_eq_true, decide_eq_true_eq] at hdst
    obtain h | h | h | h | h | h : fdDst (fdxValue fm s.h) = 0 ∨ fdDst (fdxValue fm s.h) = 1 ∨ fdDst (fdxValue fm s.h) = 2 ∨
      fdDst (fdxValue fm s.h) = 8 ∨ fdDst (fdxValue fm s.h) = 9 ∨ fdDst (fdxValue fm s.h) = 10 := by omega
    all_goals rw [h]; decide
  refine vDone_of_tagged (named_fresh hn) hlen (wholeBytes_float hdst) (by rw [fst_peekPats]; exact List.nodup_range) (fun x hx => ?_)
    (fun e v q => ?_) (mpeekBody_ok hg hm hn hs hfd hsub)
  · have hlt : x.1 < (peekRow a r s.h g).elts.length := by
      rw [← List.mem_range, ← fst_peekPats]
      exact List.mem_map_of_mem hx
    calc (x.1 + 1) * _ ≤ 128 * 64 := Nat.mul_le_mul (by omega) hwidth
      _ ≤ 16384 := by decide
  · rw [mem_peekPats, Option.map_eq_some_iff]
    constructor
    · rintro ⟨x, hx, heq⟩
      cases heq
      exact ⟨rfl, x, hx, rfl⟩
    · rintro ⟨rfl, x, hx, rfl⟩
      exact ⟨x, hx, rfl⟩
end

end Sys2Proof.Words
end

section
/-! # `mma` as its statement has it (R264, R266, R267) -/

namespace Sys2Proof.Words
open Sys2Proof Sys2Proof.Machine Sys2Proof.Claims Sys2Proof.Laws Sys2Proof.Together

/-- Settles O46: an `mma` leaves the row `mmaSums` in slot H (`mma_done`), whose elements are `addColumn`, the exact total rounded once;
`mpeek` places what its row reads out as (`mpeek_vDone`). -/
theorem matrixMultiplies : Obligations.MatrixMultiplies := by
  refine ⟨fun fm r a v m f s g => ?_, fun fm d a r s g => ?_⟩
  swap
  · intro fd x row unit value hg hmat hn hs hfd hsub hrow
    have hd : fdxValue fm s.h = fd := by cases fm <;> rfl
    have hdone := mpeek_vDone (i := .mpeek fm d a r) (fm := fm) (d := d) (a := a) (r := r) hg hmat hn rfl (noSlots_cons hs).1 (hd ▸ hfd)
      (hd ▸ hsub) hrow
    rw [hd] at hdone
    exact ⟨_, rfl, hdone⟩
  intro fd c kd w word vz x row n old unit top seg elt tile scaleB real does hg hmat hst hkind hfmt hk hfd hfb hdst htile hscale hscales
  have hc : matFmt c = true := hdst ▸ fdOk_dst rfl hfd
  have hunit : x.openIt.unit = unit := by rw [openIt_unit, MSlot.unit, hkind]
  have htop : x.openIt.top = top := by rw [openIt_top, MSlot.top, hkind]
  have hdoes : ∀ i k, exec i s = .next (run i (mmaBody i fm r a f k) s) → instrLen i = fm.len → (∀ v, k = .indexed v → isTb8 c = false) →
      does i k (mmaRegs a k) := by
    intro i k hexec hlen hind
    unfold does
    intro terms sel picked used scaleA weight bad total sums hn hs hp
    have hready : MmaReady fm f k s g := ⟨hg, hmat, hst, hkind, hfmt, hk, hfd, hfb, hdst, htile, hscale, hscales, hind⟩
    have hword : bits (mmaWord r s.h) 0 8 = word % 256 := by unfold bits; rw [pow_zero, Nat.div_one]; rfl
    have hterms : terms = mmaPick fd r a k s.h g := by unfold mmaPick; rw [hword]; rfl
    have hsel : sel = (mmaPick fd r a k s.h g).1 := by rw [← hterms]; cases k <;> rfl
    have hpicked : picked = (mmaPick fd r a k s.h g).2.map fun t => (t.a, t.k) := by
      rw [mmaPick_picked, ← hsel]
      rfl
    have hused : used = (mmaUsed fd r a k s.h g).map fun t => (t.a, t.k) := by
      show picked.filter _ = _
      rw [hpicked, List.filter_map]
      rfl
    have hscaleA : mmaScaleA fm fd r a k s.h g = scaleA := by funext t; unfold mmaScaleA; rw [← hsel]; rfl
    have hbad : ∀ j, bad j ↔ ∃ t ∈ mmaUsed fd r a k s.h g, badTerm g.mat c n j scaleA t := fun j => by
      show (∃ t ∈ used, _) ↔ _
      rw [hused]
      simp only [List.mem_map, exists_exists_and_eq_and]
      rfl
    have htotal : ∀ e j, total e j = e.v * 2 ^ unit + ((mmaUsed fd r a k s.h g).map (termValue g.mat c n j scaleA)).sum := fun e j => by
      show _ + (used.map _).sum = _
      rw [hused, List.map_map]
      rfl
    obtain ⟨t, mat, hnext, hgang, hopen, hrows, hrest⟩ := mma_done hready hexec hlen hn hs (hterms ▸ hp)
    obtain ⟨hslots, hrest⟩ := hrest
    refine ⟨t, mat, _, hnext, hgang, hopen, (hrows n row).trans (if_pos rfl), mmaRow_length .., fun j e he => ⟨_, mmaRow_getElem? _ _ _ _ _ _ _ he, ?_⟩,
      fun j hj => (hrows n j).trans (if_neg hj), hslots, hrest⟩
    rw [hscaleA]
    refine ⟨fun hb => addColumn_bad _ _ _ _ _ hc _ _ ((hbad j).1 hb), fun hb he => addColumn_held _ _ _ _ _ hc _ _ (mt (hbad j).2 hb) he,
      fun hb hn ho q hq htie => ?_⟩
    have hsum := addColumn_sum g.mat x.openIt n scaleA (mmaUsed fd r a k s.h g) hc j e (mt (hbad j).2 hb) hn ho (q := q) (total := total e j)
    rw [hunit, htop] at hsum
    exact hsum (htotal e j) hq htie
  exact ⟨hdoes _ .plain rfl rfl (fun v hv => nomatch hv), hdoes _ (.s24 m) rfl rfl (fun v hv => nomatch hv),
    fun hb => hdoes _ (.indexed v) rfl rfl fun _ _ => hb⟩

end Sys2Proof.Words
end

section
/-! # Values of integer patterns, and the special cases (R69, R73, R77) -/

namespace Sys2Proof.Words
open Sys2Proof Sys2Proof.Machine Sys2Proof.Claims

/-! ## Classes of formats -/

/-- The shapes of the IEEE formats: code, exponent bits and fraction bits. -/
def ieeeShapes : List (Nat × Nat × Nat) := [(0, 8, 23), (1, 5, 10), (2, 11, 52)]

/-- The shapes of the tapered formats: code, size and exponent size. -/
def tapShapes : List (Nat × Nat × Nat) := [(8, 8, 1), (9, 16, 1), (10, 32, 2)]

theorem ieeeShapes_cases {c eb mb : Nat} (h : (c, eb, mb) ∈ ieeeShapes) :
    (c = 0 ∧ eb = 8 ∧ mb = 23) ∨ (c = 1 ∧ eb = 5 ∧ mb = 10) ∨ (c = 2 ∧ eb = 11 ∧ mb = 52) := by
  simpa [ieeeShapes] using h

/-- What the model's tables give for an IEEE format. -/
structure IeeeFmt (c eb mb : Nat) : Prop where
  int : isInt c = false
  ieee : isIeee c = true
  tap : (isTap c || isTb8 c) = false
  shape : fpShape c = (eb, mb)
  width : fmtWidth c = eb + mb + 1
  code : c < 3
  eb2 : 2 ≤ eb
  mb1 : 1 ≤ mb

theorem ieeeFmt {c eb mb : Nat} (h : (c, eb, mb) ∈ ieeeShapes) : IeeeFmt c eb mb := by
  obtain ⟨rfl, rfl, rfl⟩ | ⟨rfl, rfl, rfl⟩ | ⟨rfl, rfl, rfl⟩ := ieeeShapes_cases h
  all_goals exact ⟨rfl, rfl, rfl, rfl, rfl, by decide, by decide, by decide⟩

/-- What the model's tables give for a tapered format. -/
structure TapFmt (c n es : Nat) : Prop where
  int : isInt c = false
  ieee : isIeee c = false
  tap : isTap c = true
  shape : tapShape c = (n, es)
  width : fmtWidth c = n
  n3 : 3 ≤ n

theorem tapFmt {c n es : Nat} (h : (c, n, es) ∈ tapShapes) : TapFmt c n es := by
  obtain ⟨rfl, rfl, rfl⟩ | ⟨rfl, rfl, rfl⟩ | ⟨rfl, rfl, rfl⟩ : (c = 8 ∧ n = 8 ∧ es = 1) ∨ (c = 9 ∧ n = 16 ∧ es = 1) ∨
    (c = 10 ∧ n = 32 ∧ es = 2) := by simpa [tapShapes] using h
  all_goals exact ⟨rfl, rfl, rfl, rfl, rfl, by decide⟩

/-- What the model's tables give for an integer format. -/
structure IntFmt (c : Nat) : Prop where
  int : isInt c = true
  tap : (isTap c || isTb8 c) = false
  width : fmtWidth c = 8 * 2 ^ (c % 4)
  min : intMin c = if c < 0x24 then -(2 ^ (8 * 2 ^ (c % 4) - 1)) else 0
  max : intMax c = if c < 0x24 then 2 ^ (8 * 2 ^ (c % 4) - 1) - 1 else 2 ^ (8 * 2 ^ (c % 4)) - 1

theorem intFmt {c : Nat} (h1 : 0x20 ≤ c) (h2 : c < 0x28) : IntFmt c := by
  interval_cases c
  all_goals exact ⟨rfl, rfl, rfl, rfl, rfl⟩

/-! ## Integers -/

theorem ratOf_intVal (z : Int) : ratOf (intVal z) = some (z : ℚ) := by
  unfold intVal
  by_cases hz : z = 0
  · rw [if_pos hz, hz]; rfl
  · rw [if_neg hz, ratOf_num, signOf, Nat.cast_natAbs, zpow_zero, mul_one]
    rcases lt_or_gt_of_ne hz with h | h
    · simp [h, abs_of_neg h]
    · simp [not_lt.2 h.le, abs_of_pos h]

/-- The two's-complement reading of a pattern. -/
theorem toInt_ofNat_eq (w p : Nat) :
    (BitVec.ofNat w p).toInt = if (p % 2 ^ w).testBit (w - 1) then ((p % 2 ^ w : Nat) : Int) - 2 ^ w else (p % 2 ^ w : Nat) := by
  rw [BitVec.toInt_eq_msb_cond, BitVec.msb_eq_getLsbD_last, ← BitVec.testBit_toNat, BitVec.toNat_ofNat]
  push_cast
  rfl

theorem ratOf_valueOf_int {c p : Nat} (h1 : 0x20 ≤ c) (h2 : c < 0x28) : ratOf (valueOf c p) =
    some (if c < 0x24 then ((BitVec.ofNat (8 * 2 ^ (c % 4)) p).toInt : ℚ) else (p % 2 ^ (8 * 2 ^ (c % 4)) : Nat)) := by
  obtain ⟨hint, htap, hwidth, -, -⟩ := intFmt h1 h2
  unfold valueOf
  dsimp only
  rw [htap, if_neg Bool.false_ne_true, hint, if_pos rfl, ratOf_intVal]
  unfold patInt isSigned
  dsimp only
  rw [hwidth, Nat.mod_mod, toInt_ofNat_eq]
  congr 1
  by_cases hc : c < 0x24
  · simp only [hc, decide_true, Bool.true_and, if_true]
  · simp only [hc, decide_false, Bool.false_and, Bool.false_eq_true, if_false]
    push_cast
    rfl

/-! ## Special cases of rounding -/

theorem round_int {c : Nat} (h : IntFmt c) (r : RCtx) (key : Nat) (v : Val) : r.round c key v = some (toInt c (rmOf (fdRM r.d)) v) := by
  unfold RCtx.round
  rw [h.int, if_pos rfl]

theorem round_ieee {c eb mb : Nat} (h : IeeeFmt c eb mb) (r : RCtx) (key : Nat) (v : Val) :
    r.round c key v = toIeee c (rmOf (fdRM r.d)) (fdSat r.d) (if fdSub r.d then .assist else .flush) v := by
  unfold RCtx.round
  rw [h.int, if_neg Bool.false_ne_true, h.ieee, if_pos rfl]

theorem round_tap {c n es : Nat} (h : TapFmt c n es) (r : RCtx) (key : Nat) (v : Val) :
    r.round c key v = some (toTap c (r.mode c key) (fdSat r.d) v) := by
  unfold RCtx.round
  rw [h.int, if_neg Bool.false_ne_true, h.ieee, if_neg Bool.false_ne_true]

theorem special_tap {c n es : Nat} (h : TapFmt c n es) (r : RCtx) (key : Nat) (neg : Bool) :
    r.round c key .nar = some (2 ^ (n - 1)) ∧ r.round c key (.divz neg) = some (2 ^ (n - 1)) ∧ r.round c key (.zero neg) = some 0 ∧
    r.round c key (.inf neg) =
      some (if fdSat r.d then (if neg then 2 ^ (n - 1) + 1 else 2 ^ (n - 1) - 1) else 2 ^ (n - 1)) := by
  simp only [round_tap h, toTap, h.shape, and_self]

theorem fpInf_eq {c eb mb : Nat} (h : IeeeFmt c eb mb) : fpInf c = (2 ^ eb - 1) * 2 ^ mb := by unfold fpInf; rw [h.shape]

theorem signBit_eq {c eb mb : Nat} (h : IeeeFmt c eb mb) (neg : Bool) : signBit c neg = if neg then 2 ^ (eb + mb) else 0 := by
  unfold signBit
  rw [h.width, Nat.add_sub_cancel]

theorem special_ieee {c eb mb : Nat} (h : IeeeFmt c eb mb) (r : RCtx) (key : Nat) (neg : Bool) :
    let sign := if neg then 2 ^ (eb + mb) else 0
    let inf := (2 ^ eb - 1) * 2 ^ mb
    r.round c key .nar = some (inf + 2 ^ (mb - 1)) ∧ r.round c key (.inf neg) = some (sign + inf) ∧
      r.round c key (.divz neg) = some (sign + inf) ∧ r.round c key (.zero neg) = some sign := by
  simp only [round_ieee h, toIeee, signBit_eq h, fpInf_eq h, qnan, h.shape, and_self]

theorem special_int {c : Nat} (h1 : 0x20 ≤ c) (h2 : c < 0x28) (r : RCtx) (key : Nat) (neg : Bool) :
    let w := 8 * 2 ^ (c % 4)
    r.round c key .nar = some 0 ∧ r.round c key (.zero neg) = some 0 ∧ r.round c key (.inf neg) =
      some (if c < 0x24 then (if neg then 2 ^ (w - 1) else 2 ^ (w - 1) - 1) else if neg then 0 else 2 ^ w - 1) := by
  simp only [round_int (intFmt h1 h2), toInt]
  interval_cases c <;> cases neg <;> decide

/-! ## Sources under the subnormal policy -/

theorem sourceVal_subnormal {c eb mb p : Nat} (h : IeeeFmt c eb mb) {d : DWord} {dst : Nat} (hdst : dst < 3) (he : p / 2 ^ mb % 2 ^ eb = 0)
    (hf : p % 2 ^ mb ≠ 0) : sourceVal d dst c p = if fdSub d then none else some (.zero (p.testBit (eb + mb))) := by
  have hsub : isSubnormal c p = true := by
    unfold isSubnormal
    rw [h.shape, h.ieee]
    simp [bits, he, hf]
  have hd : isIeee dst = true := by unfold isIeee; simp; omega
  have hneg : (fpVal c (p % 2 ^ (eb + mb + 1))).isNeg = p.testBit (eb + mb) := by
    have hbit : (p % 2 ^ (eb + mb + 1)).testBit (eb + mb) = p.testBit (eb + mb) := by
      rw [Nat.testBit_mod_two_pow]; simp
    have he' : bits (p % 2 ^ (eb + mb + 1)) mb eb = 0 := by
      have : p % 2 ^ (eb + mb + 1) / 2 ^ mb % 2 ^ eb = p / 2 ^ mb % 2 ^ eb := by
        rw [show eb + mb + 1 = mb + (eb + 1) by ring, pow_add, Nat.mod_mul_right_div_self]
        exact Nat.mod_mod_of_dvd _ (pow_dvd_pow 2 (Nat.le_succ eb))
      exact this.trans he
    have h2 : 2 ^ 2 ≤ 2 ^ eb := Nat.pow_le_pow_right (by decide) h.eb2
    have hne : ¬ (0 = 2 ^ eb - 1) := by omega
    have h10 : ¬ (c = 0x11) := by have := h.code; omega
    have h11 : ¬ (c = 0x10) := by have := h.code; omega
    unfold fpVal
    rw [h.shape]
    dsimp only
    rw [he', hbit]
    simp only [hne, h10, h11, decide_false, Bool.false_and, Bool.false_eq_true, if_false, decide_true, Bool.true_and, if_true]
    split <;> rfl
  unfold sourceVal
  rw [hd, hsub, Bool.and_self, if_pos rfl]
  cases fdSub d
  · unfold valueOf
    dsimp only
    rw [h.tap, h.int, h.width, if_neg Bool.false_ne_true, if_neg Bool.false_ne_true, if_neg Bool.false_ne_true, if_neg Bool.false_ne_true,
      Val.flush, hneg]
  · rfl

theorem sourceVal_exact {d : DWord} {dst c p : Nat} (h : ¬ (dst < 3 ∧ c < 3)) : sourceVal d dst c p = some (valueOf c p) := by
  have : (isIeee dst && isSubnormal c p) = false := by
    unfold isIeee isSubnormal isIeee
    by_cases hd : dst < 3
    · have hc : ¬ c ≤ 2 := by omega
      simp [hc]
    · have : ¬ dst ≤ 2 := by omega
      simp [this]
  unfold sourceVal
  rw [this, if_neg Bool.false_ne_true]

end Sys2Proof.Words
end

section
/-! # Values of IEEE and MX codes (R77, R78) -/

namespace Sys2Proof.Words
open Sys2Proof Sys2Proof.Machine Sys2Proof.Claims

/-- The real that a code of such a shape names, where it names one. -/
def fpReal (eb mb p : Nat) : ℚ :=
  let e := p / 2 ^ mb % 2 ^ eb
  let f := p % 2 ^ mb
  let bias : Int := 2 ^ (eb - 1) - 1
  (if p.testBit (eb + mb) then -1 else 1) *
    (if e = 0 then (f : ℚ) * 2 ^ (1 - bias - mb) else (2 ^ mb + f : ℚ) * 2 ^ ((e : Int) - bias - mb))

/-- The codes that name no real: infinities and NaNs. -/
def fpSpecial (c eb mb p : Nat) : Bool :=
  let e := p / 2 ^ mb % 2 ^ eb
  (e == 2 ^ eb - 1 && isIeee c) || (c == 0x11 && e == 31) || (c == 0x10 && e == 15 && p % 2 ^ mb == 7)

theorem ratOf_fpVal {c eb mb p : Nat} (hshape : fpShape c = (eb, mb)) (hs : fpSpecial c eb mb p = false) :
    ratOf (fpVal c p) = some (fpReal eb mb p) := by
  unfold fpSpecial at hs
  simp only [Bool.or_eq_false_iff, Bool.and_eq_false_iff, beq_eq_false_iff_ne] at hs
  unfold fpVal fpReal bits
  rw [hshape]
  dsimp only
  generalize p / 2 ^ mb % 2 ^ eb = e at *
  generalize p % 2 ^ mb = f at *
  obtain ⟨⟨h1, h2⟩, h3⟩ := hs
  have h1a : (decide (e = 2 ^ eb - 1) && isIeee c) = false := by simpa [imp_iff_not_or] using h1
  have h2a : (decide (c = 0x11) && decide (e = 31)) = false := by simpa [imp_iff_not_or] using h2
  have h3a : (decide (c = 0x10) && decide (e = 15) && decide (f = 7)) = false := by simpa [imp_iff_not_or, or_assoc] using h3
  rw [h1a, h2a, h3a]
  simp only [Bool.false_and, Bool.false_eq_true, if_false]
  by_cases he : e = 0
  · by_cases hf : f = 0
    · simp [he, hf, ratOf]
    · simp [he, hf, ratOf]
  · simp [he, ratOf]
    split <;> ring

theorem fpVal_top {c eb mb p : Nat} (hshape : fpShape c = (eb, mb)) (hc : isIeee c = true ∨ (c = 0x11 ∧ eb = 5))
    (he : p / 2 ^ mb % 2 ^ eb = 2 ^ eb - 1) : fpVal c p = if p % 2 ^ mb = 0 then .inf (p.testBit (eb + mb)) else .nar := by
  unfold fpVal bits
  rw [hshape]
  dsimp only
  rw [he]
  generalize p % 2 ^ mb = f
  rcases hc with hc | ⟨rfl, rfl⟩
  · rw [hc]
    by_cases hf : f = 0 <;> simp [hf]
  · have : isIeee 0x11 = false := rfl
    rw [this]
    by_cases hf : f = 0 <;> simp [hf]

theorem valueOf_fp {c eb mb p : Nat} (hp : p < 2 ^ (eb + mb + 1)) (hwidth : fmtWidth c = eb + mb + 1) (htap : (isTap c || isTb8 c) = false)
    (hint : isInt c = false) : valueOf c p = fpVal c p := by
  unfold valueOf
  dsimp only
  rw [htap, hint, if_neg Bool.false_ne_true, if_neg Bool.false_ne_true, hwidth, Nat.mod_eq_of_lt hp]

/-- What R77 and R78 say of the codes of a format of this shape. -/
theorem fp_values (c eb mb p : Nat) (hp : p < 2 ^ (eb + mb + 1)) :
    let e := p / 2 ^ mb % 2 ^ eb
    let f := p % 2 ^ mb
    let real := ratOf (valueOf c p) = some (fpReal eb mb p)
    ((c, eb, mb) ∈ [(0, 8, 23), (1, 5, 10), (2, 11, 52), (0x11, 5, 2)] →
      (e = 2 ^ eb - 1 → valueOf c p = if f = 0 then .inf (p.testBit (eb + mb)) else .nar) ∧ (e ≠ 2 ^ eb - 1 → real)) ∧
    ((c, eb, mb) = (0x10, 4, 3) → (e = 15 ∧ f = 7 → valueOf c p = .nar) ∧ (¬ (e = 15 ∧ f = 7) → real)) ∧
    ((c, eb, mb) = (0x12, 2, 1) → real) ∧
    (c < 3 → (c, eb, mb) ∈ [(0, 8, 23), (1, 5, 10), (2, 11, 52)] → e = 0 → f = 0 → valueOf c p = .zero (p.testBit (eb + mb))) := by
  intro e f real
  refine ⟨fun h => ?_, fun h => ?_, fun h => ?_, fun _ h he hf => ?_⟩
  · have hfmt : fpShape c = (eb, mb) ∧ valueOf c p = fpVal c p ∧ (isIeee c = true ∨ (c = 0x11 ∧ eb = 5)) ∧ c ≠ 0x10 := by
      simp only [List.mem_cons, Prod.mk.injEq, List.not_mem_nil, or_false] at h
      obtain ⟨rfl, rfl, rfl⟩ | ⟨rfl, rfl, rfl⟩ | ⟨rfl, rfl, rfl⟩ | ⟨rfl, rfl, rfl⟩ := h
      · exact ⟨rfl, valueOf_fp hp rfl rfl rfl, .inl rfl, by decide⟩
      · exact ⟨rfl, valueOf_fp hp rfl rfl rfl, .inl rfl, by decide⟩
      · exact ⟨rfl, valueOf_fp hp rfl rfl rfl, .inl rfl, by decide⟩
      · exact ⟨rfl, valueOf_fp hp rfl rfl rfl, .inr ⟨rfl, rfl⟩, by decide⟩
    obtain ⟨hshape, hval, htop, h10⟩ := hfmt
    refine ⟨fun he => hval.trans (fpVal_top hshape htop he), fun he => ?_⟩
    show ratOf (valueOf c p) = _
    rw [hval]
    refine ratOf_fpVal hshape ?_
    unfold fpSpecial
    have he1 : (e == 2 ^ eb - 1) = false := beq_false_of_ne he
    have he2 : (c == 0x11 && e == 31) = false := by
      rcases htop with hi | ⟨rfl, rfl⟩
      · have : (c == 0x11) = false := beq_false_of_ne fun hc => by rw [hc] at hi; exact absurd hi (by decide)
        rw [this, Bool.false_and]
      · rw [show (e == 31) = false from he1, Bool.and_false]
    dsimp only
    rw [he1, he2, beq_false_of_ne h10]
    rfl
  · obtain ⟨rfl, rfl, rfl⟩ : c = 0x10 ∧ eb = 4 ∧ mb = 3 := by simpa using h
    have hval : valueOf 0x10 p = fpVal 0x10 p := valueOf_fp hp rfl rfl rfl
    refine ⟨fun ⟨he, hf⟩ => ?_, fun hef => ?_⟩
    · have he' : p / 2 ^ 3 % 2 ^ 4 = 15 := he
      have hf' : p % 2 ^ 3 = 7 := hf
      rw [hval]
      unfold fpVal bits
      norm_num at he' hf'
      simp [fpShape, he', hf', isIeee]
    · show ratOf (valueOf 0x10 p) = _
      rw [hval]
      refine ratOf_fpVal rfl ?_
      have hd : (p / 2 ^ 3 % 2 ^ 4 == 15 && p % 2 ^ 3 == 7) = false := by
        rw [Bool.eq_false_iff]
        intro ht
        simp only [Bool.and_eq_true, beq_iff_eq] at ht
        exact hef ht
      unfold fpSpecial isIeee
      dsimp only
      simpa using hd
  · obtain ⟨rfl, rfl, rfl⟩ : c = 0x12 ∧ eb = 2 ∧ mb = 1 := by simpa using h
    show ratOf (valueOf 0x12 p) = _
    rw [show valueOf 0x12 p = fpVal 0x12 p from valueOf_fp hp rfl rfl rfl]
    refine ratOf_fpVal rfl ?_
    simp [fpSpecial, isIeee]
  · have hfmt := ieeeFmt h
    rw [valueOf_fp hp hfmt.width hfmt.tap hfmt.int]
    have h2 : 2 ^ 2 ≤ 2 ^ eb := Nat.pow_le_pow_right (by decide) hfmt.eb2
    have hne : ¬ (0 = 2 ^ eb - 1) := by omega
    have h10 : ¬ (c = 0x11) := by have := hfmt.code; omega
    have h11 : ¬ (c = 0x10) := by have := hfmt.code; omega
    unfold fpVal bits
    rw [hfmt.shape]
    dsimp only
    rw [show p / 2 ^ mb % 2 ^ eb = 0 from he, show p % 2 ^ mb = 0 from hf]
    simp [hne, h10, h11]

end Sys2Proof.Words
end

section
/-! # Rounding to an integer format (R73, R80) -/

namespace Sys2Proof.Words
open Sys2Proof Sys2Proof.Machine Sys2Proof.Claims

/-- A magnitude that is its lower neighbour stays. -/
theorem not_goesUp_exact {rm : Nat} {neg odd : Bool} {lo mid : ℚ} (h : lo < mid) : ¬ goesUp rm neg odd lo mid lo := by
  rintro (⟨-, h1 | ⟨h1, -⟩⟩ | ⟨-, h1, -⟩ | ⟨-, h1, -⟩ | ⟨-, h1⟩)
  · exact absurd h1 h.not_gt
  · exact h.ne' h1
  · exact lt_irrefl _ h1
  · exact lt_irrefl _ h1
  · exact absurd h1 h.not_ge

/-- The magnitude m × 2^e rounded to an integer. -/
def magInt (md : Rnd) (neg : Bool) (m : Nat) (e : Int) : Int := if 0 ≤ e then m * 2 ^ e.toNat else roundShift md neg m (-e).toNat

theorem magInt_of_le {md : Rnd} {neg : Bool} {m k : Nat} {e : Int} (he : 0 ≤ e) (h1 : (k : ℚ) ≤ m * 2 ^ e) (h2 : m * 2 ^ e < (k : ℚ) + 1) :
    magInt md neg m e = k ∧ (m * 2 ^ e : ℚ) = k := by
  obtain ⟨n, rfl⟩ := Int.eq_ofNat_of_zero_le he
  rw [zpow_natCast] at *
  have hk : k = m * 2 ^ n := by
    have h1' : k ≤ m * 2 ^ n := by exact_mod_cast h1
    have h2' : m * 2 ^ n < k + 1 := by exact_mod_cast h2
    omega
  unfold magInt
  rw [if_pos he, hk, Int.toNat_natCast]
  push_cast
  exact ⟨rfl, rfl⟩

/-- Between two integers the magnitude goes to the one that RM takes. -/
theorem magInt_cases {rm : Nat} (hrm : rm ≤ 4) (neg : Bool) {m k : Nat} {e : Int} (h1 : (k : ℚ) ≤ m * 2 ^ e) (h2 : m * 2 ^ e < (k : ℚ) + 1) :
    (goesUp rm neg (k % 2 == 1) k (k + 1 / 2) (m * 2 ^ e) → magInt (rmOf rm) neg m e = k + 1) ∧
    (¬ goesUp rm neg (k % 2 == 1) k (k + 1 / 2) (m * 2 ^ e) → magInt (rmOf rm) neg m e = k) := by
  by_cases he : 0 ≤ e
  · obtain ⟨hmag, ha⟩ := magInt_of_le (md := rmOf rm) (neg := neg) he h1 h2
    rw [ha]
    exact ⟨fun h => absurd h (not_goesUp_exact (by linarith)), fun _ => hmag⟩
  · obtain ⟨s, hs⟩ : ∃ s : Nat, e = -s := ⟨(-e).toNat, by omega⟩
    subst hs
    have hd : (0 : ℚ) < 2 ^ (-(s : Int)) := by positivity
    have hunit : ((2 ^ s : Nat) : ℚ) * 2 ^ (-(s : Int)) = 1 := by
      rw [zpow_neg, zpow_natCast]; push_cast; exact mul_inv_cancel₀ (by positivity)
    have hdiv := Nat.div_add_mod m (2 ^ s)
    have ha : (m * 2 ^ (-(s : Int)) : ℚ) = (m / 2 ^ s : Nat) + (m % 2 ^ s : Nat) * 2 ^ (-(s : Int)) := by
      have hm : (m : ℚ) = (2 ^ s : Nat) * (m / 2 ^ s : Nat) + (m % 2 ^ s : Nat) := by exact_mod_cast hdiv.symm
      calc (m * 2 ^ (-(s : Int)) : ℚ)
          = (2 ^ s : Nat) * 2 ^ (-(s : Int)) * (m / 2 ^ s : Nat) + (m % 2 ^ s : Nat) * 2 ^ (-(s : Int)) := by
            nth_rewrite 1 [hm]; ring
        _ = _ := by rw [hunit, one_mul]
    have hfrac : ((m % 2 ^ s : Nat) * 2 ^ (-(s : Int)) : ℚ) < 1 := by
      rw [← hunit]
      exact mul_lt_mul_of_pos_right (by exact_mod_cast Nat.mod_lt m (Nat.two_pow_pos s)) hd
    have hk : k = m / 2 ^ s := by
      have h0 : (0 : ℚ) ≤ (m % 2 ^ s : Nat) * 2 ^ (-(s : Int)) := by positivity
      rw [ha] at h1 h2
      have hle : (k : ℚ) < (m / 2 ^ s : Nat) + 1 := by linarith
      have hge : ((m / 2 ^ s : Nat) : ℚ) < k + 1 := by linarith
      have hle' : k < m / 2 ^ s + 1 := by exact_mod_cast hle
      have hge' : m / 2 ^ s < k + 1 := by exact_mod_cast hge
      omega
    have hup := roundsUp_rmOf hrm neg (k % 2 == 1) (m % 2 ^ s) (2 ^ s) (lo := k) hd
    obtain ⟨hu, hd'⟩ := roundShift_cases (rmOf rm) neg m s
    unfold magInt
    rw [if_neg he, neg_neg, Int.toNat_natCast]
    rw [← hk] at ha hu hd'
    rw [hunit, ← ha] at hup
    exact ⟨fun h => by rw [hu (hup.2 h)]; push_cast; rfl, fun h => by rw [hd' (mt hup.1 h)]⟩

theorem round_num_int {c : Nat} (h1 : 0x20 ≤ c) (h2 : c < 0x28) (r : RCtx) (key m : Nat) (e : Int) (neg : Bool) {z : Int}
    (hz : magInt (rmOf (fdRM r.d)) neg m e = z) :
    let w := 8 * 2 ^ (c % 4)
    let lo : Int := if c < 0x24 then -(2 ^ (w - 1)) else 0
    let hi : Int := if c < 0x24 then 2 ^ (w - 1) - 1 else 2 ^ w - 1
    r.round c key (.num neg m e) = some ((max lo (min hi (if neg then -z else z)) % 2 ^ w).toNat) := by
  have hc := intFmt h1 h2
  intro w lo hi
  rw [round_int hc]
  unfold toInt patOf clampInt
  rw [hc.width, hc.min, hc.max, ← hz]
  rfl

/-! # Blocks of tb8 (R76) -/

/-- A value that makes the scale byte of its block 0xFF. -/
def spoils (d : DWord) : Val → Bool
  | .nar | .divz _ => true
  | .inf _ => !fdSat d
  | _ => false

/-- The logarithm that a value gives its block: maxpos of the range for an infinity, none for a zero. -/
def blockLog : Val → Option Int
  | .inf _ => some 139
  | .num _ m e => some (e + Nat.log2 m)
  | _ => none

theorem tb8Scale_eq (d : DWord) (vs : List Val) : tb8Scale d vs =
    if vs.any (spoils d) then 255 else if fdScm d = 1 then min (fdScb d) 254 else
      match vs.filterMap blockLog with
      | [] => 127
      | l :: ls => (max 0 (min 254 (ls.foldl max l + 127))).toNat := rfl

theorem any_spoils {d : DWord} {vs : List Val} : vs.any (spoils d) = true ↔
    ∃ v ∈ vs, v = .nar ∨ v = .divz true ∨ v = .divz false ∨ ((v = .inf true ∨ v = .inf false) ∧ fdSat d = false) := by
  rw [List.any_eq_true]
  refine exists_congr fun v => and_congr_right fun _ => ?_
  cases v with
  | nar => simp [spoils]
  | inf n => cases n <;> simp [spoils]
  | divz n => cases n <;> simp [spoils]
  | zero n => simp [spoils]
  | num n m x => simp [spoils]

/-- A magnitude lies between two powers of two. -/
theorem log2_bounds {m : Nat} (hm : 0 < m) (x : Int) :
    (2 : ℚ) ^ (x + Nat.log2 m) ≤ m * 2 ^ x ∧ (m * 2 ^ x : ℚ) < 2 ^ (x + Nat.log2 m + 1) := by
  have h1 : ((2 ^ Nat.log2 m : Nat) : ℚ) ≤ m := by exact_mod_cast Nat.log2_self_le hm.ne'
  have h2 : (m : ℚ) < (2 ^ (Nat.log2 m + 1) : Nat) := by exact_mod_cast Nat.lt_log2_self
  have hx : (0 : ℚ) < 2 ^ x := by positivity
  rw [add_assoc, zpow_add₀ (by norm_num), zpow_add₀ (by norm_num), mul_comm ((2 : ℚ) ^ x), mul_comm ((2 : ℚ) ^ x)]
  push_cast at h1 h2
  exact ⟨by rw [zpow_natCast]; exact mul_le_mul_of_nonneg_right h1 hx.le,
    by rw [← Nat.cast_succ, zpow_natCast]; exact mul_lt_mul_of_pos_right h2 hx⟩

theorem exponent_le {a b : Int} {q : ℚ} (h1 : (2 : ℚ) ^ a ≤ q) (h2 : q < 2 ^ (b + 1)) : a ≤ b := by
  have := (zpow_lt_zpow_iff_right₀ (by norm_num : (1 : ℚ) < 2)).1 (h1.trans_lt h2)
  omega

/-- The magnitude of a number, as the statement of its value gives it. -/
theorem abs_ratOf_num {n : Bool} {m : Nat} {x : Int} {q : ℚ} (h : ratOf (.num n m x) = some q) : |q| = m * 2 ^ x := by
  have hx : (0 : ℚ) ≤ m * 2 ^ x := by positivity
  obtain rfl : _ = q := Option.some.inj h
  cases n
  · simp
  · simp [abs_of_nonneg]

section
variable {v : Val} (hv : ∀ n x, v ≠ .num n 0 x)
include hv

theorem blockLog_of_zero (h : ratOf v = some 0) : blockLog v = none := by
  cases v with
  | zero n => rfl
  | num n m x =>
    have hm : 0 < m := Nat.pos_of_ne_zero fun h0 => hv n x (h0 ▸ rfl)
    have := abs_ratOf_num h
    have hpos : (0 : ℚ) < m * 2 ^ x := by positivity
    rw [← this, abs_zero] at hpos
    exact absurd hpos (lt_irrefl _)
  | _ => exact absurd h (by simp [ratOf])

theorem blockLog_le {top l : Int} (hinf : v = .inf true ∨ v = .inf false → 139 ≤ top) (hnum : ∀ q, ratOf v = some q → |q| < 2 ^ (top + 1))
    (hl : blockLog v = some l) : l ≤ top := by
  cases v with
  | inf n =>
    obtain rfl : 139 = l := Option.some.inj hl
    exact hinf (by cases n <;> simp)
  | num n m x =>
    obtain rfl : x + Nat.log2 m = l := Option.some.inj hl
    have hm : 0 < m := Nat.pos_of_ne_zero fun h0 => hv n x (h0 ▸ rfl)
    have hq := hnum _ rfl
    rw [abs_ratOf_num rfl] at hq
    exact exponent_le (log2_bounds hm x).1 hq
  | _ => exact absurd hl (by simp [blockLog])

theorem le_blockLog {top : Int} (h : ((v = .inf true ∨ v = .inf false) ∧ top = 139) ∨ ∃ q, ratOf v = some q ∧ 2 ^ top ≤ |q|) :
    ∃ l, blockLog v = some l ∧ top ≤ l := by
  obtain ⟨rfl | rfl, rfl⟩ | ⟨q, hq, hle⟩ := h
  · exact ⟨139, rfl, le_rfl⟩
  · exact ⟨139, rfl, le_rfl⟩
  · obtain ⟨n, rfl, rfl⟩ | ⟨n, m, x, rfl, rfl⟩ := ratOf_cases hq
    · have hpos : (0 : ℚ) < 2 ^ top := by positivity
      rw [abs_zero] at hle
      exact absurd hle hpos.not_ge
    · rw [abs_ratOf_num hq] at hle
      have hm : 0 < m := Nat.pos_of_ne_zero fun h0 => hv n x (h0 ▸ rfl)
      exact ⟨_, rfl, exponent_le hle (log2_bounds hm x).2⟩
end

theorem foldl_max_eq {top l : Int} {ls : List Int} (hle : ∀ x ∈ l :: ls, x ≤ top) (hmem : ∃ x ∈ l :: ls, top ≤ x) : ls.foldl max l = top := by
  induction ls generalizing l with
  | nil =>
    obtain ⟨x, hx, ht⟩ := hmem
    obtain rfl := List.mem_singleton.1 hx
    exact le_antisymm (hle x hx) ht
  | cons y ls ih =>
    refine ih (l := max l y) (fun x hx => ?_) ?_
    · rcases List.mem_cons.1 hx with rfl | hx
      · exact max_le (hle _ (by simp)) (hle _ (by simp))
      · exact hle x (by simp [hx])
    · obtain ⟨x, hx, ht⟩ := hmem
      rcases List.mem_cons.1 hx with rfl | hx
      · exact ⟨_, List.mem_cons_self, ht.trans (le_max_left _ _)⟩
      · rcases List.mem_cons.1 hx with rfl | hx
        · exact ⟨_, List.mem_cons_self, ht.trans (le_max_right _ _)⟩
        · exact ⟨x, List.mem_cons_of_mem _ hx, ht⟩

/-- What R76 says of the scale byte of a block. -/
theorem tb8Scale_rule (d : DWord) {vs : List Val} (hvs : ∀ v ∈ vs, ∀ n x, v ≠ .num n 0 x) (top : Int) :
    let infinite := fun (v : Val) => v = .inf true ∨ v = .inf false
    let spoilt := ∃ v ∈ vs, v = .nar ∨ v = .divz true ∨ v = .divz false ∨ (infinite v ∧ fdSat d = false)
    let below := fun (v : Val) => (infinite v → 139 ≤ top) ∧ ∀ q, ratOf v = some q → |q| < 2 ^ (top + 1)
    let reaches := fun (v : Val) => (infinite v ∧ top = 139) ∨ ∃ q, ratOf v = some q ∧ 2 ^ top ≤ |q|
    (spoilt → tb8Scale d vs = 255) ∧
    (¬ spoilt → (fdScm d = 1 → tb8Scale d vs = min (fdScb d) 254) ∧
      (fdScm d = 0 → (∀ v ∈ vs, ratOf v = some 0) → tb8Scale d vs = 127) ∧
      (fdScm d = 0 → (∀ v ∈ vs, below v) → (∃ v ∈ vs, reaches v) → (tb8Scale d vs : Int) = max 0 (min 254 (top + 127)))) := by
  intro infinite spoilt below reaches
  rw [tb8Scale_eq]
  refine ⟨fun h => if_pos (any_spoils.2 h), fun h => ?_⟩
  rw [if_neg (mt any_spoils.1 h)]
  refine ⟨fun hscm => if_pos hscm, fun hscm hz => ?_, fun hscm hb hr => ?_⟩
  · rw [if_neg (by omega), List.filterMap_eq_nil_iff.2 fun v hv => blockLog_of_zero (hvs v hv) (hz v hv)]
  · have hle : ∀ x ∈ vs.filterMap blockLog, x ≤ top := fun x hx => by
      obtain ⟨v, hv, hl⟩ := List.mem_filterMap.1 hx
      exact blockLog_le (hvs v hv) (hb v hv).1 (hb v hv).2 hl
    have hmem : ∃ x ∈ vs.filterMap blockLog, top ≤ x := by
      obtain ⟨v, hv, hreach⟩ := hr
      obtain ⟨l, hl, ht⟩ := le_blockLog (hvs v hv) hreach
      exact ⟨l, List.mem_filterMap.2 ⟨v, hv, hl⟩, ht⟩
    rw [if_neg (by omega)]
    cases hlogs : vs.filterMap blockLog with
    | nil =>
      obtain ⟨x, hx, -⟩ := hmem
      rw [hlogs] at hx
      exact absurd hx List.not_mem_nil
    | cons l ls =>
      rw [hlogs] at hle hmem
      dsimp only
      rw [foldl_max_eq hle hmem]
      omega

/-- A code is the value divided by the scale of its block and rounded to tap8. -/
theorem tb8Code_eq (r : RCtx) {s : Nat} (hs : s ≠ 255) (e : Nat) {v : Val} (hv : ∀ n, v ≠ .divz n) :
    r.round 8 e (v.mul (.num false 1 (127 - s))) = some (tb8Code r s e v) := by
  unfold tb8Code
  rw [if_neg hs]
  cases v with
  | divz n => exact absurd rfl (hv n)
  | num n m x =>
    show some (toTap 8 (r.mode 8 e) (fdSat r.d) (.num (n != false) (m * 1) (x + (127 - s)))) = _
    rw [Bool.bne_false, mul_one, show x + (127 - s : Int) = x - ((s : Int) - 127) by ring]
  | inf n => show some (toTap 8 (r.mode 8 e) (fdSat r.d) (.inf (n != false))) = _; rw [Bool.bne_false]
  | zero n => rfl
  | nar => rfl

end Sys2Proof.Words
end

section
/-! # Values of tapered codes (R70, R71) -/

namespace Sys2Proof.Words
open Sys2Proof Sys2Proof.Machine Sys2Proof.Claims

/-! ## The regime -/

theorem runDown_stop {c : Nat} {b : Bool} {N : Nat} (h : runDown c b N < N) : c.testBit (N - 1 - runDown c b N) = !b := by
  induction N with
  | zero => omega
  | succ N ih =>
    unfold runDown at h ⊢
    split at h
    · next hb =>
      rw [if_pos hb, show N + 1 - 1 - (runDown c b N + 1) = N - 1 - runDown c b N by omega]
      exact ih (by omega)
    · next hb =>
      rw [if_neg hb]
      show c.testBit N = !b
      revert hb
      cases c.testBit N <;> cases b <;> decide

theorem runDown_eq {c : Nat} {b : Bool} {N m : Nat} (hm : m ≤ N) (hrun : ∀ i < m, c.testBit (N - 1 - i) = b)
    (hstop : m < N → c.testBit (N - 1 - m) = !b) : runDown c b N = m := by
  induction N generalizing m with
  | zero => exact (Nat.le_zero.1 hm).symm
  | succ N ih =>
    unfold runDown
    rw [show N + 1 - 1 = N from rfl] at hrun hstop
    cases m with
    | zero => rw [if_neg (by rw [show c.testBit N = !b from hstop (by omega)]; cases b <;> decide)]
    | succ m =>
      rw [if_pos (show (c.testBit N == b) = true from beq_iff_eq.2 (hrun 0 (by omega))), ih (m := m) (by omega)]
      · intro i hi
        rw [← hrun (i + 1) (by omega)]; congr 1; omega
      · intro hlt
        rw [← hstop (by omega)]; congr 1; omega

theorem runDown_compl {N c : Nat} (hc : c < 2 ^ N) (b : Bool) {i : Nat} (hi : i ≤ N) : runDown (2 ^ N - (c + 1)) (!b) i = runDown c b i := by
  induction i with
  | zero => rfl
  | succ i ih =>
    unfold runDown
    rw [ih (by omega), Nat.testBit_two_pow_sub_succ hc, decide_eq_true (show i < N by omega), Bool.true_and]
    cases c.testBit i <;> cases b <;> rfl

/-- A run of zeros leaves a number of one bit fewer. -/
theorem zeros_bounds {N c m : Nat} (hc : c < 2 ^ N) (h : runDown c false N = m) : c < 2 ^ (N - m) ∧ (m < N → 2 ^ (N - 1 - m) ≤ c) := by
  subst h
  refine ⟨Nat.lt_pow_two_of_testBit _ fun j hj => ?_, fun hlt => Nat.ge_two_pow_of_testBit (runDown_stop hlt)⟩
  by_cases hjN : j < N
  · exact runDown_testBit hj hjN
  · exact Nat.testBit_lt_two_pow (hc.trans_le (Nat.pow_le_pow_right (by decide) (by omega)))

/-- The distance from the top of a code that begins with ones. -/
theorem ones_bounds {N c m : Nat} (hc : c < 2 ^ N) (h : runDown c true N = m) :
    2 ^ N - c ≤ 2 ^ (N - m) ∧ (m < N → 2 ^ (N - 1 - m) < 2 ^ N - c) := by
  have hr := runDown_compl hc true le_rfl
  have hz := zeros_bounds (N := N) (by omega) (hr.trans h)
  omega

/-! ## The value of a positive code -/

/-- The fields of a tapered code of size n with a regime of m bits: what is left of it, its exponent bits and its fraction bits. -/
def tapRest (n m : Nat) : Nat := n - 2 - m
def tapNe (n es m : Nat) : Nat := min es (tapRest n m)
def tapNf (n es m : Nat) : Nat := tapRest n m - tapNe n es m
/-- The power of 2^(2^es) that a regime of m bits `b` stands for. -/
def regimeOf (b : Bool) (m : Nat) : Int := if b then (m : Int) - 1 else -(m : Int)
/-- The exponent of a code with its regime. -/
def tapExp (n es m p : Nat) (b : Bool) : Int :=
  regimeOf b m * 2 ^ es + (p / 2 ^ tapNf n es m % 2 ^ tapNe n es m * 2 ^ (es - tapNe n es m) : Nat)

theorem tapVal_pos {n es p m : Nat} {b : Bool} (hp0 : 0 < p) (hp1 : p < 2 ^ (n - 1)) (hb : p.testBit (n - 2) = b)
    (hm : runDown p b (n - 1) = m) : tapVal n es p = .num false (2 ^ tapNf n es m + p % 2 ^ tapNf n es m) (tapExp n es m p b - tapNf n es m) := by
  unfold tapVal
  rw [if_neg hp0.ne', if_neg hp1.ne, Nat.testBit_lt_two_pow hp1]
  dsimp only
  simp only [Bool.false_eq_true, if_false]
  rw [hb, hm]
  rfl

theorem tapVal_neg {n es p : Nat} (hn : 3 ≤ n) (hp0 : 0 < p) (hp1 : p < 2 ^ (n - 1)) :
    tapVal n es (2 ^ n - p) = (tapVal n es p).neg := by
  have hpow : 2 ^ n = 2 * 2 ^ (n - 1) := by rw [← pow_succ']; congr 1; omega
  have hs : (2 ^ n - p).testBit (n - 1) = true := by
    rw [Nat.testBit_eq_decide_div_mod_eq, decide_eq_true_eq, show (2 ^ n - p) / 2 ^ (n - 1) = 1 by
      rw [Nat.div_eq_iff (Nat.two_pow_pos _)]; omega]
  rw [tapVal_pos hp0 hp1 rfl rfl]
  unfold tapVal
  rw [if_neg (by omega), if_neg (by omega), hs]
  dsimp only
  rw [if_pos rfl, show 2 ^ n - (2 ^ n - p) = p by omega]
  rfl

theorem ratOf_tapVal {n es p m : Nat} {b : Bool} (hp0 : 0 < p) (hp1 : p < 2 ^ (n - 1)) (hb : p.testBit (n - 2) = b)
    (hm : runDown p b (n - 1) = m) :
    ratOf (tapVal n es p) = some ((2 : ℚ) ^ tapExp n es m p b * (1 + (p % 2 ^ tapNf n es m : Nat) / 2 ^ tapNf n es m)) := by
  rw [tapVal_pos hp0 hp1 hb hm, ratOf_num, zpow_sub₀ (by norm_num), zpow_natCast]
  congr 1
  push_cast
  simp only [signOf, Bool.false_eq_true, if_false]
  field_simp

theorem valueOf_tap {c n es p : Nat} (hc : (c, n, es) ∈ [(8, 8, 1), (9, 16, 1), (10, 32, 2), (0xB, 8, 1)]) (hp : p < 2 ^ n) :
    valueOf c p = tapVal n es p := by
  obtain ⟨rfl, rfl, rfl⟩ | ⟨rfl, rfl, rfl⟩ | ⟨rfl, rfl, rfl⟩ | ⟨rfl, rfl, rfl⟩ : (c = 8 ∧ n = 8 ∧ es = 1) ∨ (c = 9 ∧ n = 16 ∧ es = 1) ∨
    (c = 10 ∧ n = 32 ∧ es = 2) ∨ (c = 11 ∧ n = 8 ∧ es = 1) := by simpa using hc
  all_goals exact congrArg (tapVal _ _) (Nat.mod_eq_of_lt hp)

/-- What R70 and R71 say of the codes of tapered formats. -/
theorem tap_values (c n es p m : Nat) (b : Bool) :
    let rest := n - 2 - m
    let ne := min es rest
    let nf := rest - ne
    let k : Int := if b then (m : Int) - 1 else -(m : Int)
    (p < 2 ^ n → (c, n, es) ∈ [(8, 8, 1), (9, 16, 1), (10, 32, 2), (0xB, 8, 1)] → valueOf c p = tapVal n es p) ∧
    (3 ≤ n → tapVal n es 0 = .zero false ∧ tapVal n es (2 ^ (n - 1)) = .nar) ∧
    (3 ≤ n → 0 < p → p < 2 ^ (n - 1) → tapVal n es (2 ^ n - p) = (tapVal n es p).neg ∧
      (1 ≤ m → m < n → (∀ i < m, p.testBit (n - 2 - i) = b) → (m < n - 1 → p.testBit (n - 2 - m) = !b) →
        ratOf (tapVal n es p) = some ((2 : ℚ) ^ (k * 2 ^ es + (p / 2 ^ nf % 2 ^ ne * 2 ^ (es - ne) : Nat)) * (1 + (p % 2 ^ nf : Nat) / 2 ^ nf)))) := by
  intro rest ne nf k
  refine ⟨fun hp hc => valueOf_tap hc hp, fun _ => ⟨rfl, ?_⟩, fun hn hp0 hp1 => ⟨tapVal_neg hn hp0 hp1, fun hm1 hmn hrun hstop => ?_⟩⟩
  · unfold tapVal
    rw [if_neg (Nat.two_pow_pos _).ne', if_pos rfl]
  · exact ratOf_tapVal hp0 hp1 (hrun 0 hm1)
      (runDown_eq (by omega) (fun i hi => by rw [← hrun i hi]; congr 1) fun h => by rw [← hstop h]; congr 1)

end Sys2Proof.Words
end

section
/-! # The places of values among tapered codes (R70 to R72) -/

namespace Sys2Proof.Words
open Sys2Proof Sys2Proof.Machine Sys2Proof.Claims

/-! ## Powers of two joined by straight lines -/

/-- The powers of two at the integers, and a straight line between each two of them. -/
def powLin (u : ℚ) : ℚ := 2 ^ ⌊u⌋ * (1 + Int.fract u)

theorem powLin_of_floor {u y : ℚ} {n : Int} (hu : u = n + y) (h0 : 0 ≤ y) (h1 : y ≤ 1) : powLin u = 2 ^ n * (1 + y) := by
  subst hu
  rcases h1.lt_or_eq with h1 | rfl
  · have hf : ⌊(n : ℚ) + y⌋ = n := by rw [Int.floor_eq_iff]; constructor <;> linarith
    unfold powLin Int.fract
    rw [hf]
    ring
  · have hf : ⌊(n : ℚ) + 1⌋ = n + 1 := by rw [Int.floor_eq_iff]; push_cast; constructor <;> linarith
    unfold powLin Int.fract
    rw [hf, zpow_add₀ (by norm_num)]
    push_cast
    ring

theorem powLin_int (n : Int) : powLin n = 2 ^ n := by rw [powLin_of_floor (n := n) (y := 0) (by simp) le_rfl (by norm_num)]; ring

theorem powLin_strictMono : StrictMono powLin := by
  intro u v huv
  have h2 : ∀ n : Int, (0 : ℚ) < 2 ^ n := fun n => by positivity
  rcases (Int.floor_mono huv.le).lt_or_eq with h | h
  · calc powLin u < 2 ^ ⌊u⌋ * 2 := mul_lt_mul_of_pos_left (by linarith [Int.fract_lt_one u]) (h2 _)
      _ = 2 ^ (⌊u⌋ + 1) := (zpow_add_one₀ (by norm_num) _).symm
      _ ≤ 2 ^ ⌊v⌋ := zpow_le_zpow_right₀ (by norm_num) h
      _ ≤ powLin v := le_mul_of_one_le_right (h2 _).le (by linarith [Int.fract_nonneg v])
  · unfold powLin Int.fract
    rw [h]
    exact mul_lt_mul_of_pos_left (by linarith) (h2 _)

/-! ## Places -/

/-- The place, from 0 to 1, of the value with logarithm R to the base 2^(2^es): a code of size n at place p ÷ 2^(n − 1) is p. -/
def tapPlace (R : ℚ) : ℚ := if R < 0 then powLin (R - 1) else 1 - powLin (-(R + 1))

/-- The value with this logarithm, exponents joined by straight lines. -/
def tapReal (es : Nat) (R : ℚ) : ℚ := powLin (2 ^ es * R)

theorem tapReal_strictMono (es : Nat) : StrictMono (tapReal es) := fun u v h =>
  powLin_strictMono (mul_lt_mul_of_pos_left h (by positivity))

theorem tapPlace_strictMono : StrictMono tapPlace := by
  have hhalf : powLin (-1) = 1 / 2 := by
    have := powLin_int (-1)
    push_cast at this
    rw [this]; norm_num
  intro u v huv
  unfold tapPlace
  by_cases hu : u < 0 <;> by_cases hv : v < 0
  · rw [if_pos hu, if_pos hv]
    exact powLin_strictMono (by linarith)
  · rw [if_pos hu, if_neg hv]
    have h1 : powLin (u - 1) < powLin (-1) := powLin_strictMono (by linarith)
    have h2 : powLin (-(v + 1)) ≤ powLin (-1) := powLin_strictMono.monotone (by linarith [not_lt.1 hv])
    linarith
  · linarith [not_lt.1 hu]
  · rw [if_neg hu, if_neg hv]
    have : powLin (-(v + 1)) < powLin (-(u + 1)) := powLin_strictMono (by linarith)
    linarith

/-- The place below one: a regime of zeros. -/
theorem tapPlace_below {k : Int} {y : ℚ} (hk : k < 0) (h0 : 0 ≤ y) (h1 : y < 1) : tapPlace (k + y) = 2 ^ (k - 1) * (1 + y) := by
  have hneg : (k + y : ℚ) < 0 := by
    have : (k : ℚ) ≤ -1 := by exact_mod_cast Int.le_sub_one_of_lt hk
    linarith
  unfold tapPlace
  rw [if_pos hneg]
  exact powLin_of_floor (n := k - 1) (by push_cast; ring) h0 h1.le

/-- The place at one and above: a regime of ones. -/
theorem tapPlace_above {k : Int} {y : ℚ} (hk : 0 ≤ k) (h0 : 0 ≤ y) (h1 : y < 1) : tapPlace (k + y) = 1 - 2 ^ (-(k + 2)) * (2 - y) := by
  have hpos : (0 : ℚ) ≤ k := by exact_mod_cast hk
  unfold tapPlace
  rw [if_neg (by linarith), powLin_of_floor (n := -(k + 2)) (y := 1 - y) (by push_cast; ring) (by linarith) (by linarith)]
  ring

/-! ## Codes have places -/

theorem regime_pos {n p m : Nat} {b : Bool} (hn : 3 ≤ n) (hb : p.testBit (n - 2) = b) (hm : runDown p b (n - 1) = m) : 1 ≤ m := by
  rw [← hm, show n - 1 = (n - 2) + 1 by omega]
  unfold runDown
  rw [if_pos (beq_iff_eq.2 hb)]
  omega

section
variable {n es p m : Nat} {b : Bool} (hn : 3 ≤ n) (hp0 : 0 < p) (hp1 : p < 2 ^ (n - 1)) (hb : p.testBit (n - 2) = b)
  (hm : runDown p b (n - 1) = m)
include hn hp0 hp1 hb hm

/-- The code as its regime and what is left. -/
theorem code_parts : if b then 2 ^ (n - 1) - p + p % 2 ^ tapRest n m = (if m = n - 1 then 1 else 2 ^ (tapRest n m + 1))
    else m ≤ n - 2 ∧ p = 2 ^ tapRest n m + p % 2 ^ tapRest n m := by
  have hm1 := regime_pos hn hb hm
  have hle : m ≤ n - 1 := hm ▸ runDown_le p b (n - 1)
  unfold tapRest
  cases b with
  | false =>
    obtain ⟨hlt, hge⟩ := zeros_bounds hp1 hm
    have hm2 : m ≤ n - 2 := by
      by_contra h
      rw [show n - 1 - m = 0 by omega] at hlt
      omega
    have hge := hge (by omega)
    rw [show n - 1 - 1 - m = n - 2 - m by omega] at hge
    rw [show n - 1 - m = n - 2 - m + 1 by omega, pow_succ] at hlt
    have hq : p / 2 ^ (n - 2 - m) = 1 := by rw [Nat.div_eq_iff (Nat.two_pow_pos _)]; omega
    have := Nat.div_add_mod p (2 ^ (n - 2 - m))
    rw [hq] at this
    exact ⟨hm2, by omega⟩
  | true =>
    obtain ⟨hlt, hge⟩ := ones_bounds hp1 hm
    show _ = _
    by_cases hmn : m = n - 1
    · rw [if_pos hmn, show n - 2 - m = 0 by omega, pow_zero, Nat.mod_one]
      rw [hmn, Nat.sub_self, pow_zero] at hlt
      omega
    · have hge := hge (by omega)
      rw [if_neg hmn]
      rw [show n - 1 - 1 - m = n - 2 - m by omega] at hge
      rw [show n - 1 - m = n - 2 - m + 1 by omega] at hlt
      obtain ⟨j, hj⟩ : ∃ j, 2 ^ (n - 1) = 2 ^ (n - 2 - m + 1) + j * 2 ^ (n - 2 - m) :=
        ⟨2 ^ (m + 1) - 2, by
          rw [Nat.sub_mul, ← pow_add, show m + 1 + (n - 2 - m) = n - 1 by omega, pow_succ]
          have : 2 * 2 ^ (n - 2 - m) ≤ 2 ^ (n - 1) := by
            rw [← pow_succ']; exact Nat.pow_le_pow_right (by decide) (by omega)
          omega⟩
      have hmod : p % 2 ^ (n - 2 - m) = p - j * 2 ^ (n - 2 - m) := by
        rw [Nat.mod_eq_iff]
        right
        refine ⟨?_, j, ?_⟩ 
        · rw [pow_succ] at hlt hj; omega
        · rw [mul_comm]; omega
      rw [hmod]
      omega

/-- The logarithm that the code stands for. -/
theorem code_tapPlace : tapPlace (regimeOf b m + (p % 2 ^ tapRest n m : Nat) / 2 ^ tapRest n m) = p / 2 ^ (n - 1) := by
  have hm1 := regime_pos hn hb hm
  have hparts := code_parts hn hp0 hp1 hb hm
  have hrest : (0 : ℚ) < 2 ^ tapRest n m := by positivity
  have hlt : ((p % 2 ^ tapRest n m : Nat) : ℚ) < 2 ^ tapRest n m := by exact_mod_cast Nat.mod_lt p (Nat.two_pow_pos _)
  have hy0 : (0 : ℚ) ≤ (p % 2 ^ tapRest n m : Nat) / 2 ^ tapRest n m := by positivity
  have hy1 : ((p % 2 ^ tapRest n m : Nat) : ℚ) / 2 ^ tapRest n m < 1 := (div_lt_one hrest).2 hlt
  cases b with
  | false =>
    obtain ⟨hmn, hp⟩ := hparts
    have hpow : (2 : ℚ) ^ (n - 1) = 2 ^ tapRest n m * 2 ^ (m + 1) := by
      rw [← pow_add]; congr 1; unfold tapRest; omega
    have hpq : (p : ℚ) = 2 ^ tapRest n m + (p % 2 ^ tapRest n m : Nat) := by exact_mod_cast hp
    rw [tapPlace_below (show regimeOf false m < 0 by unfold regimeOf; simp; omega) hy0 hy1, hpow, eq_div_iff (by positivity)]
    have hz : (2 : ℚ) ^ (regimeOf false m - 1) * 2 ^ (m + 1) = 1 := by
      rw [← zpow_natCast, ← zpow_add₀ (by norm_num), show regimeOf false m - 1 + (m + 1 : Nat) = 0 by simp [regimeOf], zpow_zero]
    calc _ = (2 : ℚ) ^ (regimeOf false m - 1) * 2 ^ (m + 1) * (2 ^ tapRest n m * (1 + (p % 2 ^ tapRest n m : Nat) / 2 ^ tapRest n m)) := by ring
      _ = (p : ℚ) := by rw [hz, one_mul, mul_add, mul_one, mul_div_cancel₀ _ hrest.ne', ← hpq]
  | true =>
    have hm2 : m ≤ n - 1 := hm ▸ runDown_le p true (n - 1)
    have hk : regimeOf true m + 2 = ((m + 1 : Nat) : Int) := by unfold regimeOf; push_cast; simp; ring
    rw [tapPlace_above (show 0 ≤ regimeOf true m by unfold regimeOf; simp; omega) hy0 hy1, hk, zpow_neg, zpow_natCast]
    have hpq : (2 : ℚ) ^ (n - 1) - p + (p % 2 ^ tapRest n m : Nat) = if m = n - 1 then 1 else 2 ^ (tapRest n m + 1) := by
      have : 2 ^ (n - 1) + p % 2 ^ tapRest n m = (if m = n - 1 then 1 else 2 ^ (tapRest n m + 1)) + p := by
        rw [if_pos rfl] at hparts; omega
      have hcast : (2 : ℚ) ^ (n - 1) + (p % 2 ^ tapRest n m : Nat) = (if m = n - 1 then 1 else 2 ^ (tapRest n m + 1)) + p := by exact_mod_cast this
      linarith
    by_cases hmn : m = n - 1
    · have hr : tapRest n m = 0 := by unfold tapRest; omega
      rw [if_pos hmn, hr, pow_zero, Nat.mod_one] at hpq
      rw [hr, pow_zero, Nat.mod_one, show m + 1 = n - 1 + 1 by omega, eq_div_iff (by positivity), pow_succ]
      field_simp
      push_cast at hpq ⊢
      linarith
    · have hpow : (2 : ℚ) ^ (n - 1) = 2 ^ tapRest n m * 2 ^ (m + 1) := by
        rw [← pow_add]; congr 1; unfold tapRest; omega
      rw [if_neg hmn, hpow, pow_succ _ (tapRest n m)] at hpq
      rw [hpow, eq_div_iff (by positivity)]
      field_simp
      linarith

omit hn in
theorem code_tapReal : ratOf (tapVal n es p) = some (tapReal es (regimeOf b m + (p % 2 ^ tapRest n m : Nat) / 2 ^ tapRest n m)) := by
  rw [ratOf_tapVal hp0 hp1 hb hm]
  congr 1
  have hfrac : ((p % 2 ^ tapNf n es m : Nat) : ℚ) / 2 ^ tapNf n es m < 1 :=
    (div_lt_one (by positivity)).2 (by exact_mod_cast Nat.mod_lt p (Nat.two_pow_pos _))
  refine (powLin_of_floor ?_ (by positivity) hfrac.le).symm
  have hsplit : p % 2 ^ tapRest n m = p % 2 ^ tapNf n es m + 2 ^ tapNf n es m * (p / 2 ^ tapNf n es m % 2 ^ tapNe n es m) := by
    rw [← Nat.mod_mul, ← pow_add]
    congr 2
    unfold tapNf tapNe
    omega
  have hpow : (2 : ℚ) ^ tapRest n m = 2 ^ tapNf n es m * 2 ^ tapNe n es m := by
    rw [← pow_add]; congr 1; unfold tapNf tapNe; omega
  have hes : (2 : ℚ) ^ es = 2 ^ tapNe n es m * 2 ^ (es - tapNe n es m) := by
    rw [← pow_add]; congr 1; unfold tapNe; omega
  -- where exponent bits are cut off, no fraction bits are left
  have hcut : ((p % 2 ^ tapNf n es m : Nat) : ℚ) * 2 ^ (es - tapNe n es m) = (p % 2 ^ tapNf n es m : Nat) := by
    by_cases h : tapNe n es m = es
    · rw [h, Nat.sub_self, pow_zero, mul_one]
    · have : tapNf n es m = 0 := by unfold tapNf tapNe at *; omega
      rw [this, pow_zero, Nat.mod_one, Nat.cast_zero, zero_mul]
  have hsplitq : ((p % 2 ^ tapRest n m : Nat) : ℚ) =
      (p % 2 ^ tapNf n es m : Nat) + 2 ^ tapNf n es m * (p / 2 ^ tapNf n es m % 2 ^ tapNe n es m : Nat) := by exact_mod_cast hsplit
  unfold tapExp
  generalize p / 2 ^ tapNf n es m % 2 ^ tapNe n es m = x at *
  generalize p % 2 ^ tapNf n es m = f at *
  have hexp : (2 : ℚ) ^ es * ((f + 2 ^ tapNf n es m * x) / (2 ^ tapNf n es m * 2 ^ tapNe n es m)) =
      x * 2 ^ (es - tapNe n es m) + f / 2 ^ tapNf n es m := by
    rw [hes]
    field_simp
    linear_combination hcut
  rw [hsplitq, hpow, mul_add, hexp]
  push_cast
  ring
end

/-- A positive code has a place, that of its value. -/
theorem code_place {n es p : Nat} (hn : 3 ≤ n) (hp0 : 0 < p) (hp1 : p < 2 ^ (n - 1)) :
    ∃ R, tapPlace R = p / 2 ^ (n - 1) ∧ ratOf (tapVal n es p) = some (tapReal es R) :=
  ⟨_, code_tapPlace hn hp0 hp1 rfl rfl, code_tapReal hp0 hp1 rfl rfl⟩

end Sys2Proof.Words
end

section
/-! # Rounding to a tapered code (R72, R82) -/

namespace Sys2Proof.Words
open Sys2Proof Sys2Proof.Machine Sys2Proof.Claims

/-! ## The unbounded encoding of a number -/

/-- The regime of the unbounded encoding, with the bit that ends it, and its length. -/
def tapRegime (k : Int) : Nat × Nat := if 0 ≤ k then (2 ^ (k.toNat + 2) - 2, k.toNat + 2) else (1, (-k).toNat + 1)

/-- Every digit of the unbounded encoding of m × 2^e. -/
def tapDigits (es m : Nat) (e : Int) : Nat :=
  let ex : Int := e + Nat.log2 m
  let k := ex / 2 ^ es
  ((tapRegime k).1 * 2 ^ es + (ex - k * 2 ^ es).toNat) * 2 ^ Nat.log2 m + (m - 2 ^ Nat.log2 m)

/-- The number of those digits. -/
def tapLen (es m : Nat) (e : Int) : Nat := (tapRegime ((e + Nat.log2 m) / 2 ^ es)).2 + es + Nat.log2 m

/-- The code of a magnitude. -/
def tapMag (n es : Nat) (md : Rnd) (m : Nat) (e : Int) : Nat :=
  let ex : Int := e + Nat.log2 m
  let lim : Int := (n - 2) * 2 ^ es
  if lim ≤ ex then 2 ^ (n - 1) - 1
  else if ex < -lim || (ex == -lim && m == 2 ^ Nat.log2 m) then 1
  else if n - 1 ≤ tapLen es m e then roundShift md false (tapDigits es m e) (tapLen es m e - (n - 1))
  else tapDigits es m e * 2 ^ (n - 1 - tapLen es m e)

theorem roundTap_eq (n es : Nat) (md : Rnd) (neg : Bool) (m : Nat) (e : Int) :
    roundTap n es md neg m e = if neg then 2 ^ n - tapMag n es md m e else tapMag n es md m e := rfl

/-- The place of a regime with what follows it. -/
theorem regime_place {k : Int} {y : ℚ} (h0 : 0 ≤ y) (h1 : y < 1) :
    tapPlace (k + y) = ((tapRegime k).1 + y) / 2 ^ (tapRegime k).2 := by
  unfold tapRegime
  by_cases hk : 0 ≤ k
  · rw [if_pos hk, tapPlace_above hk h0 h1]
    have hlen : k + 2 = ((k.toNat + 2 : Nat) : Int) := by omega
    have h2 : 2 ≤ 2 ^ (k.toNat + 2) := by rw [pow_add]; have := Nat.two_pow_pos k.toNat; omega
    rw [hlen, zpow_neg, zpow_natCast, Nat.cast_sub h2]
    push_cast
    field_simp
    ring
  · rw [if_neg hk, tapPlace_below (not_le.1 hk) h0 h1]
    have hlen : k - 1 = -(((-k).toNat + 1 : Nat) : Int) := by omega
    rw [hlen, zpow_neg, zpow_natCast]
    push_cast
    field_simp

/-- The unbounded encoding is the place of the number. -/
theorem num_place (es : Nat) {m : Nat} (hm : 0 < m) (e : Int) :
    ∃ R, tapReal es R = m * 2 ^ e ∧ tapPlace R = tapDigits es m e / 2 ^ tapLen es m e := by
  have hle := Nat.log2_self_le hm.ne'
  have hlt : m < 2 ^ (Nat.log2 m + 1) := Nat.lt_log2_self
  rw [pow_succ] at hlt
  unfold tapDigits tapLen
  dsimp only
  generalize Nat.log2 m = lg at *
  have hes : (0 : Int) < 2 ^ es := by positivity
  have hmod0 : 0 ≤ (e + lg) - (e + lg) / 2 ^ es * 2 ^ es := by
    have := Int.emod_nonneg (e + lg) hes.ne'
    rw [Int.emod_def] at this; linarith
  have hmod1 : (e + lg) - (e + lg) / 2 ^ es * 2 ^ es < 2 ^ es := by
    have := Int.emod_lt_of_pos (e + lg) hes
    rw [Int.emod_def] at this; linarith
  obtain ⟨f, rfl⟩ := Nat.exists_eq_add_of_le hle
  generalize hk : (e + lg) / 2 ^ es = k at *
  obtain ⟨sub, hsub⟩ := Int.eq_ofNat_of_zero_le hmod0
  rw [hsub] at hmod1 ⊢
  have hs1 : sub + 1 ≤ 2 ^ es := by exact_mod_cast hmod1
  have hy0 : (0 : ℚ) ≤ f / 2 ^ lg := by positivity
  have hy1 : (f : ℚ) / 2 ^ lg < 1 := by
    rw [div_lt_one (by positivity)]
    exact_mod_cast (by omega : f < 2 ^ lg)
  have hz1 : ((sub : ℚ) + f / 2 ^ lg) / 2 ^ es < 1 := by
    rw [div_lt_one (by positivity)]
    have : ((sub : ℚ) + 1) ≤ 2 ^ es := by exact_mod_cast hs1
    linarith
  refine ⟨k + ((sub : ℚ) + f / 2 ^ lg) / 2 ^ es, ?_, ?_⟩
  · have hexp : ((e + lg : Int) : ℚ) = k * 2 ^ es + sub := by
      have : e + lg = k * 2 ^ es + sub := by omega
      exact_mod_cast this
    unfold tapReal
    rw [powLin_of_floor (n := e + lg) (y := f / 2 ^ lg) ?_ hy0 hy1.le, zpow_add₀ (by norm_num), zpow_natCast]
    · push_cast
      field_simp
    · rw [hexp]
      field_simp
      ring
  · rw [regime_place (by positivity) hz1, Int.toNat_natCast]
    generalize tapRegime k = x
    rw [Nat.add_sub_cancel_left, pow_add, pow_add]
    push_cast
    field_simp
    ring

/-! ## The range of the codes -/

theorem tapReal_int (es : Nat) (k : Int) : tapReal es k = 2 ^ (k * 2 ^ es) := by
  rw [← powLin_int]
  unfold tapReal
  push_cast
  rw [mul_comm]

theorem tapPlace_top {n : Nat} (hn : 3 ≤ n) : tapPlace ((n - 2 : Nat) : Int) = (2 ^ (n - 1) - 1) / 2 ^ (n - 1) := by
  have h := tapPlace_above (k := ((n - 2 : Nat) : Int)) (y := 0) (by omega) le_rfl (by norm_num)
  rw [add_zero, show -(((n - 2 : Nat) : Int) + 2) = -((n - 1 + 1 : Nat) : Int) by omega, zpow_neg, zpow_natCast, pow_succ] at h
  rw [h]
  field_simp
  ring

theorem tapPlace_bottom {n : Nat} (hn : 3 ≤ n) : tapPlace ((-((n - 2 : Nat) : Int) : Int)) = 1 / 2 ^ (n - 1) := by
  have h := tapPlace_below (k := -((n - 2 : Nat) : Int)) (y := 0) (by omega) le_rfl (by norm_num)
  rw [add_zero, show -((n - 2 : Nat) : Int) - 1 = -((n - 1 : Nat) : Int) by omega, zpow_neg, zpow_natCast] at h
  rw [h]
  ring

theorem zpow_le_num_iff {m : Nat} (hm : 0 < m) {e l : Int} : (2 : ℚ) ^ l ≤ m * 2 ^ e ↔ l ≤ e + Nat.log2 m :=
  ⟨fun h => exponent_le h (log2_bounds hm e).2, fun h => (zpow_le_zpow_right₀ (by norm_num) h).trans (log2_bounds hm e).1⟩

theorem num_le_zpow_iff {m : Nat} (hm : 0 < m) {e l : Int} :
    (m * 2 ^ e : ℚ) ≤ 2 ^ l ↔ e + Nat.log2 m < l ∨ (e + Nat.log2 m = l ∧ m = 2 ^ Nat.log2 m) := by
  obtain ⟨hlo, hhi⟩ := log2_bounds hm e
  constructor
  · intro h
    have hle := (zpow_le_zpow_iff_right₀ (by norm_num : (1 : ℚ) < 2)).1 (hlo.trans h)
    refine hle.lt_or_eq.imp_right fun heq => ⟨heq, le_antisymm ?_ (Nat.log2_self_le hm.ne')⟩
    rw [← heq, add_comm, zpow_add₀ (by norm_num), zpow_natCast] at h
    exact_mod_cast le_of_mul_le_mul_right h (by positivity)
  · rintro (h | ⟨rfl, h⟩)
    · exact hhi.le.trans (zpow_le_zpow_right₀ (by norm_num) h)
    · rw [add_comm, zpow_add₀ (by norm_num), zpow_natCast]
      refine mul_le_mul_of_nonneg_right ?_ (by positivity)
      exact_mod_cast h.le

section
variable {n es m : Nat} {e : Int} (hn : 3 ≤ n) (hm : 0 < m)
include hn hm

theorem tapMag_top (md : Rnd) (h : (2 : ℚ) ^ (((n - 2 : Nat) : Int) * 2 ^ es) ≤ m * 2 ^ e) : tapMag n es md m e = 2 ^ (n - 1) - 1 := by
  rw [zpow_le_num_iff hm, Nat.cast_sub (by omega)] at h
  exact if_pos h

theorem tapMag_bottom (md : Rnd) (h : (m * 2 ^ e : ℚ) ≤ 2 ^ (-((n - 2 : Nat) : Int) * 2 ^ es)) : tapMag n es md m e = 1 := by
  rw [num_le_zpow_iff hm, Nat.cast_sub (by omega)] at h
  have hlim : (0 : Int) < ((n : Int) - 2) * 2 ^ es := mul_pos (by omega) (by positivity)
  rw [neg_mul] at h
  push_cast at h
  unfold tapMag
  dsimp only
  rw [if_neg (by omega), if_pos (by simpa using h)]

/-- Within the range, and at its lower end, the place is rounded to a code. -/
theorem tapMag_shift (md : Rnd) {R : ℚ} (hR : tapReal es R = m * 2 ^ e) (hplace : tapPlace R = tapDigits es m e / 2 ^ tapLen es m e)
    (hbot : 1 / 2 ^ (n - 1) ≤ tapPlace R) (htop : (m * 2 ^ e : ℚ) < 2 ^ (((n - 2 : Nat) : Int) * 2 ^ es)) :
    ∃ t S : Nat, tapPlace R = t / 2 ^ (n - 1 + S) ∧ tapMag n es md m e = roundShift md false t S := by
  by_cases hb : (m * 2 ^ e : ℚ) ≤ 2 ^ (-((n - 2 : Nat) : Int) * 2 ^ es)
  · refine ⟨1, 0, le_antisymm ?_ ?_, tapMag_bottom hn hm md hb⟩
    · rw [← hR, ← tapReal_int, (tapReal_strictMono es).le_iff_le] at hb
      rw [Nat.cast_one, add_zero, ← tapPlace_bottom hn]
      exact tapPlace_strictMono.monotone hb
    · simpa using hbot
  · rw [num_le_zpow_iff hm, Nat.cast_sub (by omega), neg_mul] at hb
    rw [← not_le, zpow_le_num_iff hm, Nat.cast_sub (by omega)] at htop
    push_cast at hb htop
    have hmag : tapMag n es md m e = if n - 1 ≤ tapLen es m e then roundShift md false (tapDigits es m e) (tapLen es m e - (n - 1))
        else tapDigits es m e * 2 ^ (n - 1 - tapLen es m e) := by
      unfold tapMag
      dsimp only
      rw [if_neg htop, if_neg (by simpa using hb)]
    by_cases hl : n - 1 ≤ tapLen es m e
    · rw [if_pos hl] at hmag
      exact ⟨_, _, by rw [hplace, Nat.add_sub_cancel' hl], hmag⟩
    · rw [if_neg hl] at hmag
      refine ⟨tapDigits es m e * 2 ^ (n - 1 - tapLen es m e), 0, ?_, hmag⟩
      rw [hplace, add_zero, show (2 : ℚ) ^ (n - 1) = 2 ^ tapLen es m e * 2 ^ (n - 1 - tapLen es m e) by rw [← pow_add]; congr 1; omega]
      push_cast
      field_simp
end

end Sys2Proof.Words
end

section
/-! # Neighbours of a real among tapered codes (R72, R82) -/

namespace Sys2Proof.Words
open Sys2Proof Sys2Proof.Machine Sys2Proof.Claims

/-- The real that a tapered code names. -/
def codeReal (n es p : Nat) : ℚ := (ratOf (tapVal n es p)).getD 0

section
variable {n es p : Nat} (hn : 3 ≤ n) (hp0 : 0 < p) (hp1 : p < 2 ^ (n - 1))
include hn hp0 hp1

theorem codeReal_place : ∃ R, tapPlace R = p / 2 ^ (n - 1) ∧ codeReal n es p = tapReal es R := by
  obtain ⟨R, hR, hv⟩ := code_place (es := es) hn hp0 hp1
  exact ⟨R, hR, by rw [codeReal, hv, Option.getD_some]⟩

/-- Codes stand to a real as their places do. -/
theorem codeReal_lt_iff {R : ℚ} : codeReal n es p < tapReal es R ↔ p / 2 ^ (n - 1) < tapPlace R := by
  obtain ⟨R', hR', hv⟩ := codeReal_place (es := es) hn hp0 hp1
  rw [hv, ← hR', (tapReal_strictMono es).lt_iff_lt, tapPlace_strictMono.lt_iff_lt]

theorem codeReal_eq_iff {R : ℚ} : codeReal n es p = tapReal es R ↔ p / 2 ^ (n - 1) = tapPlace R := by
  obtain ⟨R', hR', hv⟩ := codeReal_place (es := es) hn hp0 hp1
  rw [hv, ← hR', (tapReal_strictMono es).injective.eq_iff, tapPlace_strictMono.injective.eq_iff]

theorem lt_codeReal_iff {R : ℚ} : tapReal es R < codeReal n es p ↔ tapPlace R < p / 2 ^ (n - 1) := by
  obtain ⟨R', hR', hv⟩ := codeReal_place (es := es) hn hp0 hp1
  rw [hv, ← hR', (tapReal_strictMono es).lt_iff_lt, tapPlace_strictMono.lt_iff_lt]
end

/-- A place k ÷ 2^N and a rest against a place with u more digits. -/
theorem place_cmp (N S u k r i : Nat) :
    (((2 ^ u * k + i : Nat) / 2 ^ (N + u) : ℚ) < (k * 2 ^ S + r : Nat) / 2 ^ (N + S) ↔ i * 2 ^ S < r * 2 ^ u) ∧
    (((2 ^ u * k + i : Nat) / 2 ^ (N + u) : ℚ) = (k * 2 ^ S + r : Nat) / 2 ^ (N + S) ↔ i * 2 ^ S = r * 2 ^ u) := by
  have hN : (0 : ℚ) < 2 ^ N := by positivity
  have hl : ((2 ^ u * k + i : Nat) * 2 ^ (N + S) : ℚ) = ((k * 2 ^ u * 2 ^ S + i * 2 ^ S : Nat) : ℚ) * 2 ^ N := by push_cast; rw [pow_add]; ring
  have hr : ((k * 2 ^ S + r : Nat) * 2 ^ (N + u) : ℚ) = ((k * 2 ^ u * 2 ^ S + r * 2 ^ u : Nat) : ℚ) * 2 ^ N := by push_cast; rw [pow_add]; ring
  constructor
  · rw [div_lt_div_iff₀ (by positivity) (by positivity), hl, hr, mul_lt_mul_iff_left₀ hN, Nat.cast_lt]
    omega
  · rw [div_eq_div_iff (by positivity) (by positivity), hl, hr, mul_left_inj' hN.ne', Nat.cast_inj]
    omega

section
variable {n es m k : Nat} {e : Int} (hn : 3 ≤ n) (hm : 0 < m) (hk0 : 0 < k) (hk1 : k + 1 < 2 ^ (n - 1))
  (h1 : codeReal n es k ≤ m * 2 ^ e) (h2 : m * 2 ^ e < codeReal n es (k + 1))
include hn hm hk0 hk1 h1 h2

/-- A magnitude between two codes is rounded to one of them by what its place leaves, and compares as that does with each code of more
digits between the two. -/
theorem tapMag_neighbours (md : Rnd) : ∃ r S : Nat,
    (roundsUp md false (k % 2 == 1) r (2 ^ S) → tapMag n es md m e = k + 1) ∧
    (¬ roundsUp md false (k % 2 == 1) r (2 ^ S) → tapMag n es md m e = k) ∧
    ∀ u i, i < 2 ^ u → (codeReal (n + u) es (2 ^ u * k + i) < m * 2 ^ e ↔ i * 2 ^ S < r * 2 ^ u) ∧
      (codeReal (n + u) es (2 ^ u * k + i) = m * 2 ^ e ↔ i * 2 ^ S = r * 2 ^ u) := by
  obtain ⟨R, hR, hplace⟩ := num_place es hm e
  rw [← hR] at h1 h2
  rw [← not_lt, lt_codeReal_iff hn hk0 (by omega), not_lt] at h1
  rw [lt_codeReal_iff hn (by omega) hk1] at h2
  have hpow : (0 : ℚ) < 2 ^ (n - 1) := by positivity
  have htop : (m * 2 ^ e : ℚ) < 2 ^ (((n - 2 : Nat) : Int) * 2 ^ es) := by
    rw [← hR, ← tapReal_int, (tapReal_strictMono es).lt_iff_lt, ← tapPlace_strictMono.lt_iff_lt, tapPlace_top hn]
    refine h2.trans_le (div_le_div_of_nonneg_right ?_ hpow.le)
    have : ((k + 1 + 1 : Nat) : ℚ) ≤ 2 ^ (n - 1) := by exact_mod_cast hk1
    push_cast at this ⊢
    linarith
  have hbot : 1 / 2 ^ (n - 1) ≤ tapPlace R := (div_le_div_of_nonneg_right (by exact_mod_cast hk0) hpow.le).trans h1
  obtain ⟨t, S, ht, hmag⟩ := tapMag_shift hn hm md hR hplace hbot htop
  have hq : t / 2 ^ S = k := by
    rw [ht, pow_add, ← div_div, div_right_comm] at h1 h2
    rw [div_le_div_iff_of_pos_right hpow, le_div_iff₀ (by positivity)] at h1
    rw [div_lt_div_iff_of_pos_right hpow, div_lt_iff₀ (by positivity)] at h2
    refine Nat.div_eq_of_lt_le ?_ ?_
    · exact_mod_cast h1
    · exact_mod_cast h2
  obtain ⟨hup, hdown⟩ := roundShift_cases md false t S
  rw [hq] at hup hdown
  have hdiv := Nat.div_add_mod t (2 ^ S)
  rw [hq, mul_comm] at hdiv
  refine ⟨t % 2 ^ S, S, fun h => hmag.trans (hup h), fun h => hmag.trans (hdown h), fun u i hi => ?_⟩
  obtain ⟨hlt, heq⟩ := place_cmp (n - 1) S u k (t % 2 ^ S) i
  rw [hdiv, ← ht, show n - 1 + u = n + u - 1 by omega] at hlt heq
  have hp0 : 0 < 2 ^ u * k + i := by have := Nat.mul_pos (Nat.two_pow_pos u) hk0; omega
  have hp1 : 2 ^ u * k + i < 2 ^ (n + u - 1) := by
    have : 2 ^ u * (k + 1) ≤ 2 ^ u * 2 ^ (n - 1) := Nat.mul_le_mul_left _ (by omega)
    rw [← pow_add, show u + (n - 1) = n + u - 1 by omega] at this
    rw [mul_add] at this
    omega
  rw [← hR]
  exact ⟨(codeReal_lt_iff (by omega) hp0 hp1).trans hlt, (codeReal_eq_iff (by omega) hp0 hp1).trans heq⟩

theorem tapMag_rne (neg : Bool) :
    (goesUp 0 neg (k % 2 == 1) 0 (codeReal (n + 1) es (2 * k + 1)) (m * 2 ^ e) → tapMag n es .rne m e = k + 1) ∧
    (¬ goesUp 0 neg (k % 2 == 1) 0 (codeReal (n + 1) es (2 * k + 1)) (m * 2 ^ e) → tapMag n es .rne m e = k) := by
  obtain ⟨r, S, hup, hdown, hcmp⟩ := tapMag_neighbours hn hm hk0 hk1 h1 h2 .rne
  obtain ⟨hlt, heq⟩ := hcmp 1 1 (by decide)
  rw [pow_one] at hlt heq
  have hiff : goesUp 0 neg (k % 2 == 1) 0 (codeReal (n + 1) es (2 * k + 1)) (m * 2 ^ e) ↔ roundsUp .rne false (k % 2 == 1) r (2 ^ S) := by
    unfold goesUp roundsUp
    rw [hlt, heq]
    simp
    omega
  exact ⟨fun h => hup (hiff.1 h), fun h => hdown (mt hiff.2 h)⟩

theorem tapMag_rtz : tapMag n es .rtz m e = k := by
  obtain ⟨r, S, -, hdown, -⟩ := tapMag_neighbours hn hm hk0 hk1 h1 h2 .rtz
  exact hdown id

theorem tapMag_sr {rnd : Nat} (hrnd : rnd < 2 ^ 32) :
    (codeReal (n + 32) es (2 ^ 32 * k + rnd) < m * 2 ^ e → tapMag n es (.sr rnd) m e = k + 1) ∧
    (¬ codeReal (n + 32) es (2 ^ 32 * k + rnd) < m * 2 ^ e → tapMag n es (.sr rnd) m e = k) := by
  obtain ⟨r, S, hup, hdown, hcmp⟩ := tapMag_neighbours hn hm hk0 hk1 h1 h2 (.sr rnd)
  obtain ⟨hlt, -⟩ := hcmp 32 rnd hrnd
  exact ⟨fun h => hup (hlt.1 h), fun h => hdown (mt hlt.2 h)⟩
end

theorem rndOf_lt (seed base : DWord) (e : Nat) : rndOf seed base e < 2 ^ 32 :=
  Nat.div_lt_of_lt_mul (mix64 (seed + base + BitVec.ofNat 64 e)).isLt

/-- What R72 and R82 say of the rounding of a real to a tapered format. -/
theorem round_num_tap {c n es : Nat} (hc : (c, n, es) ∈ tapShapes) (r : RCtx) (key k : Nat) {m : Nat} (hm : 0 < m) (e : Int) (neg : Bool)
    (hmode : fdSR r.d = true ∨ fdRM r.d ≤ 1) :
    ∃ z, r.round c key (.num neg m e) = some (if neg then 2 ^ n - z else z) ∧
      ((2 : ℚ) ^ ((n - 2) * 2 ^ es) ≤ m * 2 ^ e → z = 2 ^ (n - 1) - 1) ∧ ((m * 2 ^ e : ℚ) * 2 ^ ((n - 2) * 2 ^ es) ≤ 1 → z = 1) ∧
      (0 < k → k + 1 < 2 ^ (n - 1) → codeReal n es k ≤ m * 2 ^ e → m * 2 ^ e < codeReal n es (k + 1) →
        let up := if fdSR r.d then codeReal (n + 32) es (2 ^ 32 * k + rndOf r.seed r.base key) < m * 2 ^ e
          else goesUp (if fdRM r.d = 1 then 1 else 0) neg (k % 2 == 1) 0 (codeReal (n + 1) es (2 * k + 1)) (m * 2 ^ e)
        (up → z = k + 1) ∧ (¬ up → z = k)) := by
  have h := tapFmt hc
  have hlim : (2 : ℚ) ^ (((n - 2 : Nat) : Int) * 2 ^ es) = 2 ^ ((n - 2) * 2 ^ es) := by
    rw [← zpow_natCast]; push_cast; rfl
  refine ⟨tapMag n es (r.mode c key) m e, ?_, fun ha => tapMag_top h.n3 hm _ (hlim ▸ ha), fun ha => tapMag_bottom h.n3 hm _ ?_,
    fun hk0 hk1 h1 h2 => ?_⟩
  · rw [round_tap h]
    unfold toTap
    rw [h.shape]
    exact congrArg some (roundTap_eq ..)
  · rw [neg_mul, zpow_neg, hlim, ← one_div, le_div_iff₀ (by positivity)]
    exact ha
  · unfold RCtx.mode
    rw [h.tap, Bool.true_or, Bool.and_true]
    by_cases hsr : fdSR r.d = true
    · rw [if_pos hsr, if_pos hsr]
      exact tapMag_sr h.n3 hm hk0 hk1 h1 h2 (rndOf_lt ..)
    · rw [if_neg hsr, if_neg hsr]
      by_cases hrm : fdRM r.d = 1
      · rw [if_pos hrm, hrm]
        exact ⟨fun hup => absurd hup (by simp [goesUp]), fun _ => tapMag_rtz h.n3 hm hk0 hk1 h1 h2⟩
      · have h0 : fdRM r.d = 0 := by
          have := hmode.resolve_left hsr
          omega
        rw [if_neg hrm, h0]
        exact tapMag_rne h.n3 hm hk0 hk1 h1 h2 neg

end Sys2Proof.Words
end

section
/-! # Rounding to an IEEE format (R73, R77, R80) -/

namespace Sys2Proof.Words
open Sys2Proof Sys2Proof.Machine Sys2Proof.Claims

/-! ## Magnitudes by their codes -/

def ieeeBias (eb : Nat) : Int := 2 ^ (eb - 1) - 1
/-- The code of infinity. -/
def ieeeTop (eb mb : Nat) : Nat := (2 ^ eb - 1) * 2 ^ mb
/-- The magnitude of a code, infinity standing at the power of two that follows. -/
def ieeeVal (c eb mb j : Nat) : ℚ := if j = ieeeTop eb mb then 2 ^ (ieeeBias eb + 1) else (ratOf (valueOf c j)).getD 0

section
variable {c eb mb j : Nat} (hc : (c, eb, mb) ∈ ieeeShapes)
include hc

theorem ieee_finite (hj : j < ieeeTop eb mb) : (ratOf (valueOf c j)).getD 0 =
    if j < 2 ^ mb then (j : ℚ) * 2 ^ (1 - ieeeBias eb - mb)
    else (2 ^ mb + (j % 2 ^ mb : Nat) : ℚ) * 2 ^ ((j / 2 ^ mb : Nat) - ieeeBias eb - mb) := by
  have hmem : (c, eb, mb) ∈ [(0, 8, 23), (1, 5, 10), (2, 11, 52), (0x11, 5, 2)] := by
    simpa using (ieeeShapes_cases hc).imp_right (Or.imp_right Or.inl)
  have he : j / 2 ^ mb < 2 ^ eb - 1 := Nat.div_lt_of_lt_mul (by rw [mul_comm]; exact hj)
  have hlt : j < 2 ^ (eb + mb) := hj.trans_le (by rw [pow_add]; exact Nat.mul_le_mul_right _ (Nat.sub_le _ _))
  have hp : j < 2 ^ (eb + mb + 1) := hlt.trans (Nat.pow_lt_pow_right (by decide) (Nat.lt_succ_self _))
  have hmod : j / 2 ^ mb % 2 ^ eb = j / 2 ^ mb := Nat.mod_eq_of_lt (he.trans_le (Nat.sub_le _ _))
  have hreal := ((fp_values c eb mb j hp).1 hmem).2 (show j / 2 ^ mb % 2 ^ eb ≠ 2 ^ eb - 1 by rw [hmod]; exact he.ne)
  rw [hreal, Option.getD_some]
  unfold fpReal
  rw [hmod, Nat.testBit_lt_two_pow hlt, if_neg Bool.false_ne_true, one_mul]
  by_cases h0 : j < 2 ^ mb
  · rw [if_pos h0, if_pos (Nat.div_eq_of_lt h0), Nat.mod_eq_of_lt h0]
    rfl
  · rw [if_neg h0, if_neg (by have := Nat.div_pos (not_lt.1 h0) (Nat.two_pow_pos mb); omega)]
    rfl

theorem ieeeVal_small (hj : j < 2 ^ mb) : ieeeVal c eb mb j < 2 ^ (1 - ieeeBias eb) := by
  have h2 : 2 ^ 2 ≤ 2 ^ eb := Nat.pow_le_pow_right (by decide) (ieeeFmt hc).eb2
  have htop : j < ieeeTop eb mb := hj.trans_le (Nat.le_mul_of_pos_left _ (by omega))
  unfold ieeeVal
  rw [if_neg htop.ne, ieee_finite hc htop, if_pos hj, zpow_sub₀ (by norm_num), zpow_natCast, mul_div_assoc', div_lt_iff₀ (by positivity), mul_comm]
  exact mul_lt_mul_of_pos_left (by exact_mod_cast hj) (by positivity)

/-- From the least normal number to infinity the magnitudes stand on straight lines between the powers of two. -/
theorem ieeeVal_eq (hlo : 2 ^ mb ≤ j) (hhi : j ≤ ieeeTop eb mb) : ieeeVal c eb mb j = powLin (j / 2 ^ mb - ieeeBias eb) := by
  have h2 : 2 ≤ eb := (ieeeFmt hc).eb2
  unfold ieeeVal
  by_cases htop : j = ieeeTop eb mb
  · have hpow : 2 ^ eb = 2 * 2 ^ (eb - 1) := by rw [← pow_succ']; congr 1; omega
    have hq : (j : ℚ) / 2 ^ mb - ieeeBias eb = (ieeeBias eb + 1 : Int) := by
      have hcast : ((2 ^ eb - 1 : Nat) : ℚ) = 2 * 2 ^ (eb - 1) - 1 := by
        rw [Nat.cast_sub Nat.one_le_two_pow, hpow]; push_cast; rfl
      rw [htop, ieeeTop, Nat.cast_mul, hcast]
      unfold ieeeBias
      push_cast
      field_simp
      ring
    rw [if_pos htop, hq, powLin_int]
  · have hlt : j < ieeeTop eb mb := lt_of_le_of_ne hhi htop
    rw [if_neg htop, ieee_finite hc hlt, if_neg hlo.not_gt]
    have hy : ((j % 2 ^ mb : Nat) : ℚ) / 2 ^ mb < 1 := by
      rw [div_lt_one (by positivity)]
      exact_mod_cast Nat.mod_lt j (Nat.two_pow_pos mb)
    have hj : (j : ℚ) = 2 ^ mb * (j / 2 ^ mb : Nat) + (j % 2 ^ mb : Nat) := by exact_mod_cast (Nat.div_add_mod j (2 ^ mb)).symm
    rw [powLin_of_floor (n := (j / 2 ^ mb : Nat) - ieeeBias eb) (y := (j % 2 ^ mb : Nat) / 2 ^ mb) ?_ (by positivity) hy.le,
      zpow_sub₀ (by norm_num), zpow_natCast]
    · field_simp
    · nth_rewrite 1 [hj]
      rw [Int.cast_sub, Int.cast_natCast]
      field_simp
      ring

theorem ieeeVal_lt_iff {i : Nat} (hi : 2 ^ mb ≤ i) (hi' : i ≤ ieeeTop eb mb) (hj : 2 ^ mb ≤ j) (hj' : j ≤ ieeeTop eb mb) :
    ieeeVal c eb mb i < ieeeVal c eb mb j ↔ i < j := by
  rw [ieeeVal_eq hc hi hi', ieeeVal_eq hc hj hj', powLin_strictMono.lt_iff_lt, sub_lt_sub_iff_right,
    div_lt_div_iff_of_pos_right (by positivity), Nat.cast_lt]
end

/-! ## The digits of a number -/

/-- The number rounded to mb + 1 digits. -/
def ieeeDigits (md : Rnd) (mb : Nat) (neg : Bool) (m : Nat) : Nat :=
  if mb ≤ Nat.log2 m then roundShift md neg m (Nat.log2 m - mb) else m * 2 ^ (mb - Nat.log2 m)

/-- The digits kept and what they leave, in units of `d`. -/
theorem ieeeDigits_cases (md : Rnd) (mb : Nat) (neg : Bool) {m : Nat} (hm : 0 < m) (e : Int) : ∃ (q r h : Nat) (d : ℚ),
    0 < d ∧ 2 ^ mb ≤ q ∧ q < 2 ^ (mb + 1) ∧ r < h ∧ (m * 2 ^ e : ℚ) = q * 2 ^ (e + Nat.log2 m - mb) + r * d ∧
    h * d = 2 ^ (e + Nat.log2 m - mb) ∧ (roundsUp md neg (q % 2 == 1) r h → ieeeDigits md mb neg m = q + 1) ∧
    (¬ roundsUp md neg (q % 2 == 1) r h → ieeeDigits md mb neg m = q) := by
  have hle := Nat.log2_self_le hm.ne'
  have hlt : m < 2 ^ (Nat.log2 m + 1) := Nat.lt_log2_self
  unfold ieeeDigits
  generalize Nat.log2 m = lg at *
  by_cases hmb : mb ≤ lg
  · obtain ⟨s, rfl⟩ := Nat.exists_eq_add_of_le hmb
    have hs : mb + s - mb = s := by omega
    have hunit : (2 : ℚ) ^ (e + (mb + s : Nat) - mb) = 2 ^ s * 2 ^ e := by
      rw [← zpow_natCast, ← zpow_add₀ (by norm_num)]; congr 1; push_cast; ring
    rw [if_pos hmb, hs, hunit]
    refine ⟨m / 2 ^ s, m % 2 ^ s, 2 ^ s, 2 ^ e, by positivity, ?_, ?_, Nat.mod_lt _ (Nat.two_pow_pos _), ?_, by push_cast; rfl,
      (roundShift_cases md neg m s).1, (roundShift_cases md neg m s).2⟩
    · rw [Nat.le_div_iff_mul_le (Nat.two_pow_pos _), ← pow_add]; exact hle
    · rw [Nat.div_lt_iff_lt_mul (Nat.two_pow_pos _), ← pow_add, show mb + 1 + s = mb + s + 1 by omega]; exact hlt
    · have hdiv : (m : ℚ) = 2 ^ s * (m / 2 ^ s : Nat) + (m % 2 ^ s : Nat) := by exact_mod_cast (Nat.div_add_mod m (2 ^ s)).symm
      nth_rewrite 1 [hdiv]
      ring
  · obtain ⟨s, rfl⟩ := Nat.exists_eq_add_of_le (not_le.1 hmb).le
    have hs : lg + s - lg = s := by omega
    have hunit : (2 : ℚ) ^ (e + lg - (lg + s : Nat)) * 2 ^ s = 2 ^ e := by
      rw [← zpow_natCast, ← zpow_add₀ (by norm_num)]; congr 1; push_cast; ring
    rw [if_neg hmb, hs]
    refine ⟨m * 2 ^ s, 0, 1, 2 ^ (e + lg - (lg + s : Nat)), by positivity, ?_, ?_, Nat.one_pos, ?_, by simp,
      fun h => absurd h (not_roundsUp_zero md neg _ Nat.one_pos), fun _ => rfl⟩
    · rw [pow_add]; exact Nat.mul_le_mul_right _ hle
    · rw [show lg + s + 1 = lg + 1 + s by omega, pow_add]; exact Nat.mul_lt_mul_of_pos_right hlt (Nat.two_pow_pos _)
    · rw [← hunit]; push_cast; ring

end Sys2Proof.Words
end

section
/-! # Neighbours of a real among IEEE codes (R73, R77, R80) -/

namespace Sys2Proof.Words
open Sys2Proof Sys2Proof.Machine Sys2Proof.Claims

/-- A rounded code, or what stands for infinity. -/
def ieeeOut (d : DWord) (eb mb : Nat) (neg : Bool) (z : Nat) : Nat :=
  if z = ieeeTop eb mb ∧ (fdSat d = true ∨ fdRM d = 1 ∨ (fdRM d = 2 ∧ neg = true) ∨ (fdRM d = 3 ∧ neg = false)) then ieeeTop eb mb - 1 else z

def ieeeSign (eb mb : Nat) (neg : Bool) : Nat := if neg then 2 ^ (eb + mb) else 0

theorem overflow_eq {c eb mb : Nat} (h : IeeeFmt c eb mb) (d : DWord) (hrm : fdRM d ≤ 4) (neg : Bool) :
    overflow c (rmOf (fdRM d)) (fdSat d) neg = ieeeSign eb mb neg + ieeeOut d eb mb neg (ieeeTop eb mb) := by
  unfold overflow ieeeOut
  rw [signBit_eq h, fpInf_eq h]
  obtain hd | hd | hd | hd | hd : fdRM d = 0 ∨ fdRM d = 1 ∨ fdRM d = 2 ∨ fdRM d = 3 ∨ fdRM d = 4 := by omega
  all_goals rw [hd]; simp [rmOf, ieeeSign, ieeeTop]

section
variable {c eb mb : Nat} (hc : (c, eb, mb) ∈ ieeeShapes) (r : RCtx) (key : Nat) {m : Nat} (hm : 0 < m) (e : Int) (neg : Bool)
include hc

theorem round_num_ieee_eq : r.round c key (.num neg m e) =
    if e + Nat.log2 m < 1 - ieeeBias eb then (if fdSub r.d then none else some (ieeeSign eb mb neg)) else
      let code := (e + Nat.log2 m + ieeeBias eb).toNat * 2 ^ mb + (ieeeDigits (rmOf (fdRM r.d)) mb neg m - 2 ^ mb)
      if ieeeBias eb < e + Nat.log2 m || ieeeTop eb mb ≤ code then some (overflow c (rmOf (fdRM r.d)) (fdSat r.d) neg)
      else some (ieeeSign eb mb neg + code) := by
  have h := ieeeFmt hc
  rw [round_ieee h]
  unfold toIeee roundIeee
  dsimp only
  rw [h.shape, signBit_eq h, fpInf_eq h]
  cases fdSub r.d <;> rfl

include hm

theorem round_ieee_tiny (ha : (m * 2 ^ e : ℚ) < 2 ^ (1 - ieeeBias eb)) :
    r.round c key (.num neg m e) = if fdSub r.d then none else some (ieeeSign eb mb neg) := by
  rw [← not_le, zpow_le_num_iff hm, not_le] at ha
  rw [round_num_ieee_eq hc, if_pos ha]

theorem round_ieee_huge (hrm : fdRM r.d ≤ 4) (ha : (2 : ℚ) ^ (ieeeBias eb + 1) ≤ m * 2 ^ e) :
    r.round c key (.num neg m e) = some (ieeeSign eb mb neg + ieeeOut r.d eb mb neg (ieeeTop eb mb)) := by
  have hb : 0 ≤ ieeeBias eb := by
    have : (1 : Int) ≤ 2 ^ (eb - 1) := one_le_pow₀ (by norm_num)
    unfold ieeeBias
    omega
  rw [zpow_le_num_iff hm] at ha
  rw [round_num_ieee_eq hc, if_neg (by omega)]
  dsimp only
  rw [if_pos (by simp; omega), overflow_eq (ieeeFmt hc) r.d hrm]

/-- Where the exponent is in range, the digits say the code, and a code past the last is an overflow. -/
theorem round_ieee_code (hrm : fdRM r.d ≤ 4) (h1 : (2 : ℚ) ^ (1 - ieeeBias eb) ≤ m * 2 ^ e) (h2 : (m * 2 ^ e : ℚ) < 2 ^ (ieeeBias eb + 1))
    {z : Nat} (hz : z ≤ ieeeTop eb mb)
    (hcode : (e + Nat.log2 m + ieeeBias eb).toNat * 2 ^ mb + (ieeeDigits (rmOf (fdRM r.d)) mb neg m - 2 ^ mb) = z) :
    r.round c key (.num neg m e) = some (ieeeSign eb mb neg + ieeeOut r.d eb mb neg z) := by
  rw [zpow_le_num_iff hm] at h1
  rw [← not_le, zpow_le_num_iff hm] at h2
  rw [round_num_ieee_eq hc, if_neg (by omega)]
  dsimp only
  rw [hcode]
  by_cases htop : z = ieeeTop eb mb
  · rw [if_pos (by simp; omega), overflow_eq (ieeeFmt hc) r.d hrm, htop]
  · rw [if_neg (by simp; omega), ieeeOut, if_neg fun h => htop h.1]

/-- The code below a number in range is that of its digits. -/
theorem ieee_code_below {k q s h : Nat} {d : ℚ} (h1 : (2 : ℚ) ^ (1 - ieeeBias eb) ≤ m * 2 ^ e) (hk : k < ieeeTop eb mb)
    (hlo : ieeeVal c eb mb k ≤ m * 2 ^ e) (hhi : m * 2 ^ e < ieeeVal c eb mb (k + 1)) (hd : 0 < d) (hq : 2 ^ mb ≤ q) (hq' : q < 2 ^ (mb + 1))
    (hs : s < h) (ha : (m * 2 ^ e : ℚ) = q * 2 ^ (e + Nat.log2 m - mb) + s * d) (hu : h * d = 2 ^ (e + Nat.log2 m - mb)) :
    k = (e + Nat.log2 m + ieeeBias eb).toNat * 2 ^ mb + (q - 2 ^ mb) ∧ ieeeVal c eb mb k = q * 2 ^ (e + Nat.log2 m - mb) ∧
      ieeeVal c eb mb (k + 1) = (q + 1) * 2 ^ (e + Nat.log2 m - mb) ∧ (m * 2 ^ e : ℚ) < 2 ^ (ieeeBias eb + 1) := by
  have hfmt := ieeeFmt hc
  have hpow : 2 ^ eb = 2 * 2 ^ (eb - 1) := by have := hfmt.eb2; rw [← pow_succ']; congr 1; omega
  have h2 : 2 ^ 1 ≤ 2 ^ (eb - 1) := Nat.pow_le_pow_right (by decide) (by have := hfmt.eb2; omega)
  -- no subnormal code is below it
  have hmb : 2 ^ mb ≤ ieeeTop eb mb := Nat.le_mul_of_pos_left _ (by omega)
  have hmin : ieeeVal c eb mb (2 ^ mb) = 2 ^ (1 - ieeeBias eb) := by
    rw [ieeeVal_eq hc le_rfl hmb, ← powLin_int]
    push_cast
    rw [div_self (by positivity)]
  have hk1 : 2 ^ mb ≤ k := by
    by_contra hlt
    have hle : ieeeVal c eb mb (k + 1) ≤ 2 ^ (1 - ieeeBias eb) := by
      rcases (Nat.lt_or_ge (k + 1) (2 ^ mb)) with h | h
      · exact (ieeeVal_small hc h).le
      · rw [show k + 1 = 2 ^ mb by omega, hmin]
    exact absurd (h1.trans_lt hhi) hle.not_gt
  have hmax : ieeeVal c eb mb (k + 1) ≤ 2 ^ (ieeeBias eb + 1) := by
    have htop : ieeeVal c eb mb (ieeeTop eb mb) = 2 ^ (ieeeBias eb + 1) := if_pos rfl
    rw [← htop, ← not_lt, ieeeVal_lt_iff hc hmb le_rfl (by omega) hk]
    omega
  have ha2 : (m * 2 ^ e : ℚ) < 2 ^ (ieeeBias eb + 1) := hhi.trans_le hmax
  have hex := h1
  rw [zpow_le_num_iff hm] at hex
  have hex2 := ha2
  rw [← not_le, zpow_le_num_iff hm, not_le] at hex2
  -- the code of the digits
  obtain ⟨E, hE⟩ := Int.eq_ofNat_of_zero_le (show 0 ≤ e + Nat.log2 m + ieeeBias eb - 1 by omega)
  have hEb : E + 2 ≤ 2 ^ eb - 1 := by
    have hcast : (2 : Int) ^ (eb - 1) = ((2 ^ (eb - 1) : Nat) : Int) := by push_cast; rfl
    unfold ieeeBias at hE hex2
    rw [hcast] at hE hex2
    omega
  have hEtop : E * 2 ^ mb + 2 ^ mb + 2 ^ mb ≤ ieeeTop eb mb := by
    have := Nat.mul_le_mul_right (2 ^ mb) hEb
    rw [add_mul] at this
    unfold ieeeTop
    omega
  rw [pow_succ] at hq'
  have hval : ∀ j, q ≤ j → j ≤ q + 1 → ieeeVal c eb mb (E * 2 ^ mb + j) = j * 2 ^ (e + Nat.log2 m - mb) := by
    intro j hj hj'
    have hEq : (E : ℚ) = (e + Nat.log2 m : Int) + ieeeBias eb - 1 := by exact_mod_cast hE.symm
    have hj0 : (2 ^ mb : ℚ) ≤ j := by exact_mod_cast hq.trans hj
    have hj1 : (j : ℚ) ≤ 2 ^ mb * 2 := by exact_mod_cast (show j ≤ 2 ^ mb * 2 by omega)
    rw [ieeeVal_eq hc (by omega) (by omega), powLin_of_floor (n := e + Nat.log2 m) (y := j / 2 ^ mb - 1), zpow_sub₀ (by norm_num), zpow_natCast]
    · field_simp
      ring
    · rw [Nat.cast_add, Nat.cast_mul, hEq]
      push_cast
      field_simp
      ring
    · rw [sub_nonneg, le_div_iff₀ (by positivity)]
      linarith
    · rw [sub_le_iff_le_add, div_le_iff₀ (by positivity)]
      linarith
  have hv0 := hval q le_rfl (by omega)
  have hv1 := hval (q + 1) (by omega) le_rfl
  push_cast at hv1
  have hlow : ieeeVal c eb mb (E * 2 ^ mb + q) ≤ m * 2 ^ e := by
    rw [hv0, ha]
    exact le_add_of_nonneg_right (by positivity)
  have hhigh : m * 2 ^ e < ieeeVal c eb mb (E * 2 ^ mb + (q + 1)) := by
    have hsq : (s : ℚ) < h := by exact_mod_cast hs
    rw [hv1, ha, ← hu]
    linarith [mul_lt_mul_of_pos_right hsq hd]
  have hkq : k = E * 2 ^ mb + q := by
    have hle := (ieeeVal_lt_iff hc hk1 hk.le (by omega) (by omega)).1 (hlo.trans_lt hhigh)
    have hge := (ieeeVal_lt_iff hc (by omega) (by omega) (by omega) hk).1 (hlow.trans_lt hhi)
    omega
  have htoNat : (e + Nat.log2 m + ieeeBias eb).toNat = E + 1 := by omega
  rw [hkq, htoNat, hv0, add_assoc, hv1]
  exact ⟨by rw [add_mul]; omega, rfl, rfl, ha2⟩

/-- What R73, R77 and R80 say of the rounding of a real between two codes of an IEEE format. -/
theorem round_ieee_between (hrm : fdRM r.d ≤ 4) {k : Nat} (h1 : (2 : ℚ) ^ (1 - ieeeBias eb) ≤ m * 2 ^ e) (hk : k < ieeeTop eb mb)
    (hlo : ieeeVal c eb mb k ≤ m * 2 ^ e) (hhi : m * 2 ^ e < ieeeVal c eb mb (k + 1)) :
    let up := goesUp (fdRM r.d) neg (k % 2 == 1) (ieeeVal c eb mb k) ((ieeeVal c eb mb k + ieeeVal c eb mb (k + 1)) / 2) (m * 2 ^ e)
    (up → r.round c key (.num neg m e) = some (ieeeSign eb mb neg + ieeeOut r.d eb mb neg (k + 1))) ∧
    (¬ up → r.round c key (.num neg m e) = some (ieeeSign eb mb neg + k)) := by
  intro up
  obtain ⟨q, s, h, d, hd, hq, hq', hs, ha, hu, hup, hdown⟩ := ieeeDigits_cases (rmOf (fdRM r.d)) mb neg hm e
  obtain ⟨hkq, hv0, hv1, ha2⟩ := ieee_code_below hc hm e h1 hk hlo hhi hd hq hq' hs ha hu
  have hodd : (k % 2 == 1) = (q % 2 == 1) := by
    obtain ⟨i, hi⟩ := Nat.exists_eq_add_of_le' (ieeeFmt hc).mb1
    rw [hi, pow_succ] at hkq hq
    have : k % 2 = q % 2 := by
      rw [hkq, ← mul_assoc]
      omega
    rw [this]
  have hiff : up ↔ roundsUp (rmOf (fdRM r.d)) neg (q % 2 == 1) s h := by
    rw [roundsUp_rmOf hrm neg (q % 2 == 1) s h (lo := ieeeVal c eb mb k) hd, ← hodd, hu, hv0, ← ha]
    show goesUp _ _ _ _ _ _ ↔ _
    rw [hv0, hv1, show (q * 2 ^ (e + Nat.log2 m - mb) + (q + 1) * 2 ^ (e + Nat.log2 m - mb) : ℚ) / 2 =
      q * 2 ^ (e + Nat.log2 m - mb) + 2 ^ (e + Nat.log2 m - mb) / 2 by ring]
  refine ⟨fun hU => round_ieee_code hc r key hm e neg hrm h1 ha2 hk ?_, fun hU => ?_⟩
  · rw [hup (hiff.1 hU), hkq]
    omega
  · have hout : ieeeOut r.d eb mb neg k = k := if_neg fun h => hk.ne h.1
    rw [← hout]
    refine round_ieee_code hc r key hm e neg hrm h1 ha2 hk.le ?_
    rw [hdown (mt hiff.2 hU), hkq]
end

end Sys2Proof.Words
end

section
/-! # A conversion between formats (R75, R76, R168, R169) -/

namespace Sys2Proof.Words
open Sys2Proof Sys2Proof.Machine Sys2Proof.Claims Sys2Proof.Laws Sys2Proof.Together

/-! ## Its sources -/

/-- The register of scale bytes of a tb8 result (R169). -/
def cvtZ (fm : Form) : BitVec 5 := (e5Of fm).setWidth 5

/-- The source of scale bytes, where the format has blocks (R168). -/
def cvtScale (fd : DWord) (b : BitVec 5) (h : Hart) : Opd := if isBlock (fdFA fd) then .reg (h.getV b) 8 else .imm 0

/-- What remains of a conversion once its sources are read. -/
def cvtWrites (fm : Form) (d : BitVec 5) (r : RCtx) (oa sc : Opd) (es : List Nat) : M Unit := do
  if isTb8 (fdDst r.d) then
    let blocks := ((es.map (· / 32)).dedup).map fun k => (k, cvtBlock r oa sc (es.filter (· / 32 == k)))
    writeElts d 8 (blocks.flatMap fun x => x.2.1)
    writeElts (cvtZ fm) 8 (blocks.map fun x => (x.1, x.2.2))
  else
    finishElts d (fmtWidth (fdDst r.d)) (es.map fun e => (e, (cvtSource r.d oa sc e).bind (r.round (fdDst r.d) e)))
  countGroups (max (fmtWidth (fdFA r.d)) (fmtWidth (fdDst r.d)))

/-- The conditions of the statement on the registers that the descriptor names. -/
structure CvtReady (fm : Form) (d a b : BitVec 5) (f : BitVec 3) (s : State) : Prop where
  fd : fdOk { fa := some fun _ => true, dst := some (fun c => !isMx c), rounds := true } (fdValue fm f s.h) = true
  slots : noSlots ([d, a] ++ (if isBlock (fdFA (fdValue fm f s.h)) then [b] else []) ++
    if isTb8 (fdDst (fdValue fm f s.h)) then [cvtZ fm] else []) s.h = true
  scales : if isBlock (fdFA (fdValue fm f s.h)) then (!s.h.deadBit (vBit b)) = true ∧
    ∀ e, act fm s.h e = true → (s.h.getV b).eltPsn 8 (e / 32) = false else b = 0
  dest : if isTb8 (fdDst (fdValue fm f s.h)) then (!s.h.deadBit (vBit (cvtZ fm))) = true ∧ (∃ x l, fm = .ext x ∨ fm = .extLit x l)
    else e5Of fm = 0
  clean : cleanAt fm s.h [(a, fmtWidth (fdFA (fdValue fm f s.h)))] = true

/-- A poisoned source squashes; where there is none, the member goes on. -/
theorem find_none_ok {β : Type} {es : List Nat} {p : Nat → Bool} {g : Nat → M Unit} {next : Unit → M β} {u : State}
    (h : es.find? p = none) :
    (match es.find? p with | some e => g e >>= next | none => next ()) u = next () u := by
  rw [h]

section
variable {fm : Form} {d a b : BitVec 5} {f : BitVec 3} {s : State} {i : Instr} (h : CvtReady fm d a b f s)
include h

theorem CvtReady.cvtFd : cvtFd fm (fdValue fm f s.h) = true := by
  have hd := h.dest
  unfold Machine.cvtFd
  dsimp only
  rw [show fdOk { fa := some fun _ => true, dst := some cvtDst, rounds := true } (fdValue fm f s.h) = true from h.fd, Bool.true_and]
  cases htb : isTb8 (fdDst (fdValue fm f s.h))
  · rfl
  · rw [if_pos htb] at hd
    obtain ⟨-, x, l, rfl | rfl⟩ := hd <;> rfl

theorem CvtReady.live : ∀ q ∈ cvtNames fm (fdValue fm f s.h) b, s.h.deadBit q = false := by
  intro q hq
  have hsc := h.scales
  have hde := h.dest
  unfold cvtNames at hq
  rcases List.mem_append.1 hq with hq | hq
  · split at hq
    · next hb =>
      rw [if_pos hb] at hsc
      rw [List.mem_singleton.1 hq]
      simpa using hsc.1
    · cases hq
  · split at hq
    · next hb =>
      rw [if_pos hb] at hde
      rw [List.mem_singleton.1 hq]
      simpa [cvtZ] using hde.1
    · cases hq

theorem CvtReady.used : ((!isBlock (fdFA (fdValue fm f s.h)) && b != 0) || (!isTb8 (fdDst (fdValue fm f s.h)) && e5Of fm != 0)) = false := by
  have hsc := h.scales
  have hde := h.dest
  cases hb : isBlock (fdFA (fdValue fm f s.h)) <;> cases ht : isTb8 (fdDst (fdValue fm f s.h)) <;> simp_all

theorem CvtReady.clean_at {e : Nat} (he : act fm s.h e = true) :
    (s.h.getV a).eltPsn (fmtWidth (fdFA (fdValue fm f s.h))) e = false ∧ (cvtScale (fdValue fm f s.h) b s.h).psn (e / 32) = false := by
  have hsc := h.scales
  refine ⟨cleanAt_iff h.clean he _ List.mem_cons_self, ?_⟩
  unfold cvtScale
  split
  · next hb =>
    rw [if_pos hb] at hsc
    exact hsc.2 e he
  · rfl

/-- A conversion, once its checks are over. -/
theorem vcvtBody_begun {k : Bool} (hi : i = .vcvt fm d a b f k)
    (hr : ready i (max (fmtWidth (fdFA (fdValue fm f s.h))) (fmtWidth (fdDst (fdValue fm f s.h)))) s = true) :
    vcvtBody i fm d a b f (s.begin i) = cvtWrites fm d ⟨fdValue fm f s.h, s.h.sseed, s.h.sbase⟩
      (.reg (s.h.getV a) (fmtWidth (fdFA (fdValue fm f s.h)))) (cvtScale (fdValue fm f s.h) b s.h) (eltsOf fm s.h) (s.begin i) := by
  obtain ⟨hn, hu, hgrant⟩ := ready_parts hr
  obtain ⟨hda, hz⟩ := noSlots_append h.slots
  obtain ⟨hda, hb⟩ := noSlots_append hda
  obtain ⟨hd, ha⟩ := noSlots_cons hda
  have hmore : ∀ q ∈ decidedBits s.h i, s.h.deadBit q = false := by
    rw [hi]
    unfold decidedBits
    dsimp only
    rw [if_pos h.cvtFd]
    exact h.live
  have hzs : isTb8 (fdDst (fdValue fm f s.h)) = true → noSlot (cvtZ fm) (s.begin i) = (.ok (), s.begin i) := fun hc => by
    rw [if_pos hc] at hz
    exact noSlot_ok hu (noSlots_cons hz).1
  have hread : readSources s.h.vl.toNat ((a, fmtWidth (fdFA (fdValue fm f s.h))) :: if isBlock (fdFA (fdValue fm f s.h)) then [(b, 8)] else []) []
      (s.begin i) = (.ok (s.h.getV a :: if isBlock (fdFA (fdValue fm f s.h)) then [s.h.getV b] else []), s.begin i) := by
    have hslots := (noSlots_cons ha).1
    split
    · next hblk =>
      rw [if_pos hblk] at hb
      refine readSources_ok hu _ [(a, _), (b, 8)] [] ?_ fun x hx => absurd hx List.not_mem_nil
      unfold noSlots at hb ⊢
      rw [List.map_cons, List.all_cons, hslots, Bool.true_and]
      exact hb
    · exact readSources_ok hu _ [(a, _)] [] ha fun x hx => absurd hx List.not_mem_nil
  have hsc : (if isBlock (fdFA (fdValue fm f s.h)) = true then
      Opd.reg ((s.h.getV a :: if isBlock (fdFA (fdValue fm f s.h)) then [s.h.getV b] else []).getLastD { }) 8 else .imm 0) =
      cvtScale (fdValue fm f s.h) b s.h := by
    unfold cvtScale
    split
    · next hblk => rfl
    · rfl
  have hctx : rctx (fdValue fm f s.h) (s.begin i) = (.ok ⟨fdValue fm f s.h, s.h.sseed, s.h.sbase⟩, s.begin i) :=
    congrArg (fun h : Hart => (Except.ok (RCtx.mk (fdValue fm f s.h) h.sseed h.sbase), s.begin i)) hu.h_eq
  unfold vcvtBody
  refine (bind_ok hu.getH).trans ?_
  refine (bind_ok (checkNamed_more hu hn hmore)).trans ?_
  refine (bind_ok hu.getH).trans ?_
  refine (bind_ok (checkFd_ok h.cvtFd)).trans ?_
  refine (bind_ok (checkUnused_ok h.used)).trans ?_
  refine (bind_ok (checkLives_ok hu h.live)).trans ?_
  refine (bind_ok (checkGrant_ok hu hgrant)).trans ?_
  refine (bind_ok (noSlot_ok hu hd)).trans ?_
  refine (check_if_ok hzs).trans ?_
  refine (bind_ok hu.getH).trans ?_
  refine (bind_ok hread).trans ?_
  refine (bind_ok (atDispatch_ok hu)).trans ?_
  refine (bind_ok hu.getH).trans ?_
  refine (bind_ok (todo_ok hu fm _)).trans ?_
  dsimp only
  rw [hsc]
  refine (find_none_ok (List.find?_eq_none.2 fun e he => ?_)).trans ?_
  · obtain ⟨h1, h2⟩ := h.clean_at (mem_eltsOf.1 he)
    show ¬ ((s.h.getV a).eltPsn _ e || _) = true
    rw [h1, h2]
    exact Bool.false_ne_true
  · exact bind_ok hctx
end

end Sys2Proof.Words
end

section
/-! # What a conversion leaves (R75, R76, R168, R169) -/

namespace Sys2Proof.Words
open Sys2Proof Sys2Proof.Machine Sys2Proof.Claims Sys2Proof.Laws Sys2Proof.Together

/-- A value under the scale byte of its block (R168). -/
def cvtScaled (fd : DWord) (b : BitVec 5) (h : Hart) (e : Nat) (v : Val) : Val :=
  if isBlock (fdFA fd) then v.mul (scaleVal ((h.getV b).elt 8 (e / 32))) else v

/-- The value of an element. -/
def cvtVal (fd : DWord) (a b : BitVec 5) (h : Hart) (e : Nat) : Val :=
  cvtScaled fd b h e (valueOf (fdFA fd) ((h.getV a).elt (fmtWidth (fdFA fd)) e))

/-- What an element comes to, or none where it needs the assist. -/
def cvtRes (fd : DWord) (a b : BitVec 5) (h : Hart) (e : Nat) : Option Nat :=
  match sourceVal fd (fdDst fd) (fdFA fd) ((h.getV a).elt (fmtWidth (fdFA fd)) e) with
  | some v => (RCtx.mk fd h.sseed h.sbase).round (fdDst fd) e (cvtScaled fd b h e v)
  | none => none

/-- The active elements of a block, and the scale byte that it gets. -/
def cvtElts (fm : Form) (h : Hart) (c : Nat) : List Nat := (List.range h.vl.toNat).filter fun e => activeAt fm h e && e / 32 == c
def cvtByte (fm : Form) (fd : DWord) (a b : BitVec 5) (h : Hart) (c : Nat) : Nat := tb8Scale fd ((cvtElts fm h c).map (cvtVal fd a b h))

theorem cvtSource_eq (fd : DWord) (a b : BitVec 5) (h : Hart) (e : Nat) :
    cvtSource fd (.reg (h.getV a) (fmtWidth (fdFA fd))) (cvtScale fd b h) e =
      (sourceVal fd (fdDst fd) (fdFA fd) ((h.getV a).elt (fmtWidth (fdFA fd)) e)).map (cvtScaled fd b h e) := by
  unfold cvtSource cvtScaled cvtScale
  cases isBlock (fdFA fd) <;> rfl

theorem cvtRes_eq (fd : DWord) (a b : BitVec 5) (h : Hart) (e : Nat) :
    (cvtSource fd (.reg (h.getV a) (fmtWidth (fdFA fd))) (cvtScale fd b h) e).bind
      ((RCtx.mk fd h.sseed h.sbase).round (fdDst fd) e) = cvtRes fd a b h e := by
  rw [cvtSource_eq]
  unfold cvtRes
  cases sourceVal fd (fdDst fd) (fdFA fd) ((h.getV a).elt (fmtWidth (fdFA fd)) e) <;> rfl

theorem wholeBytes_dst {c : Nat} (h1 : isFmt c = true) (h2 : isMx c = false) : wholeBytes (fmtWidth c) := by
  unfold isFmt isBlock at h1
  rw [h2, Bool.or_false, Bool.or_eq_true, Bool.or_eq_true] at h1
  rcases h1 with (h1 | h1) | h1
  · exact wholeBytes_float h1
  · rw [show c = 0x0B by simpa [isTb8] using h1]
    exact ⟨0, rfl⟩
  · unfold isInt at h1
    simp only [Bool.and_eq_true, decide_eq_true_eq] at h1
    obtain ⟨hlo, hhi⟩ := h1
    rw [(intFmt hlo (by omega)).width]
    exact ⟨2 ^ (c % 4) - 1, by have := Nat.two_pow_pos (c % 4); omega⟩

theorem dst_of_fdOk {u : FdUse} {p : Nat → Bool} {d : DWord} (hu : u.dst = some p) (h : fdOk u d = true) :
    isFmt (fdDst d) = true ∧ p (fdDst d) = true := by
  unfold fdOk at h
  rw [hu] at h
  simp only [Bool.and_eq_true] at h
  obtain ⟨⟨⟨⟨-, hf, hp⟩, -⟩, -⟩, -⟩ := h
  exact ⟨hf, hp⟩

section
variable {fm : Form} {d a b : BitVec 5} {f : BitVec 3} {s : State} {k : Bool} (h : CvtReady fm d a b f s)
  (hr : ready (.vcvt fm d a b f k) (max (fmtWidth (fdFA (fdValue fm f s.h))) (fmtWidth (fdDst (fdValue fm f s.h)))) s = true)
include h hr

/-- A conversion to a format without blocks gives each active element its own result. -/
theorem vcvt_vDone (ht : isTb8 (fdDst (fdValue fm f s.h)) = false)
    (hres : ∀ e, act fm s.h e = true → (cvtRes (fdValue fm f s.h) a b s.h e).isSome = true) :
    VDone fm d (fmtWidth (fdDst (fdValue fm f s.h)))
      (fun e => if act fm s.h e then (cvtRes (fdValue fm f s.h) a b s.h e).map (·, false) else none) s
      (run (.vcvt fm d a b f k) (vcvtBody (.vcvt fm d a b f k) fm d a b f) s) := by
  obtain ⟨hn, hu, hgrant⟩ := ready_parts hr
  obtain ⟨hfmt, hmx⟩ := dst_of_fdOk rfl h.fd
  have hbody := vcvtBody_begun h rfl hr
  obtain ⟨c, hcount⟩ := countGroups_eq (max (fmtWidth (fdFA (fdValue fm f s.h))) (fmtWidth (fdDst (fdValue fm f s.h))))
    { s.begin (.vcvt fm d a b f k) with
      h := wrote d (fmtWidth (fdDst (fdValue fm f s.h))) (results (eltsOf fm s.h) (cvtRes (fdValue fm f s.h) a b s.h)) s.h }
  unfold cvtWrites at hbody
  dsimp only at hbody
  rw [ht, if_neg Bool.false_ne_true] at hbody
  simp only [cvtRes_eq] at hbody
  refine vDone_of (named_fresh hn) rfl (wholeBytes_dst hfmt (by simpa using hmx)) (nodup_results (nodup_eltsOf ..) _) (fun x hx => ?_)
    (fun e v p => ?_) (hbody.trans ((bind_ok (finishElts_all hu fun e he => hres e (mem_eltsOf.1 he))).trans hcount))
  · have hact := mem_eltsOf.1 (mem_results.1 hx).1
    rw [act, Bool.and_eq_true, decide_eq_true_eq] at hact
    exact elt_fits hgrant (le_max_right _ _) hact.1
  · rw [mem_results, mem_eltsOf]
    by_cases ha : act fm s.h e = true
    · rw [if_pos ha, Option.map_eq_some_iff]
      simp [ha, and_comm, eq_comm]
    · simp [ha]
end

end Sys2Proof.Words
end

section
/-! # A conversion to tb8 (R76, R169) -/

namespace Sys2Proof.Words
open Sys2Proof Sys2Proof.Machine Sys2Proof.Claims Sys2Proof.Laws Sys2Proof.Together

/-- The blocks with an active element. -/
def cvtBlocks (fm : Form) (h : Hart) : List Nat := ((eltsOf fm h).map (· / 32)).dedup

theorem mem_cvtElts {fm : Form} {h : Hart} {c e : Nat} : e ∈ cvtElts fm h c ↔ act fm h e = true ∧ e / 32 = c := by
  unfold cvtElts act
  rw [List.mem_filter, List.mem_range, Bool.and_eq_true, Bool.and_eq_true, decide_eq_true_eq, beq_iff_eq, and_assoc]

theorem mem_cvtBlocks {fm : Form} {h : Hart} {c : Nat} : c ∈ cvtBlocks fm h ↔ (cvtElts fm h c).isEmpty = false := by
  unfold cvtBlocks
  rw [List.mem_dedup, List.mem_map, List.isEmpty_eq_false_iff_exists_mem]
  exact exists_congr fun e => by rw [mem_cvtElts, mem_eltsOf]

theorem filter_eltsOf (fm : Form) (h : Hart) (c : Nat) : (eltsOf fm h).filter (· / 32 == c) = cvtElts fm h c := by
  unfold eltsOf cvtElts
  rw [List.filter_filter]
  exact List.filter_congr fun e _ => Bool.and_comm ..

/-- The codes of a tb8 result, and its scale bytes. -/
def cvtCodes (fm : Form) (r : RCtx) (a b : BitVec 5) (h : Hart) : List (Nat × Nat) :=
  (cvtBlocks fm h).flatMap fun c => (cvtElts fm h c).map fun e => (e, tb8Code r (cvtByte fm r.d a b h c) e (cvtVal r.d a b h e))
def cvtBytes (fm : Form) (fd : DWord) (a b : BitVec 5) (h : Hart) : List (Nat × Nat) :=
  (cvtBlocks fm h).map fun c => (c, cvtByte fm fd a b h c)

theorem mem_cvtCodes {fm : Form} {r : RCtx} {a b : BitVec 5} {h : Hart} {e v : Nat} : (e, v) ∈ cvtCodes fm r a b h ↔
    act fm h e = true ∧ v = tb8Code r (cvtByte fm r.d a b h (e / 32)) e (cvtVal r.d a b h e) := by
  unfold cvtCodes
  simp only [List.mem_flatMap, List.mem_map, Prod.mk.injEq, mem_cvtElts]
  constructor
  · rintro ⟨c, -, x, ⟨hx, rfl⟩, rfl, rfl⟩
    exact ⟨hx, rfl⟩
  · rintro ⟨he, rfl⟩
    refine ⟨e / 32, mem_cvtBlocks.2 (List.isEmpty_eq_false_iff_exists_mem.2 ⟨e, mem_cvtElts.2 ⟨he, rfl⟩⟩), e, ⟨he, rfl⟩, rfl, rfl⟩

theorem nodup_cvtCodes (fm : Form) (r : RCtx) (a b : BitVec 5) (h : Hart) : ((cvtCodes fm r a b h).map (·.1)).Nodup := by
  unfold cvtCodes
  rw [List.map_flatMap]
  simp only [List.map_map]
  refine List.nodup_flatMap.2 ⟨fun c _ => ?_, (List.nodup_dedup _).imp fun {c c'} hne => ?_⟩
  · rw [show ((fun x : Nat × Nat => x.1) ∘ fun e => (e, tb8Code r (cvtByte fm r.d a b h c) e (cvtVal r.d a b h e))) = id from rfl, List.map_id]
    exact List.nodup_range.filter _
  · intro e he he'
    obtain ⟨x, hx, rfl⟩ := List.mem_map.1 he
    obtain ⟨y, hy, hxy⟩ := List.mem_map.1 he'
    obtain rfl : y = x := hxy
    exact hne ((mem_cvtElts.1 hx).2.symm.trans (mem_cvtElts.1 hy).2)

theorem mem_cvtBytes {fm : Form} {fd : DWord} {a b : BitVec 5} {h : Hart} {c v : Nat} : (c, v) ∈ cvtBytes fm fd a b h ↔
    (cvtElts fm h c).isEmpty = false ∧ v = cvtByte fm fd a b h c := by
  unfold cvtBytes
  simp only [List.mem_map, Prod.mk.injEq, mem_cvtBlocks]
  constructor
  · rintro ⟨x, hx, rfl, rfl⟩
    exact ⟨hx, rfl⟩
  · rintro ⟨hc, rfl⟩
    exact ⟨c, hc, rfl, rfl⟩

theorem nodup_cvtBytes (fm : Form) (fd : DWord) (a b : BitVec 5) (h : Hart) : ((cvtBytes fm fd a b h).map (·.1)).Nodup := by
  unfold cvtBytes
  rw [List.map_map]
  exact (List.map_id _).symm ▸ List.nodup_dedup _

/-- The codes and the scale byte that the model computes for a block. -/
theorem cvtBlock_eq (fm : Form) (r : RCtx) (a b : BitVec 5) (h : Hart) (ht : isTb8 (fdDst r.d) = true) (c : Nat) :
    cvtBlock r (.reg (h.getV a) (fmtWidth (fdFA r.d))) (cvtScale r.d b h) ((eltsOf fm h).filter (· / 32 == c)) =
      ((cvtElts fm h c).map fun e => (e, tb8Code r (cvtByte fm r.d a b h c) e (cvtVal r.d a b h e)), cvtByte fm r.d a b h c) := by
  have hdst : fdDst r.d = 0x0B := by simpa [isTb8] using ht
  have hval : ∀ e, (cvtSource r.d (.reg (h.getV a) (fmtWidth (fdFA r.d))) (cvtScale r.d b h) e).getD .nar = cvtVal r.d a b h e := fun e => by
    rw [cvtSource_eq, sourceVal_exact (by omega)]
    rfl
  unfold cvtBlock
  rw [filter_eltsOf]
  simp only [hval, List.map_map]
  rfl

theorem writeElts_eq (d : BitVec 5) (w : Nat) (l : List (Nat × Nat)) (u : State) :
    writeElts d w l u = (.ok (), { u with h := wrote d w l u.h }) := rfl

section
variable {fm : Form} {d a b : BitVec 5} {f : BitVec 3} {s : State} {k : Bool} (h : CvtReady fm d a b f s)
  (hr : ready (.vcvt fm d a b f k) (max (fmtWidth (fdFA (fdValue fm f s.h))) (fmtWidth (fdDst (fdValue fm f s.h)))) s = true)
  (ht : isTb8 (fdDst (fdValue fm f s.h)) = true)
include h hr ht

/-- The hart after the codes and the scale bytes are written. -/
theorem vcvtBody_tb8 : ∃ c, vcvtBody (.vcvt fm d a b f k) fm d a b f (s.begin (.vcvt fm d a b f k)) =
    (.ok (), { s.begin (.vcvt fm d a b f k) with
      h := wrote (cvtZ fm) 8 (cvtBytes fm (fdValue fm f s.h) a b s.h)
        (wrote d 8 (cvtCodes fm ⟨fdValue fm f s.h, s.h.sseed, s.h.sbase⟩ a b s.h) s.h)
      ctrs := c }) := by
  obtain ⟨hn, hu, hgrant⟩ := ready_parts hr
  obtain ⟨c, hcount⟩ := countGroups_eq (max (fmtWidth (fdFA (fdValue fm f s.h))) (fmtWidth (fdDst (fdValue fm f s.h))))
    { s.begin (.vcvt fm d a b f k) with
      h := wrote (cvtZ fm) 8 (cvtBytes fm (fdValue fm f s.h) a b s.h)
        (wrote d 8 (cvtCodes fm ⟨fdValue fm f s.h, s.h.sseed, s.h.sbase⟩ a b s.h) s.h) }
  refine ⟨c, (vcvtBody_begun h rfl hr).trans ?_⟩
  have hblock := cvtBlock_eq fm ⟨fdValue fm f s.h, s.h.sseed, s.h.sbase⟩ a b s.h ht
  dsimp only at hblock
  unfold cvtWrites
  dsimp only
  rw [ht, if_pos rfl]
  simp only [hblock, List.flatMap_map, List.map_map]
  refine (bind_ok (writeElts_eq d 8 (cvtCodes fm ⟨fdValue fm f s.h, s.h.sseed, s.h.sbase⟩ a b s.h) _)).trans ?_
  refine (bind_ok (writeElts_eq (cvtZ fm) 8 (cvtBytes fm (fdValue fm f s.h) a b s.h) _)).trans ?_
  rw [hu.h_eq]
  exact hcount

/-- A conversion to tb8 writes the codes of the active elements and the scale bytes of their blocks. -/
theorem vcvt_tb8 : ∃ rd,
    let fd := fdValue fm f s.h
    let t := run (.vcvt fm d a b f k) (vcvtBody (.vcvt fm d a b f k) fm d a b f) s
    GotElts 8 (fun e => if act fm s.h e then
      some (tb8Code ⟨fd, s.h.sseed, s.h.sbase⟩ (cvtByte fm fd a b s.h (e / 32)) e (cvtVal fd a b s.h e), false) else none) (s.h.getV d) rd ∧
    GotElts 8 (fun c => if (cvtElts fm s.h c).isEmpty then none else some (cvtByte fm fd a b s.h c, false))
      (if cvtZ fm = d then rd else s.h.getV (cvtZ fm)) (t.h.getV (cvtZ fm)) ∧
    (cvtZ fm ≠ d → t.h.getV d = rd) ∧ (∀ q, q ≠ d → q ≠ cvtZ fm → t.h.getV q = s.h.getV q) ∧ Passed fm s t ∧ VesKept s t ∧ RestSameC s t ∧
    t.h = { s.h with v := t.h.v, vdirty := t.h.vdirty, vlive := t.h.vlive, pc := t.h.pc, park := none, ves := t.h.ves, vcm := t.h.vcm } := by
  obtain ⟨hn, -, hgrant⟩ := ready_parts hr
  obtain ⟨c, hb⟩ := vcvtBody_tb8 h hr ht
  obtain ⟨r, hres, hh, hrest⟩ := run_member (named_fresh hn) hb
  have hW : 8 ≤ max (fmtWidth (fdFA (fdValue fm f s.h))) (fmtWidth (fdDst (fdValue fm f s.h))) := by
    rw [show fdDst (fdValue fm f s.h) = 0x0B by simpa [isTb8] using ht]
    exact le_max_right _ _
  have hfits : ∀ e, act fm s.h e = true → (e + 1) * 8 ≤ 16384 := fun e he => by
    rw [act, Bool.and_eq_true, decide_eq_true_eq] at he
    exact elt_fits hgrant hW he.1
  obtain ⟨v1, d1, l1, hw1⟩ : ∃ v1 d1 l1, wrote d 8 (cvtCodes fm ⟨fdValue fm f s.h, s.h.sseed, s.h.sbase⟩ a b s.h) s.h =
      { s.h with v := v1, vdirty := d1, vlive := l1 } := ⟨_, _, _, wrote_eq ..⟩
  have hd1 : ({ s.h with v := v1, vdirty := d1, vlive := l1 } : Hart).getV d =
      putElts 8 (cvtCodes fm ⟨fdValue fm f s.h, s.h.sseed, s.h.sbase⟩ a b s.h) (s.h.getV d) := by rw [← hw1, getV_wrote, if_pos rfl]
  have hq1 : ∀ q, q ≠ d → ({ s.h with v := v1, vdirty := d1, vlive := l1 } : Hart).getV q = s.h.getV q := fun q hq => by
    rw [← hw1, getV_wrote, if_neg hq]
  rw [hw1] at hh
  obtain ⟨v2, d2, l2, hw2⟩ : ∃ v2 d2 l2, wrote (cvtZ fm) 8 (cvtBytes fm (fdValue fm f s.h) a b s.h)
      { s.h with v := v1, vdirty := d1, vlive := l1 } = { s.h with v := v2, vdirty := d2, vlive := l2 } := ⟨_, _, _, wrote_eq ..⟩
  have hv : ∀ q, (run (.vcvt fm d a b f k) (vcvtBody (.vcvt fm d a b f k) fm d a b f) s).h.getV q =
      (wrote (cvtZ fm) 8 (cvtBytes fm (fdValue fm f s.h) a b s.h) { s.h with v := v1, vdirty := d1, vlive := l1 }).getV q := fun q => by
    rw [hh]; rfl
  refine ⟨putElts 8 (cvtCodes fm ⟨fdValue fm f s.h, s.h.sseed, s.h.sbase⟩ a b s.h) (s.h.getV d), ?_, ?_, fun hz => ?_, fun q hqd hqz => ?_, ?_,
    vesKept_of hres hh ?_ ?_, hrest, ?_⟩
  · refine gotElts_putElts ⟨0, rfl⟩ _ (nodup_cvtCodes ..) (fun x hx => hfits _ (mem_cvtCodes.1 hx).1) fun e v p => ?_
    rw [mem_cvtCodes]
    by_cases he : act fm s.h e = true
    · simp [he, and_comm, eq_comm]
    · simp [he]
  · have hbase : (if cvtZ fm = d then putElts 8 (cvtCodes fm ⟨fdValue fm f s.h, s.h.sseed, s.h.sbase⟩ a b s.h) (s.h.getV d)
        else s.h.getV (cvtZ fm)) = ({ s.h with v := v1, vdirty := d1, vlive := l1 } : Hart).getV (cvtZ fm) := by
      split
      · next hz => rw [hz, hd1]
      · next hz => rw [hq1 _ hz]
    rw [hbase, hv, getV_wrote, if_pos rfl]
    refine gotElts_putElts ⟨0, rfl⟩ _ (nodup_cvtBytes ..) (fun x hx => ?_) fun c v p => ?_
    · obtain ⟨e, he⟩ := List.isEmpty_eq_false_iff_exists_mem.1 (mem_cvtBytes.1 hx).1
      obtain ⟨hact, hc⟩ := mem_cvtElts.1 he
      have := hfits e hact
      omega
    · rw [mem_cvtBytes]
      cases hc : (cvtElts fm s.h c).isEmpty
      · simp [and_comm, eq_comm]
      · simp
  · rw [hv, getV_wrote, if_neg (Ne.symm hz), hd1]
  · rw [hv, getV_wrote, if_neg hqz, hq1 q hqd]
  · show (run _ _ s).h.pc = _
    rw [hh, hw2]; rfl
  · rw [hw2]
  · rw [hw2]
  · rw [hh, hw2]; rfl
end

end Sys2Proof.Words
end

section
/-! # Conversions -/

namespace Sys2Proof.Words
open Sys2Proof Sys2Proof.Machine Sys2Proof.Claims Sys2Proof.Laws

/-- The first special cases speak of a tapered format by its code and size alone. -/
theorem tapShapes_of {c n : Nat} (h : (c, n) ∈ [(8, 8), (9, 16), (10, 32)]) : ∃ es, (c, n, es) ∈ tapShapes := by
  obtain ⟨rfl, rfl⟩ | ⟨rfl, rfl⟩ | ⟨rfl, rfl⟩ : (c = 8 ∧ n = 8) ∨ (c = 9 ∧ n = 16) ∨ (c = 10 ∧ n = 32) := by simpa using h
  exacts [⟨1, by decide⟩, ⟨1, by decide⟩, ⟨2, by decide⟩]

/-- Settles O30: `vcvt` by what it writes (`vcvt_vDone`, `vcvt_tb8`), values by the fields of their codes, and each rounding by the place of
the real among the codes (`round_num_tap`, `round_ieee_between`, `magInt_cases`). -/
theorem conversions : Obligations.Conversions := by
  refine ⟨fun fm d a b f k s => ?_, tap_values, fun c eb mb p => fp_values c eb mb p, fun c p h1 h2 => ratOf_valueOf_int h1 h2,
    fun r c key m k e neg hm => ⟨fun n es hc hmode => round_num_tap hc r key k hm e neg hmode, fun eb mb hc hrm => ?_,
      fun h1 h2 hrm hlo hhi => ?_⟩,
    fun r c key p neg d dst => ⟨fun n hc => ?_, fun eb mb hc => special_ieee (ieeeFmt hc) r key neg, fun h1 h2 => special_int h1 h2 r key neg,
      fun eb mb hc hdst he hf => sourceVal_subnormal (ieeeFmt hc) hdst he hf, sourceVal_exact⟩,
    fun r vs s e v top => ?_⟩
  · intro fd fa dst wa wd r blk vz scaled val res block byte live rest hfd hr hs hsc hd hclean
    have h : CvtReady fm d a b f s := ⟨hfd, hs, hsc, hd, hclean⟩
    exact ⟨fun ht hres => ⟨_, rfl, vcvt_vDone h hr ht hres⟩, fun ht => (vcvt_tb8 h hr ht).elim fun rd hrd => ⟨_, rd, rfl, hrd⟩⟩
  · exact ⟨fun ha => round_ieee_tiny hc r key hm e neg ha, fun ha => round_ieee_huge hc r key hm e neg hrm ha,
      fun ha hk hlo hhi => round_ieee_between hc r key hm e neg hrm ha hk hlo hhi⟩
  · obtain ⟨hup, hdown⟩ := magInt_cases hrm neg hlo hhi
    exact ⟨fun h => round_num_int h1 h2 r key m e neg (hup h), fun h => round_num_int h1 h2 r key m e neg (hdown h)⟩
  · obtain ⟨es, hes⟩ := tapShapes_of hc
    exact special_tap (tapFmt hes) r key neg
  · intro infinite spoilt below reaches hvs
    obtain ⟨hbad, hgood⟩ := tb8Scale_rule r.d hvs top
    exact ⟨hbad, hgood, rfl, fun hs hv => tb8Code_eq r hs e hv⟩

end Sys2Proof.Words
end
